-- ==== Sys2Proof/Word.lean ====
section
/-! DEFINITION. The word types of the ZS-7100 and the shape of its sparse maps. Plain types only: every operation on
them stands in Sys2Proof/Machine. -/

namespace Sys2Proof

/-- A 64-bit register or doubleword (06 R149). -/
abbrev Word := BitVec 64

/-- One byte of memory (00 R4). -/
abbrev Byte := BitVec 8

/-- One 32-bit lane of a vector register (08 R190). -/
abbrev Lane := BitVec 32

/-- A vector register: 64 lanes of 32 bits (06 Table 6.7). -/
abbrev VWord := Vector Lane 64

/-- A sparse table by key: what is not listed has the default its reader names. -/
abbrev Map (α : Type) := List (Nat × α)

end Sys2Proof
end

