-- ==== Sys2Proof/Syntax.lean ====
section
/-! DEFINITION. The instructions of ZA-1 and the steps of the device, as the opcode table lists them. A register field
has the width of its file, so a register outside its file cannot be written down; the forms of one major are distinct
data (an immediate form is not a register form with a spare field). -/

namespace Sys2Proof

abbrev SReg := BitVec 6
abbrev VReg := BitVec 5
abbrev PReg := BitVec 3
abbrev QReg := BitVec 3
abbrev XReg := BitVec 2
abbrev FReg := BitVec 2
abbrev AReg := BitVec 4
abbrev GReg := BitVec 3

/-- The condition of a scalar-class instruction or an engine command (06 R142): q and its negation. -/
structure Cond where
  q : QReg
  neg : Bool
  deriving DecidableEq, Repr

/-- The governing predicate of a vector instruction (06 R142). -/
structure Pred where
  p : PReg
  neg : Bool
  deriving DecidableEq, Repr

/-- An s source and its W bit: on an empty source, wait (false) or trap (true) (06 R151). -/
structure SSrc where
  r : SReg
  w : Bool
  deriving DecidableEq, Repr

/-- A v source and its W bit. -/
structure VSrc where
  r : VReg
  w : Bool
  deriving DecidableEq, Repr

/-- A q source and its W bit. -/
structure QSrc where
  r : QReg
  w : Bool
  deriving DecidableEq, Repr

/-- The immediate of a two-source instruction: IMM24 in 64 bits, IMM32 in 96 bits (06 R139, R140). -/
inductive Imm where
  | i24 (v : BitVec 24)
  | i32 (v : BitVec 32)
  deriving DecidableEq, Repr

/-- The immediate of a three-source instruction: IMM17 in 64 bits, IMM32 in 96 bits. -/
inductive Imm17 where
  | i17 (v : BitVec 17)
  | i32 (v : BitVec 32)
  deriving DecidableEq, Repr

/-- The immediate of LI (07 R160). -/
inductive LiImm where
  | i24 (v : BitVec 24)
  | i32 (v : BitVec 32)
  | i64 (v : BitVec 64)
  deriving DecidableEq, Repr

/-- Operand B of a scalar major: its register form or its immediate form (06 R141). -/
inductive OpB where
  | reg (b : SSrc)
  | imm (i : Imm)
  deriving DecidableEq, Repr

/-- Operand B of SEL (07 R161). -/
inductive SelB where
  | reg (b : SSrc)
  | imm (i : Imm17)
  deriving DecidableEq, Repr

/-- A six-bit selector given as an immediate or in a register: lane, rotation, range (07 R185, 08 R200). -/
inductive Sel6 where
  | imm (n : BitVec 6)
  | reg (b : SSrc)
  deriving DecidableEq, Repr

/-- The field of BFX and BFI (07 R175): position and length less one, or both in sB. -/
inductive FieldSel where
  | imm (pos len1 : BitVec 6)
  | reg (b : SSrc)
  deriving DecidableEq, Repr

/-- Operands of CHMASK (07 Table 7.5). -/
inductive ChmaskArg where
  | imm (chan : BitVec 6) (m : Bool)
  | reg (a b : SSrc)
  deriving DecidableEq, Repr

/-- The register that EMPTY inspects (07 R177). -/
inductive FeReg where
  | s (r : SReg)
  | v (r : VReg)
  | q (r : QReg)
  deriving DecidableEq, Repr

/-- Condition codes of CMPQ and CBR (07 Table 7.2). -/
inductive CmpCond where
  | eq | ne | lt | ge | ltu | geu | tst | ntst
  deriving DecidableEq, Repr

inductive LogOp where
  | and | or | xor | andn
  deriving DecidableEq, Repr

/-- QOP (07 R163): a binary op with its qB, or a unary one. -/
inductive QopArg where
  | bin (o : LogOp) (b : QSrc)
  | not
  | mov
  deriving DecidableEq, Repr

/-- PLOG (08 R197). -/
inductive PlogArg where
  | bin (o : LogOp) (b : PReg)
  | not
  | mov
  deriving DecidableEq, Repr

/-- Access sizes (06 Table 6.9). -/
inductive Size where
  | b | h | w | d
  deriving DecidableEq, Repr

/-- Scopes (06 Table 6.9). -/
inductive Scope where
  | task | core | cluster | stratum | stack | system
  deriving DecidableEq, Repr

/-- Rounding modes (03 R73). -/
inductive RMode where
  | rne | rtz | rdn | rup
  deriving DecidableEq, Repr

/-- Element types (06 Table 6.9). -/
inductive ElemT where
  | f32 | f16 | bf16 | e4m3 | e5m2 | i32 | i16 | i8 | uw | uh | ub
  deriving DecidableEq, Repr

/-- Types of the vector floating-point majors (08 Table 8.1). -/
inductive FpT where
  | f32 | f16 | bf16
  deriving DecidableEq, Repr

/-- Types of the vector integer majors (08 R194). -/
inductive IntT where
  | i32 | i16 | i8 | uw | uh | ub
  deriving DecidableEq, Repr

/-- Types of VCMP (08 R195). -/
inductive CmpT where
  | f32 | i32 | uw
  deriving DecidableEq, Repr

/-- Conditions of VCMP (08 R195); codes 8 to 15 raise ILLEGAL when the instruction executes (06 R146). -/
inductive VCond where
  | eq | ne | lt | le | gt | ge | un | or
  | bad (n : BitVec 3)
  deriving DecidableEq, Repr

/-- Types of VDOT (08 R202). -/
inductive DotT where
  | f16 | bf16 | e4m3 | e5m2 | i8 | ub
  deriving DecidableEq, Repr

/-- Ops of BRED (10 Table 10.10). -/
inductive BredOp where
  | add | max | min
  deriving DecidableEq, Repr

/-- Ops of VRED and VSCAN (08 Table 8.5). -/
inductive RedOp where
  | fsum | fmax | fmin | isum | smax | smin | umax | umin | and | or | xor
  deriving DecidableEq, Repr

/-- Ops of AMO and AMOR (08 R219). -/
inductive AmoOp where
  | add | fadd | fmax | smin | smax | umin | umax | and | or | xor | swap
  deriving DecidableEq, Repr

/-- Widths of VBCAST (08 Table 8.4). -/
inductive BcSize where
  | w | h | b
  deriving DecidableEq, Repr

/-- Operand B of a vector floating-point major (08 R191). -/
inductive VOpB where
  | v (b : VSrc)
  | s (b : SSrc)
  deriving DecidableEq, Repr

/-- Operand B of a vector integer major (08 R191). -/
inductive VIOpB where
  | v (b : VSrc)
  | s (b : SSrc)
  | imm (i : Imm)
  deriving DecidableEq, Repr

/-- The value of GSET (09 Table 9.1). -/
inductive GsetVal where
  | q (a : QSrc)
  | imm (v : Bool)
  deriving DecidableEq, Repr

/-- MZERO without a doubleword (64 bits) or with one that may hold a guard (128 bits) (09 R227). -/
inductive MzForm where
  | short
  | long (guard : Option GReg)
  deriving DecidableEq, Repr

/-- What an HBM controller meets on an access (20 R417, R418): an input. -/
inductive HbmKind where
  | clean                                             -- no error
  | corrected                                         -- one symbol corrected (type 0)
  | uncorrectable                                     -- two symbols (type 1)
  | retried (retry : Nat)                             -- parity, success after a retry (type 3)
  | swapped (lane : Nat)                              -- success after a lane swap (type 4)
  | laneFailed (lane : Nat)                           -- failure after the swap or no spare (type 5)
  | channelLost (lane : Nat)                          -- a channel without spare loses a lane (type 6)
  deriving DecidableEq, Repr

/-- What a store packet does to the bytes that it names: write them, or set or clear their bits in one step, as an atomic OR
or AND at its home does (09 R256, 10 R275). Table 20.3 has no such kind, and the mark stands beside the header (DESIGN
CHOICE, log 12). -/
inductive BitOp where
  | store | set | clear
  deriving DecidableEq, Repr

/-- A Sloim packet (20 Table 20.3), its link check and whether the link replays it aside. -/
structure Packet where
  kind : BitVec 4
  src : BitVec 7
  dst : BitVec 7
  seq : BitVec 48
  queue : BitVec 4
  index : BitVec 32
  flag : BitVec 32
  addr : BitVec 44
  mask : BitVec 32
  data : List Byte
  op : BitOp := .store
  deriving DecidableEq, Repr

/-- What the boot ROM finds of a firmware image (20 R420): the SHAKE256 digest of the public key in its header, whether
the signature verifies, its security version, and the SHAKE256 digest of the image. The digests and the verification are
an input (DEDUCED, log 15). -/
structure Image where
  keyDigest : BitVec 512
  verifies : Bool
  version : BitVec 64
  digest : BitVec 512
  deriving DecidableEq, Repr

/-- The operands of a step of the device: which units act, and the outside happening they meet (log 3; DEDUCED, log 15). Each
step's meaning says which of these it reads. -/
structure StepArg where
  i : Nat
  j : Nat
  k : Nat
  x : Word
  y : Word
  b : Bool
  l : List Nat
  bytes : List Byte
  packet : Packet
  hbm : HbmKind
  images : List Image
  deriving DecidableEq, Repr

/-- One row of the opcode table each. Rows 0 to 200 are instructions; from issueSelection on, the steps of the device,
whose operands the state holds beside them (StepArg). -/
inductive Instr where
  -- control (07 Table 7.1)
  | nop (c : Cond)
  | li (c : Cond) (d : SReg) (v : LiImm)
  | mov (c : Cond) (d : SReg) (a : SSrc)
  | sel (c : Cond) (d : SReg) (q : QSrc) (a : SSrc) (b : SelB)
  | cmpq (c : Cond) (cc : CmpCond) (d : QReg) (a : SSrc) (b : OpB)
  | qop (c : Cond) (d : QReg) (a : QSrc) (o : QopArg)
  | br (c : Cond) (off : Imm)
  | cbr (c : Cond) (cc : CmpCond) (a b : SSrc) (off : Imm)
  | jl (c : Cond) (d : SReg) (off : Imm)
  | jlr (c : Cond) (d : SReg) (a : SSrc) (disp : Imm)
  | jr (c : Cond) (a : SSrc) (disp : Imm)
  | trap (c : Cond) (code : BitVec 16)
  | syscall (c : Cond) (code : BitVec 16)
  | done (c : Cond)
  | yield (c : Cond) (k : BitVec 16)
  -- integer (07 Table 7.3)
  | add (c : Cond) (i32 : Bool) (d : SReg) (a : SSrc) (b : OpB)
  | sub (c : Cond) (i32 : Bool) (d : SReg) (a : SSrc) (b : OpB)
  | mul (c : Cond) (i32 : Bool) (d : SReg) (a : SSrc) (b : OpB)
  | mulh (c : Cond) (d : SReg) (a : SSrc) (b : OpB)
  | mulhu (c : Cond) (d : SReg) (a : SSrc) (b : OpB)
  | div (c : Cond) (i32 : Bool) (d : SReg) (a : SSrc) (b : OpB)
  | divu (c : Cond) (i32 : Bool) (d : SReg) (a : SSrc) (b : OpB)
  | rem (c : Cond) (i32 : Bool) (d : SReg) (a : SSrc) (b : OpB)
  | remu (c : Cond) (i32 : Bool) (d : SReg) (a : SSrc) (b : OpB)
  | and (c : Cond) (d : SReg) (a : SSrc) (b : OpB)
  | or (c : Cond) (d : SReg) (a : SSrc) (b : OpB)
  | xor (c : Cond) (d : SReg) (a : SSrc) (b : OpB)
  | andn (c : Cond) (d : SReg) (a : SSrc) (b : OpB)
  | shl (c : Cond) (i32 : Bool) (d : SReg) (a : SSrc) (b : OpB)
  | shr (c : Cond) (i32 : Bool) (d : SReg) (a : SSrc) (b : OpB)
  | sar (c : Cond) (i32 : Bool) (d : SReg) (a : SSrc) (b : OpB)
  | ror (c : Cond) (i32 : Bool) (d : SReg) (a : SSrc) (b : OpB)
  | min (c : Cond) (d : SReg) (a : SSrc) (b : OpB)
  | max (c : Cond) (d : SReg) (a : SSrc) (b : OpB)
  | minu (c : Cond) (d : SReg) (a : SSrc) (b : OpB)
  | maxu (c : Cond) (d : SReg) (a : SSrc) (b : OpB)
  | clz (c : Cond) (d : SReg) (a : SSrc)
  | ctz (c : Cond) (d : SReg) (a : SSrc)
  | popc (c : Cond) (d : SReg) (a : SSrc)
  | sext (c : Cond) (d : SReg) (a : SSrc) (n1 : BitVec 6)
  | zext (c : Cond) (d : SReg) (a : SSrc) (n1 : BitVec 6)
  | lea (c : Cond) (d : SReg) (a b : SSrc) (k : BitVec 2) (disp : Imm)
  | bfx (c : Cond) (signed : Bool) (d : SReg) (a : SSrc) (f : FieldSel)
  | bfi (c : Cond) (d : SReg) (a : SSrc) (f : FieldSel)
  | rdspec (c : Cond) (d : SReg) (sel : BitVec 8)
  | empty (c : Cond) (d : SReg) (r : FeReg)
  -- scalar memory (08 Table 8.6)
  | ld (c : Cond) (sz : Size) (sx xs1 : Bool) (d : SReg) (a : SSrc) (disp : Imm)
  | st (c : Cond) (sz : Size) (xs1 : Bool) (a : SSrc) (disp : Imm) (b : SSrc)
  | lda (c : Cond) (sz : Size) (scope : Scope) (d : SReg) (a : SSrc) (disp : Imm)
  | stl (c : Cond) (sz : Size) (scope : Scope) (a : SSrc) (disp : Imm) (b : SSrc)
  | ldsy (c : Cond) (sz : Size) (sx xs1 : Bool) (d : SReg) (a : SSrc) (disp : Imm)
  | feclr (c : Cond) (a : SSrc) (disp : Imm) (b : SSrc)
  | pref (c : Cond) (instr : Bool) (a : SSrc) (disp : Imm)
  -- task (07 Table 7.5)
  | send (c : Cond) (dest arg0 arg1 : SSrc) (chan : BitVec 6) (off : Option (BitVec 32))
  | sendp (c : Cond) (desc : SReg) (dest arg0 arg1 : SSrc) (chan : BitVec 6)
  | chmask (c : Cond) (d : SReg) (arg : ChmaskArg)
  | bara (c : Cond) (tag : BitVec 3)
  | barw (c : Cond) (tag : BitVec 3)
  | grab (c : Cond) (d : SReg) (range : Sel6)
  | rngset (c : Cond) (start rem cd : SSrc) (range : BitVec 6)
  | flowsig (c : Cond) (ctr : BitVec 6)
  -- vector floating point (08 Table 8.1)
  | vadd (p : Pred) (t : FpT) (d : VReg) (a : VSrc) (b : VOpB)
  | vsub (p : Pred) (t : FpT) (d : VReg) (a : VSrc) (b : VOpB)
  | vmul (p : Pred) (t : FpT) (d : VReg) (a : VSrc) (b : VOpB)
  | vfma (p : Pred) (t : FpT) (d : VReg) (a : VSrc) (b : VOpB) (cc : VSrc)
  | vfms (p : Pred) (t : FpT) (d : VReg) (a : VSrc) (b : VOpB) (cc : VSrc)
  | vfnma (p : Pred) (t : FpT) (d : VReg) (a : VSrc) (b : VOpB) (cc : VSrc)
  | vmin (p : Pred) (t : FpT) (d : VReg) (a : VSrc) (b : VOpB)
  | vmax (p : Pred) (t : FpT) (d : VReg) (a : VSrc) (b : VOpB)
  | vabs (p : Pred) (t : FpT) (d : VReg) (a : VSrc)
  | vneg (p : Pred) (t : FpT) (d : VReg) (a : VSrc)
  | vrcp (p : Pred) (d : VReg) (a : VSrc)
  | vrsq (p : Pred) (d : VReg) (a : VSrc)
  | vrsqe (p : Pred) (d : VReg) (a : VSrc) (b : SSrc)
  | vsqrt (p : Pred) (d : VReg) (a : VSrc)
  | vdiv (p : Pred) (d : VReg) (a : VSrc) (b : VOpB)
  | vexp2 (p : Pred) (d : VReg) (a : VSrc)
  | vlog2 (p : Pred) (d : VReg) (a : VSrc)
  | vclass (p : Pred) (t : FpT) (d : VReg) (a : VSrc)
  -- vector integer (08 Table 8.2)
  | viadd (p : Pred) (t : IntT) (d : VReg) (a : VSrc) (b : VIOpB)
  | visub (p : Pred) (t : IntT) (d : VReg) (a : VSrc) (b : VIOpB)
  | vimul (p : Pred) (t : IntT) (d : VReg) (a : VSrc) (b : VIOpB)
  | vimulh (p : Pred) (t : IntT) (d : VReg) (a : VSrc) (b : VIOpB)
  | vand (p : Pred) (t : IntT) (d : VReg) (a : VSrc) (b : VIOpB)
  | vor (p : Pred) (t : IntT) (d : VReg) (a : VSrc) (b : VIOpB)
  | vxor (p : Pred) (t : IntT) (d : VReg) (a : VSrc) (b : VIOpB)
  | vshl (p : Pred) (t : IntT) (d : VReg) (a : VSrc) (b : VIOpB)
  | vshr (p : Pred) (t : IntT) (d : VReg) (a : VSrc) (b : VIOpB)
  | vsar (p : Pred) (t : IntT) (d : VReg) (a : VSrc) (b : VIOpB)
  | vimin (p : Pred) (t : IntT) (d : VReg) (a : VSrc) (b : VIOpB)
  | vimax (p : Pred) (t : IntT) (d : VReg) (a : VSrc) (b : VIOpB)
  | vqadd (p : Pred) (t : IntT) (d : VReg) (a : VSrc) (b : VIOpB)
  -- compare, select, predicates (08 R195 to R197)
  | vcmp (p : Pred) (t : CmpT) (cond : VCond) (d : PReg) (a : VSrc) (b : VOpB)
  | vsel (p : Pred) (d : VReg) (cc : PReg) (a : VSrc) (b : VOpB)
  | plog (p : Pred) (d : PReg) (a : PReg) (o : PlogArg)
  | pcnt (p : Pred) (d : SReg) (a : PReg)
  | pfirst (p : Pred) (d : SReg) (a : PReg)
  -- conversion (08 R198, R199)
  | vcvt (p : Pred) (td ts : ElemT) (rm : RMode) (ns : Bool) (sel : BitVec 2) (d : VReg) (a : VSrc)
  | vqnt (p : Pred) (int4 : Bool) (rm : RMode) (sel : BitVec 3) (d : VReg) (a : VSrc) (b : SSrc)
  | vdqnt (p : Pred) (int4 : Bool) (sel : BitVec 3) (d : VReg) (a : VSrc) (b : SSrc)
  -- moves and reductions (08 R200 to R202)
  | vbcast (p : Pred) (sz : BcSize) (d : VReg) (a : SSrc)
  | vextr (p : Pred) (d : SReg) (a : VSrc) (n : Sel6)
  | vins (p : Pred) (d : VReg) (a : SSrc) (n : Sel6)
  | vshuf (p : Pred) (d : VReg) (a b : VSrc)
  | vrot (p : Pred) (d : VReg) (a : VSrc) (k : Sel6)
  | viota (p : Pred) (d : VReg) (a : SSrc)
  | vmov (p : Pred) (d : VReg) (a : VSrc)
  | vred (p : Pred) (op : RedOp) (d : SReg) (a : VSrc)
  | vscan (p : Pred) (op : RedOp) (d : VReg) (a : VSrc)
  | vdot (p : Pred) (t : DotT) (d : VReg) (a b : VSrc)
  -- vector memory, streams, FIFOs (08 R209 to R213)
  | vld (p : Pred) (xs1 : Bool) (d : VReg) (a : SSrc) (disp : Imm)
  | vst (p : Pred) (xs1 : Bool) (a : SSrc) (disp : Imm) (b : VSrc)
  | vlds (p : Pred) (xs1 : Bool) (d : VReg) (a : SSrc) (disp : Imm17) (cc : SSrc)
  | vsts (p : Pred) (xs1 : Bool) (a : SSrc) (disp : Imm17) (b : VSrc) (cc : SSrc)
  | vgth (p : Pred) (k : BitVec 2) (xs1 : Bool) (d : VReg) (a : SSrc) (disp : Imm17) (cc : VSrc)
  | vsct (p : Pred) (k : BitVec 2) (xs1 : Bool) (a : SSrc) (disp : Imm17) (b cc : VSrc)
  | vldsy (p : Pred) (xs1 : Bool) (d : VReg) (a : SSrc) (disp : Imm)
  | strm (p : Pred) (d : XReg) (a b cc : SSrc)
  | spopStream (p : Pred) (d : VReg) (x : XReg)
  | spopFifo (p : Pred) (d : VReg) (f : FReg)
  | spush (p : Pred) (d : FReg) (a : VSrc)
  -- copies (08 R214 to R218)
  | cpy (c : Cond) (tag : BitVec 8) (dx sx : BitVec 2) (a b cc : SSrc)
  | cpy2d (c : Cond) (tag : BitVec 8) (dx sx : BitVec 2) (a b : SSrc) (ss ds len rows : BitVec 16)
  | cpyw (c : Cond) (all : Bool) (tag : BitVec 8) (d : SReg)
  | cpyst (c : Cond) (tag : BitVec 8) (scope : Scope) (dx sx : BitVec 2) (a b cc : SSrc) (flag : SReg)
    (value : BitVec 64)
  -- atomics and fences (08 R219 to R222)
  | amo (c : Cond) (dw : Bool) (scope : Scope) (op : AmoOp) (aq rl : Bool) (d : SReg) (a b : SSrc)
  | amocas (c : Cond) (dw : Bool) (scope : Scope) (aq rl : Bool) (d : SReg) (a b cc : SSrc)
  | amor (c : Cond) (dw : Bool) (scope : Scope) (op : AmoOp) (rl : Bool) (a b : SSrc)
  | fence (c : Cond) (scope : Scope) (set : BitVec 4)
  | fencee (c : Cond) (scope : Scope)
  -- matrix (09 Table 9.1)
  | mlease (c : Cond)
  | mrel (c : Cond)
  | mls (c : Cond) (west i4 : Bool) (g : Option GReg) (a : SSrc) (stride : BitVec 32)
  | mma (c : Cond) (za i4 : Bool) (g : Option GReg) (d : AReg) (a : SSrc) (m1 : BitVec 9) (stride : BitVec 32)
  | mmag (c : Cond) (za i4 : Bool) (g : Option GReg) (d : AReg) (a : SSrc) (f : FReg) (nrow : BitVec 24) (m1 : BitVec 9)
      (stride : BitVec 32)
  | mrot (c : Cond) (za i4 : Bool) (g : Option GReg) (d : AReg) (load : Option (SSrc × BitVec 32))
  | mldt (c : Cond) (b8 ns : Bool) (a b : SSrc) (stride : BitVec 32)
  | mst (c : Cond) (int clr xs1 : Bool) (rm : RMode) (g : Option GReg) (a : SSrc) (b : AReg) (m1 : BitVec 9)
      (stride : BitVec 32)
  | mzero (c : Cond) (d : AReg) (n1 : BitVec 4) (form : MzForm)
  | mstat (c : Cond) (clr : Bool) (d : SReg)
  | gset (c : Cond) (g : GReg) (v : GsetVal)
  | gclr (c : Cond) (g : GReg)
  | gclrR (c : Cond) (g : GReg)
  | mwait (c : Cond) (n : BitVec 4)
  -- retrieval (09 Table 9.6)
  | rtset (c : Cond) (h : BitVec 4) (a : SSrc)
  | rtsetInit (c : Cond) (h : BitVec 4) (a : SSrc)
  | rhv (c : Cond) (f : FReg) (h : BitVec 4) (a : SSrc)
  | rprobe (c : Cond) (d : SReg) (a : SSrc) (h : BitVec 4) (h1 : BitVec 4) (m1 : BitVec 12) (spill : Option (BitVec 19))
  | rins (c : Cond) (h : BitVec 4) (a : SSrc)
  | rdel (c : Cond) (h : BitVec 4) (a : SSrc)
  | rhash (c : Cond) (h : BitVec 4) (a b : SSrc)
  | rhashFifo (c : Cond) (h : BitVec 4) (f : FReg)
  | rdirty (c : Cond) (f : FReg) (h : BitVec 4)
  | rfence (c : Cond) (scope : Scope)
  | rstat (c : Cond) (clr : Bool) (d : SReg) (h : BitVec 4) (sel : BitVec 3)
  -- trace and reward (10 Table 10.2)
  | trate (c : Cond) (k : BitVec 4) (a : SSrc)
  | treg (c : Cond) (n : BitVec 4) (a : SSrc)
  | tregInit (c : Cond) (n : BitVec 4) (a : SSrc)
  | tregX (c : Cond) (n : BitVec 4)
  | tstep (c : Cond) (n : BitVec 4)
  | tadv (c : Cond) (n : BitVec 4) (a : SSrc) (b cc : VSrc) (nr1 nc1 : BitVec 6)
  | tadvr (c : Cond) (n : BitVec 4) (a : SSrc) (b : VSrc) (cc : SSrc) (nc1 : BitVec 6)
  | trd (c : Cond) (d : VReg) (n : BitVec 4) (a : SSrc) (nc1 : BitVec 6)
  | tclrE (c : Cond) (n : BitVec 4) (a : SSrc) (nr1 : BitVec 16)
  | tclrD (c : Cond) (n : BitVec 4) (a : SSrc) (nr1 : BitVec 16)
  | rwd (c : Cond) (a b : SSrc)
  | rwdC (c : Cond) (a b : SSrc)
  | rwdw (c : Cond) (a : SSrc)
  | trhz (c : Cond) (clr : Bool) (d : SReg) (sel : BitVec 3) (k : BitVec 4)
  -- stack (10 Table 10.9)
  | sts (c : Cond) (sz : Size) (a : SSrc) (disp : Imm) (b : SSrc)
  | swait (c : Cond) (a : SSrc)
  | swaitOwn (c : Cond)
  | rdtime (c : Cond) (d : SReg)
  | stsb (c : Cond) (a b : SSrc) (len1 : BitVec 7)
  -- collective (10 Table 10.10)
  | bqpop (c : Cond) (d : SReg) (n : BitVec 4)
  | bred (c : Cond) (op : BredOp) (t : ElemT) (d : SReg) (a b : SSrc)
  | bsend (c : Cond) (t : ElemT) (a b cc : SSrc)
  | bqdone (c : Cond) (n : BitVec 4)
  -- windows (04 Table 4.6)
  | wdset (c : Cond) (w : BitVec 3) (a : SSrc)
  | wdget (c : Cond) (d : SReg) (w : BitVec 3)
  -- privileged (16 Table 16.3)
  | csrr (c : Cond) (d : SReg) (csr : BitVec 12)
  | csrw (c : Cond) (d : SReg) (csr : BitVec 12) (a : SSrc)
  | csrs (c : Cond) (d : SReg) (csr : BitVec 12) (a : SSrc)
  | csrc (c : Cond) (d : SReg) (csr : BitVec 12) (a : SSrc)
  | eret (c : Cond)
  | tlbiPage (c : Cond) (a : SSrc)
  | tlbiAll (c : Cond)
  | tlbiKid (c : Cond) (a : SSrc)
  | ctxsv (c : Cond) (d : SReg) (n : BitVec 3) (a : SSrc)
  | ctxsvM (c : Cond) (d : SReg) (n : BitVec 3) (a : SSrc)
  | ctxld (c : Cond) (d : SReg) (n : BitVec 3) (a : SSrc)
  | ctxldM (c : Cond) (d : SReg) (n : BitVec 3) (a : SSrc)
  | wfi (c : Cond)
  | satw (c : Cond) (a b : SSrc)
  | chset (c : Cond) (a : SSrc) (chan : BitVec 6) (b cc : SSrc)
  | preempt (c : Cond) (d : SReg) (a : SSrc)
  | sleeps (c : Cond) (d : SReg) (a : SSrc)
  | wakes (c : Cond) (d : SReg) (a : SSrc)
  | gangctlStatus (c : Cond) (d : SReg) (a : SSrc)
  | gangctlResume (c : Cond) (d : SReg) (a : SSrc)
  | gangctlKill (c : Cond) (d : SReg) (a : SSrc)
  -- steps of the device (the table's rows 201 to 271); their operands are in State's arg
  | issueSelection
  | priorityAging
  | yieldExpiry
  | fetchFill
  | eventArrival
  | sendAcceptance
  | eventBind
  | undeliverableReturn
  | barrierPhaseComplete
  | barrierCombine
  | rangeUnitOperation
  | producerResult
  | privateOverflowPerform
  | remoteStoreArrival
  | seAccess
  | copyUnit
  | copyCompletion
  | matrixRunGrant
  | matrixRunIdleTimeout
  | matrixCommandStart
  | matrixCommandComplete
  | rotationArrival
  | retrievalBucketOperation
  | rfenceAck
  | traceCommandApply
  | rewardSweep
  | swellSlotTransmit
  | swellBeatApply
  | satwApply
  | sleepComplete
  | mirrorCopyComplete
  | runAheadEnd
  | pageWalk
  | lqtailWrite
  | jobAdmission
  | counterDecrement
  | launchPriorityAging
  | placementRound
  | gangCompletion
  | evtailWrite
  | hostEventForward
  | owntagWrite
  | ellostClear
  | fttailWrite
  | ftlostClear
  | pcfgWrite
  | routeWrite
  | retrain
  | bqctlOpen
  | bqctlClose
  | reqWrite
  | raslostClear
  | bootclr
  | wreset
  | atgo
  | attestationReportDone
  | registerWrite
  | coldReset
  | hostMmio
  | cxlMemRequest
  | hbmAccess
  | sloimPacketReceive
  | portDown
  | routeFailTimeout
  | frequencyStopEnd
  | voltageRampDone
  | thermalCap
  | thermalHalt
  | thermalClear
  | stallWindow
  | portUp
  deriving DecidableEq, Repr

/-- A step of the device with its operands: what the agenda and the timers hold. -/
structure Step where
  op : Instr
  arg : StepArg
  deriving DecidableEq, Repr

/-- An image that the fused values of State.reset accept. -/
def Image.sound : Image := { keyDigest := 0, verifies := true, version := 0, digest := 0 }

def StepArg.none : StepArg where
  i := 0
  j := 0
  k := 0
  x := 0
  y := 0
  b := false
  l := []
  bytes := []
  packet := ⟨0, 0, 0, 0, 0, 0, 0, 0, 0, [], .store⟩
  hbm := .clean
  images := [Image.sound, Image.sound]

end Sys2Proof
end

