-- ==== Sys2Proof/WellFormed.lean ====
section
/-! DEFINITION. Which terms of Instr stand for an instruction word: what the types of Syntax cannot rule out. -/

namespace Sys2Proof

/-- A step of the device (rows 201 to 271 of the table): it has no instruction word. -/
def Instr.isStep : Instr → Bool
  | .issueSelection .. | .priorityAging .. | .yieldExpiry .. | .fetchFill .. | .eventArrival .. | .sendAcceptance ..
  | .eventBind .. | .undeliverableReturn .. | .barrierPhaseComplete .. | .barrierCombine .. | .rangeUnitOperation ..
  | .producerResult .. | .privateOverflowPerform .. | .remoteStoreArrival .. | .seAccess .. | .copyUnit ..
  | .copyCompletion .. | .matrixRunGrant .. | .matrixRunIdleTimeout .. | .matrixCommandStart ..
  | .matrixCommandComplete .. | .rotationArrival .. | .retrievalBucketOperation .. | .rfenceAck ..
  | .traceCommandApply .. | .rewardSweep .. | .swellSlotTransmit .. | .swellBeatApply .. | .satwApply ..
  | .sleepComplete .. | .mirrorCopyComplete .. | .runAheadEnd .. | .pageWalk .. | .lqtailWrite .. | .jobAdmission ..
  | .counterDecrement .. | .launchPriorityAging .. | .placementRound .. | .gangCompletion .. | .evtailWrite ..
  | .hostEventForward .. | .owntagWrite .. | .ellostClear .. | .fttailWrite .. | .ftlostClear .. | .pcfgWrite ..
  | .routeWrite .. | .retrain .. | .bqctlOpen .. | .bqctlClose .. | .reqWrite .. | .raslostClear .. | .bootclr ..
  | .wreset .. | .atgo .. | .attestationReportDone .. | .registerWrite .. | .coldReset .. | .hostMmio ..
  | .cxlMemRequest .. | .hbmAccess .. | .sloimPacketReceive .. | .portDown .. | .routeFailTimeout ..
  | .frequencyStopEnd .. | .voltageRampDone .. | .thermalCap .. | .thermalHalt .. | .thermalClear ..
  | .stallWindow .. | .portUp .. => true
  | _ => false

/-- The P and PN fields of an instruction: its condition or its governing predicate (06 R142). -/
def Instr.pField : Instr → BitVec 3 × Bool
  | .nop c | .li c .. | .mov c .. | .sel c .. | .cmpq c .. | .qop c .. | .br c .. | .cbr c .. | .jl c .. | .jlr c ..
  | .jr c .. | .trap c .. | .syscall c .. | .done c | .yield c .. | .add c .. | .sub c .. | .mul c .. | .mulh c ..
  | .mulhu c .. | .div c .. | .divu c .. | .rem c .. | .remu c .. | .and c .. | .or c .. | .xor c .. | .andn c ..
  | .shl c .. | .shr c .. | .sar c .. | .ror c .. | .min c .. | .max c .. | .minu c .. | .maxu c .. | .clz c ..
  | .ctz c .. | .popc c .. | .sext c .. | .zext c .. | .lea c .. | .bfx c .. | .bfi c .. | .rdspec c .. | .empty c ..
  | .ld c .. | .st c .. | .lda c .. | .stl c .. | .ldsy c .. | .feclr c .. | .pref c .. | .send c .. | .sendp c ..
  | .chmask c .. | .bara c .. | .barw c .. | .grab c .. | .rngset c .. | .flowsig c .. | .cpy c .. | .cpy2d c ..
  | .cpyw c .. | .cpyst c .. | .amo c .. | .amocas c .. | .amor c .. | .fence c .. | .fencee c .. | .mlease c
  | .mrel c | .mls c .. | .mma c .. | .mmag c .. | .mrot c .. | .mldt c .. | .mst c .. | .mzero c .. | .mstat c ..
  | .gset c .. | .gclr c .. | .gclrR c .. | .mwait c .. | .rtset c .. | .rtsetInit c .. | .rhv c .. | .rprobe c ..
  | .rins c .. | .rdel c .. | .rhash c .. | .rhashFifo c .. | .rdirty c .. | .rfence c .. | .rstat c .. | .trate c ..
  | .treg c .. | .tregInit c .. | .tregX c .. | .tstep c .. | .tadv c .. | .tadvr c .. | .trd c .. | .tclrE c ..
  | .tclrD c .. | .rwd c .. | .rwdC c .. | .rwdw c .. | .trhz c .. | .sts c .. | .swait c .. | .swaitOwn c
  | .rdtime c .. | .stsb c .. | .bqpop c .. | .bred c .. | .bsend c .. | .bqdone c .. | .wdset c .. | .wdget c ..
  | .csrr c .. | .csrw c .. | .csrs c .. | .csrc c .. | .eret c | .tlbiPage c .. | .tlbiAll c | .tlbiKid c ..
  | .ctxsv c .. | .ctxsvM c .. | .ctxld c .. | .ctxldM c .. | .wfi c | .satw c .. | .chset c .. | .preempt c ..
  | .sleeps c .. | .wakes c .. | .gangctlStatus c .. | .gangctlResume c .. | .gangctlKill c .. => (c.q, c.neg)
  | .vadd p .. | .vsub p .. | .vmul p .. | .vfma p .. | .vfms p .. | .vfnma p .. | .vmin p .. | .vmax p .. | .vabs p ..
  | .vneg p .. | .vrcp p .. | .vrsq p .. | .vrsqe p .. | .vsqrt p .. | .vdiv p .. | .vexp2 p .. | .vlog2 p ..
  | .vclass p .. | .viadd p .. | .visub p .. | .vimul p .. | .vimulh p .. | .vand p .. | .vor p .. | .vxor p ..
  | .vshl p .. | .vshr p .. | .vsar p .. | .vimin p .. | .vimax p .. | .vqadd p .. | .vcmp p .. | .vsel p ..
  | .plog p .. | .pcnt p .. | .pfirst p .. | .vcvt p .. | .vqnt p .. | .vdqnt p .. | .vbcast p .. | .vextr p ..
  | .vins p .. | .vshuf p .. | .vrot p .. | .viota p .. | .vmov p .. | .vred p .. | .vscan p .. | .vdot p ..
  | .vld p .. | .vst p .. | .vlds p .. | .vsts p .. | .vgth p .. | .vsct p .. | .vldsy p .. | .strm p ..
  | .spopStream p .. | .spopFifo p .. | .spush p .. => (p.p, p.neg)
  | _ => (0, false)

/-- The forms that the encoding tables do not list although the types admit them (06 R145, 08 R203, R219, 07 R179, 08 R217, 10 Table
10.3). -/
def Instr.formOk : Instr → Bool
  | .ld _ sz sx .. | .ldsy _ sz sx .. => !(sx && sz == .d)
  | .send _ _ _ _ chan off => off.isNone || chan == 63
  | .cpyw _ all tag _ => !all || tag == 0
  | .trhz _ _ _ w k => !(w == 2 || w == 3 || w == 4) || k == 0
  | .amo _ dw _ op .. | .amor _ dw _ op .. => !(dw && (op == .fadd || op == .fmax))
  | _ => true

/-- A well-formed instruction: no step of the device, no condition that never holds (06 R142), a listed form. -/
def Instr.wf (i : Instr) : Bool :=
  !i.isStep && !(i.pField.1 == 0 && i.pField.2) && i.formOk

end Sys2Proof
end

