-- ==== Sys2Proof/Decode.lean ====
section
/-! DEFINITION. Decoding: from the bytes of an instruction to Instr or to the reason it is refused (06 R135, R139 to
R147), and the encoder written from the same tables. -/

namespace Sys2Proof

/-- The fields of the 64-bit word (06 Table 6.2), its length code aside. In a three-source form imm holds C in bits 5:0,
WC in bit 6 and IMM17 in bits 23:7. -/
structure Raw where
  op : BitVec 8
  fn : BitVec 6
  d : BitVec 6
  a : BitVec 6
  b : BitVec 6
  p : BitVec 3
  pn : Bool
  wa : Bool
  wb : Bool
  imm : BitVec 24
  deriving DecidableEq, Repr

/-- What follows the word: nothing (64 bits), IMM32 (96 bits) or a doubleword (128 bits) (06 R135, R140). -/
inductive Ext where
  | none
  | w32 (v : BitVec 32)
  | w64 (v : BitVec 64)
  deriving DecidableEq, Repr

/-- Why a word is no instruction: steps 5, 7 and 8 of 06 Table 6.5. -/
inductive DErr where
  | illegal
  | reserved
  | badReg
  deriving DecidableEq, Repr

abbrev DRes := Except DErr Instr

/-- The first failure of steps 5, 7 and 8, or the instruction. -/
def sh (listed clean regs : Bool) (i : Instr) : DRes :=
  if listed then (if clean then (if regs then .ok i else .error .badReg) else .error .reserved) else .error .illegal

def boolBit (b : Bool) : Nat := if b then 1 else 0

/-- The 64-bit word of the fields (06 Table 6.2) under a length code. -/
def Raw.pack (r : Raw) (l : Nat) : Nat :=
  l + 4 * r.op.toNat + 1024 * r.fn.toNat + 65536 * r.d.toNat + 4194304 * r.a.toNat + 268435456 * r.b.toNat +
    17179869184 * r.p.toNat + 137438953472 * boolBit r.pn + 274877906944 * boolBit r.wa +
    549755813888 * boolBit r.wb + 1099511627776 * r.imm.toNat

/-- The fields of a 64-bit word. -/
def Raw.unpack (w : Nat) : Raw where
  op := BitVec.ofNat 8 (w / 4)
  fn := BitVec.ofNat 6 (w / 1024)
  d := BitVec.ofNat 6 (w / 65536)
  a := BitVec.ofNat 6 (w / 4194304)
  b := BitVec.ofNat 6 (w / 268435456)
  p := BitVec.ofNat 3 (w / 17179869184)
  pn := w / 137438953472 % 2 == 1
  wa := w / 274877906944 % 2 == 1
  wb := w / 549755813888 % 2 == 1
  imm := BitVec.ofNat 24 (w / 1099511627776)

/-! Fields of a word as operands. -/

def Raw.c (r : Raw) : Cond := ⟨r.p, r.pn⟩
def Raw.pr (r : Raw) : Pred := ⟨r.p, r.pn⟩
def Raw.cOk (r : Raw) : Bool := !(r.p == 0 && r.pn)
def Raw.sa (r : Raw) : SSrc := ⟨r.a, r.wa⟩
def Raw.sb (r : Raw) : SSrc := ⟨r.b, r.wb⟩
def Raw.cf (r : Raw) : BitVec 6 := r.imm.extractLsb' 0 6
def Raw.wc (r : Raw) : Bool := r.imm.getLsbD 6
def Raw.i17 (r : Raw) : BitVec 17 := r.imm.extractLsb' 7 17
def Raw.sc (r : Raw) : SSrc := ⟨r.cf, r.wc⟩
def v5 (x : BitVec 6) : VReg := x.setWidth 5
def Raw.va (r : Raw) : VSrc := ⟨v5 r.a, r.wa⟩
def Raw.vb (r : Raw) : VSrc := ⟨v5 r.b, r.wb⟩
def Raw.vc (r : Raw) : VSrc := ⟨v5 r.cf, r.wc⟩
def okV (x : BitVec 6) : Bool := x.extractLsb' 5 1 == 0
def ok8 (x : BitVec 6) : Bool := x.extractLsb' 3 3 == 0
def ok4 (x : BitVec 6) : Bool := x.extractLsb' 2 4 == 0
def ok16 (x : BitVec 6) : Bool := x.extractLsb' 4 2 == 0
def Raw.zd (r : Raw) : Bool := r.d == 0
def Raw.za (r : Raw) : Bool := r.a == 0 && !r.wa
def Raw.zb (r : Raw) : Bool := r.b == 0 && !r.wb
def Raw.zi (r : Raw) : Bool := r.imm == 0
/-- Bits of IMM24 from n upward are zero. -/
def Raw.ziFrom (r : Raw) (n : Nat) : Bool := r.imm.toNat < 2 ^ n
/-- Bits of IMM17 from n upward are zero. -/
def Raw.z17From (r : Raw) (n : Nat) : Bool := r.i17.toNat < 2 ^ n

/-! Codes of 06 Table 6.9 and of the instructions' own tables. -/

def sizeOf2 (x : BitVec 2) : Size :=
  match x with
  | 0 => .b
  | 1 => .h
  | 2 => .w
  | _ => .d

def Size.code : Size → BitVec 2
  | .b => 0
  | .h => 1
  | .w => 2
  | .d => 3

def scopeOf (x : BitVec 3) : Option Scope :=
  match x with
  | 0 => some .task
  | 1 => some .core
  | 2 => some .cluster
  | 3 => some .stratum
  | 4 => some .stack
  | 5 => some .system
  | _ => none

def Scope.code : Scope → BitVec 3
  | .task => 0
  | .core => 1
  | .cluster => 2
  | .stratum => 3
  | .stack => 4
  | .system => 5

def rmOf (x : BitVec 2) : RMode :=
  match x with
  | 0 => .rne
  | 1 => .rtz
  | 2 => .rdn
  | _ => .rup

def RMode.code : RMode → BitVec 2
  | .rne => 0
  | .rtz => 1
  | .rdn => 2
  | .rup => 3

def elemOf (x : BitVec 4) : Option ElemT :=
  match x with
  | 0 => some .f32
  | 1 => some .f16
  | 2 => some .bf16
  | 3 => some .e4m3
  | 4 => some .e5m2
  | 5 => some .i32
  | 6 => some .i16
  | 7 => some .i8
  | 8 => some .uw
  | 9 => some .uh
  | 10 => some .ub
  | _ => none

def ElemT.code : ElemT → BitVec 4
  | .f32 => 0
  | .f16 => 1
  | .bf16 => 2
  | .e4m3 => 3
  | .e5m2 => 4
  | .i32 => 5
  | .i16 => 6
  | .i8 => 7
  | .uw => 8
  | .uh => 9
  | .ub => 10

def FpT.elem : FpT → ElemT
  | .f32 => .f32
  | .f16 => .f16
  | .bf16 => .bf16

def fpOf (x : BitVec 4) : Option FpT :=
  match x with
  | 0 => some .f32
  | 1 => some .f16
  | 2 => some .bf16
  | _ => none

def IntT.elem : IntT → ElemT
  | .i32 => .i32
  | .i16 => .i16
  | .i8 => .i8
  | .uw => .uw
  | .uh => .uh
  | .ub => .ub

def intOf (x : BitVec 4) : Option IntT :=
  match x with
  | 5 => some .i32
  | 6 => some .i16
  | 7 => some .i8
  | 8 => some .uw
  | 9 => some .uh
  | 10 => some .ub
  | _ => none

def CmpT.elem : CmpT → ElemT
  | .f32 => .f32
  | .i32 => .i32
  | .uw => .uw

def cmpTOf (x : BitVec 4) : Option CmpT :=
  match x with
  | 0 => some .f32
  | 5 => some .i32
  | 8 => some .uw
  | _ => none

def DotT.elem : DotT → ElemT
  | .f16 => .f16
  | .bf16 => .bf16
  | .e4m3 => .e4m3
  | .e5m2 => .e5m2
  | .i8 => .i8
  | .ub => .ub

def dotOf (x : BitVec 6) : Option DotT :=
  match x with
  | 1 => some .f16
  | 2 => some .bf16
  | 3 => some .e4m3
  | 4 => some .e5m2
  | 7 => some .i8
  | 10 => some .ub
  | _ => none

def ccOf (x : BitVec 3) : CmpCond :=
  match x with
  | 0 => .eq
  | 1 => .ne
  | 2 => .lt
  | 3 => .ge
  | 4 => .ltu
  | 5 => .geu
  | 6 => .tst
  | _ => .ntst

def CmpCond.code : CmpCond → BitVec 3
  | .eq => 0
  | .ne => 1
  | .lt => 2
  | .ge => 3
  | .ltu => 4
  | .geu => 5
  | .tst => 6
  | .ntst => 7

def vcondOf (x : BitVec 4) : VCond :=
  match x with
  | 0 => .eq
  | 1 => .ne
  | 2 => .lt
  | 3 => .le
  | 4 => .gt
  | 5 => .ge
  | 6 => .un
  | 7 => .or
  | _ => .bad (x.setWidth 3)

def VCond.code : VCond → BitVec 4
  | .eq => 0
  | .ne => 1
  | .lt => 2
  | .le => 3
  | .gt => 4
  | .ge => 5
  | .un => 6
  | .or => 7
  | .bad n => 1#1 ++ n

def logOf (x : BitVec 6) : Option LogOp :=
  match x with
  | 0 => some .and
  | 1 => some .or
  | 2 => some .xor
  | 3 => some .andn
  | _ => none

def LogOp.code : LogOp → BitVec 6
  | .and => 0
  | .or => 1
  | .xor => 2
  | .andn => 3

def redOf (x : BitVec 6) : Option RedOp :=
  match x with
  | 0 => some .fsum
  | 1 => some .fmax
  | 2 => some .fmin
  | 3 => some .isum
  | 4 => some .smax
  | 5 => some .smin
  | 6 => some .umax
  | 7 => some .umin
  | 8 => some .and
  | 9 => some .or
  | 10 => some .xor
  | _ => none

def RedOp.code : RedOp → BitVec 6
  | .fsum => 0
  | .fmax => 1
  | .fmin => 2
  | .isum => 3
  | .smax => 4
  | .smin => 5
  | .umax => 6
  | .umin => 7
  | .and => 8
  | .or => 9
  | .xor => 10

def amoOf (x : BitVec 4) : Option AmoOp :=
  match x with
  | 0 => some .add
  | 1 => some .fadd
  | 2 => some .fmax
  | 3 => some .smin
  | 4 => some .smax
  | 5 => some .umin
  | 6 => some .umax
  | 7 => some .and
  | 8 => some .or
  | 9 => some .xor
  | 10 => some .swap
  | _ => none

def AmoOp.code : AmoOp → BitVec 4
  | .add => 0
  | .fadd => 1
  | .fmax => 2
  | .smin => 3
  | .smax => 4
  | .umin => 5
  | .umax => 6
  | .and => 7
  | .or => 8
  | .xor => 9
  | .swap => 10

def BredOp.code : BredOp → BitVec 6
  | .add => 0
  | .max => 1
  | .min => 2

def BcSize.code : BcSize → BitVec 6
  | .w => 0
  | .h => 1
  | .b => 2

/-! Shapes that several majors share. -/

/-- The immediate by length; IMM24 is reserved in the 96-bit form (06 R140). -/
def withImm (r : Raw) (x : Ext) (k : Imm → Bool → DRes) : DRes :=
  match x with
  | .none => k (.i24 r.imm) true
  | .w32 v => k (.i32 v) r.zi
  | .w64 _ => .error .illegal

/-- The displacement of a three-source major: IMM17, or IMM32 with IMM17 reserved (08 R209). -/
def withImm17 (r : Raw) (x : Ext) (k : Imm17 → Bool → DRes) : DRes :=
  match x with
  | .none => k (.i17 r.i17) true
  | .w32 v => k (.i32 v) (r.i17 == 0)
  | .w64 _ => .error .illegal

def only64 (x : Ext) (k : DRes) : DRes :=
  match x with
  | .none => k
  | _ => .error .illegal

def only128 (x : Ext) (k : BitVec 64 → DRes) : DRes :=
  match x with
  | .w64 w => k w
  | _ => .error .illegal

/-- An integer major with a register and an immediate form, and the .I32 forms where it lists them (07 Table 7.3). -/
def decAlu (i32ok : Bool) (mk : Bool → OpB → Instr) (r : Raw) (x : Ext) : DRes :=
  if r.fn == 0 || (i32ok && r.fn == 1) then
    only64 x (sh true (r.cOk && r.zi) true (mk (r.fn == 1) (.reg r.sb)))
  else if r.fn == 0x20 || (i32ok && r.fn == 0x21) then
    withImm r x fun i cl => sh true (r.cOk && r.zb && cl) true (mk (r.fn == 0x21) (.imm i))
  else .error .illegal

/-- A unary major of 64 bits with FN 0. -/
def decUn (mk : Instr) (r : Raw) (x : Ext) : DRes :=
  only64 x (sh (r.fn == 0) (r.cOk && r.zb && r.zi) true mk)

/-- SEXT and ZEXT (07 R173). -/
def decExt (mk : BitVec 6 → Instr) (r : Raw) (x : Ext) : DRes :=
  only64 x (sh (r.fn == 0x20) (r.cOk && r.zb && r.ziFrom 6) true (mk (r.imm.setWidth 6)))

/-- BFX and BFI (07 R175); low bit of FN as the caller lists it. -/
def decField (sOk : Bool) (mk : Bool → FieldSel → Instr) (r : Raw) (x : Ext) : DRes :=
  if r.fn == 0 || (sOk && r.fn == 1) then
    only64 x (sh true (r.cOk && r.zi) true (mk (r.fn == 1) (.reg r.sb)))
  else if r.fn == 0x20 || (sOk && r.fn == 0x21) then
    only64 x (sh true (r.cOk && r.zb && r.ziFrom 12) true
      (mk (r.fn == 0x21) (.imm (r.imm.setWidth 6) (r.imm.extractLsb' 6 6))))
  else .error .illegal

/-- A vector floating-point major of two or three sources (08 R191, R192). -/
def decVOpB (r : Raw) : VOpB := if r.fn.getLsbD 4 then .s r.sb else .v r.vb
def okVOpB (r : Raw) : Bool := r.fn.getLsbD 4 || okV r.b

def decVfp (mk : FpT → VOpB → Instr) (r : Raw) (x : Ext) : DRes :=
  match fpOf (r.fn.setWidth 4) with
  | none => .error .illegal
  | some t =>
    only64 x (sh (!r.fn.getLsbD 5) (r.cOk && r.zi) (okV r.d && okV r.a && okVOpB r) (mk t (decVOpB r)))

def decVfp3 (mk : FpT → VOpB → VSrc → Instr) (r : Raw) (x : Ext) : DRes :=
  match fpOf (r.fn.setWidth 4) with
  | none => .error .illegal
  | some t =>
    only64 x (sh (!r.fn.getLsbD 5) (r.cOk && r.i17 == 0) (okV r.d && okV r.a && okVOpB r && okV r.cf)
      (mk t (decVOpB r) r.vc))

def decVfp1 (mk : FpT → Instr) (r : Raw) (x : Ext) : DRes :=
  match fpOf (r.fn.setWidth 4) with
  | none => .error .illegal
  | some t =>
    only64 x (sh (r.fn.extractLsb' 4 2 == 0) (r.cOk && r.zb && r.zi) (okV r.d && okV r.a) (mk t))

/-- A vector major of one type (FN 0) and one v source. -/
def decV1 (mk : Instr) (r : Raw) (x : Ext) : DRes :=
  only64 x (sh (r.fn == 0) (r.cOk && r.zb && r.zi) (okV r.d && okV r.a) mk)

/-- A vector integer major (08 R191, R194). -/
def decVint (mk : IntT → VIOpB → Instr) (r : Raw) (x : Ext) : DRes :=
  match intOf (r.fn.setWidth 4) with
  | none => .error .illegal
  | some t =>
    if r.fn.extractLsb' 4 2 == 0 then
      only64 x (sh true (r.cOk && r.zi) (okV r.d && okV r.a && okV r.b) (mk t (.v r.vb)))
    else if r.fn.extractLsb' 4 2 == 1 then
      only64 x (sh true (r.cOk && r.zi) (okV r.d && okV r.a) (mk t (.s r.sb)))
    else if r.fn.extractLsb' 4 2 == 2 then
      withImm r x fun i cl => sh true (r.cOk && r.zb && cl) (okV r.d && okV r.a) (mk t (.imm i))
    else .error .illegal

/-- A selector in an immediate (FN 0x20) or in sB (FN 0) (08 R200). -/
def decSel6 (regs : Bool) (mk : Sel6 → Instr) (r : Raw) (x : Ext) : DRes :=
  if r.fn == 0x20 then only64 x (sh true (r.cOk && r.zb && r.ziFrom 6) regs (mk (.imm (r.imm.setWidth 6))))
  else if r.fn == 0 then only64 x (sh true (r.cOk && r.zi) regs (mk (.reg r.sb)))
  else .error .illegal

/-- The guard of an engine operand doubleword (09 R227): GE in bit 63, GIDX in bits 62:60. -/
def dwGuard (w : BitVec 64) : Option GReg := if w.getLsbD 63 then some (w.extractLsb' 60 3) else none
def dwGuardOk (w : BitVec 64) : Bool := w.getLsbD 63 || w.extractLsb' 60 3 == 0
/-- Bits 59 down to n of a doubleword are zero. -/
def dwZero (w : BitVec 64) (n : Nat) : Bool := w.toNat % 2 ^ 60 < 2 ^ n

/-- A command with nothing but a small immediate of n bits. -/
def decPlain (fn : BitVec 6) (n : Nat) (mk : Instr) (r : Raw) (x : Ext) : DRes :=
  only64 x (sh (r.fn == fn) (r.cOk && r.zd && r.za && r.zb && r.ziFrom n) true mk)

/-- A command with source A and a small immediate of n bits. -/
def decA (fn : BitVec 6) (n : Nat) (mk : Instr) (r : Raw) (x : Ext) : DRes :=
  only64 x (sh (r.fn == fn) (r.cOk && r.zd && r.zb && r.ziFrom n) true mk)

/-- A command with destination D and a small immediate of n bits. -/
def decD (fn : BitVec 6) (n : Nat) (mk : Instr) (r : Raw) (x : Ext) : DRes :=
  only64 x (sh (r.fn == fn) (r.cOk && r.za && r.zb && r.ziFrom n) true mk)

/-- A command with destination D, source A and a small immediate of n bits. -/
def decDA (fn : BitVec 6) (n : Nat) (mk : Instr) (r : Raw) (x : Ext) : DRes :=
  only64 x (sh (r.fn == fn) (r.cOk && r.zb && r.ziFrom n) true mk)

/-- A command with sources A and B and a small immediate of n bits. -/
def decAB (fn : BitVec 6) (n : Nat) (mk : Instr) (r : Raw) (x : Ext) : DRes :=
  only64 x (sh (r.fn == fn) (r.cOk && r.zd && r.ziFrom n) true mk)

/-- The low four bits of IMM24. -/
def Raw.n4 (r : Raw) : BitVec 4 := r.imm.setWidth 4

/-! Decoding by groups of majors (06 Table 6.6). -/

def decControl (r : Raw) (x : Ext) : DRes :=
  match r.op with
  | 0x01 => decPlain 0 0 (.nop r.c) r x
  | 0x02 =>
    match x with
    | .none => sh (r.fn == 0x20) (r.cOk && r.za && r.zb) true (.li r.c r.d (.i24 r.imm))
    | .w32 v => sh (r.fn == 0x20) (r.cOk && r.za && r.zb && r.zi) true (.li r.c r.d (.i32 v))
    | .w64 v => sh (r.fn == 0x20) (r.cOk && r.za && r.zb && r.zi) true (.li r.c r.d (.i64 v))
  | 0x03 => decUn (.mov r.c r.d r.sa) r x
  | 0x04 =>
    if r.fn == 0 then
      only64 x (sh true (r.cOk && r.i17 == 0) (ok8 r.cf)
        (.sel r.c r.d ⟨r.cf.setWidth 3, r.wc⟩ r.sa (.reg r.sb)))
    else if r.fn == 0x20 then
      withImm17 r x fun i cl => sh true (r.cOk && r.zb && cl) (ok8 r.cf)
        (.sel r.c r.d ⟨r.cf.setWidth 3, r.wc⟩ r.sa (.imm i))
    else .error .illegal
  | 0x05 =>
    if r.fn.extractLsb' 3 3 == 0 then
      only64 x (sh true (r.cOk && r.zi) (ok8 r.d)
        (.cmpq r.c (ccOf (r.fn.setWidth 3)) (r.d.setWidth 3) r.sa (.reg r.sb)))
    else if r.fn.extractLsb' 3 3 == 4 then
      withImm r x fun i cl => sh true (r.cOk && r.zb && cl) (ok8 r.d)
        (.cmpq r.c (ccOf (r.fn.setWidth 3)) (r.d.setWidth 3) r.sa (.imm i))
    else .error .illegal
  | 0x06 =>
    match logOf r.fn with
    | some o =>
      only64 x (sh true (r.cOk && r.zi) (ok8 r.d && ok8 r.a && ok8 r.b)
        (.qop r.c (r.d.setWidth 3) ⟨r.a.setWidth 3, r.wa⟩ (.bin o ⟨r.b.setWidth 3, r.wb⟩)))
    | none =>
      only64 x (sh (r.fn == 4 || r.fn == 5) (r.cOk && r.zb && r.zi) (ok8 r.d && ok8 r.a)
        (.qop r.c (r.d.setWidth 3) ⟨r.a.setWidth 3, r.wa⟩ (if r.fn == 4 then .not else .mov)))
  | 0x07 => withImm r x fun i cl => sh (r.fn == 0x20) (r.cOk && r.zd && r.za && r.zb && cl) true (.br r.c i)
  | 0x08 =>
    withImm r x fun i cl =>
      sh (r.fn.extractLsb' 3 3 == 0) (r.cOk && r.zd && cl) true (.cbr r.c (ccOf (r.fn.setWidth 3)) r.sa r.sb i)
  | 0x09 => withImm r x fun i cl => sh (r.fn == 0x20) (r.cOk && r.za && r.zb && cl) true (.jl r.c r.d i)
  | 0x0A => withImm r x fun i cl => sh (r.fn == 0) (r.cOk && r.zb && cl) true (.jlr r.c r.d r.sa i)
  | 0x0B => withImm r x fun i cl => sh (r.fn == 0) (r.cOk && r.zd && r.zb && cl) true (.jr r.c r.sa i)
  | 0x0C => decPlain 0x20 16 (.trap r.c (r.imm.setWidth 16)) r x
  | 0x0D => decPlain 0x20 16 (.syscall r.c (r.imm.setWidth 16)) r x
  | 0x0E => decPlain 0 0 (.done r.c) r x
  | 0x0F => decPlain 0x20 16 (.yield r.c (r.imm.setWidth 16)) r x
  | _ => .error .illegal

def decInteger (r : Raw) (x : Ext) : DRes :=
  match r.op with
  | 0x10 => decAlu true (fun w b => .add r.c w r.d r.sa b) r x
  | 0x11 => decAlu true (fun w b => .sub r.c w r.d r.sa b) r x
  | 0x12 => decAlu true (fun w b => .mul r.c w r.d r.sa b) r x
  | 0x13 => decAlu false (fun _ b => .mulh r.c r.d r.sa b) r x
  | 0x14 => decAlu false (fun _ b => .mulhu r.c r.d r.sa b) r x
  | 0x15 => decAlu true (fun w b => .div r.c w r.d r.sa b) r x
  | 0x16 => decAlu true (fun w b => .divu r.c w r.d r.sa b) r x
  | 0x17 => decAlu true (fun w b => .rem r.c w r.d r.sa b) r x
  | 0x18 => decAlu true (fun w b => .remu r.c w r.d r.sa b) r x
  | 0x19 => decAlu false (fun _ b => .and r.c r.d r.sa b) r x
  | 0x1A => decAlu false (fun _ b => .or r.c r.d r.sa b) r x
  | 0x1B => decAlu false (fun _ b => .xor r.c r.d r.sa b) r x
  | 0x1C => decAlu false (fun _ b => .andn r.c r.d r.sa b) r x
  | 0x1D => decAlu true (fun w b => .shl r.c w r.d r.sa b) r x
  | 0x1E => decAlu true (fun w b => .shr r.c w r.d r.sa b) r x
  | 0x1F => decAlu true (fun w b => .sar r.c w r.d r.sa b) r x
  | 0x20 => decAlu true (fun w b => .ror r.c w r.d r.sa b) r x
  | 0x21 => decAlu false (fun _ b => .min r.c r.d r.sa b) r x
  | 0x22 => decAlu false (fun _ b => .max r.c r.d r.sa b) r x
  | 0x23 => decAlu false (fun _ b => .minu r.c r.d r.sa b) r x
  | 0x24 => decAlu false (fun _ b => .maxu r.c r.d r.sa b) r x
  | 0x25 => decUn (.clz r.c r.d r.sa) r x
  | 0x26 => decUn (.ctz r.c r.d r.sa) r x
  | 0x27 => decUn (.popc r.c r.d r.sa) r x
  | 0x28 => decExt (fun n => .sext r.c r.d r.sa n) r x
  | 0x29 => decExt (fun n => .zext r.c r.d r.sa n) r x
  | 0x2A =>
    withImm r x fun i cl => sh (r.fn.extractLsb' 2 4 == 0) (r.cOk && cl) true
      (.lea r.c r.d r.sa r.sb (r.fn.setWidth 2) i)
  | 0x2B => decField true (fun s f => .bfx r.c s r.d r.sa f) r x
  | 0x2C => decField false (fun _ f => .bfi r.c r.d r.sa f) r x
  | 0x2D => decD 0x20 8 (.rdspec r.c r.d (r.imm.setWidth 8)) r x
  | 0x2E =>
    if r.fn == 0 then only64 x (sh true (r.cOk && !r.wa && r.zb && r.zi) true (.empty r.c r.d (.s r.a)))
    else if r.fn == 1 then only64 x (sh true (r.cOk && !r.wa && r.zb && r.zi) (okV r.a) (.empty r.c r.d (.v (v5 r.a))))
    else if r.fn == 2 then
      only64 x (sh true (r.cOk && !r.wa && r.zb && r.zi) (ok8 r.a) (.empty r.c r.d (.q (r.a.setWidth 3))))
    else .error .illegal
  | _ => .error .illegal

def decScalarMem (r : Raw) (x : Ext) : DRes :=
  let sz := sizeOf2 (r.fn.setWidth 2)
  match r.op with
  | 0x30 =>
    withImm r x fun i cl => sh (r.fn.extractLsb' 4 2 == 0 && !(r.fn.getLsbD 2 && sz == .d)) (r.cOk && r.zb && cl) true
      (.ld r.c sz (r.fn.getLsbD 2) (r.fn.getLsbD 3) r.d r.sa i)
  | 0x31 =>
    withImm r x fun i cl => sh (r.fn.extractLsb' 4 2 == 0 && !r.fn.getLsbD 2) (r.cOk && r.zd && cl) true
      (.st r.c sz (r.fn.getLsbD 3) r.sa i r.sb)
  | 0x32 =>
    match scopeOf (r.fn.extractLsb' 2 3) with
    | none => .error .illegal
    | some s => withImm r x fun i cl => sh (!r.fn.getLsbD 5) (r.cOk && r.zb && cl) true (.lda r.c sz s r.d r.sa i)
  | 0x33 =>
    match scopeOf (r.fn.extractLsb' 2 3) with
    | none => .error .illegal
    | some s => withImm r x fun i cl => sh (!r.fn.getLsbD 5) (r.cOk && r.zd && cl) true (.stl r.c sz s r.sa i r.sb)
  | 0x34 =>
    withImm r x fun i cl => sh (r.fn.extractLsb' 4 2 == 0 && !(r.fn.getLsbD 2 && sz == .d)) (r.cOk && r.zb && cl) true
      (.ldsy r.c sz (r.fn.getLsbD 2) (r.fn.getLsbD 3) r.d r.sa i)
  | 0x35 => withImm r x fun i cl => sh (r.fn == 0) (r.cOk && r.zd && cl) true (.feclr r.c r.sa i r.sb)
  | 0x36 =>
    withImm r x fun i cl => sh (r.fn.extractLsb' 1 5 == 0) (r.cOk && r.zd && r.zb && cl) true
      (.pref r.c (r.fn.getLsbD 0) r.sa i)
  | _ => .error .illegal

def decTask (r : Raw) (x : Ext) : DRes :=
  match r.op with
  | 0x38 =>
    match x with
    | .none => sh (r.fn == 0) (r.cOk && r.zd && r.z17From 6) true
        (.send r.c r.sa r.sb r.sc (r.i17.setWidth 6) none)
    | .w32 v => sh (r.fn == 0) (r.cOk && r.zd && r.z17From 6 && r.i17 == 63) true
        (.send r.c r.sa r.sb r.sc (r.i17.setWidth 6) (some v))
    | .w64 _ => .error .illegal
  | 0x39 => only64 x (sh (r.fn == 0) (r.cOk && r.z17From 6) true (.sendp r.c r.d r.sa r.sb r.sc (r.i17.setWidth 6)))
  | 0x3A =>
    if r.fn == 0 then only64 x (sh true (r.cOk && r.zi) true (.chmask r.c r.d (.reg r.sa r.sb)))
    else if r.fn == 0x20 then
      only64 x (sh true (r.cOk && r.za && r.zb && r.ziFrom 7) true
        (.chmask r.c r.d (.imm (r.imm.setWidth 6) (r.imm.getLsbD 6))))
    else .error .illegal
  | 0x3B => decPlain 0x20 3 (.bara r.c (r.imm.setWidth 3)) r x
  | 0x3C => decPlain 0x20 3 (.barw r.c (r.imm.setWidth 3)) r x
  | 0x3D =>
    if r.fn == 0 then only64 x (sh true (r.cOk && r.zb && r.zi) true (.grab r.c r.d (.reg r.sa)))
    else if r.fn == 0x20 then
      only64 x (sh true (r.cOk && r.za && r.zb && r.ziFrom 6) true (.grab r.c r.d (.imm (r.imm.setWidth 6))))
    else .error .illegal
  | 0x3E => only64 x (sh (r.fn == 0) (r.cOk && r.zd && r.z17From 6) true (.rngset r.c r.sa r.sb r.sc (r.i17.setWidth 6)))
  | 0x3F => decPlain 0x20 6 (.flowsig r.c (r.imm.setWidth 6)) r x
  | _ => .error .illegal

def decVecFp (r : Raw) (x : Ext) : DRes :=
  let d := v5 r.d
  match r.op with
  | 0x40 => decVfp (fun t b => .vadd r.pr t d r.va b) r x
  | 0x41 => decVfp (fun t b => .vsub r.pr t d r.va b) r x
  | 0x42 => decVfp (fun t b => .vmul r.pr t d r.va b) r x
  | 0x43 => decVfp3 (fun t b c => .vfma r.pr t d r.va b c) r x
  | 0x44 => decVfp3 (fun t b c => .vfms r.pr t d r.va b c) r x
  | 0x45 => decVfp3 (fun t b c => .vfnma r.pr t d r.va b c) r x
  | 0x46 => decVfp (fun t b => .vmin r.pr t d r.va b) r x
  | 0x47 => decVfp (fun t b => .vmax r.pr t d r.va b) r x
  | 0x48 => decVfp1 (fun t => .vabs r.pr t d r.va) r x
  | 0x49 => decVfp1 (fun t => .vneg r.pr t d r.va) r x
  | 0x4A => decV1 (.vrcp r.pr d r.va) r x
  | 0x4B => decV1 (.vrsq r.pr d r.va) r x
  | 0x4C => only64 x (sh (r.fn == 0x10) (r.cOk && r.zi) (okV r.d && okV r.a) (.vrsqe r.pr d r.va r.sb))
  | 0x4D => decV1 (.vsqrt r.pr d r.va) r x
  | 0x4E =>
    only64 x (sh (r.fn == 0 || r.fn == 0x10) (r.cOk && r.zi) (okV r.d && okV r.a && okVOpB r)
      (.vdiv r.pr d r.va (decVOpB r)))
  | 0x4F => decV1 (.vexp2 r.pr d r.va) r x
  | 0x50 => decV1 (.vlog2 r.pr d r.va) r x
  | 0x51 => decVfp1 (fun t => .vclass r.pr t d r.va) r x
  | _ => .error .illegal

def decVecInt (r : Raw) (x : Ext) : DRes :=
  let d := v5 r.d
  match r.op with
  | 0x52 => decVint (fun t b => .viadd r.pr t d r.va b) r x
  | 0x53 => decVint (fun t b => .visub r.pr t d r.va b) r x
  | 0x54 => decVint (fun t b => .vimul r.pr t d r.va b) r x
  | 0x55 => decVint (fun t b => .vimulh r.pr t d r.va b) r x
  | 0x56 => decVint (fun t b => .vand r.pr t d r.va b) r x
  | 0x57 => decVint (fun t b => .vor r.pr t d r.va b) r x
  | 0x58 => decVint (fun t b => .vxor r.pr t d r.va b) r x
  | 0x59 => decVint (fun t b => .vshl r.pr t d r.va b) r x
  | 0x5A => decVint (fun t b => .vshr r.pr t d r.va b) r x
  | 0x5B => decVint (fun t b => .vsar r.pr t d r.va b) r x
  | 0x5C => decVint (fun t b => .vimin r.pr t d r.va b) r x
  | 0x5D => decVint (fun t b => .vimax r.pr t d r.va b) r x
  | 0x5E => decVint (fun t b => .vqadd r.pr t d r.va b) r x
  | _ => .error .illegal

def decVecMisc (r : Raw) (x : Ext) : DRes :=
  let d := v5 r.d
  match r.op with
  | 0x5F =>
    match cmpTOf (r.fn.setWidth 4) with
    | some t =>
      only64 x (sh (!r.fn.getLsbD 5) (r.cOk && r.ziFrom 4) (ok8 r.d && okV r.a && okVOpB r)
        (.vcmp r.pr t (vcondOf r.n4) (r.d.setWidth 3) r.va (decVOpB r)))
    | none => .error .illegal
  | 0x60 =>
    only64 x (sh (r.fn == 0 || r.fn == 0x10) (r.cOk && !r.wc && r.i17 == 0)
      (okV r.d && okV r.a && okVOpB r && ok8 r.cf) (.vsel r.pr d (r.cf.setWidth 3) r.va (decVOpB r)))
  | 0x61 =>
    match logOf r.fn with
    | some o =>
      only64 x (sh true (r.cOk && !r.wa && !r.wb && r.zi) (ok8 r.d && ok8 r.a && ok8 r.b)
        (.plog r.pr (r.d.setWidth 3) (r.a.setWidth 3) (.bin o (r.b.setWidth 3))))
    | none =>
      only64 x (sh (r.fn == 4 || r.fn == 5) (r.cOk && !r.wa && r.zb && r.zi) (ok8 r.d && ok8 r.a)
        (.plog r.pr (r.d.setWidth 3) (r.a.setWidth 3) (if r.fn == 4 then .not else .mov)))
  | 0x62 => only64 x (sh (r.fn == 0) (r.cOk && !r.wa && r.zb && r.zi) (ok8 r.a) (.pcnt r.pr r.d (r.a.setWidth 3)))
  | 0x63 => only64 x (sh (r.fn == 0) (r.cOk && !r.wa && r.zb && r.zi) (ok8 r.a) (.pfirst r.pr r.d (r.a.setWidth 3)))
  | 0x64 =>
    match elemOf r.n4, elemOf (r.imm.extractLsb' 4 4) with
    | some td, some ts =>
      only64 x (sh (r.fn == 0) (r.cOk && r.zb && r.ziFrom 13) (okV r.d && okV r.a)
        (.vcvt r.pr td ts (rmOf (r.imm.extractLsb' 8 2)) (r.imm.getLsbD 10) (r.imm.extractLsb' 11 2) d r.va))
    | _, _ => .error .illegal
  | 0x65 =>
    only64 x (sh (r.fn == 0 || r.fn == 1) (r.cOk && r.ziFrom 5) (okV r.d && okV r.a)
      (.vqnt r.pr (r.fn == 1) (rmOf (r.imm.setWidth 2)) (r.imm.extractLsb' 2 3) d r.va r.sb))
  | 0x66 =>
    only64 x (sh (r.fn == 0 || r.fn == 1) (r.cOk && r.ziFrom 5 && r.imm.extractLsb' 0 2 == 0) (okV r.d && okV r.a)
      (.vdqnt r.pr (r.fn == 1) (r.imm.extractLsb' 2 3) d r.va r.sb))
  | 0x67 =>
    only64 x (sh (r.fn.toNat ≤ 2) (r.cOk && r.zb && r.zi) (okV r.d)
      (.vbcast r.pr (if r.fn == 0 then .w else if r.fn == 1 then .h else .b) d r.sa))
  | 0x68 => decSel6 (okV r.a) (fun n => .vextr r.pr r.d r.va n) r x
  | 0x69 => decSel6 (okV r.d) (fun n => .vins r.pr d r.sa n) r x
  | 0x6A => only64 x (sh (r.fn == 0) (r.cOk && r.zi) (okV r.d && okV r.a && okV r.b) (.vshuf r.pr d r.va r.vb))
  | 0x6B => decSel6 (okV r.d && okV r.a) (fun k => .vrot r.pr d r.va k) r x
  | 0x6C => only64 x (sh (r.fn == 0) (r.cOk && r.zb && r.zi) (okV r.d) (.viota r.pr d r.sa))
  | 0x6D => decV1 (.vmov r.pr d r.va) r x
  | 0x6E =>
    match redOf r.fn with
    | none => .error .illegal
    | some o => only64 x (sh true (r.cOk && r.zb && r.zi) (okV r.a) (.vred r.pr o r.d r.va))
  | 0x6F =>
    match redOf r.fn with
    | none => .error .illegal
    | some o => only64 x (sh true (r.cOk && r.zb && r.zi) (okV r.d && okV r.a) (.vscan r.pr o d r.va))
  | 0x70 =>
    match dotOf r.fn with
    | none => .error .illegal
    | some t => only64 x (sh true (r.cOk && r.zi) (okV r.d && okV r.a && okV r.b) (.vdot r.pr t d r.va r.vb))
  | _ => .error .illegal

def decVecMem (r : Raw) (x : Ext) : DRes :=
  let d := v5 r.d
  let xs := r.fn.getLsbD 3
  let swz := r.fn.extractLsb' 4 2 == 0 && r.fn.extractLsb' 0 3 == 0
  let swzk := r.fn.extractLsb' 4 2 == 0 && !r.fn.getLsbD 2
  match r.op with
  | 0x80 => withImm r x fun i cl => sh swz (r.cOk && r.zb && cl) (okV r.d) (.vld r.pr xs d r.sa i)
  | 0x81 => withImm r x fun i cl => sh swz (r.cOk && r.zd && cl) (okV r.b) (.vst r.pr xs r.sa i r.vb)
  | 0x82 => withImm17 r x fun i cl => sh swz (r.cOk && r.zb && cl) (okV r.d) (.vlds r.pr xs d r.sa i r.sc)
  | 0x83 => withImm17 r x fun i cl => sh swz (r.cOk && r.zd && cl) (okV r.b) (.vsts r.pr xs r.sa i r.vb r.sc)
  | 0x84 =>
    withImm17 r x fun i cl => sh swzk (r.cOk && r.zb && cl) (okV r.d && okV r.cf)
      (.vgth r.pr (r.fn.setWidth 2) xs d r.sa i r.vc)
  | 0x85 =>
    withImm17 r x fun i cl => sh swzk (r.cOk && r.zd && cl) (okV r.b && okV r.cf)
      (.vsct r.pr (r.fn.setWidth 2) xs r.sa i r.vb r.vc)
  | 0x86 => withImm r x fun i cl => sh swz (r.cOk && r.zb && cl) (okV r.d) (.vldsy r.pr xs d r.sa i)
  | 0x87 =>
    only64 x (sh (r.fn == 0) (r.cOk && r.i17 == 0) (ok4 r.d) (.strm r.pr (r.d.setWidth 2) r.sa r.sb r.sc))
  | 0x88 =>
    if r.fn == 0 then
      only64 x (sh true (r.cOk && !r.wa && r.zb && r.zi) (okV r.d && ok4 r.a) (.spopStream r.pr d (r.a.setWidth 2)))
    else if r.fn == 1 then
      only64 x (sh true (r.cOk && !r.wa && r.zb && r.zi) (okV r.d && ok4 r.a) (.spopFifo r.pr d (r.a.setWidth 2)))
    else .error .illegal
  | 0x89 => only64 x (sh (r.fn == 0) (r.cOk && r.zb && r.zi) (ok4 r.d && okV r.a) (.spush r.pr (r.d.setWidth 2) r.va))
  | _ => .error .illegal

/-- Majors 0x90 to 0x9F. A CPYW with ALL and a tag other than 0 raises RESERVED_FIELD: the spec does not say that the tag field is
unused there (DESIGN CHOICE, log 19). -/
def decCopySync (r : Raw) (x : Ext) : DRes :=
  match r.op with
  | 0x90 =>
    only64 x (sh (r.fn == 0) (r.cOk && r.zd && r.z17From 12) true
      (.cpy r.c (r.i17.setWidth 8) (r.i17.extractLsb' 8 2) (r.i17.extractLsb' 10 2) r.sa r.sb r.sc))
  | 0x91 =>
    only128 x fun w =>
      sh (r.fn == 0) (r.cOk && r.zd && r.ziFrom 12) true
        (.cpy2d r.c (r.imm.setWidth 8) (r.imm.extractLsb' 8 2) (r.imm.extractLsb' 10 2) r.sa r.sb (w.extractLsb' 48 16)
          (w.extractLsb' 32 16) (w.extractLsb' 16 16) (w.extractLsb' 0 16))
  | 0x92 => decD 0 (if r.imm.getLsbD 8 && r.imm.setWidth 8 != 0 then 8 else 9) (.cpyw r.c (r.imm.getLsbD 8) (r.imm.setWidth 8) r.d) r x
  | 0x93 =>
    match scopeOf (r.i17.extractLsb' 12 3) with
    | none => .error .illegal
    | some s => only128 x fun w =>
      sh (r.fn == 0) (r.cOk && r.z17From 15) true
        (.cpyst r.c (r.i17.setWidth 8) s (r.i17.extractLsb' 8 2) (r.i17.extractLsb' 10 2) r.sa r.sb r.sc r.d w)
  | 0x94 =>
    match scopeOf (r.imm.setWidth 3), amoOf (r.fn.setWidth 4) with
    | some s, some o =>
      only64 x (sh (!r.fn.getLsbD 5 && !(r.fn.getLsbD 4 && (o == .fadd || o == .fmax))) (r.cOk && r.ziFrom 5) true
        (.amo r.c (r.fn.getLsbD 4) s o (r.imm.getLsbD 3) (r.imm.getLsbD 4) r.d r.sa r.sb))
    | _, _ => .error .illegal
  | 0x95 =>
    match scopeOf (r.i17.setWidth 3) with
    | none => .error .illegal
    | some s =>
      only64 x (sh (!r.fn.getLsbD 5 && r.fn.extractLsb' 0 4 == 0) (r.cOk && r.z17From 5) true
        (.amocas r.c (r.fn.getLsbD 4) s (r.i17.getLsbD 3) (r.i17.getLsbD 4) r.d r.sa r.sb r.sc))
  | 0x96 =>
    match scopeOf (r.imm.setWidth 3), amoOf (r.fn.setWidth 4) with
    | some s, some o =>
      only64 x (sh (!r.fn.getLsbD 5 && !(r.fn.getLsbD 4 && (o == .fadd || o == .fmax)))
        (r.cOk && r.zd && r.ziFrom 5 && !r.imm.getLsbD 3) true
        (.amor r.c (r.fn.getLsbD 4) s o (r.imm.getLsbD 4) r.sa r.sb))
    | _, _ => .error .illegal
  | 0x97 =>
    match scopeOf (r.imm.setWidth 3) with
    | none => .error .illegal
    | some s => decPlain 0 7 (.fence r.c s (r.imm.extractLsb' 3 4)) r x
  | 0x98 =>
    match scopeOf (r.imm.setWidth 3) with
    | none => .error .illegal
    | some s => decPlain 0 3 (.fencee r.c s) r x
  | _ => .error .illegal

def decMatrix (r : Raw) (x : Ext) : DRes :=
  let f0 := r.fn.getLsbD 0
  let f1 := r.fn.getLsbD 1
  let f2 := r.fn.getLsbD 2
  let t := r.d.setWidth 4
  match r.op with
  | 0xA0 => decPlain 0 0 (.mlease r.c) r x
  | 0xA1 => decPlain 0 0 (.mrel r.c) r x
  | 0xA2 =>
    only128 x fun w => sh (r.fn.extractLsb' 2 4 == 0) (r.cOk && r.zd && r.zb && r.zi && dwGuardOk w && dwZero w 32) true
      (.mls r.c f0 f1 (dwGuard w) r.sa (w.setWidth 32))
  | 0xA3 =>
    only128 x fun w => sh (r.fn.extractLsb' 2 4 == 0) (r.cOk && r.zb && r.zi && dwGuardOk w && dwZero w 41) (ok16 r.d)
      (.mma r.c f0 f1 (dwGuard w) t r.sa (w.extractLsb' 32 9) (w.setWidth 32))
  | 0xA4 =>
    only128 x fun w =>
      sh (r.fn.extractLsb' 2 4 == 0) (r.cOk && !r.wb && dwGuardOk w && dwZero w 41) (ok16 r.d && ok4 r.b)
        (.mmag r.c f0 f1 (dwGuard w) t r.sa (r.b.setWidth 2) r.imm (w.extractLsb' 32 9) (w.setWidth 32))
  | 0xA5 =>
    only128 x fun w =>
      if f2 then
        sh (r.fn.extractLsb' 3 3 == 0) (r.cOk && r.zb && r.zi && dwGuardOk w && dwZero w 32) (ok16 r.d)
          (.mrot r.c f0 f1 (dwGuard w) t (some (r.sa, w.setWidth 32)))
      else
        sh (r.fn.extractLsb' 3 3 == 0) (r.cOk && r.za && r.zb && r.zi && dwGuardOk w && dwZero w 0) (ok16 r.d)
          (.mrot r.c f0 f1 (dwGuard w) t none)
  | 0xA6 =>
    only128 x fun w => sh (r.fn.extractLsb' 2 4 == 0) (r.cOk && r.zd && r.zi && w.extractLsb' 32 32 == 0) true
      (.mldt r.c f0 f1 r.sa r.sb (w.setWidth 32))
  | 0xA7 =>
    only128 x fun w =>
      sh (r.fn.extractLsb' 3 3 == 0) (r.cOk && r.zd && !r.wb && r.zi && dwGuardOk w && dwZero w 43) (ok16 r.b)
        (.mst r.c f0 f1 f2 (rmOf (w.extractLsb' 41 2)) (dwGuard w) r.sa (r.b.setWidth 4) (w.extractLsb' 32 9)
          (w.setWidth 32))
  | 0xA8 =>
    match x with
    | .none => sh (r.fn == 0) (r.cOk && r.za && r.zb && r.ziFrom 4) (ok16 r.d) (.mzero r.c t r.n4 .short)
    | .w64 w => sh (r.fn == 0) (r.cOk && r.za && r.zb && r.ziFrom 4 && dwGuardOk w && dwZero w 0) (ok16 r.d)
        (.mzero r.c t r.n4 (.long (dwGuard w)))
    | .w32 _ => .error .illegal
  | 0xA9 =>
    only64 x (sh (r.fn.extractLsb' 1 5 == 0) (r.cOk && r.za && r.zb && r.zi) true (.mstat r.c f0 r.d))
  | 0xAA =>
    if r.fn == 0 then
      only64 x (sh true (r.cOk && r.zd && r.zb && r.ziFrom 3) (ok8 r.a)
        (.gset r.c (r.imm.setWidth 3) (.q ⟨r.a.setWidth 3, r.wa⟩)))
    else if r.fn == 0x20 then
      only64 x (sh true (r.cOk && r.zd && r.za && r.zb && r.ziFrom 4) true
        (.gset r.c (r.imm.setWidth 3) (.imm (r.imm.getLsbD 3))))
    else .error .illegal
  | 0xAB =>
    if r.fn == 0 then decPlain 0 3 (.gclr r.c (r.imm.setWidth 3)) r x
    else decPlain 1 3 (.gclrR r.c (r.imm.setWidth 3)) r x
  | 0xAC => decPlain 0 4 (.mwait r.c r.n4) r x
  | _ => .error .illegal

def decRetrieval (r : Raw) (x : Ext) : DRes :=
  let h := r.n4
  match r.op with
  | 0xB0 => if r.fn == 0 then decA 0 4 (.rtset r.c h r.sa) r x else decA 1 4 (.rtsetInit r.c h r.sa) r x
  | 0xB1 => only64 x (sh (r.fn == 0) (r.cOk && r.zb && r.ziFrom 4) (ok4 r.d) (.rhv r.c (r.d.setWidth 2) h r.sa))
  | 0xB2 =>
    only128 x fun w =>
      if r.fn == 0 then
        sh true (r.cOk && r.zb && r.ziFrom 8 && w.extractLsb' 12 52 == 0) true
          (.rprobe r.c r.d r.sa h (r.imm.extractLsb' 4 4) (w.setWidth 12) none)
      else
        sh (r.fn == 1) (r.cOk && r.zb && r.ziFrom 8 && w.extractLsb' 12 20 == 0 && w.extractLsb' 51 13 == 0) true
          (.rprobe r.c r.d r.sa h (r.imm.extractLsb' 4 4) (w.setWidth 12) (some (w.extractLsb' 32 19)))
  | 0xB3 => decA 0 4 (.rins r.c h r.sa) r x
  | 0xB4 => decA 0 4 (.rdel r.c h r.sa) r x
  | 0xB5 =>
    if r.fn == 0 then decAB 0 4 (.rhash r.c h r.sa r.sb) r x
    else only64 x (sh (r.fn == 1) (r.cOk && r.zd && r.za && !r.wb && r.ziFrom 4) (ok4 r.b)
      (.rhashFifo r.c h (r.b.setWidth 2)))
  | 0xB6 => only64 x (sh (r.fn == 0) (r.cOk && r.za && r.zb && r.ziFrom 4) (ok4 r.d) (.rdirty r.c (r.d.setWidth 2) h))
  | 0xB7 =>
    match scopeOf (r.imm.setWidth 3) with
    | none => .error .illegal
    | some s => decPlain 0 3 (.rfence r.c s) r x
  | 0xB8 =>
    only64 x (sh (r.fn.extractLsb' 1 5 == 0) (r.cOk && r.za && r.zb && r.ziFrom 7) true
      (.rstat r.c (r.fn.getLsbD 0) r.d h (r.imm.extractLsb' 4 3)))
  | _ => .error .illegal

def decTrace (r : Raw) (x : Ext) : DRes :=
  let n := r.n4
  match r.op with
  | 0xB9 => decA 0 4 (.trate r.c n r.sa) r x
  | 0xBA =>
    if r.fn == 0 then decA 0 4 (.treg r.c n r.sa) r x
    else if r.fn == 1 then decA 1 4 (.tregInit r.c n r.sa) r x
    else decPlain 2 4 (.tregX r.c n) r x
  | 0xBB => decPlain 0 4 (.tstep r.c n) r x
  | 0xBC =>
    only64 x (sh (r.fn == 0) (r.cOk && r.zd && r.z17From 16) (okV r.b && okV r.cf)
      (.tadv r.c (r.i17.setWidth 4) r.sa r.vb r.vc (r.i17.extractLsb' 4 6) (r.i17.extractLsb' 10 6)))
  | 0xBD =>
    only64 x (sh (r.fn == 0) (r.cOk && r.zd && r.z17From 16 && r.i17.extractLsb' 4 6 == 0) (okV r.b)
      (.tadvr r.c (r.i17.setWidth 4) r.sa r.vb r.sc (r.i17.extractLsb' 10 6)))
  | 0xBE =>
    only64 x (sh (r.fn == 0) (r.cOk && r.zb && r.ziFrom 10) (okV r.d)
      (.trd r.c (v5 r.d) n r.sa (r.imm.extractLsb' 4 6)))
  | 0xBF =>
    if r.fn == 0 then decA 0 20 (.tclrE r.c n r.sa (r.imm.extractLsb' 4 16)) r x
    else decA 1 20 (.tclrD r.c n r.sa (r.imm.extractLsb' 4 16)) r x
  | 0xC0 => if r.fn == 0 then decAB 0 0 (.rwd r.c r.sa r.sb) r x else decAB 1 0 (.rwdC r.c r.sa r.sb) r x
  | 0xC1 => decA 0 0 (.rwdw r.c r.sa) r x
  | 0xC2 =>
    let sel : BitVec 3 := r.imm.setWidth 3
    only64 x (sh (r.fn.extractLsb' 1 5 == 0) (r.cOk && r.za && r.zb && !r.imm.getLsbD 3 &&
      r.ziFrom (if sel == 2 || sel == 3 || sel == 4 then 4 else 8)) true
      (.trhz r.c (r.fn.getLsbD 0) r.d (r.imm.setWidth 3) (r.imm.extractLsb' 4 4)))
  | _ => .error .illegal

def decStack (r : Raw) (x : Ext) : DRes :=
  match r.op with
  | 0xC3 =>
    withImm r x fun i cl => sh (r.fn.extractLsb' 2 4 == 0) (r.cOk && r.zd && cl) true
      (.sts r.c (sizeOf2 (r.fn.setWidth 2)) r.sa i r.sb)
  | 0xC4 => if r.fn == 0 then decA 0 0 (.swait r.c r.sa) r x else decPlain 1 0 (.swaitOwn r.c) r x
  | 0xC5 => decD 0 0 (.rdtime r.c r.d) r x
  | 0xC6 =>
    only128 x fun w => sh (r.fn == 0) (r.cOk && r.zd && r.zi && w.extractLsb' 7 57 == 0) true
      (.stsb r.c r.sa r.sb (w.setWidth 7))
  | 0xC8 => decD 0 4 (.bqpop r.c r.d r.n4) r x
  | 0xC9 =>
    match elemOf r.n4 with
    | none => .error .illegal
    | some t =>
      if r.fn == 0 then only64 x (sh true (r.cOk && r.ziFrom 4) true (.bred r.c .add t r.d r.sa r.sb))
      else if r.fn == 1 then only64 x (sh true (r.cOk && r.ziFrom 4) true (.bred r.c .max t r.d r.sa r.sb))
      else if r.fn == 2 then only64 x (sh true (r.cOk && r.ziFrom 4) true (.bred r.c .min t r.d r.sa r.sb))
      else .error .illegal
  | 0xCA =>
    match elemOf (r.i17.setWidth 4) with
    | none => .error .illegal
    | some t => only64 x (sh (r.fn == 0) (r.cOk && r.zd && r.z17From 4) true (.bsend r.c t r.sa r.sb r.sc))
  | 0xCB => decPlain 0 4 (.bqdone r.c r.n4) r x
  | 0xCC => decA 0 3 (.wdset r.c (r.imm.setWidth 3) r.sa) r x
  | 0xCD => decD 0 3 (.wdget r.c r.d (r.imm.setWidth 3)) r x
  | _ => .error .illegal

def decPrivileged (r : Raw) (x : Ext) : DRes :=
  let csr := r.imm.setWidth 12
  let n := r.imm.setWidth 3
  match r.op with
  | 0xE0 => decD 0 12 (.csrr r.c r.d csr) r x
  | 0xE1 => decDA 0 12 (.csrw r.c r.d csr r.sa) r x
  | 0xE2 => decDA 0 12 (.csrs r.c r.d csr r.sa) r x
  | 0xE3 => decDA 0 12 (.csrc r.c r.d csr r.sa) r x
  | 0xE4 => decPlain 0 0 (.eret r.c) r x
  | 0xE5 =>
    if r.fn == 0 then decA 0 0 (.tlbiPage r.c r.sa) r x
    else if r.fn == 1 then decPlain 1 0 (.tlbiAll r.c) r x
    else decA 2 0 (.tlbiKid r.c r.sa) r x
  | 0xE6 => decDA 0 4 (if r.imm.getLsbD 3 then .ctxsvM r.c r.d n r.sa else .ctxsv r.c r.d n r.sa) r x
  | 0xE7 => decDA 0 4 (if r.imm.getLsbD 3 then .ctxldM r.c r.d n r.sa else .ctxld r.c r.d n r.sa) r x
  | 0xE8 => decPlain 0 0 (.wfi r.c) r x
  | 0xE9 => decAB 0 0 (.satw r.c r.sa r.sb) r x
  | 0xEA => only64 x (sh (r.fn == 0) (r.cOk && r.zd && r.z17From 6) true (.chset r.c r.sa (r.i17.setWidth 6) r.sb r.sc))
  | 0xEB => decDA 0 0 (.preempt r.c r.d r.sa) r x
  | 0xEC => decDA 0 0 (.sleeps r.c r.d r.sa) r x
  | 0xED => decDA 0 0 (.wakes r.c r.d r.sa) r x
  | 0xEE =>
    if r.fn == 0 then decDA 0 0 (.gangctlStatus r.c r.d r.sa) r x
    else if r.fn == 1 then decDA 1 0 (.gangctlResume r.c r.d r.sa) r x
    else decDA 2 0 (.gangctlKill r.c r.d r.sa) r x
  | _ => .error .illegal

/-- The instruction of a word and its extension, or the first failure of steps 5, 7 and 8 of 06 Table 6.5. -/
def decodeRaw (r : Raw) (x : Ext) : DRes :=
  let n := r.op.toNat
  if n < 0x10 then decControl r x
  else if n < 0x30 then decInteger r x
  else if n < 0x38 then decScalarMem r x
  else if n < 0x40 then decTask r x
  else if n < 0x52 then decVecFp r x
  else if n < 0x5F then decVecInt r x
  else if n < 0x80 then decVecMisc r x
  else if n < 0x90 then decVecMem r x
  else if n < 0xA0 then decCopySync r x
  else if n < 0xB0 then decMatrix r x
  else if n < 0xB9 then decRetrieval r x
  else if n < 0xC3 then decTrace r x
  else if n < 0xE0 then decStack r x
  else decPrivileged r x

/-- The little-endian value of bytes (00 R4). -/
def leNat : List Byte → Nat
  | [] => 0
  | b :: bs => b.toNat + 256 * leNat bs

/-- The first n bytes of a value, lowest first (00 R4). -/
def leBytes : Nat → Nat → List Byte
  | 0, _ => []
  | n + 1, v => BitVec.ofNat 8 v :: leBytes n (v / 256)

/-- How many bytes the length code of a first word's low bits names; 0 for the code that is never an instruction
(06 R135). -/
def lengthOf (l : Nat) : Nat :=
  match l % 4 with
  | 0 => 8
  | 1 => 12
  | 2 => 16
  | _ => 0

/-- The bytes at an instruction's address, as many as its length code names; none where the code is 11 or a byte is
missing, which are checks of the fetch (06 Table 6.5 steps 3 and 4). -/
def decodeBytes (bs : List Byte) : Option DRes :=
  let w := leNat (bs.take 8)
  if bs.length < 8 then none
  else match w % 4 with
    | 0 => some (decodeRaw (.unpack w) .none)
    | 1 => if bs.length < 12 then none
      else some (decodeRaw (.unpack w) (.w32 (BitVec.ofNat 32 (leNat ((bs.drop 8).take 4)))))
    | 2 => if bs.length < 16 then none
      else some (decodeRaw (.unpack w) (.w64 (BitVec.ofNat 64 (leNat ((bs.drop 8).take 8)))))
    | _ => none

/-- The instruction of a word numbered as the table numbers it: the bits above nbits are zero. -/
def decodeTableWord (nbits w : Nat) : Option Instr :=
  match decodeBytes (leBytes 16 (w % 2 ^ nbits)) with
  | some (.ok i) => some i
  | _ => none

/-! The encoder. -/

def rawC (op : BitVec 8) (fn : BitVec 6) (c : Cond) : Raw :=
  { op, fn, d := 0, a := 0, b := 0, p := c.q, pn := c.neg, wa := false, wb := false, imm := 0 }
def rawP (op : BitVec 8) (fn : BitVec 6) (p : Pred) : Raw :=
  { op, fn, d := 0, a := 0, b := 0, p := p.p, pn := p.neg, wa := false, wb := false, imm := 0 }
def Raw.setD (r : Raw) (d : BitVec 6) : Raw := { r with d }
def Raw.setA (r : Raw) (a : SSrc) : Raw := { r with a := a.r, wa := a.w }
def Raw.setB (r : Raw) (b : SSrc) : Raw := { r with b := b.r, wb := b.w }
def Raw.setVa (r : Raw) (a : VSrc) : Raw := { r with a := a.r.setWidth 6, wa := a.w }
def Raw.setVb (r : Raw) (b : VSrc) : Raw := { r with b := b.r.setWidth 6, wb := b.w }
def Raw.setQa (r : Raw) (a : QSrc) : Raw := { r with a := a.r.setWidth 6, wa := a.w }
def Raw.setQb (r : Raw) (b : QSrc) : Raw := { r with b := b.r.setWidth 6, wb := b.w }
def Raw.setI (r : Raw) (imm : BitVec 24) : Raw := { r with imm }
/-- The three-source layout: C, WC and IMM17. -/
def Raw.set3 (r : Raw) (cf : BitVec 6) (wc : Bool) (i : BitVec 17) : Raw :=
  { r with imm := i ++ BitVec.ofBool wc ++ cf }

def Imm.low : Imm → BitVec 24
  | .i24 v => v
  | .i32 _ => 0
def Imm.ext : Imm → Ext
  | .i24 _ => .none
  | .i32 v => .w32 v
def Imm17.low : Imm17 → BitVec 17
  | .i17 v => v
  | .i32 _ => 0
def Imm17.ext : Imm17 → Ext
  | .i17 _ => .none
  | .i32 v => .w32 v

/-- Low bit of an FN from a flag. -/
def fnBit (b : Bool) : BitVec 6 := if b then 1 else 0

def encAlu (op : BitVec 8) (c : Cond) (i32 : Bool) (d : SReg) (a : SSrc) : OpB → Raw × Ext
  | .reg b => (((rawC op (fnBit i32) c).setD d).setA a |>.setB b, .none)
  | .imm i => (((rawC op (0x20 ||| fnBit i32) c).setD d).setA a |>.setI i.low, i.ext)

def encSel (r : Raw) (fn : BitVec 6) : Sel6 → Raw
  | .imm n => { r with fn := 0x20, imm := n.setWidth 24 }
  | .reg b => { r with fn, b := b.r, wb := b.w }

def Raw.setVop (r : Raw) : VOpB → Raw
  | .v b => r.setVb b
  | .s b => { r with fn := r.fn ||| 0x10, b := b.r, wb := b.w }

def encVfp (op : BitVec 8) (p : Pred) (t : FpT) (d : VReg) (a : VSrc) (b : VOpB) : Raw :=
  (((rawP op (t.elem.code.setWidth 6) p).setD (d.setWidth 6)).setVa a).setVop b

def encVint (op : BitVec 8) (p : Pred) (t : IntT) (d : VReg) (a : VSrc) : VIOpB → Raw × Ext
  | .v b => (((rawP op (t.elem.code.setWidth 6) p).setD (d.setWidth 6)).setVa a |>.setVb b, .none)
  | .s b => (((rawP op (t.elem.code.setWidth 6 ||| 0x10) p).setD (d.setWidth 6)).setVa a |>.setB b, .none)
  | .imm i => (((rawP op (t.elem.code.setWidth 6 ||| 0x20) p).setD (d.setWidth 6)).setVa a |>.setI i.low, i.ext)

def encV1 (op : BitVec 8) (fn : BitVec 6) (p : Pred) (d : VReg) (a : VSrc) : Raw :=
  ((rawP op fn p).setD (d.setWidth 6)).setVa a

/-- Bit n of an FN from a flag. -/
def fnAt (b : Bool) (n : Nat) : BitVec 6 := if b then 1#6 <<< n else 0

def immAt (v : Nat) (n : Nat) : BitVec 24 := BitVec.ofNat 24 (v <<< n)

def guardBits : Option GReg → BitVec 64
  | none => 0
  | some g => 0x8000000000000000 ||| (g.setWidth 64 <<< 60)

/-- The word and extension of an instruction (06, and the encoding table of each chapter); none for a step of the
device. -/
def encodeRaw : Instr → Option (Raw × Ext)
  | .nop c => some (rawC 0x01 0 c, .none)
  | .li c d v =>
    match v with
    | .i24 v => some (((rawC 0x02 0x20 c).setD d).setI v, .none)
    | .i32 v => some ((rawC 0x02 0x20 c).setD d, .w32 v)
    | .i64 v => some ((rawC 0x02 0x20 c).setD d, .w64 v)
  | .mov c d a => some (((rawC 0x03 0 c).setD d).setA a, .none)
  | .sel c d q a b =>
    match b with
    | .reg b => some (((((rawC 0x04 0 c).setD d).setA a).setB b).set3 (q.r.setWidth 6) q.w 0, .none)
    | .imm i => some ((((rawC 0x04 0x20 c).setD d).setA a).set3 (q.r.setWidth 6) q.w i.low, i.ext)
  | .cmpq c cc d a b =>
    match b with
    | .reg b => some ((((rawC 0x05 (cc.code.setWidth 6) c).setD (d.setWidth 6)).setA a).setB b, .none)
    | .imm i => some ((((rawC 0x05 (0x20 ||| cc.code.setWidth 6) c).setD (d.setWidth 6)).setA a).setI i.low, i.ext)
  | .qop c d a o =>
    match o with
    | .bin o b => some ((((rawC 0x06 o.code c).setD (d.setWidth 6)).setQa a).setQb b, .none)
    | .not => some (((rawC 0x06 4 c).setD (d.setWidth 6)).setQa a, .none)
    | .mov => some (((rawC 0x06 5 c).setD (d.setWidth 6)).setQa a, .none)
  | .br c off => some ((rawC 0x07 0x20 c).setI off.low, off.ext)
  | .cbr c cc a b off => some ((((rawC 0x08 (cc.code.setWidth 6) c).setA a).setB b).setI off.low, off.ext)
  | .jl c d off => some (((rawC 0x09 0x20 c).setD d).setI off.low, off.ext)
  | .jlr c d a disp => some ((((rawC 0x0A 0 c).setD d).setA a).setI disp.low, disp.ext)
  | .jr c a disp => some (((rawC 0x0B 0 c).setA a).setI disp.low, disp.ext)
  | .trap c code => some ((rawC 0x0C 0x20 c).setI (code.setWidth 24), .none)
  | .syscall c code => some ((rawC 0x0D 0x20 c).setI (code.setWidth 24), .none)
  | .done c => some (rawC 0x0E 0 c, .none)
  | .yield c k => some ((rawC 0x0F 0x20 c).setI (k.setWidth 24), .none)
  | .add c w d a b => some (encAlu 0x10 c w d a b)
  | .sub c w d a b => some (encAlu 0x11 c w d a b)
  | .mul c w d a b => some (encAlu 0x12 c w d a b)
  | .mulh c d a b => some (encAlu 0x13 c false d a b)
  | .mulhu c d a b => some (encAlu 0x14 c false d a b)
  | .div c w d a b => some (encAlu 0x15 c w d a b)
  | .divu c w d a b => some (encAlu 0x16 c w d a b)
  | .rem c w d a b => some (encAlu 0x17 c w d a b)
  | .remu c w d a b => some (encAlu 0x18 c w d a b)
  | .and c d a b => some (encAlu 0x19 c false d a b)
  | .or c d a b => some (encAlu 0x1A c false d a b)
  | .xor c d a b => some (encAlu 0x1B c false d a b)
  | .andn c d a b => some (encAlu 0x1C c false d a b)
  | .shl c w d a b => some (encAlu 0x1D c w d a b)
  | .shr c w d a b => some (encAlu 0x1E c w d a b)
  | .sar c w d a b => some (encAlu 0x1F c w d a b)
  | .ror c w d a b => some (encAlu 0x20 c w d a b)
  | .min c d a b => some (encAlu 0x21 c false d a b)
  | .max c d a b => some (encAlu 0x22 c false d a b)
  | .minu c d a b => some (encAlu 0x23 c false d a b)
  | .maxu c d a b => some (encAlu 0x24 c false d a b)
  | .clz c d a => some (((rawC 0x25 0 c).setD d).setA a, .none)
  | .ctz c d a => some (((rawC 0x26 0 c).setD d).setA a, .none)
  | .popc c d a => some (((rawC 0x27 0 c).setD d).setA a, .none)
  | .sext c d a n => some ((((rawC 0x28 0x20 c).setD d).setA a).setI (n.setWidth 24), .none)
  | .zext c d a n => some ((((rawC 0x29 0x20 c).setD d).setA a).setI (n.setWidth 24), .none)
  | .lea c d a b k disp =>
    some (((((rawC 0x2A (k.setWidth 6) c).setD d).setA a).setB b).setI disp.low, disp.ext)
  | .bfx c s d a f =>
    match f with
    | .reg b => some ((((rawC 0x2B (fnBit s) c).setD d).setA a).setB b, .none)
    | .imm pos len1 =>
      some ((((rawC 0x2B (0x20 ||| fnBit s) c).setD d).setA a).setI ((len1 ++ pos).setWidth 24), .none)
  | .bfi c d a f =>
    match f with
    | .reg b => some ((((rawC 0x2C 0 c).setD d).setA a).setB b, .none)
    | .imm pos len1 => some ((((rawC 0x2C 0x20 c).setD d).setA a).setI ((len1 ++ pos).setWidth 24), .none)
  | .rdspec c d sel => some (((rawC 0x2D 0x20 c).setD d).setI (sel.setWidth 24), .none)
  | .empty c d f =>
    match f with
    | .s x => some (((rawC 0x2E 0 c).setD d).setA ⟨x, false⟩, .none)
    | .v x => some (((rawC 0x2E 1 c).setD d).setA ⟨x.setWidth 6, false⟩, .none)
    | .q x => some (((rawC 0x2E 2 c).setD d).setA ⟨x.setWidth 6, false⟩, .none)
  | .ld c sz sx xs d a i =>
    some ((((rawC 0x30 (sz.code.setWidth 6 ||| fnAt sx 2 ||| fnAt xs 3) c).setD d).setA a).setI i.low, i.ext)
  | .st c sz xs a i b =>
    some ((((rawC 0x31 (sz.code.setWidth 6 ||| fnAt xs 3) c).setA a).setB b).setI i.low, i.ext)
  | .lda c sz s d a i =>
    some ((((rawC 0x32 ((s.code ++ sz.code).setWidth 6) c).setD d).setA a).setI i.low, i.ext)
  | .stl c sz s a i b =>
    some ((((rawC 0x33 ((s.code ++ sz.code).setWidth 6) c).setA a).setB b).setI i.low, i.ext)
  | .ldsy c sz sx xs d a i =>
    some ((((rawC 0x34 (sz.code.setWidth 6 ||| fnAt sx 2 ||| fnAt xs 3) c).setD d).setA a).setI i.low, i.ext)
  | .feclr c a i b => some ((((rawC 0x35 0 c).setA a).setB b).setI i.low, i.ext)
  | .pref c ins a i => some (((rawC 0x36 (fnBit ins) c).setA a).setI i.low, i.ext)
  | .send c a b cc ch off =>
    some ((((rawC 0x38 0 c).setA a).setB b).set3 cc.r cc.w (ch.setWidth 17),
      match off with
      | none => .none
      | some v => .w32 v)
  | .sendp c p a b cc ch => some (((((rawC 0x39 0 c).setD p).setA a).setB b).set3 cc.r cc.w (ch.setWidth 17), .none)
  | .chmask c d arg =>
    match arg with
    | .reg a b => some ((((rawC 0x3A 0 c).setD d).setA a).setB b, .none)
    | .imm ch m => some (((rawC 0x3A 0x20 c).setD d).setI ((BitVec.ofBool m ++ ch).setWidth 24), .none)
  | .bara c t => some ((rawC 0x3B 0x20 c).setI (t.setWidth 24), .none)
  | .barw c t => some ((rawC 0x3C 0x20 c).setI (t.setWidth 24), .none)
  | .grab c d r =>
    match r with
    | .reg a => some (((rawC 0x3D 0 c).setD d).setA a, .none)
    | .imm n => some (((rawC 0x3D 0x20 c).setD d).setI (n.setWidth 24), .none)
  | .rngset c a b cc r => some ((((rawC 0x3E 0 c).setA a).setB b).set3 cc.r cc.w (r.setWidth 17), .none)
  | .flowsig c n => some ((rawC 0x3F 0x20 c).setI (n.setWidth 24), .none)
  | .vadd p t d a b => some (encVfp 0x40 p t d a b, .none)
  | .vsub p t d a b => some (encVfp 0x41 p t d a b, .none)
  | .vmul p t d a b => some (encVfp 0x42 p t d a b, .none)
  | .vfma p t d a b cc => some ((encVfp 0x43 p t d a b).set3 (cc.r.setWidth 6) cc.w 0, .none)
  | .vfms p t d a b cc => some ((encVfp 0x44 p t d a b).set3 (cc.r.setWidth 6) cc.w 0, .none)
  | .vfnma p t d a b cc => some ((encVfp 0x45 p t d a b).set3 (cc.r.setWidth 6) cc.w 0, .none)
  | .vmin p t d a b => some (encVfp 0x46 p t d a b, .none)
  | .vmax p t d a b => some (encVfp 0x47 p t d a b, .none)
  | .vabs p t d a => some (encV1 0x48 (t.elem.code.setWidth 6) p d a, .none)
  | .vneg p t d a => some (encV1 0x49 (t.elem.code.setWidth 6) p d a, .none)
  | .vrcp p d a => some (encV1 0x4A 0 p d a, .none)
  | .vrsq p d a => some (encV1 0x4B 0 p d a, .none)
  | .vrsqe p d a b => some ((encV1 0x4C 0x10 p d a).setB b, .none)
  | .vsqrt p d a => some (encV1 0x4D 0 p d a, .none)
  | .vdiv p d a b => some ((encV1 0x4E 0 p d a).setVop b, .none)
  | .vexp2 p d a => some (encV1 0x4F 0 p d a, .none)
  | .vlog2 p d a => some (encV1 0x50 0 p d a, .none)
  | .vclass p t d a => some (encV1 0x51 (t.elem.code.setWidth 6) p d a, .none)
  | .viadd p t d a b => some (encVint 0x52 p t d a b)
  | .visub p t d a b => some (encVint 0x53 p t d a b)
  | .vimul p t d a b => some (encVint 0x54 p t d a b)
  | .vimulh p t d a b => some (encVint 0x55 p t d a b)
  | .vand p t d a b => some (encVint 0x56 p t d a b)
  | .vor p t d a b => some (encVint 0x57 p t d a b)
  | .vxor p t d a b => some (encVint 0x58 p t d a b)
  | .vshl p t d a b => some (encVint 0x59 p t d a b)
  | .vshr p t d a b => some (encVint 0x5A p t d a b)
  | .vsar p t d a b => some (encVint 0x5B p t d a b)
  | .vimin p t d a b => some (encVint 0x5C p t d a b)
  | .vimax p t d a b => some (encVint 0x5D p t d a b)
  | .vqadd p t d a b => some (encVint 0x5E p t d a b)
  | .vcmp p t cc d a b =>
    some (((((rawP 0x5F (t.elem.code.setWidth 6) p).setD (d.setWidth 6)).setVa a).setVop b).setI
      (cc.code.setWidth 24), .none)
  | .vsel p d cc a b => some (((encV1 0x60 0 p d a).setVop b).set3 (cc.setWidth 6) false 0, .none)
  | .plog p d a o =>
    match o with
    | .bin o b => some ((((rawP 0x61 o.code p).setD (d.setWidth 6)).setA ⟨a.setWidth 6, false⟩).setB
        ⟨b.setWidth 6, false⟩, .none)
    | .not => some (((rawP 0x61 4 p).setD (d.setWidth 6)).setA ⟨a.setWidth 6, false⟩, .none)
    | .mov => some (((rawP 0x61 5 p).setD (d.setWidth 6)).setA ⟨a.setWidth 6, false⟩, .none)
  | .pcnt p d a => some (((rawP 0x62 0 p).setD d).setA ⟨a.setWidth 6, false⟩, .none)
  | .pfirst p d a => some (((rawP 0x63 0 p).setD d).setA ⟨a.setWidth 6, false⟩, .none)
  | .vcvt p td ts rm ns sel d a =>
    some ((encV1 0x64 0 p d a).setI
      ((sel ++ BitVec.ofBool ns ++ rm.code ++ ts.code ++ td.code).setWidth 24), .none)
  | .vqnt p i4 rm sel d a b =>
    some (((encV1 0x65 (fnBit i4) p d a).setB b).setI ((sel ++ rm.code).setWidth 24), .none)
  | .vdqnt p i4 sel d a b => some (((encV1 0x66 (fnBit i4) p d a).setB b).setI ((sel ++ 0#2).setWidth 24), .none)
  | .vbcast p sz d a => some (((rawP 0x67 sz.code p).setD (d.setWidth 6)).setA a, .none)
  | .vextr p d a n => some (encSel (((rawP 0x68 0 p).setD d).setVa a) 0 n, .none)
  | .vins p d a n => some (encSel (((rawP 0x69 0 p).setD (d.setWidth 6)).setA a) 0 n, .none)
  | .vshuf p d a b => some ((encV1 0x6A 0 p d a).setVb b, .none)
  | .vrot p d a k => some (encSel (encV1 0x6B 0 p d a) 0 k, .none)
  | .viota p d a => some (((rawP 0x6C 0 p).setD (d.setWidth 6)).setA a, .none)
  | .vmov p d a => some (encV1 0x6D 0 p d a, .none)
  | .vred p o d a => some (((rawP 0x6E o.code p).setD d).setVa a, .none)
  | .vscan p o d a => some (encV1 0x6F o.code p d a, .none)
  | .vdot p t d a b => some ((encV1 0x70 (t.elem.code.setWidth 6) p d a).setVb b, .none)
  | .vld p xs d a i => some ((((rawP 0x80 (fnAt xs 3) p).setD (d.setWidth 6)).setA a).setI i.low, i.ext)
  | .vst p xs a i b => some ((((rawP 0x81 (fnAt xs 3) p).setA a).setVb b).setI i.low, i.ext)
  | .vlds p xs d a i cc =>
    some ((((rawP 0x82 (fnAt xs 3) p).setD (d.setWidth 6)).setA a).set3 cc.r cc.w i.low, i.ext)
  | .vsts p xs a i b cc => some ((((rawP 0x83 (fnAt xs 3) p).setA a).setVb b).set3 cc.r cc.w i.low, i.ext)
  | .vgth p k xs d a i cc =>
    some ((((rawP 0x84 (k.setWidth 6 ||| fnAt xs 3) p).setD (d.setWidth 6)).setA a).set3 (cc.r.setWidth 6) cc.w i.low,
      i.ext)
  | .vsct p k xs a i b cc =>
    some ((((rawP 0x85 (k.setWidth 6 ||| fnAt xs 3) p).setA a).setVb b).set3 (cc.r.setWidth 6) cc.w i.low, i.ext)
  | .vldsy p xs d a i => some ((((rawP 0x86 (fnAt xs 3) p).setD (d.setWidth 6)).setA a).setI i.low, i.ext)
  | .strm p d a b cc => some (((((rawP 0x87 0 p).setD (d.setWidth 6)).setA a).setB b).set3 cc.r cc.w 0, .none)
  | .spopStream p d x => some (((rawP 0x88 0 p).setD (d.setWidth 6)).setA ⟨x.setWidth 6, false⟩, .none)
  | .spopFifo p d f => some (((rawP 0x88 1 p).setD (d.setWidth 6)).setA ⟨f.setWidth 6, false⟩, .none)
  | .spush p d a => some (((rawP 0x89 0 p).setD (d.setWidth 6)).setVa a, .none)
  | .cpy c tag dx sx a b cc =>
    some ((((rawC 0x90 0 c).setA a).setB b).set3 cc.r cc.w
      ((sx ++ dx ++ tag).setWidth 17), .none)
  | .cpy2d c tag dx sx a b ss ds len rows =>
    some ((((rawC 0x91 0 c).setA a).setB b).setI ((sx ++ dx ++ tag).setWidth 24),
      .w64 (ss ++ ds ++ len ++ rows))
  | .cpyw c all tag d => some (((rawC 0x92 0 c).setD d).setI ((BitVec.ofBool all ++ tag).setWidth 24), .none)
  | .cpyst c tag s dx sx a b cc f v =>
    some (((((rawC 0x93 0 c).setD f).setA a).setB b).set3 cc.r cc.w
      ((s.code ++ sx ++ dx ++ tag).setWidth 17), .w64 v)
  | .amo c dw s o aq rl d a b =>
    some (((((rawC 0x94 ((BitVec.ofBool dw ++ o.code).setWidth 6) c).setD d).setA a).setB b).setI
      ((BitVec.ofBool rl ++ BitVec.ofBool aq ++ s.code).setWidth 24), .none)
  | .amocas c dw s aq rl d a b cc =>
    some (((((rawC 0x95 (fnAt dw 4) c).setD d).setA a).setB b).set3 cc.r cc.w
      ((BitVec.ofBool rl ++ BitVec.ofBool aq ++ s.code).setWidth 17), .none)
  | .amor c dw s o rl a b =>
    some ((((rawC 0x96 ((BitVec.ofBool dw ++ o.code).setWidth 6) c).setA a).setB b).setI
      ((BitVec.ofBool rl ++ 0#1 ++ s.code).setWidth 24), .none)
  | .fence c s set => some ((rawC 0x97 0 c).setI ((set ++ s.code).setWidth 24), .none)
  | .fencee c s => some ((rawC 0x98 0 c).setI (s.code.setWidth 24), .none)
  | .mlease c => some (rawC 0xA0 0 c, .none)
  | .mrel c => some (rawC 0xA1 0 c, .none)
  | .mls c w i4 g a st => some ((rawC 0xA2 (fnBit w ||| fnAt i4 1) c).setA a, .w64 (guardBits g ||| st.setWidth 64))
  | .mma c za i4 g d a m1 st =>
    some (((rawC 0xA3 (fnBit za ||| fnAt i4 1) c).setD (d.setWidth 6)).setA a,
      .w64 (guardBits g ||| (m1 ++ st).setWidth 64))
  | .mmag c za i4 g d a f nrow m1 st =>
    some (((((rawC 0xA4 (fnBit za ||| fnAt i4 1) c).setD (d.setWidth 6)).setA a).setB ⟨f.setWidth 6, false⟩).setI nrow,
      .w64 (guardBits g ||| (m1 ++ st).setWidth 64))
  | .mrot c za i4 g d ld =>
    match ld with
    | none => some ((rawC 0xA5 (fnBit za ||| fnAt i4 1) c).setD (d.setWidth 6), .w64 (guardBits g))
    | some (a, st) =>
      some (((rawC 0xA5 (fnBit za ||| fnAt i4 1 ||| 4) c).setD (d.setWidth 6)).setA a,
        .w64 (guardBits g ||| st.setWidth 64))
  | .mldt c b8 ns a b st =>
    some (((rawC 0xA6 (fnBit b8 ||| fnAt ns 1) c).setA a).setB b, .w64 (st.setWidth 64))
  | .mst c i cl xs rm g a b m1 st =>
    some (((rawC 0xA7 (fnBit i ||| fnAt cl 1 ||| fnAt xs 2) c).setA a).setB ⟨b.setWidth 6, false⟩,
      .w64 (guardBits g ||| (rm.code ++ m1 ++ st).setWidth 64))
  | .mzero c d n1 form =>
    some (((rawC 0xA8 0 c).setD (d.setWidth 6)).setI (n1.setWidth 24),
      match form with
      | .short => .none
      | .long g => .w64 (guardBits g))
  | .mstat c cl d => some ((rawC 0xA9 (fnBit cl) c).setD d, .none)
  | .gset c g v =>
    match v with
    | .q a => some (((rawC 0xAA 0 c).setQa a).setI (g.setWidth 24), .none)
    | .imm v => some ((rawC 0xAA 0x20 c).setI ((BitVec.ofBool v ++ g).setWidth 24), .none)
  | .gclr c g => some ((rawC 0xAB 0 c).setI (g.setWidth 24), .none)
  | .gclrR c g => some ((rawC 0xAB 1 c).setI (g.setWidth 24), .none)
  | .mwait c n => some ((rawC 0xAC 0 c).setI (n.setWidth 24), .none)
  | .rtset c h a => some (((rawC 0xB0 0 c).setA a).setI (h.setWidth 24), .none)
  | .rtsetInit c h a => some (((rawC 0xB0 1 c).setA a).setI (h.setWidth 24), .none)
  | .rhv c f h a => some ((((rawC 0xB1 0 c).setD (f.setWidth 6)).setA a).setI (h.setWidth 24), .none)
  | .rprobe c d a h h1 m1 sp =>
    match sp with
    | none => some ((((rawC 0xB2 0 c).setD d).setA a).setI ((h1 ++ h).setWidth 24), .w64 (m1.setWidth 64))
    | some o =>
      some ((((rawC 0xB2 1 c).setD d).setA a).setI ((h1 ++ h).setWidth 24), .w64 ((o ++ 0#20 ++ m1).setWidth 64))
  | .rins c h a => some (((rawC 0xB3 0 c).setA a).setI (h.setWidth 24), .none)
  | .rdel c h a => some (((rawC 0xB4 0 c).setA a).setI (h.setWidth 24), .none)
  | .rhash c h a b => some ((((rawC 0xB5 0 c).setA a).setB b).setI (h.setWidth 24), .none)
  | .rhashFifo c h f => some (((rawC 0xB5 1 c).setB ⟨f.setWidth 6, false⟩).setI (h.setWidth 24), .none)
  | .rdirty c f h => some (((rawC 0xB6 0 c).setD (f.setWidth 6)).setI (h.setWidth 24), .none)
  | .rfence c s => some ((rawC 0xB7 0 c).setI (s.code.setWidth 24), .none)
  | .rstat c cl d h sel => some (((rawC 0xB8 (fnBit cl) c).setD d).setI ((sel ++ h).setWidth 24), .none)
  | .trate c k a => some (((rawC 0xB9 0 c).setA a).setI (k.setWidth 24), .none)
  | .treg c n a => some (((rawC 0xBA 0 c).setA a).setI (n.setWidth 24), .none)
  | .tregInit c n a => some (((rawC 0xBA 1 c).setA a).setI (n.setWidth 24), .none)
  | .tregX c n => some ((rawC 0xBA 2 c).setI (n.setWidth 24), .none)
  | .tstep c n => some ((rawC 0xBB 0 c).setI (n.setWidth 24), .none)
  | .tadv c n a b cc nr nc =>
    some ((((rawC 0xBC 0 c).setA a).setVb b).set3 (cc.r.setWidth 6) cc.w ((nc ++ nr ++ n).setWidth 17), .none)
  | .tadvr c n a b cc nc =>
    some ((((rawC 0xBD 0 c).setA a).setVb b).set3 cc.r cc.w ((nc ++ 0#6 ++ n).setWidth 17), .none)
  | .trd c d n a nc => some ((((rawC 0xBE 0 c).setD (d.setWidth 6)).setA a).setI ((nc ++ n).setWidth 24), .none)
  | .tclrE c n a nr => some (((rawC 0xBF 0 c).setA a).setI ((nr ++ n).setWidth 24), .none)
  | .tclrD c n a nr => some (((rawC 0xBF 1 c).setA a).setI ((nr ++ n).setWidth 24), .none)
  | .rwd c a b => some (((rawC 0xC0 0 c).setA a).setB b, .none)
  | .rwdC c a b => some (((rawC 0xC0 1 c).setA a).setB b, .none)
  | .rwdw c a => some ((rawC 0xC1 0 c).setA a, .none)
  | .trhz c cl d sel k => some (((rawC 0xC2 (fnBit cl) c).setD d).setI ((k ++ 0#1 ++ sel).setWidth 24), .none)
  | .sts c sz a i b => some ((((rawC 0xC3 (sz.code.setWidth 6) c).setA a).setB b).setI i.low, i.ext)
  | .swait c a => some ((rawC 0xC4 0 c).setA a, .none)
  | .swaitOwn c => some (rawC 0xC4 1 c, .none)
  | .rdtime c d => some ((rawC 0xC5 0 c).setD d, .none)
  | .stsb c a b len1 => some (((rawC 0xC6 0 c).setA a).setB b, .w64 (len1.setWidth 64))
  | .bqpop c d n => some (((rawC 0xC8 0 c).setD d).setI (n.setWidth 24), .none)
  | .bred c o t d a b =>
    some (((((rawC 0xC9 o.code c).setD d).setA a).setB b).setI (t.code.setWidth 24), .none)
  | .bsend c t a b cc => some ((((rawC 0xCA 0 c).setA a).setB b).set3 cc.r cc.w (t.code.setWidth 17), .none)
  | .bqdone c n => some ((rawC 0xCB 0 c).setI (n.setWidth 24), .none)
  | .wdset c w a => some (((rawC 0xCC 0 c).setA a).setI (w.setWidth 24), .none)
  | .wdget c d w => some (((rawC 0xCD 0 c).setD d).setI (w.setWidth 24), .none)
  | .csrr c d n => some (((rawC 0xE0 0 c).setD d).setI (n.setWidth 24), .none)
  | .csrw c d n a => some ((((rawC 0xE1 0 c).setD d).setA a).setI (n.setWidth 24), .none)
  | .csrs c d n a => some ((((rawC 0xE2 0 c).setD d).setA a).setI (n.setWidth 24), .none)
  | .csrc c d n a => some ((((rawC 0xE3 0 c).setD d).setA a).setI (n.setWidth 24), .none)
  | .eret c => some (rawC 0xE4 0 c, .none)
  | .tlbiPage c a => some ((rawC 0xE5 0 c).setA a, .none)
  | .tlbiAll c => some (rawC 0xE5 1 c, .none)
  | .tlbiKid c a => some ((rawC 0xE5 2 c).setA a, .none)
  | .ctxsv c d n a => some ((((rawC 0xE6 0 c).setD d).setA a).setI (n.setWidth 24), .none)
  | .ctxsvM c d n a => some ((((rawC 0xE6 0 c).setD d).setA a).setI ((1#1 ++ n).setWidth 24), .none)
  | .ctxld c d n a => some ((((rawC 0xE7 0 c).setD d).setA a).setI (n.setWidth 24), .none)
  | .ctxldM c d n a => some ((((rawC 0xE7 0 c).setD d).setA a).setI ((1#1 ++ n).setWidth 24), .none)
  | .wfi c => some (rawC 0xE8 0 c, .none)
  | .satw c a b => some (((rawC 0xE9 0 c).setA a).setB b, .none)
  | .chset c a ch b cc => some ((((rawC 0xEA 0 c).setA a).setB b).set3 cc.r cc.w (ch.setWidth 17), .none)
  | .preempt c d a => some (((rawC 0xEB 0 c).setD d).setA a, .none)
  | .sleeps c d a => some (((rawC 0xEC 0 c).setD d).setA a, .none)
  | .wakes c d a => some (((rawC 0xED 0 c).setD d).setA a, .none)
  | .gangctlStatus c d a => some (((rawC 0xEE 0 c).setD d).setA a, .none)
  | .gangctlResume c d a => some (((rawC 0xEE 1 c).setD d).setA a, .none)
  | .gangctlKill c d a => some (((rawC 0xEE 2 c).setD d).setA a, .none)
  | _ => none

/-- The length code and the bytes of an extension (06 R135). -/
def Ext.lcode : Ext → Nat
  | .none => 0
  | .w32 _ => 1
  | .w64 _ => 2

def Ext.bytes : Ext → List Byte
  | .none => []
  | .w32 v => leBytes 4 v.toNat
  | .w64 v => leBytes 8 v.toNat

/-- The bytes of an instruction in memory; none for a step of the device. -/
def encode (i : Instr) : Option (List Byte) :=
  (encodeRaw i).map fun (r, x) => leBytes 8 (r.pack x.lcode) ++ x.bytes

/-- How many bytes an instruction takes: 8, 12 or 16 (06 R135). -/
def Instr.len (i : Instr) : Nat :=
  match encodeRaw i with
  | some (_, .w32 _) => 12
  | some (_, .w64 _) => 16
  | _ => 8

end Sys2Proof
end

