-- ==== Sys2Proof/Machine/Maps.lean ====
section
/-! DEFINITION. Sparse tables, byte memories in their canonical form, and the byte, lane and bit helpers. -/

namespace Sys2Proof.Machine

/-! Sparse tables -/

/-- The entry of key k, or the default. -/
def mget {α : Type} : Map α → Nat → α → α
  | [], _, dflt => dflt
  | (k', v) :: r, k, dflt => if k' = k then v else mget r k dflt

/-- The table with key k set to v; keys rise. -/
def mset {α : Type} : Map α → Nat → α → Map α
  | [], k, v => [(k, v)]
  | (k', v') :: r, k, v =>
    if k' = k then (k, v) :: r else if k < k' then (k, v) :: (k', v') :: r else (k', v') :: mset r k v

/-! Byte memories: addresses strictly rise and no listed byte is 0, which is what an unlisted address reads as (DESIGN CHOICE, log 1) -/

/-- What an address that is not listed reads as. -/
def unlisted : Byte := 0

/-- The byte at an address. -/
def cget : List Host.Cell → Nat → Byte
  | [], _ => unlisted
  | (b, w) :: r, a => if b = a then w else cget r a

/-- Put a cell at its place by address. -/
def cins : List Host.Cell → Nat → Byte → List Host.Cell
  | [], a, v => [(a, v)]
  | (b, w) :: r, a, v => if a < b then (a, v) :: (b, w) :: r else (b, w) :: cins r a v

/-- Remove the cell of an address. -/
def cdel : List Host.Cell → Nat → List Host.Cell
  | [], _ => []
  | (b, w) :: r, a => if b = a then cdel r a else (b, w) :: cdel r a

/-- The memory with one byte written. -/
def cset (m : List Host.Cell) (a : Nat) (v : Byte) : List Host.Cell :=
  if v = unlisted then cdel m a else cins (cdel m a) a v

/-- The canonical form: addresses strictly rise from lo, no byte is the unlisted one. -/
def cellsFrom : List Host.Cell → Nat → Bool
  | [], _ => true
  | (a, v) :: r, lo => decide (lo ≤ a) && v != unlisted && cellsFrom r (a + 1)

def Memory.wf (m : List Host.Cell) : Bool := cellsFrom m 0

/-! Bytes and bits -/

/-- Little-endian value of bytes (00 R4). -/
def fromLe : List Byte → Nat
  | [] => 0
  | b :: bs => b.toNat + 256 * fromLe bs

/-- n little-endian bytes of a value. -/
def toLe : Nat → Nat → List Byte
  | 0, _ => []
  | n + 1, v => BitVec.ofNat 8 v :: toLe n (v / 256)

/-- Bits hi down to lo of a number. -/
def bitsOf (v hi lo : Nat) : Nat := v / 2 ^ lo % 2 ^ (hi + 1 - lo)

/-- Bit n of a number. -/
def bitOf (v n : Nat) : Bool := v / 2 ^ n % 2 == 1

def b2n (b : Bool) : Nat := if b then 1 else 0

/-- The low n bits of a number, read as a signed number. -/
def sgn (n v : Nat) : Int := if v % 2 ^ n < 2 ^ (n - 1) then (v % 2 ^ n : Nat) else (v % 2 ^ n : Nat) - (2 ^ n : Nat)

/-- A 64-bit word of an integer. -/
def wordI (v : Int) : Word := BitVec.ofInt 64 v

def word (v : Nat) : Word := BitVec.ofNat 64 v

/-- Sign extension of the low n bits to 64 (00 R14). -/
def sextW (v : Nat) (n : Nat) : Word := wordI (sgn n v)

/-! Vectors and lanes -/

/-- A vector register from its lanes. -/
def mkV (f : Nat → Lane) : VWord := Vector.ofFn fun i => f i.val

/-- Lane i of a vector register. -/
def lane (v : VWord) (i : Nat) : Lane := v.toList.getD i 0

/-- Element j of width w bits of a lane, and a lane with that element replaced (08 R190). -/
def laneElem (l : Lane) (w j : Nat) : Nat := l.toNat / 2 ^ (w * j) % 2 ^ w
def laneSet (l : Lane) (w j v : Nat) : Lane :=
  BitVec.ofNat 32 (l.toNat - laneElem l w j * 2 ^ (w * j) + v % 2 ^ w * 2 ^ (w * j))

/-- The lane whose elements of width w are f 0, f 1, … -/
def laneOf (w : Nat) (f : Nat → Nat) : Lane :=
  BitVec.ofNat 32 ((List.range (32 / w)).foldl (fun acc j => acc + f j % 2 ^ w * 2 ^ (w * j)) 0)

/-- The 256 bytes of a vector register and back. -/
def vBytes (v : VWord) : List Byte := (List.range 64).flatMap fun i => toLe 4 (lane v i).toNat
def vOfBytes (bs : List Byte) : VWord := mkV fun i => BitVec.ofNat 32 (fromLe ((bs.drop (4 * i)).take 4))

/-- Set or clear bit i of a bit vector. -/
def setBit {w : Nat} (x : BitVec w) (i : Nat) (b : Bool) : BitVec w :=
  if b then x ||| BitVec.twoPow w i else x &&& ~~~(BitVec.twoPow w i)

/-- Put a value at an index of a list that is long enough. -/
def listSet {α : Type} : List α → Nat → α → List α
  | [], _, _ => []
  | _ :: xs, 0, v => v :: xs
  | x :: xs, n + 1, v => x :: listSet xs n v

/-- Remove the element at an index. -/
def listDel {α : Type} : List α → Nat → List α
  | [], _ => []
  | _ :: xs, 0 => xs
  | x :: xs, n + 1 => x :: listDel xs n

/-- Insert a number into a strictly rising list, and remove one. -/
def insNat : List Nat → Nat → List Nat
  | [], a => [a]
  | b :: r, a => if a = b then b :: r else if a < b then a :: b :: r else b :: insNat r a

def delNat : List Nat → Nat → List Nat
  | [], _ => []
  | b :: r, a => if a = b then delNat r a else b :: delNat r a

end Sys2Proof.Machine
end

