-- ==== Sys2Proof/Machine/Flags.lean ====
section
/-! DEFINITION. The floating-point flags and the conditions of compares (03 Table 3.3, 07 Table 7.2). The flags that an
operation raises are computed with its result in Num.lean. -/

namespace Sys2Proof.Machine

/-! Flags, in the layout of FSTAT bits 5:0 (03 Table 3.3) -/

abbrev FFlags := BitVec 6
def fNV : FFlags := 1
def fDZ : FFlags := 2
def fOF : FFlags := 4
def fUF : FFlags := 8
def fNX : FFlags := 16
def fNF : FFlags := 32

/-- The condition codes of CMPQ and CBR (07 Table 7.2). -/
def cmpCond (c : CmpCond) (a b : Word) : Bool :=
  match c with
  | .eq => a == b
  | .ne => a != b
  | .lt => BitVec.slt a b
  | .ge => !BitVec.slt a b
  | .ltu => BitVec.ult a b
  | .geu => !BitVec.ult a b
  | .tst => (a &&& b) != 0
  | .ntst => (a &&& b) == 0

/-- The binary operations of QOP and PLOG on one bit. -/
def logBit (o : LogOp) (a b : Bool) : Bool :=
  match o with
  | .and => a && b
  | .or => a || b
  | .xor => a != b
  | .andn => a && !b

end Sys2Proof.Machine
end

