-- ==== Sys2Proof/Machine/Num.lean ====
section
/-! DEFINITION. Floating-point formats, exact values, rounding and conversion (03 Number Formats and Exact Arithmetic,
00 R15, R16). Values are exact dyadic numbers; every result is rounded once. -/

namespace Sys2Proof.Machine

/-- A format: width, fraction bits, bias, and whether its all-ones exponent holds normal numbers (E4M3). -/
structure Fmt where
  width : Nat
  mant : Nat
  bias : Nat
  e4m3 : Bool
  deriving DecidableEq, Repr

/-- The five formats of 03 Table 3.1. -/
def fp32 : Fmt := { width := 32, mant := 23, bias := 127, e4m3 := false }
def fp16 : Fmt := { width := 16, mant := 10, bias := 15, e4m3 := false }
def bf16 : Fmt := { width := 16, mant := 7, bias := 127, e4m3 := false }
def e5m2 : Fmt := { width := 8, mant := 2, bias := 15, e4m3 := false }
def e4m3 : Fmt := { width := 8, mant := 3, bias := 7, e4m3 := true }

/-- An exact number (−1)^neg × m × 2^e; a zero keeps its sign. -/
structure Dy where
  neg : Bool
  m : Nat
  e : Int
  deriving DecidableEq, Repr

/-- A decoded value. sig: a signalling NaN (03 R66). -/
inductive FVal where
  | nan (sig : Bool)
  | inf (neg : Bool)
  | num (d : Dy)
  deriving DecidableEq, Repr

def Fmt.expBits (f : Fmt) : Nat := f.width - 1 - f.mant
def Fmt.expMax (f : Fmt) : Nat := 2 ^ f.expBits - 1
def Fmt.signBit (f : Fmt) : Nat := 2 ^ (f.width - 1)

/-- The value of an encoding (03 R65, R66). -/
def Fmt.decode (f : Fmt) (bits : Nat) : FVal :=
  let neg := bitOf bits (f.width - 1)
  let e := bits / 2 ^ f.mant % 2 ^ f.expBits
  let frac := bits % 2 ^ f.mant
  if e = f.expMax ∧ f.e4m3 = false then
    if frac = 0 then .inf neg else .nan (!bitOf frac (f.mant - 1))
  else if e = f.expMax ∧ frac = 2 ^ f.mant - 1 then .nan false
  else if e = 0 then .num { neg, m := frac, e := 1 - (f.bias : Int) - (f.mant : Int) }
  else .num { neg, m := 2 ^ f.mant + frac, e := (e : Int) - (f.bias : Int) - (f.mant : Int) }

/-- The canonical NaN, the infinity of a sign, the largest finite magnitude (03 Table 3.1). -/
def Fmt.nan (f : Fmt) : Nat :=
  if f.e4m3 then 0x7F else f.expMax * 2 ^ f.mant + 2 ^ (f.mant - 1)
def Fmt.infBits (f : Fmt) (neg : Bool) : Nat := f.expMax * 2 ^ f.mant + b2n neg * f.signBit
def Fmt.maxBits (f : Fmt) (neg : Bool) : Nat :=
  (if f.e4m3 then 0x7E else f.expMax * 2 ^ f.mant - 1) + b2n neg * f.signBit

/-- Number of bits of a number. -/
def bitLen (n : Nat) : Nat := if n = 0 then 0 else n.log2 + 1

/-- Whether rounding goes away from zero, from the kept value, the discarded part against its half, and the sign. -/
def roundsUp (rm : RMode) (neg : Bool) (keep rest half : Nat) (sticky : Bool) : Bool :=
  match rm with
  | .rne => rest > half || (rest == half && (sticky || keep % 2 == 1))
  | .rtz => false
  | .rdn => neg && (rest != 0 || sticky)
  | .rup => !neg && (rest != 0 || sticky)

/-- Round m × 2^e (and a bit more, when sticky) to a multiple of 2^q: the multiple, and whether it changed. -/
def roundAt (rm : RMode) (neg : Bool) (m : Nat) (e q : Int) (sticky : Bool) : Nat × Bool :=
  if q ≤ e then
    let keep := m * 2 ^ (e - q).toNat
    if sticky then
      -- what is left is less than one unit of 2^e, and e is never above q by more than the callers' guard bits
      (if roundsUp rm neg keep 0 1 true then keep + 1 else keep, true)
    else (keep, false)
  else
    let sh := (q - e).toNat
    let keep := m / 2 ^ sh
    let rest := m % 2 ^ sh
    let half := 2 ^ (sh - 1)
    (if roundsUp rm neg keep rest half sticky then keep + 1 else keep, rest != 0 || sticky)

/-- What an overflow gives under a mode (00 R16). -/
def Fmt.overflow (f : Fmt) (rm : RMode) (neg : Bool) : Nat × FFlags :=
  let toInf := match rm with
    | .rne => true
    | .rtz => false
    | .rdn => neg
    | .rup => !neg
  if toInf then (f.infBits neg, fOF ||| fNX ||| fNF) else (f.maxBits neg, fOF ||| fNX)

/-- Round an exact number once to a format (00 R16, 03 R73, R76): its encoding and flags. Tininess is detected after
rounding. ns: the .NS variant of E4M3. -/
def Fmt.round (f : Fmt) (rm : RMode) (ns : Bool) (d : Dy) (sticky : Bool) : Nat × FFlags :=
  let sgnBits := b2n d.neg * f.signBit
  if d.m = 0 ∧ sticky = false then (sgnBits, 0)
  else
    let emin : Int := 1 - (f.bias : Int)
    let top : Int := d.e + (bitLen d.m : Int) - 1
    let qFree := top - (f.mant : Int)
    let qMin := emin - (f.mant : Int)
    let q := if qFree < qMin then qMin else qFree
    let (keep, inexact) := roundAt rm d.neg d.m d.e q sticky
    let (keepFree, _) := roundAt rm d.neg d.m d.e qFree sticky
    let tiny := decide (top < emin) && !(decide (top = emin - 1) && decide (2 ^ (f.mant + 1) ≤ keepFree))
    let carry := decide (2 ^ (f.mant + 1) ≤ keep)
    let field : Nat := if keep < 2 ^ f.mant then 0 else (q + (f.mant : Int) + (f.bias : Int)).toNat + b2n carry
    let frac := if carry then 0 else keep % 2 ^ f.mant
    let ovf := if f.e4m3 then decide (f.expMax < field) || (field == f.expMax && frac == 2 ^ f.mant - 1)
      else decide (f.expMax ≤ field)
    if ovf then
      if f.e4m3 then (if ns then (f.nan, fNV ||| fNF) else (f.maxBits d.neg, fOF ||| fNX))
      else f.overflow rm d.neg
    else
      (field * 2 ^ f.mant + frac + sgnBits,
        (if inexact then fNX else 0) ||| (if tiny && inexact then fUF else 0))

/-- The encoding of a value under a mode and its flags, those of the operation that made it included (03 R67, R75,
Table 3.4). -/
def Fmt.encode (f : Fmt) (rm : RMode) (ns : Bool) (v : FVal) (fl : FFlags) : Nat × FFlags :=
  match v with
  | .nan sig => (f.nan, fl ||| fNF ||| (if sig then fNV else 0))
  | .inf neg =>
    if f.e4m3 then (if ns then (f.nan, fl ||| fNV ||| fNF) else (f.maxBits neg, fl ||| fOF))
    else (f.infBits neg, fl ||| fNF)
  | .num d =>
    let (b, g) := f.round rm ns d false
    (b, fl ||| g)

/-- A result that rounds a number known to lie strictly between m and m + 1 units. -/
def Fmt.encodeSticky (f : Fmt) (d : Dy) (sticky : Bool) : Nat × FFlags := f.round .rne false d sticky

/-! Exact arithmetic (00 R15) -/

def Dy.zero (neg : Bool) : Dy := { neg, m := 0, e := 0 }

def Dy.ofInt (i : Int) : Dy := { neg := decide (i < 0), m := i.natAbs, e := 0 }

def Dy.signed (d : Dy) (e : Int) : Int :=
  let v : Nat := d.m * 2 ^ (d.e - e).toNat
  if d.neg then -(v : Int) else (v : Int)

/-- Exact sum; a zero sum is −0 only when both addends are −0. -/
def Dy.add (a b : Dy) : Dy :=
  if a.m = 0 ∧ b.m = 0 then Dy.zero (a.neg && b.neg)
  else if a.m = 0 then b
  else if b.m = 0 then a
  else
    let e := if a.e < b.e then a.e else b.e
    let t := a.signed e + b.signed e
    if t = 0 then Dy.zero false else { neg := decide (t < 0), m := t.natAbs, e := e }

def Dy.mul (a b : Dy) : Dy := { neg := a.neg != b.neg, m := a.m * b.m, e := a.e + b.e }
def Dy.negate (a : Dy) : Dy := { a with neg := !a.neg }

/-- a < b as real numbers. -/
def Dy.lt (a b : Dy) : Bool :=
  let e := if a.e < b.e then a.e else b.e
  decide (a.signed e < b.signed e)
def Dy.eqv (a b : Dy) : Bool :=
  let e := if a.e < b.e then a.e else b.e
  decide (a.signed e = b.signed e)

def FVal.isNan : FVal → Bool
  | .nan _ => true
  | _ => false
def FVal.sig : FVal → Bool
  | .nan s => s
  | _ => false
def FVal.isInf : FVal → Bool
  | .inf _ => true
  | _ => false
def FVal.nonfinite : FVal → Bool
  | .num _ => false
  | _ => true
def FVal.neg : FVal → Bool
  | .nan _ => false
  | .inf n => n
  | .num d => d.neg
def FVal.isZero : FVal → Bool
  | .num d => d.m == 0
  | _ => false
def FVal.negate : FVal → FVal
  | .nan s => .nan s
  | .inf n => .inf (!n)
  | .num d => .num d.negate

/-- A result of an operation and the flags of the operation itself. -/
abbrev FRes := FVal × FFlags

def nvNan : FRes := (.nan false, fNV)

/-- NaN operands give a NaN, with NV for a signalling one (03 R67). -/
def nanOf2 (a b : FVal) : FRes := (.nan false, if a.sig || b.sig then fNV else 0)

/-- a + b (03 R77). -/
def fAdd (a b : FVal) : FRes :=
  if a.isNan || b.isNan then nanOf2 a b
  else match a, b with
    | .inf x, .inf y => if x = y then (.inf x, 0) else nvNan
    | .inf x, _ => (.inf x, 0)
    | _, .inf y => (.inf y, 0)
    | .num x, .num y => (.num (x.add y), 0)
    | _, _ => nvNan

/-- a × b (03 R77). -/
def fMul (a b : FVal) : FRes :=
  if a.isNan || b.isNan then nanOf2 a b
  else match a, b with
    | .num x, .num y => (.num (x.mul y), 0)
    | x, y => if x.isZero || y.isZero then nvNan else (.inf (x.neg != y.neg), 0)

/-- a × b + c, fused (03 R77). -/
def fFma (a b c : FVal) : FRes :=
  let p := fMul a b
  if c.isNan && (a.isNan || b.isNan) then (.nan false, if a.sig || b.sig || c.sig then fNV else 0)
  else if c.isNan then (.nan false, p.2 ||| (if c.sig then fNV else 0))
  else
    let r := fAdd p.1 c
    (r.1, p.2 ||| r.2)

/-- Order with −0 below +0 (03 R77), NaN aside. -/
def fLess (a b : FVal) : Bool :=
  match a, b with
  | .inf x, .inf y => x && !y
  | .inf x, _ => x
  | _, .inf y => !y
  | .num x, .num y => if x.m = 0 ∧ y.m = 0 then x.neg && !y.neg else x.lt y
  | _, _ => false

/-- Minimum and maximum: one of the operands, no NF for an infinity (03 R75, R77). The flag says which. -/
def pickMax (a b : FVal) : Bool := fLess a b

/-- Round-to-nearest square root by digits: floor of the square root. -/
def isqrtGo : Nat → Nat → Nat → Nat
  | 0, _, r => r
  | k + 1, n, r =>
    let t := r + 2 ^ k
    isqrtGo k n (if t * t ≤ n then t else r)
def isqrt (n : Nat) : Nat := isqrtGo ((bitLen n + 1) / 2) n 0

/-- Quotient of two nonzero numbers to n bits or more, and whether it is inexact. -/
def dyDiv (a b : Dy) (n : Nat) : Dy × Bool :=
  let k := n + bitLen b.m
  let t := a.m * 2 ^ k
  ({ neg := a.neg != b.neg, m := t / b.m, e := a.e - b.e - (k : Int) }, t % b.m != 0)

/-- Square root of a positive number to n bits or more. -/
def dySqrt (a : Dy) (n : Nat) : Dy × Bool :=
  let k : Nat := 2 * n + b2n ((a.e - 2 * (n : Int)) % 2 != 0)
  let t := a.m * 2 ^ k
  let r := isqrt t
  ({ neg := false, m := r, e := (a.e - (k : Int)) / 2 }, r * r != t)

/-- 1 ÷ sqrt of a positive number to n bits or more. -/
def dyRsqrt (a : Dy) (n : Nat) : Dy × Bool :=
  let k0 := 2 * n + 2 * bitLen a.m
  let k : Nat := k0 + b2n ((a.e + (k0 : Int)) % 2 != 0)
  let t := 2 ^ k
  let r := isqrt (t / a.m)
  ({ neg := false, m := r, e := (-a.e - (k : Int)) / 2 }, r * r * a.m != t)

/-- FP32 result of a correctly rounded operation: encoding and flags. -/
abbrev Bits := Nat × FFlags

/-- VDIV (03 R77, R78). -/
def f32Div (a b : FVal) : Bits :=
  if a.isNan || b.isNan then
    let r := nanOf2 a b
    fp32.encode .rne false r.1 r.2
  else match a, b with
    | .inf _, .inf _ => fp32.encode .rne false (.nan false) fNV
    | .inf x, y => fp32.encode .rne false (.inf (x != y.neg)) 0
    | x, .inf y => fp32.encode .rne false (.num (Dy.zero (x.neg != y))) 0
    | .num x, .num y =>
      if y.m = 0 then
        if x.m = 0 then fp32.encode .rne false (.nan false) fNV
        else fp32.encode .rne false (.inf (x.neg != y.neg)) fDZ
      else if x.m = 0 then fp32.encode .rne false (.num (Dy.zero (x.neg != y.neg))) 0
      else
        let (d, st) := dyDiv x y 40
        fp32.encodeSticky d st
    | _, _ => fp32.encode .rne false (.nan false) fNV

def dyOne : Dy := { neg := false, m := 1, e := 0 }

/-- VRCP (03 Table 3.5). -/
def f32Rcp (a : FVal) : Bits := f32Div (.num dyOne) a

/-- VSQRT (03 Table 3.5). -/
def f32Sqrt (a : FVal) : Bits :=
  match a with
  | .nan s => fp32.encode .rne false (.nan s) 0
  | .inf n => if n then fp32.encode .rne false (.nan false) fNV else fp32.encode .rne false (.inf false) 0
  | .num d =>
    if d.m = 0 then fp32.encode .rne false (.num d) 0
    else if d.neg then fp32.encode .rne false (.nan false) fNV
    else
      let (r, st) := dySqrt d 40
      fp32.encodeSticky r st

/-- VRSQ (03 Table 3.5). -/
def f32Rsq (a : FVal) : Bits :=
  match a with
  | .nan s => fp32.encode .rne false (.nan s) 0
  | .inf n =>
    if n then fp32.encode .rne false (.nan false) fNV else fp32.encode .rne false (.num (Dy.zero false)) 0
  | .num d =>
    if d.m = 0 then fp32.encode .rne false (.inf d.neg) fDZ
    else if d.neg then fp32.encode .rne false (.nan false) fNV
    else
      let (r, st) := dyRsqrt d 40
      fp32.encodeSticky r st

/-- VRSQE (03 R79): x a lane, eps the scalar operand. -/
def f32Rsqe (x eps : FVal) : Bits :=
  let bad : Bool := match eps with
    | .nan _ => true
    | .inf _ => true
    | .num d => d.neg && d.m != 0
  if bad then fp32.encode .rne false (.nan false) fNV
  else match x, eps with
    | .nan s, _ => fp32.encode .rne false (.nan s) 0
    | .inf n, _ =>
      if n then fp32.encode .rne false (.nan false) fNV else fp32.encode .rne false (.num (Dy.zero false)) 0
    | .num d, .num e =>
      if d.lt { neg := true, m := e.m, e := e.e + 10 } then fp32.encode .rne false (.nan false) fNV
      else
        let t := (if d.neg then Dy.zero false else d).add { e with neg := false }
        if t.m = 0 then fp32.encode .rne false (.inf false) fDZ
        else
          let (r, st) := dyRsqrt t 40
          fp32.encodeSticky r st
    | _, _ => fp32.encode .rne false (.nan false) fNV

/-! 2^x and log2 x (03 R78). Both are irrational unless x is an integer (a power of two), so the rounded result follows
from a value known to within 2^-200 of itself (DEDUCED, log 9). -/

/-- Fraction bits of the fixed-point work. -/
def trP : Nat := 256

/-- Product of the factors 2^(2^-i) over the set bits of a fraction of n bits, in fixed point. -/
def exp2Go : Nat → Nat → Nat → Nat → Nat
  | 0, _, _, acc => acc
  | n + 1, frac, root, acc =>
    let root' := isqrt (root * 2 ^ trP)
    exp2Go n frac root' (if bitOf frac n then acc * root' / 2 ^ trP else acc)

/-- VEXP2 (03 Table 3.5). -/
def f32Exp2 (a : FVal) : Bits :=
  match a with
  | .nan s => fp32.encode .rne false (.nan s) 0
  | .inf n => if n then fp32.encode .rne false (.num (Dy.zero false)) 0 else fp32.encode .rne false (.inf false) 0
  | .num d =>
    if d.m = 0 then fp32.encode .rne false (.num dyOne) 0
    else if 0 ≤ d.e ∨ decide (Dy.lt { neg := false, m := 200, e := 0 } { d with neg := false }) then
      -- an integer, or a magnitude beyond 200
      let i := if decide (Dy.lt { neg := false, m := 200, e := 0 } { d with neg := false }) then
          (if d.neg then -200 else 200) else d.signed 0
      fp32.encodeSticky { neg := false, m := 1, e := i } false
    else
      let n := (-d.e).toNat
      let t := d.signed d.e
      let whole := t / (2 ^ n : Nat)
      let frac := (t % (2 ^ n : Nat)).toNat
      if frac = 0 then fp32.encodeSticky { neg := false, m := 1, e := whole } false
      else
        fp32.encodeSticky { neg := false, m := exp2Go n frac (2 ^ (trP + 1)) (2 ^ trP), e := whole - (trP : Int) } true

/-- n further bits of log2 of y, a fixed-point number of 320 fraction bits in [1, 2). -/
def log2Go : Nat → Nat → Nat → Nat
  | 0, _, acc => acc
  | n + 1, y, acc =>
    let z := y * y / 2 ^ 320
    if 2 ^ 321 ≤ z then log2Go n (z / 2) (2 * acc + 1) else log2Go n z (2 * acc)

/-- VLOG2 (03 Table 3.5). -/
def f32Log2 (a : FVal) : Bits :=
  match a with
  | .nan s => fp32.encode .rne false (.nan s) 0
  | .inf n => if n then fp32.encode .rne false (.nan false) fNV else fp32.encode .rne false (.inf false) 0
  | .num d =>
    if d.m = 0 then fp32.encode .rne false (.inf true) fDZ
    else if d.neg then fp32.encode .rne false (.nan false) fNV
    else
      let l := bitLen d.m - 1
      let e : Int := d.e + (l : Int)
      if d.m = 2 ^ l then fp32.encode .rne false (.num (Dy.ofInt e)) 0
      else
        let frac := log2Go 128 (d.m * 2 ^ 320 / 2 ^ l) 0
        if 0 ≤ e then
          fp32.encodeSticky { neg := false, m := e.toNat * 2 ^ 128 + frac, e := -128 } true
        else
          fp32.encodeSticky { neg := true, m := (-e).toNat * 2 ^ 128 - frac - 1, e := -128 } true

/-! Conversions -/

/-- Round to an integer under a mode (03 Table 3.4): the integer, and whether it changed. -/
def Dy.toInteger (d : Dy) (rm : RMode) : Int × Bool :=
  let (k, ch) := roundAt rm d.neg d.m d.e 0 false
  (if d.neg then -(k : Int) else (k : Int), ch)

/-- The exact quotient x ÷ s + z rounded to an integer (03 R72). -/
def quotInteger (x s : Dy) (z : Nat) (rm : RMode) : Int × Bool :=
  -- x ÷ s = n ÷ d with integers
  let e := x.e - s.e
  let n : Nat := x.m * 2 ^ e.toNat
  let dn : Nat := s.m * 2 ^ (-e).toNat
  let t : Int := (if x.neg != s.neg then -(n : Int) else (n : Int)) + (z : Int) * (dn : Int)
  let neg := decide (t < 0)
  let q := t.natAbs / dn
  let r := t.natAbs % dn
  let up := match rm with
    | .rne => decide (dn < 2 * r) || (decide (2 * r = dn) && q % 2 == 1)
    | .rtz => false
    | .rdn => neg && r != 0
    | .rup => !neg && r != 0
  let k := if up then q + 1 else q
  (if neg then -(k : Int) else (k : Int), r != 0)

/-- The value of code q under a group record (03 R71), as an FP32 encoding with flags. -/
def recScale (record : Nat) : FVal := fp16.decode (record % 65536)
def recZp (record : Nat) (int4 : Bool) : Nat :=
  let z := record / 65536 % 256
  if int4 ∧ 15 < z then 15 else z

def quantDecode (int4 : Bool) (q record : Nat) : Bits :=
  let z := recZp record int4
  match recScale record with
  | .nan s => fp32.encode .rne false (.nan s) 0
  | .inf n =>
    if q = z then fp32.encode .rne false (.nan false) fNV
    else fp32.encode .rne false (.inf (n != decide (q < z))) 0
  | .num d => fp32.encode .rne false (.num (d.mul (Dy.ofInt ((q : Int) - (z : Int))))) 0

/-- The code of a value under a group record (03 R72). -/
def quantEncode (int4 : Bool) (rm : RMode) (x : FVal) (record : Nat) : Nat × FFlags :=
  let z := recZp record int4
  let zmax := if int4 then 15 else 255
  match x, recScale record with
  | .nan _, _ => (z, fNV)
  | _, .nan _ => (z, fNV)
  | _, .inf _ => (z, fNV)
  | .inf n, .num d => if d.m = 0 then (z, fNV) else (if n = d.neg then zmax else 0, fNV)
  | .num v, .num d =>
    if d.m = 0 then (z, fNV)
    else
      let (k, ch) := quotInteger v d z rm
      if k < 0 then (0, fOF ||| fNX)
      else if (zmax : Int) < k then (zmax, fOF ||| fNX)
      else (k.toNat, if ch then fNX else 0)

/-- Floating-point formats of the element types. -/
def etFmt : ElemT → Option Fmt
  | .f32 => some fp32
  | .f16 => some fp16
  | .bf16 => some bf16
  | .e4m3 => some e4m3
  | .e5m2 => some e5m2
  | _ => none

/-- Width in bits, and whether an integer type is signed (06 Table 6.9). -/
def etWidth : ElemT → Nat
  | .f32 => 32
  | .i32 => 32
  | .uw => 32
  | .f16 => 16
  | .bf16 => 16
  | .i16 => 16
  | .uh => 16
  | .e4m3 => 8
  | .e5m2 => 8
  | .i8 => 8
  | .ub => 8
def etSigned : ElemT → Bool
  | .i32 => true
  | .i16 => true
  | .i8 => true
  | _ => false

/-- Limits of an integer type (03 R69). -/
def etLo (t : ElemT) : Int := if (etSigned t) then -(2 ^ ((etWidth t) - 1) : Nat) else 0
def etHi (t : ElemT) : Int := if (etSigned t) then (2 ^ ((etWidth t) - 1) : Nat) - 1 else (2 ^ (etWidth t) : Nat) - 1

/-- The integer that an element of an integer type holds. -/
def etInt (t : ElemT) (bits : Nat) : Int := if (etSigned t) then sgn (etWidth t) bits else (bits % 2 ^ (etWidth t) : Nat)

def clampI (x lo hi : Int) : Int := if x < lo then lo else if hi < x then hi else x

/-- CONV of VCVT (08 R198, 03 Table 3.4): the encoding in the destination type and the flags. -/
def convElem (td ts : ElemT) (rm : RMode) (ns : Bool) (bits : Nat) : Bits :=
  match (etFmt ts), (etFmt td) with
  | some fs, some fd =>
    match fs.decode bits with
    | .nan s => fd.encode rm ns (.nan s) 0
    | v => fd.encode rm ns v 0
  | some fs, none =>
    match fs.decode bits with
    | .nan _ => (0, fNV)
    | .inf n => (((if n then (etLo td) else (etHi td)) % (2 ^ (etWidth td) : Nat)).toNat, fNV)
    | .num d =>
      let (k, ch) := d.toInteger rm
      if k < (etLo td) then (((etLo td) % (2 ^ (etWidth td) : Nat)).toNat, fNV)
      else if (etHi td) < k then (((etHi td) % (2 ^ (etWidth td) : Nat)).toNat, fNV)
      else ((k % (2 ^ (etWidth td) : Nat)).toNat, if ch then fNX else 0)
  | none, some fd => fd.encode rm ns (.num (Dy.ofInt (etInt ts bits))) 0
  | none, none => ((clampI (etInt ts bits) (etLo td) (etHi td) % (2 ^ (etWidth td) : Nat)).toNat, 0)

/-- The FP32 encoding of an element of a narrower format, with the flags of 03 R68. -/
def widen (f : Fmt) (bits : Nat) : Bits := fp32.encode .rne false (f.decode bits) 0

/-- The element of a window format that an FP32 value is stored as (04 R101). -/
def narrow (f : Fmt) (rm : RMode) (bits : Nat) : Bits := f.encode rm false (fp32.decode bits) 0

/-- The formats of windows 1 to 4 (04 Table 4.3). -/
def winFmt : Nat → Fmt
  | 1 => fp16
  | 2 => bf16
  | 3 => e4m3
  | _ => e5m2

/-! FP32 arithmetic on encodings: the operations of the vector unit's reductions, the trace unit and the matrix array -/

def rn32 (v : FVal) (fl : FFlags) : Bits := fp32.encode .rne false v fl

def add32 (a b : Nat) : Bits :=
  let r := fAdd (fp32.decode a) (fp32.decode b)
  rn32 r.1 r.2
def mul32 (a b : Nat) : Bits :=
  let r := fMul (fp32.decode a) (fp32.decode b)
  rn32 r.1 r.2

/-- Minimum and maximum of a format (03 R77): the operand's own bits; a NaN gives the canonical NaN with NF. -/
def minMax (f : Fmt) (isMax : Bool) (a b : Nat) : Bits :=
  let x := f.decode a
  let y := f.decode b
  if x.isNan || y.isNan then (f.nan, fNF ||| (if x.sig || y.sig then fNV else 0))
  else if isMax then (if fLess x y then b else a, 0)
  else (if fLess y x then b else a, 0)

/-- The class mask of VCLASS (08 R193). -/
def classMask (f : Fmt) (bits : Nat) : Nat :=
  match f.decode bits with
  | .nan s => if s then 256 else 512
  | .inf n => if n then 1 else 128
  | .num d =>
    if d.m = 0 then (if d.neg then 8 else 16)
    else if d.m < 2 ^ f.mant then (if d.neg then 4 else 32)
    else if d.neg then 2 else 64

end Sys2Proof.Machine
end

