-- ==== Sys2Proof/Config.lean ====
section
/-! DEFINITION. What one implementation fixes, and the free values: constants without a body, so that no proof can
know their value (the log entries name each). -/

namespace Sys2Proof.Config

/-- The beat of a wake, less one, that the device chooses within its span of 64 (10 R292). Applied to a counter of
State, so each wake has a choice of its own. Free value: log 7. -/
opaque wakeChoice : Nat → Fin 64

/-- Which of the 16 entries of a 64 KiB page translates an access when they differ (18 R380). Free value: log 8. -/
opaque pageEntryChoice : Nat → Fin 16

/-- Lanes in use after a port is trained by RETRAIN (20 R411; log 31), applied to the free-value counter. -/
opaque trainedLanes : Nat → BitVec 8

/-- The fused FLOOR of a stratum (20 Table 20.7: reset X, fused). Free value: log 14. -/
opaque floorFuse : Nat → BitVec 3

/-- Byte k of the Falcon-1024 signature over a report whose bytes 0 to 175 are given, and its length (20 R424): the work of
firmware and of a fused secret. Free: log 14. -/
opaque attestSignature : List (BitVec 8) → Nat → BitVec 8
opaque attestSignatureLength : List (BitVec 8) → BitVec 16

/-- The words that firmware writes as the stored partition configuration at boot step 12 (20 Table 20.6). Free: log 14. -/
opaque storedPartition : Nat → BitVec 64

/-- The link check of a packet, over its header and payload (20 Table 20.3), whose polynomial the spec does not give.
Free: log 33. -/
opaque linkCrc : Packet → BitVec 32

/-- The row of a unit of a stack, by the unit's offset (20 R417; the spec gives no row size). Free: log 33. -/
opaque hbmRow : Nat → Nat

/-- Whether the original cells of a unit of a soft-repaired row, which a warm reset brings back, have lost its data: by the
boot count, the stack and the unit (20 R423: corrected or poisoned). Free: log 33. -/
opaque originalCellsBad : BitVec 64 → Nat → Nat → Bool

end Sys2Proof.Config
end

