-- ==== Sys2Proof/Machine/State.lean ====
section
/-! DEFINITION. The state of a ZS-7100 module: everything the specification gives the machine, as plain data. Tables of
many like units are sparse (Map): a unit that is not listed is as reset leaves it. INVENTORY.md lists every field with
its rule. -/

namespace Sys2Proof.Machine

/-- Why a step stops. Safe: the hardware has no such unit, so no run of it meets this. -/
inductive Fault where
  /-- Raised by a step of the device whose operand names a core that does not exist (01 R21). Safe. -/
  | noSuchCore (core : Nat)
  /-- Raised by a step of the device whose operand names another unit that does not exist (01 Table 1.2). Safe. -/
  | noSuchUnit (unit : Nat)
  deriving DecidableEq, Repr

/-- Why an instruction has no meaning here. -/
inductive Refusal where
  /-- Raised by the arm of an instruction that the model does not give yet. Safe. -/
  | notModelled (mnemonic : String)
  deriving DecidableEq, Repr

/-! Memory and results in flight -/

/-- One byte of storage after translation and aperture mapping: HBM or peer memory by physical address, the private
overflow of a context seen through its forwarding table (04 R97), a core's pool, a layer's mirror. -/
inductive Place where
  | hbm (pa : Nat)
  | fwd (core ctx pa : Nat)
  | pool (core off : Nat)
  | mirror (layer off : Nat)
  deriving DecidableEq, Repr

/-- One element as a window shows it (04 Table 4.3). -/
inductive El where
  | raw (ps : List Place)
  | fp (w : Nat) (ps : List Place)
  | quant (int4 : Bool) (code : Place) (hi : Bool) (record : List Place)
  | plast (core region row : Nat) (ps : List Place)
  deriving DecidableEq, Repr

/-- A request to a synchronisation engine (04 R99, 08 R220). -/
inductive SeOp where
  | load (bytes : Nat) (sx : Bool)
  | store (bytes : Nat) (v : Word)
  | amo (bytes : Nat) (op : AmoOp) (b : Word)
  | cas (bytes : Nat) (b c : Word)
  | flag (v : Word)                -- the flag store of a CPYST
  deriving DecidableEq, Repr

/-- A checked read: its elements with their lanes, and how they form the result. -/
structure Plan where
  els : List (Nat × El)
  vec : Bool
  bytes : Nat
  sx : Bool
  deriving DecidableEq, Repr

/-- The register or registers that a long-latency producer writes (06 R151). -/
inductive Dest where
  | s (r : SReg)
  | pair (r : SReg)
  | v (r : VReg)
  deriving DecidableEq, Repr

/-- What it writes: an s value, a pair (GRAB), or lanes of a v register. -/
inductive Res where
  | s (x : Word)
  | pair (x y : Word)
  | v (mask : BitVec 64) (x : VWord)
  deriving DecidableEq, Repr

/-- A queued array command, with what it captured at issue: its base address, the indices that MMAG popped, the
descriptors (04 R107, 09 R231). -/
structure MCmd where
  id : Nat
  ctx : Nat
  uid : Nat
  instr : Instr
  base : Word
  idx : List (BitVec 32)
  wd5 : Word
  wd6 : Word
  wd7 : Word
  go : Bool                        -- its guard was read true at the head (09 R239)
  started : Bool
  row : Nat                        -- rows of an MMA or MMAG that are multiplied (09 R242)
  flags : BitVec 6
  deriving DecidableEq, Repr

/-- What a producer in flight waits for. -/
inductive Prod where
  | val (r : Res) (flags : BitVec 6)     -- its result is known
  | arrives                              -- a unit will answer
  | sync (words : List Nat) (plan : Plan) -- LDSY, VLDSY: until these scratchpad words are FULL
  -- accesses issued behind a producer that they must follow (05 R118, 08 R206), performed in their turn:
  | read (plan : Plan)
  | put (kind addr : Nat) (els : List El) (v : Nat) (release : Bool)
  | scatter (addrs : List (Nat × Nat)) (els : List (Nat × El)) (v : VWord)
  | request (off : Nat) (op : SeOp) (release : Bool)
  | device (off : Nat) (v : Option Word)
  | clear (words : List Nat)
  | cpyw (all : Bool) (tag : BitVec 8) (upto : Nat)
  | rwdSeq (item : Nat)
  | preempt (gang : Nat)
  | sleeping (stratum : Nat)
  | waking (stratum : Nat) (bw : Word)
  | trhz (sel k : Nat) (clr : Bool)      -- engine commands that a FENCEE holds after their issue (08 R222)
  | bsend (t : ElemT) (slot dest : Word) (index : Nat) (priv : BitVec 2)
  | bqdone (bq : Nat)
  | gset (g : GReg) (v : Bool)
  | gfree (g : GReg)
  | mrel
  | mstat (clr : Bool)
  | mlease
  | gclr (g : GReg)
  | array (m : MCmd)                     -- an array command behind an MLEASE or GCLR that waits so
  -- releases behind a producer (08 R206):
  | bara (tag : Nat)
  | flowsig (job flow ctr : Nat)
  deriving DecidableEq, Repr

/-- A producer in flight: of an access in its turn, the privilege of its context and the ranges of global addresses that each
of its lanes translates, which it walks again when it is performed (18 R383). -/
structure Pending where
  id : Nat
  dest : Dest
  prod : Prod
  priv : Nat := 0
  walks : List (Nat × List (Nat × Nat)) := []
  deriving DecidableEq, Repr

/-- A private store to the overflow, until it is performed (04 R97). -/
structure FwdStore where
  id : Nat
  bytes : List (Nat × Byte)
  deriving DecidableEq, Repr

/-! Contexts -/

/-- A stream register (08 R211). -/
structure Stream where
  base : Word
  idx : Word
  n : BitVec 32
  k : BitVec 2
  cur : Nat
  deriving DecidableEq, Repr

/-- The registers of a context, which run-ahead's checkpoint holds (06 Table 6.7, 18 R389). A FE bit of 1 in sE, vE or
qE is EMPTY. -/
structure Regs where
  pc : Word
  s : Vector Word 64
  sE : BitVec 64
  v : Vector VWord 32
  vE : BitVec 32
  p : Vector (BitVec 64) 8
  q : BitVec 8
  qE : BitVec 8
  x : Vector Stream 4
  f : Vector (List VWord) 4
  fPush : Vector (List VWord) 4      -- pushes that wait while the FIFO is full (09 R253, 16 Table 16.7)
  fstat : BitVec 6
  mldtCur : Nat
  wd5 : Word
  wd6 : Word
  wd7 : Word
  pend : List Pending
  deriving DecidableEq, Repr

/-- Run-ahead after a page fault (18 R388): the checkpoint, the fault's address, the poison marks, the pages found, the
addresses of suppressed stores, the count of instructions. -/
structure RunAhead where
  saved : Regs
  faddr : Word
  poisonS : BitVec 64
  poisonV : BitVec 32
  poisonP : BitVec 8
  poisonQ : BitVec 8
  poisonX : BitVec 4
  own : List Word                  -- pages of the faulting instruction
  pages : List Word                -- pages found beyond them
  stores : List (Nat × Nat)
  count : Nat
  ending : Option Nat              -- the reason why it ends (18 Table 18.6), until RUN_AHEAD_END
  deriving DecidableEq, Repr

/-- A request of the context to a unit, and whether the unit has answered (02 R58). -/
structure Await where
  id : Nat
  done : Bool
  deriving DecidableEq, Repr

/-- A FENCE or an acquire in force (05 R120, R121): accesses of the kinds y of the set wait for the items of kind x
numbered from lo up to upto. -/
structure Hold where
  set : BitVec 4      -- bit 0 rr, 1 rw, 2 wr, 3 ww
  lo : Nat
  upto : Nat
  acquire : Bool      -- an acquire, which engine commands wait for too (05 R123)
  deriving DecidableEq, Repr

/-- W, H and S of a gang and the core id of its origin, as RDSPEC reads them (07 Table 7.4). -/
structure GangShape where
  w : Nat
  h : Nat
  strata : Nat
  origin : Nat
  deriving DecidableEq, Repr

/-- A fetch block as a cache holds it, under the kernel id that it was fetched for (01 R38). -/
structure ICacheBlock where
  kid : BitVec 32
  addr : Word
  data : List Byte
  deriving DecidableEq, Repr

structure Ctx where
  regs : Regs
  uid : Nat                        -- which task of this context this is
  resident : Bool
  frozen : Bool
  freezing : Bool                  -- a PREEMPT is to freeze it (16 R350)
  stopping : Bool                  -- it stands at its boundary: it issues nothing more, and freezes once it is settled
  intrap : Bool
  ppriv : BitVec 2
  priv : BitVec 2
  cause : Word
  epc : Word
  faddr : Word
  tvec : Word
  scratch : Word
  ovp : Word
  prio : BitVec 8
  gen : BitVec 16
  kernel : BitVec 32
  gang : Nat                       -- 0: bound to none
  member : Bool                    -- co-resident class (02 R44)
  flow : Option (Nat × Nat)        -- job and flow that it belongs to (07 R187)
  tx : Nat
  ty : Nat
  shape : Option GangShape         -- extent and origin of the gang it is bound to (07 Table 7.4)
  chan : Option Nat                -- the channel that started it
  landing : Option Nat             -- its landed payload
  fwd : List FwdStore
  passed : Nat                     -- core cycles passed over since its last issue (02 R59)
  aged : Nat                       -- effective priority less priority
  eprio : Nat                      -- effective priority at its latest issue (07 Table 7.4)
  lastIssue : Nat
  yielding : Bool
  await : Option Await
  fences : List Hold
  beatsAfter : Nat                 -- FENCE.STACK ww: beats of the context transmit after its items before this (05 R121)
  engineAfter : List Nat           -- FENCEE: engine commands from each number on wait for the accesses before it (05 R123)
  copyFail : List (Nat × BitVec 8 × BitVec 8)
  lastRwd : BitVec 32
  poolFail : Bool                  -- a noted pool failure (09 R251)
  batch : List Word                -- fault batch registers (18 R390)
  ra : Option RunAhead
  lost : Bool                      -- an uncorrectable error in its registers or FIFOs (16 R352)
  stamps : List Nat                -- at the freeze: the latest reward before each trace command in flight (16 Table 16.8)
  block : Option ICacheBlock       -- a block that came too late for the caches, which only its fetch uses (01 R38)
  areaPushes : Nat                 -- of a saved task: pending pushes that its save area holds (16 R355)
  replay : Option (List MCmd)      -- after CTXLD: client status to regain, commands to replay (16 R353)
  init : Option (Nat × Nat)        -- an RTSET.INIT under way: its descriptor and the next item to write (09 R247)
  deriving DecidableEq, Repr

/-! Core units -/

structure Guard where
  owner : Option Nat
  val : Option Bool                -- none: unresolved
  deriving DecidableEq, Repr

/-- An event record (02 Table 2.1). -/
structure Event where
  chan : BitVec 6
  dest : BitVec 16
  src : BitVec 16
  stc : BitVec 56
  arg0 : Word
  arg1 : Word
  pl : Bool
  und : Bool
  llen : BitVec 14
  loff : BitVec 16
  dloff : BitVec 32
  deriving DecidableEq, Repr

/-- A record on its way, or waiting for room at its core (waiting). sender: who waits for its acceptance. -/
structure Transit where
  id : Nat
  ev : Event
  part : Nat
  payload : List Word
  sender : Option (Nat × Nat)
  waiting : Bool
  home : Bool                      -- an undeliverable record on its way back (02 R50)
  origin : Option (Nat × BitVec 16) -- the context that sent it and its GEN (16 R346)
  deriving DecidableEq, Repr

/-- A channel table entry (02 Table 2.2); PEND is the number of held events of the channel. -/
structure Chan where
  prio : BitVec 8
  valid : Bool
  mask : Bool
  gang : BitVec 16
  lbase : BitVec 16
  lsize : BitVec 16
  sys : Bool
  pc : BitVec 54
  deriving DecidableEq, Repr

/-- A payload in a landing ring (02 R52). -/
structure Landed where
  id : Nat
  off : Nat
  len : Nat
  freed : Bool
  deriving DecidableEq, Repr

structure Ring where
  head : Nat
  live : List Landed
  deriving DecidableEq, Repr

structure HeldEvent where
  ev : Event
  landed : Option Nat
  origin : Option (Nat × BitVec 16)
  deriving DecidableEq, Repr

/-- A queued or running copy (08 R214 to R217). -/
structure Copy where
  id : Nat
  ctx : Nat
  uid : Nat
  tag : BitVec 8
  gen : BitVec 16
  priv : BitVec 2
  stc : Word
  dst : Word
  src : Word
  dx : Bool
  sx : Bool
  rows : Nat
  len : Nat
  ds : Nat
  ss : Nat
  wd5 : Word
  wd6 : Word
  wd7 : Word
  flag : Option (Word × Word × Bool)   -- address, value, scope SYSTEM
  next : Nat                       -- units moved
  buf : List (Nat × Place × Byte × Byte) -- of words that later units complete: unit, place, bits written, value (04 R110)
  flags : BitVec 6
  status : Option (BitVec 8 × Word)
  flagId : Option Nat              -- the flag's store, once it is on its way (08 R217)
  deriving DecidableEq, Repr

/-- Formats of an array operand (09 Table 9.2), with the group size of the quantised ones. -/
inductive MFmt where
  | int8 | int4 | f16 | bf16 | e4m3 | e5m2
  | int8a (g : Nat)
  | int4a (g : Nat)
  deriving DecidableEq, Repr

/-- A tile of 64 lines of 64 bytes with 4 group records a line (15 R333): the stationary register and the A latch. -/
structure MTile where
  fmt : MFmt
  lines : Map (BitVec 512)
  records : Map (BitVec 128)
  deriving DecidableEq, Repr

/-- A byte in the bucket cache of a retrieval unit (05 R130): dirty when its home does not hold it yet; va is the global
address that it was reached by, under which a write-back translates it (18 R426). -/
structure RuLine where
  place : Place
  va : Word
  byte : Byte
  dirty : Bool
  deriving DecidableEq, Repr

/-- A bucket operation that a retrieval command has still to make (09 R244, R250, R254). -/
inductive RWork where
  | insert (t b : Nat) (r : Nat)
  | remove (t b : Nat) (r : Nat)
  | removeHome (t : Nat) (r : Nat)       -- from the bucket that its home names when the operation is made
  | unhash (r : Nat)
  deriving DecidableEq, Repr

inductive ROp where
  | rhv (f : Nat) (input : Word)
  | probe (pid : Nat) (input : Word) (h m : Nat) (spill : Option Nat)
  | del (row : Nat)
  | hash (first count : Nat)             -- rows not begun yet
  | hashList (rows : List (BitVec 32))
  | dirty (f : Nat)
  | fence (scope : Scope) (await : Nat) (left : List Nat) (upto : Nat) -- units left to acknowledge, packets before upto
  | stat (pid : Nat) (sel : Nat) (clr : Bool)
  deriving DecidableEq, Repr

/-- A queued retrieval command, with what it captured at issue, the operations it has begun and not made, and the FIFO
entries that wait for room. -/
structure RCmd where
  id : Nat
  ctx : Nat
  uid : Nat
  gen : BitVec 16
  hf : Nat
  priv : BitVec 2
  wd5 : Word
  wd6 : Word
  wd7 : Word
  op : ROp
  begun : Bool
  work : List RWork
  out : List (Nat × VWord)
  failed : Bool                    -- the command's first pool failure has been noted
  deriving DecidableEq, Repr

/-- A plastic region (10 Table 10.1) and its step counter. -/
structure Region where
  cols : Nat
  rows : Nat
  base : Nat
  hen : Bool
  hf : Nat
  group : Nat
  slot : Nat
  thr : BitVec 16
  eta : BitVec 32
  n : BitVec 24
  deriving DecidableEq, Repr

/-- A fading-rate slot: λ and its power table (03 R87). -/
structure RateSlot where
  lam : BitVec 32
  tab : List (BitVec 32)
  deriving DecidableEq, Repr

inductive TOp where
  | step (n : Nat)
  | adv (n row0 col0 : Nat) (pre post : List (BitVec 32))
  | read (n row col nc : Nat) (d : VReg) (await : Nat)
  | clrE (n row0 nr : Nat)
  | clrD (n row0 nr : Nat)
  | stamp (pid : Nat) (regions : List Nat) -- where a window-7 load that is not performed yet stands (10 R271)
  deriving DecidableEq, Repr

/-- The list of a trace unit in the order of 10 R271: commands as they issue, rewards as they arrive. -/
inductive TItem where
  | cmd (id ctx uid : Nat) (op : TOp)
  | reward (seq : BitVec 32) (mask : BitVec 16) (c : Bool) (rho : BitVec 32)
      (hBefore : List (BitVec 32))       -- H of each group before it
      (regions : List Nat)               -- the regions it covers (10 R272)
      (steps : List (Nat × BitVec 24))   -- the steps of those regions whose every earlier operation is applied
      (swept : List (Nat × Nat))         -- rows already swept
  deriving DecidableEq, Repr

structure TlbEntry where
  part : Nat
  vpn : Nat
  size : Nat                       -- log2 of the page size
  entry : Word
  deriving DecidableEq, Repr

/-- A row's report on its way to a dirty bitmap at a peer (10 R275): the number of the packet that carries the OR, the reward's
number, the bitmap word; whether RPT is still to be set; the word's place in a scratchpad whose stratum's clock has stopped, which
holds the OR (01 R26). -/
structure RowReport where
  region : Nat
  row : Nat
  packet : Nat
  seq : BitVec 32
  addr : Nat
  sets : Bool
  place : Option (Nat × Nat)
  deriving DecidableEq, Repr

structure Core where
  pword : Word
  ownTag : BitVec 16
  otStc : Word
  ownWritten : Bool
  elBase : Word
  elSize : Word
  elHead : Word
  elTail : Word
  elLost : Word
  elNote : Word
  pool : List Host.Cell
  spE : List Nat                    -- EMPTY scratchpad words, ascending
  acc : Map (BitVec 32)
  guards : Vector Guard 8
  chans : Map Chan
  chset : Map (Option Chan)        -- the entry that a waiting CHSET will write (16 R349)
  rings : Map Ring
  events : List HeldEvent
  copies : List Copy
  client : Option Nat
  mq : List MCmd
  stat : MTile
  disc : BitVec 16
  zrow : BitVec 16
  refused : BitVec 8
  iovf : Bool
  rq : List RCmd
  slots : Map RateSlot
  regions : Map (Option Region)
  tl : List TItem
  tflags : BitVec 6
  stale : BitVec 16
  overrun : BitVec 16
  utlb : List TlbEntry
  icache : List ICacheBlock
  wfi : BitVec 8                   -- contexts whose WFI an arrival has ended
  ctxs : Map Ctx
  parked : Map Ctx                 -- saved contexts by task number: what their save areas do not hold (16 R351)
  ended : Map Ctx                  -- tasks that have executed DONE, by 8 × task number + context: what completes after it (07 R168)
  reports : List RowReport         -- reports on their way to a bitmap, until the OR is performed (10 R275, 13 R324)
  deriving DecidableEq, Repr

/-! Clusters, strata, layers -/

structure RDesc where
  block : BitVec 1024
  core : Nat
  priv : BitVec 2
  wd5 : Word
  wd6 : Word
  wd7 : Word
  drops : Nat
  evicts : Nat
  chains : Nat
  pfail : Nat
  rejects : Nat
  deriving DecidableEq, Repr

structure Run where
  pos : Nat
  count : Nat
  idle : Nat                       -- core cycles since when no command of the holder was able to start
  deriving DecidableEq, Repr

structure Cluster where
  lrun : BitVec 7
  run : Option Run
  last : Nat
  latch : MTile
  needLatch : Bool                 -- the array awaits a latch, a stationary tile (09 R233)
  needTile : Bool
  rotFor : Option (Nat × Nat)      -- the context and task of the position-0 core whose MROT awaits them (09 R225)
  linkLatch : List (Nat × MTile)   -- what has arrived on the links, each with the GEN of its gang
  linkTile : List (Nat × MTile)
  tlb : List TlbEntry
  descs : Map (Option RDesc)
  ruTurn : Nat
  ruCache : List RuLine
  deriving DecidableEq, Repr

structure RangeEnt where
  start : Word
  rem : Word
  c : BitVec 32
  d : BitVec 32
  deriving DecidableEq, Repr

inductive RangeReq where
  | grab (core ctx pid : Nat) (range : Nat)
  | set (range : Nat) (e : RangeEnt)
  deriving DecidableEq, Repr

/-- A power step under way (20 R416). -/
inductive PowerPhase where
  | rampUp (target : BitVec 3)     -- voltage first, toward a lower-numbered point
  | switchUp (target : BitVec 3)
  | switchDown (target : BitVec 3) -- frequency first, toward a higher-numbered point
  | rampDown (target : BitVec 3)
  deriving DecidableEq, Repr

structure Power where
  halt : Bool
  hot : Bool
  status : BitVec 4
  cur : BitVec 3
  volt : BitVec 3                  -- the point whose voltage stands: after a ramp, that of its target
  req : BitVec 3
  phase : Option PowerPhase
  newReq : Bool                    -- a REQ written during a step
  heat : Bool                      -- HOT has changed during a step
  stallRatio : BitVec 16
  stallCount : BitVec 32
  idle : Nat                       -- core cycles of this window in which a core with a resident context issued nothing
  cycles : Nat                     -- core cycles of this window
  deriving DecidableEq, Repr

/-- A block that a fetch agent fetches once for every core that has missed on it under a kernel id (01 R38): stale after a
TLBI.KID of that id, when it enters no cache. -/
structure FillReq where
  kid : BitVec 32
  addr : Word
  pa : Nat
  cores : List Nat
  stale : Bool
  deriving DecidableEq, Repr

structure Stratum where
  awake : Bool
  sleepReq : Bool                  -- a SLEEPS the launch unit has received
  ranges : Map RangeEnt
  rangeQ : List RangeReq
  tlb : List TlbEntry
  fetches : List FillReq           -- of the fetch agent
  tagOwner : Map Nat               -- gang bound to each route tag (tag, with its partition's gang id)
  power : Power
  deriving DecidableEq, Repr

/-- A record of a STORE beat (10 Table 10.8). -/
structure SRec where
  off : Nat
  mask : BitVec 8
  data : Word
  deriving DecidableEq, Repr

structure BarRec where
  gang : BitVec 16
  tag : BitVec 3
  comp : BitVec 32
  deriving DecidableEq, Repr

/-- What waits in a layer's queues (10 R281). -/
inductive BeatItem where
  | store (recs : List SRec)
  | block (core : Nat) (src : Nat) (dst : Nat) (len : Nat)   -- an STSB, its source read at transmission
  | reward (mask : BitVec 16) (c : Bool) (rho : BitVec 32)
  | barrier (r : BarRec)
  deriving DecidableEq, Repr

structure QItem where
  id : Nat
  part : Nat
  core : Nat
  ctx : Nat
  uid : Nat
  after : Nat                      -- items of its context before this number transmit first (05 R121); 0: none
  item : BeatItem
  deriving DecidableEq, Repr

/-- A beat on its way (01 R30). -/
inductive Payload where
  | store (recs : List SRec)
  | reward (seq : BitVec 32) (src : BitVec 16) (mask : BitVec 16) (c : Bool) (rho : BitVec 32)
  | barrier (recs : List BarRec)
  deriving DecidableEq, Repr

structure Air where
  beat : Word                      -- the beat at which it is applied
  layer : Nat
  part : Nat
  pay : Payload
  owners : List (Nat × Nat × Nat × Nat) -- core, ctx, uid and number of the items that it carries
  deriving DecidableEq, Repr

structure Wake where
  bw : Word
  marks : List Nat                 -- mirror bytes written since B_w
  deriving DecidableEq, Repr

structure Layer where
  mirror : List Host.Cell
  stale : Bool
  stopped : Bool                   -- an uncorrectable beat stopped it (10 R284)
  queue : List QItem
  h : Map (BitVec 32)              -- H_g, the same in every core of the layer
  c : Map (BitVec 32)              -- C_g
  lastSeq : BitVec 32              -- the latest reward that arrived
  wake : Option Wake
  deriving DecidableEq, Repr

/-! Partitions and the launch unit -/

structure LQueue where
  base : Word
  ctl : Word
  tail : Word
  head : Word
  deriving DecidableEq, Repr

structure Member where
  core : Nat
  ctx : Nat
  tx : Nat
  ty : Nat
  done : Bool
  lost : Bool
  saved : Bool                     -- its state is in a save area
  arr : Map Nat                    -- ARR by tag
  deriving DecidableEq, Repr

structure Gang where
  id : Nat
  gen : BitVec 16
  job : Nat
  flow : Nat
  index : Nat
  desc : BitVec 512
  prio : BitVec 8
  x0 : Nat
  y0 : Nat
  z0 : Nat
  members : List Member
  comp : Map Nat                   -- COMP by tag + 8 × stratum
  signals : List (Nat × Nat)       -- (tag, stratum) that have signalled the running phase
  deriving DecidableEq, Repr

inductive GangStatus where
  | waiting
  | eligible (since : Word) (aged : Nat)
  | placed
  | completed
  | reported
  deriving DecidableEq, Repr

structure JobGang where
  addr : Word                      -- where its descriptor lies
  desc : BitVec 512
  status : GangStatus
  deriving DecidableEq, Repr

structure JobFlow where
  ctrs : List (BitVec 16)
  gangs : List JobGang
  underflow : Bool
  deriving DecidableEq, Repr

structure Job where
  id : Nat
  jobid : BitVec 32
  prio : BitVec 8
  queue : Nat
  entry : Word
  flows : List JobFlow
  killed : Bool
  deriving DecidableEq, Repr

/-- A decrement message (17 R367); src 65535 is the launch unit. -/
structure DecMsg where
  src : Nat
  stc : Word
  job : Nat
  flow : Nat
  mask : BitVec 64
  deriving DecidableEq, Repr

structure RewardLog where
  seq : BitVec 32
  mask : BitVec 16
  c : Bool
  rho : BitVec 32
  deriving DecidableEq, Repr

structure Partition where
  ptbase : Word
  satb : BitVec 17
  sysCore : BitVec 16
  pcfg : Word
  sync : List Host.Cell
  queues : Map LQueue
  ev : LQueue
  evWait : Option Nat              -- the forwarded host event not yet accepted (17 R375)
  ovbase : Word
  ovstride : Word
  tvbase : Word
  visit : Nat                      -- queue that admission visits next
  jobs : List Job
  gangs : List Gang
  reserving : Option (Nat × Nat × Nat × Nat × Nat × Nat)  -- job, flow, index, x0, y0, z0 (17 R371)
  placed : Nat                     -- gangs placed so far
  decs : List DecMsg
  ft : LQueue                      -- frame ring: base, ctl, tail, head
  ftSpare : Word
  ftClaims : Word
  ftLost : Word
  rewards : BitVec 32              -- REWARD beats so far
  log : List RewardLog             -- the last 1,024
  groupCount : Map (BitVec 32)
  deriving DecidableEq, Repr

/-! Synchronisation engines, links, memory controllers, host -/

structure SeReq where
  id : Nat
  part : Nat
  core : Nat
  ctx : Nat
  uid : Nat
  pid : Option Nat                 -- the producer that its answer completes
  off : Nat
  op : SeOp
  deriving DecidableEq, Repr

/-- A posted store to a scratchpad of another core, or of the own core through the remote aperture (04 R102). -/
structure Posted where
  id : Nat
  core : Nat
  ctx : Nat
  uid : Nat
  target : Nat
  addr : Word
  tag : BitVec 16                  -- GEN of the issuer
  bytes : List (Nat × Byte)
  deriving DecidableEq, Repr

structure Port where
  up : Bool
  training : Bool
  lanes : BitVec 8
  downs : BitVec 16
  replays : BitVec 32
  failRun : Nat                    -- consecutive failed replays
  deriving DecidableEq, Repr

/-- A numbered packet that is not acknowledged, with its issuer; id: the number of the store or of the copy that it
belongs to. -/
structure OutPacket where
  p : Packet
  part : Nat
  core : Nat
  ctx : Nat
  uid : Nat
  gen : BitVec 16
  id : Nat
  copy : Bool
  deriving DecidableEq, Repr

/-- A record of the system event log (16 Table 16.5). -/
structure LogRec where
  extra : Nat
  addr : Nat
  done : Nat
  gen : Nat
  tag : Nat
  status : Nat
  kind : Nat
  ctx : Nat
  src : Nat
  deriving DecidableEq, Repr

/-- An entry for a log in memory, with the time of its event: of a core's log, or of a log of an HBM stack (16 R345, 20 R419). -/
inductive LogEntry where
  | core (c : Nat) (stc : Word) (r : LogRec)
  | stack (k kind retry lane off : Nat) (stc : Word)
  deriving DecidableEq, Repr

/-- Who waits for what it reads from a peer: a step of a unit, the instruction at the pc of a context's task, or the writer of
a log: that of a core under its number, those of stack k for transfers and for the array under 0x10000 + 2k and one more. -/
inductive FarReader where
  | step (x : Step)
  | instr (core ctx uid : Nat)
  | log (key : Nat)
  deriving DecidableEq, Repr

/-- A read of a peer's memory whose response has not arrived (18 R381, 20 R409): the sequence number of its packet, the
first byte and how many. -/
structure PeerRead where
  seq : BitVec 48
  part : Nat
  reader : FarReader
  pa : Nat
  n : Nat
  deriving DecidableEq, Repr

/-- The ordered pair to and from one peer module (20 R410). -/
structure Peer where
  nextSend : BitVec 48
  unacked : List OutPacket
  expect : BitVec 48
  held : List Packet
  replies : List (Packet × List Byte) -- read responses with the bytes read, and acknowledgements sent (20 R409)
  failed : List Nat                -- partitions whose route to it has not come up in time (20 R412)
  resync : Bool                    -- the next numbered packet is the one expected (20 R412)
  reads : List PeerRead
  deriving DecidableEq, Repr

structure BlockQueue where
  lb : Word
  isOpen : Bool
  part : BitVec 3
  nb : BitVec 16
  ready : List (BitVec 32)
  deriving DecidableEq, Repr

structure HbmStack where
  ael : LQueue
  tel : LQueue
  lostA : BitVec 32
  lostT : BitVec 32
  spares : Map (BitVec 4)
  deadChans : List Nat
  soft : List Nat                  -- soft repairs: a unit of each row repaired since the record was last written (20 R417)
  stray : List (Nat × Word)        -- rows back on their original cells, with the boot that did it (20 R423)
  rewritten : List Nat             -- units of those rows that have been written whole since
  fixes : List (Nat × Word)        -- corrected units and when, newest first (20 R417)
  swapped : List (Nat × Nat)       -- lane swaps since the record
  deriving DecidableEq, Repr

/-- A byte that a retrieval unit has written home: what stood there before it, which other units still see until an RFENCE
reaches them (05 R130); stratum: every unit of its stratum sees it; seen: the units that do beside them. -/
structure HomeWrite where
  place : Place
  unit : Nat
  id : Nat
  old : Byte
  stratum : Bool
  seen : List Nat
  deriving DecidableEq, Repr

/-- What the host last received: a register value, Unsupported Request, or data with a poison mark. -/
inductive HostReply where
  | none
  | value (v : Word)
  | unsupported
  | data (bytes : List Byte) (poison : Bool)
  deriving DecidableEq, Repr

structure SlotWrite where
  slot : Nat
  entry : BitVec 16
  due : Word
  core : Nat
  ctx : Nat
  await : Nat
  deriving DecidableEq, Repr

/-- Fused values that the boot ROM checks an image against (20 R420). -/
structure Fuses where
  keyDigest : BitVec 512
  minVersion : Word
  deriving DecidableEq, Repr

structure Boot where
  entries : Map (BitVec 8)
  count : Word
  halted : Bool
  lastStep : Nat                   -- boot steps completed in this boot (0 to 13)
  image : Option Image             -- the firmware image that this boot has verified (20 R420, R424)
  deriving DecidableEq, Repr

structure Attest where
  nonce : List Word
  buf : Word
  stat : Word
  busy : Bool
  sent : Option (Nat × Nat)        -- the packets that carry the report to a peer's memory: their numbers, from and up to
  deriving DecidableEq, Repr

structure State where
  cur : Nat × Nat
  issuing : Bool
  waited : Bool
  arg : StepArg                    -- the operands of the step under way
  agenda : List Step
  timers : List (Word × Step)
  visit : Nat
  choice : Nat
  serial : Nat
  stc : Word
  cores : Map Core
  clusters : Map Cluster
  strata : Map Stratum
  layers : Map Layer
  parts : Map Partition
  hbm : List Host.Cell
  poison : List Nat
  badReads : List Nat               -- units whose uncorrectable reads are to be logged (20 R417)
  fixReads : List Nat               -- units on original cells whose reads are to be corrected (20 R423)
  touched : List (Nat × Nat)        -- partition and byte of peer memory that the step under way has read (18 R381)
  brought : List (FarReader × Nat × Option Byte) -- bytes of peer memory that responses have brought, for whom; none: it failed
  broken : List Nat                 -- the bytes of those whose read has failed, for the step under way
  stalled : List Step               -- steps of units that wait for such bytes
  logs : List LogEntry              -- entries of logs that wait for such bytes, in their order
  unseen : List HomeWrite           -- writes of retrieval units that other units do not see yet, in their order
  slots : Map (BitVec 16)
  slotWrites : List SlotWrite
  air : List Air
  net : List Transit
  posted : List Posted
  engines : Map (List SeReq)
  ports : Map Port
  peers : Map Peer
  routes : Map (BitVec 8)
  bqs : Map BlockQueue
  hbms : Map HbmStack
  persistent : List (Nat × Nat)     -- lane swaps in the repair record: stack and channel (20 R423)
  rowRecord : List (Nat × Nat)      -- row repairs in the repair record: stack and a unit of the row
  fuses : Fuses
  modid : BitVec 7
  herr : Word
  boot : Boot
  attest : Attest
  msix : List (Nat × Nat)
  reply : HostReply
  deriving DecidableEq, Repr

/-! Reset: what an unlisted unit holds -/

def VWord.zero : VWord := Vector.replicate 64 0

def Stream.idle : Stream := { base := 0, idx := 0, n := 0, k := 0, cur := 0 }

/-- The registers of a context before its first start: every value 0 and FULL, p0 and q0 true (06 R149; DESIGN CHOICE, log 2). -/
def Regs.reset : Regs where
  pc := 0
  s := Vector.replicate 64 0
  sE := 0
  v := Vector.replicate 32 VWord.zero
  vE := 0
  p := Vector.replicate 8 0
  q := 1
  qE := 0
  x := Vector.replicate 4 Stream.idle
  f := Vector.replicate 4 []
  fPush := Vector.replicate 4 []
  fstat := 0
  mldtCur := 0
  wd5 := 0
  wd6 := 0
  wd7 := 0
  pend := []

def Ctx.reset : Ctx where
  regs := Regs.reset
  uid := 0
  resident := false
  frozen := false
  freezing := false
  stopping := false
  intrap := false
  ppriv := 0
  priv := 0
  cause := 0
  epc := 0
  faddr := 0
  tvec := 0
  scratch := 0
  ovp := 0
  prio := 0
  gen := 0
  kernel := 0
  gang := 0
  member := false
  flow := none
  tx := 0
  ty := 0
  shape := none
  chan := none
  landing := none
  fwd := []
  passed := 0
  aged := 0
  eprio := 0
  lastIssue := 0
  yielding := false
  await := none
  fences := []
  beatsAfter := 0
  engineAfter := []
  copyFail := []
  lastRwd := 0
  poolFail := false
  batch := []
  ra := none
  lost := false
  stamps := []
  block := none
  areaPushes := 0
  replay := none
  init := none

def Guard.reset : Guard := { owner := none, val := none }

def Chan.reset : Chan :=
  { prio := 0, valid := false, mask := false, gang := 0, lbase := 0, lsize := 0, sys := false, pc := 0 }

def Ring.reset : Ring := { head := 0, live := [] }

/-- The stationary register and the A latch after cold reset: zeros of format INT8 (09 R224). -/
def MTile.reset : MTile := { fmt := .int8, lines := [], records := [] }

/-- A rate slot after cold reset: λ = +0 (10 R261), whose power table is all +0. -/
def RateSlot.reset : RateSlot := { lam := 0, tab := List.replicate 24 0 }

/-- A core after cold reset. PWORD has CTX 1, ACC 0, SPILL 0 (01 Table 1.3). -/
def Core.reset : Core where
  pword := 1
  ownTag := 0
  otStc := 0
  ownWritten := false
  elBase := 0
  elSize := 0
  elHead := 0
  elTail := 0
  elLost := 0
  elNote := 0
  pool := []
  spE := []
  acc := []
  guards := Vector.replicate 8 Guard.reset
  chans := []
  chset := []
  rings := []
  events := []
  copies := []
  client := none
  mq := []
  stat := MTile.reset
  disc := 0
  zrow := 0
  refused := 0
  iovf := false
  rq := []
  slots := []
  regions := []
  tl := []
  tflags := 0
  stale := 0
  overrun := 0
  utlb := []
  icache := []
  wfi := 0
  ctxs := []
  parked := []
  ended := []
  reports := []

/-- A cluster after cold reset: LRUN 16 (16 Table 16.2). -/
def Cluster.reset : Cluster where
  lrun := 16
  run := none
  last := 3
  latch := MTile.reset
  needLatch := false
  needTile := false
  rotFor := none
  linkLatch := []
  linkTile := []
  tlb := []
  descs := []
  ruTurn := 0
  ruCache := []

/-- A range after reset (02 R61). -/
def RangeEnt.reset : RangeEnt := { start := 0, rem := 0, c := 1, d := 1 }

def Power.reset : Power where
  halt := false
  hot := false
  status := 0
  volt := 0
  cur := 0
  req := 0
  phase := none
  newReq := false
  heat := false
  stallRatio := 0
  stallCount := 0
  idle := 0
  cycles := 0

/-- A stratum after cold reset: asleep until it is brought up (20 R407, R421). -/
def Stratum.reset : Stratum where
  awake := false
  sleepReq := false
  ranges := []
  rangeQ := []
  tlb := []
  fetches := []
  tagOwner := []
  power := Power.reset

def Layer.reset : Layer where
  mirror := []
  stale := false
  stopped := false
  queue := []
  h := []
  c := []
  lastSeq := 0
  wake := none

def LQueue.reset : LQueue := { base := 0, ctl := 0, tail := 0, head := 0 }

def Partition.reset : Partition where
  ptbase := 0
  satb := 0
  sysCore := 0
  pcfg := 0
  sync := []
  queues := []
  ev := LQueue.reset
  evWait := none
  ovbase := 0
  ovstride := 0
  tvbase := 0
  visit := 0
  jobs := []
  gangs := []
  reserving := none
  placed := 0
  decs := []
  ft := LQueue.reset
  ftSpare := 0
  ftClaims := 0
  ftLost := 0
  rewards := 0
  log := []
  groupCount := []

def Port.reset : Port := { up := false, training := false, lanes := 0, downs := 0, replays := 0, failRun := 0 }

/-- A pair of modules after reset: nothing sent; the first packet carries sequence number 0 (DESIGN CHOICE, log 12). -/
def Peer.reset : Peer where
  nextSend := 0
  unacked := []
  expect := 0
  held := []
  replies := []
  failed := []
  resync := false
  reads := []

def BlockQueue.reset : BlockQueue := { lb := 0, isOpen := false, part := 0, nb := 0, ready := [] }

def HbmStack.reset : HbmStack where
  ael := LQueue.reset
  tel := LQueue.reset
  lostA := 0
  lostT := 0
  spares := []
  deadChans := []
  soft := []
  stray := []
  rewritten := []
  fixes := []
  swapped := []

/-- A slot after reset: OWNER 31, no class (16 Table 16.11). -/
def slotReset : BitVec 16 := 31

/-- The module right after power-on, before the boot steps, which the agenda runs first (20 R421; DESIGN CHOICE, log 5). -/
def State.reset : State where
  cur := (0, 0)
  issuing := false
  waited := false
  arg := StepArg.none
  agenda := [{ op := .coldReset, arg := { StepArg.none with x := 0x1FFF } }]
  timers := []
  visit := 0
  choice := 0
  serial := 1
  stc := 0
  cores := []
  clusters := []
  strata := []
  layers := []
  parts := []
  hbm := []
  poison := []
  badReads := []
  fixReads := []
  touched := []
  brought := []
  broken := []
  stalled := []
  logs := []
  unseen := []
  slots := []
  slotWrites := []
  air := []
  net := []
  posted := []
  engines := []
  ports := []
  peers := []
  routes := []
  bqs := []
  hbms := []
  persistent := []
  rowRecord := []
  fuses := { keyDigest := 0, minVersion := 0 }
  modid := 0
  herr := 0
  boot := { entries := [], count := 0, halted := false, lastStep := 0, image := none }
  attest := { nonce := [0, 0, 0, 0], buf := 0, stat := 0, busy := false, sent := none }
  msix := []
  reply := .none

end Sys2Proof.Machine
end

