-- ==== Sys2Proof/Machine/Access.lean ====
section
/-! DEFINITION. Access to the units of the module: cores, contexts, partitions, layers and the rest, the layout of core
ids and pools, and the bytes behind a place. -/

namespace Sys2Proof.Machine

abbrev Out := Host.Outcome State Fault Refusal

/-! Units -/

def getCore (s : State) (c : Nat) : Core := mget s.cores c Core.reset
def setCore (s : State) (c : Nat) (k : Core) : State := { s with cores := mset s.cores c k }
def modCore (s : State) (c : Nat) (f : Core → Core) : State := setCore s c (f (getCore s c))

def ctxOf (k : Core) (n : Nat) : Ctx := mget k.ctxs n Ctx.reset
def getCtx (s : State) (c n : Nat) : Ctx := ctxOf (getCore s c) n
def modCtx (s : State) (c n : Nat) (f : Ctx → Ctx) : State :=
  modCore s c fun k => { k with ctxs := mset k.ctxs n (f (ctxOf k n)) }

/-- The core, the context number and the context that a step acts for. -/
def myId (s : State) : Nat := s.cur.1
def myN (s : State) : Nat := s.cur.2
def myCore (s : State) : Core := getCore s (myId s)
def me (s : State) : Ctx := getCtx s (myId s) (myN s)
def modMe (s : State) (f : Ctx → Ctx) : State := modCtx s (myId s) (myN s) f
def modMyCore (s : State) (f : Core → Core) : State := modCore s (myId s) f
def modRegs (s : State) (f : Regs → Regs) : State := modMe s fun c => { c with regs := f c.regs }

def getPart (s : State) (p : Nat) : Partition := mget s.parts p Partition.reset
def modPart (s : State) (p : Nat) (f : Partition → Partition) : State :=
  { s with parts := mset s.parts p (f (getPart s p)) }
def getLayer (s : State) (l : Nat) : Layer := mget s.layers l Layer.reset
def modLayer (s : State) (l : Nat) (f : Layer → Layer) : State :=
  { s with layers := mset s.layers l (f (getLayer s l)) }
def getStratum (s : State) (l : Nat) : Stratum := mget s.strata l Stratum.reset
def modStratum (s : State) (l : Nat) (f : Stratum → Stratum) : State :=
  { s with strata := mset s.strata l (f (getStratum s l)) }
def getCluster (s : State) (k : Nat) : Cluster := mget s.clusters k Cluster.reset
def modCluster (s : State) (k : Nat) (f : Cluster → Cluster) : State :=
  { s with clusters := mset s.clusters k (f (getCluster s k)) }
def getPort (s : State) (n : Nat) : Port := mget s.ports n Port.reset
def modPort (s : State) (n : Nat) (f : Port → Port) : State := { s with ports := mset s.ports n (f (getPort s n)) }
def getPeer (s : State) (m : Nat) : Peer := mget s.peers m Peer.reset
def modPeer (s : State) (m : Nat) (f : Peer → Peer) : State := { s with peers := mset s.peers m (f (getPeer s m)) }
def getBq (s : State) (n : Nat) : BlockQueue := mget s.bqs n BlockQueue.reset
def modBq (s : State) (n : Nat) (f : BlockQueue → BlockQueue) : State := { s with bqs := mset s.bqs n (f (getBq s n)) }
def getHbm (s : State) (k : Nat) : HbmStack := mget s.hbms k HbmStack.reset
def modHbm (s : State) (k : Nat) (f : HbmStack → HbmStack) : State := { s with hbms := mset s.hbms k (f (getHbm s k)) }
def getSlot (s : State) (n : Nat) : BitVec 16 := mget s.slots n slotReset

/-- A number that no other item has carried. -/
def fresh (s : State) : Nat × State := (s.serial, { s with serial := s.serial + 1 })

/-! The layout of core ids (01 R20, R21) -/

def isGw (c : Nat) : Bool := decide (0x4000 ≤ c)
def validCore (c : Nat) : Bool := decide (c < 0x4000) || (decide (0x4000 ≤ c) && decide (c < 0x4030))
def stratumOf (c : Nat) : Nat := c / 1024
def coreY (c : Nat) : Nat := c / 32 % 32
def coreX (c : Nat) : Nat := c % 32
def coreAt (z y x : Nat) : Nat := z * 1024 + y * 32 + x
def layerOf (c : Nat) : Nat := if isGw c then 16 else stratumOf c

/-- The cluster of a stratum core; a gateway core is a cluster of its own (05 Table 5.1). -/
def clusterOf (c : Nat) : Nat := if isGw c then c else stratumOf c * 256 + coreY c / 2 * 16 + coreX c / 2
def posOf (c : Nat) : Nat := coreX c % 2 + 2 * (coreY c % 2)

/-- The core at a position of a cluster. -/
def clusterCore (k pos : Nat) : Nat :=
  if 0x4000 ≤ k then k else coreAt (k / 256) (2 * (k / 16 % 16) + pos / 2) (2 * (k % 16) + pos % 2)
def clusterCores (k : Nat) : List Nat := if 0x4000 ≤ k then [k] else (List.range 4).map (clusterCore k)

/-! Clocks of the strata -/

def powerOf (s : State) (z : Nat) : Power := (getStratum s z).power

/-- Whether the frequency of the stratum of a core switches (20 R416). -/
def clockSwitches (s : State) (c : Nat) : Bool :=
  !isGw c && (match (powerOf s (stratumOf c)).phase with
    | some (.switchUp _) => true
    | some (.switchDown _) => true
    | _ => false)

/-- Whether the stratum's arithmetic clock stands still: a frequency switch, or the thermal guard (01 R26, 20 R416) (in part
DEDUCED, log 34). -/
def clockStopped (s : State) (c : Nat) : Bool :=
  clockSwitches s c || (!isGw c && (powerOf s (stratumOf c)).halt)

/-- Whether the clock of a core in another stratum than core c stands still: the FIFOs at its boundary hold what is on its way
there (01 R26). -/
def awayStopped (s : State) (c t : Nat) : Bool := layerOf t != layerOf c && clockStopped s t

/-- The same of places that core c, or a unit beside it, reads or writes. -/
def placesStopped (s : State) (c : Nat) (ps : List Place) : Bool := ps.any fun p => match p with
  | .pool t _ => awayStopped s c t
  | _ => false

/-! Partitions (20 Table 20.2, 01 R25) -/

def pcfgEn (w : Word) : Bool := w.getLsbD 63
def pcfgStrata (w : Word) : Nat := bitsOf w.toNat 15 0
def pcfgHbm (w : Word) : Nat := bitsOf w.toNat 35 24
def pcfgPorts (w : Word) : Nat := bitsOf w.toNat 47 36

def ownsLayer (s : State) (p z : Nat) : Bool :=
  let w := (getPart s p).pcfg
  pcfgEn w && bitOf (pcfgStrata w) z
def ownsPort (s : State) (p n : Nat) : Bool :=
  let w := (getPart s p).pcfg
  pcfgEn w && bitOf (pcfgPorts w) n
def ownsHbm (s : State) (p k : Nat) : Bool :=
  let w := (getPart s p).pcfg
  pcfgEn w && bitOf (pcfgHbm w) k

/-- The partition of a core (16 R343); a core that no partition owns reads 0 (DESIGN CHOICE, log 2). -/
def partOf (s : State) (c : Nat) : Nat :=
  ((List.range 8).find? fun p => if isGw c then ownsPort s p ((c - 0x4000) / 4) else ownsLayer s p (stratumOf c)).getD 0

def stratumPart (s : State) (z : Nat) : Option Nat := (List.range 8).find? fun p => ownsLayer s p z

/-- The strata of a partition, ascending, and its home set (01 R25). -/
def partStrata (s : State) (p : Nat) : List Nat := (List.range 16).filter (ownsLayer s p)
def homeSet (s : State) (p : Nat) : List Nat := partStrata s p ++ [16]

/-- The synchronisation engine of a sync-space offset (01 R25). -/
def homeEngine (s : State) (p off : Nat) : Nat :=
  let hs := homeSet s p
  hs.getD (off / 64 % 64 % hs.length) 16

/-- The cores of a partition: its strata and the gateway cores of its ports. -/
def inPart (s : State) (p c : Nat) : Bool :=
  validCore c && (if isGw c then ownsPort s p ((c - 0x4000) / 4) else ownsLayer s p (stratumOf c))

/-- The layer of a core: its stratum, or the base die, whose mirror copy, queues and rewards are kept apart for each
partition, under numbers from 16 on (20 R407). -/
def layerIn (s : State) (c : Nat) : Nat := if isGw c then 16 + partOf s c else stratumOf c

/-! The pool (01 Table 1.3, R33, 04 R96) -/

def pwCtx (w : Word) : Nat := bitsOf w.toNat 3 0
def pwAcc (w : Word) : Nat := bitsOf w.toNat 8 4
def pwSpill (w : Word) : Nat := bitsOf w.toNat 14 9

/-- R34. -/
def pwordOk (w : Nat) : Bool :=
  let c := bitsOf w 3 0
  let a := bitsOf w 8 4
  decide (1 ≤ c) && decide (c ≤ 8) && decide (a ≤ 16) && decide (c * 9 + a * 16 + bitsOf w 14 9 * 4 ≤ 496)

/-- Scratchpad size in bytes. -/
def spSize (w : Word) : Nat := 524288 - 9216 * pwCtx w - 16384 * pwAcc w - 4096 * pwSpill w
def coreSp (s : State) (c : Nat) : Nat := spSize (getCore s c).pword

/-- A context's share of the carve-out (04 R96). -/
def shareOf (w : Word) : Nat := pwSpill w * 4096 / pwCtx w / 64 * 64

/-- Pool offsets of the parts of a pool after the scratchpad, in the order of 01 R33: the spill carve-out, accumulator
tile t, the register storage of context n. -/
def spillBase (w : Word) : Nat := spSize w
def tileBase (w : Word) (t : Nat) : Nat := spillBase w + 4096 * pwSpill w + 16384 * t
def ctxBase (w : Word) (n : Nat) : Nat := tileBase w (pwAcc w) + 9216 * n

/-- A partition word is written (01 R35). Where it differs from the old one the tiles and the register storage take pool
bytes of their own again: what lay at those offsets is gone, and each part reads as nothing had written it (R33 gives
the layout and no content: DESIGN CHOICE, log 41). The full/empty bits of scratchpad words keep their state (04 R110). -/
def repartition (w : Word) (k : Core) : Core :=
  if k.pword = w then k
  else { k with pword := w, acc := [], pool := k.pool.filter fun e => decide (e.1 < tileBase w 0) }

/-! Bytes behind a place -/

/-- The bytes of the youngest private store in flight that covers an address, else memory (04 R97). -/
def fwdRead (mem : List Host.Cell) (fs : List FwdStore) (pa : Nat) : Byte :=
  match fs.reverse.findSome? fun e => (e.bytes.find? fun b => b.1 == pa).map (·.2) with
  | some v => v
  | none => cget mem pa

def readPlace (s : State) : Place → Byte
  | .hbm pa => cget s.hbm pa
  | .fwd c n pa => fwdRead s.hbm (getCtx s c n).fwd pa
  | .pool c off => cget (getCore s c).pool off
  | .mirror l off => cget (getLayer s l).mirror off

def readPlaces (s : State) (ps : List Place) : Nat := fromLe (ps.map (readPlace s))

/-- Whether the unit of cluster k sees a write of a unit at its home: its own, one published to their stratum, or one that an
RFENCE has shown it (05 R130). -/
def seesWrite (k : Nat) (w : HomeWrite) : Bool :=
  w.unit == k || w.seen.contains k || (w.stratum && w.unit / 256 == k / 256)

/-- What stood at a place before the latest writes of a list, oldest first, that the unit of cluster k does not see; none: it
sees the latest. -/
def oldByte (k : Nat) (l : List HomeWrite) : Option Byte :=
  (((l.reverse.takeWhile fun w => !seesWrite k w).getLast?).map (·.old))

/-- A byte as the unit of cluster k finds it at its home: the latest write of another unit shows only after an RFENCE whose
scope holds both, or after a later write that k sees (05 R130). -/
def homeByte (s : State) (k : Nat) (p : Place) : Byte :=
  (oldByte k (s.unseen.filter fun w => w.place == p)).getD (readPlace s p)

/-- A byte as a retrieval unit reads it: its bucket cache over memory (05 R130). -/
def readCached (s : State) (k : Nat) (p : Place) : Byte :=
  match (getCluster s k).ruCache.find? fun e => e.place == p with
  | some e => e.byte
  | none => homeByte s k p

/-- Whether a byte lies in the memory of a peer module (18 R381). -/
def isFar : Place → Bool
  | .hbm pa => bitOf pa 51
  | .fwd _ _ pa => bitOf pa 51
  | _ => false

/-- The writes of a list that are performed in this module; those to a peer's memory travel (05 R131). -/
def nearWrites (ws : List (Place × Byte)) : List (Place × Byte) := ws.filter fun w => !isFar w.1

def writeHbm (s : State) (pa : Nat) (v : Byte) : State := { s with hbm := cset s.hbm pa v }
def writePool (s : State) (c off : Nat) (v : Byte) : State := modCore s c fun k => { k with pool := cset k.pool off v }

def writePlace (s : State) (p : Place) (v : Byte) : State :=
  match p with
  | .hbm pa => writeHbm s pa v
  | .fwd _ _ pa => writeHbm s pa v
  | .pool c off => writePool s c off v
  | .mirror l off => modLayer s l fun y => { y with mirror := cset y.mirror off v }

def writeBytes (s : State) (ws : List (Place × Byte)) : State := ws.foldl (fun s w => writePlace s w.1 w.2) s

/-- Whether a list of writes covers a 32-byte unit. -/
def coversUnit (ws : List (Place × Byte)) (u : Nat) : Bool :=
  (List.range 32).all fun i => ws.any fun w => w.1 == .hbm (32 * u + i)

/-- The stack of a physical address, 64 GiB each (01 R23). -/
def stackOf (pa : Nat) : Nat := pa / 2 ^ 36

/-- Whether original cells have lost the data of a unit beyond correction: a free value for each boot and unit (R423). -/
def strayBad (h : HbmStack) (k off : Nat) : Bool :=
  !h.rewritten.contains (off / 32) && h.stray.any fun r =>
    Config.hbmRow (r.1) == Config.hbmRow (off / 32 * 32) && Config.originalCellsBad r.2 k (off / 32)

/-- The units of this module that a list of writes covers. -/
def unitsWritten (ws : List (Place × Byte)) : List Nat :=
  (ws.filterMap fun w => match w.1 with
    | .hbm pa => if pa < 2 ^ 51 then some (pa / 32) else none
    | _ => none).dedup.filter (coversUnit ws)

/-- Units that are written whole hold good data, on original cells too. -/
def rewriteUnits (s : State) (us : List Nat) : State :=
  us.foldl (fun s u => modHbm s (stackOf (32 * u)) fun h => { h with rewritten := insNat h.rewritten (u % 2 ^ 31) }) s

/-- A write of a whole 32-byte unit clears its poison (20 R417), on original cells too (R423). -/
def unpoison (s : State) (ws : List (Place × Byte)) : State :=
  let s := if s.poison.isEmpty then s
    else { s with poison := s.poison.filter fun u => !coversUnit ws u }
  if s.hbms.any fun h => !h.2.stray.isEmpty then rewriteUnits s (unitsWritten ws) else s

/-- What is written to a place by another way than a retrieval unit's write-back shows at once, whatever stood there before
it (05 R117). -/
def showWrites (s : State) (ws : List (Place × Byte)) : State :=
  if s.unseen.isEmpty then s else { s with unseen := s.unseen.filter fun u => !ws.any fun w => w.1 == u.place }

def writePlaces (s : State) (ws : List (Place × Byte)) : State := unpoison (showWrites (writeBytes s ws) ws) ws

/-- The places of n bytes from an offset of a core's scratchpad. -/
def poolPlaces (c off n : Nat) : List Place := (List.range n).map fun i => .pool c (off + i)
def hbmPlaces (pa n : Nat) : List Place := (List.range n).map fun i => .hbm (pa + i)

def writeHbmBytes (s : State) (pa : Nat) (bs : List Byte) : State := writePlaces s ((hbmPlaces pa bs.length).zip bs)
def readHbmNat (s : State) (pa n : Nat) : Nat := readPlaces s (hbmPlaces pa n)

/-- Channel of a byte offset in a stack: 32 channels over 64 GiB in equal regions (20 Table 20.9, type 6) (in part DEDUCED, log 33). -/
def hbmChannel (off : Nat) : Nat := off / 2 ^ 31 % 32
/-- Whether a physical byte reads as uncorrectable: its unit is poisoned (20 R417), its channel lost (R418), or its row back
on cells that have lost it (R423). -/
def badByte (s : State) (pa : Nat) : Bool :=
  s.poison.contains (pa / 32) ||
    (decide (pa < 2 ^ 51) && ((getHbm s (stackOf pa)).deadChans.contains (hbmChannel (pa % 2 ^ 36)) ||
      strayBad (getHbm s (stackOf pa)) (stackOf pa) (pa % 2 ^ 36)))

/-- Note the units of a read that are uncorrectable, for the log (20 R417). -/
def noteBad (s : State) (pas : List Nat) : State :=
  let us := ((pas.filter (badByte s)).map (· / 32)).eraseDups.filter fun u => decide (u < 12 * 2 ^ 31)
  if us.isEmpty then s else { s with badReads := s.badReads ++ us }

/-- Whether a unit lies on original cells that still hold its data: a read of it is corrected (20 R423). -/
def strayGood (h : HbmStack) (k off : Nat) : Bool :=
  !h.rewritten.contains (off / 32) && (h.stray.any fun r => Config.hbmRow r.1 == Config.hbmRow (off / 32 * 32)) &&
    !strayBad h k off

/-- Note the units of a read that are corrected, for the log. -/
def noteFixes (s : State) (pas : List Nat) : State :=
  if s.hbms.all fun h => h.2.stray.isEmpty then s
  else
    let us := ((pas.filter fun pa => decide (pa < 12 * 2 ^ 36) && strayGood (getHbm s (stackOf pa)) (stackOf pa) (pa % 2 ^ 36)).map
      (· / 32)).eraseDups.filter fun u => !s.fixReads.contains u
    { s with fixReads := s.fixReads ++ us }

/-- A read of physical addresses for a partition: the bytes of peer memory are noted, so that the step waits until the peer's
own values are there (18 R381; R23), and the units that the read finds corrected. -/
def noteFar (s : State) (part : Nat) (pas : List Nat) : State :=
  match pas.filter fun a => bitOf a 51 with
  | [] => noteFixes s pas
  | far =>
    let s := noteFixes s pas
    { s with touched := s.touched ++ (far.map fun a => (part, a)).filter fun e => !s.touched.contains e }

/-- The physical addresses of places that memory serves: the forwarding table answers for what it holds (04 R97). -/
def servedPas (s : State) (ps : List Place) : List Nat :=
  ps.filterMap fun p => match p with
    | .hbm pa => some pa
    | .fwd c n pa => if (getCtx s c n).fwd.any fun f => f.bytes.any fun b => b.1 == pa then none else some pa
    | _ => none

/-- A read of places for a partition. -/
def touch (s : State) (part : Nat) (ps : List Place) : State := noteFar s part (servedPas s ps)

/-- Whether a byte lies in a channel that is lost: a write to it is uncorrectable too (20 R418). -/
def lostPlace (s : State) : Place → Bool
  | .hbm pa => decide (pa < 2 ^ 51) && (getHbm s (stackOf pa)).deadChans.contains (hbmChannel (pa % 2 ^ 36))
  | _ => false

def badPlace (s : State) : Place → Bool
  | .hbm pa => badByte s pa
  | .fwd c n pa => badByte s pa && !((getCtx s c n).fwd.any fun e => e.bytes.any fun b => b.1 == pa)
  | _ => false

/-! Full/empty bits of scratchpad words (04 R110): the list of EMPTY words -/

def wordFull (s : State) (c w : Nat) : Bool := !((getCore s c).spE.contains w)
def fillWord (s : State) (c w : Nat) : State := modCore s c fun k => { k with spE := delNat k.spE w }
def emptyWord (s : State) (c w : Nat) : State := modCore s c fun k => { k with spE := insNat k.spE w }

/-- The words that a list of places covers in the pool of a core. -/
def wordsOf (ps : List Place) : List (Nat × Nat) :=
  (ps.filterMap fun p => match p with
    | .pool c off => some (c, off / 8)
    | _ => none).dedup

/-- Write bytes and set FULL every scratchpad word that they touch, in one step (04 R110). -/
def writeFull (s : State) (ws : List (Place × Byte)) : State :=
  (wordsOf (ws.map (·.1))).foldl (fun s w => fillWord s w.1 w.2) (writePlaces s ws)

/-! Elements -/

def elPlaces : El → List Place
  | .raw ps => ps
  | .fp _ ps => ps
  | .quant _ c _ r => c :: r
  | .plast _ _ _ ps => ps

/-! Agenda and timers -/

def later (s : State) (beats : Nat) (op : Instr) (arg : StepArg) : State :=
  { s with timers := s.timers ++ [(s.stc + word beats, ⟨op, arg⟩)] }

end Sys2Proof.Machine
end

