-- ==== Sys2Proof/Machine/Trans.lean ====
section
/-! DEFINITION. Translation of global addresses (18 R378 to R385), and the records of the system event log (16 R345,
R346). -/

namespace Sys2Proof.Machine

/-- The kind of an access (18 R380). -/
inductive AK where
  | fetch | read | write
  deriving DecidableEq, Repr

/-- What a translation gives: a physical address, an unplaced first-touch page met in run-ahead (18 R388), or a fault
with its KIND code of Table 18.7 and the level at which the walk stopped. -/
inductive TRes where
  | pa (a : Nat)
  | unplaced
  | fault (kind level : Nat)
  deriving DecidableEq, Repr

def peV (e : Word) : Bool := e.getLsbD 0
def peLeaf (e : Word) : Bool := e.getLsbD 1
def peFt (e : Word) : Bool := e.getLsbD 60
def peC64 (e : Word) : Bool := e.getLsbD 7
def pePa (e : Word) : Nat := bitsOf e.toNat 51 12 * 4096
def peReserved (e : Word) : Bool :=
  bitsOf e.toNat 63 61 != 0 || bitsOf e.toNat 59 52 != 0 || bitsOf e.toNat 11 8 != 0 || e.getLsbD 6

/-- Whether a physical address names memory for a partition (18 R381). -/
def namesMemory (s : State) (part pa : Nat) : Bool :=
  if bitOf pa 51 then true
  else bitsOf pa 50 40 == 0 && decide (bitsOf pa 39 36 < 12) && ownsHbm s part (bitsOf pa 39 36)

/-- Log2 of the page size of a leaf (18 Table 18.1). -/
def leafBits (level : Nat) (e : Word) : Nat :=
  if level = 2 then 30 else if level = 1 then 21 else if peC64 e then 16 else 12

def peBad (s : State) (part level : Nat) (e : Word) : Bool :=
  peReserved e || (peLeaf e && level == 3) || (!peLeaf e && level == 0) ||
    (peLeaf e && pePa e % 2 ^ leafBits level e != 0) || (peC64 e && level != 0) || !namesMemory s part (pePa e)

/-- Permission of a leaf for an access at a privilege (18 R380). -/
def pePerm (priv : Nat) (k : AK) (level : Nat) (e : Word) (pa : Nat) : TRes :=
  if priv = 0 ∧ e.getLsbD 5 = false then .fault 4 level
  else match k with
    | .fetch => if e.getLsbD 4 then .pa pa else .fault 3 level
    | .read => if e.getLsbD 2 then .pa pa else .fault 1 level
    | .write => if e.getLsbD 3 then .pa pa else .fault 2 level

def pteIndex (level va : Nat) : Nat := if level = 3 then va / 2 ^ 39 % 131072 else va / 2 ^ (12 + 9 * level) % 512

/-! Routes to peer modules (20 R408, R412) -/

def routeKey (part m : Nat) : Nat := part * 128 + m
def routeOf (s : State) (part m : Nat) : BitVec 8 := mget s.routes (routeKey part m) 0xFF
/-- The ports that a partition's route to a module names, of those that it owns (20 R408). -/
def routePorts (s : State) (part m : Nat) : List Nat :=
  let r := (routeOf s part m).toNat
  [r % 16, r / 16].filter fun n => n != 15 && ownsPort s part n
def routeUp (s : State) (part m : Nat) : Bool := (routePorts s part m).any fun n => (getPort s n).up

/-- Module of a physical address in peer memory (18 R381). -/
def moduleOf (pa : Nat) : Nat := bitsOf pa 50 44

/-- Whether a partition's pair to the peer that holds a physical address has failed (20 R412, 18 Table 18.8), or has no
route (DESIGN CHOICE, log 12), or the read of the byte for the step under way has failed. -/
def peerFailed (s : State) (part pa : Nat) : Bool :=
  bitOf pa 51 && ((getPeer s (moduleOf pa)).failed.contains part || (routePorts s part (moduleOf pa)).isEmpty ||
    s.broken.contains pa)

/-- Whether the packets of one more access could pass the 65,536 that a pair may hold (20 R410) (in part DEDUCED, log 12). -/
def pairFull (y : Peer) : Bool := decide (65536 < y.unacked.length + 128)
def peerFull (s : State) (pa : Nat) : Bool := bitOf pa 51 && pairFull (getPeer s (moduleOf pa))

/-- A route that is up again has no failure ahead, and none behind it (20 R412). -/
def disarmRoutes (s : State) : State :=
  { s with peers := s.peers.map fun e => (e.1, { e.2 with failed := e.2.failed.filter fun p => !routeUp s p e.1 })
           timers := s.timers.filter fun t => !(t.2.op == .routeFailTimeout && routeUp s t.2.arg.i t.2.arg.j) }

/-- While no port of a route is up, its packets fail after 10 ms (20 R412). -/
def armRoute (s : State) (part m : Nat) : State :=
  if routeUp s part m || s.timers.any fun t => t.2.op == .routeFailTimeout && t.2.arg.i == part && t.2.arg.j == m then s
  else later s 12000000 .routeFailTimeout { StepArg.none with i := part, j := m }

/-- The routes of a partition as its ports have changed. -/
def rearmRoutes (s : State) (p : Nat) : State :=
  (s.routes.filter fun e => e.1 / 128 == p).foldl (fun s e => armRoute s p (e.1 % 128)) (disarmRoutes s)

/-! Stores to a peer's memory travel as Sloim packets too (20 R409, R410, 05 R131) -/

/-- Whether a step has put more packets into a pair than it may hold (20 R410). -/
def pairsBurst (before t : State) : Bool :=
  t.peers.any fun y =>
    let n := (getPeer t y.1).unacked.length
    decide (65536 < n) && decide ((getPeer before y.1).unacked.length < n)

/-- The context number of what no context sends: a trace unit, the launch unit, firmware. -/
def noCtx : Nat := 8

/-- Number a packet of the pair and keep it until it is acknowledged. copy: the copy that it belongs to, if any. -/
def sendPacket (s : State) (c n part : Nat) (gen : BitVec 16) (copy : Option Nat) (p : Packet) : State :=
  let uid := (getCtx s c n).uid
  let id := copy.getD s.serial
  modPeer (armRoute { s with serial := s.serial + 1 } part p.dst.toNat) p.dst.toNat fun y =>
    { y with nextSend := y.nextSend + 1,
             unacked := y.unacked ++
               [{ p := { p with seq := y.nextSend }, part, core := c, ctx := n, uid, gen, id, copy := copy.isSome }] }

/-- The packet of a store of at most 8 bytes within an aligned doubleword: kind 1, or 4 for a release flag. -/
def storePacket (s : State) (kind : Nat) (pa : Nat) (bs : List (Nat × Byte)) : Packet :=
  let base := pa / 8 * 8
  { kind := BitVec.ofNat 4 kind, src := s.modid, dst := BitVec.ofNat 7 (bitsOf pa 50 44), seq := 0, queue := 0, index := 0,
    flag := 0, addr := BitVec.ofNat 44 (base % 2 ^ 44),
    mask := BitVec.ofNat 32 (bs.foldl (fun acc b => acc + 2 ^ (b.1 - base)) 0),
    data := (List.range 8).map fun i => ((bs.find? fun b => b.1 == base + i).map (·.2)).getD 0 }

/-- Send the bytes of a store that lie in peer memory, doubleword by doubleword. -/
def sendPeerStores (s : State) (c n part : Nat) (gen : BitVec 16) (kind : Nat) (copy : Option Nat)
    (ws : List (Nat × Byte)) : State :=
  let far := ws.filter fun w => bitOf w.1 51
  ((far.map fun w => w.1 / 8).dedup).foldl (fun s d =>
    sendPacket s c n part gen copy (storePacket s kind (8 * d) (far.filter fun w => w.1 / 8 == d))) s

/-- Send those bytes of a write that lie in peer memory (05 R131). -/
def sendFar (s : State) (c n : Nat) (gen : BitVec 16) (copy : Option Nat) (ws : List (Place × Byte)) : State :=
  sendPeerStores s c n (partOf s c) gen 1 copy (ws.filterMap fun w => match w.1 with
    | .hbm pa => some (pa, w.2)
    | _ => none)

/-- Writes at their homes that set no FE bit: in this module at once, to a peer by packets. -/
def homeWrite (s : State) (c n : Nat) (gen : BitVec 16) (ws : List (Place × Byte)) : State :=
  sendFar (writePlaces s (nearWrites ws)) c n gen none ws

/-- What the units of a partition write to physical addresses; what travels does so in the name of its SYSCORE (DESIGN
CHOICE, log 12). -/
def partWrite (s : State) (part : Nat) (pas : List Nat) (bs : List Byte) : State :=
  let ws := (pas.map Place.hbm).zip bs
  sendPeerStores (writePlaces s (nearWrites ws)) (getPart s part).sysCore.toNat noCtx part 0 1 none (pas.zip bs)

/-! Reads of a peer's memory travel by packets of kind 2, and the step that reads waits for the responses (18 R381, 20
R409) -/

/-- The packet of a read of n bytes from a doubleword on. -/
def readPacket (s : State) (pa n : Nat) : Packet :=
  { kind := 2, src := s.modid, dst := BitVec.ofNat 7 (moduleOf pa), seq := 0, queue := 0, index := BitVec.ofNat 32 n,
    flag := 0, addr := BitVec.ofNat 44 (pa % 2 ^ 44), mask := 0, data := [] }

/-- Ask a peer for the bytes of its memory from lo to hi, which lie in one aligned 256 bytes, for a core's context. -/
def askFar (s : State) (c n part : Nat) (reader : FarReader) (lo hi : Nat) : State :=
  let lo := lo / 8 * 8
  let m := moduleOf lo
  let seq := (getPeer s m).nextSend
  modPeer (sendPacket s c n part (getCtx s c n).gen none (readPacket s lo (hi + 1 - lo))) m fun y =>
    { y with reads := y.reads ++ [{ seq, part, reader, pa := lo, n := hi + 1 - lo }] }

/-- Whether a reader is still there: a task may have ended. -/
def readerThere (s : State) : FarReader → Bool
  | .instr c n uid => (getCtx s c n).uid == uid
  | _ => true

/-- Bytes from a peer reach who asked for them, and nobody else; none: the read of the byte has failed. -/
def bringFar (s : State) (r : FarReader) (bs : List (Nat × Option Byte)) : State :=
  if readerThere s r then { s with brought := s.brought ++ bs.map fun b => (r, b) } else s

/-- What has been brought for a reader, as its step finds it: the bytes in place of peer memory, and those that failed. -/
def withBrought (s : State) (r : FarReader) : State :=
  match s.brought.filter fun b => b.1 == r with
  | [] => s
  | mine =>
    { s with hbm := mine.foldl (fun m b => b.2.2.elim m (cset m b.2.1)) s.hbm,
             broken := (mine.filter fun b => b.2.2.isNone).map (·.2.1) }

def nearCell (b : Host.Cell) : Bool := decide (b.1 < 2 ^ 51)

/-- A step leaves nothing in place of peer memory but what stood there before it: what it has brought is its own, and what it
writes there travels. -/
def keepFar (before t : State) : State :=
  { t with hbm := (before.hbm.filter fun b => !nearCell b).foldl (fun m b => cset m b.1 b.2) (t.hbm.filter nearCell),
           broken := before.broken }

/-- Whether a reader waits for responses. -/
def farOpen (s : State) (r : FarReader) : Bool := s.peers.any fun y => y.2.reads.any fun e => e.reader == r

/-- The bytes of peer memory that a step has read before they were brought, in the order in which it read them; those of a
peer whose route has failed do not come (20 R412). -/
def missingFar (before t : State) (r : FarReader) : List (Nat × Nat) :=
  t.touched.filter fun e => bitOf e.2 51 && !(before.brought.any fun b => b.1 == r && b.2.1 == e.2) && !peerFailed t e.1 e.2

/-- Whether an instruction has walked over bytes of its own module that an earlier store of its context, which waits for its
turn, is to write (18 R383). -/
def walkedOwn (s : State) : FarReader → Bool
  | .instr .. => s.touched.any fun e => !bitOf e.2 51
  | _ => false

/-- The last of the bytes that follow an address in a list one by one, in the same 256 bytes. -/
def runEnd (part a : Nat) : List (Nat × Nat) → Nat
  | [] => a
  | e :: r => if e.1 = part ∧ e.2 = a + 1 ∧ e.2 / 256 = a / 256 then runEnd part (a + 1) r else a

/-- What a step has read of peers is there: it counts, and nothing is kept for it. -/
def farDone (s : State) (r : FarReader) : State :=
  { s with touched := [], brought := s.brought.filter fun b => b.1 != r,
           stalled := match r with
             | .step x => s.stalled.erase x
             | _ => s.stalled }

/-- Ask a peer, for a core's context, for the first bytes that a reader misses, unless it waits for others already or the window
of the pair is full (20 R410). -/
def askNext (s : State) (r : FarReader) (c n : Nat) : List (Nat × Nat) → State
  | [] => s
  | e :: rest => if farOpen s r || peerFull s e.2 then s else askFar s c n e.1 r e.2 (runEnd e.1 e.2 rest)

/-- In whose name the units of a partition read: its SYSCORE's (DESIGN CHOICE, log 12). -/
def unitName (s : State) (m : List (Nat × Nat)) : Nat := (getPart s (m.headD (0, 0)).1).sysCore.toNat

/-- The state before a step that has read a byte of a peer before it was brought: the step asks for the first such bytes and
waits. The later ones are found when these are there. -/
def farWait (s : State) (r : FarReader) (m : List (Nat × Nat)) : State :=
  match r with
  | .step x => askNext { s with stalled := s.stalled.filter (· != x) ++ [x] } r (unitName s m) 0 m
  | .instr c n _ => askNext { s with issuing := false, waited := true } r c n m
  | .log _ => askNext s r (unitName s m) 0 m

/-- A step as it ends in this module: what it reads of a peer has come from there, or nothing of it has happened and it
waits (R23; 18 R381); an instruction also waits for its context's own stores to the entries that it walks (18 R383), and a
step that overfills the window of a pair waits for acknowledgements (20 R410). -/
def farGate (before : State) (r : FarReader) : Out → Out
  | .next t =>
    if pairsBurst before t then .next (farWait before r [])
    else if t.touched.isEmpty && before.brought.isEmpty && before.stalled.isEmpty then .next t
    else if walkedOwn t r then .next { before with issuing := false, waited := true }
    else match missingFar before t r with
      | [] => if t.waited then .next (keepFar before { t with touched := [] }) else .next (keepFar before (farDone t r))
      | m => .next (farWait before r m)
  | o => o

def pteUnreadable (s : State) (part pa : Nat) : Bool :=
  ((List.range 8).any fun i => badByte s (pa + i)) || peerFailed s part pa

def readPte (s : State) (pa : Nat) : Word := word (readHbmNat s pa 8)

/-- The entry that the translation of a byte uses, of the entry that its address names: any one of the 16 entries of a
64 KiB page (DESIGN CHOICE, log 8). Its address and its value. -/
def chosenEntry (s : State) (table i : Nat) (e : Word) : Nat × Word :=
  if peV e && peLeaf e && peC64 e then
    let a := table + 8 * (i / 16 * 16 + (Config.pageEntryChoice s.choice).val)
    (a, readPte s a)
  else (table + 8 * i, e)

/-- The walk below a table (18 R380), claims aside: an unplaced page, or an entry that cannot be read, ends it with the entry's address (in part DEDUCED,
log 36). -/
def walkFrom (s : State) (part priv : Nat) (k : AK) (va : Nat) : List Nat → Nat → TRes × Option Nat × Nat × Word
  | [], _ => (.fault 7 0, none, 0, 0)
  | level :: rest, table =>
    let ea := table + 8 * pteIndex level va
    if pteUnreadable s part ea then (.fault 6 level, some ea, level, 0)
    else
      let e0 := readPte s ea
      let (ea, e) := if level = 0 then chosenEntry s table (pteIndex level va) e0 else (ea, e0)
      if pteUnreadable s part ea then (.fault 6 level, some ea, level, e0)
      else if !peV e then
        if level = 0 ∧ peFt e then (.unplaced, some ea, level, e) else (.fault 0 level, none, level, e)
      else if peBad s part level e then (.fault 7 level, none, level, e)
      else if peLeaf e then
        let bits := leafBits level e
        (pePerm priv k level e (pePa e + va % 2 ^ bits), none, level, e)
      else walkFrom s part priv k va rest (pePa e)

/-- The addresses of the entries that a walk reads, in order. -/
def walkReads (s : State) (part va : Nat) : List Nat → Nat → List Nat
  | [], _ => []
  | level :: rest, table =>
    let ea := table + 8 * pteIndex level va
    if pteUnreadable s part ea then [ea]
    else
      let e0 := readPte s ea
      let (ea', e) := if level = 0 then chosenEntry s table (pteIndex level va) e0 else (ea, e0)
      (if ea' = ea then [ea] else [ea, ea']) ++ (if peV e && !peLeaf e then walkReads s part va rest (pePa e) else [])

/-- The root of a partition's tables (18 R378). -/
def rootOf (s : State) (part : Nat) : Nat := bitsOf (getPart s part).ptbase.toNat 51 20 * 1048576

def walkOnce (s : State) (part priv : Nat) (k : AK) (va : Nat) : TRes × Option Nat × Nat × Word :=
  walkFrom s part priv k va [3, 2, 1, 0] (rootOf s part)

/-- Bytes that stores of the running context that wait for their turn are to write. -/
def turnPlaces (s : State) : List Place :=
  (me s).regs.pend.flatMap fun p => match p.prod with
    | .put _ _ els _ _ => els.flatMap elPlaces
    | .scatter _ els _ => els.flatMap fun e => elPlaces e.2
    | _ => []

/-- A walk reads its entries, as loads that follow the earlier stores of its context (18 R383). -/
def touchWalk (s : State) (part va : Nat) : State :=
  let pas := (walkReads s part va [3, 2, 1, 0] (rootOf s part)).flatMap fun ea => (List.range 8).map (ea + ·)
  let own := turnPlaces s
  let s := noteFar s part pas
  if own.isEmpty then s
  else { s with touched := s.touched ++ (pas.filter fun pa => !bitOf pa 51 && own.contains (.hbm pa)).map fun pa => (part, pa) }

/-- Size of a ring from its control register: none while EN is 0 (17 Table 17.1). -/
def ringSize (ctl : Word) : Option Nat := if ctl.getLsbD 63 then some (bitsOf ctl.toNat 16 0) else none

/-- Take a frame for a claim: the spare, else the next of the frame ring (18 R385 steps 1 and 2) (in part DEDUCED, log 36). With
EN = 0 it takes none, and a spare that is held stays; the ring's entry is translated and read at system privilege (DESIGN
CHOICE, log 36). -/
def takeFrame (s : State) (part : Nat) : Option (Nat × State) :=
  let p := getPart s part
  match ringSize p.ft.ctl with
  | none => none
  | some size =>
    if p.ftSpare.getLsbD 63 then
      some (bitsOf p.ftSpare.toNat 51 12 * 4096, modPart s part fun p => { p with ftSpare := 0 })
    else if p.ft.head = p.ft.tail ∨ size = 0 then none
    else
      let va := p.ft.base.toNat + 8 * (p.ft.head.toNat % size)
      match (walkOnce s part 1 .read va).1 with
      | .pa a =>
        let s := noteFar (touchWalk s part va) part ((List.range 8).map (a + ·))
        some (bitsOf (readHbmNat s a 8) 51 12 * 4096,
          modPart s part fun p => { p with ft := { p.ft with head := p.ft.head + 1 } })
      | _ => none

def satInc64 (w : Word) : Word := if w = BitVec.allOnes 64 then w else w + 1

/-- The entry with the frame placed: V 1, FT 0. -/
def placedEntry (e : Word) (frame : Nat) : Word :=
  word (bitsOf e.toNat 63 61 * 2 ^ 61 + bitsOf e.toNat 59 52 * 2 ^ 52 + bitsOf frame 51 12 * 4096 +
    bitsOf e.toNat 11 1 * 2 + 1)

/-- The swap of a claim (18 R385 steps 3 and 4): the entry with the frame placed, or, where another module has put rival
into it first, that value and the frame kept as the spare. The swap of an entry in a peer's memory travels as a store of
the entry (DESIGN CHOICE, log 12). -/
def swapEntry (s : State) (part ea : Nat) (e : Word) (frame : Nat) : Option Word → State
  | none =>
    let bs := toLe 8 (placedEntry e frame).toNat
    modPart (partWrite (writeHbmBytes s ea bs) part ((List.range 8).map (ea + ·)) bs) part fun p =>
      { p with ftClaims := satInc64 p.ftClaims }
  | some w =>
    modPart (writeHbmBytes s ea (toLe 8 w.toNat)) part fun p =>
      { p with ftSpare := word (2 ^ 63 + frame), ftLost := satInc64 p.ftLost }

/-- A walk that claims each unplaced entry it meets and reads it again, a number of times (18 R385). -/
def walkClaims (part priv : Nat) (ahead : Bool) (k : AK) (va : Nat) : Nat → Option Word → State → State × TRes
  | 0, _, s => (s, .fault 0 0)
  | n + 1, rival, s =>
    let s := touchWalk s part va
    let (r, ea, level, e) := walkOnce s part priv k va
    let c64 := peC64 e
    let s := if c64 then { s with choice := s.choice + 1 } else s
    match r, ea with
    | .unplaced, some ea =>
      if ahead then (s, .unplaced)
      else match takeFrame s part with
        | none => (s, .fault 5 level)
        | some (frame, s) => walkClaims part priv ahead k va n none (swapEntry s part ea e frame rival)
    | .fault 6 l, some ea => (noteBad s ((List.range 8).map (ea + ·)), .fault 6 l)
    | r, _ => (s, r)

/-- A walk (18 R380, R385). rival: what another module has put into an unplaced entry before this claim, so that the
swap fails (an input of the walk; DESIGN CHOICE, log 12). Of the 16 entries of a page and one lost swap, no walk claims
more than 17 times. -/
def walk (s : State) (part priv : Nat) (ahead : Bool) (k : AK) (va : Nat) (rival : Option Word) : State × TRes :=
  walkClaims part priv ahead k va 18 rival s

/-- The base die's TLB stands under stratum number 16 (18 R382). -/
def tlbs (s : State) (c : Nat) : List TlbEntry :=
  (getCore s c).utlb ++ (getCluster s (clusterOf c)).tlb ++ (getStratum s (layerOf c)).tlb

/-- A held translation of an address. -/
def tlbHit (s : State) (c va : Nat) : Option TlbEntry :=
  (tlbs s c).find? fun e => e.part == partOf s c && e.vpn == va / 2 ^ e.size

def sizeLevel (bits : Nat) : Nat := if bits = 30 then 2 else if bits = 21 then 1 else 0

/-- Translation of one address for a core's party: a held translation, else a walk (18 R382; DESIGN CHOICE, log 10). -/
def translate (s : State) (c priv : Nat) (ahead : Bool) (k : AK) (va : Nat) : State × TRes :=
  match tlbHit s c va with
  | some e => (s, pePerm priv k (sizeLevel e.size) e.entry (pePa e.entry + va % 2 ^ e.size))
  | none => walk s (partOf s c) priv ahead k va none

/-- An access of n bytes cut at 4 KiB boundaries: start and length of each piece (04 R94). -/
def pieces (va n : Nat) : List (Nat × Nat) :=
  (List.range (n / 4096 + 2)).filterMap fun i =>
    let page := (va / 4096 + i) * 4096
    let lo := if va < page then page else va
    let hi := if va + n < page + 4096 then va + n else page + 4096
    if lo < hi then some (lo, hi - lo) else none

/-- Translate pieces in order. -/
def transPieces (c priv : Nat) (ahead : Bool) (k : AK) :
    List (Nat × Nat) → State → State × List (Nat × Nat × TRes)
  | [], s => (s, [])
  | (va, n) :: r, s =>
    let (s, t) := translate s c priv ahead k va
    let (s, ts) := transPieces c priv ahead k r s
    (s, (va, n, t) :: ts)

/-- The first faulting piece: its address, KIND and level. -/
def firstFault (ts : List (Nat × Nat × TRes)) : Option (Nat × Nat × Nat) :=
  ts.findSome? fun t => match t.2.2 with
    | .fault k l => some (t.1, k, l)
    | _ => none

/-- The physical addresses of the bytes of translated pieces. -/
def pasOf (ts : List (Nat × Nat × TRes)) : List Nat :=
  ts.flatMap fun t => match t.2.2 with
    | .pa a => (List.range t.2.1).map (a + ·)
    | _ => []

/-- Translate n bytes for an engine or the launch unit in one go: the addresses, or the first fault. -/
def transRange (s : State) (c priv : Nat) (k : AK) (va n : Nat) : State × Except (Nat × Nat × Nat) (List Nat) :=
  let (s, ts) := transPieces c priv false k (pieces va n) s
  match firstFault ts with
  | some f => (s, .error f)
  | none => (s, .ok (pasOf ts))

/-- The same in a partition's tables with no core's TLB: the launch unit and the landing of blocks (18 R426). -/
def partPieces (part priv : Nat) (k : AK) : List (Nat × Nat) → State → State × List (Nat × Nat × TRes)
  | [], s => (s, [])
  | (va, n) :: r, s =>
    let (s, t) := walk s part priv false k va none
    let (s, ts) := partPieces part priv k r s
    (s, (va, n, t) :: ts)

def partRange (s : State) (part priv : Nat) (k : AK) (va n : Nat) : State × Except (Nat × Nat × Nat) (List Nat) :=
  let (s, ts) := partPieces part priv k (pieces va n) s
  match firstFault ts with
  | some f => (s, .error f)
  | none => (s, .ok (pasOf ts))

/-! The system event log (16 R345 to R347, Table 16.5) -/

/-- The 32 bytes of a record, stamped with the stack time. -/
def recBytes (stc : Word) (r : LogRec) : List Byte :=
  toLe 8 stc.toNat ++ toLe 2 r.src ++ toLe 1 (r.ctx % 16) ++ toLe 1 r.kind ++ toLe 1 r.status ++ toLe 1 r.tag ++
    toLe 2 r.gen ++ toLe 4 r.done ++ toLe 8 r.addr ++ toLe 4 r.extra

/-- A record that could not be written is counted, saturating (16 R345). -/
def countLost (s : State) (c : Nat) : State :=
  modCore s c fun k => { k with elLost := if k.elLost.toNat < 2 ^ 32 - 1 then k.elLost + 1 else word (2 ^ 32 - 1) }

/-- Put an event on its way (02 R47): its STC field holds the low 56 bits of the stack time. -/
def launchEvent (s : State) (ev : Event) (part : Nat) (payload : List Word) (sender : Option (Nat × Nat)) : State :=
  { s with serial := s.serial + 1,
           net := s.net ++ [{ id := s.serial, ev := { ev with stc := s.stc.setWidth 56 }, part, payload, sender,
                              waiting := false, home := false,
                              origin := sender.map fun c => (c.2, (getCtx s c.1 c.2).gen) }] }

/-- Every context of a core that waits in WFI ends its wait (16 R359). -/
def endWfi (s : State) (c : Nat) : State := modCore s c fun k => { k with wfi := BitVec.allOnes 8 }

/-- Raise the host's notification for a record in the log of a partition's SYSCORE (20 R405). -/
def notifyHost (s : State) (c : Nat) : State :=
  (List.range 8).foldl (fun s p =>
    let q := getPart s p
    if pcfgEn q.pcfg && q.pcfg.getLsbD 62 && q.sysCore.toNat == c then { s with msix := s.msix ++ [(p + 1, 0), (0, p)] }
    else s) s

/-- The event on channel 61 that follows a record: its index in ARG0 is the whole count ELHEAD before the record, not the place in
the ring (DESIGN CHOICE, log 16); KIND in bits 7:0 and STATUS in bits 15:8 of ARG1 (in part DEDUCED, log 16). -/
def noteEvent (k : Core) (c index : Nat) (r : LogRec) : Event :=
  { chan := 61, dest := k.elNote.setWidth 16, src := BitVec.ofNat 16 c, stc := 0, arg0 := word index,
    arg1 := word (r.kind + 256 * r.status), pl := false, und := false, llen := 0, loff := 0, dloff := 0 }

/-- Write a record to the log of a core (16 R345). A record in a lost channel (20 R418) or for a peer that is not to be
reached (20 R412) is not written; one in a peer's memory travels (05 R131). -/
def writeRecord (s : State) (c : Nat) (stc : Word) (r : LogRec) : State :=
  let k := getCore s c
  let size := k.elSize.toNat
  if size = 0 ∨ (k.elHead - k.elTail).toNat = size then countLost s c
  else
    match transRange s c 1 .write (k.elBase.toNat + 32 * (k.elHead.toNat % size)) 32 with
    | (s, .error _) => countLost s c
    | (s, .ok pas) =>
      if pas.any fun a => lostPlace s (.hbm a) || peerFailed s (partOf s c) a then countLost s c
      else
        let s := homeWrite s c r.ctx (BitVec.ofNat 16 r.gen) ((pas.map Place.hbm).zip (recBytes stc r))
        let s := modCore s c fun k => { k with elHead := k.elHead + 1 }
        let s := launchEvent s (noteEvent k c k.elHead.toNat r) (partOf s c) [] none
        notifyHost (endWfi s c) c

/-! The logs of the HBM stacks (20 R417 to R419) -/

/-- An entry of a stack's log (20 Table 20.9). -/
def hbmEntry (stc : Word) (kind retry lane off : Nat) : List Byte :=
  toLe 8 (off % 2 ^ 36 + lane % 64 * 2 ^ 45 + retry % 16 * 2 ^ 51 + hbmChannel off * 2 ^ 55 + kind * 2 ^ 60) ++
    toLe 8 stc.toNat

def satInc32 (x : BitVec 32) : BitVec 32 := if x = BitVec.allOnes 32 then x else x + 1

/-- The partition that owns a stack. -/
def stackPart (s : State) (k : Nat) : Option Nat := (List.range 8).find? fun p => ownsHbm s p k

/-- The walk to where the next entry of a log goes, through the tables of the partition that owns the stack, with its claims (18
R385); none: the entry is lost. -/
def logPlace (s : State) (k : Nat) (q : LQueue) : State × Option (Nat × List Nat) :=
  match ringSize q.ctl, stackPart s k with
  | some size, some p =>
    if size = 0 ∨ (q.head - q.tail).toNat = size then (s, none)
    else match partRange s p 1 .write (q.base.toNat + 16 * (q.head.toNat % size)) 16 with
      | (s, .error _) => (s, none)
      | (s, .ok pas) =>
        (s, if pas.any fun a => lostPlace s (.hbm a) || peerFailed s p a then none else some (p, pas))
  | _, _ => (s, none)

/-- Write an entry to a log of a stack: types 0 to 2 into the array log, 3 to 6 into the transfer log. What the walk to it
finds uncorrectable or corrected is not logged in turn (DESIGN CHOICE, log 33). -/
def writeHbmEntry (s : State) (k kind retry lane off : Nat) (stc : Word) : State :=
  let arr := decide (kind ≤ 2)
  let h := getHbm s k
  let r := logPlace s k (if arr then h.ael else h.tel)
  let t := { r.1 with badReads := s.badReads, fixReads := s.fixReads }
  match r.2 with
  | none => modHbm t k fun h => if arr then { h with lostA := satInc32 h.lostA } else { h with lostT := satInc32 h.lostT }
  | some (p, pas) =>
    modHbm (partWrite t p pas (hbmEntry stc kind retry lane off)) k fun h =>
      if arr then { h with ael := { h.ael with head := h.ael.head + 1 } }
      else { h with tel := { h.tel with head := h.tel.head + 1 } }

/-! Writing to a log: the walk to its next entry may read tables in a peer's memory, and the entry then waits in the queue of
its log, while what had to be logged goes on (R23) -/

def writeLog (s : State) : LogEntry → State
  | .core c stc r => writeRecord s c stc r
  | .stack k kind retry lane off stc => writeHbmEntry s k kind retry lane off stc

/-- The log that an entry is for. -/
def logKey : LogEntry → Nat
  | .core c .. => c
  | .stack k kind .. => 0x10000 + 2 * k + b2n (decide (kind ≤ 2))

/-- Write an entry, unless its walk needs bytes of a peer that are not there; they are asked for. The answer says whether it
is written. -/
def tryLog (s : State) (e : LogEntry) : State × Bool :=
  let r : FarReader := .log (logKey e)
  let t := writeLog (withBrought { s with touched := [] } r) e
  match missingFar s t r with
  | [] =>
    if pairsBurst s t then (s, false)
    else ({ keepFar s t with touched := s.touched, brought := t.brought.filter fun b => b.1 != r }, true)
  | m => (farWait s r m, false)

/-- An entry for a log: written now, or in its turn behind those of its log that wait. -/
def logEntry (s : State) (e : LogEntry) : State :=
  if s.logs.any fun f => logKey f == logKey e then { s with logs := s.logs ++ [e] }
  else match tryLog s e with
    | (s, true) => s
    | (s, false) => { s with logs := s.logs ++ [e] }

/-- The waiting entries of every log, as far as they can be written now, in their order. -/
def flushLogs (s : State) : State :=
  s.logs.foldl logEntry { s with logs := [] }

/-- A record for the log of a core, stamped with the present stack time (16 R345). -/
def logRecord (s : State) (c : Nat) (r : LogRec) : State := logEntry s (.core c s.stc r)

/-- A record about an item of a context. -/
def ctxRecord (s : State) (c n kind status tag done addr extra : Nat) : State :=
  logRecord s c { extra, addr, done, gen := (getCtx s c n).gen.toNat, tag, status, kind, ctx := n, src := c }

/-- A record with no issuing core: the log of the partition's SYSCORE; SRC 0xFFFF. -/
def sysRecord (s : State) (part kind status done addr extra : Nat) : State :=
  logRecord s (getPart s part).sysCore.toNat
    { extra, addr, done, gen := 0, tag := 0, status, kind, ctx := 0, src := 0xFFFF }

/-! Events of the HBM stacks (20 R417, R418) -/

/-- Log an event of a stack. -/
def logHbm (s : State) (k kind retry lane off : Nat) : State := logEntry s (.stack k kind retry lane off s.stc)

/-- The unit of an access reads as uncorrectable from now on. -/
def poisonUnit (s : State) (k off : Nat) : State :=
  let u := (k * 2 ^ 36 + off) / 32
  { s with poison := if s.poison.contains u then s.poison else u :: s.poison }

/-- An uncorrectable access. -/
def uncorrectable (s : State) (k off : Nat) : State := logHbm (poisonUnit s k off) k 1 0 0 off

def beatsPerUs : Nat := 1200

/-- Corrected units of the row of a unit within the second before now (R417); the rows of a stack are Config's, as the spec
does not give them. -/
def rowFixes (s : State) (k off : Nat) : Nat :=
  ((getHbm s k).fixes.filter fun e =>
    Config.hbmRow e.1 == Config.hbmRow off && decide ((s.stc - e.2).toNat < 1000000 * beatsPerUs)).length

/-- A read that is corrected (R417): type 0; the third of its row within one second has the row repaired, type 2,
and off its original cells again. -/
def correctUnit (s : State) (k off : Nat) : State :=
  let s' := logHbm s k 0 0 0 off
  if 2 ≤ rowFixes s k off then
    logHbm (modHbm s' k fun h =>
      { h with soft := insNat h.soft off, fixes := h.fixes.filter (fun e => Config.hbmRow e.1 != Config.hbmRow off),
               stray := h.stray.filter fun r => Config.hbmRow r.1 != Config.hbmRow off }) k 2 0 0 off
  else modHbm s' k fun h => { h with fixes := (off, s.stc) :: h.fixes }

/-- The uncorrectable reads of a beat are logged within it: type 1, and the unit is poisoned (R417); those of units on
original cells are corrected: type 0 (R423) (in part DEDUCED, log 33). -/
def logBadReads (s : State) : State :=
  let t := s.badReads.foldl (fun s u => uncorrectable s (u / 2 ^ 31) (u % 2 ^ 31 * 32)) { s with badReads := [], fixReads := [] }
  s.fixReads.foldl (fun s u => correctUnit s (u / 2 ^ 31) (u % 2 ^ 31 * 32)) t

end Sys2Proof.Machine
end

