-- ==== Sys2Proof/Machine/Windows.lean ====
section
/-! DEFINITION. Apertures, access classes, windows and elements (04 R92 to R109): from the addresses of an access to the
places of its elements, with every check in the order of R95. -/

namespace Sys2Proof.Machine

/-- A trap on its way (16 R341): cause, TRAP or SYSCALL code, whether EPC is the next instruction, FADDR, and for a page
fault the batch entries of the instruction's own pages (18 R388). -/
structure Trap where
  cause : Nat
  code : Nat
  next : Bool
  faddr : Word
  pages : List Word
  deriving DecidableEq, Repr

def mkTrap (cause : Nat) (faddr : Nat) : Trap := { cause, code := 0, next := false, faddr := word faddr, pages := [] }

/-! Cause codes (18 Table 18.4) -/
def tILLEGAL : Trap := mkTrap 0x01 0
def tPRIVILEGE : Trap := mkTrap 0x02 0
def tRESERVED : Trap := mkTrap 0x03 0
def tAPERTURE (a : Nat) : Trap := mkTrap 0x05 a
def tMISALIGNED (a : Nat) : Trap := mkTrap 0x06 a
def tFE : Trap := mkTrap 0x08 0

/-- Why an access is not performed. -/
inductive Fail where
  | trap (t : Trap)
  | unplaced                       -- run-ahead met an unplaced page (18 R388)
  deriving DecidableEq, Repr

/-! Apertures (04 Table 4.1) -/

inductive Ap where
  | glob
  | remote (core win off : Nat)
  | loc (win off : Nat)
  | priv (off : Nat)
  | mirror (off : Nat)
  | sync (off : Nat)
  | device (off : Nat)
  | none
  deriving DecidableEq, Repr

def apOf (a : Nat) : Ap :=
  if a < 0x0100000000000000 then .glob
  else if 0xFFFFE00000000000 ≤ a ∧ a ≤ 0xFFFFE07FFFFFFFFF then
    .remote (bitsOf a 38 23) (bitsOf a 22 20) (bitsOf a 19 0)
  else if 0xFFFFFF0000000000 ≤ a ∧ a ≤ 0xFFFFFF00007FFFFF then .loc (bitsOf a 22 20) (bitsOf a 19 0)
  else if 0xFFFFFF1000000000 ≤ a ∧ a ≤ 0xFFFFFF10FFFFFFFF then .priv (bitsOf a 31 0)
  else if 0xFFFFFF2000000000 ≤ a ∧ a ≤ 0xFFFFFF20003FFFFF then .mirror (bitsOf a 21 0)
  else if 0xFFFFFF3000000000 ≤ a ∧ a ≤ 0xFFFFFF30FFFFFFFF then .sync (bitsOf a 31 0)
  else if 0xFFFFFFF000000000 ≤ a ∧ a < 2 ^ 64 then .device (a - 0xFFFFFFF000000000)
  else .none

def Ap.number : Ap → Nat
  | .glob => 0
  | .remote .. => 1
  | .loc .. => 2
  | .priv _ => 3
  | .mirror _ => 4
  | .sync _ => 5
  | .device _ => 6
  | .none => 7

def Ap.win : Ap → Nat
  | .remote _ w _ => w
  | .loc w _ => w
  | _ => 0

/-- Kinds of access of the tables of 08 (R203 to R210). -/
inductive Acs where
  | ld | st | lda | stl | ldsy | vld | vst | vldsy
  deriving DecidableEq, Repr

def Acs.store : Acs → Bool
  | .st => true
  | .stl => true
  | .vst => true
  | _ => false

/-- Who accesses: a context now, or the context that issued an engine command, with the privilege and descriptors
captured (18 R426, 04 R107). -/
structure Issuer where
  core : Nat
  ctx : Nat
  priv : Nat
  wd5 : Word
  wd6 : Word
  wd7 : Word
  ahead : Bool
  deriving DecidableEq, Repr

def issuer (s : State) : Issuer :=
  let c := me s
  { core := myId s, ctx := myN s, priv := c.priv.toNat, wd5 := c.regs.wd5, wd6 := c.regs.wd6, wd7 := c.regs.wd7,
    ahead := c.ra.isSome }

/-! Windows (04 Table 4.3) -/

/-- Offset units of one element. -/
def winUnit (w : Nat) : Nat := if w = 0 then 4 else if w = 1 ∨ w = 2 ∨ w = 7 then 2 else 1

/-- Offset units that an access of a size covers: raw bytes, or an element for each 4 bytes of register. -/
def winSpan (w size : Nat) : Nat := if w = 0 then size else (if size = 8 then 2 else 1) * winUnit w

/-- The swizzle (04 R109) (in part DEDUCED, log 26). -/
def xs1 (o : Nat) : Nat := Nat.xor o (o / 256 % 32 * 4)
def swz (x : Bool) (o : Nat) : Nat := if x then xs1 o else o

/-- Fields of a descriptor of windows 5 and 6 (04 Table 4.4). -/
def wdEn (d : Word) : Bool := d.getLsbD 63
def wdGroup (d : Word) : Nat := 32 * 2 ^ bitsOf d.toNat 53 52
def wdRlen (d : Word) : Nat := bitsOf d.toNat 51 38
def wdRbase (d : Word) : Nat := bitsOf d.toNat 37 19
def wdDbase (d : Word) : Nat := bitsOf d.toNat 18 0
def wdRegion (d : Word) : Nat := bitsOf d.toNat 3 0

def Issuer.desc (q : Issuer) (w : Nat) : Word := if w = 5 then q.wd5 else if w = 6 then q.wd6 else q.wd7

/-- Element index and record offset of an offset in window 5 or 6 (04 R104); none: below the data base. -/
def quantAt (d : Word) (w o : Nat) : Option (Nat × Nat) :=
  let base := if w = 5 then wdDbase d else 2 * wdDbase d
  if o < base then none
  else
    let i := o - base
    let r := wdRlen d
    let g := wdGroup d
    some (i, wdRbase d + 4 * (i / r * (r / g) + i % r / g))

/-- Row stride and row offset of a plastic region (03 R86). -/
def rowStride (cols : Nat) : Nat := 8 + 8 * ((cols + 1) / 2)
def rowAt (r : Region) (row : Nat) : Nat := r.base + row * rowStride r.cols
def entryAt (r : Region) (row col : Nat) : Nat := rowAt r row + 8 + 4 * col

def regionOf (s : State) (c n : Nat) : Option Region := mget (getCore s c).regions n none

/-! The checks of one address, in the order of 04 R95 -/

/-- 1: all bytes in one aperture that exists. -/
def chkMember (size a : Nat) : Option Trap :=
  let ap := apOf a
  let last := apOf (a + winSpan ap.win size - 1)
  if ap = .none ∨ ap.number ≠ last.number then some (tAPERTURE a)
  else match ap with
    | .remote c .. => if validCore c then none else some (tAPERTURE a)
    | _ => none

/-- 2: device space is for system and firmware. -/
def chkPriv (q : Issuer) (a : Nat) : Option Trap :=
  match apOf a with
  | .device _ => if q.priv = 0 then some (tAPERTURE a) else none
  | _ => none

/-- 3: the access class (04 Table 4.2, 08 R204 to R210). Here stands the ILLEGAL that those rules give by window, and a
store through window 7 of the remote aperture raises APERTURE (the spec leaves both open; DESIGN CHOICE, log 40). -/
def chkClass (s : State) (q : Issuer) (k : Acs) (size : Nat) (sx x : Bool) (a : Nat) : Option Trap :=
  let ap := apOf a
  let w := ap.win
  let sp := match ap with
    | .loc .. => true
    | .remote .. => true
    | _ => false
  let bad : Option Trap := match k, ap with
    | .ldsy, .loc .. => none
    | .vldsy, .loc .. => none
    | .ldsy, _ => some (tAPERTURE a)
    | .vldsy, _ => some (tAPERTURE a)
    | .st, .mirror _ => some (mkTrap 0x0B a)
    | .stl, .mirror _ => some (mkTrap 0x0B a)
    | .vst, .mirror _ => some (mkTrap 0x0B a)
    | .lda, .priv _ => some (tAPERTURE a)
    | .stl, .priv _ => some (tAPERTURE a)
    | .lda, .device _ => some (tAPERTURE a)
    | .stl, .device _ => some (tAPERTURE a)
    | .vld, .sync _ => some (tAPERTURE a)
    | .vst, .sync _ => some (tAPERTURE a)
    | .vld, .device _ => some (tAPERTURE a)
    | .vst, .device _ => some (tAPERTURE a)
    | .st, .loc 7 _ => some (mkTrap 0x09 a)
    | .vst, .loc 7 _ => some (mkTrap 0x09 a)
    | _, .remote _ w _ => if 5 ≤ w then some (tAPERTURE a) else none
    | _, .mirror _ => if (getLayer s (layerIn s q.core)).stale then some (mkTrap 0x0C a) else none
    | _, _ => none
  if (x && (!sp || decide (5 ≤ w))) || (w != 0 && (size < 4 || sx || k == .lda || k == .stl)) then some tILLEGAL
  else bad

/-- 4: the descriptor of windows 5 to 7 (04 R103, R105). -/
def chkDesc (s : State) (q : Issuer) (a : Nat) : Option Trap :=
  match apOf a with
  | .loc w _ =>
    if w < 5 then none
    else if !wdEn (q.desc w) then some (mkTrap 0x0A a)
    else if w = 7 ∧ regionOf s q.core (wdRegion q.wd7) = none then some (mkTrap 0x0A a)
    else none
  | _ => none

/-- Whether one element of window 5, 6 or 7 is in range (04 R102, R104, R105). -/
def elemInRange (s : State) (q : Issuer) (w o : Nat) : Bool :=
  let sz := coreSp s q.core
  if w = 7 then
    match regionOf s q.core (wdRegion q.wd7) with
    | none => false
    | some r => decide (o / 2 / r.cols < r.rows) && decide (entryAt r (o / 2 / r.cols) (o / 2 % r.cols) + 2 ≤ sz)
  else
    match quantAt (q.desc w) w o with
    | none => false
    | some (_, rec) => decide ((if w = 6 then o / 2 else o) < sz) && decide (rec + 4 ≤ sz)

/-- 5: the offset range (04 R96, R102). A posted store is checked at its target. -/
def chkRange (s : State) (q : Issuer) (k : Acs) (size a : Nat) : Option Trap :=
  match apOf a with
  | .loc w o =>
    let ok := if w < 5 then decide (o + winSpan w size ≤ coreSp s q.core)
      else elemInRange s q w o && (size != 8 || elemInRange s q w (o + winUnit w))
    if ok then none else some (tAPERTURE a)
  | .remote c w o =>
    if k.store || decide (o + winSpan w size ≤ coreSp s c) then none else some (tAPERTURE a)
  | .priv o =>
    let sh := shareOf (getCore s q.core).pword
    let top := (getCtx s q.core q.ctx).ovp.toNat + (o + size - 1 - sh)
    if o + size ≤ sh ∨ top < 0x0100000000000000 then none else some (tAPERTURE a)
  | _ => none

/-- 6: alignment (04 R94, 08 R205, R206, R210). -/
def chkAlign (k : Acs) (size a : Nat) : Option Trap :=
  let ap := apOf a
  let w := ap.win
  let unit : Nat := match k, ap with
    | .lda, _ => size
    | .stl, _ => size
    | .ldsy, _ => if w = 0 then size else winUnit w
    | .vld, _ => winUnit w
    | .vst, _ => winUnit w
    | .vldsy, _ => winUnit w
    | _, .sync _ => size
    | _, .device _ => 1
    | _, _ => if w = 0 then 1 else winUnit w
  if a % unit = 0 then none else some (tMISALIGNED a)

/-! Places -/

/-- What an address of an access stands for, once checked. -/
inductive Acc where
  | els (l : List El)
  | sync (off : Nat)
  | device (off : Nat)
  deriving DecidableEq, Repr

/-- The global pieces that an access at an address translates: of the global aperture, or of the private overflow. -/
def globalPart (s : State) (q : Issuer) (size a : Nat) : List (Nat × Nat) :=
  match apOf a with
  | .glob => pieces a size
  | .priv o =>
    let sh := shareOf (getCore s q.core).pword
    let ovp := (getCtx s q.core q.ctx).ovp.toNat
    if o + size ≤ sh then []
    else if o < sh then pieces ovp (o + size - sh)
    else pieces (ovp + (o - sh)) size
  | _ => []

/-- The global pieces of each lane of an access that has any. -/
def laneWalks (s : State) (q : Issuer) (size : Nat) (lanes : List (Nat × Nat)) : List (Nat × List (Nat × Nat)) :=
  (lanes.map fun l => (l.1, globalPart s q size l.2)).filter fun l => !l.2.isEmpty

/-- One element of a scratchpad window at an offset (in part DEDUCED, log 26). -/
def winEl (s : State) (q : Issuer) (c w : Nat) (x : Bool) (o size : Nat) : El :=
  if w = 0 then .raw ((List.range size).map fun i => .pool c (swz x (o + i)))
  else if w < 5 then .fp w ((List.range (winUnit w)).map fun i => .pool c (swz x (o + i)))
  else if w = 7 then
    match regionOf s c (wdRegion q.wd7) with
    | none => .raw []
    | some r =>
      let row := o / 2 / r.cols
      .plast c (wdRegion q.wd7) row (poolPlaces c (entryAt r row (o / 2 % r.cols)) 2)
  else
    match quantAt (q.desc w) w o with
    | none => .raw []
    | some (_, rec) =>
      .quant (w == 6) (.pool c (if w = 6 then o / 2 else o)) (w == 6 && o % 2 == 1) (poolPlaces c rec 4)

/-- The elements of an access at an address, given the physical addresses of its translated bytes. -/
def accOf (s : State) (q : Issuer) (size : Nat) (x : Bool) (a : Nat) (pas : List Nat) : Acc :=
  match apOf a with
  | .glob => .els [.raw (pas.map Place.hbm)]
  | .remote c w o =>
    if w ≠ 0 ∧ size = 8 then .els [winEl s q c w x o 4, winEl s q c w x (o + winUnit w) 4]
    else .els [winEl s q c w x o size]
  | .loc w o =>
    if w ≠ 0 ∧ size = 8 then .els [winEl s q q.core w x o 4, winEl s q q.core w x (o + winUnit w) 4]
    else .els [winEl s q q.core w x o size]
  | .priv o =>
    let k := getCore s q.core
    let sh := shareOf k.pword
    let low := (List.range size).filterMap fun i =>
      if o + i < sh then some (Place.pool q.core (spSize k.pword + q.ctx * sh + o + i)) else none
    .els [.raw (low ++ pas.map fun pa => .fwd q.core q.ctx pa)]
  | .mirror o => .els [.raw ((List.range size).map fun i => .mirror (layerIn s q.core) (o + i))]
  | .sync o => .sync o
  | .device o => .device o
  | .none => .els []

/-- A batch entry (18 Table 18.7). -/
def batchEntry (va kind level : Nat) (wr fetch : Bool) : Word :=
  word (bitsOf va 55 12 * 4096 + level * 512 + b2n wr * 32 + b2n fetch * 16 + kind)

/-- Keep the first entry of each page. -/
def onePerPage (l : List Word) : List Word :=
  l.foldl (fun acc e => if acc.any fun f => f.toNat / 4096 == e.toNat / 4096 then acc else acc ++ [e]) []

/-- The page fault of a list of translated pieces: FADDR is the lowest faulting address; its page is the first entry,
the others follow in the order found (18 R387, R388, R390). -/
def pageFault (wr : Bool) (ts : List (Nat × Nat × TRes)) : Option Trap :=
  let fs := ts.filterMap fun t => match t.2.2 with
    | .fault k l => some (t.1, k, l)
    | _ => none
  match fs with
  | [] => none
  | f :: r =>
    let low := r.foldl (fun m g => if g.1 < m.1 then g else m) f
    let es := fs.map fun g => batchEntry g.1 g.2.1 g.2.2 wr false
    some { mkTrap 0x07 low.1 with pages := onePerPage (batchEntry low.1 low.2.1 low.2.2 wr false :: es) }

def isUnplaced (ts : List (Nat × Nat × TRes)) : Bool :=
  ts.any fun t => t.2.2 == .unplaced

/-- The parties that read through a failed pair of modules (20 R412): their loads raise UNCORRECTABLE. -/
def badPa (s : State) (part pa : Nat) : Bool := badByte s pa || peerFailed s part pa

/-- Translate the pieces of each lane in order. -/
def lanePieces (q : Issuer) (k : AK) : List (Nat × List (Nat × Nat)) → State →
    State × List (Nat × List (Nat × Nat × TRes))
  | [], s => (s, [])
  | (lane, ps) :: r, s =>
    let (s, ts) := transPieces q.core q.priv q.ahead k ps s
    let (s, rest) := lanePieces q k r s
    (s, (lane, ts) :: rest)

/-- Check every lane's address in the order of R95 and resolve it. Lanes are (lane, address) (in part DEDUCED, log 26). -/
def resolve (s : State) (q : Issuer) (k : Acs) (size : Nat) (sx x : Bool) (lanes : List (Nat × Nat)) :
    State × Except Fail (List (Nat × Acc)) :=
  let first (f : Nat → Option Trap) : Option Trap := lanes.findSome? fun l => f l.2
  let early := (first (chkMember size)).orElse fun _ => (first (chkPriv q)).orElse fun _ =>
    (first (chkClass s q k size sx x)).orElse fun _ => (first (chkDesc s q)).orElse fun _ =>
    (first (chkRange s q k size)).orElse fun _ => first (chkAlign k size)
  match early with
  | some t => (s, .error (.trap t))
  | none =>
    let kind : AK := if k.store then .write else .read
    let (s, lts) := lanePieces q kind (lanes.map fun l => (l.1, globalPart s q size l.2)) s
    let all := lts.flatMap (·.2)
    match pageFault k.store all with
    | some t => (s, .error (.trap t))
    | none =>
      if isUnplaced all then (s, .error .unplaced)
      else
        let accs := (lanes.zip lts).map fun p => (p.1.1, accOf s q size x p.1.2 (pasOf p.2.2))
        let bad := if k.store then none else lanes.zip lts |>.findSome? fun p =>
          if (pasOf p.2.2).any (badPa s (partOf s q.core)) then some p.1.2 else none
        match bad with
        | some a => (noteBad s (lts.flatMap fun p => pasOf p.2), .error (.trap (mkTrap 0x11 a)))
        | none => (s, .ok accs)

/-! Reading and writing elements -/

/-- The value of an element of a load: its bytes, or the FP32 it widens to, with flags (04 R101). -/
def readEl (s : State) (e : El) : Bits :=
  match e with
  | .raw ps => (readPlaces s ps, 0)
  | .fp w ps => widen (winFmt w) (readPlaces s ps)
  | .quant i4 code hi rec =>
    let b := (readPlace s code).toNat
    quantDecode i4 (if i4 then (if hi then b / 16 else b % 16) else b) (readPlaces s rec)
  | .plast _ _ _ ps => widen fp16 (readPlaces s ps)

/-- The bytes that a store of a value writes to an element, with flags. -/
def writeEl (s : State) (e : El) (v : Nat) : List (Place × Byte) × FFlags :=
  match e with
  | .raw ps => (ps.zip (toLe ps.length v), 0)
  | .fp w ps =>
    let (b, f) := narrow (winFmt w) .rne v
    (ps.zip (toLe ps.length b), f)
  | .quant i4 code hi rec =>
    let (q, f) := quantEncode i4 .rne (fp32.decode (v % 2 ^ 32)) (readPlaces s rec)
    let old := (readPlace s code).toNat
    let b := if i4 then (if hi then old % 16 + 16 * (q % 16) else old / 16 * 16 + q % 16) else q
    ([(code, BitVec.ofNat 8 b)], f)
  | .plast .. => ([], 0)

/-! Engine accesses outside windows 5 to 7: the global aperture and window 0 -/

/-- Why an engine's access failed: status of 16 Table 16.6 and the address. -/
abbrev EFail := Nat × Nat

/-- A read of elements for a partition. -/
def touchEls (s : State) (part : Nat) (els : List El) : State := touch s part (els.flatMap elPlaces)

/-- The places of n bytes at a generic address for an engine command: global, window 0 of a scratchpad aperture, or the mirror
for a read; local names the given core. What does not lie whole in one of them (04 R92, R93, R98) fails with REMOTE_RANGE,
since Table 16.6 has no code for APERTURE (DESIGN CHOICE, log 29). -/
def enginePlaces (s : State) (c priv : Nat) (k : AK) (a n : Nat) : State × Except EFail (List Place) :=
  match apOf a with
  | .glob =>
    if 2 ^ 56 < a + n then (s, .error (3, a))
    else match transRange s c priv k a n with
    | (s, .error f) => (s, .error (1, f.1))
    | (s, .ok pas) =>
      if k != .write && pas.any (badPa s (partOf s c)) then (noteBad s pas, .error (4, a))
      else (s, .ok (pas.map Place.hbm))
  | .loc 0 o => if o + n ≤ coreSp s c then (s, .ok (poolPlaces c o n)) else (s, .error (3, a))
  | .remote t 0 o =>
    if validCore t && decide (o + n ≤ coreSp s t) then (s, .ok (poolPlaces t o n)) else (s, .error (3, a))
  | .mirror o =>
    if k == .write || decide (2 ^ 22 < o + n) then (s, .error (3, a))
    else (s, .ok ((List.range n).map fun i => .mirror (layerIn s c) (o + i)))
  | _ => (s, .error (3, a))

/-- The same of an item of a retrieval table: global memory, or window 0 of a scratchpad aperture (09 R247). -/
def tablePlaces (s : State) (c priv : Nat) (k : AK) (a n : Nat) : State × Except EFail (List Place) :=
  match apOf a with
  | .mirror _ => (s, .error (3, a))
  | _ => enginePlaces s c priv k a n

/-- The same for bytes that the engine reads now. -/
def engineRead (s : State) (c priv : Nat) (a n : Nat) : State × Except EFail (List Place) :=
  match enginePlaces s c priv .read a n with
  | (s, .ok ps) => (touch s (partOf s c) ps, .ok ps)
  | r => r

/-- A table item read now. -/
def tableRead (s : State) (c priv : Nat) (a n : Nat) : State × Except EFail (List Place) :=
  match tablePlaces s c priv .read a n with
  | (s, .ok ps) => (touch s (partOf s c) ps, .ok ps)
  | r => r

end Sys2Proof.Machine
end

