-- ==== Sys2Proof/Machine/Trace.lean ====
section
/-! DEFINITION. The trace unit: fading rates, advances, reads, clears and rewards on the rows of plastic regions (03 R86
to R91, 10 R261 to R277). -/

namespace Sys2Proof.Machine

/-- The power table of a rate, with the flags of the squarings (03 R87). -/
def powerTable : Nat → Nat → List (BitVec 32) × FFlags
  | 0, _ => ([], 0)
  | n + 1, p =>
    let (sq, f) := mul32 p p
    let (r, g) := powerTable n sq
    (BitVec.ofNat 32 p :: r, if n = 0 then 0 else f ||| g)

/-- Λ(Δ) (03 R87), from the low bit up. -/
def decayFrom : List (BitVec 32) → Nat → Nat → FFlags → Bits
  | [], _, acc, f => (acc, f)
  | p :: r, d, acc, f =>
    if d % 2 = 1 then
      let (v, g) := mul32 acc p.toNat
      decayFrom r (d / 2) v (f ||| g)
    else decayFrom r (d / 2) acc f

/-- 1.0 in FP32. -/
def one32 : Nat := 0x3F800000

def slotOf (k : Core) (n : Nat) : RateSlot := mget k.slots n RateSlot.reset
def decay (k : Core) (slot delta : Nat) : Bits := decayFrom (slotOf k slot).tab delta one32 0

/-- fp32(e) × Λ, exact. -/
def traceProduct (e lam : Nat) : FRes := fMul (fp16.decode e) (fp32.decode lam)

/-- The trace brought to the present step: RN16 of the product (03 R88). -/
def traceRead (e lam : Nat) : Bits :=
  let p := traceProduct e lam
  fp16.encode .rne false p.1 p.2

/-- An advance of one trace (03 R89). -/
def traceAdvance (e lam pre post : Nat) : Bits :=
  let (u, f1) := mul32 pre post
  let p := traceProduct e lam
  let (t, f2) := rn32 p.1 p.2
  let r := fAdd (fp32.decode t) (fp32.decode u)
  let (v, f3) := fp16.encode .rne false r.1 r.2
  (v, f1 ||| f2 ||| f3)

/-- a ≥ b as real numbers; false for a NaN. -/
def fGe (a b : FVal) : Bool :=
  match a, b with
  | .nan _, _ => false
  | _, .nan _ => false
  | .inf x, .inf y => !x || y
  | .inf x, _ => !x
  | _, .inf y => y
  | .num x, .num y => !(x.lt y)

/-- The weight and DACC after a reward (03 R90). -/
def rewardEntry (g lam w e dacc : Nat) : (Nat × Nat) × FFlags :=
  let (en, f1) := traceRead e lam
  let p := fMul (fp32.decode g) (fp16.decode en)
  let (d, f2) := rn32 p.1 p.2
  let sm := fAdd (fp16.decode w) (fp32.decode d)
  let (w', f3) := fp16.encode .rne false sm.1 sm.2
  let df := fAdd (fp16.decode w') (fp16.decode w).negate
  let mag : FVal := match df.1 with
    | .nan s => .nan s
    | .inf _ => .inf false
    | .num d => .num { d with neg := false }
  let acc := fAdd (fp16.decode dacc) mag
  let (dacc', f4) := fp16.encode .rne false acc.1 (df.2 ||| acc.2)
  ((w', dacc'), f1 ||| f2 ||| f3 ||| f4)

/-! Row headers (03 Table 3.7) -/

structure RowHead where
  stamp : Nat
  rseq : Nat
  dacc : Nat
  dirty : Bool
  rpt : Bool
  deriving DecidableEq, Repr

def headOf (w : Nat) : RowHead where
  stamp := bitsOf w 23 0
  rseq := bitsOf w 31 24
  dacc := bitsOf w 47 32
  dirty := bitOf w 48
  rpt := bitOf w 49

def headWord (h : RowHead) : Nat :=
  h.stamp % 2 ^ 24 + h.rseq % 256 * 2 ^ 24 + h.dacc % 65536 * 2 ^ 32 + b2n h.dirty * 2 ^ 48 + b2n h.rpt * 2 ^ 49

/-- The trace unit works within the scratchpad: of a region that a later partition word has left beyond it, the bytes past
the size read 0 and take no write (01 R37; the spec does not say what they read: DESIGN CHOICE, log 30). -/
def readPool (s : State) (c off n : Nat) : Nat :=
  let size := coreSp s c
  fromLe ((List.range n).map fun i => if off + i < size then readPlace s (.pool c (off + i)) else 0)
def writePoolN (s : State) (c off n v : Nat) : State :=
  let size := coreSp s c
  writePlaces s (((poolPlaces c off n).zip (toLe n v)).take (size - off))

def readHead (s : State) (c : Nat) (r : Region) (row : Nat) : RowHead := headOf (readPool s c (rowAt r row) 8)
def writeHead (s : State) (c : Nat) (r : Region) (row : Nat) (h : RowHead) : State :=
  writePoolN s c (rowAt r row) 8 (headWord h)

def tflag (s : State) (c : Nat) (f : FFlags) : State := modCore s c fun k => { k with tflags := k.tflags ||| f }

/-- Apply a function to the entries of a row in ascending column: it maps column, weight, trace and an accumulator. -/
def foldRow (s : State) (c : Nat) (r : Region) (row : Nat) (acc : Nat)
    (f : Nat → Nat → Nat → Nat → (Nat × Nat × Nat) × FFlags) : State × Nat :=
  let step := fun (st : State × Nat × FFlags) (col : Nat) =>
    let e := readPool st.1 c (entryAt r row col) 4
    let ((w, t, a), g) := f col (e % 65536) (e / 65536) st.2.1
    (writePoolN st.1 c (entryAt r row col) 4 (w % 65536 + t % 65536 * 65536), a, st.2.2 ||| g)
  let (s, a, g) := (List.range r.cols).foldl step (s, acc, (0 : FFlags))
  (tflag s c g, a)

def deltaOf (n stamp : Nat) : Nat := (n + 2 ^ 24 - stamp) % 2 ^ 24

/-- Bring every trace of a row to step n (03 R89, 10 R265). -/
def normaliseRow (s : State) (c : Nat) (r : Region) (row n : Nat) : State :=
  let h := readHead s c r row
  let (lam, f) := decay (getCore s c) r.slot (deltaOf n h.stamp)
  let (s, _) := foldRow s c r row 0 fun _ w e _ =>
    let (t, g) := traceRead e lam
    ((w, t, 0), g)
  writeHead (tflag s c f) c r row { h with stamp := n }

/-- TADV on one row: columns col0 to col0 + pre.length − 1 advance, the others come to step n (03 R89). -/
def advanceRow (s : State) (c : Nat) (r : Region) (row n col0 post : Nat) (pre : List (BitVec 32)) : State :=
  let h := readHead s c r row
  let (lam, f) := decay (getCore s c) r.slot (deltaOf n h.stamp)
  let (s, _) := foldRow s c r row 0 fun col w e _ =>
    if col0 ≤ col ∧ col < col0 + pre.length then
      let (t, g) := traceAdvance e lam (pre.getD (col - col0) 0).toNat post
      ((w, t, 0), g)
    else if h.stamp = n then ((w, e, 0), 0)
    else
      let (t, g) := traceRead e lam
      ((w, t, 0), g)
  writeHead (tflag s c f) c r row { h with stamp := n }

/-! Reports to a retrieval unit's dirty bitmap (10 R275, 09 R256) -/

def descOf (s : State) (c hf : Nat) : Option RDesc := mget (getCluster s (clusterOf c)).descs hf none
def blockField (d : RDesc) (hi lo : Nat) : Nat := bitsOf d.block.toNat hi lo
def descThr (d : RDesc) : Nat := blockField d 527 512
def descDbm (d : RDesc) : Nat := blockField d 511 448

/-- An atomic OR (set) or AND (clear) of bits with an aligned doubleword at its home: in this module at once, at a peer by a
packet of its own, which names the bytes that it changes and is performed there in its turn; the answer is the number of that
packet. Table 20.3 names no such kind: it is a store of kind 1 that says so (DESIGN CHOICE, log 12). -/
def atomicBits (s : State) (c n : Nat) (gen : BitVec 16) (ps : List Place) (op : BitOp) (bits : Nat) : State × Option Nat :=
  if ps.any isFar then
    let bs := (ps.zip (toLe 8 bits)).filterMap fun b => match b with
      | (.hbm pa, v) => if v = 0 then none else some (pa, v)
      | _ => none
    let p := storePacket s 1 (bs.headD (0, 0)).1 bs
    (sendPacket s c n (partOf s c) gen none { p with op }, some s.serial)
  else
    let s := touch s (partOf s c) ps
    let v := readPlaces s ps
    (writePlaces s (ps.zip (toLe 8 (match op with
      | .set => Nat.lor v bits
      | .clear => v - Nat.land v bits
      | .store => bits))), none)

/-- The first place of a bitmap word, in a scratchpad. -/
def wordPlace (ps : List Place) : Option (Nat × Nat) :=
  match ps with
  | .pool t o :: _ => some (t, o)
  | _ => none

/-- Set bit r of the dirty bitmap by an atomic OR at the word's home (R256, R275), in the name of the core that sweeps; the
answer is the number under which it is on its way, to a peer or to a scratchpad whose stratum's clock has stopped (01 R26). The word
is translated for reading too, and one that cannot be read fails. -/
def dirtyOr (s : State) (c : Nat) (d : RDesc) (row : Nat) : State × Except EFail (Option (Nat × Option (Nat × Nat))) :=
  let a := descDbm d + 8 * (row / 64)
  match tablePlaces s d.core d.priv.toNat .read a 8 with
  | (s, .error e) => (s, .error e)
  | (s, .ok _) =>
    match tablePlaces s d.core d.priv.toNat .write a 8 with
    | (s, .error e) => (s, .error e)
    | (s, .ok ps) =>
      if placesStopped s c ps then ({ s with serial := s.serial + 1 }, .ok (some (s.serial, wordPlace ps)))
      else
        let r := atomicBits s c noCtx 0 ps .set (2 ^ (row % 64))
        (r.1, .ok (r.2.map fun id => (id, none)))

/-- Whether the report of a row is on its way to a bitmap at a peer. -/
def reporting (k : Core) (reg row : Nat) : Bool := k.reports.any fun e => e.sets && e.region == reg && e.row == row

/-- Reports on their way for rows whose header has been cleared set no RPT any more. -/
def voidReports (s : State) (c : Nat) (gone : Nat → Nat → Bool) : State :=
  modCore s c fun k => { k with reports := k.reports.map fun e => if gone e.region e.row then { e with sets := false } else e }

/-- The record of a report that failed (R275). -/
def reportRecord (s : State) (c : Nat) (seq : BitVec 32) (addr status : Nat) : State :=
  logRecord s c { extra := seq.toNat, addr, done := 0, gen := 0, tag := 0, status, kind := 6, ctx := 0, src := c }

/-- One reward swept through one row (03 R90, 10 R273, R275). DIRTY and the report are decided after each entry's update:
the accumulator holds DACC, then DIRTY in bit 16 and whether the row is to be reported in bit 17. -/
def sweepRow (s : State) (c reg row : Nat) (seq : BitVec 32) (clear : Bool) (rho : BitVec 32) (n : Nat) : State :=
  match regionOf s c reg with
  | none => s
  | some r =>
    let h := readHead s c r row
    let (g, fg) := mul32 r.eta.toNat rho.toNat
    let (lam, fl) := decay (getCore s c) r.slot (deltaOf n h.stamp)
    let desc := if r.hen && !h.rpt && !reporting (getCore s c) reg row then (descOf s c r.hf).filter fun d => descDbm d != 0 else none
    let (s, acc) := foldRow s c r row (h.dacc + b2n h.dirty * 65536) fun _ w e acc =>
      let ((w', d), f) := rewardEntry g lam w e (acc % 65536)
      let passes (thr : Nat) : Bool := fGe (fp16.decode d) (fp16.decode thr)
      let dirty := acc / 65536 % 2 == 1 || passes r.thr.toNat
      let report := acc / 131072 == 1 || (desc.map fun x => passes (descThr x)).getD false
      ((w', if clear then 0 else e, d + b2n dirty * 65536 + b2n report * 131072), f)
    let s := tflag s c (fg ||| fl)
    let h' := { h with dacc := acc % 65536, rseq := seq.toNat % 256, stamp := if clear then n else h.stamp,
                       dirty := acc / 65536 % 2 == 1 }
    let s := writeHead s c r row h'
    match (if acc / 131072 = 1 then desc else none) with
    | none => s
    | some d =>
      match dirtyOr s c d row with
      | (s, .ok none) => writeHead s c r row { h' with rpt := true }
      | (s, .ok (some (id, place))) => modCore s c fun k => { k with reports := k.reports ++
          [{ region := reg, row, packet := id, seq, addr := descDbm d + 8 * (row / 64), sets := true, place }] }
      | (s, .error e) => reportRecord s c seq e.2 e.1

/-! The list of operations and rewards in the order of 10 R271 -/

def isRewardItem : TItem → Bool
  | .reward .. => true
  | .cmd .. => false

def isCmd : TItem → Bool
  | .cmd .. => true
  | .reward .. => false

def opRegions : TOp → List Nat
  | .step n => [n]
  | .adv n .. => [n]
  | .read n .. => [n]
  | .clrE n .. => [n]
  | .clrD n .. => [n]
  | .stamp _ ns => ns

/-- The regions that an operation or a reward names. -/
def itemRegions : TItem → List Nat
  | .cmd _ _ _ op => opRegions op
  | .reward _ _ _ _ _ regs _ _ => regs

/-- An operation on a region. -/
def namesRegion (reg : Nat) (t : TItem) : Bool := isCmd t && (itemRegions t).contains reg

def rewardsPending (k : Core) : Nat := (k.tl.filter isRewardItem).length

/-- Commands in the queue; the stamps of loads take no room in it. -/
def cmdsPending (k : Core) : Nat := (k.tl.filter fun t => match t with
  | .cmd _ _ _ (.stamp ..) => false
  | t => isCmd t).length

/-- The steps of the regions of rewards that have no operation on that region before them (10 R272). named: the regions
that the operations met so far name. -/
def captureSteps (k : Core) (named : List Nat) : List TItem → List TItem
  | [] => []
  | .cmd a b c o :: r => .cmd a b c o :: captureSteps k (named ++ opRegions o) r
  | .reward q m c p h regs st sw :: r =>
    let new := regs.filter fun n => !named.contains n && !st.any fun e => e.1 == n
    .reward q m c p h regs (st ++ new.map fun n => (n, (mget k.regions n none).elim 0 (·.n))) sw :: captureSteps k named r

/-- The steps of the rewards of a core, as far as they stand. -/
def capture (s : State) (c : Nat) : State := modCore s c fun k => { k with tl := captureSteps k [] k.tl }

/-- Sweep one row with one pending reward of the list, unless that is done (10 R273). -/
def sweepItem (s : State) (c reg row : Nat) (t : TItem) : State × TItem :=
  match t with
  | .cmd .. => (s, t)
  | .reward q m cl p h regs st sw =>
    if regs.contains reg && !sw.contains (reg, row) then
      let n := ((st.find? fun x => x.1 == reg).map (·.2)).getD 0
      (sweepRow s c reg row q cl p n.toNat, .reward q m cl p h regs st (sw ++ [(reg, row)]))
    else (s, t)

/-- Rows of a reward that are not swept yet, in the order of 10 R273. -/
def unsweptRow (k : Core) (regs : List Nat) (sw : List (Nat × Nat)) : Option (Nat × Nat) :=
  regs.findSome? fun g =>
    match mget k.regions g none with
    | none => none
    | some r => ((List.range r.rows).find? fun row => !sw.contains (g, row)).map fun row => (g, row)

/-- Rewards with no row left are applied and leave the list, once the reports of their rows have reached the bitmap (13
R324). -/
def dropSwept (k : Core) : Core :=
  { k with tl := k.tl.filter fun t => match t with
      | .reward q _ _ _ _ regs _ sw => (unsweptRow k regs sw).isSome || k.reports.any fun e => e.seq == q
      | .cmd .. => true }

/-- A report is no longer on its way; its reward may be applied with it (13 R324). -/
def closeReport (s : State) (c : Nat) (e : RowReport) : State :=
  modCore s c fun k => dropSwept { k with reports := k.reports.filter fun x => x.packet != e.packet }

/-- The OR of a report has been performed at the bitmap's home: the row's header says so. -/
def reportPerformed (s : State) (c : Nat) (e : RowReport) : State :=
  let t := closeReport s c e
  match (if e.sets then regionOf t c e.region else none) with
  | none => t
  | some r => writeHead t c r e.row { readHead t c r e.row with rpt := true }

/-- A report that a stopped clock has held arrives at its bitmap word, unless that no longer exists. -/
def landReport (s : State) (c : Nat) (e : RowReport) (t o : Nat) : State :=
  if o + 8 ≤ coreSp s t then reportPerformed (atomicBits s c noCtx 0 (poolPlaces t o 8) .set (2 ^ (e.row % 64))).1 c e
  else closeReport (reportRecord s c e.seq e.addr 3) c e

/-- The clock of a stratum runs again: the reports that are held on their way to its scratchpads arrive (01 R26). -/
def landReports (s : State) (z : Nat) : State :=
  s.cores.foldl (fun s k => k.2.reports.foldl (fun s e => match e.place with
    | some (t, o) => if layerOf t = z then landReport s k.1 e t o else s
    | none => s) s) s

/-- A priority sweep of a row: in sequence order, the rewards that no operation on its region stands before. -/
def sweepLead (s : State) (c reg row : Nat) : List TItem → State × List TItem
  | [] => (s, [])
  | t :: r =>
    if namesRegion reg t then (s, t :: r)
    else
      let (s, t') := sweepItem s c reg row t
      let (s, r') := sweepLead s c reg row r
      (s, t' :: r')

def prioritySweep (s : State) (c reg row : Nat) : State :=
  let s := capture s c
  let (s, tl) := sweepLead s c reg row (getCore s c).tl
  modCore s c fun k => dropSwept { k with tl }

def sweepRows (s : State) (c reg row0 n : Nat) : State :=
  (List.range n).foldl (fun s i => prioritySweep s c reg (row0 + i)) s

def setStep (s : State) (c reg : Nat) (n : BitVec 24) : State :=
  modCore s c fun k => { k with regions := mset k.regions reg ((mget k.regions reg none).map fun r => { r with n }) }

/-- A request answered: the waiting context goes on (02 R58). -/
def answer (s : State) (c n id : Nat) : State :=
  modCtx s c n fun x => match x.await with
    | some w => if w.id = id then { x with await := some { w with done := true } } else x
    | none => x

/-- The effect of a command on its region at the region's step (10 R265, R268 to R270). A TSTEP at 2^24 − 1 rebases the rows
to step 0 and then advances by one, so that it adds a step as every other does (DEDUCED, log 30). -/
def applyTOp (s : State) (c ctx uid : Nat) (op : TOp) : State :=
  match op with
  | .step reg =>
    match regionOf s c reg with
    | none => s
    | some r =>
      if r.n.toNat = 2 ^ 24 - 1 then
        let s := sweepRows s c reg 0 r.rows
        let s := (List.range r.rows).foldl (fun s row =>
          let s := normaliseRow s c r row r.n.toNat
          writeHead s c r row { readHead s c r row with stamp := 0 }) s
        setStep s c reg 1
      else setStep s c reg (r.n + 1)
  | .adv reg row0 col0 pre post =>
    match regionOf s c reg with
    | none => s
    | some r =>
      let s := sweepRows s c reg row0 post.length
      (List.range post.length).foldl (fun s i =>
        advanceRow s c r (row0 + i) r.n.toNat col0 (post.getD i 0).toNat pre) s
  | .read reg row col nc d await =>
    match regionOf s c reg with
    | none => answer s c ctx await
    | some r =>
      let s := prioritySweep s c reg row
      let h := readHead s c r row
      let (lam, f) := decay (getCore s c) r.slot (deltaOf r.n.toNat h.stamp)
      let vals : List Bits := (List.range nc).map fun j =>
        let (t, g) := traceRead (readPool s c (entryAt r row (col + j)) 4 / 65536) lam
        let (v, g') := widen fp16 t
        (v, g ||| g')
      let s := tflag s c (vals.foldl (fun a v => a ||| v.2) f)
      if (getCtx s c ctx).uid = uid then
        let s := modCtx s c ctx fun x =>
          let old := x.regs.v.toList.getD d.toNat VWord.zero
          let new := mkV fun i => if i < nc then BitVec.ofNat 32 (vals.getD i (0, 0)).1 else lane old i
          { x with regs := { x.regs with v := x.regs.v.set d.toNat new d.isLt } }
        answer s c ctx await
      else s
  | .clrE reg row0 nr =>
    match regionOf s c reg with
    | none => s
    | some r =>
      let s := sweepRows s c reg row0 nr
      (List.range nr).foldl (fun s i =>
        let (s, _) := foldRow s c r (row0 + i) 0 fun _ w _ _ => ((w, 0, 0), 0)
        writeHead s c r (row0 + i) { readHead s c r (row0 + i) with stamp := r.n.toNat }) s
  | .clrD reg row0 nr =>
    match regionOf s c reg with
    | none => s
    | some r =>
      let s := sweepRows s c reg row0 nr
      let s := voidReports s c fun g row => g == reg && decide (row0 ≤ row) && decide (row < row0 + nr)
      (List.range nr).foldl (fun s i =>
        writeHead s c r (row0 + i) { readHead s c r (row0 + i) with dacc := 0, dirty := false, rpt := false }) s
  | .stamp .. => s

/-- The operation with a number leaves the list. -/
def delCmd (id : Nat) (l : List TItem) : List TItem := l.filter fun t => match t with
  | .cmd i .. => i != id
  | .reward .. => true

/-- The first operation that is free to be applied and follows no operation on its region that is not. free: whether
nothing holds it. -/
def firstCmd (free : TItem → Bool) : List Nat → List TItem → Option TItem
  | _, [] => none
  | shut, t :: r =>
    if isCmd t then
      if free t && !(itemRegions t).any shut.contains then some t else firstCmd free (shut ++ itemRegions t) r
    else firstCmd free shut r

/-- Apply an operation of the list (10 R271): the rewards before it keep the steps of their regions, the rows that it touches
are swept first. -/
def applyItem (s : State) (c : Nat) : TItem → State
  | .cmd id ctx uid op =>
    let s := capture s c
    -- its own place in the list ends the sweeps before it
    let s := applyTOp s c ctx uid op
    modCore s c fun k => { k with tl := delCmd id k.tl }
  | .reward .. => s

/-- Apply every operation of the list that is free, in order. -/
def applyCmds (s : State) (c : Nat) (free : TItem → Bool) : Nat → State
  | 0 => s
  | n + 1 => match firstCmd free [] (getCore s c).tl with
    | none => s
    | some t => applyCmds (applyItem s c t) c free n

/-- Every operation that is free takes effect. -/
def settleCmds (s : State) (c : Nat) (free : TItem → Bool) : State := applyCmds s c free (getCore s c).tl.length

/-- A row as the order of 10 R271 gives it to a reader that comes now: every command first, then a priority sweep of the
row (R105, R273, 09 R242) (in part DEDUCED, log 30). -/
def settleRow (s : State) (c reg row : Nat) (free : TItem → Bool) : State := prioritySweep (settleCmds s c free) c reg row

/-- What a trace unit turns to next: the first operation that is free, or the first row that a reward has not swept in a
region which no operation before it names; those of other regions are passed over. -/
def nextItem (k : Core) (free : TItem → Bool) : List Nat → List TItem → Option (TItem × Option (Nat × Nat))
  | _, [] => none
  | shut, .cmd i c u op :: r =>
    if free (.cmd i c u op) && !(opRegions op).any shut.contains then some (.cmd i c u op, none)
    else nextItem k free (shut ++ opRegions op) r
  | shut, .reward q m cl p h regs st sw :: r =>
    match unsweptRow k (regs.filter fun g => !shut.contains g) sw with
    | some row => some (.reward q m cl p h regs st sw, some row)
    | none => nextItem k free shut r

/-- Sweep the row that comes next (10 R271, R273). -/
def sweepNext (s : State) (c : Nat) (free : TItem → Bool) : State :=
  let s := capture s c
  let k := getCore s c
  match nextItem k free [] k.tl with
  | some (.reward q m cl p h regs st sw, some (g, row)) =>
    let (s, t) := sweepItem s c g row (.reward q m cl p h regs st sw)
    modCore s c fun k => dropSwept { k with tl := k.tl.map fun u => match u with
      | .reward q' .. => if q' = q then t else u
      | .cmd .. => u }
  | _ => modCore s c dropSwept

/-- Core cycles that the next row of a sweep takes: 64 entries in each (10 R273). -/
def sweepCycles (k : Core) (g : Nat) : Nat := (mget k.regions g none).elim 1 fun r => max 1 ((r.cols + 63) / 64)

/-- Regions that a reward covers: defined at its arrival, their group addressed (10 R272). -/
def coveredRegions (k : Core) (mask : BitVec 16) : List Nat :=
  (List.range 16).filter fun n => (mget k.regions n none).elim false fun r => mask.getLsbD r.group

/-- A reward in the list of one core (10 R271 to R274): overrun when 72 are pending (in part DEDUCED, log 30). -/
def rewardToCore (s : State) (c : Nat) (seq : BitVec 32) (mask : BitVec 16) (clear : Bool) (rho : BitVec 32)
    (hBefore : List (BitVec 32)) (overrun : Bool) (keep : BitVec 16) : State :=
  let k := getCore s c
  if overrun || rewardsPending k = 72 then
    let s := modCore s c fun k => { k with overrun := k.overrun ||| mask }
    logRecord s c { extra := seq.toNat, addr := mask.toNat, done := 0, gen := 0, tag := 0, status := 11, kind := 6, ctx := 0,
                    src := c }
  else
    let regs := (coveredRegions k mask).filter fun n =>
      (mget k.regions n none).elim false fun r => keep.getLsbD r.group
    let t : TItem := .reward seq mask clear rho hBefore regs [] []
    if regs.isEmpty then s else
    let s := modCore s c fun k => { k with tl := k.tl ++ [t] }
    capture s c

/-- H_g of a core: the latest reward addressing g that has arrived (10 R271). -/
def hOf (s : State) (c g : Nat) : BitVec 32 := mget (getLayer s (layerIn s c)).h g 0

/-- A_g: H_g, or H_g before the first pending reward that addresses g. -/
def aOf (s : State) (c g : Nat) : BitVec 32 :=
  ((getCore s c).tl.findSome? fun t => match t with
    | .reward _ m _ _ h _ _ _ => if m.getLsbD g then some (h.getD g 0) else none
    | .cmd .. => none).getD (hOf s c g)

/-- AC: the latest sequence number through which every arrived reward is applied (10 R271). -/
def acOf (s : State) (c : Nat) : BitVec 32 :=
  ((getCore s c).tl.findSome? fun t => match t with
    | .reward q _ _ _ _ regs _ _ => if regs.isEmpty then none else some (q - 1)
    | .cmd .. => none).getD (getLayer s (layerIn s c)).lastSeq

end Sys2Proof.Machine
end

