-- ==== Sys2Proof/Machine/Operands.lean ====
section
/-! DEFINITION. What each instruction reads and writes (06 R149 to R151) and how run-ahead takes it (18 Table 18.5). -/

namespace Sys2Proof.Machine

/-- A register source: s, v and q sources carry their W bit; p and x registers have no FE bit. -/
inductive Src where
  | s (r : SReg) (w : Bool)
  | v (r : VReg) (w : Bool)
  | q (r : QReg) (w : Bool)
  | p (r : PReg)
  | x (r : XReg)
  deriving DecidableEq, Repr

inductive Dst where
  | s (r : SReg)
  | v (r : VReg)
  | q (r : QReg)
  | p (r : PReg)
  | x (r : XReg)
  deriving DecidableEq, Repr

structure Use where
  srcs : List Src
  dsts : List Dst
  deriving DecidableEq, Repr

def us (a : SSrc) : Src := .s a.r a.w
def uv (a : VSrc) : Src := .v a.r a.w
def uq (a : QSrc) : Src := .q a.r a.w
def uOpB : OpB → List Src
  | .reg b => [us b]
  | .imm _ => []
def uSelB : SelB → List Src
  | .reg b => [us b]
  | .imm _ => []
def uSel6 : Sel6 → List Src
  | .reg b => [us b]
  | .imm _ => []
def uField : FieldSel → List Src
  | .reg b => [us b]
  | .imm .. => []
def uVOpB : VOpB → List Src
  | .v b => [uv b]
  | .s b => [us b]
def uVIOpB : VIOpB → List Src
  | .v b => [uv b]
  | .s b => [us b]
  | .imm _ => []

/-- The destination s(D + 1) of GRAB (07 R185). -/
def nextS (d : SReg) : SReg := d + 1

/-- Sources and destinations of an instruction, its condition or predicate aside. EMPTY lists its own sD, so that it waits
while that is EMPTY as every instruction does (06 R151, where 07 R177 has EMPTY wait for nothing); VQNT does not list the
vD whose other bytes it keeps, so that a poisoned vD does not poison it, where VCVT and VINS list theirs (the spec leaves
both open; DESIGN CHOICE, log 40). -/
def useOf : Instr → Use
  | .li _ d _ => ⟨[], [.s d]⟩
  | .mov _ d a => ⟨[us a], [.s d]⟩
  | .sel _ d q a b => ⟨uq q :: us a :: uSelB b, [.s d]⟩
  | .cmpq _ _ d a b => ⟨us a :: uOpB b, [.q d]⟩
  | .qop _ d a o => ⟨uq a :: (match o with
      | .bin _ b => [uq b]
      | _ => []), [.q d]⟩
  | .cbr _ _ a b _ => ⟨[us a, us b], []⟩
  | .jl _ d _ => ⟨[], [.s d]⟩
  | .jlr _ d a _ => ⟨[us a], [.s d]⟩
  | .jr _ a _ => ⟨[us a], []⟩
  | .add _ _ d a b | .sub _ _ d a b | .mul _ _ d a b | .div _ _ d a b | .divu _ _ d a b | .rem _ _ d a b
  | .remu _ _ d a b | .shl _ _ d a b | .shr _ _ d a b | .sar _ _ d a b | .ror _ _ d a b => ⟨us a :: uOpB b, [.s d]⟩
  | .mulh _ d a b | .mulhu _ d a b | .and _ d a b | .or _ d a b | .xor _ d a b | .andn _ d a b | .min _ d a b
  | .max _ d a b | .minu _ d a b | .maxu _ d a b => ⟨us a :: uOpB b, [.s d]⟩
  | .clz _ d a | .ctz _ d a | .popc _ d a | .sext _ d a _ | .zext _ d a _ => ⟨[us a], [.s d]⟩
  | .lea _ d a b _ _ => ⟨[us a, us b], [.s d]⟩
  | .bfx _ _ d a f => ⟨us a :: uField f, [.s d]⟩
  | .bfi _ d a f => ⟨us a :: .s d false :: uField f, [.s d]⟩
  | .rdspec _ d _ => ⟨[], [.s d]⟩
  | .empty _ d _ => ⟨[], [.s d]⟩
  | .ld _ _ _ _ d a _ | .lda _ _ _ d a _ | .ldsy _ _ _ _ d a _ => ⟨[us a], [.s d]⟩
  | .st _ _ _ a _ b | .stl _ _ _ a _ b | .feclr _ a _ b | .sts _ _ a _ b => ⟨[us a, us b], []⟩
  | .pref _ _ a _ => ⟨[us a], []⟩
  | .send _ d a b _ _ => ⟨[us d, us a, us b], []⟩
  | .sendp _ r d a b _ => ⟨[.s r false, us d, us a, us b], []⟩
  | .chmask _ d arg => ⟨(match arg with
      | .imm .. => []
      | .reg a b => [us a, us b]), [.s d]⟩
  | .grab _ d r => ⟨uSel6 r, [.s d, .s (nextS d)]⟩
  | .rngset _ a b c _ => ⟨[us a, us b, us c], []⟩
  | .vadd _ _ d a b | .vsub _ _ d a b | .vmul _ _ d a b | .vmin _ _ d a b | .vmax _ _ d a b => ⟨uv a :: uVOpB b, [.v d]⟩
  | .vfma _ _ d a b c | .vfms _ _ d a b c | .vfnma _ _ d a b c => ⟨uv a :: uVOpB b ++ [uv c], [.v d]⟩
  | .vabs _ _ d a | .vneg _ _ d a | .vclass _ _ d a => ⟨[uv a], [.v d]⟩
  | .vrcp _ d a | .vrsq _ d a | .vsqrt _ d a | .vexp2 _ d a | .vlog2 _ d a | .vmov _ d a => ⟨[uv a], [.v d]⟩
  | .vrsqe _ d a b => ⟨[uv a, us b], [.v d]⟩
  | .vdiv _ d a b => ⟨uv a :: uVOpB b, [.v d]⟩
  | .viadd _ _ d a b | .visub _ _ d a b | .vimul _ _ d a b | .vimulh _ _ d a b | .vand _ _ d a b | .vor _ _ d a b
  | .vxor _ _ d a b | .vshl _ _ d a b | .vshr _ _ d a b | .vsar _ _ d a b | .vimin _ _ d a b | .vimax _ _ d a b
  | .vqadd _ _ d a b => ⟨uv a :: uVIOpB b, [.v d]⟩
  | .vcmp _ _ _ d a b => ⟨uv a :: uVOpB b, [.p d]⟩
  | .vsel _ d c a b => ⟨.p c :: uv a :: uVOpB b, [.v d]⟩
  | .plog _ d a o => ⟨.p a :: (match o with
      | .bin _ b => [.p b]
      | _ => []), [.p d]⟩
  | .pcnt _ d a | .pfirst _ d a => ⟨[.p a], [.s d]⟩
  | .vcvt _ _ _ _ _ _ d a => ⟨[uv a, .v d false], [.v d]⟩
  | .vqnt _ _ _ _ d a b | .vdqnt _ _ _ d a b => ⟨[uv a, us b], [.v d]⟩
  | .vbcast _ _ d a | .viota _ d a => ⟨[us a], [.v d]⟩
  | .vextr _ d a n => ⟨uv a :: uSel6 n, [.s d]⟩
  | .vins _ d a n => ⟨us a :: .v d false :: uSel6 n, [.v d]⟩
  | .vshuf _ d a b => ⟨[uv a, uv b], [.v d]⟩
  | .vrot _ d a k => ⟨uv a :: uSel6 k, [.v d]⟩
  | .vred _ _ d a => ⟨[uv a], [.s d]⟩
  | .vscan _ _ d a => ⟨[uv a], [.v d]⟩
  | .vdot _ _ d a b => ⟨[uv a, uv b, .v d false], [.v d]⟩
  | .vld _ _ d a _ | .vldsy _ _ d a _ => ⟨[us a], [.v d]⟩
  | .vst _ _ a _ b => ⟨[us a, uv b], []⟩
  | .vlds _ _ d a _ c => ⟨[us a, us c], [.v d]⟩
  | .vsts _ _ a _ b c => ⟨[us a, uv b, us c], []⟩
  | .vgth _ _ _ d a _ c => ⟨[us a, uv c], [.v d]⟩
  | .vsct _ _ _ a _ b c => ⟨[us a, uv b, uv c], []⟩
  | .strm _ d a b c => ⟨[us a, us b, us c], [.x d]⟩
  | .spopStream _ d x => ⟨[.x x], [.v d]⟩
  | .spopFifo _ d _ => ⟨[], [.v d]⟩
  | .spush _ _ a => ⟨[uv a], []⟩
  | .cpy _ _ _ _ a b c => ⟨[us a, us b, us c], []⟩
  | .cpy2d _ _ _ _ a b _ _ _ _ => ⟨[us a, us b], []⟩
  | .cpyw _ _ _ d => ⟨[], [.s d]⟩
  | .cpyst _ _ _ _ _ a b c f _ => ⟨[us a, us b, us c, .s f false], []⟩
  | .amo _ _ _ _ _ _ d a b => ⟨[us a, us b], [.s d]⟩
  | .amocas _ _ _ _ _ d a b c => ⟨[us a, us b, us c], [.s d]⟩
  | .amor _ _ _ _ _ a b => ⟨[us a, us b], []⟩
  | .mls _ _ _ _ a _ | .mma _ _ _ _ _ a _ _ | .mmag _ _ _ _ _ a _ _ _ _ | .mst _ _ _ _ _ _ a _ _ _ => ⟨[us a], []⟩
  | .mrot _ _ _ _ _ l => ⟨(match l with
      | some (a, _) => [us a]
      | none => []), []⟩
  | .mldt _ _ _ a b _ => ⟨[us a, us b], []⟩
  | .mstat _ _ d => ⟨[], [.s d]⟩
  | .gset _ _ v => ⟨(match v with
      | .q a => [uq a]
      | .imm _ => []), []⟩
  | .rtset _ _ a | .rtsetInit _ _ a | .rhv _ _ _ a | .rins _ _ a | .rdel _ _ a => ⟨[us a], []⟩
  | .rprobe _ d a _ _ _ _ => ⟨[us a], [.s d]⟩
  | .rhash _ _ a b => ⟨[us a, us b], []⟩
  | .rstat _ _ d _ _ => ⟨[], [.s d]⟩
  | .trate _ _ a | .treg _ _ a | .tregInit _ _ a | .tclrE _ _ a _ | .tclrD _ _ a _ | .rwdw _ a | .swait _ a => ⟨[us a], []⟩
  | .tadv _ _ a b c _ _ => ⟨[us a, uv b, uv c], []⟩
  | .tadvr _ _ a b c _ => ⟨[us a, uv b, us c], []⟩
  | .trd _ d _ a _ => ⟨[us a], [.v d]⟩
  | .rwd _ a b | .rwdC _ a b | .stsb _ a b _ => ⟨[us a, us b], []⟩
  | .trhz _ _ d _ _ => ⟨[], [.s d]⟩
  | .rdtime _ d => ⟨[], [.s d]⟩
  | .bqpop _ d _ => ⟨[], [.s d]⟩
  | .bred _ _ _ d a b => ⟨[.s d false, us a, us b], []⟩
  | .bsend _ _ a b c => ⟨[us a, us b, us c], []⟩
  | .wdset _ _ a => ⟨[us a], []⟩
  | .wdget _ d _ => ⟨[], [.s d]⟩
  | .csrr _ d _ => ⟨[], [.s d]⟩
  | .csrw _ d _ a | .csrs _ d _ a | .csrc _ d _ a => ⟨[us a], [.s d]⟩
  | .tlbiPage _ a | .tlbiKid _ a => ⟨[us a], []⟩
  | .ctxsv _ d _ a | .ctxsvM _ d _ a | .ctxld _ d _ a | .ctxldM _ d _ a => ⟨[us a], [.s d]⟩
  | .satw _ a b => ⟨[us a, us b], []⟩
  | .chset _ a _ b c => ⟨[us a, us b, us c], []⟩
  | .preempt _ d a | .sleeps _ d a | .wakes _ d a | .gangctlStatus _ d a | .gangctlResume _ d a
  | .gangctlKill _ d a => ⟨[us a], [.s d]⟩
  | _ => ⟨[], []⟩

/-- The majors 0x40 to 0x89, whose P field names a predicate (06 Table 6.4). -/
def isVector : Instr → Bool
  | .vadd .. | .vsub .. | .vmul .. | .vfma .. | .vfms .. | .vfnma .. | .vmin .. | .vmax .. | .vabs .. | .vneg ..
  | .vrcp .. | .vrsq .. | .vrsqe .. | .vsqrt .. | .vdiv .. | .vexp2 .. | .vlog2 .. | .vclass .. | .viadd .. | .visub ..
  | .vimul .. | .vimulh .. | .vand .. | .vor .. | .vxor .. | .vshl .. | .vshr .. | .vsar .. | .vimin .. | .vimax ..
  | .vqadd .. | .vcmp .. | .vsel .. | .plog .. | .pcnt .. | .pfirst .. | .vcvt .. | .vqnt .. | .vdqnt .. | .vbcast ..
  | .vextr .. | .vins .. | .vshuf .. | .vrot .. | .viota .. | .vmov .. | .vred .. | .vscan .. | .vdot .. | .vld ..
  | .vst .. | .vlds .. | .vsts .. | .vgth .. | .vsct .. | .vldsy .. | .strm .. | .spopStream .. | .spopFifo ..
  | .spush .. => true
  | _ => false

/-- Engine commands that FENCEE holds (08 R222): copies, matrix, retrieval, trace, STSB and collective commands that read
or write memory. -/
def isEngine : Instr → Bool
  | .cpy .. | .cpy2d .. | .cpyst .. | .cpyw .. | .mlease .. | .mrel .. | .mls .. | .mma .. | .mmag .. | .mrot .. | .mldt ..
  | .mst .. | .mzero .. | .mstat .. | .gset .. | .gclr .. | .gclrR .. | .mwait ..
  | .rtset .. | .rtsetInit .. | .rhv .. | .rprobe .. | .rins .. | .rdel .. | .rhash .. | .rhashFifo .. | .rdirty ..
  | .rfence .. | .rstat .. | .trate .. | .treg .. | .tregInit .. | .tregX .. | .tstep .. | .tadv .. | .tadvr .. | .trd ..
  | .tclrE .. | .tclrD .. | .rwd .. | .rwdC .. | .rwdw .. | .trhz .. | .stsb .. | .bqpop .. | .bred .. | .bsend ..
  | .bqdone .. => true
  | _ => false

/-- Kinds of access of an instruction for FENCE (05 R121): reads and writes. -/
def kindsOf : Instr → Bool × Bool
  | .ld .. | .lda .. | .ldsy .. | .vld .. | .vlds .. | .vgth .. | .vldsy .. | .spopStream .. | .rprobe .. => (true, false)
  | .st .. | .stl .. | .feclr .. | .vst .. | .vsts .. | .vsct .. | .sts .. | .stsb .. | .rwd .. | .rwdC .. | .send ..
  | .sendp .. | .rins .. | .rdel .. | .rhash .. | .rhashFifo .. => (false, true)
  | .amo .. | .amocas .. | .amor .. | .bred .. => (true, true)
  | _ => (false, false)

/-- The sources that say where an instruction stores; of the others, all that it reads. -/
def storeAddrs : Instr → List Src
  | .st _ _ _ a _ _ | .stl _ _ _ a _ _ | .sts _ _ a _ _ | .stsb _ a _ _ | .mldt _ _ _ a _ _ | .cpy2d _ _ _ _ a _ _ _ _ _ => [us a]
  | .vst p _ a _ _ => [.p p.p, us a]
  | .vsts p _ a _ _ c => [.p p.p, us a, us c]
  | .vsct p _ _ a _ _ c => [.p p.p, us a, uv c]
  | .cpy _ _ _ _ a _ c => [us a, us c]
  | .cpyst _ _ _ _ _ a _ c f _ => [us a, us c, .s f false]
  | .bred _ _ _ d _ _ => [.s d false]
  | i => (useOf i).srcs

/-- How run-ahead takes an instruction (18 Table 18.5). -/
inductive RaClass where
  | compute
  | load           -- performed as a read
  | skip           -- not performed, destination poisoned
  | store          -- its global operands are translated, nothing is performed
  | suppressed
  | transfer
  | ends (reason : Nat)
  deriving DecidableEq, Repr

def raClassOf : Instr → RaClass
  | .br .. | .cbr .. | .jl .. | .jlr .. | .jr .. => .transfer
  | .ld .. | .lda .. | .vld .. | .vlds .. | .vgth .. | .spopStream .. => .load
  | .ldsy .. | .vldsy .. | .spopFifo .. => .suppressed
  | .st .. | .stl .. | .vst .. | .vsts .. | .vsct .. | .cpy .. | .cpy2d .. | .cpyst .. | .mldt .. | .stsb .. | .bsend ..
  | .bred .. => .store
  | .done .. | .trap .. | .syscall .. => .ends 4
  | .bara .. | .barw .. | .swait .. | .swaitOwn .. | .rwdw .. | .mlease .. | .gclr .. | .gclrR .. | .mwait .. | .cpyw ..
  | .yield .. => .ends 3
  | .csrr .. | .csrw .. | .csrs .. | .csrc .. | .eret .. | .tlbiPage .. | .tlbiAll .. | .tlbiKid .. | .ctxsv .. | .ctxsvM ..
  | .ctxld .. | .ctxldM .. | .wfi .. | .satw .. | .chset .. | .preempt .. | .sleeps .. | .wakes .. | .gangctlStatus ..
  | .gangctlResume .. | .gangctlKill .. => .ends 3
  | .send .. | .sendp .. | .amo .. | .amocas .. | .amor .. | .fence .. | .fencee .. | .sts .. | .rwd .. | .rwdC ..
  | .chmask .. | .grab .. | .rngset .. | .flowsig .. | .wdset .. | .feclr .. => .suppressed
  | .mrel .. | .mls .. | .mma .. | .mmag .. | .mrot .. | .mst .. | .mzero .. | .mstat .. | .gset .. => .suppressed
  | .rtset .. | .rtsetInit .. | .rhv .. | .rprobe .. | .rins .. | .rdel .. | .rhash .. | .rhashFifo .. | .rdirty ..
  | .rfence .. | .rstat .. => .suppressed
  | .trate .. | .treg .. | .tregInit .. | .tregX .. | .tstep .. | .tadv .. | .tadvr .. | .trd .. | .tclrE .. | .tclrD ..
  | .trhz .. | .bqpop .. | .bqdone .. => .suppressed
  | _ => .compute

/-- The majors that raise PRIVILEGE at step 6 of 06 Table 6.5: 0xE4 to 0xEE (06 R147). -/
def isPrivileged : Instr → Bool
  | .eret .. | .tlbiPage .. | .tlbiAll .. | .tlbiKid .. | .ctxsv .. | .ctxsvM .. | .ctxld .. | .ctxldM .. | .wfi ..
  | .satw .. | .chset .. | .preempt .. | .sleeps .. | .wakes .. | .gangctlStatus .. | .gangctlResume ..
  | .gangctlKill .. => true
  | _ => false

/-- The unit that an instruction needs is absent from a core (01 R24, 07 R178). -/
def absentOn (i : Instr) (gw : Bool) : Bool :=
  match i with
  | .bqpop .. | .bred .. | .bsend .. | .bqdone .. => !gw
  | .mlease .. | .mrel .. | .mls .. | .mma .. | .mmag .. | .mrot .. | .mldt .. | .mst .. | .mzero .. | .mstat ..
  | .gset .. | .gclr .. | .gclrR .. | .mwait .. => gw
  | .rtset .. | .rtsetInit .. | .rhv .. | .rprobe .. | .rins .. | .rdel .. | .rhash .. | .rhashFifo .. | .rdirty ..
  | .rfence .. | .rstat .. => gw
  | .trate .. | .treg .. | .tregInit .. | .tregX .. | .tstep .. | .tadv .. | .tadvr .. | .trd .. | .tclrE .. | .tclrD ..
  | .trhz .. | .grab .. | .rngset .. => gw
  | _ => false

end Sys2Proof.Machine
end

