-- ==== Sys2Proof/Machine/Ops.lean ====
section
/-! DEFINITION. The named operations over registers and contexts: reading and writing registers and their FE bits, taking
a trap and returning from one (16 R341, R342), run-ahead (18 R388 to R391), and the issue of an instruction in the order
of 06 Table 6.5. -/

namespace Sys2Proof.Machine

/-! Registers (06 Table 6.7, R150) -/

def rdS (r : Regs) (n : SReg) : Word :=
  if n = 0 then 0 else if n = 63 then r.pc else r.s.get n.toFin
def wrS (r : Regs) (n : SReg) (v : Word) : Regs :=
  if n = 0 ∨ n = 63 then r else { r with s := r.s.set n.toNat v n.isLt }
def rdV (r : Regs) (n : VReg) : VWord := r.v.get n.toFin
def wrV (r : Regs) (n : VReg) (v : VWord) : Regs := { r with v := r.v.set n.toNat v n.isLt }
def rdP (r : Regs) (n : PReg) : BitVec 64 := if n = 0 then BitVec.allOnes 64 else r.p.get n.toFin
def wrP (r : Regs) (n : PReg) (v : BitVec 64) : Regs := if n = 0 then r else { r with p := r.p.set n.toNat v n.isLt }
def rdQ (r : Regs) (n : QReg) : Bool := if n = 0 then true else r.q.getLsbD n.toNat
def wrQ (r : Regs) (n : QReg) (v : Bool) : Regs := if n = 0 then r else { r with q := setBit r.q n.toNat v }
def rdX (r : Regs) (n : XReg) : Stream := r.x.get n.toFin
def wrX (r : Regs) (n : XReg) (v : Stream) : Regs := { r with x := r.x.set n.toNat v n.isLt }
def rdF (r : Regs) (n : FReg) : List VWord := r.f.get n.toFin
def wrF (r : Regs) (n : FReg) (v : List VWord) : Regs := { r with f := r.f.set n.toNat v n.isLt }

/-! Full/empty bits -/

def sEmpty (r : Regs) (n : SReg) : Bool := n != 0 && n != 63 && r.sE.getLsbD n.toNat
def vEmpty (r : Regs) (n : VReg) : Bool := r.vE.getLsbD n.toNat
def qEmpty (r : Regs) (n : QReg) : Bool := n != 0 && r.qE.getLsbD n.toNat
def markS (r : Regs) (n : SReg) (e : Bool) : Regs :=
  if n = 0 ∨ n = 63 then r else { r with sE := setBit r.sE n.toNat e }
def markV (r : Regs) (n : VReg) (e : Bool) : Regs := { r with vE := setBit r.vE n.toNat e }

def srcEmpty (r : Regs) : Src → Bool
  | .s n _ => sEmpty r n
  | .v n _ => vEmpty r n
  | .q n _ => qEmpty r n
  | _ => false
def srcW : Src → Bool
  | .s _ w => w
  | .v _ w => w
  | .q _ w => w
  | _ => false
def dstEmpty (r : Regs) : Dst → Bool
  | .s n => sEmpty r n
  | .v n => vEmpty r n
  | .q n => qEmpty r n
  | _ => false

/-! Operands of the running context -/

def myRegs (s : State) : Regs := (me s).regs
def sv (s : State) (a : SSrc) : Word := rdS (myRegs s) a.r
def vv (s : State) (a : VSrc) : VWord := rdV (myRegs s) a.r
def qv (s : State) (a : QSrc) : Bool := rdQ (myRegs s) a.r
def setS (s : State) (d : SReg) (v : Word) : State := modRegs s fun r => wrS r d v
def setV (s : State) (d : VReg) (v : VWord) : State := modRegs s fun r => wrV r d v
def setP (s : State) (d : PReg) (v : BitVec 64) : State := modRegs s fun r => wrP r d v
def setQ (s : State) (d : QReg) (v : Bool) : State := modRegs s fun r => wrQ r d v
def raise (s : State) (f : FFlags) : State := modRegs s fun r => { r with fstat := r.fstat ||| f }

/-- The active lanes of the governing predicate (06 R142). -/
def lanes (s : State) (p : Pred) : BitVec 64 :=
  let v := rdP (myRegs s) p.p
  if p.neg then ~~~v else v
def condTrue (s : State) (c : Cond) : Bool := rdQ (myRegs s) c.q != c.neg

/-- A vector with its active lanes replaced (06 R144). -/
def merge (m : BitVec 64) (new old : VWord) : VWord := mkV fun i => if m.getLsbD i then lane new i else lane old i

/-- Registers of a context, and of its checkpoint in run-ahead: what an engine gives a context stays after rollback. -/
def modBoth (s : State) (c n : Nat) (f : Regs → Regs) : State :=
  modCtx s c n fun x => { x with regs := f x.regs, ra := x.ra.map fun a => { a with saved := f a.saved } }

/-! The program counter (06 R136) -/

/-- The next sequential address. -/
def nextPc (pc : Word) (len : Nat) : Word :=
  let n := pc + word len
  if n.toNat % 32 = 28 then n + 4 else n

/-- Whether a transfer to an address raises MISALIGNED. -/
def badTarget (t : Word) : Bool := t.toNat % 4 != 0 || t.toNat % 32 == 28

/-! Traps (16 R341, R342) -/

/-- The CAUSE register of a trap: for a page fault the number of batch entries and the reason (18 R386). -/
def causeWord (t : Trap) (reason : Nat) : Word :=
  if t.cause = 7 then word (7 + t.pages.length * 256 + reason * 8192) else word (t.cause + t.code * 256)

/-- The run of a core's position on its cluster's array ends, if it has one; the grant of the next run comes at once, with
the priorities of this core cycle (09 R225, 17 R376). -/
def endRun (s : State) (c : Nat) : State :=
  match (getCluster s (clusterOf c)).run with
  | some r =>
    if r.pos = posOf c then
      let s := modCluster s (clusterOf c) fun k => { k with run := none, last := r.pos }
      { s with agenda := ⟨.matrixRunGrant, { StepArg.none with i := clusterOf c }⟩ :: s.agenda }
    else s
  | none => s

/-- For each trace command of a task in flight, the latest reward before it in the order of 10 R271. -/
def traceStamps (s : State) (c n uid : Nat) : List Nat :=
  ((getCore s c).tl.foldl (fun (st : Nat × List Nat) t => match t with
    | .reward q .. => (q.toNat, st.2)
    | .cmd _ cn cu _ => if cn = n ∧ cu = uid then (st.1, st.2 ++ [st.1]) else st) ((acOf s c).toNat, [])).2

/-- Freeze a context in place (16 R350), with the stamps of its trace commands in flight (Table 16.8); a client loses its
run at once (17 R376). -/
def freeze (s : State) (c n : Nat) : State :=
  let stamps := traceStamps s c n (getCtx s c n).uid
  let s := modCtx s c n fun x => { x with frozen := true, freezing := false, stopping := false, stamps }
  if (getCore s c).client = some n then endRun s c else s

/-- Take a trap in a context: EPC holds epc. With INTRAP = 1, or at firmware privilege, the context freezes with a
DOUBLE_TRAP record, CAUSE and EPC unchanged (16 R342). -/
def takeTrap (s : State) (c n : Nat) (epc : Word) (t : Trap) (reason : Nat) : State :=
  let x := getCtx s c n
  let s := if t.cause = 7 then modCtx s c n fun x => { x with batch := t.pages.take 17 } else s
  if x.intrap || x.priv == 2 then
    ctxRecord (freeze s c n) c n 9 18 0 0 t.faddr.toNat 0
  else
    modCtx s c n fun x =>
      { x with cause := causeWord { t with pages := t.pages.take 17 } reason, epc, faddr := t.faddr, ppriv := x.priv,
               priv := 1, intrap := true, stopping := false, await := none, regs := { x.regs with pc := x.tvec } }

/-- ERET (16 R341): PRIV and INTRAP return, then the transfer to EPC; a member that a PREEMPT waits for stands at its
boundary there, and freezes once what Table 16.7 waits for is over (R350) (in part DEDUCED, log 32). -/
def returnFromTrap (s : State) (c n : Nat) : State :=
  modCtx s c n fun x =>
    { x with priv := x.ppriv, intrap := false, stopping := x.freezing, regs := { x.regs with pc := x.epc } }

/-! Run-ahead (18 R388, R389) -/

def poisonSrc (a : RunAhead) : Src → Bool
  | .s n _ => n != 0 && n != 63 && a.poisonS.getLsbD n.toNat
  | .v n _ => a.poisonV.getLsbD n.toNat
  | .q n _ => n != 0 && a.poisonQ.getLsbD n.toNat
  | .p n => n != 0 && a.poisonP.getLsbD n.toNat
  | .x n => a.poisonX.getLsbD n.toNat

def setPoison (b : Bool) (a : RunAhead) : Dst → RunAhead
  | .s n => { a with poisonS := setBit a.poisonS n.toNat b }
  | .v n => { a with poisonV := setBit a.poisonV n.toNat b }
  | .q n => { a with poisonQ := setBit a.poisonQ n.toNat b }
  | .p n => { a with poisonP := setBit a.poisonP n.toNat b }
  | .x n => { a with poisonX := setBit a.poisonX n.toNat b }

def poisonAll (b : Bool) (ds : List Dst) (a : RunAhead) : RunAhead := ds.foldl (setPoison b) a

def samePage (a b : Word) : Bool := bitsOf a.toNat 55 12 == bitsOf b.toNat 55 12

/-- Record pages once each, up to 16 beyond the faulting instruction's own (in part DEDUCED, log 18). -/
def recordPages (a : RunAhead) (ps : List Word) : RunAhead :=
  ps.foldl (fun a p =>
    if (a.own ++ a.pages).any (samePage p) || decide (16 ≤ a.pages.length) then a else { a with pages := a.pages ++ [p] }) a

/-- End run-ahead for a reason (18 Table 18.6): RUN_AHEAD_END comes next (in part DEDUCED, log 18). -/
def endAhead (s : State) (c n reason : Nat) : State :=
  let s := modCtx s c n fun x => { x with ra := x.ra.map fun a => { a with ending := some (a.ending.getD reason) } }
  { s with agenda := ⟨.runAheadEnd, { StepArg.none with i := c, j := n }⟩ :: s.agenda }

/-- An MLDT that run-ahead has passed leaves the cursor 0, so that the next begins with its first row (09 R237). -/
def passCursor (i : Instr) (r : Regs) : Regs :=
  match i with
  | .mldt .. => { r with mldtCur := 0 }
  | _ => r

/-- The checkpoint and the start of run-ahead at a page fault: the faulting instruction's pages are recorded, its
destinations poisoned, its own unwritten destination counts among the suppressed stores. -/
def startAhead (s : State) (i : Instr) (t : Trap) (stores : List (Nat × Nat)) : State :=
  modMe s fun x =>
    let a : RunAhead :=
      { saved := x.regs, faddr := t.faddr, poisonS := 0, poisonV := 0, poisonP := 0, poisonQ := 0, poisonX := 0,
        own := t.pages, pages := [], stores, count := 0, ending := none }
    { x with ra := some (poisonAll true (useOf i).dsts a), regs := passCursor i { x.regs with pc := nextPc x.regs.pc i.len } }

/-- Rollback, and the trap with its batch (18 R389). Producers that ended meanwhile have written the checkpoint too. -/
def finishAhead (s : State) (c n : Nat) : State :=
  let x := getCtx s c n
  match x.ra with
  | none => s
  | some a =>
    let s := modCtx s c n fun x => { x with ra := none, regs := a.saved }
    let t : Trap := { mkTrap 7 0 with faddr := a.faddr, pages := a.own ++ a.pages }
    takeTrap s c n a.saved.pc t (a.ending.getD 0)

/-- A trap raised by the running instruction: run-ahead first where 18 R388 and R391 say so. -/
def raiseTrap (s : State) (i : Instr) (t : Trap) (stores : List (Nat × Nat)) : State :=
  let x := me s
  if t.cause = 7 ∧ x.priv = 0 ∧ x.intrap = false ∧ x.freezing = false then startAhead s i t stores
  else
    let t' := if t.cause = 7 then { t with pages := t.pages.take 1 } else t
    let epc := if t.next then nextPc x.regs.pc i.len else x.regs.pc
    takeTrap s (myId s) (myN s) epc t' 6

/-! Items in flight (05 R121, R123; 08 R221, R222) -/

/-- Numbers from lo up to upto. -/
def between (lo upto id : Nat) : Bool := decide (lo ≤ id) && decide (id < upto)

/-- The context of a task: in its slot, parked, or ended with accesses or commands still to be performed; none: nothing of the
task is left. -/
def taskOf (s : State) (c n uid : Nat) : Option Ctx :=
  if (getCtx s c n).uid = uid then some (getCtx s c n)
  else (((getCore s c).parked.find? fun e => e.1 == uid).orElse fun _ =>
    (getCore s c).ended.find? fun e => e.1 == 8 * uid + n).map (·.2)

def seReads : SeOp → Bool
  | .store .. => false
  | .flag _ => false
  | _ => true
def seWrites : SeOp → Bool
  | .load .. => false
  | _ => true

/-- Accesses in their turn behind a producer, as reads and as writes. LDSY, VLDSY and the loads behind them are not
counted: whatever comes later follows them too. -/
def turnReads : Prod → Bool
  | .request _ op _ => seReads op
  | .device _ none => true
  | _ => false
def turnWrites : Prod → Bool
  | .put .. => true
  | .scatter .. => true
  | .clear _ => true
  | .request _ op _ => seWrites op
  | .device _ (some _) => true
  | _ => false

/-- Stores of a context to peers that are not acknowledged, in a range of numbers; skip: a peer left out. -/
def packetsIn (s : State) (c n uid lo upto : Nat) (skip : Option Nat) : Bool :=
  s.peers.any fun y => some y.1 != skip && y.2.unacked.any fun o => !o.copy && o.core == c && o.ctx == n && o.uid == uid &&
    between lo upto o.id && (o.p.kind.toNat ≤ 1 || o.p.kind == 4)

/-- Posted stores, private stores on their way, requests that write to synchronisation engines and stores in their turn, of
a context, in a range of numbers. -/
def nearStoresIn (s : State) (c n uid lo upto : Nat) : Bool :=
  (s.posted.any fun p => p.core == c && p.ctx == n && p.uid == uid && between lo upto p.id) ||
  (s.engines.any fun e => e.2.any fun r => r.core == c && r.ctx == n && r.uid == uid && between lo upto r.id && seWrites r.op) ||
  ((taskOf s c n uid).any fun x => (x.fwd.any fun f => between lo upto f.id) ||
    x.regs.pend.any fun p => between lo upto p.id && turnWrites p.prod)

/-- The stores of a context in flight, those to peers among them. -/
def storesIn (s : State) (c n uid lo upto : Nat) : Bool :=
  nearStoresIn s c n uid lo upto || packetsIn s c n uid lo upto none

/-- Requests that read from synchronisation engines, of a context, in a range of numbers. -/
def loadsIn (s : State) (c n uid lo upto : Nat) : Bool :=
  (s.engines.any fun e => e.2.any fun r => r.core == c && r.ctx == n && r.uid == uid && between lo upto r.id && seReads r.op) ||
  ((taskOf s c n uid).any fun x => x.regs.pend.any fun p => between lo upto p.id && turnReads p.prod)

/-- Retrieval commands that update their table, and probes (05 R121). -/
def updates : ROp → Bool
  | .del _ => true
  | .hash .. => true
  | .hashList _ => true
  | _ => false
def probes : ROp → Bool
  | .probe .. => true
  | _ => false
def commandsIn (s : State) (c n uid lo upto : Nat) (f : ROp → Bool) : Bool :=
  (getCore s c).rq.any fun r => r.ctx == n && r.uid == uid && between lo upto r.id && f r.op

/-- The earlier writes of a context that FENCE counts, its beats aside: stores and retrieval updates. -/
def writesIn (s : State) (c n uid lo upto : Nat) : Bool :=
  storesIn s c n uid lo upto || commandsIn s c n uid lo upto updates

/-- The earlier reads: loads and probes. -/
def readsIn (s : State) (c n uid lo upto : Nat) : Bool :=
  loadsIn s c n uid lo upto || commandsIn s c n uid lo upto probes

/-- Beats of a context that have not been transmitted: STS, STSB and RWD (05 R124). -/
def beatsBefore (s : State) (c n uid upto : Nat) : Bool :=
  (getLayer s (layerIn s c)).queue.any fun q => q.core == c && q.ctx == n && q.uid == uid && decide (q.id < upto)

/-- The same without STSB, which is an engine command (05 R123). -/
def accessBeats (s : State) (c n uid upto : Nat) : Bool :=
  (getLayer s (layerIn s c)).queue.any fun q => q.core == c && q.ctx == n && q.uid == uid && decide (q.id < upto) &&
    (match q.item with
      | .block .. => false
      | _ => true)

/-- Items of a context numbered before upto that are in beats on their way to the layers. -/
def beatsFlying (s : State) (c n uid upto : Nat) : Bool :=
  s.air.any fun a => a.owners.any fun o => o.1 == c && o.2.1 == n && o.2.2.1 == uid && decide (o.2.2.2 < upto)

/-- Beats of a context that the layers have not applied (05 R121, R124). -/
def beatsUnapplied (s : State) (c n uid upto : Nat) : Bool := beatsBefore s c n uid upto || beatsFlying s c n uid upto

def heldRead (s : State) (c n uid : Nat) (h : Hold) : Bool :=
  (h.set.getLsbD 0 && readsIn s c n uid h.lo h.upto) ||
  (h.set.getLsbD 2 && (writesIn s c n uid h.lo h.upto || beatsUnapplied s c n uid h.upto))

/-- beat: the write is a Swell beat, which keeps its order behind the earlier ones once they are transmitted (05 R121). -/
def heldWrite (s : State) (c n uid : Nat) (beat : Bool) (h : Hold) : Bool :=
  (h.set.getLsbD 1 && readsIn s c n uid h.lo h.upto) ||
  (h.set.getLsbD 3 && (writesIn s c n uid h.lo h.upto || beatsBefore s c n uid h.upto ||
    (!beat && beatsFlying s c n uid h.upto)))

def isSync : Prod → Bool
  | .sync .. => true
  | _ => false

/-- A producer that every later access of its context follows: LDSY or VLDSY waiting for its words, CPYW waiting for its
copies, and the accesses that are already behind one (05 R118, R123). -/
def isTurn : Prod → Bool
  | .sync .. => true
  | .cpyw .. => true
  | .read _ => true
  | .put .. => true
  | .scatter .. => true
  | .request .. => true
  | .clear _ => true
  | .device .. => true
  | _ => false

/-- Such a producer that is itself an access. -/
def isAccess : Prod → Bool
  | .cpyw .. => false
  | p => isTurn p

/-- An access that issues now has to follow a producer in flight: it waits for its turn in the list of producers, while
later instructions issue (08 R206). -/
def mustFollow (r : Regs) : Bool := r.pend.any fun p => isTurn p.prod

/-- Whether producers that stand before a number have to be followed. -/
def behind (r : Regs) (id : Nat) : Bool := r.pend.any fun p => decide (p.id < id) && isTurn p.prod

/-- Whether a FENCEE numbered t of a task still holds engine commands: accesses before it are to be performed, those in their
turn and the beats on their way among them (05 R123). -/
def fenceeOpen (s : State) (c n uid : Nat) (x : Ctx) (t : Nat) : Bool :=
  storesIn s c n uid 0 t || loadsIn s c n uid 0 t || accessBeats s c n uid t || beatsFlying s c n uid t ||
    x.regs.pend.any fun p => decide (p.id < t) && isAccess p.prod

/-- Whether a FENCEE holds an engine command of a context, numbered id: all that a command waits for which reads and writes no
memory, such as one on guards or the lease (08 R222). -/
def fenceeHeld (s : State) (c n uid id : Nat) : Bool :=
  (taskOf s c n uid).any fun x => x.engineAfter.any fun t => decide (t ≤ id) && fenceeOpen s c n uid x t

/-- Whether an engine command of a context, numbered id, still has to wait before it reads or writes memory: for the accesses
before a FENCEE, for an acquire that is not complete (05 R123, 08 R222, 14 R328) (in part DEDUCED, log 38). -/
def engineHeld (s : State) (c n uid id : Nat) : Bool :=
  fenceeHeld s c n uid id || (taskOf s c n uid).any fun x =>
    behind x.regs id || x.fences.any fun h => h.acquire && decide (h.upto ≤ id) && heldRead s c n uid h

/-- The same of an engine command that the running context issues now. -/
def heldNow (s : State) : Bool := engineHeld s (myId s) (myN s) (me s).uid s.serial

/-- Engine commands that wait after their issue until they may touch memory: in a queue of their engine, in the list of the
trace unit, or as a producer. The others keep their context waiting as part of what they do, and it waits at their issue (in
part DEDUCED, log 38). -/
def isQueued : Instr → Bool
  | .tstep .. | .tadv .. | .tadvr .. | .tclrE .. | .tclrD .. | .trhz .. | .bsend .. | .bqdone .. => true
  | .cpyw .. | .mlease .. | .mrel .. | .mstat .. | .gset .. | .gclr .. | .gclrR .. | .mwait .. => true
  | .cpy .. | .cpy2d .. | .cpyst .. | .mls .. | .mma .. | .mmag .. | .mrot .. | .mst .. | .mzero .. | .rhv .. | .rprobe ..
  | .rins .. | .rdel .. | .rhash .. | .rhashFifo .. | .rdirty .. | .rstat .. | .stsb .. | .rwd .. | .rwdC .. => true
  | _ => false

def isBeat : Instr → Bool
  | .sts .. | .stsb .. | .rwd .. | .rwdC .. => true
  | _ => false

/-- Whether fences, acquires and FENCEE hold the instruction at its issue (05 R118, R120, R121, R123). -/
def fenced (s : State) (i : Instr) : Bool :=
  let x := me s
  let k := kindsOf i
  let c := myId s
  let n := myN s
  (k.1 && x.fences.any (heldRead s c n x.uid)) ||
  (k.2 && x.fences.any (heldWrite s c n x.uid (isBeat i))) ||
  (isEngine i && !isQueued i && engineHeld s c n x.uid s.serial)

/-- Whether an operation of a trace unit's list is free: no FENCEE and no acquire holds it, and it is not the stamp of a load
that its context has still to perform (10 R271, 08 R222). -/
def freeItem (s : State) (c : Nat) : TItem → Bool
  | .cmd _ n uid (.stamp pid _) =>
    let x := getCtx s c n
    !(x.uid == uid && x.resident && !(x.frozen && x.regs.pend.any fun p => decide (p.id ≤ pid) && isSync p.prod) && x.regs.pend.any fun p => p.id == pid)
  | .cmd id n uid _ => !engineHeld s c n uid id
  | .reward .. => true

/-- Commands on guards and the lease that a FENCEE holds after their issue; later ones of their context keep their order behind
them, and so do array commands behind an MLEASE or GCLR (08 R222). -/
def isGuardTurn : Prod → Bool
  | .mlease => true
  | .gclr _ => true
  | .array _ => true
  | .gset .. => true
  | .gfree _ => true
  | .mrel => true
  | .mstat _ => true
  | _ => false

/-- Commands and releases that wait for their turn as producers, though no later access follows them. -/
def isCommandTurn : Prod → Bool
  | .trhz .. => true
  | .bsend .. => true
  | .bqdone _ => true
  | .bara _ => true
  | .flowsig .. => true
  | p => isGuardTurn p

/-- Whether a task has engine commands or releases that wait behind a producer, an acquire or a FENCEE (07 R168). -/
def commandsHeld (s : State) (c n uid : Nat) : Bool :=
  let mine (m v id : Nat) : Bool := m == n && v == uid && engineHeld s c n uid id
  ((getCore s c).copies.any fun p => mine p.ctx p.uid p.id) ||
  ((getCore s c).tl.any fun t => match t with
    | .cmd _ _ _ (.stamp ..) => false
    | .cmd id m v _ => mine m v id
    | .reward .. => false) ||
  ((getLayer s (layerIn s c)).queue.any fun q => q.core == c && mine q.ctx q.uid q.id) ||
  ((taskOf s c n uid).any fun x => x.regs.pend.any fun p => isCommandTurn p.prod)

/-- A release numbered upto waits until every earlier access of its context is performed, STS, STSB and RWD among them (05
R120, R124). skip: the peer to which the release itself travels, in its turn behind the stores it covers (05 R131). -/
def unreleasedAt (s : State) (c n upto : Nat) (skip : Option Nat) : Bool :=
  let x := getCtx s c n
  nearStoresIn s c n x.uid 0 upto || packetsIn s c n x.uid 0 upto skip ||
    commandsIn s c n x.uid 0 upto updates || readsIn s c n x.uid 0 upto || beatsUnapplied s c n x.uid upto ||
    behind x.regs upto

/-- The same of a release that issues now. -/
def unreleasedBut (s : State) (skip : Option Nat) : Bool := unreleasedAt s (myId s) (myN s) s.serial skip

def unreleased (s : State) : Bool := unreleasedBut s none

/-- Add a hold; holds whose items are all performed go. -/
def addHold (s : State) (set : BitVec 4) (lo : Nat) (acquire : Bool) : State :=
  modMe s fun x =>
    let live := x.fences.filter fun h => heldRead s (myId s) (myN s) x.uid h || heldWrite s (myId s) (myN s) x.uid false h
    { x with fences := live ++ [{ set, lo, upto := s.serial, acquire }] }

/-! Issue -/

/-- What the body of an instruction does at step 11 of 06 Table 6.5: completes, transfers, makes a request and waits,
waits without an effect, traps, or meets an unplaced page in run-ahead. -/
inductive Act where
  | go (s : State)
  | jump (s : State) (t : Word)
  | stay (s : State)
  | hold
  | trap (s : State) (t : Trap)
  | unplaced (s : State)

/-- The context waits without an effect. -/
def wait (s : State) : State := { s with waited := true }

def advance (s : State) (i : Instr) : State := modRegs s fun r => { r with pc := nextPc r.pc i.len }

/-- The condition of a scalar or engine instruction; vector instructions have none. -/
def condOf (i : Instr) : Cond := if isVector i then ⟨0, false⟩ else ⟨i.pField.1, i.pField.2⟩

/-- The sources that count for poison: those of the table, the condition or the predicate. -/
def poisonSrcs (i : Instr) : List Src :=
  (if isVector i then .p i.pField.1 else .q i.pField.1 false) :: (useOf i).srcs

/-- Account for one instruction processed in run-ahead (18 Table 18.6, reasons 0 and 1). -/
def countAhead (s : State) : State :=
  let s := modMe s fun x => { x with ra := x.ra.map fun a => { a with count := a.count + 1 } }
  match (me s).ra with
  | some a =>
    if a.ending.isSome then s
    else if 16 ≤ a.pages.length then endAhead s (myId s) (myN s) 1
    else if 256 ≤ a.count then endAhead s (myId s) (myN s) 0
    else s
  | none => s

/-- Whether the running context runs ahead, where an instruction waits only for a FIFO, a queue or a source (18 Table 18.5). -/
def runsAhead (s : State) : Bool := (me s).ra.isSome

def modAhead (s : State) (f : RunAhead → RunAhead) : State := modMe s fun x => { x with ra := x.ra.map f }

/-- Whether the running context's instruction waits for bytes of peers, or finds them brought (18 R381). -/
def aheadReads (s : State) : Bool :=
  s.brought.any fun b => b.1 == .instr (myId s) (myN s) (me s).uid

/-- Whether a context still reads page tables in a peer's memory for its run-ahead, or has to take up what has come (18 R388). -/
def aheadWalks (s : State) (c n : Nat) : Bool :=
  let r : FarReader := .instr c n (getCtx s c n).uid
  farOpen s r || s.brought.any fun b => b.1 == r

/-- An instruction in run-ahead (18 Table 18.5). loads and stores are the ranges it addresses (in part DEDUCED, log 18). -/
def issueAhead (i : Instr) (s : State) (a : RunAhead) (loads stores : List (Nat × Nat)) (body : State → Act) : State :=
  let r := myRegs s
  let u := useOf i
  let stop (n : Nat) : State := endAhead s (myId s) (myN s) n
  -- what is not performed has read its page tables all the same, those of peers too
  let walked (t : State) : State := { s with touched := t.touched }
  let walkedStop (t : State) (n : Nat) : State := endAhead (walked t) (myId s) (myN s) n
  let pass (s : State) (b : Bool) : State :=
    countAhead (advance (modRegs (modAhead s (poisonAll b u.dsts)) (passCursor i)) i)
  let suppress (s : State) : State := modAhead s fun a => { a with stores := a.stores ++ stores }
  let places := storeAddrs i
  let cond := condOf i
  let poisoned := (poisonSrcs i).any (poisonSrc a)
  let condPoison := poisonSrc a (.q cond.q false)
  -- an end that came while this instruction read tables of peers lets it take up what they answer, and nothing more
  let waits : State := if a.ending.isSome then s else wait s
  if a.ending.isSome && !aheadReads s then wait s
  else if isPrivileged i || absentOn i (isGw (myId s)) then stop 3
  else if !condPoison && qEmpty r cond.q then waits
  else if !condPoison && !condTrue s cond then countAhead (advance s i)
  else
    match raClassOf i with
    | .ends n => stop n
    | .transfer =>
      if poisoned then stop 2
      else if u.srcs.any fun x => srcEmpty r x && srcW x then stop 3
      else if (u.srcs.any (srcEmpty r)) || (u.dsts.any (dstEmpty r)) then waits
      else match body s with
        | .go s' => countAhead (advance (modAhead s' (poisonAll false u.dsts)) i)
        | .jump s' t => countAhead (modRegs (modAhead s' (poisonAll false u.dsts)) fun r => { r with pc := t })
        | _ => stop 3
    | cls =>
      -- a store whose address is known is suppressed there, though what it stores is poisoned
      if poisoned && (places.any (poisonSrc a) || stores.isEmpty) then pass s true
      else if poisoned && !places.any (srcEmpty r) then pass (suppress s) true
      else if u.srcs.any fun x => srcEmpty r x && srcW x then stop 3
      else if (u.srcs.any (srcEmpty r)) || (u.dsts.any (dstEmpty r)) then waits
      else match cls with
        | .skip => pass s true
        | .load =>
          let met := loads.any fun l => a.stores.any fun t => decide (l.1 < t.1 + t.2) && decide (t.1 < l.1 + l.2)
          match body s with
          | .go s' => if met then pass (walked s') true else pass s' false
          | .trap s' t =>
            if t.cause = 7 then pass (modAhead (walked s') fun a => recordPages a t.pages) true else walkedStop s' 3
          | .unplaced s' => pass (walked s') true
          | _ => if met then pass s true else waits
        | .store =>
          match body s with
          | .trap s' t =>
            if t.cause = 7 then
              pass (suppress (modAhead (walked s') fun a => recordPages a t.pages)) true
            else walkedStop s' 3
          | .hold => stop 3
          | .go s' => pass (suppress (walked s')) true
          | .unplaced s' => pass (suppress (walked s')) true
          | _ => pass (suppress s) true
        | .suppressed =>
          match body s with
          | .trap s' t => if t.cause = 7 then pass (walked s') true else walkedStop s' 3
          | .hold => stop 3
          | .go s' => pass (suppress (walked s')) true
          | _ => pass (suppress s) true
        | _ =>
          match body s with
          | .go s' => pass s' false
          | .trap _ _ => stop 3
          | .hold => stop 3
          | _ => pass s true

/-- How the body of an instruction ends, outside run-ahead. A translation that fails while accesses before it wait for their
turn is no fault yet: its walk follows them, and the instruction waits for them (18 R383) (in part DEDUCED, log 38). -/
def endOf (i : Instr) (s : State) (stores : List (Nat × Nat)) : Act → State
  | .go s' => advance s' i
  | .jump s' t => modRegs s' fun r => { r with pc := t }
  | .stay s' => s'
  | .hold => wait s
  | .trap s' t => if t.cause = 7 ∧ mustFollow (myRegs s) = true then wait s else raiseTrap s' i t stores
  | .unplaced s' => s'

/-- The issue of an instruction whose word has passed steps 1 to 8 of 06 Table 6.5 in decoding: the checks of steps 6
and 8 that depend on the context and core, the condition, the sources and destinations, then the body (step 11). An EMPTY
source with W = 1 traps at once, also beside a source or destination that would wait (the spec does not say which comes
first; DESIGN CHOICE, log 40). loads and stores are the ranges it addresses, for run-ahead. -/
def issueWith (i : Instr) (s : State) (loads stores : List (Nat × Nat)) (body : State → Act) : State :=
  let x := me s
  let r := x.regs
  let u := useOf i
  let c := condOf i
  match x.ra with
  | some a => issueAhead i s a loads stores body
  | none =>
    if isPrivileged i && x.priv == 0 then raiseTrap s i tPRIVILEGE []
    else if absentOn i (isGw (myId s)) then raiseTrap s i tILLEGAL []
    else if qEmpty r c.q then wait s
    else if !condTrue s c then advance s i
    else if u.srcs.any fun y => srcEmpty r y && srcW y then raiseTrap s i tFE []
    else if (u.srcs.any (srcEmpty r)) || (u.dsts.any (dstEmpty r)) || fenced s i then wait s
    else endOf i s stores (body s)

def issue (i : Instr) (s : State) (body : State → Act) : State := issueWith i s [] [] body

/-! Long-latency producers (06 R151) -/

def destOf : Dest → List Dst
  | .s r => [.s r]
  | .pair r => [.s r, .s (nextS r)]
  | .v r => [.v r]

def markDest (r : Regs) (d : Dest) (e : Bool) : Regs :=
  match d with
  | .s n => markS r n e
  | .pair n => markS (markS r n e) (nextS n) e
  | .v n => markV r n e

/-- Start a producer: its destination is EMPTY until PRODUCER_RESULT. walks: what it translates when it is performed. -/
def produceAt (s : State) (d : Dest) (p : Prod) (walks : List (Nat × List (Nat × Nat))) : State :=
  let priv := (me s).priv.toNat
  let s := modRegs s fun r =>
    { markDest r d true with pend := r.pend ++ [{ id := s.serial, dest := d, prod := p, priv, walks }] }
  { s with serial := s.serial + 1 }
def produce (s : State) (d : Dest) (p : Prod) : State := produceAt s d p []

def wrRes (r : Regs) (d : Dest) (x : Res) : Regs :=
  match d, x with
  | .s n, .s v => wrS r n v
  | .pair n, .pair v w => wrS (wrS r n v) (nextS n) w
  | .v n, .v m v => wrV r n (merge m v (rdV r n))
  | _, _ => r

/-- An access without a result that waits for its turn behind the producers in flight (08 R206). -/
def takeTurn (s : State) (p : Prod) : State := produce s (.s 0) p

/-- A load whose value is known: a producer, or in run-ahead the value at once (18 R388). -/
def produceVal (s : State) (d : Dest) (x : Res) (f : FFlags) : State :=
  if (me s).ra.isSome then raise (modRegs s fun r => wrRes r d x) f else produce s d (.val x f)

/-- Give a waiting producer of a context its value. -/
def fulfil (s : State) (c n id : Nat) (x : Res) (f : FFlags) : State :=
  modBoth s c n fun r => { r with pend := r.pend.map fun p =>
    if p.id = id then { p with prod := .val x f } else p }

/-- Change the context of a task, whether it is in its slot or its state is saved (16 R351). -/
def modTask (s : State) (c n uid : Nat) (f : Ctx → Ctx) : State :=
  if (getCtx s c n).uid = uid then modCtx s c n f
  else modCore s c fun k => { k with parked := k.parked.map fun e => if e.1 = uid then (e.1, f e.2) else e }

/-- OR an engine's flags into FSTAT of the context that issued its command, while that task runs (03 R75, 08 R214). -/
def engineFlags (s : State) (c n uid : Nat) (f : FFlags) : State :=
  let g (r : Regs) : Regs := { r with fstat := r.fstat ||| f }
  modTask s c n uid fun x => { x with regs := g x.regs, ra := x.ra.map fun a => { a with saved := g a.saved } }

/-! Requests that an instruction waits for (02 R58) -/

/-- Make a request once: the body that starts it, then wait for its answer, then complete. -/
def request (s : State) (start : State → Nat → State) (finish : State → Act) : Act :=
  match (me s).await with
  | none => .stay (start (modMe { s with serial := s.serial + 1 } fun x => { x with await := some { id := s.serial, done := false } }) s.serial)
  | some w => if w.done then finish (modMe s fun x => { x with await := none }) else .hold

/-! Contexts that end and start -/

/-- Number of resident contexts of a core. -/
def residents (k : Core) : List Nat := (List.range 8).filter fun n => (ctxOf k n).resident
def freeCtx (k : Core) : Option Nat := (List.range (pwCtx k.pword)).find? fun n => !(ctxOf k n).resident

/-- The state that every start of a context sets (02 R54, 17 R373): registers clear and FULL, OVP and TVEC from the
partition, a new task number. The fault batch registers are the slot's (18 R390). -/
def startCtx (s : State) (c n : Nat) (x : Ctx) : State :=
  let p := getPart s (partOf s c)
  let fresh : Ctx :=
    { x with uid := s.serial, resident := true, ovp := p.ovbase + word (8 * c + n) * p.ovstride, tvec := p.tvbase,
             lastIssue := (getCtx s c n).lastIssue, batch := (getCtx s c n).batch }
  modCore { s with serial := s.serial + 1 } c fun k => { k with ctxs := mset k.ctxs n fresh }

end Sys2Proof.Machine
end

