-- ==== Sys2Proof/Machine/Device.lean ====
section
/-! DEFINITION. The device space (20 R400): the blocks of registers, who may reach them, and what a read or a write of
each register does. Cores, the host and the steps that are named after one write share these operations. -/

namespace Sys2Proof.Machine

/-- Who reaches the device space: its privilege, the partition it acts for (none: every one), whether it is the host,
and whether it is PF0 (20 R401). -/
structure Who where
  priv : Nat
  part : Option Nat
  host : Bool
  pf0 : Bool
  deriving DecidableEq, Repr

/-- The registers of 20 Table 20.1. -/
inductive DReg where
  | lqbase (p q : Nat)
  | lqctl (p q : Nat)
  | lqtail (p q : Nat)
  | lqhead (p q : Nat)
  | evbase (p : Nat)
  | evctl (p : Nat)
  | evtail (p : Nat)
  | evhead (p : Nat)
  | lustat (p : Nat)
  | ovbase (p : Nat)
  | ovstride (p : Nat)
  | tvbase (p : Nat)
  | ftbase (p : Nat)
  | ftctl (p : Nat)
  | fthead (p : Nat)
  | fttail (p : Nat)
  | ftspare (p : Nat)
  | ftclaims (p : Nat)
  | ftlost (p : Nat)
  | pcfg (p : Nat)
  | modid
  | herr
  | bqlb (n : Nat)
  | bqctl (n : Nat)
  | slp (n : Nat)
  | route (p m : Nat)
  | pwrctl (z : Nat)
  | pwrstall (z : Nat)
  | aelbase (k : Nat)
  | aelctl (k : Nat)
  | aelhead (k : Nat)
  | aeltail (k : Nat)
  | telbase (k : Nat)
  | telctl (k : Nat)
  | telhead (k : Nat)
  | teltail (k : Nat)
  | raslost (k : Nat)
  | spares (k half : Nat)
  | bootEntries (w : Nat)
  | bootCount
  | bootclr
  | wreset
  | atnonce (w : Nat)
  | atbuf
  | atgo
  | atstat
  | fb (c n i : Nat)
  deriving DecidableEq, Repr

def luReg (p o : Nat) : Option DReg :=
  if o < 0x800 then
    match o % 32 with
    | 0 => some (.lqbase p (o / 32))
    | 8 => some (.lqctl p (o / 32))
    | 16 => some (.lqtail p (o / 32))
    | 24 => some (.lqhead p (o / 32))
    | _ => none
  else match o with
    | 0x800 => some (.evbase p)
    | 0x808 => some (.evctl p)
    | 0x810 => some (.evtail p)
    | 0x818 => some (.evhead p)
    | 0x820 => some (.lustat p)
    | 0x828 => some (.ovbase p)
    | 0x830 => some (.ovstride p)
    | 0x838 => some (.tvbase p)
    | _ => none

def trReg (p o : Nat) : Option DReg :=
  match o with
  | 0 => some (.ftbase p)
  | 8 => some (.ftctl p)
  | 0x10 => some (.fthead p)
  | 0x18 => some (.fttail p)
  | 0x20 => some (.ftspare p)
  | 0x28 => some (.ftclaims p)
  | 0x30 => some (.ftlost p)
  | _ => none

def hbmReg (k o : Nat) : Option DReg :=
  match o with
  | 0 => some (.aelbase k)
  | 8 => some (.aelctl k)
  | 0x10 => some (.aelhead k)
  | 0x18 => some (.aeltail k)
  | 0x20 => some (.telbase k)
  | 0x28 => some (.telctl k)
  | 0x30 => some (.telhead k)
  | 0x38 => some (.teltail k)
  | 0x40 => some (.raslost k)
  | 0x48 => some (.spares k 0)
  | 0x50 => some (.spares k 1)
  | _ => none

def bootReg (o : Nat) : Option DReg :=
  match o with
  | 0 => some (.bootEntries 0)
  | 8 => some (.bootEntries 1)
  | 0x10 => some (.bootEntries 2)
  | 0x18 => some (.bootEntries 3)
  | 0x20 => some .bootCount
  | 0x30 => some .bootclr
  | 0x38 => some .wreset
  | 0x100 => some (.atnonce 0)
  | 0x108 => some (.atnonce 1)
  | 0x110 => some (.atnonce 2)
  | 0x118 => some (.atnonce 3)
  | 0x120 => some .atbuf
  | 0x128 => some .atgo
  | 0x130 => some .atstat
  | _ => none

/-- The register at an offset of the device space; none outside the blocks (R400) (in part DEDUCED, log 31). -/
def dregOf (o : Nat) : Option DReg :=
  if o % 8 ≠ 0 then none
  else if 0x100000 ≤ o ∧ o < 0x108000 then luReg ((o - 0x100000) / 0x1000) (o % 0x1000)
  else if 0x200000 ≤ o ∧ o < 0x208000 then trReg ((o - 0x200000) / 0x1000) (o % 0x1000)
  else if 0x300000 ≤ o ∧ o < 0x300040 then some (.pcfg ((o - 0x300000) / 8))
  else if o = 0x300040 then some .modid
  else if o = 0x300048 then some .herr
  else if 0x400000 ≤ o ∧ o < 0x400100 then
    some (if o % 16 = 0 then .bqlb ((o - 0x400000) / 16) else .bqctl ((o - 0x400000) / 16))
  else if 0x500000 ≤ o ∧ o < 0x500C00 then if o % 0x100 = 0 then some (.slp ((o - 0x500000) / 0x100)) else none
  else if 0x502000 ≤ o ∧ o < 0x504000 then some (.route ((o - 0x502000) / 0x400) (o % 0x400 / 8))
  else if 0x600000 ≤ o ∧ o < 0x600400 then
    if o % 0x40 = 0 then some (.pwrctl ((o - 0x600000) / 0x40))
    else if o % 0x40 = 8 then some (.pwrstall ((o - 0x600000) / 0x40))
    else none
  else if 0x700000 ≤ o ∧ o < 0x700C00 then hbmReg ((o - 0x700000) / 0x100) (o % 0x100)
  else if 0x800000 ≤ o ∧ o < 0x801000 then bootReg (o - 0x800000)
  else if 0x1000000 ≤ o then
    let c := (o - 0x1000000) / 2048
    if validCore c ∧ o % 256 / 8 < 17 then some (.fb c (o % 2048 / 256) (o % 256 / 8)) else none
  else none

/-- Partition to which a register belongs; none: the device as a whole, or a unit that no partition owns (in part DEDUCED, log 31). -/
def dregPart (s : State) : DReg → Option Nat
  | .lqbase p _ | .lqctl p _ | .lqtail p _ | .lqhead p _ | .evbase p | .evctl p | .evtail p | .evhead p | .lustat p
  | .ovbase p | .ovstride p | .tvbase p | .ftbase p | .ftctl p | .fthead p | .fttail p | .ftspare p | .ftclaims p
  | .ftlost p | .route p _ => some p
  | .bqlb n | .bqctl n => if (getBq s n).isOpen || (getBq s n).nb != 0 then some (getBq s n).part.toNat else none
  | .slp n => (List.range 8).find? fun p => ownsPort s p n
  | .pwrctl z | .pwrstall z => stratumPart s z
  | .aelbase k | .aelctl k | .aelhead k | .aeltail k | .telbase k | .telctl k | .telhead k | .teltail k | .raslost k
  | .spares k _ => (List.range 8).find? fun p => ownsHbm s p k
  | _ => none

/-! Counters and rings -/

def countHerr (s : State) : State := { s with herr := satInc64 s.herr }

def align (v : Word) (n : Nat) : Word := word (v.toNat / 2 ^ n * 2 ^ n)

/-- A ring size: a power of two from 16 to 65,536 (17 Table 17.1). -/
def ringSizeOk (n : Nat) : Bool := (List.range 13).any fun i => n == 2 ^ (i + 4)

/-- A write of a control register of a ring: EN and SIZE, ignored with another size. -/
def ringCtl (old v : Word) : Word :=
  let size := bitsOf v.toNat 16 0
  if ringSizeOk size then word (b2n (v.getLsbD 63) * 2 ^ 63 + size) else old

def ringSizeField (ctl : Word) : Nat := bitsOf ctl.toNat 16 0

def modQueue (s : State) (p q : Nat) (f : LQueue → LQueue) : State :=
  modPart s p fun x => { x with queues := mset x.queues q (f (mget x.queues q LQueue.reset)) }
def getQueue (s : State) (p q : Nat) : LQueue := mget (getPart s p).queues q LQueue.reset

/-- A write of LQTAIL (17 R363). -/
def lqtailWrite (s : State) (p q : Nat) (v : Word) : State :=
  modQueue s p q fun x => if (v - x.head).toNat ≤ ringSizeField x.ctl then { x with tail := v } else x

/-- A write of EVTAIL (17 Table 17.1). -/
def evtailWrite (s : State) (p : Nat) (v : Word) : State := modPart s p fun x => { x with ev := { x.ev with tail := v } }

/-- A write of FTTAIL (18 Table 18.3). -/
def fttailWrite (s : State) (p : Nat) (v : Word) : State :=
  modPart s p fun x => if (v - x.ft.head).toNat ≤ ringSizeField x.ft.ctl then { x with ft := { x.ft with tail := v } } else x

/-- A write of FTLOST (18 Table 18.3). -/
def ftlostWrite (s : State) (p : Nat) (v : Word) : State :=
  if v.getLsbD 63 then modPart s p fun x => { x with ftLost := 0 } else s

/-! Partition configuration (20 R406, R407) -/

def pcfgMask : Word := 0xC000FFFFFF00FFFF

/-- Whether a core of a stratum holds a resident context. -/
def stratumBusy (s : State) (z : Nat) : Bool :=
  s.cores.any fun e => decide (e.1 < 0x4000) && stratumOf e.1 == z && e.2.ctxs.any fun x => x.2.resident

/-- A write of PCFG(p) by firmware. A stratum whose WAKES is under way is not asleep (DEDUCED, log 34). -/
def pcfgWrite (s : State) (p : Nat) (v : Word) : State :=
  let old := (getPart s p).pcfg
  let v := v &&& pcfgMask
  let others := (List.range 8).filter fun q => q != p && pcfgEn (getPart s q).pcfg
  let clash := others.any fun q =>
    let w := (getPart s q).pcfg
    Nat.land (pcfgStrata v) (pcfgStrata w) != 0 || Nat.land (pcfgHbm v) (pcfgHbm w) != 0 ||
      Nat.land (pcfgPorts v) (pcfgPorts w) != 0
  let strata := (List.range 16).filter fun z => bitOf (pcfgStrata v) z || bitOf (pcfgStrata old) z
  if clash || strata.any (fun z => stratumBusy s z || (getStratum s z).awake || (getLayer s z).wake.isSome) then countHerr s
  else
    rearmRoutes (modPart s p fun x =>
      { x with pcfg := v, sync := if pcfgStrata v = pcfgStrata old then x.sync else [] }) p

/-! Routes and ports (20 R408, R411) -/

/-- A write of a route entry; while no port of it is up, what waits on it fails after 10 ms (20 R412) (in part DEDUCED, log 31). -/
def routeWrite (s : State) (p m : Nat) (v : Word) : State :=
  let ok (n : Nat) : Bool := n == 15 || ownsPort s p n
  if ok (bitsOf v.toNat 3 0) && ok (bitsOf v.toNat 7 4) then
    armRoute (disarmRoutes { s with routes := mset s.routes (routeKey p m) (v.setWidth 8) }) p m
  else s

/-- A write of 1 to RETRAIN: training starts; PORT_UP ends it, with a number of lanes that the spec leaves open (a free value,
log 31). -/
def retrainPort (s : State) (n : Nat) : State :=
  let s := later (modPort s n fun x => { x with training := true }) 1200 .portUp
    { StepArg.none with i := n, j := (Config.trainedLanes s.choice).toNat }
  { s with choice := s.choice + 1 }

def slpValue (p : Port) : Word :=
  word (b2n p.up * 2 ^ 63 + p.lanes.toNat * 2 ^ 48 + p.downs.toNat * 2 ^ 32 + p.replays.toNat)

/-! Block queues (20 R413, 10 R294, R300) -/

def bqlbWrite (s : State) (n : Nat) (v : Word) : State :=
  modBq s n fun q => if q.isOpen then q else { q with lb := align v 3 }

/-- OPEN = 1 opens the queue with an empty ready list; PART and NB are written only while it is closed (in part DEDUCED, log 31). -/
def bqOpen (s : State) (n : Nat) (v : Word) : State :=
  modBq s n fun q =>
    if q.isOpen then { q with ready := [] }
    else { q with isOpen := true, ready := [], part := v.extractLsb' 16 3, nb := v.setWidth 16 }

/-- OPEN = 0 closes the queue as BQDONE does; its ready list stays for BQPOP (10 R297). -/
def bqClose (s : State) (n : Nat) (v : Word) : State :=
  modBq s n fun q =>
    if q.isOpen then { q with isOpen := false } else { q with part := v.extractLsb' 16 3, nb := v.setWidth 16 }

def bqctlValue (q : BlockQueue) : Word := word (b2n q.isOpen * 2 ^ 63 + q.part.toNat * 65536 + q.nb.toNat)

/-! Power (20 R414 to R416) -/

def floorOf (z : Nat) : Nat := (Config.floorFuse z).toNat

/-- The cap point: the deepest that FLOOR permits (in part DEDUCED, log 34). -/
def capPoint (z : Nat) : Nat := if floorOf z < 4 then floorOf z else 4

def modPower (s : State) (z : Nat) (f : Power → Power) : State :=
  modStratum s z fun x => { x with power := f x.power }

/-- Core cycles of a core in twelve beats: the arithmetic clock of its stratum at its operating point (00 R6, 20 Table
20.6a); the base die's is fixed (01 R26). -/
def clockRate (s : State) (c : Nat) : Nat := if isGw c then 6 else Nat.max 1 (6 - (powerOf s (stratumOf c)).cur.toNat)

/-- Core cycles of a core that have begun before this pair of beats, counted at its present operating point. -/
def cycleNumber (s : State) (c : Nat) : Nat := s.stc.toNat / 2 * clockRate s c / 6

/-- Whether a core cycle of a core begins in this pair of beats. -/
def inCycle (s : State) (c : Nat) : Bool := (s.stc.toNat / 2 + 1) * clockRate s c / 6 != cycleNumber s c

/-- Core cycles that have begun by now, a wait's own among them: in a cycle in which instructions are issued it counts too, and
at the start of a pair of beats, before any core has had its turn, it does not. -/
def cyclesBegun (s : State) (c : Nat) : Nat :=
  if s.stc.toNat % 2 = 0 ∧ s.visit = 0 ∧ s.issuing = false then cycleNumber s c
  else (s.stc.toNat / 2 + 1) * clockRate s c / 6

/-- The beat at which core cycle i begins at a rate (in part DEDUCED, log 11). -/
def cycleStart (rate i : Nat) : Nat := 2 * ((6 * (i + 1) + rate - 1) / rate - 1)

/-! Waits that are counted in core cycles follow the arithmetic clock of their stratum (00 R6) -/

/-- Whether a timer counts core cycles of a stratum: the end of a YIELD, a phase on its way within one stratum. -/
def countsCycles (s : State) (z : Nat) (t : Step) : Bool :=
  match t.op with
  | .yieldExpiry => !isGw t.arg.i && stratumOf t.arg.i == z
  | .barrierPhaseComplete => (getPart s t.arg.i).gangs.any fun g => g.id == t.arg.j && g.z0 == z && bitsOf g.desc.toNat 77 74 == 0
  | _ => false

/-- The time that a stopped wait has still to run is kept above every stack time. -/
def heldTime : Word := 0x4000000000000000

/-- The beat at which a wait ends that ends with the start of the n-th core cycle from now. -/
def waitEnd (s : State) (c n : Nat) : Word := word (cycleStart (clockRate s c) (cyclesBegun s c + n - 1))

/-- Whether a wait stands still with its clock. -/
def isHeld (t : Word × Step) : Bool := decide (heldTime.toNat ≤ t.1.toNat)

/-- The clock of a stratum stops: its waits keep the core cycles that they have still to run; those that stand still already keep
them as they are. -/
def stopWaits (s : State) (z : Nat) : State :=
  let c := 1024 * z
  { s with timers := s.timers.map fun t =>
      if countsCycles s z t.2 && !isHeld t then
        (heldTime + word (t.1.toNat / 2 * clockRate s c / 6 + 1 - cyclesBegun s c), t.2)
      else t }

/-- The clock of a stratum runs again, at its rate; while the thermal guard keeps it stopped its waits stand still. What has
been held on its way to a bitmap there is performed. -/
def resumeWaits (s : State) (z : Nat) : State :=
  if (powerOf s z).halt then s
  else
    let timers := s.timers.map fun t =>
      if countsCycles s z t.2 && isHeld t then (waitEnd s (1024 * z) (t.1 - heldTime).toNat, t.2) else t
    landReports { s with timers } z

/-- A wait begins that ends with the start of the n-th core cycle of a core from now, the present one not counted. -/
def laterCycles (s : State) (c n : Nat) (op : Instr) (arg : StepArg) : State :=
  { s with timers := s.timers ++ [(if clockStopped s c then heldTime + word n else waitEnd s c n, ⟨op, arg⟩)] }

/-- The voltage ramps from where it stands to that of a point: the points lie 50 mV apart, at 10 mV per µs (20 Table 20.6a). -/
def startRamp (s : State) (z : Nat) (t : BitVec 3) (phase : PowerPhase) : State :=
  let v := (powerOf s z).volt.toNat
  later (modPower s z fun p => { p with status := 1, phase := some phase }) ((max v t.toNat - min v t.toNat) * 5 * beatsPerUs)
    .voltageRampDone { StepArg.none with i := z }

/-- The frequency switches: the clock stops for 2 µs. -/
def startSwitch (s : State) (z : Nat) (phase : PowerPhase) : State :=
  later (modPower (stopWaits s z) z fun p => { p with status := 1, phase := some phase }) (2 * beatsPerUs)
    .frequencyStopEnd { StepArg.none with i := z }

/-- A stratum stays at its point, with a STATUS; a voltage that stands elsewhere ramps back to it first. -/
def restPower (s : State) (z : Nat) (status : BitVec 4) : State :=
  let p := powerOf s z
  if p.volt = p.cur then modPower s z fun p => { p with status, phase := none } else startRamp s z p.cur (.rampDown p.cur)

/-- Start the phases of a step from CUR to a point; at the point already, STATUS is 0. Toward a lower-numbered point the voltage
ramps first, unless it stands there already (in part DEDUCED, log 34). -/
def startPower (s : State) (z target : Nat) (status : Nat) : State :=
  let p := powerOf s z
  let t := BitVec.ofNat 3 target
  if t = p.cur then restPower s z (BitVec.ofNat 4 status)
  else if t.toNat < p.cur.toNat then if p.volt = t then startSwitch s z (.switchUp t) else startRamp s z t (.rampUp t)
  else startSwitch s z (.switchDown t)

/-- What a request that stands in REQ comes to: the STATUS that denies it, or the point to step to with its STATUS (in part
DEDUCED, log 31). -/
def requestOf (s : State) (z : Nat) : Except Nat (Nat × Nat) :=
  let p := powerOf s z
  let r := p.req.toNat
  if 4 < r then .error 5
  else if !(getStratum s z).awake then .error 3
  else if floorOf z < r then .error 2
  else if p.hot && decide (r < capPoint z) then if p.cur.toNat = capPoint z then .error 4 else .ok (capPoint z, 4)
  else .ok (r, 0)

/-- A denied request sets STATUS alone (20 R416). -/
def denyReq (s : State) (z n : Nat) : State := modPower s z fun p => { p with status := BitVec.ofNat 4 n }

def takeReq (s : State) (z : Nat) : State :=
  match requestOf s z with
  | .error n => denyReq s z n
  | .ok (t, st) => startPower s z t st

/-- A write of REQ: during a step it waits for the end of the phase. -/
def reqWrite (s : State) (z : Nat) (v : Word) : State :=
  let s := modPower s z fun p => { p with req := v.setWidth 3 }
  match (powerOf s z).phase with
  | some _ => modPower s z fun p => { p with newReq := true }
  | none => takeReq s z

/-- STATUS as it reads: 4 while HALT is set (R416). -/
def statusOfPower (p : Power) : Nat := if p.halt then 4 else p.status.toNat

def pwrctlValue (s : State) (z : Nat) : Word :=
  let p := powerOf s z
  word (b2n p.halt * 2 ^ 25 + b2n p.hot * 2 ^ 24 + statusOfPower p * 2 ^ 20 + floorOf z * 2 ^ 16 + p.cur.toNat * 256 +
    p.req.toNat)

/-! HBM stacks (20 R419) -/

/-- Spare lanes left of a channel; 4 after reset. -/
def sparesOf (h : HbmStack) (ch : Nat) : BitVec 4 := mget h.spares ch 4
def sparesWord (h : HbmStack) (half : Nat) : Word :=
  word ((List.range 16).foldl (fun acc i => acc + (sparesOf h (16 * half + i)).toNat * 2 ^ (4 * i)) 0)

/-! Boot record and attestation (20 R421, R424) -/

def bootEntry (s : State) (n : Nat) : BitVec 8 := mget s.boot.entries n 0
def modBoot (s : State) (n : Nat) (f : BitVec 8 → BitVec 8) : State :=
  { s with boot := { s.boot with entries := mset s.boot.entries n (f (bootEntry s n)) } }
def bootWord (s : State) (w : Nat) : Word := word (fromLe ((List.range 8).map fun i => bootEntry s (8 * w + i)))

/-- BOOTCLR: FAILS of a step is cleared. -/
def bootClear (s : State) (v : Word) : State :=
  if v.toNat < 32 then modBoot s v.toNat fun e => e &&& 0x0F else s

/-- ATGO: the report starts, unless one is being made. -/
def startReport (s : State) (v : Word) : State :=
  if v = 1 ∧ s.attest.busy = false then
    later { s with attest := { s.attest with busy := true, stat := 0 } } beatsPerUs .attestationReportDone StepArg.none
  else s

def resetKey : Word := 0x57525354

/-- A warm reset that software asks for is the next step; the primary and the alternate of every boot step succeed in it
(DEDUCED, log 15). -/
def askReset (s : State) : State :=
  { s with agenda := ⟨.wreset, { StepArg.none with x := 0x1FFF, y := 0x1FFF }⟩ :: s.agenda }

/-! Reading and writing -/

/-- A flow completes when each of its gangs has completed or has been reported (17 R368). -/
def flowDone (f : JobFlow) : Bool := f.gangs.all fun g => match g.status with
  | .completed => true
  | .reported => true
  | _ => false

/-- Admitted flows that are not complete. -/
def openFlows (p : Partition) : Nat := (p.jobs.map fun j => (j.flows.filter fun f => !flowDone f).length).sum

/-- The lowest gang id from 1 to 65,535 that is free (17 R372). -/
def freeGangId (p : Partition) : Option Nat :=
  ((List.range (p.gangs.length + 1)).map (· + 1)).find? fun n => decide (n < 65536) && !(p.gangs.any fun g => g.id == n)

/-- LUSTAT (17 Table 17.1); a reserving gang has the id that it would be placed under (in part DEDUCED, log 23). -/
def lustatValue (p : Partition) : Word :=
  let res := if p.reserving.isSome then (freeGangId p).getD 0 else 0
  word (p.gangs.length + res * 65536 + openFlows p * 2 ^ 32)

/-- The value that a read of a register returns. -/
def dregRead (s : State) : DReg → Word
  | .lqbase p q => (getQueue s p q).base
  | .lqctl p q => (getQueue s p q).ctl
  | .lqtail p q => (getQueue s p q).tail
  | .lqhead p q => (getQueue s p q).head
  | .evbase p => (getPart s p).ev.base
  | .evctl p => (getPart s p).ev.ctl
  | .evtail p => (getPart s p).ev.tail
  | .evhead p => (getPart s p).ev.head
  | .lustat p => lustatValue (getPart s p)
  | .ovbase p => (getPart s p).ovbase
  | .ovstride p => (getPart s p).ovstride
  | .tvbase p => (getPart s p).tvbase
  | .ftbase p => (getPart s p).ft.base
  | .ftctl p => (getPart s p).ft.ctl
  | .fthead p => (getPart s p).ft.head
  | .fttail p => (getPart s p).ft.tail
  | .ftspare p => (getPart s p).ftSpare
  | .ftclaims p => (getPart s p).ftClaims
  | .ftlost p => (getPart s p).ftLost
  | .pcfg p => (getPart s p).pcfg
  | .modid => s.modid.setWidth 64
  | .herr => s.herr
  | .bqlb n => (getBq s n).lb
  | .bqctl n => bqctlValue (getBq s n)
  | .slp n => slpValue (getPort s n)
  | .route p m => (routeOf s p m).setWidth 64
  | .pwrctl z => pwrctlValue s z
  | .pwrstall z => word ((powerOf s z).stallRatio.toNat + (powerOf s z).stallCount.toNat * 65536)
  | .aelbase k => (getHbm s k).ael.base
  | .aelctl k => (getHbm s k).ael.ctl
  | .aelhead k => (getHbm s k).ael.head
  | .aeltail k => (getHbm s k).ael.tail
  | .telbase k => (getHbm s k).tel.base
  | .telctl k => (getHbm s k).tel.ctl
  | .telhead k => (getHbm s k).tel.head
  | .teltail k => (getHbm s k).tel.tail
  | .raslost k => word ((getHbm s k).lostA.toNat + (getHbm s k).lostT.toNat * 2 ^ 32)
  | .spares k half => sparesWord (getHbm s k) half
  | .bootEntries w => bootWord s w
  | .bootCount => s.boot.count
  | .bootclr => 0
  | .wreset => 0
  | .atnonce w => s.attest.nonce.getD w 0
  | .atbuf => s.attest.buf
  | .atgo => 0
  | .atstat => s.attest.stat
  | .fb c n i => (getCtx s c n).batch.getD i 0

/-- The effect of a write of a register that its writer may write. A write of a read-only register is ignored (00 Table
0.3); one of a firmware-only register by another writer is counted (R400). -/
def dregWrite (s : State) (w : Who) (v : Word) : DReg → State
  | .lqbase p q => modQueue s p q fun x => { x with base := align v 12 }
  | .lqctl p q => modQueue s p q fun x => { x with ctl := ringCtl x.ctl v }
  | .lqtail p q => lqtailWrite s p q v
  | .evbase p => modPart s p fun x => { x with ev := { x.ev with base := align v 12 } }
  | .evctl p => modPart s p fun x => { x with ev := { x.ev with ctl := ringCtl x.ev.ctl v } }
  | .evtail p => evtailWrite s p v
  | .ovbase p => modPart s p fun x => { x with ovbase := align v 6 }
  | .ovstride p => modPart s p fun x => { x with ovstride := align v 6 }
  | .tvbase p => modPart s p fun x => { x with tvbase := align v 5 }
  | .ftbase p => modPart s p fun x => { x with ft := { x.ft with base := align v 12 } }
  | .ftctl p => modPart s p fun x => { x with ft := { x.ft with ctl := ringCtl x.ft.ctl v } }
  | .fttail p => fttailWrite s p v
  | .ftlost p => ftlostWrite s p v
  | .pcfg p => if w.priv = 2 then pcfgWrite s p v else countHerr s
  | .modid => if w.priv = 2 then { s with modid := v.setWidth 7 } else countHerr s
  | .bqlb n => bqlbWrite s n v
  | .bqctl n => if v.getLsbD 63 then bqOpen s n v else bqClose s n v
  | .slp n => if v.getLsbD 62 then retrainPort s n else s
  | .route p m => routeWrite s p m v
  | .pwrctl z => reqWrite s z v
  | .aelbase k => modHbm s k fun h => { h with ael := { h.ael with base := align v 12 } }
  | .aelctl k => modHbm s k fun h => { h with ael := { h.ael with ctl := ringCtl h.ael.ctl v } }
  | .aeltail k => modHbm s k fun h => { h with ael := { h.ael with tail := v } }
  | .telbase k => modHbm s k fun h => { h with tel := { h.tel with base := align v 12 } }
  | .telctl k => modHbm s k fun h => { h with tel := { h.tel with ctl := ringCtl h.tel.ctl v } }
  | .teltail k => modHbm s k fun h => { h with tel := { h.tel with tail := v } }
  | .raslost k => modHbm s k fun h => { h with lostA := 0, lostT := 0 }
  | .bootclr => if w.priv = 2 then bootClear s v else countHerr s
  | .wreset => if v = resetKey then (if w.priv = 2 || w.pf0 then askReset s else countHerr s) else s
  | .atnonce n => { s with attest := { s.attest with nonce := listSet s.attest.nonce n v } }
  | .atbuf => { s with attest := { s.attest with buf := align v 12 } }
  | .atgo => startReport s v
  | _ => s

/-- A register of another partition is not written, except by firmware (17 R362). -/
def dregForeign (s : State) (w : Who) (r : DReg) : Bool :=
  match w.part, dregPart s r with
  | some p, some q => p != q
  | _, _ => false

/-- Why an access to the device space fails. -/
inductive DFail where
  | aperture
  | privilege
  deriving DecidableEq, Repr

/-- A load of n bytes at an offset by a core (in part DEDUCED, log 31). -/
def devLoad (s : State) (o n : Nat) : Except DFail Word :=
  match (if n = 8 then dregOf o else none) with
  | some r => .ok (dregRead s r)
  | none => .error .aperture

/-- A store of n bytes at an offset: at system or firmware privilege (17 R362). Stores to the batch registers raise APERTURE
(18 R390) (in part DEDUCED, log 31). -/
def devStore (s : State) (w : Who) (o n : Nat) (v : Word) : Except DFail State :=
  match (if n = 8 then dregOf o else none) with
  | some (.fb ..) => .error .aperture
  | some r => if w.priv = 0 then .error .aperture else if dregForeign s w r then .error .privilege else .ok (dregWrite s w v r)
  | none => .error .aperture

/-- The running context as a writer of the device space. -/
def whoMe (s : State) : Who :=
  let p := (me s).priv.toNat
  { priv := p, part := if p = 2 then none else some (partOf s (myId s)), host := false, pf0 := false }

def devTrap (e : DFail) (a : Nat) : Trap :=
  match e with
  | .aperture => tAPERTURE a
  | .privilege => mkTrap 0x02 0

end Sys2Proof.Machine
end

