-- ==== Sys2Proof/Machine/Control.lean ====
section
/-! DEFINITION. Control instructions, majors 0x01 to 0x0D and YIELD (07 R159 to R169). -/

namespace Sys2Proof.Machine

/-- The value of an immediate operand (07 R158). -/
def immW : Imm → Word
  | .i24 v => v.signExtend 64
  | .i32 v => v.signExtend 64
def imm17W : Imm17 → Word
  | .i17 v => v.signExtend 64
  | .i32 v => v.signExtend 64
def opB (s : State) : OpB → Word
  | .reg b => sv s b
  | .imm i => immW i
def selB (s : State) : SelB → Word
  | .reg b => sv s b
  | .imm i => imm17W i

/-- NOP (R160). -/
def execNop (c : Cond) (s : State) : Out := .next (issue (.nop c) s fun s => .go s)

def liValue : LiImm → Word
  | .i24 v => v.signExtend 64
  | .i32 v => v.signExtend 64
  | .i64 v => v

/-- LI (R160). -/
def execLi (c : Cond) (d : SReg) (v : LiImm) (s : State) : Out :=
  .next (issue (.li c d v) s fun s => .go (setS s d (liValue v)))

/-- MOV (R160). -/
def execMov (c : Cond) (d : SReg) (a : SSrc) (s : State) : Out :=
  .next (issue (.mov c d a) s fun s => .go (setS s d (sv s a)))

/-- SEL (R161). -/
def execSel (c : Cond) (d : SReg) (q : QSrc) (a : SSrc) (b : SelB) (s : State) : Out :=
  .next (issue (.sel c d q a b) s fun s => .go (setS s d (if qv s q then sv s a else selB s b)))

/-- CMPQ (R162). -/
def execCmpq (c : Cond) (cc : CmpCond) (d : QReg) (a : SSrc) (b : OpB) (s : State) : Out :=
  .next (issue (.cmpq c cc d a b) s fun s => .go (setQ s d (cmpCond cc (sv s a) (opB s b))))

def qopValue (s : State) (a : QSrc) : QopArg → Bool
  | .bin o b => logBit o (qv s a) (qv s b)
  | .not => !qv s a
  | .mov => qv s a

/-- QOP (R163). -/
def execQop (c : Cond) (d : QReg) (a : QSrc) (o : QopArg) (s : State) : Out :=
  .next (issue (.qop c d a o) s fun s => .go (setQ s d (qopValue s a o)))

/-! Transfers (R164, 06 R136) -/

/-- A transfer to an address; link writes the link register. -/
def transfer (s : State) (t : Word) (link : State → State) : Act :=
  if badTarget t then .trap s (tMISALIGNED t.toNat) else .jump (link s) t

def pcOf (s : State) : Word := (myRegs s).pc
def branchTarget (s : State) (off : Imm) : Word := pcOf s + 4 * immW off
def linkOf (s : State) (i : Instr) : Word := nextPc (pcOf s) i.len

/-- BR (R164). -/
def execBr (c : Cond) (off : Imm) (s : State) : Out :=
  .next (issue (.br c off) s fun s => transfer s (branchTarget s off) id)

/-- CBR (R164). -/
def execCbr (c : Cond) (cc : CmpCond) (a b : SSrc) (off : Imm) (s : State) : Out :=
  .next (issue (.cbr c cc a b off) s fun s =>
    if cmpCond cc (sv s a) (sv s b) then transfer s (branchTarget s off) id else .go s)

/-- JL (R164). -/
def execJl (c : Cond) (d : SReg) (off : Imm) (s : State) : Out :=
  .next (issue (.jl c d off) s fun s =>
    transfer s (branchTarget s off) fun s => setS s d (linkOf s (.jl c d off)))

/-- JLR (R164): a is read before sD is written. -/
def execJlr (c : Cond) (d : SReg) (a : SSrc) (disp : Imm) (s : State) : Out :=
  .next (issue (.jlr c d a disp) s fun s =>
    transfer s (sv s a + immW disp) fun s => setS s d (linkOf s (.jlr c d a disp)))

/-- JR (R164, R165). -/
def execJr (c : Cond) (a : SSrc) (disp : Imm) (s : State) : Out :=
  .next (issue (.jr c a disp) s fun s => transfer s (sv s a + immW disp) id)

/-- TRAP (R166): USER_TRAP with the code, EPC at the TRAP. -/
def execTrap (c : Cond) (code : BitVec 16) (s : State) : Out :=
  .next (issue (.trap c code) s fun s => .trap s { mkTrap 0x12 0 with code := code.toNat })

/-- SYSCALL (R167): the instructions before it have completed, so it waits for their producers; EPC holds next. -/
def execSyscall (c : Cond) (code : BitVec 16) (s : State) : Out :=
  .next (issue (.syscall c code) s fun s =>
    if runsAhead s = false ∧ (myRegs s).pend ≠ [] then .hold
    else .trap s { mkTrap 0x13 0 with code := code.toNat, next := true })

/-- YIELD (R169): not ready for the k + 1 core cycles that follow; YIELD_EXPIRY ends it. -/
def execYield (c : Cond) (k : BitVec 16) (s : State) : Out :=
  .next (issue (.yield c k) s fun s =>
    .go (laterCycles (modMe s fun x => { x with yielding := true }) (myId s) (k.toNat + 2) .yieldExpiry
      { StepArg.none with i := myId s, j := myN s, k := (me s).uid }))

end Sys2Proof.Machine
end

