-- ==== Sys2Proof/Machine/Memory.lean ====
section
/-! DEFINITION. Scalar memory instructions, majors 0x30 to 0x36 (08 R203 to R208), and the operations they share with
the vector accesses: spans for run-ahead, holds on the context's own items in flight, and requests to the
synchronisation engines. -/

namespace Sys2Proof.Machine

def sizeN : Size → Nat
  | .b => 1
  | .h => 2
  | .w => 4
  | .d => 8

/-! Ranges of an access in one space, for run-ahead (18 R388): global bytes at their address, pool bytes of a core from
2^64 up, other apertures at their address -/

def poolSpan (c o n : Nat) : Nat × Nat := (2 ^ 64 + c * 2 ^ 20 + o, n)

/-- The bytes of n codes of window 5 or 6 from an offset, and their group records (04 R100, R104). -/
def quantSpans (d : Word) (c w o n : Nat) : List (Nat × Nat) :=
  let codes := if w = 6 then poolSpan c (o / 2) ((o + n + 1) / 2 - o / 2) else poolSpan c o n
  match quantAt d w o, quantAt d w (o + n - 1) with
  | some a, some b => [codes, poolSpan c a.2 (b.2 + 4 - a.2)]
  | none, some b => [codes, poolSpan c (wdRbase d) (b.2 + 4 - wdRbase d)]
  | _, none => [codes]

/-- The bytes from lo to hi under the swizzle, one by one. -/
def swzBytes (c lo hi : Nat) : List (Nat × Nat) := (List.range (hi - lo)).map fun i => poolSpan c (xs1 (lo + i)) 1

/-- n bytes under the swizzle (04 R109), which permutes each aligned 128 bytes within itself. -/
def swzSpans (c o n : Nat) : List (Nat × Nat) :=
  let lo := (o + 127) / 128 * 128
  let hi := (o + n) / 128 * 128
  if lo < hi then swzBytes c o lo ++ poolSpan c lo (hi - lo) :: swzBytes c hi (o + n) else swzBytes c o (o + n)

def padSpan (s : State) (q : Issuer) (c w : Nat) (x : Bool) (o n : Nat) : List (Nat × Nat) :=
  if w < 5 then
    if x then swzSpans c o n else [poolSpan c o n]
  else if w < 7 then quantSpans (q.desc w) c w o n
  else match regionOf s c (wdRegion q.wd7) with
    | none => []
    | some r => (List.range ((n + 1) / 2)).map fun i =>
        poolSpan c (entryAt r ((o / 2 + i) / r.cols) ((o / 2 + i) % r.cols)) 2

/-- The ranges of an access of a size at an address. -/
def spanOf (s : State) (q : Issuer) (x : Bool) (size a : Nat) : List (Nat × Nat) :=
  match apOf a with
  | .remote c w o => padSpan s q c w x o (winSpan w size)
  | .loc w o => padSpan s q q.core w x o (winSpan w size)
  | .priv o =>
    let k := getCore s q.core
    let sh := shareOf k.pword
    (if o < sh then [poolSpan q.core (spSize k.pword + q.ctx * sh + o) size] else []) ++
      ((globalPart s q size a).map fun p => p)
  | _ => [(a, size)]

/-! The context's own items in flight (05 R115, R118; 08 R288) -/

/-- Bytes of pools that the context's posted stores numbered before upto will write. -/
def postedPlaces (s : State) (c n uid upto : Nat) : List Place :=
  (s.posted.filter fun p => p.core == c && p.ctx == n && p.uid == uid && decide (p.id < upto)).flatMap fun p =>
    p.bytes.map fun b => .pool p.target b.1

def recPlaces (l : Nat) (r : SRec) : List Place :=
  (List.range 8).filterMap fun i => if r.mask.getLsbD i then some (.mirror l (r.off + i)) else none

def beatPlaces (l : Nat) : BeatItem → List Place
  | .store recs => recs.flatMap (recPlaces l)
  | .block _ _ dst len => (List.range len).map fun i => .mirror l (dst + i)
  | _ => []

/-- Mirror bytes that the context's STS and STSB numbered before upto, and those in the air, will write. -/
def ownMirror (s : State) (c n uid upto : Nat) : List Place :=
  let l := layerIn s c
  ((getLayer s l).queue.filter fun q => q.core == c && q.ctx == n && q.uid == uid && decide (q.id < upto)).flatMap (fun q => beatPlaces l q.item) ++
  (s.air.filter fun a => a.layer == l && a.owners.any fun o => o.1 == c && o.2.1 == n && o.2.2.1 == uid && decide (o.2.2.2 < upto)).flatMap fun a => match a.pay with
    | .store recs => recs.flatMap (recPlaces l)
    | _ => []

/-- Bytes of global memory that the context's private stores on their way will write (04 R97). -/
def overflowPlaces (x : Ctx) (upto : Nat) : List Place :=
  (x.fwd.filter fun f => decide (f.id < upto)).flatMap fun f => f.bytes.map fun b => .hbm b.1

/-- Bytes that stores of a context in flight, numbered before upto, will write (05 R115). -/
def ownPlaces (s : State) (c n uid upto : Nat) : List Place :=
  postedPlaces s c n uid upto ++ ownMirror s c n uid upto ++ overflowPlaces (getCtx s c n) upto

/-- A load of a context numbered upto waits while an earlier store of it that overlaps it is in flight. -/
def overlapsOwn (s : State) (c n uid upto : Nat) (els : List El) : Bool :=
  let mine := ownPlaces s c n uid upto
  !mine.isEmpty && els.any fun e => (elPlaces e).any mine.contains

/-- The same of a load that issues now. -/
def ownInFlight (s : State) (els : List El) : Bool := overlapsOwn s (myId s) (myN s) (me s).uid s.serial els

/-- Whether elements lie in a scratchpad of another stratum whose clock stands still (01 R26). -/
def elsStopped (s : State) (c : Nat) (els : List El) : Bool := els.any fun e => placesStopped s c (elPlaces e)

/-! Requests to synchronisation engines (04 R99, 05 R133) -/

def getEngine (s : State) (e : Nat) : List SeReq := mget s.engines e []

/-- Put a request of the running context, numbered id, into the queue of the home engine of an offset of its partition. -/
def seQueue (s : State) (id off : Nat) (pid : Option Nat) (op : SeOp) : State :=
  let c := myId s
  let p := partOf s c
  let e := homeEngine s p off
  let r : SeReq := { id, part := p, core := c, ctx := myN s, uid := (me s).uid, pid, off, op }
  { s with engines := mset s.engines e (getEngine s e ++ [r]) }

/-- Send a request to its home engine, in its turn. release: whether its turn comes only once earlier accesses are performed. -/
def seSend (s : State) (off : Nat) (op : SeOp) (release : Bool) : State :=
  if mustFollow (myRegs s) then takeTurn s (.request off op release)
  else seQueue { s with serial := s.serial + 1 } s.serial off none op

/-- A request whose answer is the value of a destination register, in its turn. -/
def seProduce (s : State) (d : SReg) (off : Nat) (op : SeOp) (release : Bool) : State :=
  if mustFollow (myRegs s) then produce s (.s d) (.request off op release)
  else seQueue (produce s (.s d) .arrives) s.serial off (some s.serial) op

def syncPlaces (s : State) (p off n : Nat) : Nat :=
  fromLe ((List.range n).map fun i => cget (getPart s p).sync (off + i))

/-! Values -/

/-- Extension of a loaded value of n bytes (08 R204). -/
def extend (sx : Bool) (n v : Nat) : Word := if sx then sextW v (8 * n) else word v

/-- The plastic rows that window-7 elements read, brought up to the order of 10 R271. -/
def settleEls (s : State) (els : List El) : State :=
  els.foldl (fun s e => match e with
    | .plast c reg row _ => settleRow s c reg row (freeItem s c)
    | _ => s) s

def isPlast : El → Bool
  | .plast .. => true
  | _ => false

/-- The plastic regions of elements. -/
def plastRegions (els : List El) : List (Nat × Nat) :=
  (els.filterMap fun e => match e with
    | .plast c reg _ _ => some (c, reg)
    | _ => none).dedup

/-- Whether operations on the regions of elements stand in the way of a reader that comes now: those that nothing holds
take effect before it (10 R271). upto: the stamp of the reader, if it has one. -/
def regionsShut (s : State) (els : List El) (stamp : Option Nat) : Bool :=
  (plastRegions els).any fun e =>
    match (getCore (settleCmds s e.1 (freeItem s e.1)) e.1).tl.find? (namesRegion e.2) with
    | some (.cmd id ..) => some id != stamp
    | _ => false

/-- Start a read that is performed later: through window 7 it is stamped now (10 R271). -/
def produceRead (s : State) (d : Dest) (p : Prod) (els : List El) (walks : List (Nat × List (Nat × Nat))) : State :=
  let pid := s.serial
  let t := produceAt s d p walks
  match plastRegions els with
  | [] => t
  | rs => modMyCore t fun k => { k with tl := k.tl ++ [.cmd pid (myN s) (me s).uid (.stamp pid (rs.map (·.2)))] }

/-- The value of the elements of a scalar access: one, or two of 32 bits, the first in the low half (04 R100). -/
def elsValue (s : State) (els : List El) : Bits :=
  match els with
  | [e] => readEl s e
  | [e, f] =>
    let a := readEl s e
    let b := readEl s f
    (a.1 + b.1 * 2 ^ 32, a.2 ||| b.2)
  | _ => (0, 0)

def addrOf (s : State) (a : SSrc) (disp : Imm) : Nat := (sv s a + immW disp).toNat

/-- An acquire: later accesses wait for its own request, if that is still on its way (05 R118, R120). lo is the number
from which its items count. -/
def acquireHold (s : State) (lo : Nat) : State := addHold s 3 lo true

/-- The body of LD and LDA. -/
def loadBody (k : Acs) (sz : Size) (sx x : Bool) (d : SReg) (addr : Nat) (s : State) : Act :=
  let q := issuer s
  let n := sizeN sz
  match resolve s q k n sx x [(0, addr)] with
  | (s, .error (.trap t)) => .trap s t
  | (s, .error .unplaced) => .unplaced s
  | (s, .ok [(_, .els els)]) =>
    if ownInFlight s els || elsStopped s q.core els then .hold
    else if q.ahead && els.any isPlast then .unplaced s
    else if !q.ahead && (mustFollow (myRegs s) || regionsShut s els none) then
      .go (produceRead s (.s d) (.read { els := els.map fun e => (0, e), vec := false, bytes := n, sx }) els
        (laneWalks s q n [(0, addr)]))
    else
      let s := settleEls (touchEls s (partOf s q.core) els) els
      let v := elsValue s els
      .go (produceVal s (.s d) (.s (extend sx n v.1)) v.2)
  | (s, .ok [(_, .sync off)]) =>
    if q.ahead then .go (setS s d (extend sx n (syncPlaces s (partOf s q.core) off n)))
    else .go (seProduce s d off (.load n sx) false)
  | (s, .ok [(_, .device off)]) =>
    match devLoad s off n with
    | .ok v => if mustFollow (myRegs s) then .go (produce s (.s d) (.device off none)) else .go (produceVal s (.s d) (.s v) 0)
    | .error e => .trap s (devTrap e addr)
  | (s, .ok _) => .go s

/-- LD (R204). -/
def execLd (c : Cond) (sz : Size) (sx xs1 : Bool) (d : SReg) (a : SSrc) (disp : Imm) (s : State) : Out :=
  .next (issueWith (.ld c sz sx xs1 d a disp) s (spanOf s (issuer s) xs1 (sizeN sz) (addrOf s a disp)) []
    (loadBody .ld sz sx xs1 d (addrOf s a disp)))

/-- LDA (R205): a load that is an acquire. -/
def execLda (c : Cond) (sz : Size) (scope : Scope) (d : SReg) (a : SSrc) (disp : Imm) (s : State) : Out :=
  .next (issueWith (.lda c sz scope d a disp) s (spanOf s (issuer s) false (sizeN sz) (addrOf s a disp)) [] fun s =>
    match loadBody .lda sz false false d (addrOf s a disp) s with
    | .go s' => .go (acquireHold s' s.serial)
    | r => r)

/-! Stores -/

/-- Post a store to a pool through the remote aperture: checked and performed at the target (04 R102). -/
def postStore (s : State) (target : Nat) (addr : Nat) (bs : List (Nat × Byte)) : State :=
  let p : Posted := { id := s.serial, core := myId s, ctx := myN s, uid := (me s).uid, target, addr := word addr,
                      tag := (me s).gen, bytes := bs }
  { s with serial := s.serial + 1, posted := s.posted ++ [p] }

def offBytes (ws : List (Place × Byte)) : List (Nat × Byte) :=
  ws.filterMap fun w => match w.1 with
    | .pool _ off => some (off, w.2)
    | _ => none

def isFwd : Place → Bool
  | .fwd .. => true
  | _ => false

/-- Perform the bytes of a store that is not posted: the overflow bytes of private stores enter the forwarding table as
one entry (04 R97), the others are written; stores to a peer also leave as packets (05 R131). -/
def landStore (s : State) (kind : Nat) (ws : List (Place × Byte)) : State :=
  let far := ws.filterMap fun w => match w.1 with
    | .fwd _ _ pa => some (pa, w.2)
    | _ => none
  let s := writePlaces s ((nearWrites ws).filter fun w => !isFwd w.1)
  let s := if far.isEmpty then s
    else modMe { s with serial := s.serial + 1 } fun x => { x with fwd := x.fwd ++ [{ id := s.serial, bytes := far }] }
  sendPeerStores s (myId s) (myN s) (partOf s (myId s)) (me s).gen kind none (ws.filterMap fun w => match w.1 with
    | .hbm pa => some (pa, w.2)
    | _ => none)

/-- Perform the checked store through an address: posted through the remote aperture, else at once. -/
def putStore (s : State) (kind addr : Nat) (ws : List (Place × Byte)) : State :=
  match apOf addr with
  | .remote c .. => postStore s c addr (offBytes ws)
  | _ => landStore s kind ws

/-- Whether a store of the context to these places must wait: an earlier store in flight to the same bytes (05 R115), a
full forwarding table (04 R97), a full window of packets to a peer (20 R410). Posted stores keep their order among
themselves. While the table is full every private store waits, one wholly in the carve-out too. -/
def storeWaits (s : State) (addr : Nat) (ps : List Place) : Bool :=
  let mine := postedPlaces s (myId s) (myN s) (me s).uid s.serial ++ overflowPlaces (me s) s.serial
  (match apOf addr with
    | .remote .. => false
    | .priv _ => ps.any mine.contains || decide (16 ≤ (me s).fwd.length)
    | _ => ps.any mine.contains) ||
  (ps.any fun p => match p with
    | .hbm pa => peerFull s pa
    | _ => false)

/-- The bytes and flags of a value stored to elements: one, or two of 32 bits. -/
def elsStore (s : State) (els : List El) (v : Nat) : List (Place × Byte) × FFlags :=
  match els with
  | [e] => writeEl s e v
  | [e, f] =>
    let a := writeEl s e (v % 2 ^ 32)
    -- two nibbles of one byte: the second write sees the first
    let s' := writeBytes s a.1
    let b := writeEl s' f (v / 2 ^ 32)
    (a.1 ++ b.1, a.2 ||| b.2)
  | _ => ([], 0)

/-- The last byte written to each place of a list of writes in order. -/
def lastWrites (ws : List (Place × Byte)) : List (Place × Byte) :=
  ws.foldl (fun acc w => (acc.filter fun a => a.1 != w.1) ++ [w]) []

/-- The peer to which a store travels, if any. -/
def farModule (els : List El) : Option Nat :=
  (els.flatMap elPlaces).findSome? fun p => match p with
    | .hbm pa => if bitOf pa 51 then some (moduleOf pa) else none
    | _ => none

/-- The body of ST and STL. kind is that of the Sloim packet (20 Table 20.3). Behind a producer that it must follow it takes its
turn, and so a release waits there and not at issue (08 R206). -/
def storeBody (k : Acs) (sz : Size) (x : Bool) (kind : Nat) (release : Bool) (addr : Nat) (b : SSrc) (s : State) : Act :=
  let q := issuer s
  let n := sizeN sz
  let v := (sv s b).toNat % 2 ^ (8 * n)
  match resolve s q k n false x [(0, addr)] with
  | (s, .error (.trap t)) => .trap s t
  | (s, .error .unplaced) => .unplaced s
  | (s, .ok [(_, .els els)]) =>
    if !q.ahead && mustFollow (myRegs s) then .go (produceAt s (.s 0) (.put kind addr els v release) (laneWalks s q n [(0, addr)]))
    else if !q.ahead && release && unreleasedBut s (if kind = 4 then farModule els else none) then .hold
    else if !q.ahead && storeWaits s addr (els.flatMap elPlaces) then .hold
    else
      let w := elsStore s els v
      .go (raise (putStore s kind addr (lastWrites w.1)) w.2)
  | (s, .ok [(_, .sync off)]) =>
    if !q.ahead && release && !mustFollow (myRegs s) && unreleased s then .hold
    else .go (seSend s off (.store n (word v)) release)
  | (s, .ok [(_, .device off)]) =>
    match devStore s (whoMe s) off n (word v) with
    | .ok t => .go (if mustFollow (myRegs s) then takeTurn s (.device off (some (word v))) else t)
    | .error e => .trap s (devTrap e addr)
  | (s, .ok _) => .go s

/-- ST (R204). -/
def execSt (c : Cond) (sz : Size) (xs1 : Bool) (a : SSrc) (disp : Imm) (b : SSrc) (s : State) : Out :=
  .next (issueWith (.st c sz xs1 a disp b) s [] (spanOf s (issuer s) xs1 (sizeN sz) (addrOf s a disp))
    (storeBody .st sz xs1 1 false (addrOf s a disp) b))

/-- STL (R205): a store that is a release; to a peer at SYSTEM scope it travels as a release flag (05 R131). -/
def execStl (c : Cond) (sz : Size) (scope : Scope) (a : SSrc) (disp : Imm) (b : SSrc) (s : State) : Out :=
  .next (issueWith (.stl c sz scope a disp b) s [] (spanOf s (issuer s) false (sizeN sz) (addrOf s a disp))
    (storeBody .stl sz false (if scope = .system then 4 else 1) true (addrOf s a disp) b))

/-! LDSY, FECLR, PREF -/

/-- The scratchpad words that elements address (04 R110, R111). -/
def elsWords (els : List El) : List Nat := (wordsOf (els.flatMap elPlaces)).map (·.2)

/-- LDSY (R206): a producer that reads once every word it addresses is FULL; an acquire for later accesses (in part DEDUCED, log 26). -/
def execLdsy (c : Cond) (sz : Size) (sx xs1 : Bool) (d : SReg) (a : SSrc) (disp : Imm) (s : State) : Out :=
  .next (issue (.ldsy c sz sx xs1 d a disp) s fun s =>
    match resolve s (issuer s) .ldsy (sizeN sz) sx xs1 [(0, addrOf s a disp)] with
    | (s, .ok [(_, .els els)]) =>
      .go (produceRead s (.s d) (.sync (elsWords els)
        { els := els.map fun e => (0, e), vec := false, bytes := sizeN sz, sx }) els [])
    | (s, .error (.trap t)) => .trap s t
    | (s, _) => .go s)

/-- The words that a range of bytes touches. -/
def rangeWords (o n : Nat) : List Nat := (List.range ((o + n - 1) / 8 - o / 8 + 1)).map (o / 8 + ·)

/-- Mark words of the running core EMPTY. -/
def emptyWords (s : State) (ws : List Nat) : State := ws.foldl (fun s w => emptyWord s (myId s) w) s

/-- FECLR (R207). An empty range passes nothing: with b = 0 only the window of the address is checked. -/
def execFeclr (c : Cond) (a : SSrc) (disp : Imm) (b : SSrc) (s : State) : Out :=
  .next (issue (.feclr c a disp b) s fun s =>
    let n := (sv s b).toNat
    let addr := addrOf s a disp
    match apOf addr with
    | .loc 0 o =>
      if n = 0 then .go s
      else if 2 ^ 20 < n ∨ coreSp s (myId s) < o + n then .trap s (tAPERTURE addr)
      else if mustFollow (myRegs s) then .go (takeTurn s (.clear (rangeWords o n)))
      else .go (emptyWords s (rangeWords o n))
    | _ => .trap s (tAPERTURE addr))

/-- The page of an entry as a TLB holds it. -/
def tlbEntry (part va level : Nat) (e : Word) : TlbEntry :=
  let bits := leafBits level e
  { part, vpn := va / 2 ^ bits, size := bits, entry := e }

/-- Put an entry first into a TLB of n entries. -/
def tlbPush (n : Nat) (e : TlbEntry) (l : List TlbEntry) : List TlbEntry := (e :: l.filter fun x => x != e).take n

/-- Warm the micro-TLB of a core with the translation of a global address at a privilege, when its walk finds a leaf that
permits the access. An unplaced page is not claimed (R208: no architectural effect). -/
def warmTlb (s : State) (c priv : Nat) (k : AK) (va : Nat) : State :=
  match tlbHit s c va with
  | some _ => s
  | none =>
    let s := touchWalk s (partOf s c) va
    match walkOnce s (partOf s c) priv k va with
    | (.pa _, none, level, e) => modCore s c fun k => { k with utlb := tlbPush 32 (tlbEntry (partOf s c) va level e) k.utlb }
    | _ => s

/-- A core asks the fetch agent of its stratum for a block that it misses under a kernel id: one fetch serves every core
that asks while it is under way (01 R38), from the physical address of the first. The spec gives fetch agents to strata;
the gateway cores of every partition share one of the base die here (DESIGN CHOICE, log 40). -/
def askFill (s : State) (c : Nat) (kid : BitVec 32) (blk pa : Nat) : State :=
  modStratum s (layerOf c) fun z =>
    let mine (f : FillReq) : Bool := f.kid == kid && f.addr == word blk && !f.stale
    if z.fetches.any mine then
      { z with fetches := z.fetches.map fun f => if mine f then { f with cores := insNat f.cores c } else f }
    else { z with fetches := z.fetches ++ [{ kid, addr := word blk, pa, cores := [c], stale := false }] }

/-- PREF warms the TLBs at the privilege of its context; the instruction form also asks for a fill of the fetch block, but
for run-ahead, which leaves no trace in a cache (18 R389, R426). -/
def prefetch (s : State) (instr : Bool) (addr : Nat) : State :=
  let x := me s
  let s := warmTlb s (myId s) x.priv.toNat (if instr then .fetch else .read) addr
  if !instr || x.ra.isSome then s
  else match walkOnce s (partOf s (myId s)) x.priv.toNat .fetch (addr / 32 * 32) with
    | (.pa a, none, _, _) => askFill s (myId s) x.kernel (addr / 32 * 32) a
    | _ => s

/-- PREF (R208): it raises no trap beyond decode, so an EMPTY source with W = 1 makes it do nothing. -/
def execPref (c : Cond) (instr : Bool) (a : SSrc) (disp : Imm) (s : State) : Out :=
  let i : Instr := .pref c instr a disp
  if ((useOf i).srcs.any fun y => srcEmpty (myRegs s) y && srcW y) && !qEmpty (myRegs s) c.q && ((me s).ra.bind fun r => r.ending).isNone then
    .next (if runsAhead s then countAhead (advance s i) else advance s i)
  else .next (issue i s fun s =>
    let addr := addrOf s a disp
    .go (if apOf addr = .glob then prefetch s instr addr else s))

end Sys2Proof.Machine
end

