-- ==== Sys2Proof/Machine/VectorFp.lean ====
section
/-! DEFINITION. Vector floating point, majors 0x40 to 0x51 (08 R190 to R193, 03 R77 to R79): each element is computed
exactly and rounded once. -/

namespace Sys2Proof.Machine

def fpFmt : FpT → Fmt
  | .f32 => fp32
  | .f16 => fp16
  | .bf16 => bf16

/-! Element-wise results (R190) -/

/-- A lane of w-bit elements computed one by one, with the flags of all. -/
def laneBits (w : Nat) (f : Nat → Bits) : Lane × FFlags :=
  let rs := (List.range (32 / w)).map f
  (laneOf w fun j => (rs.getD j (0, 0)).1, rs.foldl (fun a r => a ||| r.2) 0)

/-- The active lanes of a result and the OR of their flags; inactive lanes keep the old content (06 R144, 03 R75). -/
def perLane (m : BitVec 64) (old : VWord) (f : Nat → Lane × FFlags) : VWord × FFlags :=
  let rs := (List.range 64).map fun i => if m.getLsbD i then f i else (lane old i, 0)
  (mkV fun i => (rs.getD i (0, 0)).1, rs.foldl (fun a r => a ||| r.2) 0)

/-- Write a vector result and its flags. -/
def putV (s : State) (p : Pred) (d : VReg) (f : Nat → Lane × FFlags) : Act :=
  let r := perLane (lanes s p) (rdV (myRegs s) d) f
  .go (raise (setV s d r.1) r.2)

/-- Operand B of element j of lane i (R191). -/
def opV (s : State) (b : VOpB) (w i j : Nat) : Nat :=
  match b with
  | .v b => laneElem (lane (vv s b) i) w j
  | .s b => (sv s b).toNat % 2 ^ w

def elV (s : State) (a : VSrc) (w i j : Nat) : Nat := laneElem (lane (vv s a) i) w j

/-- A two-operand instruction on the elements of a type. -/
def fp2 (s : State) (p : Pred) (t : FpT) (d : VReg) (a : VSrc) (b : VOpB) (f : Fmt → Nat → Nat → Bits) : Act :=
  let w := (fpFmt t).width
  putV s p d fun i => laneBits w fun j => f (fpFmt t) (elV s a w i j) (opV s b w i j)

/-- The same with three operands. -/
def fp3 (s : State) (p : Pred) (t : FpT) (d : VReg) (a : VSrc) (b : VOpB) (c : VSrc)
    (f : Fmt → Nat → Nat → Nat → Bits) : Act :=
  let w := (fpFmt t).width
  putV s p d fun i => laneBits w fun j => f (fpFmt t) (elV s a w i j) (opV s b w i j) (elV s c w i j)

def fp1 (s : State) (p : Pred) (t : FpT) (d : VReg) (a : VSrc) (f : Fmt → Nat → Bits) : Act :=
  let w := (fpFmt t).width
  putV s p d fun i => laneBits w fun j => f (fpFmt t) (elV s a w i j)

/-- Round a result once, to nearest even (R192). -/
def rne (f : Fmt) (r : FRes) : Bits := f.encode .rne false r.1 r.2

def elAdd (f : Fmt) (a b : Nat) : Bits := rne f (fAdd (f.decode a) (f.decode b))
def elSub (f : Fmt) (a b : Nat) : Bits := rne f (fAdd (f.decode a) (f.decode b).negate)
def elMul (f : Fmt) (a b : Nat) : Bits := rne f (fMul (f.decode a) (f.decode b))
def elFma (f : Fmt) (a b c : Nat) : Bits := rne f (fFma (f.decode a) (f.decode b) (f.decode c))
def elFms (f : Fmt) (a b c : Nat) : Bits := rne f (fFma (f.decode a) (f.decode b) (f.decode c).negate)
def elFnma (f : Fmt) (a b c : Nat) : Bits := rne f (fFma (f.decode a).negate (f.decode b) (f.decode c))

/-- VADD (R192). -/
def execVadd (p : Pred) (t : FpT) (d : VReg) (a : VSrc) (b : VOpB) (s : State) : Out :=
  .next (issue (.vadd p t d a b) s fun s => fp2 s p t d a b elAdd)

/-- VSUB (R192). -/
def execVsub (p : Pred) (t : FpT) (d : VReg) (a : VSrc) (b : VOpB) (s : State) : Out :=
  .next (issue (.vsub p t d a b) s fun s => fp2 s p t d a b elSub)

/-- VMUL (R192). -/
def execVmul (p : Pred) (t : FpT) (d : VReg) (a : VSrc) (b : VOpB) (s : State) : Out :=
  .next (issue (.vmul p t d a b) s fun s => fp2 s p t d a b elMul)

/-- VFMA (R192): fused. -/
def execVfma (p : Pred) (t : FpT) (d : VReg) (a : VSrc) (b : VOpB) (cc : VSrc) (s : State) : Out :=
  .next (issue (.vfma p t d a b cc) s fun s => fp3 s p t d a b cc elFma)

/-- VFMS (R192): a × b − c. -/
def execVfms (p : Pred) (t : FpT) (d : VReg) (a : VSrc) (b : VOpB) (cc : VSrc) (s : State) : Out :=
  .next (issue (.vfms p t d a b cc) s fun s => fp3 s p t d a b cc elFms)

/-- VFNMA (R192): −(a × b) + c. -/
def execVfnma (p : Pred) (t : FpT) (d : VReg) (a : VSrc) (b : VOpB) (cc : VSrc) (s : State) : Out :=
  .next (issue (.vfnma p t d a b cc) s fun s => fp3 s p t d a b cc elFnma)

/-- VMIN (R192, 03 R77). -/
def execVmin (p : Pred) (t : FpT) (d : VReg) (a : VSrc) (b : VOpB) (s : State) : Out :=
  .next (issue (.vmin p t d a b) s fun s => fp2 s p t d a b fun f x y => minMax f false x y)

/-- VMAX (R192, 03 R77). -/
def execVmax (p : Pred) (t : FpT) (d : VReg) (a : VSrc) (b : VOpB) (s : State) : Out :=
  .next (issue (.vmax p t d a b) s fun s => fp2 s p t d a b fun f x y => minMax f true x y)

/-- VABS (03 R67): the sign bit cleared, no flag. -/
def execVabs (p : Pred) (t : FpT) (d : VReg) (a : VSrc) (s : State) : Out :=
  .next (issue (.vabs p t d a) s fun s => fp1 s p t d a fun f x => (x % f.signBit, 0))

/-- VNEG (03 R67): the sign bit inverted, no flag. -/
def execVneg (p : Pred) (t : FpT) (d : VReg) (a : VSrc) (s : State) : Out :=
  .next (issue (.vneg p t d a) s fun s => fp1 s p t d a fun f x =>
    (if x < f.signBit then x + f.signBit else x - f.signBit, 0))

/-- VRCP (03 R78). -/
def execVrcp (p : Pred) (d : VReg) (a : VSrc) (s : State) : Out :=
  .next (issue (.vrcp p d a) s fun s => fp1 s p .f32 d a fun f x => f32Rcp (f.decode x))

/-- VRSQ (03 R78). -/
def execVrsq (p : Pred) (d : VReg) (a : VSrc) (s : State) : Out :=
  .next (issue (.vrsq p d a) s fun s => fp1 s p .f32 d a fun f x => f32Rsq (f.decode x))

/-- VRSQE (03 R79). -/
def execVrsqe (p : Pred) (d : VReg) (a : VSrc) (b : SSrc) (s : State) : Out :=
  .next (issue (.vrsqe p d a b) s fun s => fp1 s p .f32 d a fun f x =>
    f32Rsqe (f.decode x) (f.decode ((sv s b).toNat % 2 ^ 32)))

/-- VSQRT (03 R78). -/
def execVsqrt (p : Pred) (d : VReg) (a : VSrc) (s : State) : Out :=
  .next (issue (.vsqrt p d a) s fun s => fp1 s p .f32 d a fun f x => f32Sqrt (f.decode x))

/-- VDIV (03 R77, R78). -/
def execVdiv (p : Pred) (d : VReg) (a : VSrc) (b : VOpB) (s : State) : Out :=
  .next (issue (.vdiv p d a b) s fun s => fp2 s p .f32 d a b fun f x y => f32Div (f.decode x) (f.decode y))

/-- VEXP2 (03 R78). -/
def execVexp2 (p : Pred) (d : VReg) (a : VSrc) (s : State) : Out :=
  .next (issue (.vexp2 p d a) s fun s => fp1 s p .f32 d a fun f x => f32Exp2 (f.decode x))

/-- VLOG2 (03 R78). -/
def execVlog2 (p : Pred) (d : VReg) (a : VSrc) (s : State) : Out :=
  .next (issue (.vlog2 p d a) s fun s => fp1 s p .f32 d a fun f x => f32Log2 (f.decode x))

/-- VCLASS (R193): no flag. -/
def execVclass (p : Pred) (t : FpT) (d : VReg) (a : VSrc) (s : State) : Out :=
  .next (issue (.vclass p t d a) s fun s => fp1 s p t d a fun f x => (classMask f x, 0))

end Sys2Proof.Machine
end

