-- ==== Sys2Proof/Machine/VectorMem.lean ====
section
/-! DEFINITION. Vector memory, streams and FIFOs, majors 0x80 to 0x89 (08 R209 to R213). -/

namespace Sys2Proof.Machine

/-! Addresses of the active lanes (R209) -/

/-- Offset units between elements of the window that an address selects. -/
def vecUnit (base : Nat) : Nat := winUnit (apOf base).win

def wrapAddr (base : Nat) (off : Int) : Nat := (((base : Int) + off) % (2 ^ 64 : Nat)).toNat

/-- The active lanes with their addresses; a lane whose address leaves the base's window is accessed through the window of
its own address (the spec does not say; DESIGN CHOICE, log 40). -/
def laneAddrs (s : State) (p : Pred) (base : Nat) (f : Nat → Int) : List (Nat × Nat) :=
  let m := lanes s p
  ((List.range 64).filter fun i => m.getLsbD i).map fun i => (i, wrapAddr base (f i))

def unitAddrs (s : State) (p : Pred) (a : SSrc) (disp : Imm) : List (Nat × Nat) :=
  let base := addrOf s a disp
  laneAddrs s p base fun i => (vecUnit base * i : Nat)

def base17 (s : State) (a : SSrc) (disp : Imm17) : Nat := (sv s a + imm17W disp).toNat

def strideAddrs (s : State) (p : Pred) (a : SSrc) (disp : Imm17) (c : SSrc) : List (Nat × Nat) :=
  laneAddrs s p (base17 s a disp) fun i => (sv s c).toInt * (i : Int)

def gatherAddrs (s : State) (p : Pred) (k : BitVec 2) (a : SSrc) (disp : Imm17) (c : VSrc) : List (Nat × Nat) :=
  laneAddrs s p (base17 s a disp) fun i => ((lane (vv s c) i).toNat * 2 ^ k.toNat : Nat)

def laneSpans (s : State) (x : Bool) (as : List (Nat × Nat)) : List (Nat × Nat) :=
  as.flatMap fun l => spanOf s (issuer s) x 4 l.2

/-! Loads and stores -/

/-- The elements of resolved lanes. -/
def laneEls (r : List (Nat × Acc)) : List (Nat × El) :=
  r.flatMap fun l => match l.2 with
    | .els es => es.map fun e => (l.1, e)
    | _ => []

/-- The lanes that elements give, with the flags of all. -/
def readLanes (s : State) (els : List (Nat × El)) : (BitVec 64 × VWord) × FFlags :=
  let rs := els.map fun l => (l.1, readEl s l.2)
  let m := rs.foldl (fun m r => setBit m r.1 true) (0 : BitVec 64)
  ((m, mkV fun i => match rs.find? fun r => r.1 == i with
    | some r => BitVec.ofNat 32 r.2.1
    | none => 0), rs.foldl (fun f r => f ||| r.2.2) 0)

/-- The body of VLD, VLDS and VGTH (R210). -/
def vloadBody (x : Bool) (d : VReg) (as : List (Nat × Nat)) (s : State) : Act :=
  let q := issuer s
  match resolve s q .vld 4 false x as with
  | (s, .error (.trap t)) => .trap s t
  | (s, .error .unplaced) => .unplaced s
  | (s, .ok r) =>
    let els := laneEls r
    let es := els.map (·.2)
    if ownInFlight s es || elsStopped s q.core es then .hold
    else if q.ahead && es.any isPlast then .unplaced s
    else if !q.ahead && (mustFollow (myRegs s) || regionsShut s es none) then
      .go (produceRead s (.v d) (.read { els, vec := true, bytes := 4, sx := false }) es (laneWalks s q 4 as))
    else
      let s := settleEls (touchEls s (partOf s q.core) es) es
      let v := readLanes s els
      .go (produceVal s (.v d) (.v v.1.1 v.1.2) v.2)

/-- The bytes of lanes stored in ascending order (R210); codes of one byte see each other. -/
def writeLanes : State → List (Nat × El) → VWord → List (Nat × List (Place × Byte)) → FFlags →
    List (Nat × List (Place × Byte)) × FFlags
  | _, [], _, out, f => (out, f)
  | s, (i, e) :: r, v, out, f =>
    let w := writeEl s e (lane v i).toNat
    let s' := match e with
      | .quant .. => writeBytes s w.1
      | _ => s
    writeLanes s' r v (out ++ [(i, w.1)]) (f ||| w.2)

/-- Whether a lane of a vector store must wait. -/
def scatterWaits (s : State) (as : List (Nat × Nat)) (els : List (Nat × El)) : Bool :=
  as.any fun l => storeWaits s l.2 ((els.filter fun e => e.1 == l.1).flatMap fun e => elPlaces e.2)

/-- Perform the checked lanes of a vector store: those through the remote aperture are posted one by one. -/
def putLanes (s : State) (as : List (Nat × Nat)) (els : List (Nat × El)) (v : VWord) : State × FFlags :=
  let ws := writeLanes s els v [] 0
  let far (l : Nat × List (Place × Byte)) : Option Nat :=
    (as.find? fun a => a.1 == l.1).bind fun a => match apOf a.2 with
      | .remote .. => some a.2
      | _ => none
  let s := ws.1.foldl (fun s l => match far l with
    | some addr => putStore s 1 addr l.2
    | none => s) s
  let near := (ws.1.filter fun l => (far l).isNone).flatMap (·.2)
  (landStore s 1 (lastWrites near), ws.2)

/-- The body of VST, VSTS and VSCT. -/
def vstoreBody (x : Bool) (as : List (Nat × Nat)) (b : VSrc) (s : State) : Act :=
  match resolve s (issuer s) .vst 4 false x as with
  | (s, .error (.trap t)) => .trap s t
  | (s, .error .unplaced) => .unplaced s
  | (s, .ok r) =>
    let els := laneEls r
    if (me s).ra.isNone && mustFollow (myRegs s) then
      .go (produceAt s (.s 0) (.scatter as els (vv s b)) (laneWalks s (issuer s) 4 as))
    else if (me s).ra.isNone && scatterWaits s as els then .hold
    else
      let r := putLanes s as els (vv s b)
      .go (raise r.1 r.2)

/-- VLD (R209). -/
def execVld (p : Pred) (xs1 : Bool) (d : VReg) (a : SSrc) (disp : Imm) (s : State) : Out :=
  .next (issueWith (.vld p xs1 d a disp) s (laneSpans s xs1 (unitAddrs s p a disp)) []
    fun s => vloadBody xs1 d (unitAddrs s p a disp) s)

/-- VST (R209). -/
def execVst (p : Pred) (xs1 : Bool) (a : SSrc) (disp : Imm) (b : VSrc) (s : State) : Out :=
  .next (issueWith (.vst p xs1 a disp b) s [] (laneSpans s xs1 (unitAddrs s p a disp))
    fun s => vstoreBody xs1 (unitAddrs s p a disp) b s)

/-- VLDS (R209). -/
def execVlds (p : Pred) (xs1 : Bool) (d : VReg) (a : SSrc) (disp : Imm17) (cc : SSrc) (s : State) : Out :=
  .next (issueWith (.vlds p xs1 d a disp cc) s (laneSpans s xs1 (strideAddrs s p a disp cc)) []
    fun s => vloadBody xs1 d (strideAddrs s p a disp cc) s)

/-- VSTS (R209). -/
def execVsts (p : Pred) (xs1 : Bool) (a : SSrc) (disp : Imm17) (b : VSrc) (cc : SSrc) (s : State) : Out :=
  .next (issueWith (.vsts p xs1 a disp b cc) s [] (laneSpans s xs1 (strideAddrs s p a disp cc))
    fun s => vstoreBody xs1 (strideAddrs s p a disp cc) b s)

/-- VGTH (R209). -/
def execVgth (p : Pred) (k : BitVec 2) (xs1 : Bool) (d : VReg) (a : SSrc) (disp : Imm17) (cc : VSrc) (s : State) : Out :=
  .next (issueWith (.vgth p k xs1 d a disp cc) s (laneSpans s xs1 (gatherAddrs s p k a disp cc)) []
    fun s => vloadBody xs1 d (gatherAddrs s p k a disp cc) s)

/-- VSCT (R209). -/
def execVsct (p : Pred) (k : BitVec 2) (xs1 : Bool) (a : SSrc) (disp : Imm17) (b cc : VSrc) (s : State) : Out :=
  .next (issueWith (.vsct p k xs1 a disp b cc) s [] (laneSpans s xs1 (gatherAddrs s p k a disp cc))
    fun s => vstoreBody xs1 (gatherAddrs s p k a disp cc) b s)

/-- VLDSY (R210): a producer that reads once every word of its active lanes is FULL. -/
def execVldsy (p : Pred) (xs1 : Bool) (d : VReg) (a : SSrc) (disp : Imm) (s : State) : Out :=
  .next (issue (.vldsy p xs1 d a disp) s fun s =>
    match resolve s (issuer s) .vldsy 4 false xs1 (unitAddrs s p a disp) with
    | (s, .error (.trap t)) => .trap s t
    | (s, .error .unplaced) => .unplaced s
    | (s, .ok r) =>
      let els := laneEls r
      .go (produceRead s (.v d) (.sync (elsWords (els.map (·.2))) { els, vec := true, bytes := 4, sx := false })
        (els.map (·.2)) []))

/-! Streams (R211, R212) -/

/-- STRM (R211): no access. It has no lanes, and its predicate governs nothing (the spec does not say; DESIGN CHOICE, log 40). -/
def execStrm (p : Pred) (d : XReg) (a b cc : SSrc) (s : State) : Out :=
  .next (issue (.strm p d a b cc) s fun s =>
    .go (modRegs s fun r => wrX r d
      { base := sv s a, idx := sv s b, n := (sv s cc).setWidth 32, k := (sv s cc).extractLsb' 32 2, cur := 0 }))

/-- The address of raw index words: window 0 of a scratchpad aperture, whatever window the address names (R211) (in part DEDUCED, log 26). -/
def rawAddr (a : Nat) : Nat :=
  match apOf a with
  | .loc w _ => a - w * 2 ^ 20
  | .remote _ w _ => a - w * 2 ^ 20
  | _ => a

/-- The active lanes of a pop that lie below N. -/
def popLanes (s : State) (p : Pred) (x : Stream) : List Nat :=
  let m := lanes s p
  (List.range 64).filter fun i => m.getLsbD i && decide (x.cur + i < x.n.toNat)

/-- The body of SPOP from a stream: index reads, then element reads, then the cursor. Behind a producer that its reads must
follow it waits at issue, since the index words say what it reads and its traps are its own (in part DEDUCED, log 38). -/
def spopBody (p : Pred) (d : VReg) (xr : XReg) (s : State) : Act :=
  let q := issuer s
  let x := rdX (myRegs s) xr
  let is := (popLanes s p x).map fun i => (i, rawAddr (wrapAddr x.idx.toNat (4 * (x.cur + i) : Nat)))
  match resolve s q .vld 4 false false is with
  | (s, .error (.trap t)) => .trap s t
  | (s, .error .unplaced) => .unplaced s
  | (s, .ok r) =>
    let iels := laneEls r
    if ownInFlight s (iels.map (·.2)) || elsStopped s q.core (iels.map (·.2)) || (!q.ahead && mustFollow (myRegs s)) then .hold
    else
      let s := touchEls s (partOf s q.core) (iels.map (·.2))
      let idx := readLanes s iels
      let as := (popLanes s p x).map fun i => (i, wrapAddr x.base.toNat ((lane idx.1.2 i).toNat * 2 ^ x.k.toNat : Nat))
      match resolve s q .vld 4 false false as with
      | (s, .error (.trap t)) => .trap s t
      | (s, .error .unplaced) => .unplaced s
      | (s, .ok r) =>
        let els := laneEls r
        let es := els.map (·.2)
        let cur := if x.cur + 64 < x.n.toNat then x.cur + 64 else x.n.toNat
        let moved (s : State) : State := modRegs s fun r => wrX r xr { x with cur }
        if ownInFlight s es || elsStopped s q.core es then .hold
        else if q.ahead && es.any isPlast then .unplaced s
        else if !q.ahead && regionsShut s es none then
          .go (produceRead (moved s) (.v d) (.read { els, vec := true, bytes := 4, sx := false }) es (laneWalks s q 4 as))
        else
          let s := settleEls (touchEls s (partOf s q.core) es) es
          let v := readLanes s els
          .go (produceVal (moved s) (.v d) (.v v.1.1 v.1.2) v.2)

/-- Ranges that a pop reads: its index words. -/
def popSpans (s : State) (p : Pred) (xr : XReg) : List (Nat × Nat) :=
  let x := rdX (myRegs s) xr
  laneSpans s false ((popLanes s p x).map fun i => (i, rawAddr (wrapAddr x.idx.toNat (4 * (x.cur + i) : Nat))))

/-- The element addresses that the index words give, for run-ahead's overlap check. -/
def popElemSpans (s : State) (p : Pred) (xr : XReg) : List (Nat × Nat) :=
  let x := rdX (myRegs s) xr
  let is := (popLanes s p x).map fun i => (i, rawAddr (wrapAddr x.idx.toNat (4 * (x.cur + i) : Nat)))
  match resolve s (issuer s) .vld 4 false false is with
  | (_, .ok r) =>
    let idx := readLanes s (laneEls r)
    laneSpans s false ((popLanes s p x).map fun i =>
      (i, wrapAddr x.base.toNat ((lane idx.1.2 i).toNat * 2 ^ x.k.toNat : Nat)))
  | _ => []

/-- SPOP from a stream (R212). -/
def execSpopStream (p : Pred) (d : VReg) (x : XReg) (s : State) : Out :=
  .next (issueWith (.spopStream p d x) s (popSpans s p x ++ popElemSpans s p x) [] (spopBody p d x))

/-! FIFOs (R212, R213) -/

/-- Remove the oldest entry; the oldest waiting push takes its room. -/
def fifoPop (r : Regs) (n : FReg) : Regs :=
  match rdF r n, r.fPush.get n.toFin with
  | _ :: rest, [] => wrF r n rest
  | _ :: rest, e :: es => { wrF r n (rest ++ [e]) with fPush := r.fPush.set n.toNat es n.isLt }
  | [], _ => r

/-- SPOP from a FIFO (R212): the entry is consumed whatever the predicate holds. -/
def execSpopFifo (p : Pred) (d : VReg) (f : FReg) (s : State) : Out :=
  .next (issue (.spopFifo p d f) s fun s =>
    match rdF (myRegs s) f with
    | [] => .hold
    | e :: _ => .go (produceVal (modRegs s fun r => fifoPop r f) (.v d) (.v (lanes s p) e) 0))

def fifoFull (r : Regs) (n : FReg) : Bool := decide (8 ≤ (rdF r n).length) || !(r.fPush.get n.toFin).isEmpty

/-- SPUSH (R213) (in part DEDUCED, log 18). -/
def execSpush (p : Pred) (d : FReg) (a : VSrc) (s : State) : Out :=
  .next (issue (.spush p d a) s fun s =>
    if fifoFull (myRegs s) d then .hold
    else
      let e := merge (lanes s p) (vv s a) VWord.zero
      .go (modRegs s fun r => wrF r d (rdF r d ++ [e])))

end Sys2Proof.Machine
end

