-- ==== Sys2Proof/Machine/Copy.lean ====
section
/-! DEFINITION. The copy engine: CPY, CPY2D, CPYST, CPYW, majors 0x90 to 0x93, and the steps COPY_UNIT and
COPY_COMPLETION (08 R214 to R218, 16 R357). -/

namespace Sys2Proof.Machine

/-! Sides -/

def isPad : Ap → Bool
  | .loc .. => true
  | .remote .. => true
  | _ => false

/-- A raw side: window 0, global, or the mirror (R214). -/
def rawSide (a : Nat) : Bool := (apOf a).win == 0

/-- Offset units of one unit of a copy on a side: a byte when both sides are raw, else one element (R214). -/
def sideUnit (raw : Bool) (a : Nat) : Nat := if raw then 1 else winUnit (apOf a).win

/-- 3 of R95 for a side: the access class of its first address; the units of a remote side that leave its window end the copy
with REMOTE_RANGE (R214) (in part DEDUCED, log 19). -/
def sideClass (isDst x : Bool) (a : Nat) : Option Trap :=
  let ap := apOf a
  let w := ap.win
  if x && (!isPad ap || decide (5 ≤ w)) then some tILLEGAL
  else match ap with
    | .glob => none
    | .remote .. => if 5 ≤ w then some (tAPERTURE a) else none
    | .loc w _ => if isDst && w == 7 then some (mkTrap 0x09 a) else none
    | .mirror _ => if isDst then some (mkTrap 0x0B a) else none
    | _ => some (tAPERTURE a)

/-- The rows of a side: first and last address of each that matters for its range (the first and the last row). -/
def sideEnds (a stride u rows len : Nat) : List (Nat × Nat) :=
  if rows = 0 ∨ len = 0 then []
  else [(a, a + u * (len - 1)), (a + stride * (rows - 1), a + stride * (rows - 1) + u * (len - 1))]

/-- 1 of R95: every byte of the side in one aperture that exists; in the remote scratchpad aperture the core of the first
address exists, and each unit is checked as it moves (R214). -/
def sideMember (a stride u rows len : Nat) : Option Trap :=
  let bad := match apOf a with
    | .none => true
    | .remote c .. => !validCore c
    | ap => (sideEnds a stride u rows len).any fun e => (apOf (e.2 + u - 1)).number != ap.number
  if bad then some (tAPERTURE a) else none

/-- 5 of R95 for a local side; a remote one is checked unit by unit (R214). -/
def sideRange (s : State) (q : Issuer) (a stride u rows len : Nat) : Option Trap :=
  match apOf a with
  | .loc w _ =>
    let bad := (sideEnds a stride u rows len).any fun e =>
      e.2 / 2 ^ 20 != a / 2 ^ 20 ||
        (if w < 5 then decide (coreSp s q.core < e.2 % 2 ^ 20 + u)
         else !elemInRange s q w (e.1 % 2 ^ 20) || !elemInRange s q w (e.2 % 2 ^ 20))
    if bad then some (tAPERTURE a) else none
  | _ => none

/-- 6 of R95. -/
def sideAlign (a : Nat) : Option Trap :=
  if (apOf a).win ≠ 0 ∧ a % winUnit (apOf a).win ≠ 0 then some (tMISALIGNED a) else none

/-- A copy as its instruction names it. -/
structure CopyReq where
  dst : Nat
  src : Nat
  dx : BitVec 2
  sx : BitVec 2
  rows : Nat
  len : Nat
  ds : Nat
  ss : Nat
  flag : Option (Word × Word × Bool)
  deriving DecidableEq, Repr

/-- A SWZ subfield of 10 or 11 (R215). -/
def CopyReq.badSwz (r : CopyReq) : Bool := r.dx.getLsbD 1 || r.sx.getLsbD 1

def CopyReq.raw (r : CopyReq) : Bool := rawSide r.dst && rawSide r.src

/-- Where the flag of a CPYST may lie (R216), and its range; one that is not 8-byte aligned raises MISALIGNED at issue, as an
aligned store does (R216 names only APERTURE: DESIGN CHOICE, log 19). -/
def flagCheck (s : State) (q : Issuer) (r : CopyReq) : Option Trap :=
  match r.flag with
  | none => none
  | some (a, _, _) =>
    let a := a.toNat
    let ok := match apOf a with
      | .glob => true
      | .loc 0 o => decide (o + 8 ≤ coreSp s q.core)
      | .remote c 0 _ => validCore c
      | .sync _ => true
      | _ => false
    if !ok then some (tAPERTURE a) else if a % 8 ≠ 0 then some (tMISALIGNED a) else none

/-- Every check of a copy at issue, in the order of R95: the destination before the source in each (in part DEDUCED, log 19). -/
def copyCheck (s : State) (q : Issuer) (r : CopyReq) : Option Trap :=
  let du := sideUnit r.raw r.dst
  let su := sideUnit r.raw r.src
  ((if r.badSwz then some tILLEGAL else none).orElse fun _ =>
    (sideMember r.dst r.ds du r.rows r.len).orElse fun _ => (sideMember r.src r.ss su r.rows r.len).orElse fun _ =>
    (sideClass true (r.dx == 1) r.dst).orElse fun _ => (sideClass false (r.sx == 1) r.src).orElse fun _ =>
    (chkDesc s q r.dst).orElse fun _ => (chkDesc s q r.src).orElse fun _ =>
    (if 2 ^ 24 < r.rows * r.len then some (tAPERTURE r.dst) else none).orElse fun _ =>
    (sideRange s q r.dst r.ds du r.rows r.len).orElse fun _ => (sideRange s q r.src r.ss su r.rows r.len).orElse fun _ =>
    (sideAlign r.dst).orElse fun _ => (sideAlign r.src).orElse fun _ => flagCheck s q r)

/-! Ranges of a copy -/

/-- The rows of a side as address ranges, for run-ahead and for the order of overlapping copies. -/
def sideRows (a stride n rows : Nat) : List (Nat × Nat) :=
  if n = 0 then [] else (List.range rows).map fun r => (a + stride * r, n)

/-- Global ranges of a side, which run-ahead translates. -/
def globalRows (a stride n rows : Nat) : List (Nat × Nat) := if apOf a = .glob then sideRows a stride n rows else []

/-- The bytes of a side, group records and entries included (04 R100), row by row. n: offset units of a row. -/
def sideSpans (s : State) (q : Issuer) (x : Bool) (a stride n rows : Nat) : List (Nat × Nat) :=
  if n = 0 then []
  else (List.range rows).flatMap fun r =>
    match apOf a with
    | .loc w o => padSpan s q q.core w x (o + stride * r) n
    | .remote t w o => padSpan s q t w x (o + stride * r) n
    | _ => [(a + stride * r, n)]

def meets (x y : Nat × Nat) : Bool := decide (x.1 < y.1 + y.2) && decide (y.1 < x.1 + x.2)

/-- Bytes (offset units) of a row of a side. -/
def rowBytes (raw : Bool) (a len : Nat) : Nat := sideUnit raw a * len

def copyIssuer (c : Nat) (p : Copy) : Issuer :=
  { core := c, ctx := p.ctx, priv := p.priv.toNat, wd5 := p.wd5, wd6 := p.wd6, wd7 := p.wd7, ahead := false }

def copyRaw (p : Copy) : Bool := rawSide p.dst.toNat && rawSide p.src.toNat
def copyTotal (p : Copy) : Nat := p.rows * p.len

/-- One side of a copy: its swizzle, first address, stride and offset units of a row. -/
def copySides (p : Copy) : List (Bool × Nat × Nat × Nat) :=
  [(p.dx, p.dst.toNat, p.ds, rowBytes (copyRaw p) p.dst.toNat p.len),
   (p.sx, p.src.toNat, p.ss, rowBytes (copyRaw p) p.src.toNat p.len)]

/-- The least range of addresses that holds the rows of a side. -/
def sideHull (rows : Nat) (d : Bool × Nat × Nat × Nat) : Nat × Nat := (d.2.1, d.2.2.1 * (rows - 1) + d.2.2.2)

/-- Whether two sides may share bytes, by their ranges of addresses: two ranges of global memory, or of the mirror, that
do not meet do not. -/
def sidesNear (m n : Nat) (a b : Bool × Nat × Nat × Nat) : Bool :=
  match apOf a.2.1, apOf b.2.1 with
  | .glob, .glob => meets (sideHull m a) (sideHull n b)
  | .mirror _, .mirror _ => meets (sideHull m a) (sideHull n b)
  | x, y => isPad x && isPad y

/-- Whether two copies of one context overlap, and so keep their order (R218). -/
def copiesMeet (s : State) (c : Nat) (a b : Copy) : Bool :=
  (copySides a).any fun x => (copySides b).any fun y =>
    sidesNear a.rows b.rows x y &&
      (let xs := sideSpans s (copyIssuer c a) x.1 x.2.1 x.2.2.1 x.2.2.2 a.rows
       let ys := sideSpans s (copyIssuer c b) y.1 y.2.1 y.2.2.1 y.2.2.2 b.rows
       xs.any fun u => ys.any (meets u))

/-! Issue (R214 to R216) -/

/-- In run-ahead a copy translates its global sides and records their faulting pages (18 Table 18.5). -/
def aheadPages (s : State) (q : Issuer) (reads writes : List (Nat × Nat)) : Act :=
  let cut (l : List (Nat × Nat)) : List (Nat × Nat) := l.flatMap fun r => pieces r.1 r.2
  let (s, rs) := transPieces q.core q.priv true .read (cut reads) s
  let (s, ws) := transPieces q.core q.priv true .write (cut writes) s
  let entries (wr : Bool) (ts : List (Nat × Nat × TRes)) : List Word := ts.filterMap fun t => match t.2.2 with
    | .fault k l => some (batchEntry t.1 k l wr false)
    | _ => none
  match onePerPage (entries false rs ++ entries true ws) with
  | [] => .go s
  | e :: es => .trap s { mkTrap 0x07 0 with pages := e :: es }

/-- The body of CPY, CPY2D and CPYST. -/
def copyBody (tag : BitVec 8) (req : State → CopyReq) (s : State) : Act :=
  let q := issuer s
  let r := req s
  if 16 ≤ (myCore s).copies.length then .hold
  else match copyCheck s q r with
    | some t => .trap s t
    | none =>
      let x := me s
      if q.ahead then
        aheadPages s q (globalRows r.src r.ss (rowBytes r.raw r.src r.len) r.rows)
          (globalRows r.dst r.ds (rowBytes r.raw r.dst r.len) r.rows ++ (r.flag.elim [] fun f => globalRows f.1.toNat 0 8 1))
      else
        let p : Copy :=
          { id := s.serial, ctx := q.ctx, uid := x.uid, tag, gen := x.gen, priv := x.priv, stc := s.stc,
            dst := word r.dst, src := word r.src, dx := r.dx == 1, sx := r.sx == 1, rows := r.rows, len := r.len, ds := r.ds,
            ss := r.ss, wd5 := q.wd5, wd6 := q.wd6, wd7 := q.wd7, flag := r.flag, next := 0, buf := [],
            flags := 0, status := none, flagId := none }
        .go (modMyCore { s with serial := s.serial + 1 } fun k => { k with copies := k.copies ++ [p] })

/-- The bytes that a copy stores, its flag among them (18 R388). -/
def copySpans (s : State) (r : CopyReq) : List (Nat × Nat) :=
  sideSpans s (issuer s) (r.dx == 1) r.dst r.ds (rowBytes r.raw r.dst r.len) r.rows ++
    r.flag.elim [] fun f => spanOf s (issuer s) false 8 f.1.toNat

def cpyReq (dx sx : BitVec 2) (a b cc : SSrc) (flag : Option (Word × Word × Bool)) (s : State) : CopyReq :=
  { dst := (sv s a).toNat, src := (sv s b).toNat, dx, sx, rows := 1, len := (sv s cc).toNat, ds := 0, ss := 0, flag }

/-- CPY (R215). -/
def execCpy (c : Cond) (tag : BitVec 8) (dx sx : BitVec 2) (a b cc : SSrc) (s : State) : Out :=
  .next (issueWith (.cpy c tag dx sx a b cc) s [] (copySpans s (cpyReq dx sx a b cc none s))
    (copyBody tag (cpyReq dx sx a b cc none)))

def cpy2dReq (dx sx : BitVec 2) (a b : SSrc) (ss ds len rows : BitVec 16) (s : State) : CopyReq :=
  { dst := (sv s a).toNat, src := (sv s b).toNat, dx, sx, rows := rows.toNat, len := len.toNat, ds := 16 * ds.toNat,
    ss := 16 * ss.toNat, flag := none }

/-- CPY2D (R215). -/
def execCpy2d (c : Cond) (tag : BitVec 8) (dx sx : BitVec 2) (a b : SSrc) (ss ds len rows : BitVec 16) (s : State) : Out :=
  .next (issueWith (.cpy2d c tag dx sx a b ss ds len rows) s [] (copySpans s (cpy2dReq dx sx a b ss ds len rows s))
    (copyBody tag (cpy2dReq dx sx a b ss ds len rows)))

def cpystReq (scope : Scope) (dx sx : BitVec 2) (a b cc : SSrc) (flag : SReg) (value : BitVec 64) (s : State) : CopyReq :=
  cpyReq dx sx a b cc (some (rdS (myRegs s) flag, value, scope == .system)) s

/-- CPYST (R216). -/
def execCpyst (c : Cond) (tag : BitVec 8) (scope : Scope) (dx sx : BitVec 2) (a b cc : SSrc) (flag : SReg)
    (value : BitVec 64) (s : State) : Out :=
  .next (issueWith (.cpyst c tag scope dx sx a b cc flag value) s []
    (copySpans s (cpystReq scope dx sx a b cc flag value s)) (copyBody tag (cpystReq scope dx sx a b cc flag value)))

/-- CPYW (R217): a producer that waits for the copies of the tag issued before it. -/
def execCpyw (c : Cond) (all : Bool) (tag : BitVec 8) (d : SReg) (s : State) : Out :=
  .next (issue (.cpyw c all tag d) s fun s => .go (produce s (.s d) (.cpyw all tag s.serial)))

/-- The earliest of the failed copies, in issue order. -/
def firstFailed : List (Nat × BitVec 8 × BitVec 8) → Option (Nat × BitVec 8 × BitVec 8)
  | [] => none
  | f :: r => match firstFailed r with
    | none => some f
    | some g => if f.1 < g.1 then some f else some g

/-- Its value: the status of the earliest failed copy, and how many failed (in part DEDUCED, log 19). -/
def cpywValue (x : Ctx) (all : Bool) (tag : BitVec 8) (upto : Nat) : Word :=
  let bad := x.copyFail.filter fun f => decide (f.1 < upto) && (all || f.2.1 == tag)
  match firstFailed bad with
  | none => 0
  | some f => word (f.2.2.toNat + bad.length % 65536 * 65536)

def cpywReady (k : Core) (n : Nat) (x : Ctx) (all : Bool) (tag : BitVec 8) (upto : Nat) : Bool :=
  !(k.copies.any fun p => p.ctx == n && p.uid == x.uid && decide (p.id < upto) && (all || p.tag == tag))

/-! Units (R214, R357) -/

/-- Addresses of unit i on either side. -/
def unitDst (p : Copy) (i : Nat) : Nat := p.dst.toNat + p.ds * (i / p.len) + sideUnit (copyRaw p) p.dst.toNat * (i % p.len)
def unitSrc (p : Copy) (i : Nat) : Nat := p.src.toNat + p.ss * (i / p.len) + sideUnit (copyRaw p) p.src.toNat * (i % p.len)

/-- The places of n raw bytes at an address of a copy, with the swizzle. -/
def rawPlaces (s : State) (q : Issuer) (k : AK) (x : Bool) (a n : Nat) : State × Except EFail (List Place) :=
  let pad (t o : Nat) : State × Except EFail (List Place) :=
    if o + n ≤ coreSp s t then (s, .ok ((List.range n).map fun i => .pool t (swz x (o + i)))) else (s, .error (3, a))
  match apOf a with
  | .loc 0 o => pad q.core o
  | .remote t 0 o => if validCore t then pad t o else (s, .error (3, a))
  | _ => enginePlaces s q.core q.priv k a n

/-- One unit of a side as an element: n raw bytes, or one element of a format window; a remote scratchpad has neither windows 5
to 7 (04 R93) nor a core that does not exist (04 R92), which end the command that meets them with REMOTE_RANGE (in part
DEDUCED, log 19). -/
def unitEl (s : State) (q : Issuer) (k : AK) (x : Bool) (a n : Nat) : State × Except EFail El :=
  match apOf a with
  | .loc (w + 1) o =>
    let ok := if w + 1 < 5 then decide (o + winUnit (w + 1) ≤ coreSp s q.core) else elemInRange s q (w + 1) o
    if ok then (s, .ok (winEl s q q.core (w + 1) x o 4)) else (s, .error (3, a))
  | .remote t (w + 1) o =>
    if w + 1 < 5 && validCore t && decide (o + winUnit (w + 1) ≤ coreSp s t) then (s, .ok (winEl s q t (w + 1) x o 4))
    else (s, .error (3, a))
  | _ =>
    match rawPlaces s q k x a n with
    | (s, .ok ps) => (s, .ok (.raw ps))
    | (s, .error e) => (s, .error e)

/-- Whether the core whose scratchpad a side names refuses the copy (16 R357). -/
def refusedBy (s : State) (c : Nat) (p : Copy) (a : Nat) : Bool :=
  let bad (t : Nat) : Bool := (getCore s t).ownWritten && decide (p.stc.toNat ≤ (getCore s t).otStc.toNat)
  match apOf a with
  | .loc .. => bad c
  | .remote t .. => bad t
  | _ => false

/-- Writes of an engine: FE bits of the scratchpad words set, peer stores sent (04 R110, 05 R131). -/
def engineWrite (s : State) (c n : Nat) (gen : BitVec 16) (copy : Option Nat) (ws : List (Place × Byte)) : State :=
  sendFar (writeFull s (nearWrites ws)) c n gen copy ws

/-- Whether a unit has left the window of a remote side: it lies beyond the scratchpad of the side's core (R214). -/
def carried (base a : Nat) : Bool :=
  match apOf base with
  | .remote .. => a / 2 ^ 20 != base / 2 ^ 20
  | _ => false

/-- The element of a unit on its side. -/
def sideEl (s : State) (q : Issuer) (k : AK) (x : Bool) (base a n : Nat) : State × Except EFail El :=
  if carried base a then (s, .error (3, a)) else unitEl s q k x a n

def unitSize (p : Copy) : Nat := if copyRaw p then 1 else 4

/-- What the step of one unit comes to: its bytes, with the bits of each that it writes, and flags; why it failed; or that
its row of a plastic region waits for an operation that FENCEE or a stamp holds (10 R271). -/
inductive UnitRes where
  | bytes (ws : List (Place × Byte × Byte)) (f : FFlags)
  | fails (e : EFail)
  | waits

/-- The bits of its byte that an element writes: one nibble of it in an INT4 window (04 R101). -/
def bitsWritten : El → Byte
  | .quant true _ hi _ => if hi then 0xF0 else 0x0F
  | _ => 0xFF

/-- Read one unit and encode it for its destination (in part DEDUCED, log 19). -/
def convertUnit (s : State) (c : Nat) (p : Copy) (i : Nat) : State × UnitRes :=
  let q := copyIssuer c p
  let n := unitSize p
  let da := unitDst p i
  let sa := unitSrc p i
  if refusedBy s c p da || refusedBy s c p sa then (s, .fails (2, da))
  else match sideEl s q .read p.sx p.src.toNat sa n with
    | (s, .error e) => (s, .fails e)
    | (s, .ok src) =>
      match sideEl s q .write p.dx p.dst.toNat da n with
      | (s, .error e) => (s, .fails e)
      | (s, .ok dst) =>
        if regionsShut s [src] none then (s, .waits)
        else
          let s := settleEls (touchEls s (partOf s c) [src]) [src]
          let v := readEl s src
          let w := writeEl s dst v.1
          (s, .bytes (w.1.map fun b => (b.1, bitsWritten dst, b.2)) (v.2 ||| w.2))

def modCopy (s : State) (c id : Nat) (f : Copy → Copy) : State :=
  modCore s c fun k => { k with copies := k.copies.map fun p => if p.id = id then f p else p }

/-- The 8-byte word of a place, by its first byte. -/
def wordBase : Place → Place
  | .hbm pa => .hbm (pa / 8 * 8)
  | .fwd c n pa => .fwd c n (pa / 8 * 8)
  | .pool c off => .pool c (off / 8 * 8)
  | .mirror l off => .mirror l (off / 8 * 8)

/-- The scratchpad bytes that unit i writes, as far as its destination lies in a scratchpad. -/
def unitPlaces (s : State) (c : Nat) (p : Copy) (i : Nat) : List Place :=
  if isPad (apOf p.dst.toNat) then
    match (sideEl s (copyIssuer c p) .write p.dx p.dst.toNat (unitDst p i) (unitSize p)).2 with
    | .ok (.quant _ code _ _) => [code]
    | .ok e => elPlaces e
    | .error _ => []
  else []

/-- Whether a later unit writes the scratchpad word of a place, or the next unit of the row the 32-byte unit of memory of a
place elsewhere, which is written whole where the copy covers it (20 R417). -/
def wordAwaits (s : State) (c : Nat) (p : Copy) (w : Place) : Bool :=
  if isPad (apOf p.dst.toNat) then
    (List.range (copyTotal p - p.next)).any fun i => (unitPlaces s c p (p.next + i)).any fun z => wordBase z == wordBase w
  else
    decide (p.next < copyTotal p) && p.next % p.len != 0 &&
      decide (unitDst p p.next / 32 = unitDst p (p.next - 1) / 32)

/-- The bytes that waiting writes leave: the bits that a write does not name keep the value of this moment (04 R101). -/
def landing (s : State) : List (Nat × Place × Byte × Byte) → List (Place × Byte) → List (Place × Byte)
  | [], out => out
  | (_, p, m, v) :: r, out =>
    let old := if m = 0xFF then 0 else ((out.find? fun w => w.1 == p).map (·.2)).getD (readPlace s p)
    landing s r ((out.filter fun w => w.1 != p) ++ [(p, (old &&& ~~~m) ||| (v &&& m))])

/-- Land the words that no later unit writes, each in one step with its FE bit (04 R110). -/
def landWords (s : State) (c : Nat) (p : Copy) : State × Copy :=
  let waits := p.buf.map fun b => wordAwaits s c p b.2.1
  let out := ((p.buf.zip waits).filter fun b => !b.2).map (·.1)
  let kept := ((p.buf.zip waits).filter (·.2)).map (·.1)
  (if out.isEmpty then s else engineWrite s c p.ctx p.gen (some p.id) (landing s out []), { p with buf := kept })

/-- A copy ends before its last unit: the bytes that wait are written, their words stay as they are (04 R110, R217). -/
def landRest (s : State) (c : Nat) (p : Copy) : State × Copy :=
  let ws := landing s p.buf []
  (sendFar (writePlaces s (nearWrites ws)) c p.ctx p.gen (some p.id) ws, { p with buf := [] })

/-- A copy that is refused writes nothing more (16 R357): the first unit whose bytes wait is the first undone one. -/
def dropRest (p : Copy) : Copy := { p with next := p.buf.foldl (fun n b => Nat.min n b.1) p.next, buf := [] }

/-- Move units from the next one on until the words begun are complete. -/
def moveRun : Nat → State → Nat → Copy → State × Copy
  | 0, s, _, p => (s, p)
  | n + 1, s, c, p =>
    match convertUnit s c p p.next with
    | (s, .fails e) =>
      let (s, p) := if e.1 = 2 then (s, dropRest p) else landRest s c p
      (s, { p with status := some (BitVec.ofNat 8 e.1, word (if e.1 = 2 then unitDst p p.next else e.2)) })
    | (s, .waits) => (s, p)
    | (s, .bytes ws f) =>
      let p := { p with next := p.next + 1, buf := p.buf ++ ws.map (fun w => (p.next, w)), flags := p.flags ||| f }
      let (s, p) := landWords s c p
      if p.buf.isEmpty then (s, p) else moveRun n s c p

/-- Whether the clock of the stratum of a copy's engine, or of the core that a side names, stands still: the FIFOs hold what
would cross (01 R26). -/
def copyStopped (s : State) (c : Nat) (p : Copy) : Bool :=
  let far (a : Nat) : Bool := match apOf a with
    | .remote t .. => clockStopped s t
    | _ => false
  clockStopped s c || far p.dst.toNat || far p.src.toNat

/-- Whether a copy may move: it is not at its end, no FENCEE or acquire holds it (08 R222), and no
earlier copy of its context that it overlaps is unfinished. -/
def copyMoves (s : State) (c : Nat) (p : Copy) : Bool :=
  let k := getCore s c
  p.status.isNone && decide (p.next < copyTotal p) && !engineHeld s c p.ctx p.uid p.id &&
    !(k.copies.any fun e => decide (e.id < p.id) && e.ctx == p.ctx && e.uid == p.uid && copiesMeet s c e p)

def findCopy (s : State) (c id : Nat) : Option Copy := (getCore s c).copies.find? fun p => p.id == id

/-- The next unit of copy j of core i (in part DEDUCED, log 19). -/
def copyUnit (s : State) (c id : Nat) : State :=
  match findCopy s c id with
  | none => s
  | some p =>
    if copyMoves s c p && !copyStopped s c p && !(s.peers.any fun e => pairFull e.2) then
      let (s, p') := moveRun 40 s c p
      modCopy s c id fun _ => p'
    else s

/-! Completion (R216, R217) -/

/-- The flag store of a CPYST: the number under which it is on its way, none if it is performed at once, or the failure; one
beyond the scratchpad of another core fails with REMOTE_RANGE. A flag word of a scratchpad keeps its FE bit (the spec says
neither; DESIGN CHOICE, log 40). -/
def storeFlag (s : State) (c : Nat) (p : Copy) (a v : Word) (sys : Bool) : State × Except EFail (Option Nat) :=
  match apOf a.toNat with
  | .sync off =>
    let part := partOf s c
    let r : SeReq := { id := s.serial, part, core := c, ctx := p.ctx, uid := 0, pid := none, off, op := .flag v }
    let e := homeEngine s part off
    ({ s with serial := s.serial + 1, engines := mset s.engines e (getEngine s e ++ [r]) }, .ok (some s.serial))
  | _ =>
    match rawPlaces s (copyIssuer c p) .write false a.toNat 8 with
    | (s, .error e) => (s, .error (e.1, a.toNat))
    | (s, .ok ps) =>
      let ws := ps.zip (toLe 8 v.toNat)
      (sendPeerStores (writePlaces s (nearWrites ws)) c p.ctx (partOf s c) p.gen (if sys then 4 else 1) (some p.id)
        (ws.filterMap fun w => match w.1 with
          | .hbm pa => some (pa, w.2)
          | _ => none), .ok (if ps.any isFar then some p.id else none))

def dropCopy (s : State) (c id : Nat) : State :=
  modCore s c fun k => { k with copies := k.copies.filter fun p => p.id != id }

/-- A copy ends: flags, status for CPYW, a record if it failed (in part DEDUCED, log 19). -/
def finishCopy (s : State) (c : Nat) (p : Copy) : State :=
  let s := engineFlags (dropCopy s c p.id) c p.ctx p.uid p.flags
  match p.status with
  | none => s
  | some (st, a) =>
    let s := modTask s c p.ctx p.uid fun x => { x with copyFail := x.copyFail ++ [(p.id, p.tag, st)] }
    logRecord s c { extra := 0, addr := a.toNat, done := p.next, gen := p.gen.toNat, tag := p.tag.toNat,
                    status := st.toNat, kind := 1, ctx := p.ctx, src := c }

/-- Whether packets of a copy are on their way to a peer. -/
def copyTravels (s : State) (c id : Nat) : Bool :=
  s.peers.any fun y => y.2.unacked.any fun o => o.copy && o.core == c && o.id == id

/-- Whether the flag of a copy, numbered, stands in the queue of a synchronisation engine. -/
def flagQueued (s : State) (id : Nat) : Bool := s.engines.any fun e => e.2.any fun r => r.id == id

/-- Whether the flag store of a copy would leave or enter a stratum whose clock stands still (01 R26); a synchronisation engine
sees to its own. -/
def flagStopped (s : State) (c : Nat) (a : Nat) : Bool :=
  clockStopped s c || (match apOf a with
    | .remote t .. => clockStopped s t
    | _ => false)

/-- Whether a copy has something to complete: every unit that it has moved is performed, and its flag if that is on its way; it has
failed, or nothing is left to move and its flag may go. -/
def copyEnds (s : State) (c : Nat) (p : Copy) : Bool :=
  !copyTravels s c p.id && !p.flagId.any (flagQueued s) &&
    (p.status.isSome || p.flagId.isSome ||
      (decide (copyTotal p ≤ p.next) && !engineHeld s c p.ctx p.uid p.id && !p.flag.any fun f => flagStopped s c f.1.toNat))

/-- The completion of copy j of core i, when it has nothing left to move and every write is performed, that of its flag too. -/
def copyComplete (s : State) (c id : Nat) : State :=
  match findCopy s c id with
  | none => s
  | some p =>
    if !copyEnds s c p then s
    else if p.status.isSome || p.flagId.isSome then finishCopy s c p
    else match p.flag with
      | none => finishCopy s c p
      | some (a, v, sys) =>
        match storeFlag s c p a v sys with
          | (s, .ok none) => finishCopy s c p
          | (s, .ok (some f)) => modCopy s c id fun p => { p with flagId := some f }
          | (s, .error e) => finishCopy s c { p with status := some (BitVec.ofNat 8 e.1, word e.2) }

/-- COPY_UNIT (R214): operand i the core, j the copy. -/
def execCopyUnit (s : State) : Out :=
  if validCore s.arg.i then .next (copyUnit s s.arg.i s.arg.j) else .fault (.noSuchCore s.arg.i)

/-- COPY_COMPLETION (R217): operand i the core, j the copy. -/
def execCopyCompletion (s : State) : Out :=
  if validCore s.arg.i then .next (copyComplete s s.arg.i s.arg.j) else .fault (.noSuchCore s.arg.i)

end Sys2Proof.Machine
end

