-- ==== Sys2Proof/Machine/Atomic.lean ====
section
/-! DEFINITION. Atomics and fences, majors 0x94 to 0x98, and the steps SE_ACCESS, REMOTE_STORE_ARRIVAL and
PRIVATE_OVERFLOW_PERFORM (08 R219 to R222, 04 R97, R99, R102, 05 R133). -/

namespace Sys2Proof.Machine

/-! Atomics (R219, R220) -/

def amoBytes (dw : Bool) : Nat := if dw then 8 else 4

/-- Offset of an atomic in the sync space, checked in the order of R95. -/
def amoOff (dw : Bool) (a : Nat) : Except Trap Nat :=
  match apOf a with
  | .sync o =>
    if (apOf (a + amoBytes dw - 1)).number ≠ 5 then .error (tAPERTURE a)
    else if a % amoBytes dw ≠ 0 then .error (tMISALIGNED a) else .ok o
  | _ => .error (tAPERTURE a)

def lowWord (n : Nat) (v : Word) : Word := word (v.toNat % 2 ^ (8 * n))

/-- Send an atomic: a release waits for the accesses before it, at its issue or in its turn, an acquire holds those after
it. -/
def amoBody (dw aq rl : Bool) (a : SSrc) (send : Nat → State → State) (s : State) : Act :=
  match amoOff dw (sv s a).toNat with
  | .error t => .trap s t
  | .ok off =>
    if !runsAhead s && rl && !mustFollow (myRegs s) && unreleased s then .hold
    else
      let s' := send off s
      .go (if aq then acquireHold s' s.serial else s')

/-- AMO (R219, R220). -/
def execAmo (c : Cond) (dw : Bool) (scope : Scope) (op : AmoOp) (aq rl : Bool) (d : SReg) (a b : SSrc) (s : State) : Out :=
  .next (issue (.amo c dw scope op aq rl d a b) s (amoBody dw aq rl a fun off s =>
    seProduce s d off (.amo (amoBytes dw) op (lowWord (amoBytes dw) (sv s b))) rl))

/-- AMOCAS (R219, R220). -/
def execAmocas (c : Cond) (dw : Bool) (scope : Scope) (aq rl : Bool) (d : SReg) (a b cc : SSrc) (s : State) : Out :=
  .next (issue (.amocas c dw scope aq rl d a b cc) s (amoBody dw aq rl a fun off s =>
    seProduce s d off (.cas (amoBytes dw) (lowWord (amoBytes dw) (sv s b)) (lowWord (amoBytes dw) (sv s cc))) rl))

/-- AMOR (R219, R220): posted. -/
def execAmor (c : Cond) (dw : Bool) (scope : Scope) (op : AmoOp) (rl : Bool) (a b : SSrc) (s : State) : Out :=
  .next (issue (.amor c dw scope op rl a b) s (amoBody dw false rl a fun off s =>
    seSend s off (.amo (amoBytes dw) op (lowWord (amoBytes dw) (sv s b))) rl))

/-! Fences (R221, R222) -/

/-- Scopes that reach beyond a stratum, where Swell beats are performed. -/
def swellScope : Scope → Bool
  | .stack => true
  | .system => true
  | _ => false

/-- FENCE (R221): bits 0 to 3 of the set are rr, rw, wr, ww, as a hold numbers them. -/
def execFence (c : Cond) (scope : Scope) (set : BitVec 4) (s : State) : Out :=
  .next (issue (.fence c scope set) s fun s =>
    if set = 0 then .trap s tILLEGAL
    else
      let s := addHold s set 0 false
      .go (if swellScope scope && set.getLsbD 3 then modMe s fun x => { x with beatsAfter := s.serial } else s))

/-- The FENCEEs of the running context that still hold engine commands. -/
def liveFencees (s : State) : List Nat :=
  (me s).engineAfter.filter (fenceeOpen s (myId s) (myN s) (me s).uid (me s))

/-- FENCEE (R222): it completes at issue; later engine commands wait for the accesses before it (in part DEDUCED, log 38). -/
def execFencee (c : Cond) (scope : Scope) (s : State) : Out :=
  .next (issue (.fencee c scope) s fun s => .go (modMe s fun x => { x with engineAfter := liveFencees s ++ [s.serial] }))

/-! SE_ACCESS (05 R133) -/

/-- The new value and the flags of an atomic (R220). -/
def amoNew (op : AmoOp) (n old b : Nat) : Bits :=
  let m := 2 ^ (8 * n)
  let w := 8 * n
  match op with
  | .add => ((old + b) % m, 0)
  | .fadd => add32 old b
  | .fmax => minMax fp32 true old b
  | .smin => (if sgn w b < sgn w old then b else old, 0)
  | .smax => (if sgn w old < sgn w b then b else old, 0)
  | .umin => (if b < old then b else old, 0)
  | .umax => (if old < b then b else old, 0)
  | .and => (Nat.land old b, 0)
  | .or => (Nat.lor old b, 0)
  | .xor => (Nat.xor old b, 0)
  | .swap => (b, 0)

def syncWrite (s : State) (p off n v : Nat) : State :=
  modPart s p fun x =>
    { x with sync := ((List.range n).zip (toLe n v)).foldl (fun m e => cset m (off + e.1) e.2) x.sync }

/-- What the engine does for a request, and its answer: the value for the destination. -/
def seDo (s : State) (r : SeReq) : State × Word :=
  match r.op with
  | .load n sx => (s, extend sx n (syncPlaces s r.part r.off n))
  | .store n v => (syncWrite s r.part r.off n v.toNat, 0)
  | .flag v => (syncWrite s r.part r.off 8 v.toNat, 0)
  | .amo n op b =>
    let old := syncPlaces s r.part r.off n
    let v := amoNew op n old b.toNat
    let flags := if op = .fadd ∨ op = .fmax then v.2.toNat * 2 ^ 32 else 0
    (syncWrite s r.part r.off n v.1, word (old + flags))
  | .cas n b c =>
    let old := syncPlaces s r.part r.off n
    (syncWrite s r.part r.off n (if old = b.toNat then c.toNat else old), word old)

/-- Whether a request may be taken: no earlier one of its context waits in the same queue. -/
def seMay (q : List SeReq) (r : SeReq) : Bool :=
  !(q.any fun e => decide (e.id < r.id) && e.core == r.core && e.ctx == r.ctx && e.uid == r.uid)

/-- Perform request j of engine i, and answer it; the FIFOs of a stratum whose clock has stopped hold it (01 R26). -/
def seAccess (s : State) (e id : Nat) : State :=
  let q := getEngine s e
  match q.find? fun r => r.id == id with
  | none => s
  | some r =>
    if seMay q r && !clockStopped s r.core && !(decide (e < 16) && clockStopped s (1024 * e)) then
      let (s, v) := seDo { s with engines := mset s.engines e (q.filter fun x => x.id != id) } r
      match r.pid with
      | none => s
      | some pid => fulfil s r.core r.ctx pid (.s v) 0
    else s

/-- SE_ACCESS: operand i the engine, j the request. -/
def execSeAccess (s : State) : Out :=
  if s.arg.i < 17 then .next (seAccess s s.arg.i s.arg.j) else .fault (.noSuchUnit s.arg.i)

/-! Posted and private stores -/

/-- The posted store numbered id, unless an earlier one of its context to the same target and bytes is in flight. -/
def postedMay (s : State) (p : Posted) : Bool :=
  !(s.posted.any fun e => decide (e.id < p.id) && e.core == p.core && e.ctx == p.ctx && e.uid == p.uid &&
    e.target == p.target && e.bytes.any fun b => p.bytes.any fun d => d.1 == b.1)

/-- A posted store reaches its target (04 R102): in range it is written and leaves the FE bits unchanged; else it is
discarded with a record in its issuer's log. A stratum whose clock has stopped holds it (01 R26). -/
def postedArrive (s : State) (id : Nat) : State :=
  match s.posted.find? fun p => p.id == id with
  | none => s
  | some p =>
    if postedMay s p && !clockStopped s p.core && !clockStopped s p.target then
      let s := { s with posted := s.posted.filter fun e => e.id != id }
      if p.bytes.all fun b => decide (b.1 < coreSp s p.target) then
        writePlaces s (p.bytes.map fun b => (.pool p.target b.1, b.2))
      else
        logRecord s p.core { extra := 0, addr := p.addr.toNat, done := 0, gen := p.tag.toNat, tag := 0, status := 3,
                             kind := 12, ctx := p.ctx, src := p.core }
    else s

/-- REMOTE_STORE_ARRIVAL (04 R102): operand j the store. -/
def execRemoteStoreArrival (s : State) : Out := .next (postedArrive s s.arg.j)

/-- The oldest entry of a forwarding table is performed in global memory and leaves the table (04 R97). -/
def performOldest (s : State) (c n : Nat) : State :=
  match (getCtx s c n).fwd with
  | [] => s
  | e :: r =>
    let s := writePlaces s (nearWrites (e.bytes.map fun b => (.hbm b.1, b.2)))
    let s := sendPeerStores s c n (partOf s c) (getCtx s c n).gen 1 none e.bytes
    modCtx s c n fun x => { x with fwd := r }

/-- The same in its time: not while the clock of its core stands still (01 R26). -/
def overflowPerform (s : State) (c n : Nat) : State := if clockStopped s c then s else performOldest s c n

/-- PRIVATE_OVERFLOW_PERFORM (04 R97): operands i the core, j the context. -/
def execPrivateOverflowPerform (s : State) : Out :=
  if validCore s.arg.i then .next (overflowPerform s s.arg.i s.arg.j) else .fault (.noSuchCore s.arg.i)

end Sys2Proof.Machine
end

