-- ==== Sys2Proof/Machine/Retrieval.lean ====
section
/-! DEFINITION. The retrieval unit: majors 0xB0 to 0xB8, and the steps RETRIEVAL_BUCKET_OPERATION and RFENCE_ACK (09 R244
to R260, 05 R129, R130, 13 R323). -/

namespace Sys2Proof.Machine

/-- Empty slot, unhashed home, pad id (R248, R252). -/
def noId : Nat := 0xFFFFFFFF

/-! Fields of a descriptor block (Table 9.7) -/

def rdL (d : RDesc) : Nat := blockField d 531 528 + 1
def rdK (d : RDesc) : Nat := blockField d 536 532
def rdD (d : RDesc) : Nat := blockField d 549 537
def rdB (d : RDesc) : Nat := 4 * 2 ^ blockField d 551 550
def rdPol (d : RDesc) : Nat := blockField d 553 552
def rdPtrap (d : RDesc) : Bool := blockField d 554 554 == 1
def rdPsize (d : RDesc) : Nat := blockField d 415 384
def rdPool (d : RDesc) : Nat := blockField d 383 320
def rdHmap (d : RDesc) : Nat := blockField d 319 256
def rdBkt (d : RDesc) : Nat := blockField d 255 192
def rdRcnt (d : RDesc) : Nat := blockField d 191 160
def rdRstr (d : RDesc) : Nat := blockField d 159 128
def rdRsrc (d : RDesc) : Nat := blockField d 127 64
def rdKey (d : RDesc) : Nat := blockField d 63 0

/-! Places of the tables (R248) -/

def bucketSize (d : RDesc) : Nat := 8 + 4 * rdB d
def bucketAt (d : RDesc) (t b : Nat) : Nat := rdBkt d + (t * 2 ^ rdK d + b) * bucketSize d
def homeAt (d : RDesc) (r t : Nat) : Nat := rdHmap d + 4 * (r * rdL d + t)
def blockAt (d : RDesc) (i : Nat) : Nat := rdPool d + 8 + 72 * i

/-! One bucket operation: reads and writes through the unit's bucket cache, kept or dropped as a whole (R244, R259,
05 R130). The writes of the operation so far stand before those of the cache. -/

abbrev Lines := List RuLine
abbrev RuM := StateT Lines (ExceptT EFail (StateM State))

/-- Who makes the operation: the cluster, the descriptor, the core that issued the command, the command. -/
structure RuWho where
  k : Nat
  d : RDesc
  c : Nat
  m : RCmd

def RuWho.priv (w : RuWho) : Nat := w.m.priv.toNat

def ruByte (s : State) (k : Nat) (st : Lines) (p : Place) : Byte :=
  match st.find? fun e => e.place == p with
  | some e => e.byte
  | none => readCached s k p

/-- The bytes of a read that neither the operation nor the cache holds. -/
def toFetch (s : State) (k : Nat) (st : Lines) (ps : List (Place × Nat)) : List (Place × Nat) :=
  ps.filter fun p => !(st.any fun e => e.place == p.1) && !((getCluster s k).ruCache.any fun e => e.place == p.1)

/-- Places with the addresses that they were reached by. -/
def placesAt (a : Nat) (ps : List Place) : List (Place × Nat) := ps.zipIdx.map fun p => (p.1, a + p.2)

/-- A place in a stratum whose clock stands still makes the whole operation wait for it (01 R26). -/
def crossing (s : State) (c : Nat) (ps : List Place) : State := if placesStopped s c ps then wait s else s

/-- Read n bytes of table memory. -/
def ruRead (w : RuWho) (a n : Nat) : RuM Nat := fun st s =>
  match tablePlaces s w.d.core w.priv .read a n with
  | (s, .ok ps) =>
    let s := crossing s w.c ps
    let new := toFetch s w.k st (placesAt a ps)
    let lines : Lines := new.map fun p => { place := p.1, va := word p.2, byte := homeByte s w.k p.1, dirty := false }
    (.ok (fromLe (ps.map (ruByte s w.k st)), lines ++ st), touch s (partOf s w.c) (new.map (·.1)))
  | (s, .error e) => (.error e, s)

/-- Write n bytes of table memory. -/
def ruWrite (w : RuWho) (a n v : Nat) : RuM Unit := fun st s =>
  match tablePlaces s w.d.core w.priv .write a n with
  | (s, .ok ps) =>
    let lines : Lines := ((placesAt a ps).zip (toLe n v)).map fun b =>
      { place := b.1.1, va := word b.1.2, byte := b.2, dirty := true }
    (.ok ((), lines.reverse ++ st), s)
  | (s, .error e) => (.error e, s)

/-- Put lines into a cache: the latest write of each place. -/
def cacheLines (cache new : Lines) : Lines :=
  new.reverse.foldl (fun acc e => (acc.filter fun x => x.place != e.place) ++ [e]) cache

/-! Write-backs (05 R130; translated at the privilege of the command that makes them, 18 R426) -/

/-- The page of memory under which a line is translated; lines of scratchpads need no translation. -/
def linePage (e : RuLine) : Option Nat :=
  match e.place with
  | .hbm _ => some (e.va.toNat / 4096)
  | _ => none

/-- Translate pages for writing: each with where it lies, or none. -/
def writePages (c priv : Nat) : List Nat → State → State × List (Nat × Option Nat)
  | [], s => (s, [])
  | p :: r, s =>
    let (s, t) := translate s c priv false .write (p * 4096)
    let (s, ts) := writePages c priv r s
    (s, (p, match t with
      | .pa a => some a
      | _ => none) :: ts)

/-- Whether a scratchpad byte lies beyond the size that a partition word has left its scratchpad (01 R37). -/
def beyondPad (s : State) : Place → Bool
  | .pool c off => decide (coreSp s c ≤ off)
  | _ => false

/-- Where a line goes home; none: its page may not be written, or it lies beyond its scratchpad. -/
def lineHome (s : State) (pages : List (Nat × Option Nat)) (e : RuLine) : Option Place :=
  match linePage e with
  | none => if beyondPad s e.place then none else some e.place
  | some p => ((pages.find? fun x => x.1 == p).bind (·.2)).map fun a => .hbm (a + e.va.toNat % 4096)

/-- Whether an RFENCE of a unit has begun. -/
def fenceRuns (s : State) (k : Nat) : Bool :=
  (clusterCores k).any fun c => (getCore s c).rq.any fun m => m.begun && (match m.op with
    | .fence .. => true
    | _ => false)

/-- A list of home writes with one more: it hides what the latest of its place hides, where that is of the same unit, no other
unit sees it apart from this one, and no RFENCE of that unit has begun (calm), which might cover the one alone. -/
def addHomeWrite (calm : Nat → Bool) (l : List HomeWrite) (w : HomeWrite) : List HomeWrite :=
  match l.reverse.find? fun v => v.place == w.place with
  | some v => if calm w.unit && v.unit == w.unit && v.stratum == w.stratum && v.seen == w.seen then l else l ++ [w]
  | none => l ++ [w]

def fenceless (s : State) (k : Nat) : Bool := !fenceRuns s k

/-- The bytes of unit k go home, under a number of their own, as other units see them: what stood there before in this module
(05 R130). -/
def writeHome (s : State) (k c : Nat) (m : RCmd) (out : List (Place × Byte)) : State :=
  let t := crossing (homeWrite s c m.ctx m.gen out) c (out.map (·.1))
  { t with serial := t.serial + 1,
           unseen := ((out.map (·.1)).filter fun p => !isFar p).foldl (fun l p => addHomeWrite (fenceless s) l
             { place := p, unit := k, id := t.serial, old := readPlace s p, stratum := false, seen := [] }) s.unseen }

/-- Write lines of unit k home for a command of core c: pages that may not be written, and the first byte beyond its scratchpad,
are recorded and their lines answered (in part DEDUCED, log 29). -/
def writeBack (s : State) (k c : Nat) (m : RCmd) (l : Lines) : State × Lines :=
  let (s, pages) := writePages c m.priv.toNat (l.filterMap linePage).dedup s
  let kept := l.filter fun e => (lineHome s pages e).isNone
  let bad := (pages.filter fun p => p.2.isNone).map (fun p => (1, p.1 * 4096)) ++
    ((kept.filter fun e => beyondPad s e.place).take 1).map fun e => (3, e.va.toNat)
  let s := writeHome s k c m (l.filterMap fun e => (lineHome s pages e).map fun p => (p, e.byte))
  (bad.foldl (fun s b => logRecord s c { extra := 0, addr := b.2, done := 0, gen := m.gen.toNat, tag := 0, status := b.1,
                                         kind := 3, ctx := m.ctx, src := c }) s, kept)

/-- A cache holds 64 KiB (01 Table 1.2): the lines that came first make room, and go home (in part DEDUCED, log 29). -/
def trimCache (s : State) (w : RuWho) : State :=
  let l := (getCluster s w.k).ruCache
  let extra := l.length - 65536
  if extra = 0 then s
  else modCluster (writeBack s w.k w.c w.m (l.take extra)).1 w.k fun x => { x with ruCache := l.drop extra }

/-- Make an operation: its writes enter the cache together, or not at all. What it has only read is not kept: every operation
finds what acquires of its context have made visible (14 R328). -/
def ruRun {α : Type} (s : State) (w : RuWho) (m : RuM α) : State × Except EFail α :=
  match (m [] : ExceptT EFail (StateM State) (α × Lines)) s with
  | (.ok (a, st), s) => (trimCache (modCluster s w.k fun x => { x with ruCache := cacheLines x.ruCache (st.filter (·.dirty)) }) w, .ok a)
  | (.error e, s) => (s, .error e)

/-! Buckets (R248, R250) -/

structure Bucket where
  gen : Nat
  ents : List Nat
  blocks : List Nat

/-- The slots of n ids from a value. -/
def slotsOf (v n : Nat) : List Nat := (List.range n).map fun i => v / 2 ^ (32 * i) % 2 ^ 32

/-- COUNT, GEN or zero, LINK and the slots of a bucket or a block. -/
def slotsWord (count gen link : Nat) (ids : List Nat) (n : Nat) : Nat :=
  count % 65536 + gen % 65536 * 65536 + link * 2 ^ 32 +
    2 ^ 64 * (List.range n).foldl (fun acc i => acc + ids.getD i noId * 2 ^ (32 * i)) 0

def ruChain (w : RuWho) : Nat → Nat → RuM (List Nat × List Nat)
  | 0, _ => pure ([], [])
  | n + 1, link =>
    if link = 0 then pure ([], [])
    else do
      let v ← ruRead w (blockAt w.d (link - 1)) 72
      let rest ← ruChain w n (v / 2 ^ 32 % 2 ^ 32)
      pure (slotsOf (v / 2 ^ 64) (if v % 65536 < 16 then v % 65536 else 16) ++ rest.1, (link - 1) :: rest.2)

def ruBucket (w : RuWho) (t b : Nat) : RuM Bucket := do
  let v ← ruRead w (bucketAt w.d t b) (bucketSize w.d)
  let n := v % 65536
  let c ← ruChain w (rdPsize w.d) (v / 2 ^ 32 % 2 ^ 32)
  pure { gen := v / 65536 % 65536, ents := slotsOf (v / 2 ^ 64) (if n < rdB w.d then n else rdB w.d) ++ c.1,
         blocks := c.2 }

/-- Take a block: the first returned one, else the first never used (in part DEDUCED, log 29). -/
def takeBlock (w : RuWho) : RuM (Option Nat) := do
  let h ← ruRead w (rdPool w.d) 8
  let next := h % 2 ^ 32
  let free := h / 2 ^ 32
  if free ≠ 0 then do
    let v ← ruRead w (blockAt w.d (free - 1)) 8
    ruWrite w (rdPool w.d) 8 (next + v / 2 ^ 32 * 2 ^ 32)
    pure (some (free - 1))
  else if next < rdPsize w.d then do
    ruWrite w (rdPool w.d) 8 (next + 1)
    pure (some next)
  else pure none

/-- Return a block to FREE. -/
def giveBlock (w : RuWho) (i : Nat) : RuM Unit := do
  let h ← ruRead w (rdPool w.d) 8
  ruWrite w (blockAt w.d i) 8 (h / 2 ^ 32 * 2 ^ 32)
  ruWrite w (rdPool w.d) 8 (h % 2 ^ 32 + (i + 1) * 2 ^ 32)

def writeBlocks (w : RuWho) : List Nat → List Nat → RuM Unit
  | [], _ => pure ()
  | i :: r, ents => do
    let link := match r with
      | [] => 0
      | j :: _ => j + 1
    ruWrite w (blockAt w.d i) 72 (slotsWord (ents.take 16).length 0 link (ents.take 16) 16)
    writeBlocks w r (ents.drop 16)

def giveBlocks (w : RuWho) : List Nat → RuM Unit
  | [] => pure ()
  | i :: r => do
    giveBlock w i
    giveBlocks w r

/-- Write a bucket whose entries have changed n times; blocks left empty go back to FREE. -/
def writeBucket (w : RuWho) (t b : Nat) (k : Bucket) (n : Nat) : RuM Unit := do
  let size := rdB w.d
  let need := (k.ents.length - size + 15) / 16
  let keep := k.blocks.take need
  giveBlocks w (k.blocks.drop need).reverse
  writeBlocks w keep (k.ents.drop size)
  let link := match keep with
    | [] => 0
    | i :: _ => i + 1
  ruWrite w (bucketAt w.d t b) (bucketSize w.d) (slotsWord k.ents.length (k.gen + n) link (k.ents.take size) size)

def setHome (w : RuWho) (r t v : Nat) : RuM Unit := ruWrite w (homeAt w.d r t) 4 v

/-- What an insertion counts: drops, evictions, chained blocks, pool failures. -/
structure RCount where
  drops : Nat
  evicts : Nat
  chains : Nat
  pfail : Nat

def RCount.none : RCount := { drops := 0, evicts := 0, chains := 0, pfail := 0 }

/-- INSERT (R250). -/
def ruInsert (w : RuWho) (t b r : Nat) : RuM RCount := do
  let k ← ruBucket w t b
  let size := rdB w.d
  if k.ents.contains r then pure RCount.none
  else if k.ents.length < size then do
    writeBucket w t b { k with ents := k.ents ++ [r] } 1
    setHome w r t b
    pure RCount.none
  else match rdPol w.d, k.ents with
    | 1, v :: rest => do
      setHome w v t noId
      writeBucket w t b { k with ents := rest ++ [r] } 2
      setHome w r t b
      pure { RCount.none with evicts := 1 }
    | 2, _ =>
      if k.ents.length - size < 16 * k.blocks.length then do
        writeBucket w t b { k with ents := k.ents ++ [r] } 1
        setHome w r t b
        pure RCount.none
      else do
        match ← takeBlock w with
        | some i => do
          writeBucket w t b { k with ents := k.ents ++ [r], blocks := k.blocks ++ [i] } 1
          setHome w r t b
          pure { RCount.none with chains := 1 }
        | none => do
          setHome w r t noId
          pure { RCount.none with drops := 1, pfail := 1 }
    | _, _ => do
      setHome w r t noId
      pure { RCount.none with drops := 1 }

/-- REMOVE (R250). -/
def ruRemove (w : RuWho) (t b r : Nat) : RuM Unit := do
  let k ← ruBucket w t b
  if k.ents.contains r then writeBucket w t b { k with ents := k.ents.filter fun x => x != r } 1
  else pure ()

/-- REMOVE(t, HOME[r][t], r) where r is hashed, as the home stands at this operation (R254). -/
def ruRemoveHome (w : RuWho) (t r : Nat) : RuM Unit := do
  let b ← ruRead w (homeAt w.d r t) 4
  if b = noId then pure () else ruRemove w t b r

def unhashFrom (w : RuWho) (r : Nat) : List Nat → RuM Unit
  | [] => pure ()
  | t :: ts => do
    setHome w r t noId
    unhashFrom w r ts

def ruWork (w : RuWho) : RWork → RuM RCount
  | .insert t b r => ruInsert w t b r
  | .remove t b r => do
    ruRemove w t b r
    pure RCount.none
  | .removeHome t r => do
    ruRemoveHome w t r
    pure RCount.none
  | .unhash r => do
    unhashFrom w r (List.range (rdL w.d))
    pure RCount.none

def ruHomes (w : RuWho) (r : Nat) : List Nat → RuM (List Nat)
  | [] => pure []
  | t :: ts => do
    let v ← ruRead w (homeAt w.d r t) 4
    let vs ← ruHomes w r ts
    pure (v :: vs)

/-- The entries of the buckets of a probe, table by table. -/
def ruHits (w : RuWho) : List (Nat × Nat) → RuM (List Nat)
  | [] => pure []
  | (t, b) :: r => do
    let k ← ruBucket w t b
    let rest ← ruHits w r
    pure (k.ents ++ rest)

/-- Length of the list of returned blocks. -/
def ruFree (w : RuWho) : Nat → Nat → RuM Nat
  | 0, _ => pure 0
  | n + 1, link =>
    if link = 0 then pure 0
    else do
      let v ← ruRead w (blockAt w.d (link - 1)) 8
      let m ← ruFree w n (v / 2 ^ 32 % 2 ^ 32)
      pure (m + 1)

/-- Pool blocks in use, of a descriptor with a pool: one without POL CHAIN may have adopted tables with chains (R247). -/
def ruInUse (w : RuWho) : RuM Nat :=
  if rdPsize w.d = 0 then pure 0
  else do
    let h ← ruRead w (rdPool w.d) 8
    let f ← ruFree w (rdPsize w.d) (h / 2 ^ 32)
    pure (h % 2 ^ 32 - f)

/-! Hashing (R249) -/

def mix32 (v : BitVec 32) : BitVec 32 :=
  let v := v ^^^ (v >>> 16)
  let v := v * 0x7FEB352D
  let v := v ^^^ (v >>> 15)
  let v := v * 0x846CA68B
  v ^^^ (v >>> 16)

def coefOf (key : Nat) (t j i : Nat) : Nat :=
  let k : BitVec 32 := BitVec.ofNat 32 key ^^^ BitVec.ofNat 32 (key / 2 ^ 32)
  (mix32 (k ^^^ BitVec.ofNat 32 (t * 2 ^ 24) ^^^ BitVec.ofNat 32 (j * 2 ^ 16) ^^^ BitVec.ofNat 32 i)).toNat % 8

def negBits (v : Nat) : Nat := if v < 2 ^ 31 then v + 2 ^ 31 else v - 2 ^ 31

/-- s > +0 for an FP32 sum. -/
def isPositive (v : Nat) : Bool :=
  match fp32.decode v with
  | .nan _ => false
  | .inf n => !n
  | .num d => d.m != 0 && !d.neg

def hashBit (key t j : Nat) (x : List Nat) : Bool :=
  let sm := ((List.range x.length).zip x).foldl (fun s e =>
    match coefOf key t j e.1 with
    | 0 => (add32 s e.2).1
    | 1 => (add32 s (negBits e.2)).1
    | _ => s) 0
  isPositive sm

/-- HASH(x, t). -/
def hashOf (d : RDesc) (x : List Nat) (t : Nat) : Nat :=
  (List.range (rdK d)).foldl (fun acc j => if hashBit (rdKey d) t j x then acc + 2 ^ j else acc) 0

/-! Vectors read through their windows (R249, R260) -/

def descOn (q : Issuer) (a : Nat) : Bool :=
  match apOf a with
  | .loc w _ => decide (w < 5) || wdEn (q.desc w)
  | _ => true

/-- Offset units of one element read at an address. -/
def elStep (a : Nat) : Nat := winUnit (apOf a).win

/-- Elements of a vector at an address, as FP32. One that is not aligned to its element (04 R94) is read from the bytes at its
address, through window 7 from the entry that holds its offset, since no failure of a retrieval command names it and R259
allows no trap (DESIGN CHOICE, log 29). -/
def readVec (q : Issuer) (a : Nat) : Nat → Nat → State → State × Except EFail (List Nat)
  | 0, _, s => (s, .ok [])
  | n + 1, i, s =>
    let ai := (a + i * elStep a) % 2 ^ 64
    if !descOn q ai then (s, .error (1, ai))
    else match unitEl s q .read false ai 4 with
      | (s, .error e) => (s, .error e)
      | (s, .ok e) =>
        let s := crossing (settleEls (touchEls s (partOf s q.core) [e]) [e]) q.core (elPlaces e)
        let v := (readEl s e).1
        match readVec q a n (i + 1) s with
        | (s, .error e) => (s, .error e)
        | (s, .ok r) => (s, .ok (v :: r))

def ruIssuer (c : Nat) (m : RCmd) : Issuer :=
  { core := c, ctx := m.ctx, priv := m.priv.toNat, wd5 := m.wd5, wd6 := m.wd6, wd7 := m.wd7, ahead := false }

/-- Rows are read as the context that issued RTSET reads them (13 R323), at the privilege of the command. -/
def rowIssuer (d : RDesc) (m : RCmd) : Issuer :=
  { core := d.core, ctx := m.ctx, priv := m.priv.toNat, wd5 := d.wd5, wd6 := d.wd6, wd7 := d.wd7, ahead := false }

/-! Commands -/

def modDesc (s : State) (k hf : Nat) (f : RDesc → RDesc) : State :=
  modCluster s k fun x => { x with descs := mset x.descs hf ((mget x.descs hf none).map f) }

def sat32 (v : Nat) : Nat := if v < 2 ^ 32 then v else 2 ^ 32 - 1

def countRejects (s : State) (k hf n : Nat) : State := modDesc s k hf fun d => { d with rejects := sat32 (d.rejects + n) }

def addCount (s : State) (k hf : Nat) (c : RCount) : State :=
  modDesc s k hf fun d => { d with drops := sat32 (d.drops + c.drops), evicts := sat32 (d.evicts + c.evicts),
                                   chains := sat32 (d.chains + c.chains), pfail := sat32 (d.pfail + c.pfail) }

def ruRecord (s : State) (c : Nat) (m : RCmd) (status addr extra : Nat) : State :=
  logRecord s c { extra, addr, done := 0, gen := m.gen.toNat, tag := 0, status, kind := 3, ctx := m.ctx, src := c }

/-- An entry of ids, padded (R252, R253, R256). -/
def idEntry (ids : List Nat) : VWord := mkV fun i => BitVec.ofNat 32 (ids.getD i noId)

def chunk64 : Nat → List Nat → List (List Nat)
  | 0, _ => []
  | n + 1, l => if l.isEmpty then [] else l.take 64 :: chunk64 n (l.drop 64)

/-- The rows with at least h hits, ascending. -/
def hitRows (hits : List Nat) (h : Nat) : List Nat :=
  (hits.foldl insNat []).filter fun r => decide (h ≤ hits.count r)

/-- The words of the dirty bitmap with their places, in order, until 64 set bits are seen. -/
def dirtyWords (w : RuWho) : Nat → Nat → Nat → State → State × Except EFail (List (Nat × List Place × Nat))
  | 0, _, _, s => (s, .ok [])
  | n + 1, i, seen, s =>
    if 64 ≤ seen then (s, .ok [])
    else
      let a := descDbm w.d + 8 * i
      match tableRead s w.d.core w.priv a 8 with
      | (s, .error e) => (s, .error e)
      | (s, .ok ps) =>
        match tablePlaces s w.d.core w.priv .write a 8 with
        | (s, .error e) => (s, .error e)
        | (s, .ok _) =>
          let s := crossing s w.c ps
          let v := readPlaces s ps
          match dirtyWords w n (i + 1) (seen + ((List.range 64).filter (bitOf v)).length) s with
          | (s, .error e) => (s, .error e)
          | (s, .ok r) => (s, .ok ((i, ps, v) :: r))

/-- RDIRTY: take up to 64 of the lowest set bits, each word by an atomic AND at its home: a bit that is set after its word was
read stays (R256). -/
def takeDirty (w : RuWho) (s : State) : State × Except EFail (List Nat) :=
  if descDbm w.d = 0 then (s, .ok [])
  else match dirtyWords w ((rdRcnt w.d + 63) / 64) 0 0 s with
    | (s, .error e) => (s, .error e)
    | (s, .ok ws) =>
      let ids := (ws.flatMap fun x => ((List.range 64).filter (bitOf x.2.2)).map fun b => 64 * x.1 + b).take 64
      let s := ws.foldl (fun s x =>
        let taken := (List.range 64).foldl (fun v b => if bitOf x.2.2 b && ids.contains (64 * x.1 + b) then v + 2 ^ b else v) 0
        if taken = 0 then s else (atomicBits s w.c w.m.ctx w.m.gen x.2.1 .clear taken).1) s
      (s, .ok ids)

/-- Units whose lines an RFENCE invalidates (05 R130, Table 5.1; codes below CLUSTER act at CLUSTER). -/
def fenceUnits (s : State) (c : Nat) (scope : Scope) : List Nat :=
  let ofStratum (z : Nat) : List Nat := (List.range 256).map fun i => 256 * z + i
  match scope with
  | .stratum => ofStratum (stratumOf c)
  | .stack => (partStrata s (partOf s c)).flatMap ofStratum
  | .system => (partStrata s (partOf s c)).flatMap ofStratum
  | _ => [clusterOf c]

/-- The work of one row of a rehash (R255). -/
def rehashWork (old new : List Nat) (r : Nat) : List RWork :=
  let ts := (List.range new.length)
  ts.map (fun t => .insert t (new.getD t 0) r) ++
    (ts.filter fun t => old.getD t noId != noId && old.getD t noId != new.getD t 0).map fun t =>
      .remove t (old.getD t 0) r

/-- Begin one row: its homes, its hash, its work; a row beyond RCNT is counted. -/
def beginRow (s : State) (k c : Nat) (d : RDesc) (m : RCmd) (r : Nat) : State × Except EFail (List RWork) :=
  if rdRcnt d ≤ r then (countRejects s k m.hf 1, .ok [])
  else
    let ts := List.range (rdL d)
    let w : RuWho := { k, d, c, m }
    match ruRun s w (ruHomes w r ts) with
    | (s, .error e) => (s, .error e)
    | (s, .ok old) =>
      match readVec (rowIssuer d m) (rdRsrc d + r * rdRstr d) (rdD d) 0 s with
      | (s, .error e) => (s, .error e)
      | (s, .ok x) => (s, .ok (rehashWork old (ts.map (hashOf d x)) r))

/-- How a failure ends a command (R259): RPROBE writes its status, RHV and RDIRTY push padding, RSTAT writes 0 (the spec gives it
no value; DESIGN CHOICE, log 29). -/
def failCmd (s : State) (c : Nat) (m : RCmd) (e : EFail) : State × RCmd :=
  let s := ruRecord s c m e.1 e.2 0
  let fin : RCmd := { m with begun := true, work := [], out := [] }
  match m.op with
  | .probe pid .. => (fulfil s c m.ctx pid (.s (word (2 ^ 63))) 0, fin)
  | .rhv f _ => (s, { fin with out := [(f, idEntry [])] })
  | .dirty f => (s, { fin with out := [(f, idEntry [])] })
  | .hash .. => (s, { fin with op := .hash 0 0 })
  | .hashList _ => (s, { fin with op := .hashList [] })
  | .stat pid .. => (fulfil s c m.ctx pid (.s 0) 0, fin)
  | _ => (s, fin)

/-- The value of RSTAT (in part DEDUCED, log 29). -/
def statValue (s : State) (k c : Nat) (d : RDesc) (m : RCmd) (sel : Nat) : State × Except EFail Nat :=
  match sel with
  | 0 => (s, .ok d.drops)
  | 1 => (s, .ok d.evicts)
  | 2 => (s, .ok d.chains)
  | 3 => (s, .ok d.pfail)
  | 4 => ruRun s { k, d, c, m } (ruInUse { k, d, c, m })
  | _ => (s, .ok d.rejects)

/-- Write the ids of a probe with S: the low words first, their words FULL (R253). -/
def spillIds (s : State) (c o : Nat) (ids : List Nat) : State :=
  writeFull s ((poolPlaces c o (4 * ids.length)).zip (ids.flatMap fun r => toLe 4 r))

/-- The next bucket operation of a command that has no work in hand. A probe whose spill range no longer lies in the scratchpad,
since its task has been killed and the pool laid out anew, fails with REMOTE_RANGE (01 R37; DESIGN CHOICE, log 29). -/
def beginOp (s : State) (k c : Nat) (d : RDesc) (m : RCmd) : State × RCmd :=
  let w : RuWho := { k, d, c, m }
  let go := { m with begun := true }
  match m.op with
  | .rhv f input =>
    match readVec (ruIssuer c m) input.toNat (rdD d) 0 s with
    | (s, .error e) => failCmd s c m e
    | (s, .ok x) => (s, { go with out := [(f, idEntry ((List.range (rdL d)).map (hashOf d x)))] })
  | .probe pid input h cap spill =>
    match readVec (ruIssuer c m) input.toNat (rdD d) 0 s with
    | (s, .error e) => failCmd s c m e
    | (s, .ok x) =>
      match ruRun s w (ruHits w ((List.range (rdL d)).map fun t => (t, hashOf d x t))) with
      | (s, .error e) => failCmd s c m e
      | (s, .ok hits) =>
        let q := hitRows hits h
        let ids := q.take cap
        if spill.any fun o => decide (coreSp s c < o + 4 * ids.length) then failCmd s c m (3, spill.getD 0)
        else
          let s := fulfil s c m.ctx pid (.s (word (q.length * 2 ^ 32 + ids.length))) 0
          match spill with
          | none => (s, { go with out := (chunk64 64 ids).map fun l => (3, idEntry l) })
          | some o => (spillIds s c o ids, go)
  | .del r =>
    if rdRcnt d ≤ r then (countRejects s k m.hf 1, go)
    else
      (s, { go with work := (List.range (rdL d)).map (fun t => .removeHome t r) ++ [.unhash r] })
  | .hash first count =>
    match count with
    | 0 => (s, go)
    | n + 1 =>
      if rdRcnt d ≤ first then (countRejects s k m.hf (n + 1), { go with op := .hash 0 0 })
      else match beginRow s k c d m first with
        | (s, .error e) => failCmd s c m e
        | (s, .ok ws) => (s, { go with op := .hash (first + 1) n, work := ws })
  | .hashList rows =>
    match rows with
    | [] => (s, go)
    | r :: rs =>
      match beginRow s k c d m r.toNat with
      | (s, .error e) => failCmd s c m e
      | (s, .ok ws) => (s, { go with op := .hashList rs, work := ws })
  | .dirty f =>
    match takeDirty w s with
    | (s, .error e) => failCmd s c m e
    | (s, .ok ids) => (s, { go with out := [(f, idEntry ids)] })
  | .fence .. => (s, m)
  | .stat pid sel clr =>
    match statValue s k c d m sel with
    | (s, .error e) => failCmd s c m e
    | (s, .ok v) =>
      let s := if clr then modDesc s k m.hf fun d => { d with drops := 0, evicts := 0, chains := 0, pfail := 0, rejects := 0 }
        else s
      (fulfil s c m.ctx pid (.s (word v)) 0, go)

/-- The writes of unit k, numbered before upto, that an RFENCE covers. -/
def covers (k upto : Nat) (w : HomeWrite) : Bool := w.unit == k && decide (w.id < upto)

/-- What no unit needs any more once every unit sees the writes of unit k: those, and what stood at their places before. -/
def dropShown (k upto : Nat) : List HomeWrite → List HomeWrite
  | [] => []
  | w :: r => if (w :: r).any fun v => v.place == w.place && covers k upto v then dropShown k upto r else w :: dropShown k upto r

/-- The units of a scope have acknowledged, and see what unit k has written home (05 R130). -/
def publish (calm : Nat → Bool) (scope : Scope) (k upto : Nat) (l : List HomeWrite) : List HomeWrite :=
  match scope with
  | .stack => dropShown k upto l
  | .system => dropShown k upto l
  | .stratum => (l.map fun w => { w with stratum := w.stratum || covers k upto w }).foldl (addHomeWrite calm) []
  | _ => l

/-- RFENCE writes the lines that its unit has updated to their homes and names the units that must acknowledge, each of which
sees them from then on (05 R130, R257); an update that comes later makes its line one to be written again (in part DEDUCED,
log 29). -/
def beginFence (s : State) (k c : Nat) (m : RCmd) (scope : Scope) (await : Nat) : State × RCmd :=
  let (s, bad) := writeBack s k c m (getCluster s k).ruCache
  let s := modCluster s k fun x => { x with ruCache := bad }
  (s, { m with begun := true, op := .fence scope await (fenceUnits s c scope) s.serial })

/-- Whether writes of the cores of a unit to peers, numbered before upto, are not acknowledged: an RFENCE waits for its
write-backs, and for those that made room before it (R257). -/
def fencePackets (s : State) (c upto : Nat) : Bool :=
  s.peers.any fun y => y.2.unacked.any fun o => !o.copy && clusterOf o.core == clusterOf c && decide (o.id < upto) &&
    (o.p.kind.toNat ≤ 1 || o.p.kind == 4)

/-- A failed insertion is noted and recorded (R251) (in part DEDUCED, log 29). -/
def noteFailure (s : State) (c : Nat) (d : RDesc) (m : RCmd) (r : Nat) : State × RCmd :=
  let s := ruRecord s c m 8 0 r
  if rdPtrap d && !m.failed then
    ((if (getCtx s c m.ctx).uid = m.uid then modCtx s c m.ctx fun x => { x with poolFail := true } else s),
      { m with failed := true })
  else (s, m)

/-- Perform one piece of work in hand. -/
def doWork (s : State) (k c : Nat) (d : RDesc) (m : RCmd) (x : RWork) (rest : List RWork) : State × RCmd :=
  match ruRun s { k, d, c, m } (ruWork { k, d, c, m } x) with
  | (s, .error e) => failCmd s c m e
  | (s, .ok n) =>
    let s := addCount s k m.hf n
    let m := { m with work := rest }
    match x with
    | .insert _ _ r => if n.pfail = 0 then (s, m) else noteFailure s c d m r
    | _ => (s, m)

/-- Push an entry to a FIFO, or behind it while it is full (16 Table 16.7). -/
def fifoAdd (r : Regs) (f : FReg) (e : VWord) : Regs :=
  if fifoFull r f then { r with fPush := r.fPush.set f.toNat (r.fPush.get f.toFin ++ [e]) f.isLt }
  else wrF r f (rdF r f ++ [e])

/-- Push an entry to a FIFO of the command's context, in the speculative and the saved registers (18 R394). -/
def pushEntry (s : State) (c n f : Nat) (e : VWord) : State := modBoth s c n fun r => fifoAdd r (BitVec.ofNat 2 f) e

/-- A FIFO that a command pushes to has room, in the registers that run-ahead would return to; the pushes of a frozen
context do not wait for room (16 Table 16.7). -/
def fifoRoom (s : State) (c n f : Nat) : Bool :=
  let x := getCtx s c n
  let r := match x.ra with
    | some a => a.saved
    | none => x.regs
  x.frozen || x.stopping || !fifoFull r (BitVec.ofNat 2 f)

def opOver : ROp → Bool → Bool
  | .hash _ n, _ => n == 0
  | .hashList l, _ => l.isEmpty
  | .fence .., _ => false
  | _, b => b

def cmdOver (m : RCmd) : Bool := opOver m.op m.begun && m.work.isEmpty && m.out.isEmpty

/-- Whether the head of a queue waits: for room in a FIFO, for acknowledgements. -/
def cmdWaits (s : State) (c : Nat) (m : RCmd) : Bool :=
  (getCtx s c m.ctx).uid == m.uid && (match m.out with
    | (f, _) :: _ => !fifoRoom s c m.ctx f
    | [] => false) ||
  (match m.op with
    | .fence .. => m.begun
    | _ => false)

/-- One operation of the head command of a core. -/
def cmdStep (s : State) (k c : Nat) (m : RCmd) : State × RCmd :=
  match m.out with
  | (f, e) :: rest =>
    -- the pushes of a task that has been killed are reported (16 R347)
    ((if (getCtx s c m.ctx).uid = m.uid then pushEntry s c m.ctx f e else ruRecord s c m 6 0 0), { m with out := rest })
  | [] =>
    match m.op with
    | .fence scope await .. => if m.begun then (s, m) else beginFence s k c m scope await
    | _ =>
      match mget (getCluster s k).descs m.hf none with
      | none => failCmd s c m (1, 0)
      | some d =>
        match m.work with
        | x :: rest => doWork s k c d m x rest
        | [] => beginOp s k c d m

/-- Put the head of a core's queue back, or remove it when it is over. -/
def setHead (s : State) (c : Nat) (m : RCmd) : State :=
  modCore s c fun k => { k with rq := match k.rq with
    | [] => []
    | _ :: r => if cmdOver m then r else m :: r }

def workRow : RWork → Nat
  | .insert _ _ r => r
  | .remove _ _ r => r
  | .removeHome _ r => r
  | .unhash r => r

/-- The row of a table that the next operation of a command begins. -/
def nextRow? (m : RCmd) : Option Nat :=
  if !m.work.isEmpty then none
  else match m.op with
    | .del r => some r
    | .hash first (_ + 1) => some first
    | .hashList (r :: _) => some r.toNat
    | _ => none

/-- Whether another core's command of the unit has a row in hand: rehashes of one row run one after the other (R260). -/
def rowInHand (s : State) (k c : Nat) (m : RCmd) : Bool :=
  (nextRow? m).any fun r => (clusterCores k).any fun t => t != c && (getCore s t).rq.any fun e =>
    e.hf == m.hf && e.work.any fun x => workRow x == r

/-- The vector that the next operation of a command reads: by whose windows, from which address, of how many elements. -/
def nextVector (s : State) (k c : Nat) (m : RCmd) : Option (Issuer × Nat × Nat) :=
  if m.work.isEmpty && m.out.isEmpty then
    (mget (getCluster s k).descs m.hf none).bind fun d => match m.op with
      | .rhv _ input => some (ruIssuer c m, input.toNat, rdD d)
      | .probe _ input .. => some (ruIssuer c m, input.toNat, rdD d)
      | .hash first (_ + 1) => some (rowIssuer d m, rdRsrc d + first * rdRstr d, rdD d)
      | .hashList (r :: _) => some (rowIssuer d m, rdRsrc d + r.toNat * rdRstr d, rdD d)
      | _ => none
  else none

/-- Whether operations on the plastic region of a vector in window 7 stand before the read of it, as they do before the reads
of the array (R242, R260). -/
def vectorShut (s : State) (k c : Nat) (m : RCmd) : Bool :=
  (nextVector s k c m).any fun v => match apOf v.2.1 with
    | .loc 7 _ => regionsShut s [.plast v.1.core (wdRegion v.1.wd7) 0 []] none
    | _ => false

/-- Whether the unit of another cluster is in the midst of an RDIRTY: it has read words of a bitmap at a peer and not yet sent
what takes their bits, which no other RDIRTY may take too (R256). -/
def dirtyElsewhere (s : State) (k : Nat) (m : RCmd) : Bool :=
  (match m.op with
    | .dirty _ => true
    | _ => false) && s.stalled.any fun x => x.op == .retrievalBucketOperation && x.arg.i != k &&
    (clusterCores x.arg.i).any fun c => (getCore s c).rq.head?.any fun e => match e.op with
      | .dirty _ => true
      | _ => false

/-- Whether a context of the unit's cores is in the midst of an RTSET.INIT of a descriptor. -/
def initRuns (s : State) (k h : Nat) : Bool :=
  (clusterCores k).any fun c => (getCore s c).ctxs.any fun x => x.2.init.any fun i => i.1 == h

def isFence : ROp → Bool
  | .fence .. => true
  | _ => false

/-- Whether a command has still to wait before its next operation (05 R123; R247, R256, R260). -/
def cmdHeld (s : State) (k c : Nat) (m : RCmd) : Bool :=
  (!m.begun && engineHeld s c m.ctx m.uid m.id) || rowInHand s k c m || vectorShut s k c m || dirtyElsewhere s k m ||
    (!isFence m.op && initRuns s k m.hf)

/-- The next bucket operation of a unit: the queues of its four cores in rotation (R244); the unit stands still with the
clock of its stratum, and an operation waits for that of a stratum which it reads or writes (01 R26, 20 R416). -/
def bucketOperation (s : State) (k : Nat) : State :=
  if clockStopped s (clusterCore k 0) then s else
  let turn := (List.range 4).map fun i => ((getCluster s k).ruTurn + i) % 4
  let ready := turn.filterMap fun p =>
    let c := clusterCore k p
    match (getCore s c).rq with
    | m :: _ => if cmdWaits s c m || cmdHeld s k c m then none else some (p, c, m)
    | [] => none
  match ready with
  | [] => s
  | (p, c, m) :: _ =>
    let r := cmdStep { s with waited := false } k c m
    if r.1.waited then s
    else setHead (modCluster { r.1 with waited := s.waited } k fun x => { x with ruTurn := (p + 1) % 4 }) c r.2

/-- The RFENCE at the head of a core's queue is over: every unit has acknowledged, every write is performed. -/
def fenceOver (s : State) (c : Nat) (m : RCmd) (rest : List RCmd) : State :=
  match m.op with
  | .fence scope await left upto =>
    if left.isEmpty && !fencePackets s c upto then
      let s := modCore s c fun k => { k with rq := rest }
      let k := clusterOf c
      let s := { s with unseen := publish (fenceless s) scope k upto s.unseen }
      if (getCtx s c m.ctx).uid = m.uid then answer s c m.ctx await else s
    else s
  | _ => s

/-- Unit j sees the writes of unit k, numbered before upto, from now on. -/
def showTo (k upto j : Nat) (l : List HomeWrite) : List HomeWrite :=
  l.map fun w => if covers k upto w then { w with seen := insNat w.seen j } else w

/-- Unit j acknowledges the RFENCE that core c has begun, and sees what it covers; its own updates stay in its cache. The RFENCE
ends when nothing is left to wait for (in part DEDUCED, log 29). -/
def fenceAck (s : State) (c j : Nat) : State :=
  match (getCore s c).rq with
  | m :: r =>
    match m.op with
    | .fence scope await left upto =>
      if m.begun && !clockStopped s (clusterCore j 0) then
        let s := if left.contains j then { s with unseen := showTo (clusterOf c) upto j s.unseen } else s
        let m := { m with op := .fence scope await (left.filter fun u => u != j) upto }
        fenceOver (modCore s c fun k => { k with rq := m :: r }) c m r
      else s
    | _ => s
  | [] => s

/-- RETRIEVAL_BUCKET_OPERATION (R244): operand i the cluster. -/
def execRetrievalBucketOperation (s : State) : Out :=
  if s.arg.i < 4096 then .next (bucketOperation s s.arg.i) else .fault (.noSuchUnit s.arg.i)

/-- RFENCE_ACK (R257): operands i the core that fences, j the unit that acknowledges. -/
def execRfenceAck (s : State) : Out :=
  if s.arg.i < 0x4000 then .next (fenceAck s s.arg.i s.arg.j) else .fault (.noSuchCore s.arg.i)

/-! Issue -/

/-- A noted pool failure traps the next retrieval instruction (R251). -/
def poolTrap (s : State) (body : State → Act) : Act :=
  if (me s).poolFail then .trap (modMe s fun x => { x with poolFail := false }) (mkTrap 0x0E 0) else body s

def myDesc (s : State) (h : BitVec 4) : Option RDesc :=
  mget (getCluster s (clusterOf (myId s))).descs h.toNat none

def rcmd (s : State) (h : Nat) (op : ROp) : RCmd :=
  let x := me s
  { id := s.serial, ctx := myN s, uid := x.uid, gen := x.gen, hf := h, priv := x.priv, wd5 := x.regs.wd5,
    wd6 := x.regs.wd6, wd7 := x.regs.wd7, op, begun := false, work := [], out := [], failed := false }

def pushCmd (s : State) (h : Nat) (op : ROp) : State :=
  modMyCore { s with serial := s.serial + 1 } fun k => { k with rq := k.rq ++ [rcmd s h op] }

def queueFull (s : State) : Bool := decide (8 ≤ (myCore s).rq.length)

/-- The body of a command that names a valid descriptor: its own checks, then its place in the queue (in part DEDUCED, log 29). -/
def ruBody (h : BitVec 4) (check : State → RDesc → Option Trap) (enter : State → Act) (s : State) : Act :=
  poolTrap s fun s =>
    match myDesc s h with
    | none => .trap s tILLEGAL
    | some d =>
      match check s d with
      | some t => .trap s t
      | none => if queueFull s then .hold else enter s

/-- RHV (R252). -/
def execRhv (c : Cond) (f : FReg) (h : BitVec 4) (a : SSrc) (s : State) : Out :=
  .next (issue (.rhv c f h a) s (ruBody h (fun _ _ => none) fun s => .go (pushCmd s h.toNat (.rhv f.toNat (sv s a)))))

/-- The checks of RPROBE. A bad spill range raises APERTURE with the scratchpad offset in FADDR (the spec does not say which
address; DESIGN CHOICE, log 27). -/
def probeCheck (h1 : BitVec 4) (m1 : BitVec 12) (spill : Option (BitVec 19)) (s : State) (d : RDesc) : Option Trap :=
  if rdL d < h1.toNat + 1 then some tILLEGAL
  else match spill with
    | none => if 512 < m1.toNat + 1 then some tILLEGAL else none
    | some o =>
      if o.toNat % 8 ≠ 0 ∨ coreSp s (myId s) < o.toNat + 4 * (m1.toNat + 1) then some (tAPERTURE o.toNat) else none

/-- RPROBE (R253). -/
def execRprobe (c : Cond) (d : SReg) (a : SSrc) (h : BitVec 4) (h1 : BitVec 4) (m1 : BitVec 12)
    (spill : Option (BitVec 19)) (s : State) : Out :=
  .next (issue (.rprobe c d a h h1 m1 spill) s (ruBody h (probeCheck h1 m1 spill) fun s =>
    .go (pushCmd (produce s (.s d) .arrives) h.toNat
      (.probe s.serial (sv s a) (h1.toNat + 1) (m1.toNat + 1) (spill.map (·.toNat))))))

/-- RINS (R254). -/
def execRins (c : Cond) (h : BitVec 4) (a : SSrc) (s : State) : Out :=
  .next (issue (.rins c h a) s (ruBody h (fun _ _ => none) fun s => .go (pushCmd s h.toNat (.hash (sv s a).toNat 1))))

/-- RDEL (R254). -/
def execRdel (c : Cond) (h : BitVec 4) (a : SSrc) (s : State) : Out :=
  .next (issue (.rdel c h a) s (ruBody h (fun _ _ => none) fun s => .go (pushCmd s h.toNat (.del (sv s a).toNat))))

/-- RHASH of a range (R255). -/
def execRhash (c : Cond) (h : BitVec 4) (a b : SSrc) (s : State) : Out :=
  .next (issue (.rhash c h a b) s (ruBody h (fun _ _ => none) fun s =>
    .go (pushCmd s h.toNat (.hash (sv s a).toNat (sv s b).toNat))))

/-- Put a row into an ascending list. -/
def insertRow (r : BitVec 32) : List (BitVec 32) → List (BitVec 32)
  | [] => [r]
  | x :: l => if r.toNat ≤ x.toNat then r :: x :: l else x :: insertRow r l

/-- RHASH of the ids of a FIFO entry, popped at issue: its rows in ascending order (R255). -/
def execRhashFifo (c : Cond) (h : BitVec 4) (f : FReg) (s : State) : Out :=
  .next (issue (.rhashFifo c h f) s (ruBody h (fun _ _ => none) fun s =>
    match rdF (myRegs s) f with
    | [] => .hold
    | e :: _ =>
      let ids := ((List.range 64).map (lane e)).filter fun v => v.toNat != noId
      .go (pushCmd (modRegs s fun r => fifoPop r f) h.toNat (.hashList (ids.foldr insertRow [])))))

/-- RDIRTY (R256). -/
def execRdirty (c : Cond) (f : FReg) (h : BitVec 4) (s : State) : Out :=
  .next (issue (.rdirty c f h) s (ruBody h (fun _ _ => none) fun s => .go (pushCmd s h.toNat (.dirty f.toNat))))

/-- RSTAT (R258). -/
def execRstat (c : Cond) (clr : Bool) (d : SReg) (h : BitVec 4) (sel : BitVec 3) (s : State) : Out :=
  .next (issue (.rstat c clr d h sel) s (ruBody h (fun _ _ => if 5 < sel.toNat then some tILLEGAL else none) fun s =>
    .go (pushCmd (produce s (.s d) .arrives) h.toNat (.stat s.serial sel.toNat clr))))

/-- RFENCE (R257): its context waits for the acknowledgements. -/
def execRfence (c : Cond) (scope : Scope) (s : State) : Out :=
  .next (issue (.rfence c scope) s fun s =>
    if (me s).await.isSome then request s (fun s _ => s) .go
    else poolTrap s fun s =>
      if queueFull s then .hold else request s (fun s id => pushCmd s 0 (.fence scope id [] 0)) .go)

/-! RTSET (R247) -/

/-- Where BKT, HMAP, POOL and DBM may lie. -/
def tableOk (a : Nat) : Bool :=
  a % 8 == 0 && (match apOf a with
    | .glob => true
    | .loc 0 _ => true
    | .remote c 0 _ => validCore c
    | _ => false)

/-- Where RSRC may lie. -/
def rowsAt (a : Nat) : Bool :=
  match apOf a with
  | .glob => true
  | .loc .. => true
  | .remote c w _ => validCore c && decide (w < 5)
  | _ => false

/-- A THR of +0 to +∞ (a −0 is no negative value: log 20). -/
def thrOk (v : Nat) : Bool :=
  match fp16.decode v with
  | .nan _ => false
  | .inf n => !n
  | .num d => d.m == 0 || !d.neg

def blockOk (d : RDesc) : Bool :=
  blockField d 1023 555 == 0 && blockField d 447 416 == 0 && rdPol d != 3 && blockField d 551 550 != 3 &&
    decide (1 ≤ rdD d) && decide (rdD d ≤ 4096) && decide (4 ≤ rdK d) && decide (rdK d ≤ 20) && thrOk (descThr d) &&
    decide (1 ≤ rdRcnt d) && tableOk (rdBkt d) && tableOk (rdHmap d) && tableOk (rdPool d) && tableOk (descDbm d) &&
    rowsAt (rdRsrc d) && (rdPol d != 2 || decide (1 ≤ rdPsize d))

/-- The writes of INIT in their order: address, length, value of one item. -/
def initItems (d : RDesc) : List (Nat × Nat × Nat) :=
  (List.range (rdL d)).flatMap (fun t => (List.range (2 ^ rdK d)).map fun b =>
    (bucketAt d t b, bucketSize d, slotsWord 0 0 0 [] (rdB d))) ++
  (List.range (rdRcnt d)).flatMap (fun r => (List.range (rdL d)).map fun t => (homeAt d r t, 4, noId)) ++
  [(rdPool d, 8, 0)] ++
  (if descDbm d = 0 then [] else (List.range ((rdRcnt d + 63) / 64)).map fun i => (descDbm d + 8 * i, 8, 0))

/-- Whether a byte cannot be written: its channel is lost (20 R418), or the route to its peer has failed (20 R412). -/
def unwritable (s : State) (part : Nat) : Place → Bool
  | .hbm pa => lostPlace s (.hbm pa) || peerFailed s part pa
  | _ => false

/-- Write the bytes of an item up to the first that cannot be written; they leave the cache of the unit, and other units see
them. -/
def initBytes (s : State) (k : Nat) (d : RDesc) (ps : List Place) (bs : List Byte) : State × Nat :=
  let good := ps.takeWhile fun p => !unwritable s (partOf s d.core) p
  let s := homeWrite (crossing s d.core good) d.core (myN s) (me s).gen (good.zip bs)
  (modCluster s k fun x => { x with ruCache := x.ruCache.filter fun e => !good.contains e.place }, good.length)

/-- Write one item in ascending address; a failure names the first address not written. -/
def initItem (k : Nat) (d : RDesc) (a n v : Nat) (s : State) : State × Option EFail :=
  match tablePlaces s d.core d.priv.toNat .write a n with
  | (s, .ok ps) =>
    let (s, done) := initBytes s k d ps (toLe n v)
    (s, if done < n then some (4, a + done) else none)
  | (s, .error e) =>
    if a < e.2 ∧ e.2 < a + n then
      match tablePlaces s d.core d.priv.toNat .write a (e.2 - a) with
      | (s, .ok ps) =>
        let (s, done) := initBytes s k d ps (toLe n v)
        (s, some (if done < e.2 - a then (4, a + done) else e))
      | (s, .error _) => (s, some (e.1, a))
    else (s, some (e.1, a))

/-- Write items in order until one fails (in part DEDUCED, log 29). -/
def initWrites (k : Nat) (d : RDesc) : List (Nat × Nat × Nat) → State → State × Option EFail
  | [], s => (s, none)
  | (a, n, v) :: r, s =>
    match initItem k d a n v s with
    | (s, none) => initWrites k d r s
    | (s, some e) => (s, some e)

def setDesc (s : State) (k h : Nat) (d : Option RDesc) : State :=
  modCluster s k fun x => { x with descs := mset x.descs h d }

/-- Whether a command of the unit names a descriptor, or an RTSET.INIT of it is under way. -/
def descBusy (s : State) (k h : Nat) : Bool :=
  initRuns s k h || (clusterCores k).any fun c => (getCore s c).rq.any fun m => m.hf == h && !isFence m.op

/-- Items that one step of RTSET.INIT writes. -/
def initPiece : Nat := 4096

/-- RTSET.INIT goes on with item i of its tables, and completes when the writes at peers are performed too. -/
def initGo (h i : Nat) (s : State) : Act :=
  let c := myId s
  let k := clusterOf c
  let ended (s : State) : State := modMe s fun x => { x with init := none, await := none }
  match mget (getCluster s k).descs h none with
  | none => .go (ended s)
  | some d =>
    let rest := (initItems d).drop i
    let lo := ((me s).await.map (·.id)).getD s.serial
    let r := initWrites k d (rest.take initPiece) { s with waited := false }
    if r.1.waited then .hold
    else match ({ r.1 with waited := s.waited }, r.2) with
    | (s, some e) => .trap (ctxRecord (setDesc (ended s) k h none) c (myN s) 3 e.1 0 0 e.2 0) (mkTrap 0x0D e.2)
    | (s, none) =>
      let away := packetsIn s c (myN s) (me s).uid lo s.serial none
      if rest.length ≤ initPiece && !away then .go (ended s)
      else if rest.isEmpty then .hold
      else .stay (modMe s fun x => { x with init := some (h, i + initPiece), await := some { id := lo, done := false } })

/-- Load a block whose value is v. -/
def loadDesc (s : State) (h : Nat) (init : Bool) (addr v : Nat) : Act :=
  let c := myId s
  let x := me s
  let k := clusterOf c
  let d : RDesc := { block := BitVec.ofNat 1024 v, core := c, priv := x.priv, wd5 := x.regs.wd5, wd6 := x.regs.wd6,
                     wd7 := x.regs.wd7, drops := 0, evicts := 0, chains := 0, pfail := 0, rejects := 0 }
  if !blockOk d then .trap s (mkTrap 0x0D addr)
  else
    let s := setDesc s k h (some d)
    if init then initGo h 0 s else .go s

/-- The body of RTSET. A block that cannot be read ends the command with a record and leaves the descriptor as it was
(R259) (in part DEDUCED, log 29). -/
def rtsetBody (h : BitVec 4) (a : SSrc) (init : Bool) (s : State) : Act :=
  match (me s).init with
  | some i => initGo i.1 i.2 s
  | none => poolTrap s fun s =>
    let addr := (sv s a).toNat
    if !runsAhead s && descBusy s (clusterOf (myId s)) h.toNat then .hold
    else if addr % 8 ≠ 0 then .trap s (tMISALIGNED addr)
    else
      let fail (s : State) (e : EFail) : Act := .go (ctxRecord s (myId s) (myN s) 3 e.1 0 0 e.2 0)
      if (apOf addr).win ≠ 0 then fail s (3, addr)
      else match engineRead s (myId s) (me s).priv.toNat addr 128 with
        | (s, .error e) => fail s e
        | (s, .ok ps) => if placesStopped s (myId s) ps then .hold else loadDesc s h.toNat init addr (readPlaces s ps)

/-- RTSET (R247). -/
def execRtset (c : Cond) (h : BitVec 4) (a : SSrc) (s : State) : Out :=
  .next (issue (.rtset c h a) s (rtsetBody h a false))

/-- RTSET.INIT (R247). -/
def execRtsetInit (c : Cond) (h : BitVec 4) (a : SSrc) (s : State) : Out :=
  .next (issue (.rtsetInit c h a) s (rtsetBody h a true))

end Sys2Proof.Machine
end

