-- ==== Sys2Proof/Machine/Plasticity.lean ====
section
/-! DEFINITION. Trace and reward instructions, majors 0xB9 to 0xC2 (10 R261 to R280), and the steps
TRACE_COMMAND_APPLY and REWARD_SWEEP. -/

namespace Sys2Proof.Machine

def tPLASTIC (a : Nat) : Trap := mkTrap 0x0F a
def tRANGE : Trap := mkTrap 0x10 0

/-! Rates and regions (R262 to R265) -/

/-- λ as TRATE takes it: FP32 from +0 to below 1.0, −0 as +0. -/
def rateOf (v : Nat) : Option Nat := if v = 2 ^ 31 then some 0 else if v < one32 then some v else none

/-- TRATE (R262); the 24 core cycles in which the table is built are no state (DESIGN CHOICE, log 11). -/
def execTrate (c : Cond) (k : BitVec 4) (a : SSrc) (s : State) : Out :=
  .next (issue (.trate c k a) s fun s =>
    match rateOf (bitsOf (sv s a).toNat 31 0) with
    | none => .trap s (tPLASTIC 0)
    | some lam =>
      if (myCore s).regions.any fun e => e.2.any fun r => r.slot == k.toNat then .trap s (tPLASTIC 0)
      else
        let (tab, f) := powerTable 24 lam
        .go (tflag (modMyCore s fun x => { x with slots := mset x.slots k.toNat { lam := BitVec.ofNat 32 lam, tab } })
          (myId s) f))

/-- Items of the trace unit that a TREG of a region waits for: the rewards and the operations on it (R264), a report that is
still on its way to a bitmap (R275) among them. -/
def regionBusy (s : State) (reg : Nat) : Bool :=
  ((myCore s).tl.any fun t => (itemRegions t).contains reg) || (myCore s).reports.any fun e => e.region == reg

/-- The region of a block (Table 10.1), its step counter 0. -/
def blockRegion (v : Nat) : Region where
  cols := bitsOf v 120 112
  rows := bitsOf v 111 96
  base := bitsOf v 82 64
  hen := bitOf v 60
  hf := bitsOf v 59 56
  group := bitsOf v 55 52
  slot := bitsOf v 51 48
  thr := BitVec.ofNat 16 (bitsOf v 47 32)
  eta := BitVec.ofNat 32 (bitsOf v 31 0)
  n := 0

def regionEnd (r : Region) : Nat := r.base + r.rows * rowStride r.cols

/-- The checks of R264. BASE is 8-byte aligned as its field says (in part DEDUCED, log 21). -/
def regionOk (s : State) (reg v : Nat) : Bool :=
  let r := blockRegion v
  bitsOf v 127 121 == 0 && bitsOf v 95 83 == 0 && bitsOf v 63 61 == 0 && decide (1 ≤ r.cols) && decide (r.cols ≤ 256) &&
    decide (1 ≤ r.rows) && r.base % 8 == 0 && bitsOf v 30 23 != 255 && thrOk r.thr.toNat &&
    decide (regionEnd r ≤ coreSp s (myId s)) &&
    !((myCore s).regions.any fun e => e.1 != reg && e.2.any fun x =>
      decide (x.base < regionEnd r) && decide (r.base < regionEnd x)) &&
    (!r.hen || (descOf s (myId s) r.hf).isSome)

def defineRegion (s : State) (reg : Nat) (r : Option Region) : State :=
  modMyCore s fun k => { k with regions := mset k.regions reg r }

/-- The largest STAMP among a region's row headers. -/
def lastStamp (s : State) (c : Nat) (r : Region) : Nat :=
  (List.range r.rows).foldl (fun m row => max m (readHead s c r row).stamp) 0

/-- Headers 0 and trace halves +0, the weights as they stand. -/
def clearRegion (s : State) (c : Nat) (r : Region) : State :=
  (List.range r.rows).foldl (fun s row =>
    (foldRow (writePoolN s c (rowAt r row) 8 0) c r row 0 fun _ w _ _ => ((w, 0, 0), 0)).1) s

/-- The body of TREG and TREG.INIT (in part DEDUCED, log 30). -/
def tregBody (reg : BitVec 4) (a : SSrc) (init : Bool) (s : State) : Act :=
  let n := reg.toNat
  let addr := (sv s a).toNat
  if !runsAhead s && regionBusy s n then .hold
  else match apOf addr with
    | .loc 0 o =>
      if coreSp s (myId s) < o + 16 then .trap s (tAPERTURE addr)
      else if addr % 8 ≠ 0 then .trap s (tMISALIGNED addr)
      else
        let v := readPool s (myId s) o 16
        let r := blockRegion v
        if !regionOk s n v then .trap s (tPLASTIC addr)
        else if init then .go (defineRegion (clearRegion s (myId s) r) n (some r))
        else .go (defineRegion s n (some { r with n := BitVec.ofNat 24 (lastStamp s (myId s) r) }))
    | _ => .trap s (tAPERTURE addr)

/-- TREG (R263, R264). -/
def execTreg (c : Cond) (n : BitVec 4) (a : SSrc) (s : State) : Out :=
  .next (issue (.treg c n a) s (tregBody n a false))

/-- TREG.INIT (R264). -/
def execTregInit (c : Cond) (n : BitVec 4) (a : SSrc) (s : State) : Out :=
  .next (issue (.tregInit c n a) s (tregBody n a true))

/-- TREG.X (R264); a region that is undefined raises PLASTIC_DESC (R267). -/
def execTregX (c : Cond) (n : BitVec 4) (s : State) : Out :=
  .next (issue (.tregX c n) s fun s =>
    if !runsAhead s && regionBusy s n.toNat then .hold
    else if regionOf s (myId s) n.toNat = none then .trap s (tPLASTIC 0)
    else .go (defineRegion s n.toNat none))

/-! Commands of the trace unit's queue (R265 to R270) -/

/-- Put a command into the list, when its queue of 16 has room (R268). -/
def pushTrace (s : State) (op : TOp) (k : State → Act) : Act :=
  if 16 ≤ cmdsPending (myCore s) then .hold
  else k (modMyCore { s with serial := s.serial + 1 } fun x =>
    { x with tl := x.tl ++ [.cmd s.serial (myN s) (me s).uid op] })

/-- Row and column of an origin operand (R266). -/
def origin (v : Word) : Nat × Nat := (bitsOf v.toNat 15 0, bitsOf v.toNat 40 32)

/-- A command on nr rows and nc columns from an origin of a defined region (R267). -/
def regionCommand (s : State) (n : BitVec 4) (a : SSrc) (nr nc : Nat) (k : Nat → Nat → Act) : Act :=
  match regionOf s (myId s) n.toNat with
  | none => .trap s (tPLASTIC 0)
  | some r =>
    let o := origin (sv s a)
    if r.rows < o.1 + nr ∨ (nc ≠ 0 ∧ r.cols < o.2 + nc) then .trap s tRANGE else k o.1 o.2

/-- TSTEP (R265) (in part DEDUCED, log 30). -/
def execTstep (c : Cond) (n : BitVec 4) (s : State) : Out :=
  .next (issue (.tstep c n) s fun s =>
    match regionOf s (myId s) n.toNat with
    | none => .trap s (tPLASTIC 0)
    | some _ => pushTrace s (.step n.toNat) .go)

/-- The first n lanes of a register. -/
def firstLanes (v : VWord) (n : Nat) : List Lane := (List.range n).map (lane v)

/-- TADV (R268). -/
def execTadv (c : Cond) (n : BitVec 4) (a : SSrc) (b cc : VSrc) (nr1 nc1 : BitVec 6) (s : State) : Out :=
  .next (issue (.tadv c n a b cc nr1 nc1) s fun s =>
    regionCommand s n a (nr1.toNat + 1) (nc1.toNat + 1) fun row col =>
      pushTrace s (.adv n.toNat row col (firstLanes (vv s b) (nc1.toNat + 1)) (firstLanes (vv s cc) (nr1.toNat + 1))) .go)

/-- TADVR (R268). -/
def execTadvr (c : Cond) (n : BitVec 4) (a : SSrc) (b : VSrc) (cc : SSrc) (nc1 : BitVec 6) (s : State) : Out :=
  .next (issue (.tadvr c n a b cc nc1) s fun s =>
    regionCommand s n a 1 (nc1.toNat + 1) fun row col =>
      pushTrace s (.adv n.toNat row col (firstLanes (vv s b) (nc1.toNat + 1)) [(sv s cc).setWidth 32]) .go)

/-- TRD (R269): its context waits until vD is written. -/
def execTrd (c : Cond) (d : VReg) (n : BitVec 4) (a : SSrc) (nc1 : BitVec 6) (s : State) : Out :=
  .next (issue (.trd c d n a nc1) s fun s =>
    if (me s).await.isSome then request s (fun s _ => s) .go
    else regionCommand s n a 1 (nc1.toNat + 1) fun row col =>
      if 16 ≤ cmdsPending (myCore s) then .hold
      else request s (fun s id => modMyCore { s with serial := s.serial + 1 } fun x =>
        { x with tl := x.tl ++ [.cmd s.serial (myN s) (me s).uid (.read n.toNat row col (nc1.toNat + 1) d id)] }) .go)

/-- TCLR.E (R270). -/
def execTclrE (c : Cond) (n : BitVec 4) (a : SSrc) (nr1 : BitVec 16) (s : State) : Out :=
  .next (issue (.tclrE c n a nr1) s fun s =>
    regionCommand s n a (nr1.toNat + 1) 0 fun row _ => pushTrace s (.clrE n.toNat row (nr1.toNat + 1)) .go)

/-- TCLR.D (R270). -/
def execTclrD (c : Cond) (n : BitVec 4) (a : SSrc) (nr1 : BitVec 16) (s : State) : Out :=
  .next (issue (.tclrD c n a nr1) s fun s =>
    regionCommand s n a (nr1.toNat + 1) 0 fun row _ => pushTrace s (.clrD n.toNat row (nr1.toNat + 1)) .go)

/-! Rewards (R278, R279) -/

/-- Put a beat of the running context into its layer's queues (R281). -/
def pushBeat (s : State) (item : BeatItem) : State :=
  let c := myId s
  let q : QItem := { id := s.serial, part := partOf s c, core := c, ctx := myN s, uid := (me s).uid,
                     after := (me s).beatsAfter, item }
  modLayer { s with serial := s.serial + 1 } (layerIn s c) fun y => { y with queue := y.queue ++ [q] }

def isReward : BeatItem → Bool
  | .reward .. => true
  | _ => false

/-- Items of a class that a layer's queue holds for a partition. -/
def queued (s : State) (l p : Nat) (f : BeatItem → Nat) : Nat :=
  ((getLayer s l).queue.map fun q => if q.part = p then f q.item else 0).sum

/-- The body of RWD: the REWARD queue holds 64 beats. -/
def rwdBody (a b : SSrc) (clear : Bool) (s : State) : Act :=
  if 64 ≤ queued s (layerIn s (myId s)) (partOf s (myId s)) fun i => b2n (isReward i) then .hold
  else .go (pushBeat s (.reward ((sv s a).setWidth 16) clear ((sv s b).setWidth 32)))

/-- RWD (R278). -/
def execRwd (c : Cond) (a b : SSrc) (s : State) : Out := .next (issue (.rwd c a b) s (rwdBody a b false))

/-- RWD.C (R278). -/
def execRwdC (c : Cond) (a b : SSrc) (s : State) : Out := .next (issue (.rwdC c a b) s (rwdBody a b true))

/-- RWDW (R279). -/
def execRwdw (c : Cond) (a : SSrc) (s : State) : Out :=
  .next (issue (.rwdw c a) s fun s =>
    let v : BitVec 32 := (sv s a).setWidth 32
    let ahead := (v - acOf s (myId s)).toNat
    if sv s a = 0 ∨ isGw (myId s) = true ∨ ahead = 0 ∨ 2 ^ 31 ≤ ahead then .go s else .hold)

/-! TRHZ (R280) -/

/-- The latest RWD of the running context that has not been transmitted. -/
def openReward (s : State) : Option Nat :=
  let x := me s
  (((getLayer s (layerIn s (myId s))).queue.filter fun q =>
    isReward q.item && q.core == myId s && q.ctx == myN s && q.uid == x.uid).map (·.id)).getLast?

def sweepMany (s : State) (c : Nat) : Nat → State
  | 0 => s
  | n + 1 => sweepMany (sweepNext s c (freeItem s c)) c n

/-- Everything that the order of R271 puts before now has taken effect: the commands, and for TFLAGS the rewards too. -/
def settleUnit (s : State) (c sel : Nat) : State :=
  if sel = 5 then settleCmds s c (freeItem s c)
  else if sel = 4 then
    let s := settleCmds s c (freeItem s c)
    let k := getCore s c
    let rows := (k.regions.map fun e => e.2.elim 0 (·.rows)).sum
    sweepMany s c (rewardsPending k * (rows + 1))
  else s

/-- The value of a selector in a core, 2 aside (in part DEDUCED, log 30). -/
def trhzValue (s : State) (c sel k : Nat) : Option Word :=
  let x := getCore s c
  match sel with
  | 0 => some ((hOf s c k).setWidth 64)
  | 1 => some ((aOf s c k).setWidth 64)
  | 3 => some (word (x.stale.toNat + x.overrun.toNat * 65536))
  | 4 => some (x.tflags.setWidth 64)
  | 5 => (regionOf s c k).map fun r => r.n.setWidth 64
  | _ => none

/-- Whether operations of the trace unit that a task issued, numbered before upto, still stand before its TRHZ. -/
def trhzShut (s : State) (c n uid sel k upto : Nat) : Bool :=
  (getCore (settleUnit s c sel) c).tl.any fun t => match t with
    | .cmd _ _ _ (.stamp ..) => false
    | .cmd id m v op => decide (id < upto) && m == n && v == uid && (sel == 4 || sel == 5 && (opRegions op).contains k)
    | .reward .. => false

/-- What TRHZ does when it reads: the value, and the state with what TRHZ.C clears; a region that is undefined by then
counts 0 steps (DESIGN CHOICE, log 30). -/
def trhzRead (s : State) (c sel k : Nat) (clr : Bool) : State × Word :=
  let s := settleUnit s c sel
  let v := (trhzValue s c sel k).getD 0
  (if !clr then s
    else if sel = 3 then modCore s c fun x => { x with stale := 0, overrun := 0 }
    else modCore s c fun x => { x with tflags := 0 }, v)

/-- TRHZ (R280); while a FENCEE or an acquire holds it, it reads later (08 R222). -/
def execTrhz (c : Cond) (clr : Bool) (d : SReg) (sel : BitVec 3) (k : BitVec 4) (s : State) : Out :=
  .next (issue (.trhz c clr d sel k) s fun s =>
    if 6 ≤ sel.toNat ∨ (clr = true ∧ sel ≠ 3 ∧ sel ≠ 4) then .trap s tILLEGAL
    else if sel = 2 then
      match openReward s with
      | some id => .go (produce s (.s d) (.rwdSeq id))
      | none => .go (produceVal s (.s d) (.s ((me s).lastRwd.setWidth 64)) 0)
    else if trhzValue s (myId s) sel.toNat k.toNat = none then .trap s (tPLASTIC 0)
    else if heldNow s || trhzShut s (myId s) (myN s) (me s).uid sel.toNat k.toNat s.serial then
      .go (produce s (.s d) (.trhz sel.toNat k.toNat clr))
    else
      let r := trhzRead s (myId s) sel.toNat k.toNat clr
      .go (produceVal r.1 (.s d) (.s r.2) 0))

/-! The trace unit's steps: operand i the core -/

/-- A trace unit stands still with the clock of its stratum (01 R26). -/
def traceStep (s : State) (f : State → Nat → State) : Out :=
  if validCore s.arg.i then .next (if clockStopped s s.arg.i then s else f s s.arg.i) else .fault (.noSuchCore s.arg.i)

/-- TRACE_COMMAND_APPLY (R271): the first command of the list that nothing holds. -/
def execTraceCommandApply (s : State) : Out :=
  traceStep s fun s c => match firstCmd (freeItem s c) [] (getCore s c).tl with
    | some t => applyItem s c t
    | none => s

/-- REWARD_SWEEP (R273): the next row of a pending reward. -/
def execRewardSweep (s : State) : Out :=
  traceStep s fun s c => sweepNext s c (freeItem s c)

end Sys2Proof.Machine
end

