-- ==== Sys2Proof/Machine/Stack.lean ====
section
/-! DEFINITION. Stack stores and stack time, majors 0xC3 to 0xC6 (10 R285 to R290), and the window instructions 0xCC and
0xCD (04 R106). -/

namespace Sys2Proof.Machine

/-- Records of a layer's STORE queue that an item takes: an STSB's source is cut at mirror words (10 R287). -/
def recordsOf : BeatItem → Nat
  | .store recs => recs.length
  | .block _ _ dst len => (dst % 8 + len + 7) / 8
  | _ => 0

/-- Whether the STORE queue of 1,024 records of the running context's layer has no room for n more (in part DEDUCED, log 35). -/
def storeFull (s : State) (n : Nat) : Bool := decide (1024 < queued s (layerIn s (myId s)) (partOf s (myId s)) recordsOf + n)

/-- The record of a store of n bytes at a mirror offset (10 Table 10.8). -/
def storeRec (off n v : Nat) : SRec where
  off := off / 8 * 8
  mask := BitVec.ofNat 8 ((2 ^ n - 1) * 2 ^ (off % 8))
  data := word (v % 2 ^ (8 * n) * 2 ^ (8 * (off % 8)))

/-- STS (10 R286) (in part DEDUCED, log 35). -/
def execSts (c : Cond) (sz : Size) (a : SSrc) (disp : Imm) (b : SSrc) (s : State) : Out :=
  .next (issueWith (.sts c sz a disp b) s [] [(addrOf s a disp, sizeN sz)] fun s =>
    let addr := addrOf s a disp
    let n := sizeN sz
    match apOf addr, apOf (addr + n - 1) with
    | .mirror off, .mirror _ =>
      if addr % n ≠ 0 then .trap s (tMISALIGNED addr)
      else if storeFull s 1 then .hold
      else .go (pushBeat s (.store [storeRec off n (sv s b).toNat]))
    | _, _ => .trap s (tAPERTURE addr))

/-- STSB (10 R287): its source is read when its beat is packed (in part DEDUCED, log 35). -/
def execStsb (c : Cond) (a b : SSrc) (len1 : BitVec 7) (s : State) : Out :=
  .next (issueWith (.stsb c a b len1) s [] [((sv s a).toNat, len1.toNat + 1)] fun s =>
    let dst := (sv s a).toNat
    let src := (sv s b).toNat
    let n := len1.toNat + 1
    match apOf dst, apOf (dst + n - 1), apOf src with
    | .mirror d, .mirror _, .loc 0 o =>
      if coreSp s (myId s) < o + n then .trap s (tAPERTURE src)
      else if 128 < dst % 8 + n then .trap s (tMISALIGNED dst)
      else if storeFull s (recordsOf (.block (myId s) o d n)) then .hold
      else .go (pushBeat s (.block (myId s) o d n))
    | .mirror _, .mirror _, _ => .trap s (tAPERTURE src)
    | _, _, _ => .trap s (tAPERTURE dst))

/-- SWAIT (10 R290). -/
def execSwait (c : Cond) (a : SSrc) (s : State) : Out :=
  .next (issue (.swait c a) s fun s => if (sv s a).toNat + 12 ≤ s.stc.toNat then .go s else .hold)

/-- Beats of a context that its layer has not applied: in the queue, or on their way. A layer that has stopped (R284) applies
none any more, and a beat is over there once its time of arrival has passed (DESIGN CHOICE, log 35). -/
def beatsOpen (s : State) (c n uid : Nat) : Bool :=
  ((getLayer s (layerIn s c)).queue.any fun q => q.core == c && q.ctx == n && q.uid == uid) ||
  (s.air.any fun a => a.layer == layerIn s c && a.owners.any fun o => o.1 == c && o.2.1 == n && o.2.2.1 == uid)

/-- SWAIT.OWN (10 R290). -/
def execSwaitOwn (c : Cond) (s : State) : Out :=
  .next (issue (.swaitOwn c) s fun s => if beatsOpen s (myId s) (myN s) (me s).uid then .hold else .go s)

/-- RDTIME (10 R289): the core cycle begins at the present beat. -/
def execRdtime (c : Cond) (d : SReg) (s : State) : Out :=
  .next (issue (.rdtime c d) s fun s => .go (setS s d s.stc))

/-! Window descriptors (04 R106) -/

/-- The checks of WDSET on a descriptor word. -/
def wdOk (w : Nat) (d : Word) : Bool :=
  let v := d.toNat
  if w < 5 then false
  else if !wdEn d then true
  else if w = 7 then bitsOf v 62 4 == 0
  else bitsOf v 62 54 == 0 && bitsOf v 53 52 != 3 && wdRlen d != 0 && wdRlen d % wdGroup d == 0 && bitsOf v 20 19 == 0

def setWd (r : Regs) (w : Nat) (d : Word) : Regs :=
  if w = 5 then { r with wd5 := d } else if w = 6 then { r with wd6 := d } else if w = 7 then { r with wd7 := d } else r

def wdValue (r : Regs) (w : Nat) : Word := if w = 5 then r.wd5 else if w = 6 then r.wd6 else if w = 7 then r.wd7 else 0

/-- WDSET (04 R106). -/
def execWdset (c : Cond) (w : BitVec 3) (a : SSrc) (s : State) : Out :=
  .next (issue (.wdset c w a) s fun s =>
    let d := sv s a
    if wdOk w.toNat d then .go (modRegs s fun r => setWd r w.toNat (if wdEn d then d else 0))
    else .trap s (mkTrap 0x0A 0))

/-- WDGET (04 R106). -/
def execWdget (c : Cond) (d : SReg) (w : BitVec 3) (s : State) : Out :=
  .next (issue (.wdget c d w) s fun s => .go (setS s d (wdValue (myRegs s) w.toNat)))

end Sys2Proof.Machine
end

