-- ==== Sys2Proof/Machine/Collective.lean ====
section
/-! DEFINITION. Collectives on the gateway cores, majors 0xC8 to 0xCB (10 R294 to R301), and the landing of a block
(10 R299, 20 R413). -/

namespace Sys2Proof.Machine

/-- A queue is configured when NB is not 0 (20 Table 20.5) (in part DEDUCED, log 22). -/
def bqConfigured (q : BlockQueue) : Bool := q.nb != 0

/-! Slots (R295) -/

/-- A slot lies in the global aperture, or in local window 0 below the scratchpad size (in part DEDUCED, log 22). -/
def slotAt (s : State) (a : Nat) : Option Trap :=
  match apOf a, apOf (a + 263) with
  | .glob, .glob => none
  | .loc 0 o, .loc 0 _ => if o + 264 ≤ coreSp s (myId s) then none else some (tAPERTURE a)
  | _, _ => some (tAPERTURE a)

/-- The range of a slot, for run-ahead. -/
def slotSpan (s : State) (a : Nat) : List (Nat × Nat) :=
  match apOf a with
  | .loc _ o => [poolSpan (myId s) o 264]
  | _ => [(a, 264)]

def slotAligned (a : Nat) : Option Trap := if a % 8 = 0 then none else some (tMISALIGNED a)

/-- The checks of the slots of an instruction, and the translation of their pages (18 R393): reads first. -/
def slotCheck (s : State) (q : Issuer) (reads writes : List Nat) : State × Option Fail :=
  let all := writes ++ reads
  match (all.findSome? (slotAt s)).orElse fun _ => all.findSome? slotAligned with
  | some t => (s, some (.trap t))
  | none =>
    let cut (l : List Nat) : List (Nat × Nat) := l.flatMap fun a => if apOf a = .glob then pieces a 264 else []
    let (s, rs) := transPieces q.core q.priv q.ahead .read (cut reads) s
    let (s, ws) := transPieces q.core q.priv q.ahead .write (cut writes) s
    match pageFault false rs, pageFault true ws with
    | some t, none => (s, some (.trap t))
    | none, some t => (s, some (.trap t))
    | some t, some u =>
      let low := if u.faddr.toNat < t.faddr.toNat then u else t
      (s, some (.trap { low with pages := onePerPage (low.pages ++ t.pages ++ u.pages) }))
    | none, none => (s, if isUnplaced rs || isUnplaced ws then some .unplaced else none)

/-- The 264 bytes of a slot; none: uncorrectable. -/
def readSlot (s : State) (c priv : Nat) (a : Nat) : State × Option (List Byte) :=
  match engineRead s c priv a 264 with
  | (s, .ok ps) => (s, some (ps.map (readPlace s)))
  | (s, .error _) => (s, none)

def writeSlot (s : State) (c priv : Nat) (a : Nat) (bs : List Byte) : State :=
  match enginePlaces s c priv .write a 264 with
  | (s, .ok ps) => homeWrite s c (myN s) (me s).gen (ps.zip bs)
  | (s, .error _) => s

def slotFlag (bs : List Byte) : Nat := fromLe ((bs.drop 256).take 4)

/-- The elements of a slot's data in a format. -/
def slotElems (f : Fmt) (bs : List Byte) : List Nat :=
  let w := f.width / 8
  (List.range (256 / w)).map fun k => fromLe ((bs.drop (w * k)).take w)

def anyNonfinite (f : Fmt) (es : List Nat) : Bool := es.any fun e => (f.decode e).nonfinite

/-! BQPOP, BQDONE (R297, R300) -/

/-- BQPOP (R297): the context is held until the queue's ready list is non-empty or the queue is closed. -/
def execBqpop (c : Cond) (d : SReg) (n : BitVec 4) (s : State) : Out :=
  .next (issue (.bqpop c d n) s fun s =>
    let q := getBq s n.toNat
    if !bqConfigured q then .trap s tILLEGAL
    else match q.ready with
      | i :: r => .go (setS (modBq s n.toNat fun q => { q with ready := r }) d (i.setWidth 64))
      | [] => if q.isOpen then .hold else .go (setS s d (BitVec.allOnes 64)))

/-- A queue closes. -/
def closeQueue (s : State) (n : Nat) : State := modBq s n fun q => { q with isOpen := false }

/-- BQDONE (R300); while a FENCEE holds it, it closes the queue later (08 R222). -/
def execBqdone (c : Cond) (n : BitVec 4) (s : State) : Out :=
  .next (issue (.bqdone c n) s fun s =>
    if !bqConfigured (getBq s n.toNat) then .trap s tILLEGAL
    else .go (if heldNow s then produce s (.s 0) (.bqdone n.toNat) else closeQueue s n.toNat))

/-! BRED (R298) -/

/-- One element of a reduction, rounded to nearest even; E4M3 saturates. -/
def redElem (op : BredOp) (f : Fmt) (x y : Nat) : Bits :=
  match op with
  | .add =>
    let r := fAdd (f.decode x) (f.decode y)
    f.encode .rne false r.1 r.2
  | .max => minMax f true x y
  | .min => minMax f false x y

/-- The slot that combines two slots, with its flags. -/
def combineSlots (op : BredOp) (f : Fmt) (a b : List Byte) : List Byte × FFlags :=
  let xs := slotElems f a
  let ys := slotElems f b
  let rs := List.zipWith (redElem op f) xs ys
  let zs := rs.map (·.1)
  let nf := anyNonfinite f xs || anyNonfinite f ys || anyNonfinite f zs
  let fl := Nat.lor (Nat.lor (slotFlag a) (slotFlag b)) (b2n nf)
  (zs.flatMap (toLe (f.width / 8)) ++ toLe 4 fl ++ toLe 4 0, rs.foldl (fun g r => g ||| r.2) 0)

/-- A block whose slot is found uncorrectable is reported (18 R393). -/
def slotLost (s : State) (a extra : Nat) : State := ctxRecord s (myId s) (myN s) 7 4 0 0 a extra

/-- The writes of a BRED travel to a peer: it completes when they are performed there (05 R123, R329). -/
def bredWritten (lo : Nat) (s : State) : Act :=
  if packetsIn s (myId s) (myN s) (me s).uid lo s.serial none then
    .stay (modMe s fun x => { x with await := some { id := lo, done := false } })
  else .go s

/-- A BRED whose writes are on their way. -/
def bredWaits (lo : Nat) (s : State) : Act :=
  if packetsIn s (myId s) (myN s) (me s).uid lo s.serial none then .hold else .go (modMe s fun x => { x with await := none })

/-- BRED (R298); a type that is no floating-point one raises ILLEGAL (R296). -/
def execBred (c : Cond) (op : BredOp) (t : ElemT) (d : SReg) (a b : SSrc) (s : State) : Out :=
  .next (issueWith (.bred c op t d a b) s [] (slotSpan s (rdS (myRegs s) d).toNat) fun s =>
    let q := issuer s
    let da := (rdS (myRegs s) d).toNat
    let xa := (sv s a).toNat
    let ya := (sv s b).toNat
    match (me s).await with
    | some w => bredWaits w.id s
    | none =>
    match etFmt t with
    | none => .trap s tILLEGAL
    | some f =>
    match slotCheck s q [xa, ya] [da] with
    | (s, some (.trap t)) => .trap s t
    | (s, some .unplaced) => .unplaced s
    | (s, none) =>
      match readSlot s q.core q.priv xa with
      | (s, none) => .go (slotLost s xa 0)
      | (s, some x) =>
        match readSlot s q.core q.priv ya with
        | (s, none) => .go (slotLost s ya 0)
        | (s, some y) =>
          let r := combineSlots op f x y
          bredWritten s.serial (raise (writeSlot s q.core q.priv da r.1) r.2))

/-! BSEND and the landing of a block (R299, 20 R413) -/

/-- Land a block in a queue's slot, or say why not: BQ_CLOSED 14, BQ_RANGE 15, PAGE_FAULT 1. -/
def landBlock (s : State) (n index : Nat) (data : List Byte) (flag : Nat) : State × Option Nat :=
  let q := getBq s n
  if !q.isOpen || !bqConfigured q then (s, some 14)
  else if q.nb.toNat ≤ index then (s, some 15)
  else match partRange s q.part.toNat 1 .write (q.lb.toNat + 264 * index) 264 with
    | (s, .error _) => (s, some 1)
    | (s, .ok pas) =>
      let bs := (List.range 256).map (fun i => data.getD i 0) ++ toLe 4 flag ++ toLe 4 0
      let s := partWrite s q.part.toNat pas bs
      (modBq s n fun q => { q with ready := q.ready ++ [BitVec.ofNat 32 index] }, none)

/-- The record of a discarded block in the receiving module. -/
def blockRecord (s : State) (n status index : Nat) : State :=
  sysRecord s (getBq s n).part.toNat 7 status 0 0 index

/-- The packet of a block (20 Table 20.3). -/
def blockPacket (s : State) (dst : Nat) (n index flag : Nat) (data : List Byte) : Packet :=
  { kind := 5, src := s.modid, dst := BitVec.ofNat 7 dst, seq := 0, queue := BitVec.ofNat 4 n,
    index := BitVec.ofNat 32 index, flag := BitVec.ofNat 32 flag, addr := 0, mask := 0, data }

/-- Send a block: to the own module it loops back; a module id that no packet can name fails like a lost link (DESIGN CHOICE, log 12). -/
def sendBlock (s : State) (dst n index flag : Nat) (data : List Byte) : State :=
  let c := myId s
  let x := me s
  if dst = s.modid.toNat then
    match landBlock s n index data flag with
    | (s, none) => s
    | (s, some st) => ctxRecord (blockRecord s n st index) c (myN s) 7 st 0 0 0 index
  else if 128 ≤ dst then ctxRecord s c (myN s) 7 19 0 0 0 index
  else sendPacket s c (myN s) (partOf s c) x.gen none (blockPacket s dst n index flag data)

/-- Read a slot and send it as a block: a slot that cannot be read is reported (18 R393). -/
def sendSlot (s : State) (f : Fmt) (priv xa v index : Nat) : State :=
  match readSlot s (myId s) priv xa with
  | (s, none) => slotLost s xa index
  | (s, some x) =>
    let flag := Nat.lor (slotFlag x) (b2n (anyNonfinite f (slotElems f x)))
    sendBlock s (bitsOf v 15 0) (bitsOf v 19 16) index flag (x.take 256)

/-- BSEND (R299): the slot is read at issue, or once no FENCEE holds the command (08 R222) (DESIGN CHOICE, log 4); a queue of
the own module that is not configured raises ILLEGAL (R294). -/
def execBsend (c : Cond) (t : ElemT) (a b cc : SSrc) (s : State) : Out :=
  .next (issue (.bsend c t a b cc) s fun s =>
    let q := issuer s
    let xa := (sv s a).toNat
    let v := (sv s b).toNat
    let index := bitsOf (sv s cc).toNat 31 0
    match etFmt t with
    | none => .trap s tILLEGAL
    | some f =>
    if bitsOf v 15 0 = s.modid.toNat ∧ bqConfigured (getBq s (bitsOf v 19 16)) = false then .trap s tILLEGAL else
    match slotCheck s q [xa] [] with
    | (s, some (.trap t)) => .trap s t
    | (s, some .unplaced) => .unplaced s
    | (s, none) =>
      if heldNow s then .go (produce s (.s 0) (.bsend t (word xa) (word v) index (BitVec.ofNat 2 q.priv)))
      else if pairFull (getPeer s (bitsOf v 6 0)) then .hold
      else .go (sendSlot s f q.priv xa v index))

end Sys2Proof.Machine
end

