-- ==== Sys2Proof/Machine/Integer.lean ====
section
/-! DEFINITION. Integer instructions, majors 0x10 to 0x2E (07 R170 to R177). -/

namespace Sys2Proof.Machine

/-- A result of the .I32 forms (R172): bits 31:0, sign-extended. -/
def sext32 (v : Int) : Word := (BitVec.ofInt 32 v).signExtend 64

def sI (w : Word) : Int := w.toInt
def uI (w : Word) : Int := w.toNat
def s32 (w : Word) : Int := (w.setWidth 32).toInt
def u32 (w : Word) : Int := (w.setWidth 32).toNat

/-- Signed and unsigned quotient and remainder with the cases of R171; lo is the most negative number. -/
def quotS (a b lo : Int) : Int := if b = 0 then -1 else if a = lo ∧ b = -1 then lo else a.tdiv b
def remS (a b lo : Int) : Int := if b = 0 then a else if a = lo ∧ b = -1 then 0 else a.tmod b
def quotU (a b : Int) : Int := if b = 0 then -1 else a.tdiv b
def remU (a b : Int) : Int := if b = 0 then a else a.tmod b

/-- An ALU instruction: f on the 64-bit operands, or g for the .I32 form. -/
def alu (s : State) (i32 : Bool) (d : SReg) (a : SSrc) (b : OpB) (f g : Word → Word → Word) : Act :=
  .go (setS s d (if i32 then g (sv s a) (opB s b) else f (sv s a) (opB s b)))

/-- ADD (R170, R172). -/
def execAdd (c : Cond) (i32 : Bool) (d : SReg) (a : SSrc) (b : OpB) (s : State) : Out :=
  .next (issue (.add c i32 d a b) s fun s => alu s i32 d a b (· + ·) fun x y => sext32 (s32 x + s32 y))

/-- SUB (R170, R172). -/
def execSub (c : Cond) (i32 : Bool) (d : SReg) (a : SSrc) (b : OpB) (s : State) : Out :=
  .next (issue (.sub c i32 d a b) s fun s => alu s i32 d a b (· - ·) fun x y => sext32 (s32 x - s32 y))

/-- MUL (R170, R172). -/
def execMul (c : Cond) (i32 : Bool) (d : SReg) (a : SSrc) (b : OpB) (s : State) : Out :=
  .next (issue (.mul c i32 d a b) s fun s => alu s i32 d a b (· * ·) fun x y => sext32 (s32 x * s32 y))

/-- MULH (R170). -/
def execMulh (c : Cond) (d : SReg) (a : SSrc) (b : OpB) (s : State) : Out :=
  .next (issue (.mulh c d a b) s fun s => .go (setS s d (wordI (sI (sv s a) * sI (opB s b) / 2 ^ 64))))

/-- MULHU (R170). -/
def execMulhu (c : Cond) (d : SReg) (a : SSrc) (b : OpB) (s : State) : Out :=
  .next (issue (.mulhu c d a b) s fun s => .go (setS s d (wordI (uI (sv s a) * uI (opB s b) / 2 ^ 64))))

/-- DIV (R170 to R172). -/
def execDiv (c : Cond) (i32 : Bool) (d : SReg) (a : SSrc) (b : OpB) (s : State) : Out :=
  .next (issue (.div c i32 d a b) s fun s => alu s i32 d a b (fun x y => wordI (quotS (sI x) (sI y) (-2 ^ 63)))
    fun x y => sext32 (quotS (s32 x) (s32 y) (-2 ^ 31)))

/-- DIVU (R170 to R172). -/
def execDivu (c : Cond) (i32 : Bool) (d : SReg) (a : SSrc) (b : OpB) (s : State) : Out :=
  .next (issue (.divu c i32 d a b) s fun s => alu s i32 d a b (fun x y => wordI (quotU (uI x) (uI y)))
    fun x y => sext32 (quotU (u32 x) (u32 y)))

/-- REM (R170 to R172). -/
def execRem (c : Cond) (i32 : Bool) (d : SReg) (a : SSrc) (b : OpB) (s : State) : Out :=
  .next (issue (.rem c i32 d a b) s fun s => alu s i32 d a b (fun x y => wordI (remS (sI x) (sI y) (-2 ^ 63)))
    fun x y => sext32 (remS (s32 x) (s32 y) (-2 ^ 31)))

/-- REMU (R170 to R172). -/
def execRemu (c : Cond) (i32 : Bool) (d : SReg) (a : SSrc) (b : OpB) (s : State) : Out :=
  .next (issue (.remu c i32 d a b) s fun s => alu s i32 d a b (fun x y => wordI (remU (uI x) (uI y)))
    fun x y => sext32 (remU (u32 x) (u32 y)))

/-- AND (R170). -/
def execAnd (c : Cond) (d : SReg) (a : SSrc) (b : OpB) (s : State) : Out :=
  .next (issue (.and c d a b) s fun s => .go (setS s d (sv s a &&& opB s b)))

/-- OR (R170). -/
def execOr (c : Cond) (d : SReg) (a : SSrc) (b : OpB) (s : State) : Out :=
  .next (issue (.or c d a b) s fun s => .go (setS s d (sv s a ||| opB s b)))

/-- XOR (R170). -/
def execXor (c : Cond) (d : SReg) (a : SSrc) (b : OpB) (s : State) : Out :=
  .next (issue (.xor c d a b) s fun s => .go (setS s d (sv s a ^^^ opB s b)))

/-- ANDN (R170). -/
def execAndn (c : Cond) (d : SReg) (a : SSrc) (b : OpB) (s : State) : Out :=
  .next (issue (.andn c d a b) s fun s => .go (setS s d (sv s a &&& ~~~(opB s b))))

def sh64 (b : Word) : Nat := b.toNat % 64
def sh32 (b : Word) : Nat := b.toNat % 32

/-- SHL (R170 to R172). -/
def execShl (c : Cond) (i32 : Bool) (d : SReg) (a : SSrc) (b : OpB) (s : State) : Out :=
  .next (issue (.shl c i32 d a b) s fun s => alu s i32 d a b (fun x y => x <<< sh64 y)
    fun x y => sext32 (u32 x * 2 ^ sh32 y))

/-- SHR (R170 to R172). -/
def execShr (c : Cond) (i32 : Bool) (d : SReg) (a : SSrc) (b : OpB) (s : State) : Out :=
  .next (issue (.shr c i32 d a b) s fun s => alu s i32 d a b (fun x y => x >>> sh64 y)
    fun x y => sext32 (u32 x / 2 ^ sh32 y))

/-- SAR (R170 to R172). -/
def execSar (c : Cond) (i32 : Bool) (d : SReg) (a : SSrc) (b : OpB) (s : State) : Out :=
  .next (issue (.sar c i32 d a b) s fun s => alu s i32 d a b (fun x y => x.sshiftRight (sh64 y))
    fun x y => sext32 (s32 x / 2 ^ sh32 y))

/-- ROR (R170 to R172). -/
def execRor (c : Cond) (i32 : Bool) (d : SReg) (a : SSrc) (b : OpB) (s : State) : Out :=
  .next (issue (.ror c i32 d a b) s fun s => alu s i32 d a b (fun x y => x.rotateRight (sh64 y))
    fun x y => sext32 (((x.setWidth 32).rotateRight (sh32 y)).toNat : Int))

/-- MIN (R170). -/
def execMin (c : Cond) (d : SReg) (a : SSrc) (b : OpB) (s : State) : Out :=
  .next (issue (.min c d a b) s fun s => .go (setS s d (if BitVec.slt (opB s b) (sv s a) then opB s b else sv s a)))

/-- MAX (R170). -/
def execMax (c : Cond) (d : SReg) (a : SSrc) (b : OpB) (s : State) : Out :=
  .next (issue (.max c d a b) s fun s => .go (setS s d (if BitVec.slt (sv s a) (opB s b) then opB s b else sv s a)))

/-- MINU (R170). -/
def execMinu (c : Cond) (d : SReg) (a : SSrc) (b : OpB) (s : State) : Out :=
  .next (issue (.minu c d a b) s fun s => .go (setS s d (if BitVec.ult (opB s b) (sv s a) then opB s b else sv s a)))

/-- MAXU (R170). -/
def execMaxu (c : Cond) (d : SReg) (a : SSrc) (b : OpB) (s : State) : Out :=
  .next (issue (.maxu c d a b) s fun s => .go (setS s d (if BitVec.ult (sv s a) (opB s b) then opB s b else sv s a)))

/-- CLZ (R170, R173). -/
def execClz (c : Cond) (d : SReg) (a : SSrc) (s : State) : Out :=
  .next (issue (.clz c d a) s fun s => .go (setS s d (word (64 - bitLen (sv s a).toNat))))

/-- The lowest set bit from position i up, of n further positions. -/
def lowBit (w : Nat) : Nat → Nat → Nat
  | 0, i => i
  | n + 1, i => if bitOf w i then i else lowBit w n (i + 1)

/-- CTZ (R170, R173). -/
def execCtz (c : Cond) (d : SReg) (a : SSrc) (s : State) : Out :=
  .next (issue (.ctz c d a) s fun s => .go (setS s d (word (lowBit (sv s a).toNat 64 0))))

def popcount (w : BitVec 64) : Nat := ((List.range 64).filter fun i => w.getLsbD i).length

/-- POPC (R170, R173). -/
def execPopc (c : Cond) (d : SReg) (a : SSrc) (s : State) : Out :=
  .next (issue (.popc c d a) s fun s => .go (setS s d (word (popcount (sv s a)))))

/-- SEXT (R173). -/
def execSext (c : Cond) (d : SReg) (a : SSrc) (n1 : BitVec 6) (s : State) : Out :=
  .next (issue (.sext c d a n1) s fun s => .go (setS s d (sextW (sv s a).toNat (n1.toNat + 1))))

/-- ZEXT (R173). -/
def execZext (c : Cond) (d : SReg) (a : SSrc) (n1 : BitVec 6) (s : State) : Out :=
  .next (issue (.zext c d a n1) s fun s => .go (setS s d (word ((sv s a).toNat % 2 ^ (n1.toNat + 1)))))

/-- LEA (R174). -/
def execLea (c : Cond) (d : SReg) (a b : SSrc) (k : BitVec 2) (disp : Imm) (s : State) : Out :=
  .next (issue (.lea c d a b k disp) s fun s => .go (setS s d (sv s a + (sv s b <<< k.toNat) + immW disp)))

/-- Position and length of a field (R175). -/
def fieldOf (s : State) : FieldSel → Nat × Nat
  | .imm p l => (p.toNat, l.toNat + 1)
  | .reg b => (bitsOf (sv s b).toNat 5 0, bitsOf (sv s b).toNat 11 6 + 1)

/-- m of R175: bits above 63 do not exist. -/
def fieldLen (f : Nat × Nat) : Nat := if 64 - f.1 < f.2 then 64 - f.1 else f.2

/-- BFX (R175). -/
def execBfx (c : Cond) (signed : Bool) (d : SReg) (a : SSrc) (f : FieldSel) (s : State) : Out :=
  .next (issue (.bfx c signed d a f) s fun s =>
    let p := fieldOf s f
    let v := (sv s a).toNat / 2 ^ p.1 % 2 ^ fieldLen p
    .go (setS s d (if signed then sextW v (fieldLen p) else word v)))

/-- BFI (R175): the old value of sD is a source. -/
def execBfi (c : Cond) (d : SReg) (a : SSrc) (f : FieldSel) (s : State) : Out :=
  .next (issue (.bfi c d a f) s fun s =>
    let p := fieldOf s f
    let mask : Word := word ((2 ^ fieldLen p - 1) * 2 ^ p.1)
    let v : Word := word ((sv s a).toNat % 2 ^ fieldLen p * 2 ^ p.1)
    .go (setS s d ((rdS (myRegs s) d &&& ~~~mask) ||| v)))

/-! RDSPEC (R176) -/

/-- Fields of a gang descriptor (17 Table 17.4). -/
def dField (d : BitVec 512) (hi lo : Nat) : Nat := bitsOf d.toNat hi lo
def dW (d : BitVec 512) : Nat := dField d 68 64 + 1
def dH (d : BitVec 512) : Nat := dField d 73 69 + 1
def dS (d : BitVec 512) : Nat := dField d 77 74 + 1
def dTags (d : BitVec 512) : Nat := dField d 85 78
def dRot (d : BitVec 512) : Nat := dField d 63 62

/-- The gang that a context is bound to (02 R54); its generation tells it from a later gang of the same id. -/
def gangOf (s : State) (c : Nat) (x : Ctx) : Option Gang :=
  if x.gang = 0 then none else (getPart s (partOf s c)).gangs.find? fun g => g.id == x.gang && g.gen == x.gen

/-- Extent and origin of a gang of a descriptor placed at (x0, y0, z0). -/
def shapeAt (d : BitVec 512) (x0 y0 z0 : Nat) : GangShape :=
  { w := dW d, h := dH d, strata := dS d, origin := x0 + y0 * 32 + z0 * 1024 }

def effPrio (x : Ctx) : Nat := if x.prio.toNat + x.aged < 255 then x.prio.toNat + x.aged else 255

/-- The selected value; none for a selector that the table does not list. A handler keeps the values of the gang that it
was bound to at its start, though that gang completes. -/
def rdspec (s : State) (sel : Nat) : Option Nat :=
  let c := myId s
  let x := me s
  match sel with
  | 0 => some c
  | 1 => some (myN s)
  | 2 => some x.tx
  | 3 => some x.ty
  | 4 => some (x.shape.elim 1 (·.w))
  | 5 => some (x.shape.elim 1 (·.h))
  | 6 => some (x.shape.elim 1 (·.strata))
  | 7 => some x.gang
  | 8 => some (x.shape.elim (if isGw c then 0 else c) (·.origin))
  | 9 => some x.prio.toNat
  | 10 => some x.eprio
  | 11 => some x.kernel.toNat
  | 12 => some (partOf s c)
  | _ => none

/-- RDSPEC (R176) (in part DEDUCED, log 32). -/
def execRdspec (c : Cond) (d : SReg) (sel : BitVec 8) (s : State) : Out :=
  .next (issue (.rdspec c d sel) s fun s =>
    match rdspec s sel.toNat with
    | some v => .go (setS s d (word v))
    | none => .trap s tILLEGAL)

def feOf (r : Regs) : FeReg → Bool
  | .s n => sEmpty r n
  | .v n => vEmpty r n
  | .q n => qEmpty r n

/-- EMPTY (R177): reads an FE bit and never waits on it. -/
def execEmpty (c : Cond) (d : SReg) (r : FeReg) (s : State) : Out :=
  .next (issue (.empty c d r) s fun s => .go (setS s d (if feOf (myRegs s) r then 1 else 0)))

end Sys2Proof.Machine
end

