-- ==== Sys2Proof/Machine/Task.lean ====
section
/-! DEFINITION. Task instructions, majors 0x38 to 0x3F (07 R178 to R187), and the arrival counts of gangs (02 R45, R46,
17 R374). -/

namespace Sys2Proof.Machine

/-! Gangs and their members -/

def modGang (s : State) (p id : Nat) (f : Gang → Gang) : State :=
  modPart s p fun x => { x with gangs := x.gangs.map fun g => if g.id = id then f g else g }
def findGang (s : State) (p id : Nat) : Option Gang := (getPart s p).gangs.find? fun g => g.id == id

def modMember (g : Gang) (c : Nat) (f : Member → Member) : Gang :=
  { g with members := g.members.map fun m => if m.core = c then f m else m }
def memberOf (g : Gang) (c : Nat) : Option Member := g.members.find? fun m => m.core == c

def arrOf (m : Member) (tag : Nat) : Nat := mget m.arr tag 0

/-- COMP of a tag on a stratum: a layer that has stopped applying beats falls behind (10 R284). -/
def compOf (g : Gang) (tag z : Nat) : Nat := mget g.comp (tag + 8 * z) 0
def tagBound (g : Gang) (tag : Nat) : Bool := bitOf (dTags g.desc) tag

/-- The strata that a gang covers. -/
def gangStrata (g : Gang) : List Nat := (List.range (dS g.desc)).map (g.z0 + ·)

/-- The phases of a tag that have completed. -/
def phasesOf (g : Gang) (tag : Nat) : Nat := (gangStrata g).foldl (fun n z => max n (compOf g tag z)) 0

/-- Whether every member on a stratum has arrived at the gang's running phase k, with ARR > k (R183), also where the stratum's
own layer has stopped before k; DONE counts (R46). -/
def arrivedOn (g : Gang) (tag z : Nat) : Bool :=
  g.members.all fun m => stratumOf m.core != z || m.done || decide (phasesOf g tag < arrOf m tag)

/-- Signal the strata on which every member has arrived; when the last one signals, the phase is on its way: 32 core
cycles later on one stratum, by the stack barrier combiner else (02 R45, 17 R374). -/
def signalPhase (s : State) (p id tag : Nat) : State :=
  match findGang s p id with
  | none => s
  | some g =>
    let new := (gangStrata g).filter fun z => arrivedOn g tag z && !g.signals.contains (tag, z)
    if new.isEmpty then s
    else
      let g' := { g with signals := g.signals ++ new.map fun z => (tag, z) }
      let s := modGang s p id fun _ => g'
      if (g'.signals.filter fun e => e.1 == tag).length < dS g.desc then s
      else
        let arg := { StepArg.none with i := p, j := id, k := tag, x := word (phasesOf g tag + 1), y := g.gen.setWidth 64 }
        if dS g.desc = 1 then laterCycles s (1024 * g.z0) 32 .barrierPhaseComplete arg
        else { s with agenda := s.agenda ++ [⟨.barrierCombine, arg⟩] }

/-- The phases of every bound tag after a member has executed DONE. -/
def signalAll (s : State) (p id : Nat) : State :=
  match findGang s p id with
  | none => s
  | some g => ((List.range 8).filter (tagBound g)).foldl (fun s t => signalPhase s p id t) s

/-! Sending events -/

/-- The record that SEND and SENDP form (R179, R180). -/
def sendRecord (s : State) (d a b : SSrc) (chan : BitVec 6) (off : BitVec 32) (words : Nat) : Event :=
  { chan, dest := (sv s d).setWidth 16, src := BitVec.ofNat 16 (myId s), stc := 0, arg0 := sv s a, arg1 := sv s b,
    pl := words != 0, und := false, llen := BitVec.ofNat 14 words, loff := 0, dloff := off }

/-- Send a record and wait until it is accepted or found undeliverable (R181); a release (in part DEDUCED, log 27). -/
def sendBody (s : State) (ev : Event) (payload : List Word) : Act :=
  if !runsAhead s && (me s).await.isNone && unreleased s then .hold
  else request s (fun s _ => launchEvent s ev (partOf s (myId s)) payload (some (myId s, myN s))) .go

/-- SEND (R179). -/
def execSend (c : Cond) (dest arg0 arg1 : SSrc) (chan : BitVec 6) (off : Option (BitVec 32)) (s : State) : Out :=
  .next (issue (.send c dest arg0 arg1 chan off) s fun s =>
    sendBody s (sendRecord s dest arg0 arg1 chan (if chan = 63 then off.getD 0 else 0) 0) [])

def readWord (s : State) (c off : Nat) : Word := word (readPlaces s (poolPlaces c off 8))

/-- SENDP (R180) (in part DEDUCED, log 27). On channel 63 DLOFF is 0, and with LLEN = 0 the record goes as a SEND there (the
spec does not say; DESIGN CHOICE, log 40). -/
def execSendp (c : Cond) (desc : SReg) (dest arg0 arg1 : SSrc) (chan : BitVec 6) (s : State) : Out :=
  .next (issue (.sendp c desc dest arg0 arg1 chan) s fun s =>
    let p := (rdS (myRegs s) desc).toNat
    let off := bitsOf p 18 0
    let n := bitsOf p 45 32
    if off % 8 ≠ 0 then .trap s (tMISALIGNED off)
    else if 8192 < n ∨ coreSp s (myId s) < off + 8 * n then .trap s (tAPERTURE off)
    else sendBody s (sendRecord s dest arg0 arg1 chan 0 n) ((List.range n).map fun i => readWord s (myId s) (off + 8 * i)))

def getChan (k : Core) (n : Nat) : Chan := mget k.chans n Chan.reset
def modChan (s : State) (c n : Nat) (f : Chan → Chan) : State :=
  modCore s c fun k => { k with chans := mset k.chans n (f (getChan k n)) }

/-- Channel and mask of CHMASK. -/
def chmaskArg (s : State) : ChmaskArg → Nat × Bool
  | .imm chan m => (chan.toNat, m)
  | .reg a b => (bitsOf (sv s a).toNat 5 0, (sv s b).getLsbD 0)

/-- CHMASK (R182). -/
def execChmask (c : Cond) (d : SReg) (arg : ChmaskArg) (s : State) : Out :=
  .next (issue (.chmask c d arg) s fun s =>
    let a := chmaskArg s arg
    let old := (getChan (myCore s) a.1).mask
    .go (setS (modChan s (myId s) a.1 fun h => { h with mask := a.2 }) d (if old then 1 else 0)))

/-! Barriers (R183, R184) -/

/-- The gang and the member of a context of core c that may use a tag; none: ILLEGAL (02 R44). -/
def barrierAt (s : State) (c n tag : Nat) : Option (Gang × Member) :=
  let x := getCtx s c n
  if x.member then
    match gangOf s c x with
    | none => none
    | some g => if tagBound g tag then (memberOf g c).map fun m => (g, m) else none
  else none

def barrierOf (s : State) (tag : Nat) : Option (Gang × Member) := barrierAt s (myId s) (myN s) tag

/-- Whether the arrival of a context at a barrier waits for its turn as a producer. -/
def arriving (r : Regs) (tag : Nat) : Bool := r.pend.any fun p => p.prod == .bara tag

/-- A context of core c arrives at a barrier. -/
def arriveAt (s : State) (c n tag : Nat) : State :=
  match barrierAt s c n tag with
  | none => s
  | some (g, m) =>
    let p := partOf s c
    let s := modGang s p g.id fun g => modMember g m.core fun m => { m with arr := mset m.arr tag (arrOf m tag + 1) }
    signalPhase s p g.id tag

/-- BARA (R183): a release, in its turn behind a producer that it must follow (08 R206). -/
def execBara (c : Cond) (tag : BitVec 3) (s : State) : Out :=
  .next (issue (.bara c tag) s fun s =>
    match barrierOf s tag.toNat with
    | none => .trap s tILLEGAL
    | some (g, m) =>
      if compOf g tag.toNat (stratumOf m.core) < arrOf m tag.toNat || arriving (myRegs s) tag.toNat then .hold
      else if mustFollow (myRegs s) then .go (takeTurn s (.bara tag.toNat))
      else if unreleased s then .hold
      else .go (arriveAt s (myId s) (myN s) tag.toNat))

/-- BARW (R183). -/
def execBarw (c : Cond) (tag : BitVec 3) (s : State) : Out :=
  .next (issue (.barw c tag) s fun s =>
    match barrierOf s tag.toNat with
    | none => .trap s tILLEGAL
    | some (g, m) =>
      if compOf g tag.toNat (stratumOf m.core) < arrOf m tag.toNat || arriving (myRegs s) tag.toNat then .hold else .go s)

/-! Ranges (R185, R186) -/

def sel6 (s : State) : Sel6 → Nat
  | .imm n => n.toNat
  | .reg b => bitsOf (sv s b).toNat 5 0

def pushRange (s : State) (r : RangeReq) : State :=
  modStratum s (stratumOf (myId s)) fun z => { z with rangeQ := z.rangeQ ++ [r] }

/-- GRAB (R185). -/
def execGrab (c : Cond) (d : SReg) (range : Sel6) (s : State) : Out :=
  .next (issue (.grab c d range) s fun s =>
    if d.toNat % 2 = 1 ∨ d.toNat < 2 ∨ 60 < d.toNat then .trap s tILLEGAL
    else .go (pushRange (produce s (.pair d) .arrives) (.grab (myId s) (myN s) s.serial (sel6 s range))))

def nonzero32 (v : Nat) : BitVec 32 := if v = 0 then 1 else BitVec.ofNat 32 v

/-- RNGSET (R186). -/
def execRngset (c : Cond) (start rem cd : SSrc) (range : BitVec 6) (s : State) : Out :=
  .next (issue (.rngset c start rem cd range) s fun s =>
    .go (pushRange s (.set range.toNat
      { start := sv s start, rem := sv s rem, c := nonzero32 (bitsOf (sv s cd).toNat 31 0),
        d := nonzero32 (bitsOf (sv s cd).toNat 63 32) })))

/-! FLOWSIG (R187) -/

def findJob (s : State) (p id : Nat) : Option Job := (getPart s p).jobs.find? fun j => j.id == id

/-- Counters that the flow of a context declares; none once its job has completed, so that a FLOWSIG of a handler that is
left raises ILLEGAL (the spec does not say; DESIGN CHOICE, log 40). -/
def flowCtrs (s : State) (p : Nat) (x : Ctx) : Option (Nat × Nat × Nat) :=
  match x.flow with
  | none => none
  | some (job, flow) =>
    match findJob s p job with
    | none => none
    | some j => (j.flows[flow]?).map fun f => (job, flow, f.ctrs.length)

/-- The decrement of a counter is on its way to the launch unit (17 R367). -/
def signalFlow (s : State) (c job flow ctr : Nat) : State :=
  modPart s (partOf s c) fun x => { x with decs := x.decs ++ [{ src := c, stc := s.stc, job, flow, mask := BitVec.twoPow 64 ctr }] }

/-- FLOWSIG (R187): a release, in its turn behind a producer that it must follow (08 R206). -/
def execFlowsig (c : Cond) (ctr : BitVec 6) (s : State) : Out :=
  .next (issue (.flowsig c ctr) s fun s =>
    let p := partOf s (myId s)
    match flowCtrs s p (me s) with
    | none => .trap s tILLEGAL
    | some (job, flow, n) =>
      if n ≤ ctr.toNat then .trap s tILLEGAL
      else if !runsAhead s && mustFollow (myRegs s) then .go (takeTurn s (.flowsig job flow ctr.toNat))
      else if !runsAhead s && unreleased s then .hold
      else .go (signalFlow s (myId s) job flow ctr.toNat))

end Sys2Proof.Machine
end

