-- ==== Sys2Proof/Machine/Events.lean ====
section
/-! DEFINITION. Events on their way, at their core, and bound to a context (02 R47 to R57), the host's events (17 R375),
and their steps EVENT_ARRIVAL, SEND_ACCEPTANCE, EVENT_BIND, UNDELIVERABLE_RETURN, EVTAIL_WRITE and
HOST_EVENT_FORWARD. -/

namespace Sys2Proof.Machine

/-! The channel table and the tests of R49 -/

def getRing (k : Core) (n : Nat) : Ring := mget k.rings n Ring.reset
def modRing (s : State) (c n : Nat) (f : Ring → Ring) : State :=
  modCore s c fun k => { k with rings := mset k.rings n (f (getRing k n)) }

/-- The entry that an arriving record is tested against: the one that a waiting CHSET will write, if there is one. -/
def testEntry (k : Core) (n : Nat) : Chan := (mget k.chset n none).getD (getChan k n)

/-- Whether a member of a gang is resident on a core (R49). -/
def gangResident (k : Core) (g : Nat) : Bool :=
  k.ctxs.any fun e => e.2.resident && e.2.member && e.2.gang == g

/-- The channel of a record at a core: a returned record comes on channel 62. -/
def chanOf (e : Event) : Nat := if e.und then 62 else e.chan.toNat

/-- Whether a record brings a payload. A returned one brings none, though its PL is as sent: on channel 62 neither its LLEN nor room
in the landing ring is tested (R50 does not say; DESIGN CHOICE, log 27). -/
def carries (e : Event) : Bool := e.pl && !e.und

/-- R49, R57. -/
def chanValid (s : State) (c : Nat) (e : Event) : Bool :=
  let k := getCore s c
  let h := testEntry k (chanOf e)
  validCore c && h.valid && decide (8 * (h.lbase.toNat + h.lsize.toNat) ≤ coreSp s c) &&
    (h.gang == 0 || gangResident k h.gang.toNat) &&
    (!carries e || (decide (e.llen.toNat ≤ h.lsize.toNat) && chanOf e != 63))

/-! Landing rings (R52) -/

/-- Where n words land in a ring of a size; none: no room. -/
def ringPlace (r : Ring) (size n : Nat) : Option Nat :=
  match r.live with
  | [] => if r.head + n ≤ size then some r.head else if n ≤ size then some 0 else none
  | o :: _ =>
    if o.off < r.head then
      if r.head + n ≤ size then some r.head else if n ≤ o.off then some 0 else none
    else if r.head + n ≤ o.off then some r.head else none

/-- Remove the payloads at the front that are free. -/
def trimRing : List Landed → List Landed
  | [] => []
  | l :: r => if l.freed then trimRing r else l :: r

/-- Free a payload: its words join the ring once every earlier one is free. -/
def freeLanding (s : State) (c chan id : Nat) : State :=
  modRing s c chan fun r =>
    { r with live := trimRing (r.live.map fun l => if l.id = id then { l with freed := true } else l) }

/-! Acceptance (R51, R53) -/

def heldOn (k : Core) (n : Nat) : List HeldEvent := k.events.filter fun e => chanOf e.ev == n

/-- The place of a payload and whether the record has room. -/
def roomFor (s : State) (c : Nat) (e : Event) : Option Nat :=
  let k := getCore s c
  let n := chanOf e
  if (mget k.chset n none).isSome || decide (256 ≤ k.events.length) || decide (16 ≤ (heldOn k n).length) then none
  else if carries e then ringPlace (getRing k n) (getChan k n).lsize.toNat e.llen.toNat else some 0

/-- Write a payload into the landing ring and set its words FULL. -/
def landPayload (s : State) (c off : Nat) (ws : List Word) : State :=
  writeFull s ((poolPlaces c (8 * off) (8 * ws.length)).zip (ws.flatMap fun w => toLe 8 w.toNat))

/-- The sender of a record goes on (07 R181). -/
def answerSend (s : State) (t : Transit) : State :=
  match t.sender with
  | none => s
  | some (c, n) => modCtx s c n fun x => { x with await := x.await.map fun w => { w with done := true } }

/-- A forwarded host event is done with (17 R375). -/
def endForward (s : State) (t : Transit) : State :=
  if (getPart s t.part).evWait = some t.id then modPart s t.part fun p => { p with evWait := none } else s

def dropTransit (s : State) (id : Nat) : State := { s with net := s.net.filter fun t => t.id != id }

/-- Take a record into the buffer of a core (in part DEDUCED, log 27). -/
def acceptEvent (s : State) (c : Nat) (t : Transit) (off : Nat) : State :=
  let n := chanOf t.ev
  let s := endForward (answerSend (dropTransit s t.id) t) t
  let hold (s : State) (e : Event) (l : Option Nat) : State :=
    endWfi (modCore s c fun k => { k with events := k.events ++ [{ ev := e, landed := l, origin := t.origin }] }) c
  if carries t.ev then
    let base := (getChan (getCore s c) n).lbase.toNat
    let s := modRing s c n fun r =>
      { head := off + t.payload.length, live := r.live ++ [{ id := t.id, off, len := t.payload.length, freed := false }] }
    hold (landPayload s c (base + off) t.payload) { t.ev with loff := BitVec.ofNat 16 (base + off) } (some t.id)
  else hold s t.ev none

/-- Detail of an undeliverable record: destination and channel. -/
def eventExtra (e : Event) : Nat := e.dest.toNat + e.chan.toNat * 65536

/-- A record is found undeliverable (R49, R50): it turns back, or is written to the log of SYSCORE. -/
def undeliverable (s : State) (t : Transit) : State :=
  let s := endForward (answerSend s t) t
  if 0xFFFE ≤ t.ev.src.toNat then sysRecord (dropTransit s t.id) t.part 4 16 0 0 (eventExtra t.ev)
  else { s with net := s.net.map fun u =>
    if u.id = t.id then { t with ev := { t.ev with und := true }, sender := none, waiting := false, home := true } else u }

/-- A returned record whose channel 62 is not valid (R50): CTX and GEN are those of the context that sent it (16 R346).
The spec gives no EXTRA, ADDR and DONE of this record: destination and channel, 0 and 0 (DESIGN CHOICE, log 23). -/
def lostReturn (s : State) (c : Nat) (t : Transit) : State :=
  let o := t.origin.getD (0, 0)
  logRecord (dropTransit s t.id) c { extra := eventExtra t.ev, addr := 0, done := 0, gen := o.2.toNat, tag := 0,
                                     status := 16, kind := 4, ctx := o.1, src := c }

def setWaiting (s : State) (id : Nat) : State :=
  { s with net := s.net.map fun t => if t.id = id then { t with waiting := true } else t }

def findTransit (s : State) (id : Nat) : Option Transit := s.net.find? fun t => t.id == id

/-- Where a record goes: back to its sender, or to its destination. -/
def goalOf (t : Transit) : Nat := if t.home then t.ev.src.toNat else t.ev.dest.toNat

def coreAwake (s : State) (c : Nat) : Bool := isGw c || (getStratum s (stratumOf c)).awake

/-- Whether a record is held on its way: its goal's stratum sleeps, and delivers nothing until it wakes (12 R321); or the FIFOs
of a stratum hold it (01 R26), while the clock of its goal switches, and while the clock of the core that has just sent it
stands still. While the thermal guard stops the goal's clock, events arrive all the same (20 R416) (in part DEDUCED, log 34). -/
def recordHeld (s : State) (t : Transit) : Bool :=
  validCore (goalOf t) && (!coreAwake s (goalOf t) || clockSwitches s (goalOf t)) ||
    (!t.home && !t.waiting && validCore t.ev.src.toNat && clockStopped s t.ev.src.toNat)

/-- Test a record at its core: accepted, waiting, or undeliverable. -/
def tryAccept (s : State) (t : Transit) : State :=
  let c := goalOf t
  if recordHeld s t then s
  else if !chanValid s c t.ev then (if t.home then lostReturn s c t else undeliverable s t)
  else match roomFor s c t.ev with
    | some off => acceptEvent s c t off
    | none => setWaiting s t.id

/-- EVENT_ARRIVAL (R51): operand j the record. -/
def execEventArrival (s : State) : Out :=
  .next (match findTransit s s.arg.j with
    | some t => if t.home || t.waiting then s else tryAccept s t
    | none => s)

/-- SEND_ACCEPTANCE (R53): operand j a record that waits for room. -/
def execSendAcceptance (s : State) : Out :=
  .next (match findTransit s s.arg.j with
    | some t => if t.waiting then tryAccept s t else s
    | none => s)

/-- UNDELIVERABLE_RETURN (R50): operand j a record on its way back. -/
def execUndeliverableReturn (s : State) : Out :=
  .next (match findTransit s s.arg.j with
    | some t => if t.home && !t.waiting then tryAccept s t else s
    | none => s)

/-! Binding (R51, R54, R57) -/

/-- The registers of a start: s1 to s6, tp and sp (07 R188). -/
def startRegs (args : List Word) (pc : Word) : Regs :=
  { Regs.reset with
    pc
    s := Vector.ofFn fun i : Fin 64 =>
      if i.val = 57 then 0xFFFFFF0000000000 else if i.val = 61 then 0xFFFFFF1000000000
      else if 1 ≤ i.val ∧ i.val ≤ 6 then args.getD (i.val - 1) 0 else 0 }

/-- The argument words of a record (Table 2.3, R50). -/
def eventArgs (e : Event) : List Word :=
  if e.und then
    [e.arg0, e.arg1, e.dest.setWidth 64, e.chan.setWidth 64, 0,
     if e.chan = 63 then e.dloff.setWidth 64 else word (8 * e.llen.toNat)]
  else
    [e.arg0, e.arg1, e.src.setWidth 64, e.chan.setWidth 64, if e.pl then word (8 * e.loff.toNat) else 0,
     if e.pl then word (8 * e.llen.toNat) else 0]

/-- Start address of a handler. -/
def handlerPc (h : Chan) (e : Event) : Word :=
  word (4 * h.pc.toNat) + (if chanOf e = 63 then word (4 * e.dloff.toNat) else 0)

/-- A channel that may be bound: it holds an event, is unmasked, and its gang is resident (R51, R64). Whether its landing ring
still fits the scratchpad under a new partition word is not tested again (DESIGN CHOICE, log 27). -/
def runnable (k : Core) (n : Nat) : Bool :=
  let h := getChan k n
  !(heldOn k n).isEmpty && !h.mask && (h.gang == 0 || gangResident k h.gang.toNat)

/-- The runnable channel of highest priority, the lowest number among equals. -/
def nextChan (k : Core) : Option Nat :=
  ((List.range 64).filter (runnable k)).foldl (fun b n =>
    match b with
    | none => some n
    | some m => if (getChan k m).prio.toNat < (getChan k n).prio.toNat then some n else some m) none

def delFirstOn (n : Nat) : List HeldEvent → List HeldEvent
  | [] => []
  | e :: r => if chanOf e.ev = n then r else e :: delFirstOn n r

/-- The gang, and the coordinate of its member on a core, that a handler of a channel is given (R54). -/
def boundGang (s : State) (c g : Nat) : Option (Gang × Nat × Nat) :=
  if g = 0 then none
  else (findGang s (partOf s c) g).map fun x => match memberOf x c with
    | some m => (x, m.tx, m.ty)
    | none => (x, 0, 0)

/-- The context that a record starts. -/
def handlerCtx (s : State) (c : Nat) (h : Chan) (e : HeldEvent) : Ctx :=
  let g := boundGang s c h.gang.toNat
  { Ctx.reset with
    regs := startRegs (eventArgs e.ev) (handlerPc h e.ev)
    prio := h.prio
    priv := if h.sys then 1 else 0
    gang := h.gang.toNat
    gen := g.elim 0 fun g => g.1.gen
    flow := g.map fun g => (g.1.job, g.1.flow)
    tx := g.elim 0 fun g => g.2.1
    ty := g.elim 0 fun g => g.2.2
    shape := g.map fun g => shapeAt g.1.desc g.1.x0 g.1.y0 g.1.z0
    chan := some (chanOf e.ev)
    landing := e.landed }

/-- Bind the next event of a core to a free context. -/
def bindEvent (s : State) (c : Nat) : State :=
  let k := getCore s c
  if !coreAwake s c || clockStopped s c then s
  else match freeCtx k, nextChan k with
    | some n, some ch =>
      match heldOn k ch with
      | e :: _ =>
        startCtx (modCore s c fun k => { k with events := delFirstOn ch k.events }) c n
          (handlerCtx s c (getChan k ch) e)
      | [] => s
    | _, _ => s

/-- EVENT_BIND (R51): operand i the core. -/
def execEventBind (s : State) : Out :=
  if validCore s.arg.i then .next (bindEvent s s.arg.i) else .fault (.noSuchCore s.arg.i)

/-! Returning held events (16 R349) -/

/-- Return every event held on a channel, in arrival order; landed payloads are freed. A record that had come back to
channel 62 comes back there again, to be logged if the channel is not valid by then (02 R50). -/
def returnHeld (s : State) (c n : Nat) : State :=
  let es := heldOn (getCore s c) n
  let s := modCore s c fun k => { k with events := k.events.filter fun e => chanOf e.ev != n }
  es.foldl (fun s e =>
    let s := match e.landed with
      | some l => freeLanding s c n l
      | none => s
    let t : Transit := { id := s.serial, ev := { e.ev with loff := 0 }, part := partOf s c, payload := [], sender := none,
                         waiting := false, home := false, origin := e.origin }
    if e.ev.und then { s with serial := s.serial + 1, net := s.net ++ [{ t with home := true }] }
    else undeliverable { s with serial := s.serial + 1, net := s.net ++ [t] } t) s

/-! The host's events (17 R375) -/

/-- A record of 32 bytes (Table 2.1). -/
def eventOf (v : Nat) : Event :=
  let chan := bitsOf v 221 216
  { chan := BitVec.ofNat 6 chan, dest := BitVec.ofNat 16 (bitsOf v 199 184), src := BitVec.ofNat 16 (bitsOf v 215 200),
    stc := BitVec.ofNat 56 (bitsOf v 183 128), arg0 := word (bitsOf v 63 0), arg1 := word (bitsOf v 127 64),
    pl := bitOf v 222, und := bitOf v 223, llen := if chan = 63 then 0 else BitVec.ofNat 14 (bitsOf v 253 240),
    loff := if chan = 63 then 0 else BitVec.ofNat 16 (bitsOf v 239 224),
    dloff := if chan = 63 then BitVec.ofNat 32 (bitsOf v 255 224) else 0 }

/-- Read bytes for the launch unit: at system privilege, through the partition's tables (18 R426). A failure has status
PAGE_FAULT 1 or UNCORRECTABLE 4. An address is taken as it stands, one that is not aligned or lies outside the global aperture
too, whose table index wraps modulo 2^56: no check of 17 R366 names it (DESIGN CHOICE, log 23). -/
def launchRead (s : State) (p a n : Nat) : State × Except Nat Nat :=
  match partRange s p 1 .read a n with
  | (s, .error _) => (s, .error 1)
  | (s, .ok pas) => if pas.any (badPa s p) then (noteBad s pas, .error 4)
    else (noteFar s p pas, .ok (readPlaces s (pas.map Place.hbm)))

/-- Forward the next record of the event ring (in part DEDUCED, log 23). -/
def forwardEvent (s : State) (p : Nat) : State :=
  let q := (getPart s p).ev
  match ringSize q.ctl, (getPart s p).evWait with
  | some size, none =>
    if q.head = q.tail ∨ size = 0 then s
    else
      let at' := q.base.toNat + 32 * (q.head.toNat % size)
      let s := modPart s p fun x => { x with ev := { x.ev with head := x.ev.head + 1 } }
      match launchRead s p at' 32 with
      | (s, .error st) => sysRecord s p 4 st 0 at' 0
      | (s, .ok v) =>
        let e := { eventOf v with src := 0xFFFE, und := false }
        if e.pl then sysRecord s p 4 16 0 0 (eventExtra e)
        else
          let id := s.serial
          modPart (launchEvent s e p [] none) p fun x => { x with evWait := some id }
  | _, _ => s

def partStep (s : State) (f : State → Nat → State) : Out :=
  if s.arg.i < 8 then .next (f s s.arg.i) else .fault (.noSuchUnit s.arg.i)

/-- HOST_EVENT_FORWARD (17 R375): operand i the partition. -/
def execHostEventForward (s : State) : Out := partStep s forwardEvent

/-- EVTAIL_WRITE (17 R375): operands i the partition, x the value. -/
def execEvtailWrite (s : State) : Out := partStep s fun s p => evtailWrite s p s.arg.x

end Sys2Proof.Machine
end

