-- ==== Sys2Proof/Machine/Launch.lean ====
section
/-! DEFINITION. The launch unit (17 R362 to R374): admission of jobs, counters, completion and placement of gangs,
barriers across strata, and their steps. -/

namespace Sys2Proof.Machine

/-! Jobs in memory (R364) -/

def modJob (s : State) (p id : Nat) (f : Job → Job) : State :=
  modPart s p fun x => { x with jobs := x.jobs.map fun j => if j.id = id then f j else j }
def modFlow (s : State) (p id n : Nat) (f : JobFlow → JobFlow) : State :=
  modJob s p id fun j => { j with flows := j.flows.zipIdx.map fun e => if e.2 = n then f e.1 else e.1 }

def dWait (d : BitVec 512) : Nat := dField d 383 320
def dSucc (d : BitVec 512) : Nat := dField d 447 384
def dEntry (d : BitVec 512) : Nat := dField d 191 128
def dPword (d : BitVec 512) : Nat := dField d 46 32
def dFix (d : BitVec 512) : Bool := dField d 47 47 == 1
def dX0 (d : BitVec 512) : Nat := dField d 52 48
def dY0 (d : BitVec 512) : Nat := dField d 57 53
def dZ0 (d : BitVec 512) : Nat := dField d 61 58

/-- Why a flow or a gang is abandoned: status and EXTRA (Table 17.5). -/
abbrev Reason := Nat × Nat

def killedFor (n : Nat) : Reason := (6, n)

/-- Whether S consecutive strata from z0 belong to a partition. -/
def strataOwned (s : State) (p z0 n : Nat) : Bool :=
  decide (z0 + n ≤ 16) && (List.range n).all fun i => ownsLayer s p (z0 + i)

/-- The checks of a gang, in the order of R366. -/
def gangReason (s : State) (p nctr : Nat) (d : BitVec 512) : Option Reason :=
  let q := dRot d
  let side := if q = 0 then 0 else 2 ^ q
  let e := dEntry d
  if dField d 511 448 ≠ 0 ∨ dField d 127 86 ≠ 0 then some (killedFor 1)
  else if 2 ^ nctr ≤ dWait d ∨ 2 ^ nctr ≤ dSucc d then some (killedFor 5)
  else if 2 ^ 56 ≤ e ∨ badTarget (word e) = true then some (killedFor 6)
  else if q ≠ 0 ∧ (dW d ≠ side ∨ dH d ≠ side ∨ dS d ≠ 1 ∨ (dFix d = true ∧ (dX0 d % 2 ≠ 0 ∨ dY0 d % 2 ≠ 0))) then
    some (killedFor 3)
  else if (if dFix d then decide (dX0 d + dW d ≤ 32) && decide (dY0 d + dH d ≤ 32) && strataOwned s p (dZ0 d) (dS d)
      else (List.range 16).any fun z => strataOwned s p z (dS d)) = false then some (killedFor 4)
  else if pwordOk (dPword d) = false then some (9, 0)
  else none

/-- The counter values of a flow. -/
def readCtrs (p a : Nat) : Nat → State → State × Except Nat (List (BitVec 16))
  | 0, s => (s, .ok [])
  | n + 1, s =>
    match launchRead s p a (2 * (n + 1)) with
    | (s, .error e) => (s, .error e)
    | (s, .ok v) => (s, .ok ((List.range (n + 1)).map fun i => BitVec.ofNat 16 (bitsOf v (16 * i + 15) (16 * i))))

/-- The gang descriptors of a flow, each with its own failure. -/
def readGangs (p nctr : Nat) : List Nat → State → State × List (Nat × BitVec 512 × Option Reason)
  | [], s => (s, [])
  | a :: r, s =>
    let (s, g) := match launchRead s p a 64 with
      | (s, .error e) => (s, (a, 0, some (e, 0)))
      | (s, .ok v) => (s, (a, BitVec.ofNat 512 v, gangReason s p nctr (BitVec.ofNat 512 v)))
    let (s, gs) := readGangs p nctr r s
    (s, g :: gs)

/-- Report an abandoned gang (R366): ADDR is its descriptor's address (in part DEDUCED, log 23). -/
def reportGang (s : State) (p addr : Nat) (r : Reason) : State := sysRecord s p 0x0A r.1 0 addr r.2

/-- Read a flow at an address and check it: an abandoned one reports its gangs and keeps none; the answer says whether any
gang was reported. entry: the failure of the job entry (in part DEDUCED, log 23). -/
def admitFlow (s : State) (p a : Nat) (entry : Option Reason) : State × JobFlow × Bool :=
  let none' : JobFlow := { ctrs := [], gangs := [], underflow := false }
  match launchRead s p a 32 with
  | (s, .error e) => (reportGang s p a (e, 0), none', true)
  | (s, .ok v) =>
    let nctr := bitsOf v 6 0
    let n := bitsOf v 43 32
    let own : Option Reason :=
      if bitsOf v 255 192 ≠ 0 ∨ bitsOf v 63 44 ≠ 0 ∨ bitsOf v 31 7 ≠ 0 then some (killedFor 1)
      else if n = 0 ∨ 64 < nctr then some (killedFor 2) else none
    let (s, ctrs) := readCtrs p (bitsOf v 191 128) (if own.isSome then 0 else nctr) s
    let flow : Option Reason := entry.orElse fun _ => own.orElse fun _ => match ctrs with
      | .error e => some (e, 0)
      | .ok _ => none
    let addrs := (List.range n).map fun i => bitsOf v 127 64 + 64 * i
    match flow with
    | some r => (addrs.foldl (fun s a => reportGang s p a r) s, none', !addrs.isEmpty)
    | none =>
      let (s, gs) := readGangs p nctr addrs s
      if gs.any fun g => g.2.2.isSome then
        (gs.foldl (fun s g => reportGang s p g.1 (g.2.2.getD (killedFor 7))) s, none', true)
      else
        (s, { ctrs := ctrs.toOption.getD [], gangs := gs.map fun g => { addr := word g.1, desc := g.2.1, status := .waiting },
              underflow := false }, false)

def admitFlows (p base : Nat) (entry : Option Reason) : List Nat → State → State × List JobFlow × Bool
  | [], s => (s, [], false)
  | i :: r, s =>
    let (s, f, bad) := admitFlow s p (base + 32 * i) entry
    let (s, fs, bad') := admitFlows p base entry r s
    (s, f :: fs, bad || bad')

/-! Completion (R367, R368) -/

def gangsRun (j : Job) : Nat :=
  (j.flows.map fun f => (f.gangs.filter fun g => g.status == .completed).length).sum

/-- A job whose flows are complete and whose decrements are applied is reported and leaves (in part DEDUCED, log 23). -/
def checkJob (s : State) (p id : Nat) : State :=
  match findJob s p id with
  | none => s
  | some j =>
    if (j.flows.all flowDone) && !((getPart s p).decs.any fun d => d.job == id) then
      let status := if j.killed then 6 else if j.flows.any (·.underflow) then 10 else 0
      let s := modPart s p fun x => { x with jobs := x.jobs.filter fun j => j.id != id }
      sysRecord s p 0x0A status (gangsRun j) j.entry.toNat j.jobid.toNat
    else s

/-- Gangs of a flow whose WAIT counters all read 0 become eligible now (R365, R367). -/
def makeEligible (now : Word) (f : JobFlow) : JobFlow :=
  { f with gangs := f.gangs.map fun g =>
      if g.status = .waiting ∧ (f.ctrs.zipIdx.all fun e => !bitOf (dWait g.desc) e.2 || e.1 == 0) = true then
        { g with status := .eligible now 0 } else g }

/-! Admission (R365) -/

/-- Admit one job whose entry has been read: the flows in order, then eligibility. The job is KILLED where a gang of it has been
reported (R368) (in part DEDUCED, log 23). -/
def admitJob (s : State) (p q entry v : Nat) (bad : Option Reason) : State :=
  let (s, fs, killed) := admitFlows p (bitsOf v 63 0) bad (List.range (bitsOf v 79 64)) s
  let now := s.stc
  let j : Job := { id := s.serial, jobid := BitVec.ofNat 32 (bitsOf v 127 96), prio := BitVec.ofNat 8 (bitsOf v 87 80),
                   queue := q, entry := word entry, flows := fs.map (makeEligible now), killed }
  checkJob (modPart { s with serial := s.serial + 1 } p fun x => { x with jobs := x.jobs ++ [j] }) p j.id

/-- The failure of a job entry (R366) (in part DEDUCED, log 23). -/
def entryReason (v : Nat) : Option Reason :=
  if bitsOf v 255 128 ≠ 0 ∨ bitsOf v 95 88 ≠ 0 then some (killedFor 1)
  else if bitsOf v 79 64 = 0 ∨ 256 < bitsOf v 79 64 then some (killedFor 2) else none

/-- The queue that is visited: the first enabled one with an entry, from the pointer on. -/
def visited (s : State) (p : Nat) : Option Nat :=
  ((List.range 64).map fun i => ((getPart s p).visit + i) % 64).find? fun q =>
    let x := getQueue s p q
    (ringSize x.ctl).isSome && x.tail != x.head

/-- Admit the oldest entry of the visited queue, or wait on it while its flows do not fit: for ever, with more than 256. -/
def admitNext (s : State) (p : Nat) : State :=
  match visited s p with
  | none => s
  | some q =>
    let x := getQueue s p q
    let size := ringSizeField x.ctl
    if size = 0 then s
    else
      let entry := x.base.toNat + 32 * (x.head.toNat % size)
      let take (s : State) : State :=
        modPart (modQueue s p q fun x => { x with head := x.head + 1 }) p fun y => { y with visit := (q + 1) % 64 }
      match launchRead s p entry 32 with
      | (s, .error e) => admitJob (take s) p q entry 0 (some (e, 0))
      | (s, .ok v) =>
        let n := bitsOf v 79 64
        if 256 < openFlows (getPart s p) + n then modPart s p fun y => { y with visit := q }
        else admitJob (take s) p q entry v (entryReason v)

/-! Counters -/

def decBefore (a b : DecMsg) : Bool :=
  if a.stc = b.stc then decide (a.src < b.src) else decide (a.stc.toNat < b.stc.toNat)

/-- The message that is applied next, and the others. -/
def takeDec : List DecMsg → Option (DecMsg × List DecMsg)
  | [] => none
  | d :: r => match takeDec r with
    | none => some (d, r)
    | some (e, r') => if decBefore e d then some (e, d :: r') else some (d, r)

/-- Decrement the counters of a mask; one that stands at 0 stays and is an underflow (02 R43). -/
def decrement (mask : BitVec 64) (f : JobFlow) : JobFlow :=
  { f with
    ctrs := f.ctrs.zipIdx.map fun e => if mask.getLsbD e.2 && e.1 != 0 then e.1 - 1 else e.1
    underflow := f.underflow || f.ctrs.zipIdx.any fun e => mask.getLsbD e.2 && e.1 == 0 }

def applyDec (s : State) (p : Nat) : State :=
  match takeDec (getPart s p).decs with
  | none => s
  | some (d, r) =>
    let s := modPart s p fun x => { x with decs := r }
    checkJob (modFlow s p d.job d.flow fun f => makeEligible s.stc (decrement d.mask f)) p d.job

/-! Completion of a gang (R368) -/

def gangOver (g : Gang) : Bool := g.members.all (·.done)

def setStatus (s : State) (p job flow index : Nat) (st : GangStatus) : State :=
  modFlow s p job flow fun f =>
    { f with gangs := f.gangs.zipIdx.map fun e => if e.2 = index then { e.1 with status := st } else e.1 }

/-- Tags unbound, the id free, the successors decremented (a killed gang's are not). -/
def endGang (s : State) (p : Nat) (g : Gang) (killed : Bool) : State :=
  let s := (gangStrata g).foldl (fun s z => modStratum s z fun x =>
    { x with tagOwner := x.tagOwner.filter fun e => e.2 != g.id }) s
  let s := modPart s p fun x => { x with gangs := x.gangs.filter fun h => h.id != g.id }
  let s := if killed then s
    else modPart s p fun x => { x with decs := x.decs ++
      [{ src := 65535, stc := s.stc, job := g.job, flow := g.flow, mask := BitVec.ofNat 64 (dSucc g.desc) }] }
  setStatus s p g.job g.flow g.index (if killed then .reported else .completed)

def completeGang (s : State) (p id : Nat) : State :=
  match findGang s p id with
  | some g => if gangOver g then checkJob (endGang s p g false) p g.job else s
  | none => s

/-! Placement (R369 to R373) -/

/-- An eligible gang with what places it. -/
structure Cand where
  job : Job
  flow : Nat
  index : Nat
  desc : BitVec 512
  since : Word
  aged : Nat
  deriving DecidableEq, Repr

def candsOf (p : Partition) : List Cand :=
  p.jobs.flatMap fun j => j.flows.zipIdx.flatMap fun f => f.1.gangs.zipIdx.filterMap fun g => match g.1.status with
    | .eligible since aged => some { job := j, flow := f.2, index := g.2, desc := g.1.desc, since, aged }
    | _ => none

def launchPrio (c : Cand) : Nat := if c.job.prio.toNat + c.aged < 255 then c.job.prio.toNat + c.aged else 255

/-- The order of R369; gangs that stand alike in it in the order of their jobs (in part DEDUCED, log 23). -/
def candKey (c : Cand) : List Nat :=
  [255 - launchPrio c, c.since.toNat, c.job.queue, c.flow, c.index, c.job.id]

def keyLess : List Nat → List Nat → Bool
  | a :: r, b :: t => if a = b then keyLess r t else decide (a < b)
  | _, _ => false

def insertCand (c : Cand) : List Cand → List Cand
  | [] => [c]
  | d :: r => if keyLess (candKey c) (candKey d) then c :: d :: r else d :: insertCand c r

def sortCands (l : List Cand) : List Cand := l.foldr insertCand []

/-- Full steps of 2^20 beats since eligibility raise the priority (R369). -/
def ageGangs (s : State) (p : Nat) : State :=
  modPart s p fun x => { x with jobs := x.jobs.map fun j => { j with flows := j.flows.map fun f =>
    { f with gangs := f.gangs.map fun g => match g.status with
        | .eligible since _ => { g with status := .eligible since ((s.stc - since).toNat / 2 ^ 20) }
        | _ => g } } }

abbrev Origin := Nat × Nat × Nat

/-- Cores of a rectangle. -/
def rectCores (d : BitVec 512) (o : Origin) : List Nat :=
  (List.range (dS d)).flatMap fun z => (List.range (dH d)).flatMap fun y => (List.range (dW d)).map fun x =>
    coreAt (o.2.2 + z) (o.2.1 + y) (o.1 + x)

/-- Strata that may be used: awake, and named by no SLEEPS. -/
def stratumReady (s : State) (z : Nat) : Bool := (getStratum s z).awake && !(getStratum s z).sleepReq

/-- The first two conditions of R370. -/
def originOpen (s : State) (p : Nat) (d : BitVec 512) (o : Origin) : Bool :=
  strataOwned s p o.2.2 (dS d) && ((List.range (dS d)).all fun i => stratumReady s (o.2.2 + i)) &&
    decide (o.1 + dW d ≤ 32) && decide (o.2.1 + dH d ≤ 32) && (dRot d == 0 || (o.1 % 2 == 0 && o.2.1 % 2 == 0))

/-- A core that may receive a member (01 R35). -/
def coreTakes (s : State) (pw : Nat) (c : Nat) : Bool :=
  let k := getCore s c
  if (residents k).isEmpty then true else bitsOf k.pword.toNat 14 0 == pw && (freeCtx k).isSome

def tagBoundOn (s : State) (z tag : Nat) : Bool := (getStratum s z).tagOwner.any fun e => e.1 == tag

/-- The gang that a reservation is for, if it is still eligible. -/
def reservedCand (p : Partition) (cs : List Cand) : Option (Cand × Origin) :=
  match p.reserving with
  | none => none
  | some (job, flow, index, x0, y0, z0) =>
    (cs.find? fun c => c.job.id == job && c.flow == flow && c.index == index).map fun c => (c, x0, y0, z0)

def sameCand (a b : Cand) : Bool := a.job.id == b.job.id && a.flow == b.flow && a.index == b.index

/-- Whether the rectangle and the tags of a candidate at an origin meet a reservation of another gang. -/
def meetsReserved (r : Option (Cand × Origin)) (c : Cand) (o : Origin) : Bool :=
  match r with
  | none => false
  | some (d, q) =>
    if sameCand c d then false
    else
      let zs := (List.range (dS c.desc)).any fun i => decide (q.2.2 ≤ o.2.2 + i) && decide (o.2.2 + i < q.2.2 + dS d.desc)
      let cut (a n b m : Nat) : Bool := decide (a < b + m) && decide (b < a + n)
      zs && ((cut o.1 (dW c.desc) q.1 (dW d.desc) && cut o.2.1 (dH c.desc) q.2.1 (dH d.desc)) ||
        Nat.land (dTags c.desc) (dTags d.desc) != 0)

/-- The origins that are tried (R370). -/
def originsOf (d : BitVec 512) : List Origin :=
  if dFix d then [(dX0 d, dY0 d, dZ0 d)]
  else
    let k := if dRot d = 0 then 1 else 2
    (List.range 16).flatMap fun z => (List.range (32 / k)).flatMap fun y => (List.range (32 / k)).map fun x => (k * x, k * y, z)

/-- Every condition of R370. -/
def originFits (s : State) (p : Nat) (r : Option (Cand × Origin)) (c : Cand) (o : Origin) : Bool :=
  originOpen s p c.desc o && !meetsReserved r c o &&
    ((List.range (dS c.desc)).all fun i => (List.range 8).all fun t =>
      !bitOf (dTags c.desc) t || !tagBoundOn s (o.2.2 + i) t) &&
    (rectCores c.desc o).all (coreTakes s (dPword c.desc))

def fitOf (s : State) (p : Nat) (r : Option (Cand × Origin)) (c : Cand) : Option Origin :=
  match r with
  | some (d, o) => if sameCand c d then (if originFits s p r c o then some o else none)
      else (originsOf c.desc).find? (originFits s p r c)
  | none => (originsOf c.desc).find? (originFits s p none c)

/-- The start of a member (R372, R373, 02 R54). -/
def memberCtx (c : Cand) (id : Nat) (gen : BitVec 16) (o : Origin) (tx ty : Nat) : Ctx :=
  { Ctx.reset with
    regs := startRegs [word (dField c.desc 255 192), word (dField c.desc 319 256), 0xFFFF, 63] (word (dEntry c.desc))
    prio := c.job.prio
    gen, gang := id, member := true, flow := some (c.job.id, c.flow), tx, ty
    shape := some (shapeAt c.desc o.1 o.2.1 o.2.2)
    kernel := BitVec.ofNat 32 (dField c.desc 31 0) }

/-- Place one member: the context, PWORD on a core with no resident context. -/
def placeMember (c : Cand) (id : Nat) (gen : BitVec 16) (o : Origin) (acc : State × List Member) (core : Nat) :
    State × List Member :=
  let s := acc.1
  let s := if (residents (getCore s core)).isEmpty then
      modCore s core (repartition (word (dPword c.desc))) else s
  let n := (freeCtx (getCore s core)).getD 0
  let tx := coreX core - o.1
  let ty := (stratumOf core - o.2.2) * dH c.desc + (coreY core - o.2.1)
  (startCtx s core n (memberCtx c id gen o tx ty),
   acc.2 ++ [{ core, ctx := n, tx, ty, done := false, lost := false, saved := false, arr := [] }])

/-- Place a gang at an origin (R372). While no gang id from 1 to 65,535 is free nothing is placed in a round (the spec does not
say; DESIGN CHOICE, log 23). -/
def placeGang (s : State) (p : Nat) (c : Cand) (o : Origin) : State :=
  match freeGangId (getPart s p) with
  | none => s
  | some id =>
    let gen := BitVec.ofNat 16 ((getPart s p).placed + 1)
    let s := (List.range (dS c.desc)).foldl (fun s i => modStratum s (o.2.2 + i) fun z =>
      { z with tagOwner := z.tagOwner ++ ((List.range 8).filter (bitOf (dTags c.desc))).map fun t => (t, id) }) s
    let (s, ms) := (rectCores c.desc o).foldl (placeMember c id gen o) (s, [])
    let g : Gang := { id, gen, job := c.job.id, flow := c.flow, index := c.index, desc := c.desc, prio := c.job.prio,
                      x0 := o.1, y0 := o.2.1, z0 := o.2.2, members := ms, comp := [], signals := [] }
    let s := modPart s p fun x =>
      { x with gangs := x.gangs ++ [g], placed := x.placed + 1,
               reserving := match x.reserving with
                 | some (j, f, i, r) => if j = c.job.id ∧ f = c.flow ∧ i = c.index then none else some (j, f, i, r)
                 | none => none }
    setStatus s p c.job.id c.flow c.index .placed

/-- A reservation whose strata are not all awake any more is dropped (R371). That of a gang whose flow has been abandoned ends here
too, at the next round of placement and not at once (DESIGN CHOICE, log 23). -/
def dropReserved (s : State) (p : Nat) : State :=
  match reservedCand (getPart s p) (candsOf (getPart s p)) with
  | some (c, o) =>
    if (List.range (dS c.desc)).all fun i => (getStratum s (o.2.2 + i)).awake then s
    else modPart s p fun x => { x with reserving := none }
  | none => modPart s p fun x => { x with reserving := none }

/-- A gang at priority 255 that heads the order and does not fit becomes the reserving gang (R371). -/
def reserveHead (s : State) (p : Nat) (c : Cand) : State :=
  if launchPrio c = 255 ∧ (getPart s p).reserving.isNone = true then
    match (originsOf c.desc).find? (originOpen s p c.desc) with
    | some o => modPart s p fun x => { x with reserving := some (c.job.id, c.flow, c.index, o.1, o.2.1, o.2.2) }
    | none => s
  else s

/-- Place the first candidate that fits. -/
def placeFirst (s : State) (p : Nat) : List Cand → State
  | [] => s
  | c :: r =>
    match fitOf s p (reservedCand (getPart s p) (candsOf (getPart s p))) c with
    | some o => placeGang s p c o
    | none => placeFirst s p r

/-- One round (R369). -/
def placementRound (s : State) (p : Nat) : State :=
  let s := dropReserved (ageGangs s p) p
  match sortCands (candsOf (getPart s p)) with
  | [] => s
  | c :: r =>
    match fitOf s p (reservedCand (getPart s p) (candsOf (getPart s p))) c with
    | some o => placeGang s p c o
    | none => placeFirst (reserveHead s p c) p r

/-! Barriers (02 R45, 17 R374) -/

/-- A phase completes, on the strata of the gang that a test names, when every stratum of the gang has signalled it. -/
def completePhase (s : State) (p id tag comp : Nat) (on : Nat → Bool) : State :=
  match findGang s p id with
  | none => s
  | some g =>
    if (g.signals.filter fun e => e.1 == tag).length = dS g.desc ∧ comp = phasesOf g tag + 1 then
      let zs := (gangStrata g).filter on
      signalPhase (modGang s p id fun g =>
        { g with comp := zs.foldl (fun m z => mset m (tag + 8 * z) comp) g.comp,
                 signals := if zs.isEmpty then g.signals else g.signals.filter fun e => e.1 != tag }) p id tag
    else s

/-- Place the record of a phase in layer 16's BARRIER queue for the partition. -/
def combineBarrier (s : State) (p id tag comp : Nat) : State :=
  let r : BarRec := { gang := BitVec.ofNat 16 id, tag := BitVec.ofNat 3 tag, comp := BitVec.ofNat 32 comp }
  let q : QItem := { id := s.serial, part := p, core := 65535, ctx := 0, uid := 0, after := 0, item := .barrier r }
  modLayer { s with serial := s.serial + 1 } (16 + p) fun y => { y with queue := y.queue ++ [q] }

/-! The steps: operand i the partition -/

/-- BARRIER_PHASE_COMPLETE (02 R45): operands j the gang, k the tag, x the phase count, y the GEN of the gang: a phase of a
gang that has ended completes nothing of a later one under its id. -/
def execBarrierPhaseComplete (s : State) : Out :=
  partStep s fun s p =>
    if (findGang s p s.arg.j).any fun g => g.gen.toNat == s.arg.y.toNat then
      completePhase s p s.arg.j s.arg.k s.arg.x.toNat fun _ => true
    else s

/-- BARRIER_COMBINE (R374): operands j the gang, k the tag, x the phase count. -/
def execBarrierCombine (s : State) : Out :=
  partStep s fun s p => combineBarrier s p s.arg.j s.arg.k s.arg.x.toNat

/-- LQTAIL_WRITE (R363): operands j the queue, x the value. -/
def execLqtailWrite (s : State) : Out :=
  if s.arg.j < 64 then partStep s fun s p => lqtailWrite s p s.arg.j s.arg.x else .fault (.noSuchUnit s.arg.j)

/-- JOB_ADMISSION (R365). -/
def execJobAdmission (s : State) : Out := partStep s admitNext

/-- COUNTER_DECREMENT (R367): the next message. -/
def execCounterDecrement (s : State) : Out := partStep s applyDec

/-- LAUNCH_PRIORITY_AGING (R369). -/
def execLaunchPriorityAging (s : State) : Out := partStep s ageGangs

/-- PLACEMENT_ROUND (R369). -/
def execPlacementRound (s : State) : Out := partStep s placementRound

/-- GANG_COMPLETION (R368): operand j the gang. -/
def execGangCompletion (s : State) : Out := partStep s fun s p => completeGang s p s.arg.j

/-- FTTAIL_WRITE (18 R384): operand x the value. -/
def execFttailWrite (s : State) : Out := partStep s fun s p => fttailWrite s p s.arg.x

/-- FTLOST_CLEAR (18 R384). -/
def execFtlostClear (s : State) : Out := partStep s fun s p => ftlostWrite s p (word (2 ^ 63))

end Sys2Proof.Machine
end

