-- ==== Sys2Proof/Machine/VectorInt.lean ====
section
/-! DEFINITION. Vector integer arithmetic, majors 0x52 to 0x5E (08 R194): no flag is touched. -/

namespace Sys2Proof.Machine

def intEt : IntT → ElemT
  | .i32 => .i32
  | .i16 => .i16
  | .i8 => .i8
  | .uw => .uw
  | .uh => .uh
  | .ub => .ub

/-- Operand B of element j of lane i (R191): an immediate is cut to the element. -/
def opVI (s : State) (b : VIOpB) (w i j : Nat) : Nat :=
  match b with
  | .v b => laneElem (lane (vv s b) i) w j
  | .s b => (sv s b).toNat % 2 ^ w
  | .imm v => (immW v).toNat % 2 ^ w

/-- An integer modulo 2^w. -/
def modW (w : Nat) (v : Int) : Nat := (v % (2 ^ w : Nat)).toNat

/-- An instruction on the elements of an integer type: f gets the type and the elements' bits. -/
def int2 (s : State) (p : Pred) (t : IntT) (d : VReg) (a : VSrc) (b : VIOpB) (f : ElemT → Nat → Nat → Nat) : Act :=
  let w := etWidth (intEt t)
  putV s p d fun i => (laneOf w fun j => f (intEt t) (elV s a w i j) (opVI s b w i j), 0)

/-- VIADD (R194). -/
def execViadd (p : Pred) (t : IntT) (d : VReg) (a : VSrc) (b : VIOpB) (s : State) : Out :=
  .next (issue (.viadd p t d a b) s fun s => int2 s p t d a b fun _ x y => x + y)

/-- VISUB (R194). -/
def execVisub (p : Pred) (t : IntT) (d : VReg) (a : VSrc) (b : VIOpB) (s : State) : Out :=
  .next (issue (.visub p t d a b) s fun s => int2 s p t d a b fun e x y => modW (etWidth e) ((x : Int) - (y : Int)))

/-- VIMUL (R194). -/
def execVimul (p : Pred) (t : IntT) (d : VReg) (a : VSrc) (b : VIOpB) (s : State) : Out :=
  .next (issue (.vimul p t d a b) s fun s => int2 s p t d a b fun _ x y => x * y)

/-- VIMULH (R194). -/
def execVimulh (p : Pred) (t : IntT) (d : VReg) (a : VSrc) (b : VIOpB) (s : State) : Out :=
  .next (issue (.vimulh p t d a b) s fun s => int2 s p t d a b fun e x y =>
    modW (etWidth e) (etInt e x * etInt e y / (2 ^ etWidth e : Nat)))

/-- VAND (R194). -/
def execVand (p : Pred) (t : IntT) (d : VReg) (a : VSrc) (b : VIOpB) (s : State) : Out :=
  .next (issue (.vand p t d a b) s fun s => int2 s p t d a b fun _ x y => Nat.land x y)

/-- VOR (R194). -/
def execVor (p : Pred) (t : IntT) (d : VReg) (a : VSrc) (b : VIOpB) (s : State) : Out :=
  .next (issue (.vor p t d a b) s fun s => int2 s p t d a b fun _ x y => Nat.lor x y)

/-- VXOR (R194). -/
def execVxor (p : Pred) (t : IntT) (d : VReg) (a : VSrc) (b : VIOpB) (s : State) : Out :=
  .next (issue (.vxor p t d a b) s fun s => int2 s p t d a b fun _ x y => Nat.xor x y)

/-- VSHL (R194): the count is taken modulo the width. -/
def execVshl (p : Pred) (t : IntT) (d : VReg) (a : VSrc) (b : VIOpB) (s : State) : Out :=
  .next (issue (.vshl p t d a b) s fun s => int2 s p t d a b fun e x y => x * 2 ^ (y % etWidth e))

/-- VSHR (R194). -/
def execVshr (p : Pred) (t : IntT) (d : VReg) (a : VSrc) (b : VIOpB) (s : State) : Out :=
  .next (issue (.vshr p t d a b) s fun s => int2 s p t d a b fun e x y => x / 2 ^ (y % etWidth e))

/-- VSAR (R194): signed whatever the type. -/
def execVsar (p : Pred) (t : IntT) (d : VReg) (a : VSrc) (b : VIOpB) (s : State) : Out :=
  .next (issue (.vsar p t d a b) s fun s => int2 s p t d a b fun e x y =>
    modW (etWidth e) (sgn (etWidth e) x / (2 ^ (y % etWidth e) : Nat)))

/-- VIMIN (R194). -/
def execVimin (p : Pred) (t : IntT) (d : VReg) (a : VSrc) (b : VIOpB) (s : State) : Out :=
  .next (issue (.vimin p t d a b) s fun s => int2 s p t d a b fun e x y => if etInt e y < etInt e x then y else x)

/-- VIMAX (R194). -/
def execVimax (p : Pred) (t : IntT) (d : VReg) (a : VSrc) (b : VIOpB) (s : State) : Out :=
  .next (issue (.vimax p t d a b) s fun s => int2 s p t d a b fun e x y => if etInt e x < etInt e y then y else x)

/-- VQADD (R194): the sum clamped to the type's limits. -/
def execVqadd (p : Pred) (t : IntT) (d : VReg) (a : VSrc) (b : VIOpB) (s : State) : Out :=
  .next (issue (.vqadd p t d a b) s fun s => int2 s p t d a b fun e x y =>
    modW (etWidth e) (clampI (etInt e x + etInt e y) (etLo e) (etHi e)))

end Sys2Proof.Machine
end

