-- ==== Sys2Proof/Machine/VectorMisc.lean ====
section
/-! DEFINITION. Compares, selects, predicates, conversions, moves and reductions of the vector unit, majors 0x5F to 0x70
(08 R195 to R202, 03 R71, R72, R76, R81, R85). -/

namespace Sys2Proof.Machine

/-! Compare, select, predicates (R195 to R197) -/

/-- A condition on two FP32 values (R195), with its flags. -/
def fpCond (c : VCond) (a b : FVal) : Bool × FFlags :=
  let unord := a.isNan || b.isNan
  let quiet : FFlags := if a.sig || b.sig then fNV else 0
  let loud : FFlags := if unord then fNV else 0
  let lt := !unord && fGe b a && !fGe a b
  let eq := !unord && fGe a b && fGe b a
  match c with
  | .eq => (eq, quiet)
  | .ne => (!eq, quiet)
  | .un => (unord, quiet)
  | .or => (!unord, quiet)
  | .lt => (lt, loud)
  | .le => (lt || eq, loud)
  | .gt => (!unord && !lt && !eq, loud)
  | .ge => (!unord && !lt, loud)
  | .bad _ => (false, 0)

def intCond (c : VCond) (a b : Int) : Bool :=
  match c with
  | .eq => a == b
  | .ne => a != b
  | .lt => decide (a < b)
  | .le => decide (a ≤ b)
  | .gt => decide (b < a)
  | .ge => decide (b ≤ a)
  | .un => false
  | .or => false
  | .bad _ => false

def cmpLane (t : CmpT) (c : VCond) (a b : Nat) : Bool × FFlags :=
  match t with
  | .f32 => fpCond c (fp32.decode a) (fp32.decode b)
  | .i32 => (intCond c (sgn 32 a) (sgn 32 b), 0)
  | .uw => (intCond c a b, 0)

/-- UN and OR compare floating-point numbers only; codes 8 to 15 are no condition (R195). -/
def badCond (t : CmpT) (c : VCond) : Bool :=
  match c with
  | .bad _ => true
  | _ => t != .f32 && (c == .un || c == .or)

/-- A predicate built bit by bit. -/
def mkP (f : Nat → Bool) : BitVec 64 :=
  BitVec.ofNat 64 ((List.range 64).foldl (fun acc i => acc + if f i then 2 ^ i else 0) 0)

/-- Active bits from f, the others from the old predicate (R195, R197). -/
def mergeP (m old : BitVec 64) (f : Nat → Bool) : BitVec 64 := mkP fun i => if m.getLsbD i then f i else old.getLsbD i

/-- VCMP (R195). -/
def execVcmp (p : Pred) (t : CmpT) (cond : VCond) (d : PReg) (a : VSrc) (b : VOpB) (s : State) : Out :=
  .next (issue (.vcmp p t cond d a b) s fun s =>
    if badCond t cond then .trap s tILLEGAL
    else
      let m := lanes s p
      let rs := (List.range 64).map fun i =>
        if m.getLsbD i then cmpLane t cond (elV s a 32 i 0) (opV s b 32 i 0) else (false, 0)
      let v := mergeP m (rdP (myRegs s) d) fun i => (rs.getD i (false, 0)).1
      .go (raise (setP s d v) (rs.foldl (fun f r => f ||| r.2) 0)))

/-- VSEL (R196). -/
def execVsel (p : Pred) (d : VReg) (cc : PReg) (a : VSrc) (b : VOpB) (s : State) : Out :=
  .next (issue (.vsel p d cc a b) s fun s =>
    let c := rdP (myRegs s) cc
    putV s p d fun i => (BitVec.ofNat 32 (if c.getLsbD i then elV s a 32 i 0 else opV s b 32 i 0), 0))

def plogBit (s : State) (a : PReg) (o : PlogArg) (i : Nat) : Bool :=
  let x := (rdP (myRegs s) a).getLsbD i
  match o with
  | .bin o b => logBit o x ((rdP (myRegs s) b).getLsbD i)
  | .not => !x
  | .mov => x

/-- PLOG (R197). -/
def execPlog (p : Pred) (d : PReg) (a : PReg) (o : PlogArg) (s : State) : Out :=
  .next (issue (.plog p d a o) s fun s => .go (setP s d (mergeP (lanes s p) (rdP (myRegs s) d) (plogBit s a o))))

/-- PCNT (R197). -/
def execPcnt (p : Pred) (d : SReg) (a : PReg) (s : State) : Out :=
  .next (issue (.pcnt p d a) s fun s => .go (setS s d (word (popcount (lanes s p &&& rdP (myRegs s) a)))))

/-- PFIRST (R197): 64 when no bit is set. -/
def execPfirst (p : Pred) (d : SReg) (a : PReg) (s : State) : Out :=
  .next (issue (.pfirst p d a) s fun s => .go (setS s d (word (lowBit (lanes s p &&& rdP (myRegs s) a).toNat 64 0))))

/-! Conversion (R198, R199) -/

def perLaneOf (t : ElemT) : Nat := 32 / etWidth t

/-- The three cases of R198 that raise ILLEGAL. -/
def badCvt (td ts : ElemT) (ns : Bool) (sel : Nat) : Bool :=
  let n := perLaneOf ts
  let m := perLaneOf td
  let ratio := if n < m then m / n else n / m
  decide (ratio ≤ sel) || (ns && td != .e4m3)

/-- One lane of VCVT. -/
def cvtLane (td ts : ElemT) (rm : RMode) (ns : Bool) (sel : Nat) (src old : Lane) : Lane × FFlags :=
  let n := perLaneOf ts
  let m := perLaneOf td
  let conv (k : Nat) : Bits := convElem td ts rm ns (laneElem src (etWidth ts) k)
  if n < m then
    let rs := (List.range n).map conv
    (laneOf (etWidth td) fun j => if sel * n ≤ j ∧ j < sel * n + n then (rs.getD (j - sel * n) (0, 0)).1
      else laneElem old (etWidth td) j, rs.foldl (fun f r => f ||| r.2) 0)
  else laneBits (etWidth td) fun j => conv (if m < n then sel * m + j else j)

/-- VCVT (R198). -/
def execVcvt (p : Pred) (td ts : ElemT) (rm : RMode) (ns : Bool) (sel : BitVec 2) (d : VReg) (a : VSrc) (s : State) : Out :=
  .next (issue (.vcvt p td ts rm ns sel d a) s fun s =>
    if badCvt td ts ns sel.toNat then .trap s tILLEGAL
    else
      let old := rdV (myRegs s) d
      putV s p d fun i => cvtLane td ts rm ns sel.toNat (lane (vv s a) i) (lane old i))

def badSel (int4 : Bool) (sel : Nat) : Bool := !int4 && decide (3 < sel)

/-- VQNT (R199, 03 R72). -/
def execVqnt (p : Pred) (int4 : Bool) (rm : RMode) (sel : BitVec 3) (d : VReg) (a : VSrc) (b : SSrc) (s : State) : Out :=
  .next (issue (.vqnt p int4 rm sel d a b) s fun s =>
    if badSel int4 sel.toNat then .trap s tILLEGAL
    else
      let old := rdV (myRegs s) d
      putV s p d fun i =>
        let (q, f) := quantEncode int4 rm (fp32.decode (elV s a 32 i 0)) ((sv s b).toNat % 2 ^ 32)
        (laneSet (lane old i) (if int4 then 4 else 8) sel.toNat q, f))

/-- VDQNT (R199, 03 R71). -/
def execVdqnt (p : Pred) (int4 : Bool) (sel : BitVec 3) (d : VReg) (a : VSrc) (b : SSrc) (s : State) : Out :=
  .next (issue (.vdqnt p int4 sel d a b) s fun s =>
    if badSel int4 sel.toNat then .trap s tILLEGAL
    else putV s p d fun i =>
      let (v, f) := quantDecode int4 (laneElem (lane (vv s a) i) (if int4 then 4 else 8) sel.toNat)
        ((sv s b).toNat % 2 ^ 32)
      (BitVec.ofNat 32 v, f))

/-! Moves and permutes (R200): no flag -/

def bcWidth : BcSize → Nat
  | .w => 32
  | .h => 16
  | .b => 8

/-- VBCAST (R200). -/
def execVbcast (p : Pred) (sz : BcSize) (d : VReg) (a : SSrc) (s : State) : Out :=
  .next (issue (.vbcast p sz d a) s fun s => putV s p d fun _ => (laneOf (bcWidth sz) fun _ => (sv s a).toNat, 0))

/-- VEXTR (R200): once, regardless of P. -/
def execVextr (p : Pred) (d : SReg) (a : VSrc) (n : Sel6) (s : State) : Out :=
  .next (issue (.vextr p d a n) s fun s => .go (setS s d ((lane (vv s a) (sel6 s n)).setWidth 64)))

/-- VINS (R200). -/
def execVins (p : Pred) (d : VReg) (a : SSrc) (n : Sel6) (s : State) : Out :=
  .next (issue (.vins p d a n) s fun s =>
    let old := rdV (myRegs s) d
    putV s p d fun i => (if i = sel6 s n then (sv s a).setWidth 32 else lane old i, 0))

/-- VSHUF (R200). -/
def execVshuf (p : Pred) (d : VReg) (a b : VSrc) (s : State) : Out :=
  .next (issue (.vshuf p d a b) s fun s => putV s p d fun i => (lane (vv s a) ((lane (vv s b) i).toNat % 64), 0))

/-- VROT (R200). -/
def execVrot (p : Pred) (d : VReg) (a : VSrc) (k : Sel6) (s : State) : Out :=
  .next (issue (.vrot p d a k) s fun s => putV s p d fun i => (lane (vv s a) ((i + sel6 s k) % 64), 0))

/-- VIOTA (R200). -/
def execViota (p : Pred) (d : VReg) (a : SSrc) (s : State) : Out :=
  .next (issue (.viota p d a) s fun s => putV s p d fun i => ((sv s a + word i).setWidth 32, 0))

/-- VMOV (R200). -/
def execVmov (p : Pred) (d : VReg) (a : VSrc) (s : State) : Out :=
  .next (issue (.vmov p d a) s fun s => putV s p d fun i => (lane (vv s a) i, 0))

/-! Reductions (R201, R202) -/

/-- Table 8.5, on 32-bit values. -/
def redOp (o : RedOp) (a b : Nat) : Bits :=
  match o with
  | .fsum => add32 a b
  | .fmax => minMax fp32 true a b
  | .fmin => minMax fp32 false a b
  | .isum => ((a + b) % 2 ^ 32, 0)
  | .smax => (if sgn 32 a < sgn 32 b then b else a, 0)
  | .smin => (if sgn 32 b < sgn 32 a then b else a, 0)
  | .umax => (if a < b then b else a, 0)
  | .umin => (if b < a then b else a, 0)
  | .and => (Nat.land a b, 0)
  | .or => (Nat.lor a b, 0)
  | .xor => (Nat.xor a b, 0)

/-- Identities of 03 R85. -/
def redIdent : RedOp → Nat
  | .fsum => 0x80000000
  | .fmax => 0xFF800000
  | .fmin => 0x7F800000
  | .isum => 0
  | .smax => 0x80000000
  | .smin => 0x7FFFFFFF
  | .umax => 0
  | .umin => 0xFFFFFFFF
  | .and => 0xFFFFFFFF
  | .or => 0
  | .xor => 0

/-- One level of the tree: t[i] := op(t[i], t[i + h]). -/
def redLevel (o : RedOp) (h : Nat) (t : List Nat) (f : FFlags) : List Nat × FFlags :=
  let rs := (List.range h).map fun i => redOp o (t.getD i 0) (t.getD (i + h) 0)
  (rs.map (·.1), rs.foldl (fun g r => g ||| r.2) f)

/-- The pairwise tree of 03 R85 on 64 values. -/
def redTree (o : RedOp) (t : List Nat) : Bits :=
  let r := [32, 16, 8, 4, 2, 1].foldl (fun st h => redLevel o h st.1 st.2) (t, (0 : FFlags))
  (r.1.headD 0, r.2)

def redSigned : RedOp → Bool
  | .isum => true
  | .smax => true
  | .smin => true
  | _ => false

/-- VRED (R201). -/
def execVred (p : Pred) (op : RedOp) (d : SReg) (a : VSrc) (s : State) : Out :=
  .next (issue (.vred p op d a) s fun s =>
    let m := lanes s p
    let r := redTree op ((List.range 64).map fun i => if m.getLsbD i then elV s a 32 i 0 else redIdent op)
    .go (raise (setS s d (if redSigned op then sextW r.1 32 else word r.1)) r.2))

/-- The inclusive prefix in ascending lane order: running value, flags, results so far. -/
def scanFrom (o : RedOp) (m : BitVec 64) (v : VWord) : List Nat → Nat → FFlags → List (Nat × Nat) → List (Nat × Nat) × FFlags
  | [], _, f, out => (out, f)
  | i :: r, acc, f, out =>
    if m.getLsbD i then
      let x := redOp o acc (lane v i).toNat
      scanFrom o m v r x.1 (f ||| x.2) (out ++ [(i, x.1)])
    else scanFrom o m v r acc f out

/-- VSCAN (R201). -/
def execVscan (p : Pred) (op : RedOp) (d : VReg) (a : VSrc) (s : State) : Out :=
  .next (issue (.vscan p op d a) s fun s =>
    let m := lanes s p
    let r := scanFrom op m (vv s a) (List.range 64) (redIdent op) 0 []
    let old := rdV (myRegs s) d
    .go (raise (setV s d (mkV fun i => match r.1.find? fun e => e.1 == i with
      | some e => BitVec.ofNat 32 e.2
      | none => lane old i)) r.2))

/-- The exact sum of products with the nonfinite cases of 03 R81. -/
def exactDot (ps : List (FVal × FVal)) : FRes :=
  let prods := ps.map fun p => fMul p.1 p.2
  let nv := (prods.any fun r => r.2.getLsbD 0) ||
    ((prods.any fun r => r.1.isInf && r.1.neg) && prods.any fun r => r.1.isInf && !r.1.neg)
  if nv || ps.any fun p => p.1.isNan || p.2.isNan then (.nan false, if nv then fNV else 0)
  else match prods.find? fun r => r.1.isInf with
    | some r => (r.1, 0)
    | none =>
      match prods with
      | [] => (.num (Dy.zero false), 0)
      | r :: rest => rest.foldl (fun acc x => fAdd acc.1 x.1) (r.1, 0)

def dotFmt : DotT → Option Fmt
  | .f16 => some fp16
  | .bf16 => some bf16
  | .e4m3 => some e4m3
  | .e5m2 => some e5m2
  | .i8 => none
  | .ub => none

/-- One lane of VDOT (R202). -/
def dotLane (t : DotT) (a b d : Lane) : Lane × FFlags :=
  match dotFmt t with
  | some f =>
    let w := f.width
    let sm := exactDot ((List.range (32 / w)).map fun k => (f.decode (laneElem a w k), f.decode (laneElem b w k)))
    let r := fAdd (fp32.decode d.toNat) sm.1
    let (v, g) := rn32 r.1 (sm.2 ||| r.2)
    (BitVec.ofNat 32 v, g)
  | none =>
    let e : ElemT := if t = .i8 then .i8 else .ub
    let sm := (List.range 4).foldl (fun acc k => acc + etInt e (laneElem a 8 k) * etInt e (laneElem b 8 k)) (0 : Int)
    (d + BitVec.ofInt 32 sm, 0)

/-- VDOT (R202). -/
def execVdot (p : Pred) (t : DotT) (d : VReg) (a b : VSrc) (s : State) : Out :=
  .next (issue (.vdot p t d a b) s fun s =>
    let old := rdV (myRegs s) d
    putV s p d fun i => dotLane t (lane (vv s a) i) (lane (vv s b) i) (lane old i))

end Sys2Proof.Machine
end

