-- ==== Sys2Proof/Machine/Matrix.lean ====
section
/-! DEFINITION. The matrix array: majors 0xA0 to 0xAC, and the steps of its queue, its runs and its rotation links (09
R223 to R243, 03 R80 to R84, 15 R333, R334). -/

namespace Sys2Proof.Machine

/-! Tiles (09 R229, R233, 15 R333) -/

def mfBits : MFmt → Nat
  | .int8 | .e4m3 | .e5m2 | .int8a _ => 8
  | .int4 | .int4a _ => 4
  | .f16 | .bf16 => 16

/-- K of a format: what 64 bytes hold, at most 128 (03 Table 3.6). -/
def mfK (f : MFmt) : Nat := 512 / mfBits f

/-- One row or column of an operand: its codes, and a record for each 32 of them. -/
abbrev MLine := List Nat × List Nat

def packNum (bits : Nat) : List Nat → Nat
  | [] => 0
  | v :: r => v + 2 ^ bits * packNum bits r
def unpackNum (bits n v : Nat) : List Nat := (List.range n).map fun i => v / 2 ^ (bits * i) % 2 ^ bits

def tileOfLines (f : MFmt) (ls : List MLine) : MTile where
  fmt := f
  lines := (List.range ls.length).zip (ls.map fun l => BitVec.ofNat 512 (packNum (mfBits f) l.1))
  records := (List.range ls.length).zip (ls.map fun l => BitVec.ofNat 128 (packNum 32 l.2))

def tileLine (t : MTile) (n : Nat) : MLine :=
  (unpackNum (mfBits t.fmt) (mfK t.fmt) (mget t.lines n 0).toNat, unpackNum 32 4 (mget t.records n 0).toNat)

/-! Accumulator tiles (01 R36) -/

def accKey (t r n : Nat) : Nat := 4096 * t + 64 * r + n
def accGet (k : Core) (t r n : Nat) : Nat := (mget k.acc (accKey t r n) 0).toNat
def accSet (k : Core) (t r n v : Nat) : Core := { k with acc := mset k.acc (accKey t r n) (BitVec.ofNat 32 v) }

/-- Tiles from t on set to all-zero bits. -/
def accZero (k : Core) (t n : Nat) : Core :=
  { k with acc := k.acc.filter fun e => decide (e.1 < 4096 * t) || decide (4096 * (t + n) ≤ e.1) }

/-! One pass (03 R80 to R84) -/

def mfFloat : MFmt → Option Fmt
  | .f16 => some fp16
  | .bf16 => some bf16
  | .e4m3 => some e4m3
  | .e5m2 => some e5m2
  | _ => none

def mfInt : MFmt → Bool
  | .int8 => true
  | .int4 => true
  | _ => false

/-- Group size of a quantised format, and whether it is INT4A. -/
def mfQuant : MFmt → Option (Nat × Bool)
  | .int8a g => some (g, false)
  | .int4a g => some (g, true)
  | _ => none

/-- K of a pair; none: the pair is refused (03 Table 3.6). -/
def pairK (a b : MFmt) : Option Nat :=
  match a, b with
  | .f16, .f16 => some 32
  | .bf16, .bf16 => some 32
  | .int8, .int8 => some 64
  | .int4, .int4 => some 128
  | .int8a _, .int8a _ => some 64
  | .int8a _, .int4a _ => some 64
  | .int4a _, .int4a _ => some 128
  | .e4m3, .e4m3 => some 64
  | .e4m3, .e5m2 => some 64
  | .e5m2, .e4m3 => some 64
  | .e5m2, .e5m2 => some 64
  | _, _ => none

/-- The value of a code under a record, as an exact number (03 R71). -/
def quantExact (int4 : Bool) (q record : Nat) : FVal :=
  let z := recZp record int4
  match recScale record with
  | .nan s => .nan s
  | .inf n => if q = z then .nan true else .inf (n != decide (q < z))
  | .num d => .num (d.mul (Dy.ofInt ((q : Int) - (z : Int))))

/-- The term of one segment (03 R83): with finite scales RN32(sa × sb × S), else the sum of R81 over the values. A term
that is zero takes the signs of the two scales alone, also where S is negative. -/
def segTerm (ia ib : Bool) (ra rb : Nat) (qa qb : List Nat) : Bits :=
  match recScale ra, recScale rb with
  | .num x, .num y =>
    let za : Int := recZp ra ia
    let zb : Int := recZp rb ib
    let sm := (qa.zip qb).foldl (fun acc p => acc + ((p.1 : Int) - za) * ((p.2 : Int) - zb)) (0 : Int)
    let t := rn32 (.num ((x.mul y).mul (Dy.ofInt sm))) 0
    (if t.1 % 2 ^ 31 = 0 then b2n (x.neg != y.neg) * 2 ^ 31 else t.1, t.2)
  | _, _ =>
    let r := exactDot ((qa.zip qb).map fun p => (quantExact ia p.1 ra, quantExact ib p.2 rb))
    rn32 r.1 r.2

/-- The segments of a quantised pass in ascending K. -/
def quantPass (g : Nat) (ia ib : Bool) (a b : MLine) : Nat → Nat → Nat → Bits
  | 0, _, acc => (acc, 0)
  | n + 1, k0, acc =>
    let t := segTerm ia ib (a.2.getD (k0 / 32) 0) (b.2.getD (k0 / 32) 0) ((a.1.drop k0).take g) ((b.1.drop k0).take g)
    let r := add32 acc t.1
    let rest := quantPass g ia ib a b n (k0 + g) r.1
    (rest.1, t.2 ||| r.2 ||| rest.2)

def minNat (a b : Nat) : Nat := if a < b then a else b

/-- One pass into one accumulator element: its new value, the flags, and integer overflow (R81 to R83). -/
def onePass (fa fb : MFmt) (k acc : Nat) (a b : MLine) : Bits × Bool :=
  match mfFloat fa, mfFloat fb with
  | some x, some y =>
    let d := exactDot (((a.1.take k).zip (b.1.take k)).map fun p => (x.decode p.1, y.decode p.2))
    let t := rn32 d.1 d.2
    let r := add32 acc t.1
    ((r.1, t.2 ||| r.2), false)
  | _, _ =>
    match mfQuant fa, mfQuant fb with
    | some (ga, ia), some (gb, ib) =>
      let g := minNat (minNat ga gb) k
      (quantPass g ia ib a b (k / g) 0 acc, false)
    | _, _ =>
      let w := mfBits fa
      let sm := ((a.1.take k).zip (b.1.take k)).foldl (fun acc p => acc + sgn w p.1 * sgn w p.2) (sgn 32 acc)
      (((sm % (2 ^ 32 : Nat)).toNat, 0), decide (sm < -(2 ^ 31 : Nat)) || decide (((2 ^ 31 : Nat) : Int) ≤ sm))

/-- Multiply one row of A into one accumulator row. -/
def mulRow (k : Core) (fa fb : MFmt) (depth t r : Nat) (a : MLine) (cols : List MLine) : Core × FFlags :=
  ((List.range 64).zip cols).foldl (fun st c =>
    let p := onePass fa fb depth (accGet st.1 t r c.1) a c.2
    let k := accSet st.1 t r c.1 p.1.1
    ({ k with iovf := k.iovf || p.2 }, st.2 ||| p.1.2)) (k, 0)

/-- Multiply rows, each with its number m from tile d on, by the stationary tile. -/
def mulRows (k : Core) (fa : MFmt) (depth d : Nat) (rows : List (Nat × MLine)) : Core × FFlags :=
  let cols := (List.range 64).map (tileLine k.stat)
  rows.foldl (fun st r =>
    let x := mulRow st.1 fa k.stat.fmt depth (d + r.1 / 64) (r.1 % 64) r.2 cols
    (x.1, st.2 ||| x.2)) (k, 0)

/-! Operands (09 R228, R229) -/

/-- The format of an operand from its window (Table 9.2). -/
def mfOf (q : Issuer) (w : Nat) (i4 : Bool) : MFmt :=
  match w with
  | 0 => if i4 then .int4 else .int8
  | 1 => .f16
  | 2 => .bf16
  | 3 => .e4m3
  | 4 => .e5m2
  | 5 => .int8a (wdGroup q.wd5)
  | 6 => .int4a (wdGroup q.wd6)
  | _ => .f16

/-- Offset units of n elements of an operand. -/
def opSpan (w : Nat) (i4 : Bool) (n : Nat) : Nat :=
  if w = 0 then (if i4 then (n + 1) / 2 else n) else n * winUnit w

def localOff (a : Nat) : Nat := a % 2 ^ 20

/-- A row of an operand lies in the scratchpad: from its offset, the span of its elements. -/
def rowInRange (s : State) (q : Issuer) (w o span : Nat) : Bool :=
  decide (o + span ≤ 2 ^ 20) &&
    (if w < 5 then decide (o + span ≤ coreSp s q.core)
     else elemInRange s q w o && elemInRange s q w (o + span - winUnit w))

/-- A row of a quantised operand starts where R229 allows. A base below the data base is judged by its column too: rows
of an MMAG further on may lie in range (R231). -/
def rowGrouped (q : Issuer) (w o stride k : Nat) : Bool :=
  if w = 5 ∨ w = 6 then
    let d := q.desc w
    let base := if w = 5 then wdDbase d else 2 * wdDbase d
    stride % wdRlen d == 0 && (((o : Int) - (base : Int)) % (wdRlen d : Int)).toNat % minNat (wdGroup d) k == 0
  else true

/-- The checks of an operand at issue in the order of 04 R95: rows of a span from a base; bad: what the access class
adds; k: the depth for R229. With no rows, only what does not depend on a row is checked. -/
def operandCheck (s : State) (q : Issuer) (a stride rows span : Nat) (bad : Option Trap) (k : Option Nat) : Option Trap :=
  match apOf a with
  | .loc w o =>
    let offs := (List.range rows).map fun i => (i, o + i * stride)
    let last := if rows = 0 then a else a + (rows - 1) * stride + span - 1
    let odd := w != 0 && (o % winUnit w != 0 || (rows != 1 && stride % winUnit w != 0))
    (if (apOf last).number ≠ 2 then some (tAPERTURE a) else none).orElse fun _ => bad.orElse fun _ =>
      (chkDesc s q a).orElse fun _ =>
      ((offs.find? fun r => !rowInRange s q w r.2 span).map fun r => tAPERTURE (a + r.1 * stride)).orElse fun _ =>
      if odd || (match k with
        | some k => !rowGrouped q w o stride k
        | none => false) then some (tMISALIGNED a) else none
  | _ => some (tAPERTURE a)

/-- I4 stands beside window 0 only (R228). -/
def i4Class (w : Nat) (i4 : Bool) : Option Trap := if i4 && w != 0 then some tILLEGAL else none

/-- One element of an operand. -/
def opEl (s : State) (q : Issuer) (w : Nat) (i4 : Bool) (o i : Nat) : El :=
  if w = 0 then
    (if i4 then .quant true (.pool q.core (o + i / 2)) (i % 2 == 1) [] else .raw [.pool q.core (o + i)])
  else winEl s q q.core w false (o + i * winUnit w) 4

def elCode (s : State) : El → Nat
  | .raw ps => readPlaces s ps
  | .fp _ ps => readPlaces s ps
  | .plast _ _ _ ps => readPlaces s ps
  | .quant i4 c hi _ =>
    let b := (readPlace s c).toNat
    if i4 then (if hi then b / 16 else b % 16) else b
def elRecord (s : State) : El → Nat
  | .quant _ _ _ r => readPlaces s r
  | _ => 0

/-- Read n elements of one operand row from an offset; a row of window 7 is read through the trace unit (R242). -/
def readLine (s : State) (q : Issuer) (w : Nat) (i4 : Bool) (o n : Nat) : State × MLine :=
  let els := (List.range n).map (opEl s q w i4 o)
  let s := settleEls s els
  (s, (els.map (elCode s), (List.range 4).map fun j => (els[32 * j]?).elim 0 (elRecord s)))

def readLines (q : Issuer) (w : Nat) (i4 : Bool) (n : Nat) : List (Nat × Nat) → State → State × List (Nat × MLine)
  | [], s => (s, [])
  | (m, o) :: r, s =>
    let (s, l) := readLine s q w i4 o n
    let (s, ls) := readLines q w i4 n r s
    (s, (m, l) :: ls)

/-! Commands -/

def guardOf : Instr → Option GReg
  | .mls _ _ _ g _ _ => g
  | .mma _ _ _ g _ _ _ _ => g
  | .mmag _ _ _ g _ _ _ _ _ _ => g
  | .mrot _ _ _ g _ _ => g
  | .mst _ _ _ _ _ g _ _ _ _ => g
  | .mzero _ _ _ (.long g) => g
  | _ => none

def cmdIssuer (c : Nat) (m : MCmd) : Issuer :=
  { core := c, ctx := m.ctx, priv := 0, wd5 := m.wd5, wd6 := m.wd6, wd7 := m.wd7, ahead := false }

/-- The rotation route of a gang: q, and the clusters to which the cluster of a core sends its latch and its tile (R232,
R233). -/
def rotSide (g : Gang) : Nat := if dRot g.desc = 0 then 0 else 2 ^ (dRot g.desc - 1)
def rotCluster (g : Gang) (u v : Nat) : Nat := clusterOf (coreAt g.z0 (g.y0 + 2 * v) (g.x0 + 2 * u))
def rotDests (g : Gang) (c : Nat) : Nat × Nat :=
  let q := rotSide g
  let u := (coreX c - g.x0) / 2
  let v := (coreY c - g.y0) / 2
  (rotCluster g ((u + q - 1) % q) v, rotCluster g u ((v + 1) % q))

def sat (n v : Nat) : Nat := if v < 2 ^ n then v else 2 ^ n - 1

/-- A pair that Table 3.6 does not list (R228). -/
def refusePair (s : State) (c : Nat) (m : MCmd) : State :=
  let s := modCore s c fun k => { k with refused := BitVec.ofNat 8 (sat 8 (k.refused.toNat + 1)) }
  ctxRecord s c m.ctx 2 7 0 0 m.base.toNat 0

/-- MLS: load the stationary register (R230). -/
def runMls (s : State) (c : Nat) (m : MCmd) (west i4 : Bool) (stride : Nat) : State :=
  let q := cmdIssuer c m
  let w := (apOf m.base.toNat).win
  let f := mfOf q w i4
  let o := localOff m.base.toNat
  let offs (n : Nat) : List (Nat × Nat) := (List.range n).map fun i => (i, o + i * stride)
  if west then
    let (s, ls) := readLines q w i4 (mfK f) (offs 64) s
    modCore s c fun k => { k with stat := tileOfLines f (ls.map (·.2)) }
  else
    let (s, ls) := readLines q w i4 64 (offs (mfK f)) s
    let col (n : Nat) : MLine := (ls.map fun l => l.2.1.getD n 0, [0, 0, 0, 0])
    modCore s c fun k => { k with stat := tileOfLines f ((List.range 64).map col) }

/-- The multiply of MMA, MMAG and MROT: rows of A of a format, into tiles from d on. -/
def runMul (s : State) (c : Nat) (za : Bool) (d tiles depth : Nat) (fa : MFmt) (rows : List (Nat × MLine)) :
    State × FFlags :=
  let k := if za then accZero (getCore s c) d tiles else getCore s c
  let r := mulRows k fa depth d rows
  (setCore s c r.1, r.2)

def tilesOf (m : Nat) : Nat := (m + 63) / 64

/-- The bound of MMAG (R231). -/
def gatherBound (s : State) (q : Issuer) (w nrow : Nat) : Nat :=
  if nrow ≠ 0 then nrow
  else if w = 7 then (regionOf s q.core (wdRegion q.wd7)).elim 0 (·.rows) else 2 ^ 32 - 1

/-- Rows, tile, ZA, I4 and stride of an MMA or MMAG, and the NROW of the latter; none: another command. -/
def rowsOf : Instr → Option (Nat × Nat × Bool × Bool × Nat × Option Nat)
  | .mma _ za i4 _ d _ m1 stride => some (m1.toNat + 1, d.toNat, za, i4, stride.toNat, none)
  | .mmag _ za i4 _ d _ _ nrow m1 stride => some (m1.toNat + 1, d.toNat, za, i4, stride.toNat, some nrow.toNat)
  | _ => none

/-- The start of MMA and MMAG (R228, R231): the pair check, and the zeroing that ZA asks for. -/
def beginRows (s : State) (c : Nat) (m : MCmd) (rows d : Nat) (za i4 : Bool) : State × MCmd :=
  let f := mfOf (cmdIssuer c m) (apOf m.base.toNat).win i4
  match pairK f (getCore s c).stat.fmt with
  | none => (refusePair s c m, { m with started := true, row := rows })
  | some _ =>
    (if za then modCore s c fun k => accZero k d (tilesOf rows) else s, { m with started := true, row := 0 })

/-- The offset of row m of A; none: an MMAG row that counts in ZROW (R231). -/
def rowOff (s : State) (q : Issuer) (m : MCmd) (i4 : Bool) (stride : Nat) (nrow : Option Nat) : Option Nat :=
  let w := (apOf m.base.toNat).win
  match nrow with
  | none => some (localOff m.base.toNat + m.row * stride)
  | some n =>
    let j := (m.idx.getD m.row 0).toNat
    let o := localOff m.base.toNat + j * stride
    if j < gatherBound s q w n ∧ rowInRange s q w o (opSpan w i4 (mfK (mfOf q w i4))) = true then some o else none

/-- Read the next row of A and multiply it (R231): each row is stamped when it is read (R242). -/
def nextRow (s : State) (c : Nat) (m : MCmd) (d : Nat) (i4 : Bool) (stride : Nat) (nrow : Option Nat) : State × MCmd :=
  let q := cmdIssuer c m
  let w := (apOf m.base.toNat).win
  let f := mfOf q w i4
  let m' := { m with row := m.row + 1 }
  match pairK f (getCore s c).stat.fmt, rowOff s q m i4 stride nrow with
  | some depth, some o =>
    let (s, l) := readLine s q w i4 o (mfK f)
    let r := mulRows (getCore s c) f depth d [(m.row, l)]
    (setCore s c r.1, { m' with flags := m.flags ||| r.2 })
  | _, _ => (modCore s c fun k => { k with zrow := BitVec.ofNat 16 (sat 16 (k.zrow.toNat + 1)) }, m')

/-- The loading of the A latch by MROT. -/
def loadLatch (s : State) (c : Nat) (m : MCmd) (i4 : Bool) (stride : Nat) : State :=
  let q := cmdIssuer c m
  let w := (apOf m.base.toNat).win
  let f := mfOf q w i4
  let (s, ls) := readLines q w i4 (mfK f) ((List.range 64).map fun i => (i, localOff m.base.toNat + i * stride)) s
  modCluster s (clusterOf c) fun k => { k with latch := tileOfLines f (ls.map (·.2)) }

/-- MROT: multiply, then send the latch and the stationary tile and await their successors (R233); they arrive on the link
of their gang in the same step, where none overwrites an earlier one (DESIGN CHOICE, log 28). A refused pair leaves out
only the multiply and the zeroing (R228). With LD = 0 nothing is loaded, and I4 is not looked at (DESIGN CHOICE, log 28). -/
def runMrot (s : State) (c : Nat) (m : MCmd) (za i4 : Bool) (d : Nat) (load : Option Nat) : State × FFlags :=
  let s := match load with
    | some stride => loadLatch s c m i4 stride
    | none => s
  let latch := (getCluster s (clusterOf c)).latch
  let r := match pairK latch.fmt (getCore s c).stat.fmt with
    | none => (refusePair s c m, 0)
    | some depth => runMul s c za d 1 depth latch.fmt ((List.range 64).map fun i => (i, tileLine latch i))
  match gangOf r.1 c (getCtx r.1 c m.ctx) with
  | none => r
  | some g =>
    let dst := rotDests g c
    let gen := g.gen.toNat
    let s := modCluster r.1 dst.1 fun k => { k with linkLatch := k.linkLatch ++ [(gen, latch)] }
    let s := modCluster s dst.2 fun k => { k with linkTile := k.linkTile ++ [(gen, (getCore s c).stat)] }
    (modCluster s (clusterOf c) fun k => { k with needLatch := true, needTile := true, rotFor := some (m.ctx, m.uid) }, r.2)

/-- The bytes that MST writes for an element (R234), with flags. -/
def mstBytes (s : State) (int : Bool) (rm : RMode) (e : El) (v : Nat) : List (Place × Byte) × FFlags :=
  let x : FVal := if int then .num (Dy.ofInt (sgn 32 v)) else fp32.decode v
  match e with
  | .raw ps => (ps.zip (toLe ps.length v), 0)
  | .fp w ps =>
    let r := (winFmt w).encode rm false x 0
    (ps.zip (toLe ps.length r.1), r.2)
  | .quant i4 code hi rec =>
    let r := quantEncode i4 rm x (readPlaces s rec)
    let old := (readPlace s code).toNat
    let b := if i4 then (if hi then old % 16 + 16 * (r.1 % 16) else old / 16 * 16 + r.1 % 16) else r.1
    ([(code, BitVec.ofNat 8 b)], r.2)
  | .plast .. => ([], 0)

/-- An element of the destination of MST: FP32 or INT32 in window 0, else one element of the window. -/
def mstEl (s : State) (q : Issuer) (w : Nat) (x : Bool) (o n : Nat) : El :=
  winEl s q q.core w x (o + n * winUnit w) 4

/-- MST (R234). -/
def runMst (s : State) (c : Nat) (m : MCmd) (int clr x : Bool) (rm : RMode) (b rows stride : Nat) : State × FFlags :=
  let q := cmdIssuer c m
  let w := (apOf m.base.toNat).win
  let o := localOff m.base.toNat
  let cells := (List.range rows).flatMap fun i => (List.range 64).map fun n => (i, n)
  let (s, f) := cells.foldl (fun st e =>
    let v := accGet (getCore st.1 c) (b + e.1 / 64) (e.1 % 64) e.2
    let r := mstBytes st.1 int rm (mstEl st.1 q w x (o + e.1 * stride) e.2) v
    (writeFull st.1 r.1, st.2 ||| r.2)) (s, (0 : FFlags))
  let read (key : Nat) : Bool := decide (4096 * b ≤ key) && decide (key < 4096 * b + 64 * rows)
  (if clr then modCore s c fun k => { k with acc := k.acc.filter fun e => !read e.1 } else s, f)

/-- Start an array command (R223): MMA and MMAG go on row by row, the others act at once (in part DEDUCED, log 28). -/
def runCmd (s : State) (c : Nat) (m : MCmd) : State × MCmd :=
  let go (r : State × FFlags) : State × MCmd := (r.1, { m with started := true, flags := r.2 })
  match m.instr with
  | .mls _ west i4 _ _ stride => go (runMls s c m west i4 stride.toNat, 0)
  | .mrot _ za i4 _ d load => go (runMrot s c m za i4 d.toNat (load.map fun l => l.2.toNat))
  | .mst _ int clr x rm _ _ b m1 stride => go (runMst s c m int clr x rm b.toNat (m1.toNat + 1) stride.toNat)
  | .mzero _ d n1 _ => go (modCore s c fun k => accZero k d.toNat (n1.toNat + 1), 0)
  | i => match rowsOf i with
    | some (rows, d, za, i4, _, _) => beginRows s c m rows d za i4
    | none => go (s, 0)

/-! The queue (R223, R225, R239) -/

def guardAt (k : Core) (g : GReg) : Guard := k.guards.get g.toFin
def setGuard (k : Core) (g : GReg) (v : Guard) : Core := { k with guards := k.guards.set g.toNat v g.isLt }

/-- Whether a GSET that its task issued before a command still waits to resolve the command's guard (08 R222). -/
def guardPends (k : Core) (m : MCmd) (g : GReg) : Bool :=
  (ctxOf k m.ctx).uid == m.uid && (ctxOf k m.ctx).regs.pend.any fun p => decide (p.id < m.id) && (match p.prod with
    | .gset h _ => h == g
    | _ => false)

/-- What the guard of a command at the head says: none while it is unresolved. Read true, it stays so (R239). -/
def guardSays (k : Core) (m : MCmd) : Option Bool :=
  if m.go then some true
  else match guardOf m.instr with
    | none => some true
    | some g => if guardPends k m g then none else (guardAt k g).val

/-- Read the guards of the commands at the head of a core's queue: resolved false, a command is discarded; true, it is to
execute, whatever becomes of the slot (in part DEDUCED, log 28). -/
def discardHeads (s : State) (c : Nat) : Nat → State
  | 0 => s
  | n + 1 =>
    let k := getCore s c
    match k.mq with
    | m :: r =>
      match guardSays k m with
      | some true => setCore s c { k with mq := { m with go := true } :: r }
      | some false => discardHeads (setCore s c { k with mq := r, disc := BitVec.ofNat 16 (sat 16 (k.disc.toNat + 1)) }) c n
      | none => s
    | [] => s

/-- Whether rows that a command reads through window 7 wait for operations on their region that are held (10 R271). -/
def rowsShut (s : State) (c : Nat) (m : MCmd) : Bool :=
  decide ((apOf m.base.toNat).win = 7) && regionsShut s [.plast c (wdRegion m.wd7) 0 []] none

/-- Whether a task awaits the latch or the tile of its last MROT (R225, R233, 15 R334). -/
def awaitsRotation (s : State) (c n uid : Nat) : Bool :=
  let cl := getCluster s (clusterOf c)
  posOf c == 0 && (cl.needLatch || cl.needTile) && cl.rotFor == some (n, uid)

/-- Whether the head command of a core's client is able to start (R225); a client that a PREEMPT has stopped is no candidate
(R226, 17 R376). A FENCEE or an acquire before the command holds it (08 R222). -/
def ableToStart (s : State) (c : Nat) : Bool :=
  let k := getCore s c
  match k.client, k.mq with
  | some n, m :: _ =>
    !m.started && !(ctxOf k n).frozen && !(ctxOf k n).stopping && (guardSays k m).isSome && !awaitsRotation s c m.ctx m.uid &&
      !engineHeld s c m.ctx m.uid m.id && !rowsShut s c m
  | _, _ => false

/-- Whether the array executes a command. -/
def arrayBusy (s : State) (k : Nat) : Bool :=
  (clusterCores k).any fun c => (getCore s c).mq.any (·.started)

/-- Grant a run when none is in force: the highest effective priority, ties to the first position after the last holder
(R225). -/
def grantRun (s : State) (k : Nat) : State :=
  let cl := getCluster s k
  match cl.run with
  | some _ => s
  | none =>
    let turn := (List.range 4).map fun i => (cl.last + 1 + i) % 4
    let able := turn.filter fun p => ableToStart s (clusterCore k p)
    let prio (p : Nat) : Nat :=
      let c := getCore s (clusterCore k p)
      effPrio (ctxOf c (c.client.getD 0))
    match able with
    | [] => s
    | p :: r =>
      let best := r.foldl (fun b p => if prio b < prio p then p else b) p
      modCluster s k fun x => { x with run := some { pos := best, count := 0, idle := 0 } }

/-- Whether the holder of a run at a core has a command that is able to start, or that the array executes. -/
def runWorks (s : State) (c : Nat) : Bool := ableToStart s c || (getCore s c).mq.any (·.started)

/-- A core cycle of the holder of a cluster's run begins: how many there have been on end with nothing able to start (R225). -/
def countRun (s : State) (k : Nat) : State :=
  match (getCluster s k).run with
  | none => s
  | some r => modCluster s k fun x => { x with run := some { r with idle := if runWorks s (clusterCore k r.pos) then 0 else r.idle + 1 } }

/-- End a run whose holder has had no command able to start for 64 core cycles (R225). -/
def idleRun (s : State) (k : Nat) : State :=
  match (getCluster s k).run with
  | none => s
  | some r =>
    if runWorks s (clusterCore k r.pos) then modCluster s k fun x => { x with run := some { r with idle := 0 } }
    else if 64 ≤ r.idle then endRun s (clusterCore k r.pos)
    else s

/-- The head command of a core: discarded when its guard is false, executed when its client holds the run and the array
is free (in part DEDUCED, log 28). -/
def startHead (s : State) (c : Nat) : State :=
  let k := getCore s c
  match k.mq with
  | [] => s
  | m :: r =>
    if m.started then s
    else if guardSays k m = some false then discardHeads s c 1
    else if ableToStart s c && !arrayBusy s (clusterOf c) && !clockStopped s c &&
        ((getCluster s (clusterOf c)).run.any fun r => r.pos == posOf c) then
      let (s, m) := runCmd s c m
      modCore s c fun k => { k with mq := m :: r }
    else s

/-- The executing command of a core is over: its flags, and the count of its run. -/
def endHead (s : State) (c : Nat) (m : MCmd) (r : List MCmd) : State :=
  let s := discardHeads (engineFlags (modCore s c fun k => { k with mq := r }) c m.ctx m.uid m.flags) c 8
  match (getCluster s (clusterOf c)).run with
  | some run =>
    if run.pos = posOf c then
      if (getCluster s (clusterOf c)).lrun.toNat ≤ run.count + 1 then endRun s c
      else modCluster s (clusterOf c) fun x => { x with run := some { run with count := run.count + 1, idle := 0 } }
    else s
  | none => s

/-- The executing command of a core goes on: the next row of an MMA or MMAG (R242); with nothing left it is over (in part
DEDUCED, log 28). -/
def completeHead (s : State) (c : Nat) : State :=
  match (getCore s c).mq with
  | [] => s
  | m :: r =>
    if !m.started || clockStopped s c then s
    else match rowsOf m.instr with
      | some (rows, d, _, i4, stride, nrow) =>
        if m.row < rows then
          if rowsShut s c m then s else
          let (s, m) := nextRow s c m d i4 stride nrow
          modCore s c fun k => { k with mq := m :: r }
        else endHead s c m r
      | none => endHead s c m r

/-- A latch (tile = false) or a stationary tile arrives and replaces the local one, once the multiply that sent the local
one is over (R233). -/
def rotationArrive (s : State) (k : Nat) (tile : Bool) : State :=
  let cl := getCluster s k
  let c := clusterCore k 0
  let who := (cl.rotFor.filter fun w => (getCtx s c w.1).uid == w.2).map fun w => getCtx s c w.1
  let gen := who.elim 0 fun x => x.gen.toNat
  let mine (l : List (Nat × MTile)) : Option MTile := (l.find? fun e => e.1 == gen).map (·.2)
  let rest (l : List (Nat × MTile)) : List (Nat × MTile) := l.eraseP fun e => e.1 == gen
  let busy := (getCore s c).mq.any (·.started)
  if busy || who.isNone then s
  else if tile then
    match mine cl.linkTile with
    | some t =>
      if cl.needTile then
        modCore (modCluster s k fun x => { x with linkTile := rest x.linkTile, needTile := false }) c fun y => { y with stat := t }
      else s
    | none => s
  else
    match mine cl.linkLatch with
    | some t =>
      if cl.needLatch then modCluster s k fun x => { x with linkLatch := rest x.linkLatch, needLatch := false, latch := t } else s
    | none => s

def clusterStep (s : State) (f : State → Nat → State) : Out :=
  if s.arg.i < 4096 then .next (f s s.arg.i) else .fault (.noSuchUnit s.arg.i)
def stratumCoreStep (s : State) (f : State → Nat → State) : Out :=
  if s.arg.i < 0x4000 then .next (f s s.arg.i) else .fault (.noSuchCore s.arg.i)

/-- MATRIX_RUN_GRANT (R225): operand i the cluster. -/
def execMatrixRunGrant (s : State) : Out := clusterStep s grantRun

/-- MATRIX_RUN_IDLE_TIMEOUT (R225): operand i the cluster. -/
def execMatrixRunIdleTimeout (s : State) : Out := clusterStep s idleRun

/-- MATRIX_COMMAND_START (R239): operand i the core. -/
def execMatrixCommandStart (s : State) : Out := stratumCoreStep s startHead

/-- MATRIX_COMMAND_COMPLETE (R223, R225): operand i the core. -/
def execMatrixCommandComplete (s : State) : Out := stratumCoreStep s completeHead

/-- ROTATION_ARRIVAL (R233): operand i the cluster; b: a stationary tile, else a latch. -/
def execRotationArrival (s : State) : Out := clusterStep s fun s k => rotationArrive s k s.arg.b

/-! Lease -/

/-- Commands of a context on guards and the lease that a FENCEE holds (08 R222). -/
def guardTurns (r : Regs) : Bool := r.pend.any fun p => isGuardTurn p.prod

/-- Whether such a command that issues now has to wait for its turn: held by a FENCEE itself, or behind one that is. -/
def commandTurn (s : State) : Bool :=
  fenceeHeld s (myId s) (myN s) (me s).uid s.serial || guardTurns (myRegs s)

/-- The issuer is the client, once its MLEASEs and MRELs that wait for their turn have acted. -/
def isClient (s : State) : Bool :=
  (myRegs s).pend.foldl (fun b p => match p.prod with
    | .mlease => true
    | .mrel => false
    | _ => b) ((myCore s).client == some (myN s))

/-- The issuer owns a guard slot, once its GCLRs and GCLR.Rs that wait for their turn have acted. -/
def ownsGuard (s : State) (g : GReg) : Bool :=
  (myRegs s).pend.foldl (fun b p => match p.prod with
    | .gclr h => b || h == g
    | .gfree h => b && h != g
    | _ => b) ((guardAt (myCore s) g).owner == some (myN s))

/-- MLEASE (R223); one that a FENCEE holds takes its turn (08 R222). -/
def execMlease (c : Cond) (s : State) : Out :=
  .next (issue (.mlease c) s fun s =>
    if commandTurn s then .go (takeTurn s .mlease)
    else match (myCore s).client with
      | none => .go (modMyCore s fun k => { k with client := some (myN s) })
      | some n => if n = myN s then .go s else .hold)

/-- Whether MREL and DONE wait: for commands of the client, and for the arrivals of its last rotation (R224, 15 R334). -/
def leaseBusy (s : State) (c : Nat) : Bool :=
  !(getCore s c).mq.isEmpty || (getCore s c).client.any fun n => awaitsRotation s c n (getCtx s c n).uid

/-- End the client's status and its run. -/
def releaseLease (s : State) (c : Nat) : State := endRun (modCore s c fun k => { k with client := none }) c

/-- MREL (R224); one that a FENCEE holds takes its turn (08 R222). A context that is not the client has nothing to release (in
part DEDUCED, log 28). -/
def execMrel (c : Cond) (s : State) : Out :=
  .next (issue (.mrel c) s fun s =>
    if !isClient s then .go s
    else if commandTurn s then .go (takeTurn s .mrel)
    else if !runsAhead s && leaseBusy s (myId s) then .hold
    else .go (releaseLease s (myId s)))

/-! Array commands at issue -/

/-- The issuer is the client and owns the slot of the guard (R223, R238). -/
def mayCommand (s : State) (i : Instr) : Bool :=
  isClient s && (match guardOf i with
    | none => true
    | some g => ownsGuard s g)

def tilesExist (s : State) (d n : Nat) : Bool := decide (d + n ≤ pwAcc (myCore s).pword)

def isArray : Prod → Bool
  | .array _ => true
  | _ => false

/-- The issuer's array commands that are queued or executing, those among them that wait behind its MLEASE or GCLR. -/
def arrayCommands (s : State) : Nat :=
  (if (myCore s).client = some (myN s) then (myCore s).mq.length else 0) +
    ((myRegs s).pend.filter fun p => isArray p.prod).length

/-- Whether an array command has to keep its order behind an MLEASE, a GCLR or an array command that waits for its turn. -/
def arrayTurn (r : Regs) : Bool := r.pend.any fun p => match p.prod with
  | .mlease => true
  | .gclr _ => true
  | p => isArray p

/-- An array command enters the queue of its core; at its head the guard is read at once. -/
def queueArray (s : State) (c : Nat) (m : MCmd) : State :=
  discardHeads (modCore s c fun k => { k with mq := k.mq ++ [m] }) c 8

/-- Enter the queue once there is room. The context is ready meanwhile, also where 15 R334 says of a command that waits for a
rotation's arrival that it is not: it waits in the queue, as 09 R225 has it (DESIGN CHOICE, log 28). -/
def enqueue (s : State) (i : Instr) (base : Word) (idx : List (BitVec 32)) : Act :=
  if 8 ≤ arrayCommands s then .hold
  else
    let x := me s
    let m : MCmd := { id := s.serial, ctx := myN s, uid := x.uid, instr := i, base, idx, wd5 := x.regs.wd5,
                      wd6 := x.regs.wd6, wd7 := x.regs.wd7, go := false, started := false, row := 0, flags := 0 }
    .go (if arrayTurn x.regs then takeTurn s (.array m) else queueArray { s with serial := s.serial + 1 } (myId s) m)

/-- The body of an array command: who may issue it and which tiles it names, its operand, its place in the queue (in part DEDUCED, log 28). -/
def arrayBody (i : Instr) (ok : State → Bool) (base : State → Word) (check : State → Option Trap) (s : State) : Act :=
  if !mayCommand s i || !ok s then .trap s tILLEGAL
  else match check s with
    | some t => .trap s t
    | none => enqueue s i (base s) []

/-- The check of an operand of A: rows of mfK elements. -/
def rowsCheck (i4 : Bool) (rows stride : Nat) (a : Nat) (s : State) : Option Trap :=
  let q := issuer s
  let w := (apOf a).win
  let k := mfK (mfOf q w i4)
  operandCheck s q a stride rows (opSpan w i4 k) (i4Class w i4) (some k)

def mlsCheck (west i4 : Bool) (stride a : Nat) (s : State) : Option Trap :=
  let q := issuer s
  let w := (apOf a).win
  let k := mfK (mfOf q w i4)
  if west then rowsCheck i4 64 stride a s
  else
    operandCheck s q a stride k (opSpan w i4 64) ((i4Class w i4).orElse fun _ =>
      if w = 5 ∨ w = 6 then some tILLEGAL else none) none

/-- MLS (R230). -/
def execMls (c : Cond) (west i4 : Bool) (g : Option GReg) (a : SSrc) (stride : BitVec 32) (s : State) : Out :=
  .next (issue (.mls c west i4 g a stride) s
    (arrayBody (.mls c west i4 g a stride) (fun _ => true) (fun s => sv s a)
      fun s => mlsCheck west i4 stride.toNat (sv s a).toNat s))

def rowsOk (m1 : BitVec 9) : Bool := decide (m1.toNat ≤ 255)

/-- MMA (R231). -/
def execMma (c : Cond) (za i4 : Bool) (g : Option GReg) (d : AReg) (a : SSrc) (m1 : BitVec 9) (stride : BitVec 32)
    (s : State) : Out :=
  .next (issue (.mma c za i4 g d a m1 stride) s
    (arrayBody (.mma c za i4 g d a m1 stride) (fun s => rowsOk m1 && tilesExist s d.toNat (tilesOf (m1.toNat + 1)))
      (fun s => sv s a) fun s => rowsCheck i4 (m1.toNat + 1) stride.toNat (sv s a).toNat s))

/-- MMAG (R231): its rows are checked when they are gathered; it pops its index entries at issue, once they are there and
the queue has room (in part DEDUCED, log 28). -/
def execMmag (c : Cond) (za i4 : Bool) (g : Option GReg) (d : AReg) (a : SSrc) (f : FReg) (nrow : BitVec 24)
    (m1 : BitVec 9) (stride : BitVec 32) (s : State) : Out :=
  let i : Instr := .mmag c za i4 g d a f nrow m1 stride
  .next (issue i s fun s =>
    let n := tilesOf (m1.toNat + 1)
    if !mayCommand s i || !rowsOk m1 || !tilesExist s d.toNat n then .trap s tILLEGAL
    else match rowsCheck i4 0 stride.toNat (sv s a).toNat s with
      | some t => .trap s t
      | none =>
        let es := (rdF (myRegs s) f).take n
        if es.length < n ∨ 8 ≤ arrayCommands s then .hold
        else
          let idx := (es.flatMap fun e => (List.range 64).map (lane e)).take (m1.toNat + 1)
          let base := sv s a
          enqueue (modRegs s fun r => (List.range n).foldl (fun r _ => fifoPop r f) r) i base idx)

/-- Whether the issuer may rotate: the member at position 0 of a gang with a rotation route (R232). -/
def mayRotate (s : State) : Bool :=
  let x := me s
  x.member && posOf (myId s) == 0 &&
    (match gangOf s (myId s) x with
      | none => false
      | some g => dRot g.desc != 0)

/-- MROT (R232, R233). -/
def execMrot (c : Cond) (za i4 : Bool) (g : Option GReg) (d : AReg) (load : Option (SSrc × BitVec 32)) (s : State) :
    Out :=
  .next (issue (.mrot c za i4 g d load) s
    (arrayBody (.mrot c za i4 g d load) (fun s => mayRotate s && tilesExist s d.toNat 1)
      (fun s => load.elim 0 fun l => sv s l.1) fun s => match load with
        | none => none
        | some l => rowsCheck i4 64 l.2.toNat (sv s l.1).toNat s))

def mstCheck (x : Bool) (rows stride a : Nat) (s : State) : Option Trap :=
  let q := issuer s
  let w := (apOf a).win
  operandCheck s q a stride rows (64 * winUnit w)
    (if w = 7 then some (mkTrap 0x09 a) else if x && decide (5 ≤ w) then some tILLEGAL else none) none

/-- MST (R234). -/
def execMst (c : Cond) (int clr xs1 : Bool) (rm : RMode) (g : Option GReg) (a : SSrc) (b : AReg) (m1 : BitVec 9)
    (stride : BitVec 32) (s : State) : Out :=
  .next (issue (.mst c int clr xs1 rm g a b m1 stride) s
    (arrayBody (.mst c int clr xs1 rm g a b m1 stride)
      (fun s => rowsOk m1 && tilesExist s b.toNat (tilesOf (m1.toNat + 1))) (fun s => sv s a)
      fun s => mstCheck xs1 (m1.toNat + 1) stride.toNat (sv s a).toNat s))

/-- MZERO (R235). -/
def execMzero (c : Cond) (d : AReg) (n1 : BitVec 4) (form : MzForm) (s : State) : Out :=
  .next (issue (.mzero c d n1 form) s
    (arrayBody (.mzero c d n1 form) (fun s => tilesExist s d.toNat (n1.toNat + 1)) (fun _ => 0) fun _ => none))

/-! MLDT (R236, R237) -/

/-- The class of the source. -/
def mldtSource (a : Nat) : Bool :=
  match apOf a with
  | .glob => true
  | .loc 0 _ => true
  | .remote _ 0 _ => true
  | .mirror _ => true
  | _ => false

def mldtRow (a stride r : Nat) : Nat := (a + r * stride) % 2 ^ 64

/-- The destination offset of byte i of source row r. -/
def mldtDst (b8 ns : Bool) (o r i : Nat) : Nat :=
  swz (!ns) (if b8 then o + i * 64 + r else o + i / 2 * 128 + 2 * r + i % 2)

/-- The class of a source row (R236; 04 Table 4.2). -/
def mldtClass (s : State) (q : Issuer) (row : Nat) : Option Trap :=
  if mldtSource row then chkClass s q .ld 128 false false row else some (tAPERTURE row)

/-- What MLDT checks before its rows, in the order of 04 R95 with the row at its cursor; through windows 5 to 7 there is no
swizzle (04 R109). -/
def mldtCheck (s : State) (q : Issuer) (ns : Bool) (d a stride cur : Nat) : Option Trap :=
  match apOf d with
  | .loc 0 o =>
    let row := mldtRow a stride cur
    (chkMember 128 row).orElse fun _ => (mldtClass s q row).orElse fun _ =>
      (if coreSp s q.core < o + 8192 then some (tAPERTURE d) else none).orElse fun _ =>
      (chkRange s q .ld 128 row).orElse fun _ =>
      if o % 256 ≠ 0 then some (tMISALIGNED d) else if a % 8 ≠ 0 ∨ stride % 8 ≠ 0 then some (tMISALIGNED a) else none
  | ap => if !ns && decide (5 ≤ ap.win) then some tILLEGAL else some (tAPERTURE d)

/-- The places of the bytes of the rows of a unit, in ascending order: the first failure ends them. A row that the stride
carries into another aperture raises APERTURE. -/
def mldtReads (q : Issuer) (a stride : Nat) : List Nat → State → State × Except Fail (List (Nat × List Place))
  | [], s => (s, .ok [])
  | r :: rs, s =>
    if !mldtSource (mldtRow a stride r) then (s, .error (.trap (tAPERTURE (mldtRow a stride r))))
    else match resolve s q .ld 128 false false [(0, mldtRow a stride r)] with
    | (s, .ok [(_, .els els)]) =>
      match mldtReads q a stride rs s with
      | (s, .ok l) => (s, .ok ((r, els.flatMap elPlaces) :: l))
      | (s, .error e) => (s, .error e)
    | (s, .ok _) => (s, .error (.trap (tAPERTURE (mldtRow a stride r))))
    | (s, .error e) => (s, .error e)

/-- Units from row r0 on: the state with the rows done, and the failure that stops it. -/
def mldtUnits (q : Issuer) (b8 ns : Bool) (o a stride : Nat) : Nat → Nat → State → State × Option Fail
  | 0, _, s => (modRegs s fun r => { r with mldtCur := 0 }, none)
  | n + 1, r0, s =>
    if 64 ≤ r0 then (modRegs s fun r => { r with mldtCur := 0 }, none)
    else
      let u := if b8 then 8 else 4
      match mldtReads q a stride ((List.range u).map (r0 + ·)) s with
      | (s, .error e) => (modRegs s fun r => { r with mldtCur := r0 }, some e)
      | (s, .ok rows) =>
        let s := touch s (partOf s q.core) (rows.flatMap (·.2))
        let ws := rows.flatMap fun row => ((List.range 128).zip row.2).map fun p =>
          (Place.pool q.core (mldtDst b8 ns o row.1 p.1), readPlace s p.2)
        mldtUnits q b8 ns o a stride n (r0 + u) (writeFull s ws)

/-- The instruction's own faulting pages: those of every source row from CUR on (19 R396). -/
def mldtPages (s : State) (q : Issuer) (a stride cur : Nat) : State × List Word :=
  let rows := (List.range (64 - cur)).flatMap fun i =>
    let row := mldtRow a stride (cur + i)
    if apOf row = .glob then pieces row 128 else []
  let (s, ts) := transPieces q.core q.priv true .read rows s
  (s, onePerPage (ts.filterMap fun t => match t.2.2 with
    | .fault k l => some (batchEntry t.1 k l false false)
    | _ => none))

/-- The destination words of units at or beyond CUR (19 R396). -/
def mldtSpans (s : State) (b8 ns : Bool) (d : Nat) : List (Nat × Nat) :=
  match apOf d with
  | .loc 0 o =>
    let u := if b8 then 8 else 4
    let cur := (myRegs s).mldtCur
    (List.range ((64 - cur) / u)).flatMap fun j =>
      (List.range (if b8 then 128 else 64)).map fun c =>
        poolSpan (myId s) (mldtDst b8 ns o (cur + j * u) (if b8 then c else 2 * c) / 8 * 8) 8
  | _ => []

/-- Whether a row from CUR on lies in a scratchpad of another stratum whose clock stands still (01 R26). -/
def mldtStopped (s : State) (q : Issuer) (a stride cur : Nat) : Bool :=
  (List.range (64 - cur)).any fun i => match apOf (mldtRow a stride (cur + i)) with
    | .remote t .. => awayStopped s q.core t
    | _ => false

/-- The body of MLDT; in run-ahead its rows are translated only. -/
def mldtBody (b8 ns : Bool) (d a stride : Nat) (s : State) : Act :=
  let q := issuer s
  match mldtCheck s q ns d a stride (myRegs s).mldtCur with
  | some t => .trap s t
  | none =>
    let cur := (myRegs s).mldtCur
    if q.ahead then
      let (s, ps) := mldtPages s q a stride cur
      if ps.isEmpty then .go s else .trap s { mkTrap 0x07 0 with pages := ps }
    else if mldtStopped s q a stride cur then .hold
    else match mldtUnits q b8 ns (localOff d) a stride 16 cur s with
      | (s, none) => .go s
      | (s, some .unplaced) => .unplaced s
      | (s, some (.trap t)) =>
        if t.cause = 7 then
          let (s, ps) := mldtPages s q a stride (myRegs s).mldtCur
          .trap s { t with pages := onePerPage (t.pages ++ ps) }
        else .trap s t

/-- The state at the fault of an MLDT, if it faults: its cursor says which destination words are unwritten (19 R396). -/
def mldtAfter (b8 ns : Bool) (d a stride : Nat) (s : State) : State :=
  match mldtBody b8 ns d a stride s with
  | .trap s' _ => s'
  | _ => s

/-- MLDT (R236, R237). -/
def execMldt (c : Cond) (b8 ns : Bool) (a b : SSrc) (stride : BitVec 32) (s : State) : Out :=
  .next (issueWith (.mldt c b8 ns a b stride) s []
    (mldtSpans (mldtAfter b8 ns (sv s a).toNat (sv s b).toNat stride.toNat s) b8 ns (sv s a).toNat)
    (mldtBody b8 ns (sv s a).toNat (sv s b).toNat stride.toNat))

/-! Status and guards (R238 to R241) -/

def mstatWord (s : State) (c n : Nat) : Word :=
  let k := getCore s c
  let own := k.client == some n
  let hold := own && ((getCluster s (clusterOf c)).run.any fun r => r.pos == posOf c)
  word (k.disc.toNat * 2 ^ 32 + k.zrow.toNat * 2 ^ 16 + k.refused.toNat * 256 + b2n k.iovf * 128 + b2n hold * 64 +
    b2n own * 32 + (if own then k.mq.length else 0))

/-- The array receives an MSTAT of a context: the status word as it stands, with C the counters cleared in the same step. -/
def readMstat (s : State) (c n : Nat) (clr : Bool) : State × Word :=
  (if clr then modCore s c fun k => { k with disc := 0, zrow := 0, refused := 0, iovf := false } else s, mstatWord s c n)

/-- MSTAT (R240); one that a FENCEE holds takes its turn (08 R222). -/
def execMstat (c : Cond) (clr : Bool) (d : SReg) (s : State) : Out :=
  .next (issue (.mstat c clr d) s fun s =>
    if !runsAhead s && commandTurn s then .go (produce s (.s d) (.mstat clr))
    else
      let r := readMstat s (myId s) (myN s) clr
      .go (produceVal r.1 (.s d) (.s r.2) 0))

def gsetValue (s : State) : GsetVal → Bool
  | .q a => qv s a
  | .imm v => v

/-- A slot is resolved, and the commands at the head read it (R239). -/
def resolveGuard (s : State) (c : Nat) (g : GReg) (v : Bool) : State :=
  discardHeads (modCore s c fun k => setGuard k g { guardAt k g with val := some v }) c 8

/-- GSET (R238); one that a FENCEE holds takes its turn (08 R222). -/
def execGset (c : Cond) (g : GReg) (v : GsetVal) (s : State) : Out :=
  .next (issue (.gset c g v) s fun s =>
    if !ownsGuard s g then .trap s tILLEGAL
    else if commandTurn s then .go (takeTurn s (.gset g (gsetValue s v)))
    else .go (resolveGuard s (myId s) g (gsetValue s v)))

/-- A guard slot is taken: owned, and unresolved. -/
def takeGuard (s : State) (c n : Nat) (g : GReg) : State :=
  modCore s c fun k => setGuard k g { owner := some n, val := none }

/-- GCLR (R238); one that a FENCEE holds takes its turn (08 R222). -/
def execGclr (c : Cond) (g : GReg) (s : State) : Out :=
  .next (issue (.gclr c g) s fun s =>
    if commandTurn s then .go (takeTurn s (.gclr g))
    else match (guardAt (myCore s) g).owner with
      | none => .go (takeGuard s (myId s) (myN s) g)
      | some n => if n = myN s then .go (takeGuard s (myId s) n g) else .hold)

/-- A slot set free: still unresolved, it is resolved false first. -/
def releaseGuard (k : Core) (g : GReg) : Core :=
  setGuard k g { owner := none, val := some ((guardAt k g).val.getD false) }

/-- A slot of a core is released. -/
def freeGuard (s : State) (c : Nat) (g : GReg) : State := discardHeads (modCore s c fun k => releaseGuard k g) c 8

/-- GCLR.R (R238); one that a FENCEE holds takes its turn (08 R222). -/
def execGclrR (c : Cond) (g : GReg) (s : State) : Out :=
  .next (issue (.gclrR c g) s fun s =>
    if !ownsGuard s g then .trap s tILLEGAL
    else if commandTurn s then .go (takeTurn s (.gfree g))
    else .go (freeGuard s (myId s) g))

/-- MWAIT (R241). A FENCEE has nothing of it to hold: it reads and writes no memory, and the commands that it waits for are
held themselves (08 R222) (DEDUCED, log 38). -/
def execMwait (c : Cond) (n : BitVec 4) (s : State) : Out :=
  .next (issue (.mwait c n) s fun s =>
    if 8 < n.toNat then .trap s tILLEGAL
    else if n.toNat < arrayCommands s then .hold
    else .go s)

end Sys2Proof.Machine
end

