-- ==== Sys2Proof/Machine/Finish.lean ====
section
/-! DEFINITION. The end of a task (07 R168): DONE, and what it shares with the end of a killed member. -/

namespace Sys2Proof.Machine

/-- Perform every private store of a context that is still on its way (04 R97). -/
def flushOverflow (s : State) (c n : Nat) : State :=
  (getCtx s c n).fwd.foldl (fun s _ => performOldest s c n) s

/-- Write the result of a producer: its destination is FULL in the same step. -/
def putResult (r : Regs) (p : Pending) (x : Res) (f : FFlags) : Regs :=
  if r.pend.any fun q => q.id == p.id then
    let r := markDest (wrRes r p.dest x) p.dest false
    { r with fstat := r.fstat ||| f, pend := r.pend.filter fun q => q.id != p.id }
  else r

/-- Do something for a context as though it were the running one. -/
def actFor (s : State) (c n : Nat) (f : State → State) : State :=
  { f { s with cur := (c, n) } with cur := s.cur }

/-- Do something for a task whose registers are x as though it stood in its slot: what stands there now is untouched. The task
afterwards comes beside the state. -/
def standIn (s : State) (c n : Nat) (x : Ctx) (f : State → State) : State × Ctx :=
  let t := f (modCtx s c n fun _ => x)
  (modCore t c fun k => { k with ctxs := mset k.ctxs n (getCtx s c n) }, getCtx t c n)

/-! An access in its turn walks the page tables again, since its walk follows every earlier instruction of its context (18 R383) -/

/-- Places with the physical addresses of their translated bytes replaced, in order. -/
def relocate : List Place → List Nat → List Place
  | .hbm _ :: r, a :: as => .hbm a :: relocate r as
  | .fwd c n _ :: r, a :: as => .fwd c n a :: relocate r as
  | p :: r, as => p :: relocate r as
  | [], _ => []

def movedEl (new : List (Nat × List Nat)) (lane : Nat) (e : El) : El :=
  match e, new.find? fun l => l.1 == lane with
  | .raw ps, some l => .raw (relocate ps l.2)
  | e, _ => e

def movedProd (new : List (Nat × List Nat)) : Prod → Prod
  | .read plan => .read { plan with els := plan.els.map fun e => (e.1, movedEl new e.1 e.2) }
  | .put kind addr els v rel => .put kind addr (els.map (movedEl new 0)) v rel
  | .scatter as els v => .scatter as (els.map fun e => (e.1, movedEl new e.1 e.2)) v
  | p => p

/-- The physical addresses that the lanes' ranges have now; none: one of them does not translate. -/
def rewalk (part priv : Nat) (k : AK) : List (Nat × List (Nat × Nat)) → State → State × Option (List (Nat × List Nat))
  | [], s => (s, some [])
  | l :: r, s =>
    let (s, ts) := partPieces part priv k l.2 s
    if (firstFault ts).isSome then (s, none)
    else
      let (s, rest) := rewalk part priv k r s
      (s, rest.map fun m => (l.1, pasOf ts) :: m)

/-- A producer as the walks for an access of kind k place it now. -/
def renewedBy (k : AK) (s : State) (c : Nat) (p : Pending) : State × Option Pending :=
  let r := rewalk (partOf s c) p.priv k p.walks s
  (r.1, r.2.map fun new => { p with prod := movedProd new p.prod })

/-- A producer as the page tables place its access now; none: a page of it does not translate any more. -/
def renewed (s : State) (c : Nat) (p : Pending) : State × Option Pending :=
  match p.prod with
  | .read _ => renewedBy .read s c p
  | .put .. => renewedBy .write s c p
  | .scatter .. => renewedBy .write s c p
  | _ => (s, some p)

/-! A task that has ended leaves its pool to others, whose partition word may put other parts where its stores were to go (01
R35, R37) -/

/-- Whether pool bytes of an access at an address are still what they were: below the scratchpad size, or at their place in the
share of the context. -/
def stillThere (s : State) (n addr : Nat) (ps : List Place) : Bool :=
  ps.zipIdx.all fun p => match p.1 with
    | .pool t off =>
      (match apOf addr with
        | .priv o => decide (off = spillBase (getCore s t).pword + n * shareOf (getCore s t).pword + o + p.2) &&
            decide (o + p.2 < shareOf (getCore s t).pword)
        | .remote .. => true
        | _ => decide (off < coreSp s t))
    | _ => true

/-- The record of a store in its turn that is discarded: as for a posted store (04 R102), which R37 and R383 do not give
(DESIGN CHOICE, log 38). -/
def turnRecord (s : State) (c n addr status : Nat) : State := ctxRecord s c n 12 status 0 0 addr 0

/-- The lanes of a vector store that may be performed, and the addresses of the others. -/
def lanesThere (s : State) (n : Nat) (as : List (Nat × Nat)) (els : List (Nat × El)) : List (Nat × El) × List Nat :=
  let out := as.filter fun l => !stillThere s n l.2 ((els.filter fun e => e.1 == l.1).flatMap fun e => elPlaces e.2)
  (els.filter fun e => !out.any fun l => l.1 == e.1, out.map (·.2))

/-- The address that a store in its turn begins at. -/
def turnAddr : Prod → Nat
  | .put _ addr .. => addr
  | .scatter as .. => (as.map (·.2)).headD 0
  | _ => 0

/-- Perform an access or an engine command whose turn has come; a request with a result goes on as the producer that its answer completes. -/
def performTurn (s : State) (c n : Nat) (p : Pending) : State :=
  let gone (s : State) (f : FFlags) : State := modBoth s c n fun r => putResult r p (.s 0) f
  match p.prod with
  | .put kind addr els v _ =>
    if stillThere s n addr (els.flatMap elPlaces) then
      let w := elsStore s els v
      gone (actFor s c n fun s => putStore s kind addr (lastWrites w.1)) w.2
    else gone (turnRecord s c n addr 3) 0
  | .scatter as els v =>
    let l := lanesThere s n as els
    let r := putLanes { s with cur := (c, n) } as l.1 v
    gone (l.2.foldl (fun s a => turnRecord s c n a 3) { r.1 with cur := s.cur }) r.2
  | .clear ws => gone (actFor s c n fun s => emptyWords s (ws.filter fun w => decide (8 * w < coreSp s c))) 0
  | .device off (some v) =>
    gone (actFor s c n fun s => match devStore s (whoMe s) off 8 v with
      | .ok t => t
      | .error _ => s) 0
  | .request off op _ =>
    if p.dest = .s 0 then actFor (gone s 0) c n fun s => seQueue s p.id off none op
    else
      let s := modBoth s c n fun r => { r with pend := r.pend.map fun q => if q.id = p.id then { q with prod := .arrives } else q }
      actFor s c n fun s => seQueue s p.id off (some p.id) op
  | .trhz sel k clr =>
    let r := trhzRead s c sel k clr
    modBoth r.1 c n fun x => putResult x p (.s r.2) 0
  | .bsend t slot dest index priv => gone (actFor s c n fun s => match etFmt t with
    | some f => sendSlot s f priv.toNat slot.toNat dest.toNat index
    | none => s) 0
  | .bqdone bq => gone (actFor s c n fun s => closeQueue s bq) 0
  | .gset g v => gone (if (guardAt (getCore s c) g).owner = some n then resolveGuard s c g v else s) 0
  | .gfree g => gone (if (guardAt (getCore s c) g).owner = some n then freeGuard s c g else s) 0
  | .mrel => gone (if (getCore s c).client = some n then releaseLease s c else s) 0
  | .mlease => gone (modCore s c fun k => { k with client := some n }) 0
  | .gclr g => gone (takeGuard s c n g) 0
  | .array m => gone (queueArray s c m) 0
  | .mstat clr =>
    let r := readMstat s c n clr
    modBoth r.1 c n fun x => putResult x p (.s r.2) 0
  | .bara tag => gone (arriveAt s c n tag) 0
  | .flowsig job flow ctr => gone (signalFlow s c job flow ctr) 0
  | _ => s

/-- What is performed although the LDSY or VLDSY before it is withdrawn: stores, signals, and commands that no record of 16
Table 16.5 reports; a task that ends takes neither lease nor guard, and its array commands are reported. -/
def outlives : Prod → Bool
  | .mlease => false
  | .gclr _ => false
  | .array _ => false
  | .bsend .. => true
  | .bqdone _ => true
  | .flowsig .. => true
  | p => turnWrites p || isGuardTurn p

/-- Perform it at the end of its task: a store whose page does not translate any more is reported. -/
def performLast (s : State) (c n : Nat) (p : Pending) : State :=
  match renewed s c p with
  | (s, some p) => performTurn s c n p
  | (s, none) => modBoth (turnRecord s c n (turnAddr p.prod) 1) c n fun r => putResult r p (.s 0) 0

/-- The stores and commands behind an LDSY or VLDSY that its task's end withdraws are performed (07 R168, 16 R347). -/
def flushTurns (s : State) (c n : Nat) (ps : List Pending) : State :=
  (ps.filter fun p => outlives p.prod).foldl (fun s p => performLast s c n p) s

/-- Release every guard slot that a context owns; the commands held behind them go (07 R168). -/
def releaseGuards (s : State) (c n : Nat) : State :=
  let own (k : Core) : List GReg := ((List.range 8).map (BitVec.ofNat 3)).filter fun g => (guardAt k g).owner == some n
  discardHeads (modCore s c fun k => (own k).foldl releaseGuard k) c 8

def ownsGuards (k : Core) (n : Nat) : Bool := k.guards.toList.any fun g => g.owner == some n

/-- Count a member as arrived at every later phase of its gang (02 R46). -/
def memberDone (s : State) (c : Nat) (x : Ctx) : State :=
  match (if x.member then gangOf s c x else none) with
  | none => s
  | some g =>
    let p := partOf s c
    let s := signalAll (modGang s p g.id fun g => modMember g c fun m => { m with done := true }) p g.id
    if (findGang s p g.id).elim false gangOver then
      { s with agenda := ⟨.gangCompletion, { StepArg.none with i := p, j := g.id }⟩ :: s.agenda }
    else s

/-- Free a context: its FIFOs and streams go, later results and answers of peers find no task. -/
def freeCtxSlot (s : State) (c n : Nat) : State :=
  let uid := (getCtx s c n).uid
  modCtx { s with brought := s.brought.filter fun b => b.1 != .instr c n uid } c n fun x =>
    { x with resident := false, uid := 0, block := none, frozen := false, freezing := false, stopping := false, yielding := false, await := none,
             ra := none, replay := none, landing := none, init := none,
             regs := { x.regs with f := Vector.replicate 4 [], fPush := Vector.replicate 4 [],
                                   x := Vector.replicate 4 Stream.idle, pend := [] } }

/-- What of a task that has executed DONE is still to be performed in its turn. -/
def leftOver (x : Ctx) : List Pending := x.regs.pend.filter fun p => isTurn p.prod || isCommandTurn p.prod

/-- What a task leaves: accesses that follow an LDSY, an acquire or a FENCEE, and what its held engine commands wait for, are
performed after DONE as though it continued (R168). -/
def keepEnded (s : State) (c n : Nat) : State :=
  let x := getCtx s c n
  if (leftOver x).isEmpty && !commandsHeld s c n x.uid then s
  else modCore s c fun k =>
    { k with ended := mset k.ended (8 * x.uid + n) { x with ra := none, regs := { x.regs with pend := leftOver x } } }

/-- Steps 3 to 7 of R168. -/
def finishTask (s : State) (c n : Nat) : State :=
  let s := if (getCore s c).client = some n then releaseLease s c else s
  let s := keepEnded (flushOverflow s c n) c n
  let x := getCtx s c n
  let s := match x.chan, x.landing with
    | some ch, some id => freeLanding s c ch id
    | _, _ => s
  memberDone (freeCtxSlot s c n) c x

/-- Commands of a task in the retrieval queue. -/
def retrievalOpen (k : Core) (n uid : Nat) : Bool := k.rq.any fun r => r.ctx == n && r.uid == uid

/-- Whether a BARA or FLOWSIG of a task waits for its turn. -/
def owesRelease (r : Regs) : Bool := r.pend.any fun p => match p.prod with
  | .bara _ => true
  | .flowsig .. => true
  | _ => false

/-- DONE (R168): its guards first, then the wait for its matrix and retrieval commands, then, of a gang's member, the release
of 05 Table 5.2, behind the releases before it (in part DEDUCED, log 38). What else is still in flight completes after it. -/
def execDone (c : Cond) (s : State) : Out :=
  .next (issue (.done c) s fun s =>
    let k := myCore s
    let n := myN s
    let uid := (me s).uid
    if guardTurns (myRegs s) then .hold
    else if ownsGuards k n then .stay (releaseGuards s (myId s) n)
    else if (k.client == some n && leaseBusy s (myId s)) || retrievalOpen k n uid then .hold
    else if (me s).member && (unreleased s || owesRelease (myRegs s)) then .hold
    else .stay (finishTask s (myId s) n))

end Sys2Proof.Machine
end

