-- ==== Sys2Proof/Machine/Csr.lean ====
section
/-! DEFINITION. Control registers, majors 0xE0 to 0xE3 (16 R340, R343, R344, R345, R357), ERET, TLBI, WFI, SATW and CHSET
(16 R341, R348, R349, R358 to R360), and the steps OWNTAG_WRITE, ELLOST_CLEAR and SATW_APPLY. -/

namespace Sys2Proof.Machine

/-- The control registers of 16 Table 16.2. -/
inductive Csr where
  | fstat | status | cause | epc | faddr | tvec | scratch | ovp | pword | ctxid | prio | lrun | owntag | otstc
  | elbase | elsize | elhead | eltail | ellost | elnote | ptbase | satb | part | syscore
  deriving DecidableEq, Repr

def csrOf (n : Nat) : Option Csr :=
  match n with
  | 0x001 => some .fstat
  | 0x010 => some .status
  | 0x011 => some .cause
  | 0x012 => some .epc
  | 0x013 => some .faddr
  | 0x014 => some .tvec
  | 0x015 => some .scratch
  | 0x016 => some .ovp
  | 0x017 => some .pword
  | 0x018 => some .ctxid
  | 0x019 => some .prio
  | 0x020 => some .lrun
  | 0x021 => some .owntag
  | 0x022 => some .otstc
  | 0x030 => some .elbase
  | 0x031 => some .elsize
  | 0x032 => some .elhead
  | 0x033 => some .eltail
  | 0x034 => some .ellost
  | 0x035 => some .elnote
  | 0x040 => some .ptbase
  | 0x041 => some .satb
  | 0x042 => some .part
  | 0x043 => some .syscore
  | _ => none

/-- STATUS (Table 16.1). -/
def statusOf (x : Ctx) : Word := word (b2n x.intrap * 16 + x.ppriv.toNat * 4 + x.priv.toNat)

def ctxidOf (c n : Nat) (x : Ctx) : Word := word (c + n * 65536 + x.gen.toNat * 2 ^ 32)

/-- The value of a register for the running context. -/
def csrValue (s : State) (r : Csr) : Word :=
  let c := myId s
  let k := myCore s
  let x := me s
  let p := getPart s (partOf s c)
  match r with
  | .fstat => x.regs.fstat.setWidth 64
  | .status => statusOf x
  | .cause => x.cause
  | .epc => x.epc
  | .faddr => x.faddr
  | .tvec => x.tvec
  | .scratch => x.scratch
  | .ovp => x.ovp
  | .pword => k.pword
  | .ctxid => ctxidOf c (myN s) x
  | .prio => x.prio.setWidth 64
  | .lrun => (getCluster s (clusterOf c)).lrun.setWidth 64
  | .owntag => k.ownTag.setWidth 64
  | .otstc => k.otStc
  | .elbase => k.elBase
  | .elsize => k.elSize
  | .elhead => k.elHead
  | .eltail => k.elTail
  | .ellost => k.elLost
  | .elnote => k.elNote
  | .ptbase => p.ptbase
  | .satb => p.satb.setWidth 64
  | .part => word (partOf s c)
  | .syscore => p.sysCore.setWidth 64

/-- A write of OWNTAG (R357). -/
def owntagWrite (s : State) (c : Nat) (v : Word) : State :=
  modCore s c fun k => { k with ownTag := v.setWidth 16, otStc := s.stc, ownWritten := true }

/-- A write of ELLOST: each bit written as 1 is cleared (R345). -/
def ellostClear (s : State) (c : Nat) (v : Word) : State := modCore s c fun k => { k with elLost := k.elLost &&& ~~~v }

/-! The bits that three registers hold (Table 16.2), whether CSRW or CTXLD writes them -/
def causeBits (v : Word) : Word := word (bitsOf v.toNat 23 0)
def tvecBits (v : Word) : Word := align v 5
def ovpBits (v : Word) : Word := align v 6

/-- The effect of a write on the fields that are not RO (00 Table 0.3) (in part DEDUCED, log 32). A slot count of 0 or above 256 in
SATB is stored as written (DESIGN CHOICE, log 32). -/
def csrWrite (s : State) (r : Csr) (v : Word) : State :=
  let c := myId s
  let p := partOf s c
  match r with
  | .fstat => modRegs s fun y => { y with fstat := v.setWidth 6 }
  | .status => modMe s fun x =>
      { x with intrap := v.getLsbD 4, ppriv := if v.extractLsb' 2 2 = 3 then 1 else v.extractLsb' 2 2 }
  | .cause => modMe s fun x => { x with cause := causeBits v }
  | .epc => modMe s fun x => { x with epc := v }
  | .faddr => modMe s fun x => { x with faddr := v }
  | .tvec => modMe s fun x => { x with tvec := tvecBits v }
  | .scratch => modMe s fun x => { x with scratch := v }
  | .ovp => modMe s fun x => { x with ovp := ovpBits v }
  | .prio => modMe s fun x => { x with prio := v.setWidth 8 }
  | .lrun =>
    let n := bitsOf v.toNat 6 0
    if 1 ≤ n ∧ n ≤ 64 then modCluster s (clusterOf c) fun k => { k with lrun := BitVec.ofNat 7 n } else s
  | .owntag => owntagWrite s c v
  | .elbase => modMyCore s fun k => { k with elBase := align v 12 }
  | .elsize => if v = 0 ∨ ringSizeOk v.toNat = true then modMyCore s fun k => { k with elSize := v } else s
  | .eltail => modMyCore s fun k => { k with elTail := v }
  | .ellost => ellostClear s c v
  | .elnote => modMyCore s fun k => { k with elNote := word (bitsOf v.toNat 15 0) }
  | .ptbase => modPart s p fun x => { x with ptbase := word (bitsOf v.toNat 51 20 * 2 ^ 20) }
  | .satb => modPart s p fun x => { x with satb := v.setWidth 17 }
  | .syscore => modPart s p fun x => { x with sysCore := v.setWidth 16 }
  | .pword | .ctxid | .otstc | .elhead | .part => s

/-- Registers that task privilege reads. -/
def taskReads : Csr → Bool
  | .fstat | .pword | .ctxid => true
  | _ => false

def firmwareOnly : Csr → Bool
  | .satb | .syscore => true
  | _ => false

/-- The privilege checks of R339 and R343. -/
def csrDenied (priv : Nat) (r : Csr) (wr : Bool) : Bool :=
  if priv = 0 then !(if wr then r == .fstat else taskReads r) else wr && firmwareOnly r && priv != 2

/-- An access of FSTAT observes the flags of every earlier instruction (03 R75): of loads still on their way too. -/
def flagsOpen (r : Regs) : Bool := r.pend.any fun p => match p.prod with
  | .val _ f => f != 0
  | .sync .. => true
  | .read _ => true
  | .put .. => true
  | .scatter .. => true
  | _ => false

/-- The body of the four CSR instructions: the old value goes to sD, new gives the value written, if any. -/
def csrBody (d : SReg) (n : BitVec 12) (new : Option (Word → Word)) (s : State) : Act :=
  match csrOf n.toNat with
  | none => .trap s tILLEGAL
  | some r =>
    if csrDenied (me s).priv.toNat r new.isSome then .trap s tPRIVILEGE
    else if r == .fstat && flagsOpen (myRegs s) then .hold
    else
      let old := csrValue s r
      .go (setS (match new with
        | some f => csrWrite s r (f old)
        | none => s) d old)

/-- CSRR (R344). -/
def execCsrr (c : Cond) (d : SReg) (n : BitVec 12) (s : State) : Out :=
  .next (issue (.csrr c d n) s (csrBody d n none))

/-- CSRW (R344). -/
def execCsrw (c : Cond) (d : SReg) (n : BitVec 12) (a : SSrc) (s : State) : Out :=
  .next (issue (.csrw c d n a) s fun s => csrBody d n (some fun _ => sv s a) s)

/-- CSRS (R344). -/
def execCsrs (c : Cond) (d : SReg) (n : BitVec 12) (a : SSrc) (s : State) : Out :=
  .next (issue (.csrs c d n a) s fun s => csrBody d n (some fun old => old ||| sv s a) s)

/-- CSRC (R344). It writes the old value without the bits of a whatever the register; on ELLOST, whose written ones clear (W1C),
that clears the bits that a does not name (DESIGN CHOICE, log 32). -/
def execCsrc (c : Cond) (d : SReg) (n : BitVec 12) (a : SSrc) (s : State) : Out :=
  .next (issue (.csrc c d n a) s fun s => csrBody d n (some fun old => old &&& ~~~(sv s a)) s)

/-- OWNTAG_WRITE (R357): operands i the core, x the value. -/
def execOwntagWrite (s : State) : Out :=
  if validCore s.arg.i then .next (owntagWrite s s.arg.i s.arg.x) else .fault (.noSuchCore s.arg.i)

/-- ELLOST_CLEAR (R345): operands i the core, x the bits. -/
def execEllostClear (s : State) : Out :=
  if validCore s.arg.i then .next (ellostClear s s.arg.i s.arg.x) else .fault (.noSuchCore s.arg.i)

/-! ERET, TLBI, WFI -/

/-- ERET (R341). -/
def execEret (c : Cond) (s : State) : Out :=
  .next (issue (.eret c) s fun s =>
    let x := me s
    if x.priv.toNat < x.ppriv.toNat then .trap s tPRIVILEGE
    else if badTarget x.epc then .trap s (tMISALIGNED x.epc.toNat)
    else .stay (returnFromTrap s (myId s) (myN s)))

/-- What a context of another partition has been brought. -/
def othersBytes (s : State) (p : Nat) : FarReader → Bool
  | .instr c _ _ => !inPart s p c
  | _ => false

/-- Remove from every TLB the entries that a test names; walks that wait for a peer begin anew. -/
def dropTlb (s : State) (bad : TlbEntry → Bool) : State :=
  let keep (l : List TlbEntry) : List TlbEntry := l.filter fun e => !bad e
  { s with
    brought := s.brought.filter fun b => othersBytes s (partOf s (myId s)) b.1
    cores := s.cores.map fun e => (e.1, { e.2 with utlb := keep e.2.utlb })
    clusters := s.clusters.map fun e => (e.1, { e.2 with tlb := keep e.2.tlb })
    strata := s.strata.map fun e => (e.1, { e.2 with tlb := keep e.2.tlb }) }

/-- Whether a copy unit of a partition holds bytes that it has read or is to write through a translation, a private store has still to
reach memory, a run-ahead has walks under way in a peer's tables (18 R388), or a write of the partition, such as a copy or a
retrieval unit has made through a translation, is on its way to a peer (18 R383). Within the module a retrieval operation and
a walk translate and are performed in one step, and accesses in their turn walk when they are performed. -/
def unitsHold (s : State) (p : Nat) : Bool :=
  (s.cores.any fun e => inPart s p e.1 && ((e.2.copies.any fun y => !y.buf.isEmpty &&
    (apOf y.dst.toNat == .glob || apOf y.src.toNat == .glob)) ||
    e.2.ctxs.any fun x => !x.2.fwd.isEmpty || (x.2.ra.isSome && aheadWalks s e.1 x.1))) ||
  s.peers.any fun y => y.2.unacked.any fun o => o.part == p && o.p.kind != 2

/-- Invalidate translations, once what used them is performed (R358, 18 R383). -/
def tlbiBody (bad : TlbEntry → Bool) (s : State) : Act :=
  if unitsHold s (partOf s (myId s)) then .hold else .go (dropTlb s bad)

/-- TLBI.PAGE (R358): the entries of the issuer's partition that cover an address. -/
def execTlbiPage (c : Cond) (a : SSrc) (s : State) : Out :=
  .next (issue (.tlbiPage c a) s fun s =>
    let p := partOf s (myId s)
    let va := bitsOf (sv s a).toNat 55 0
    tlbiBody (fun e => e.part == p && e.vpn == va / 2 ^ e.size) s)

/-- TLBI.ALL (R358). -/
def execTlbiAll (c : Cond) (s : State) : Out :=
  .next (issue (.tlbiAll c) s fun s =>
    let p := partOf s (myId s)
    tlbiBody (fun e => e.part == p) s)

/-- TLBI.KID (R358): the blocks of a kernel id in the instruction caches of the partition; those on their way to them enter
no cache (01 R38). -/
def execTlbiKid (c : Cond) (a : SSrc) (s : State) : Out :=
  .next (issue (.tlbiKid c a) s fun s =>
    let p := partOf s (myId s)
    let kid : BitVec 32 := (sv s a).setWidth 32
    let drop (k : Core) : Core := { k with icache := k.icache.filter fun b => b.kid != kid }
    let mark (z : Stratum) : Stratum :=
      { z with fetches := z.fetches.map fun f => { f with stale := f.stale || f.kid == kid } }
    .go { s with cores := s.cores.map fun e => (e.1, if inPart s p e.1 then drop e.2 else e.2),
                 strata := s.strata.map fun e => (e.1, if e.1 = 16 || ownsLayer s p e.1 then mark e.2 else e.2) })

/-- WFI (R359): until an event enters the core's buffer, or a record its log. -/
def execWfi (c : Cond) (s : State) : Out :=
  .next (issue (.wfi c) s fun s =>
    match (me s).await with
    | none =>
      let s := modMyCore s fun k => { k with wfi := setBit k.wfi (myN s) false }
      .stay (modMe { s with serial := s.serial + 1 } fun x => { x with await := some { id := s.serial, done := false } })
    | some _ =>
      if (myCore s).wfi.getLsbD (myN s) then .go (modMe s fun x => { x with await := none }) else .hold)

/-! SATW (R360) -/

/-- Whether a slot lies in a partition's share: the count of slots from the first, modulo 256 (Table 16.2). -/
def inShare (satb : BitVec 17) (slot : Nat) : Bool :=
  decide ((slot + 256 - bitsOf satb.toNat 7 0) % 256 < bitsOf satb.toNat 16 8)

/-- The start of the first frame at or after a beat. -/
def frameAt (b : Nat) : Nat := (b + 255) / 256 * 256

/-- SATW (R360): completes at the start of the first frame at least 512 beats away. -/
def execSatw (c : Cond) (a b : SSrc) (s : State) : Out :=
  .next (issue (.satw c a b) s fun s =>
    let slot := bitsOf (sv s a).toNat 7 0
    let v := (sv s b).toNat
    let owner := bitsOf v 4 0
    let p := partOf s (myId s)
    let fw := (me s).priv == 2
    if !fw && !inShare (getPart s p).satb slot then .trap s tPRIVILEGE
    else if (17 ≤ owner ∧ owner ≤ 30) ∨ (fw = false ∧ bitsOf v 15 13 ≠ p) then .trap s tILLEGAL
    else request s (fun s id =>
      let due := frameAt (s.stc.toNat + 512)
      let w : SlotWrite := { slot, entry := BitVec.ofNat 16 (bitsOf v 15 8 * 256 + owner), due := word due,
                             core := myId s, ctx := myN s, await := id }
      later { s with slotWrites := s.slotWrites ++ [w] } (due - s.stc.toNat) .satwApply StepArg.none) .go)

/-- The writes that are due take effect in order, and their SATWs complete. -/
def satwApply (s : State) : State :=
  let due := s.slotWrites.filter fun w => decide (w.due.toNat ≤ s.stc.toNat)
  let s := { s with slotWrites := s.slotWrites.filter fun w => decide (s.stc.toNat < w.due.toNat) }
  due.foldl (fun s w => answer { s with slots := mset s.slots w.slot w.entry } w.core w.ctx w.await) s

/-- SATW_APPLY (R360): no operand. -/
def execSatwApply (s : State) : Out := .next (satwApply s)

/-! CHSET (R348, R349) -/

/-- The entry that b and c give (02 Table 2.2). -/
def chanOfWords (b c : Word) : Chan where
  prio := c.extractLsb' 56 8
  valid := c.getLsbD 55
  mask := c.getLsbD 54
  gang := c.extractLsb' 32 16
  lbase := c.extractLsb' 16 16
  lsize := c.extractLsb' 0 16
  sys := b.getLsbD 63
  pc := b.extractLsb' 2 54

/-- Write the entry: the ring starts empty where its place changes. -/
def writeChan (s : State) (c n : Nat) (h : Chan) (moved : Bool) : State :=
  modCore s c fun k =>
    { k with chans := mset k.chans n h, chset := mset k.chset n none,
             rings := if moved then mset k.rings n Ring.reset else k.rings }

/-- The body once its checks have passed: held events go back, payloads that handlers still hold are waited for (in part DEDUCED, log 32). -/
def chsetBody (c n : Nat) (h : Chan) (s : State) : Act :=
  let old := getChan (getCore s c) n
  let moved := old.lbase != h.lbase || old.lsize != h.lsize
  if (mget (getCore s c).chset n none).isSome then
    if (getRing (getCore s c) n).live.isEmpty then .go (writeChan s c n h moved) else .hold
  else
    let s := if !h.valid || old.gang != h.gang || moved then returnHeld s c n else s
    if moved && !(getRing (getCore s c) n).live.isEmpty then
      .stay (modCore s c fun k => { k with chset := mset k.chset n (some h) })
    else .go (writeChan s c n h moved)

/-- CHSET (R348): its checks in the order core, partition, reserved bits of the entry, LSIZE of channel 63 (the spec gives none;
DESIGN CHOICE, log 32). -/
def execChset (c : Cond) (a : SSrc) (chan : BitVec 6) (b cc : SSrc) (s : State) : Out :=
  .next (issue (.chset c a chan b cc) s fun s =>
    let t := bitsOf (sv s a).toNat 15 0
    let e := chanOfWords (sv s b) (sv s cc)
    if !validCore t then .trap s (tAPERTURE t)
    else if !inPart s (partOf s (myId s)) t then .trap s tPRIVILEGE
    else if bitsOf (sv s b).toNat 62 56 ≠ 0 then .trap s tRESERVED
    else if chan = 63 ∧ e.lsize ≠ 0 then .trap s tILLEGAL
    else chsetBody t chan.toNat e s)

end Sys2Proof.Machine
end

