-- ==== Sys2Proof/Machine/Freeze.lean ====
section
/-! DEFINITION. Freezing, resuming and ending gangs: PREEMPT and GANGCTL, majors 0xEB and 0xEE (16 R350, R355), and
SLEEPS and WAKES, majors 0xEC and 0xED (16 R361, 10 R291 to R293), with the step SLEEP_COMPLETE. -/

namespace Sys2Proof.Machine

/-! A context that stops (R350, Table 16.7) -/

/-- Whether a retrieval command has not begun, and waits behind a producer of its task that it has to follow. -/
def ruWaits (x : Ctx) (m : RCmd) : Bool := !m.begun && behind x.regs m.id

/-- Whether a retrieval command gives its answer to a producer. -/
def answersTo (m : RCmd) (pid : Nat) : Bool :=
  match m.op with
  | .probe p .. => p == pid
  | .stat p .. => p == pid
  | _ => false

/-- What stays with a stopped context: an LDSY or VLDSY that waits, the accesses, commands and releases behind it, and a CPYW, an
RPROBE count or an RSTAT whose copies or command wait behind it too (Table 16.7 says nothing of what follows a withdrawn
LDSY: DESIGN CHOICE, log 38). -/
def stays (k : Core) (n : Nat) (x : Ctx) (p : Pending) : Bool :=
  match p.prod with
  | .cpyw all tag upto => k.copies.any fun q =>
      q.ctx == n && q.uid == x.uid && decide (q.id < upto) && (all || q.tag == tag) && behind x.regs q.id
  | .arrives => k.rq.any fun m => m.ctx == n && m.uid == x.uid && ruWaits x m && answersTo m p.id
  | q => isTurn q || isCommandTurn q

/-- What may stand first among them: an LDSY or VLDSY, and an MLEASE or GCLR in its turn that waits for another context. -/
def leads (k : Core) (n : Nat) (x : Ctx) (p : Pending) : Bool :=
  match p.prod with
  | .mlease => x.frozen || k.client.any (· != n)
  | .gclr g => x.frozen || (guardAt k g).owner.any (· != n)
  | q => isSync q

/-- Whether the producers of a context are only such. -/
def parkable (k : Core) (n : Nat) (x : Ctx) : Bool :=
  match x.regs.pend with
  | [] => true
  | p :: _ => leads k n x p && x.regs.pend.all (stays k n x)

/-- Whether a context stands at an instruction boundary with nothing left that a freeze waits for: producers, requests,
the array command under way, retrieval commands. LDSY and VLDSY stay as pending reads, with what follows them. -/
def settled (s : State) (c n : Nat) : Bool :=
  let k := getCore s c
  let x := ctxOf k n
  x.await.isNone && x.ra.isNone && parkable k n x && !(k.rq.any fun m => m.ctx == n && m.uid == x.uid && !ruWaits x m) &&
    !(k.mq.any fun m => m.started && m.ctx == n && m.uid == x.uid)

/-- Freeze a context that a PREEMPT has stopped, once it is settled. -/
def settleFreeze (s : State) (c n : Nat) : State :=
  let x := getCtx s c n
  if x.resident && x.freezing && x.stopping && settled s c n then freeze s c n else s

/-- Withdraw a SEND that has not been accepted. -/
def withdrawSend (s : State) (c n : Nat) : State :=
  if s.net.any fun t => t.sender == some (c, n) then
    modCtx { s with net := s.net.filter fun t => t.sender != some (c, n) } c n fun x => { x with await := none }
  else s

/-- A context stands at its boundary for a PREEMPT: it issues nothing more, and a client loses its run (R226, 17 R376). -/
def standStill (s : State) (c n : Nat) : State :=
  let s := modCtx s c n fun x => { x with stopping := true }
  if (getCore s c).client = some n && !((getCore s c).mq.any (·.started)) then endRun s c else s

/-- A PREEMPT reaches a member: run-ahead ends with reason 7; at system privilege it stops at its next ERET. -/
def stopMember (s : State) (c n : Nat) : State :=
  let x := getCtx s c n
  if x.frozen then s
  else
    let s := modCtx s c n fun x => { x with freezing := true }
    if x.ra.isSome then endAhead s c n 7
    else if x.priv = 0 then
      settleFreeze (standStill (withdrawSend s c n) c n) c n
    else s

/-- Members that have not executed DONE. -/
def liveMembers (g : Gang) : List Member := g.members.filter fun m => !m.done

def memberFrozen (s : State) (m : Member) : Bool := m.saved || (getCtx s m.core m.ctx).frozen
def gangFrozen (s : State) (g : Gang) : Bool := (liveMembers g).all (memberFrozen s)
def gangLost (g : Gang) : Bool := g.members.any (·.lost)

def gangArg (s : State) (a : SSrc) : Option Gang := findGang s (partOf s (myId s)) (bitsOf (sv s a).toNat 15 0)

def status (s : State) (d : SReg) (n : Nat) : Act := .go (produceVal s (.s d) (.s (word n)) 0)

/-- PREEMPT (R350): its result comes when every member is frozen (in part DEDUCED, log 32). -/
def execPreempt (c : Cond) (d : SReg) (a : SSrc) (s : State) : Out :=
  .next (issue (.preempt c d a) s fun s =>
    match gangArg s a with
    | none => status s d 1
    | some g =>
      if gangLost g then status s d 7
      else if gangFrozen s g then status s d 8
      else
        let s := produce s (.s d) (.preempt g.id)
        .go ((liveMembers g).foldl (fun s m => if m.saved then s else stopMember s m.core m.ctx) s))

/-! GANGCTL (R355) -/

/-- GANGCTL.STATUS. -/
def execGangctlStatus (c : Cond) (d : SReg) (a : SSrc) (s : State) : Out :=
  .next (issue (.gangctlStatus c d a) s fun s =>
    match gangArg s a with
    | none => status s d 1
    | some g => status s d (if gangLost g then 7 else if gangFrozen s g then 2 else 0))

/-- Pending pushes enter their FIFOs as far as there is room. -/
def refill (r : Regs) : Regs :=
  [0, 1, 2, 3].foldl (fun (r : Regs) (f : FReg) =>
    let w := r.fPush.get f.toFin
    let room := 8 - (rdF r f).length
    { wrF r f (rdF r f ++ w.take room) with fPush := r.fPush.set f.toNat (w.drop room) f.isLt }) r

/-- A context with saved commands regains client status when no context is the client, and replays them (R353). -/
def settleClient (s : State) (c n : Nat) : State :=
  match (getCtx s c n).replay, (getCore s c).client with
  | some ms, none =>
    let uid := (getCtx s c n).uid
    let s := modCtx s c n fun x => { x with replay := none }
    ms.foldl (fun s m => modCore { s with serial := s.serial + 1 } c fun k =>
      { k with mq := k.mq ++ [{ m with id := s.serial, ctx := n, uid, go := false, started := false, flags := 0 }] })
      (modCore s c fun k => { k with client := some n })
  | _, _ => s

def resumeMember (s : State) (c n : Nat) : State :=
  settleClient (modCtx s c n fun x => { x with frozen := false, freezing := false, stopping := false, regs := refill x.regs }) c n

/-- GANGCTL.RESUME: every member in the same core cycle. -/
def execGangctlResume (c : Cond) (d : SReg) (a : SSrc) (s : State) : Out :=
  .next (issue (.gangctlResume c d a) s fun s =>
    match gangArg s a with
    | none => status s d 1
    | some g =>
      if gangLost g then status s d 7
      else if (liveMembers g).any fun m => m.saved || !(getCtx s m.core m.ctx).frozen then status s d 2
      else status ((liveMembers g).foldl (fun s m => resumeMember s m.core m.ctx) s) d 0)

/-- The local address that a pending read begins at. -/
def planAddr (p : Plan) : Nat :=
  match p.els.flatMap fun e => elPlaces e.2 with
  | .pool _ off :: _ => 0xFFFFFF0000000000 + off
  | _ => 0

def isRead : Prod → Bool
  | .sync .. => true
  | .read _ => true
  | .device _ none => true
  | .trhz .. => true
  | .request _ op _ => !seWrites op
  | _ => false

/-- The address of a pending read, as far as it is known. -/
def readAddr : Prod → Nat
  | .sync _ plan => planAddr plan
  | .read plan => planAddr plan
  | .device off _ => 0xFFFFFFF000000000 + off
  | .request off .. => 0xFFFFFF3000000000 + off
  | _ => 0

def pushesOf (x : Ctx) : Nat := (x.regs.fPush.toList.map (·.length)).sum + x.areaPushes

/-- Array commands of a context that wait behind its MLEASE or GCLR. -/
def arraysOf (x : Ctx) : List MCmd := x.regs.pend.filterMap fun p => match p.prod with
  | .array m => some m
  | _ => none

/-- Report what a context had in hand: queued matrix commands with their queue position, pending reads with their
addresses, pending pushes (R352, R355, Table 16.5). -/
def reportHeld (s : State) (c n : Nat) (x : Ctx) (st : Nat) (cmds : List MCmd) : State :=
  let rec_ (kind tag addr : Nat) : LogRec :=
    { extra := 0, addr, done := 0, gen := x.gen.toNat, tag, status := st, kind, ctx := n, src := c }
  let s := (cmds ++ arraysOf x).zipIdx.foldl (fun s e => logRecord s c (rec_ 2 e.2 e.1.base.toNat)) s
  let s := (x.regs.pend.filter fun p => isRead p.prod).foldl (fun s p => logRecord s c (rec_ 9 0 (readAddr p.prod))) s
  (List.range (pushesOf x)).foldl (fun s _ => logRecord s c (rec_ 3 0 0)) s

/-- Take the queued commands of a task out of the matrix queue; the one that the array executes stays. -/
def takeQueued (s : State) (c n : Nat) : State × List MCmd :=
  let k := getCore s c
  let mine (m : MCmd) : Bool := !m.started && m.ctx == n && m.uid == (ctxOf k n).uid
  (setCore s c { k with mq := k.mq.filter fun m => !mine m }, k.mq.filter mine)

/-- The saved state of a member. -/
def parkedOf (k : Core) (g : Gang) : Option (Nat × Ctx) :=
  k.parked.find? fun e => e.2.member && e.2.gang == g.id && e.2.gen == g.gen

/-- A SEND that a killed context has launched and that no core has accepted is withdrawn, with a record (R347): kind event, with
the destination and the channel as its detail (in part DESIGN CHOICE, log 23). -/
def killSend (s : State) (c n : Nat) : State :=
  match s.net.find? fun t => t.sender == some (c, n) with
  | none => s
  | some t => withdrawSend (ctxRecord s c n 4 6 0 0 0 (eventExtra t.ev)) c n

/-- End one member as though it had executed DONE, without the release. A saved one gave up its guards and its lease when it
was saved; its accesses are performed under its own number. -/
def killMember (s : State) (g : Gang) (m : Member) : State :=
  if m.saved then
    match parkedOf (getCore s m.core) g with
    | none => s
    | some (uid, x) =>
      let s := reportHeld s m.core m.ctx x 6 (x.replay.getD [])
      let s := (standIn s m.core m.ctx x fun s =>
        flushOverflow (flushTurns s m.core m.ctx (x.regs.pend.filter fun p => !isGuardTurn p.prod)) m.core m.ctx).1
      modCore s m.core fun k => { k with parked := k.parked.filter fun e => e.1 != uid }
  else if m.lost then s
  else
    let x := getCtx s m.core m.ctx
    let (s, q) := takeQueued (killSend s m.core m.ctx) m.core m.ctx
    let s := reportHeld s m.core m.ctx x 6 (q ++ x.replay.getD [])
    let s := releaseGuards (flushTurns s m.core m.ctx x.regs.pend) m.core m.ctx
    let s := if (getCore s m.core).client = some m.ctx then releaseLease s m.core else s
    freeCtxSlot (flushOverflow s m.core m.ctx) m.core m.ctx

/-- The flow of a killed gang is abandoned: its gangs that are not placed are reported (17 R374). -/
def abandonFlow (s : State) (p job flow : Nat) : State :=
  let gs := (findJob s p job).elim [] fun j => (j.flows[flow]?).elim [] (·.gangs)
  let unplaced (g : JobGang) : Bool := match g.status with
    | .waiting => true
    | .eligible _ _ => true
    | _ => false
  let s := (gs.filter unplaced).foldl (fun s g => reportGang s p g.addr.toNat (killedFor 7)) s
  let s := modJob s p job fun j => { j with killed := j.killed || gs.any unplaced }
  modFlow s p job flow fun f =>
    { f with gangs := f.gangs.map fun g => if unplaced g then { g with status := .reported } else g }

def killGang (s : State) (p : Nat) (g : Gang) : State :=
  let s := (liveMembers g).foldl (fun s m => killMember s g m) s
  checkJob (abandonFlow (endGang s p g true) p g.job g.flow) p g.job

/-- GANGCTL.KILL. -/
def execGangctlKill (c : Cond) (d : SReg) (a : SSrc) (s : State) : Out :=
  .next (issue (.gangctlKill c d a) s fun s =>
    match gangArg s a with
    | none => status s d 1
    | some g => status (killGang s (partOf s (myId s)) g) d 0)

/-! Sleep and wake (R361, 10 R291 to R293) -/

/-- The checks of a stratum number. -/
def stratumArg (s : State) (a : SSrc) (own : Bool) : Except Trap Nat :=
  let z := (sv s a).toNat
  if 15 < z ∨ (own = true ∧ isGw (myId s) = false ∧ z = stratumOf (myId s)) then .error tILLEGAL
  else if !ownsLayer s (partOf s (myId s)) z then .error tPRIVILEGE
  else .ok z

/-- SLEEPS (R361): no member is placed on the stratum from now on; a stratum whose wake is under way sleeps after it
(in part DEDUCED, log 25). -/
def execSleeps (c : Cond) (d : SReg) (a : SSrc) (s : State) : Out :=
  .next (issue (.sleeps c d a) s fun s =>
    match stratumArg s a true with
    | .error t => .trap s t
    | .ok z =>
      if (getStratum s z).awake = false ∧ (getLayer s z).wake = none then status s d 8
      else .go (produce (modStratum s z fun x => { x with sleepReq := true }) (.s d) (.sleeping z)))

/-- Whether a stratum that is to sleep may: no resident context, nothing in its layer's queues (10 R291); its trace units
have applied what has arrived, and no power step is under way (in part DEDUCED, log 25). -/
def maySleep (s : State) (z : Nat) : Bool :=
  (getStratum s z).sleepReq && (getStratum s z).awake && !stratumBusy s z && (getLayer s z).queue.isEmpty &&
    (powerOf s z).phase.isNone && !(s.cores.any fun e => decide (e.1 < 0x4000) && stratumOf e.1 == z && !e.2.tl.isEmpty)

/-- Change the producers in flight of every context. -/
def mapPend (s : State) (f : Prod → Prod) : State :=
  let g (r : Regs) : Regs := { r with pend := r.pend.map fun p => { p with prod := f p.prod } }
  let h (x : Ctx) : Ctx := { x with regs := g x.regs, ra := x.ra.map fun a => { a with saved := g a.saved } }
  { s with cores := s.cores.map fun e => (e.1, { e.2 with ctxs := e.2.ctxs.map fun x => (x.1, h x.2) }) }

/-- The stratum sleeps: its mirror is stale, it hears no beat; the SLEEPS of it complete with 0 (in part DEDUCED, log 25). -/
def sleepNow (s : State) (z : Nat) : State :=
  if maySleep s z then
    let s := modStratum s z fun x => { x with awake := false, sleepReq := false }
    let s := modLayer s z fun y => { y with stale := true, wake := none }
    mapPend s fun p => match p with
      | .sleeping w => if w = z then .val (.s 0) 0 else .sleeping w
      | p => p
  else s

/-- SLEEP_COMPLETE (10 R291): operand i the stratum. -/
def execSleepComplete (s : State) : Out :=
  if s.arg.i < 16 then .next (sleepNow s s.arg.i) else .fault (.noSuchUnit s.arg.i)

end Sys2Proof.Machine
end

