-- ==== Sys2Proof/Machine/Swell.lean ====
section
/-! DEFINITION. The Swell: the beat of stack time with its slot, SWELL_SLOT_TRANSMIT; the application of beats,
SWELL_BEAT_APPLY; the wake of a stratum, WAKES and MIRROR_COPY_COMPLETE; and YIELD_EXPIRY (10 R281 to R293, 01 R30, R32,
07 R169). -/

namespace Sys2Proof.Machine

/-! The slot of a beat (R281, 16 Table 16.11) -/

def slotOwner (e : BitVec 16) : Nat := bitsOf e.toNat 4 0
def slotPart (e : BitVec 16) : Nat := bitsOf e.toNat 15 13

/-- Class number of an item: 0 STORE, 1 REWARD, 2 BARRIER (Table 10.7). -/
def classOf : BeatItem → Nat
  | .store _ => 0
  | .block .. => 0
  | .reward .. => 1
  | .barrier _ => 2

def slotAdmits (e : BitVec 16) (i : BeatItem) : Bool := bitOf e.toNat (8 + classOf i)

/-- The layer that a slot lets transmit; none: the slot is silent. -/
def slotLayer (s : State) (e : BitVec 16) : Option Nat :=
  let o := slotOwner e
  let p := slotPart e
  if o = 16 then some (16 + p)
  else if o < 16 ∧ ownsLayer s p o = true ∧ (getStratum s o).awake = true then some o
  else none

/-- STSB and RWD are engine commands, STS is a store of its context (06 Table 6.6). -/
def engineItem : BeatItem → Bool
  | .block .. => true
  | .reward .. => true
  | _ => false

/-- An item waits for the earlier items of its context after FENCE.STACK ww (05 R121), for the producers that it follows
(08 R206), and as an engine command for what holds those (08 R222). -/
def itemFree (s : State) (q : List QItem) (i : QItem) : Bool :=
  !(q.any fun e => decide (e.id < i.after) && e.core == i.core && e.ctx == i.ctx && e.uid == i.uid) &&
    (if engineItem i.item then !engineHeld s i.core i.ctx i.uid i.id
     else !((taskOf s i.core i.ctx i.uid).any fun x => behind x.regs i.id))

/-- The heads of the queues of a partition that a slot admits, oldest first. -/
def headsOf (s : State) (q : List QItem) (e : BitVec 16) : List QItem :=
  let mine := q.filter fun i => i.part == slotPart e
  (mine.filter fun i => slotAdmits e i.item && itemFree s q i &&
    (((mine.find? fun h => classOf h.item == classOf i.item).map (·.id)) == some i.id))

/-- The items that one beat carries from the front of a class: as many as fit whole (in part DEDUCED, log 35). -/
def takeFit (s : State) (q : List QItem) (size : BeatItem → Nat) : Nat → List QItem → List QItem
  | _, [] => []
  | room, i :: r => if size i.item ≤ room ∧ itemFree s q i = true then i :: takeFit s q size (room - size i.item) r else []

/-- The records of an STSB, cut at mirror words; its source is read now. Of a source that a partition word has meanwhile left
beyond the scratchpad (01 R37) the bytes past the size read 0 (the spec does not say; DESIGN CHOICE, log 35). -/
def blockRecs (s : State) (core src dst len : Nat) : List SRec :=
  let first := dst / 8
  let byteAt (o : Nat) : Nat := if o < coreSp s core then (cget (getCore s core).pool o).toNat else 0
  (List.range ((dst + len + 7) / 8 - first)).map fun w =>
    let base := 8 * (first + w)
    let cells := (List.range 8).filter fun i => decide (dst ≤ base + i) && decide (base + i < dst + len)
    { off := base
      mask := BitVec.ofNat 8 ((cells.map fun i => 2 ^ i).sum)
      data := word (cells.map fun i => byteAt (src + (base + i - dst)) * 2 ^ (8 * i)).sum }

def itemRecs (s : State) : BeatItem → List SRec
  | .store recs => recs
  | .block core src dst len => blockRecs s core src dst len
  | _ => []

def barRecs : BeatItem → List BarRec
  | .barrier r => [r]
  | _ => []

/-- Send the beat that carries items of one class from a layer. -/
def sendBeat (s : State) (l p : Nat) (items : List QItem) (pay : Payload) : State :=
  let ids := items.map (·.id)
  let s := modLayer s l fun y => { y with queue := y.queue.filter fun i => !ids.contains i.id }
  { s with air := s.air ++ [{ beat := s.stc + 12, layer := l, part := p, pay,
                              owners := items.map fun i => (i.core, i.ctx, i.uid, i.id) }] }

/-- A REWARD beat takes the partition's next number, which TRHZ sel 2 returns (R278, R280). -/
def sendReward (s : State) (l p : Nat) (i : QItem) (mask : BitVec 16) (c : Bool) (rho : BitVec 32) : State :=
  let seq := (getPart s p).rewards + 1
  let s := modPart s p fun x => { x with rewards := seq }
  let s := modTask s i.core i.ctx i.uid fun x => { x with lastRwd := seq }
  let s := mapPend s fun r => match r with
    | .rwdSeq id => if id = i.id then .val (.s (seq.setWidth 64)) 0 else .rwdSeq id
    | r => r
  sendBeat s l p [i] (.reward seq (BitVec.ofNat 16 i.core) mask c rho)

/-- The transmission of the slot of the present beat. -/
def transmitSlot (s : State) : State :=
  let e := getSlot s (s.stc.toNat % 256)
  match slotLayer s e with
  | none => s
  | some l =>
    let q := (getLayer s l).queue
    match headsOf s q e with
    | [] => s
    | h :: _ =>
      let p := slotPart e
      let line := q.filter fun i => i.part == p && classOf i.item == classOf h.item
      match h.item with
      | .reward mask c rho => sendReward s l p h mask c rho
      | .barrier _ =>
        let items := takeFit s q (fun _ => 1) 32 line
        sendBeat s l p items (.barrier (items.flatMap fun i => barRecs i.item))
      | _ =>
        let items := takeFit s q recordsOf 16 line
        sendBeat s l p items (.store (items.flatMap fun i => itemRecs s i.item))

/-! Rewards that arrive (10 R271, R272, R293) -/

def stratumCores (z : Nat) : List Nat := (List.range 1024).map (1024 * z + ·)

/-- The cores of a stratum that hold anything. -/
def listedCores (s : State) (z : Nat) : List Nat :=
  (s.cores.map (·.1)).filter fun c => decide (c < 0x4000) && stratumOf c == z

def hList (y : Layer) : List (BitVec 32) := (List.range 16).map fun g => mget y.h g 0

/-- The counters of a layer after the arrival of a reward. -/
def countReward (y : Layer) (seq : BitVec 32) (mask : BitVec 16) : Layer :=
  let gs := (List.range 16).filter mask.getLsbD
  { y with h := gs.foldl (fun m g => mset m g seq) y.h
           c := gs.foldl (fun m g => mset m g (mget m g 0 + 1)) y.c
           lastSeq := seq }

/-- A reward arrives in a stratum; a layer that has stopped takes it as overrun in every core (R284). -/
def arriveReward (s : State) (z : Nat) (seq : BitVec 32) (mask : BitVec 16) (c : Bool) (rho : BitVec 32) : State :=
  let y := getLayer s z
  let s := modLayer s z fun y => countReward y seq mask
  (if y.stopped then stratumCores z else listedCores s z).foldl (fun s k =>
    rewardToCore s k seq mask c rho (hList y) y.stopped 0xFFFF) s

/-- A reward arrives in the base die: the reward log and its counts (R293). -/
def logReward (s : State) (p : Nat) (seq : BitVec 32) (mask : BitVec 16) (c : Bool) (rho : BitVec 32) : State :=
  let s := modLayer s (16 + p) fun y => countReward y seq mask
  modPart s p fun x =>
    let r : RewardLog := { seq, mask, c, rho }
    let log := x.log ++ [r]
    { x with log := log.drop (log.length - 1024)
             groupCount := ((List.range 16).filter mask.getLsbD).foldl (fun m g => mset m g (mget m g 0 + 1)) x.groupCount }

/-! SWELL_BEAT_APPLY -/

def applyRec (m : List Host.Cell) (r : SRec) : List Host.Cell :=
  (List.range 8).foldl (fun m i => if r.mask.getLsbD i then cset m (r.off + i) (r.data.extractLsb' (8 * i) 8) else m) m

/-- The mirror bytes that a record writes. -/
def maskBytes (r : SRec) : List Nat := (List.range 8).filterMap fun i => if r.mask.getLsbD i then some (r.off + i) else none

/-- Apply the records of a STORE beat to a layer; a waking one marks what they write, byte by byte, so that a word that a beat
writes in part comes to equal the word of the awake layers (R292) (in part DEDUCED, log 25). -/
def applyStores (s : State) (l : Nat) (recs : List SRec) : State :=
  modLayer s l fun y =>
    { y with mirror := recs.foldl applyRec y.mirror
             wake := y.wake.map fun w => { w with marks := recs.foldl (fun m r => (maskBytes r).foldl insNat m) w.marks } }

/-- Strata of a partition that hear a beat: awake, or waking since B_w. -/
def hears (s : State) (p z : Nat) : Bool :=
  ownsLayer s p z && ((getStratum s z).awake || ((getLayer s z).wake.any fun w => decide (w.bw.toNat ≤ s.stc.toNat)))

/-- A layer finds an uncorrectable error in a beat (R284). The record SWELL_UNCORRECTABLE has the layer in EXTRA, 16 for the
base die, and 0 in ADDR (DESIGN CHOICE, log 40). -/
def stopLayer (s : State) (p l : Nat) : State :=
  let s := modLayer s l fun y => { y with stopped := true, stale := true }
  let s := if l < 16 then
      (stratumCores l).foldl (fun s c => modCore s c fun k => { k with stale := BitVec.allOnes 16 }) s
    else s
  sysRecord s p 0x0B 13 0 0 (if l < 16 then l else 16)

/-- Apply one beat. bad: the layers that find it uncorrectable, 16 for the base die. A REWARD beat that a layer finds so counts
there and arrives as overrun with the number and mask that it carries, and the base die's reward log goes on taking rewards
after the layer of the base die has stopped (R284 says neither; DESIGN CHOICE, log 35). -/
def applyBeat (bad : List Nat) (s : State) (a : Air) : State :=
  let p := a.part
  let strata := (List.range 16).filter (hears s p)
  let base := 16 + p
  let s := strata.foldl (fun s z => if bad.contains z && !(getLayer s z).stopped then stopLayer s p z else s) s
  let s := if bad.contains 16 && !(getLayer s base).stopped then stopLayer s p base else s
  let live (l : Nat) : Bool := !(getLayer s l).stopped
  match a.pay with
  | .store recs => ((strata ++ [base]).filter live).foldl (fun s l => applyStores s l recs) s
  | .reward seq _ mask c rho =>
    let s := strata.foldl (fun s z => arriveReward s z seq mask c rho) s
    logReward s p seq mask c rho
  | .barrier recs =>
    recs.foldl (fun s r => completePhase s p r.gang.toNat r.tag.toNat r.comp.toNat fun z => strata.contains z && live z) s

/-- Apply every beat whose time has come, in beat order. -/
def applyDue (s : State) (bad : List Nat) : State :=
  let due := s.air.filter fun a => decide (a.beat.toNat ≤ s.stc.toNat)
  due.foldl (applyBeat bad) { s with air := s.air.filter fun a => decide (s.stc.toNat < a.beat.toNat) }

/-- SWELL_BEAT_APPLY (R30, R283): operand l the layers that find an uncorrectable error. -/
def execSwellBeatApply (s : State) : Out := .next (applyDue s s.arg.l)

/-! The wake of a stratum (R292, R293) -/

/-- The layer that a mirror is copied from: the nearest awake layer of the partition below, else the base die. -/
def wakeSource (s : State) (p z : Nat) : Nat :=
  (((List.range z).reverse).find? fun y => ownsLayer s p y && (getStratum s y).awake).getD (16 + p)

/-- WAKES (16 R361): it follows a SLEEPS that is under way; a wake that is under way is joined (in part DEDUCED,
log 25). -/
def execWakes (c : Cond) (d : SReg) (a : SSrc) (s : State) : Out :=
  .next (issue (.wakes c d a) s fun s =>
    match stratumArg s a false with
    | .error t => .trap s t
    | .ok z =>
      if (getStratum s z).sleepReq then .hold
      else if (getStratum s z).awake then status s d 0
      else match (getLayer s z).wake with
        | some w => .go (produce s (.s d) (.waking z w.bw))
        | none =>
          let bw := s.stc + 1 + word (Config.wakeChoice s.choice).val
          let w : Wake := { bw, marks := [] }
          let s := modLayer { s with choice := s.choice + 1 } z fun y => { y with wake := some w, stopped := false }
          .go (produce (later s ((bw - s.stc).toNat + 64) .mirrorCopyComplete { StepArg.none with i := z }) (.s d)
            (.waking z bw)))

/-- The rewards that a layer has missed: those of the log after its latest one. -/
def missedRewards (y : Layer) (p : Partition) : List RewardLog :=
  p.log.filter fun r => decide (1 ≤ (r.seq - y.lastSeq).toNat) && decide ((r.seq - y.lastSeq).toNat < 2 ^ 31)

/-- Groups of which the log has lost a reward (R293). -/
def staleGroups (y : Layer) (p : Partition) (rs : List RewardLog) : BitVec 16 :=
  (List.range 16).foldl (fun m g =>
    if (rs.filter fun r => r.mask.getLsbD g).length < (mget p.groupCount g 0 - mget y.c g 0).toNat then setBit m g true
    else m) 0

/-- Replay one reward in a core and sweep it through its regions. -/
def replayOne (s : State) (c : Nat) (keep : BitVec 16) (h : List (BitVec 32)) (r : RewardLog) : State :=
  let s := rewardToCore s c r.seq r.mask r.c r.rho h false keep
  let rows := ((getCore s c).regions.map fun e => e.2.elim 0 (·.rows)).sum
  sweepMany s c (rewardsPending (getCore s c) * (rows + 1))

/-- The replay of a waking stratum at B_w (in part DEDUCED, log 25). C_g becomes the count of the reward log, which counts the
rewards that the log has lost too; the record WAKE_STALE has the stratum and, from bit 16 on, the stale groups in ADDR and
the number after AC in EXTRA (DESIGN CHOICE, log 40). -/
def replayRewards (s : State) (p z : Nat) : State :=
  let y := getLayer s z
  let rs := missedRewards y (getPart s p)
  let stale := staleGroups y (getPart s p) rs
  let (s, _) := rs.foldl (fun (st : State × Layer) r =>
    ((listedCores st.1 z).foldl (fun s c => replayOne s c (~~~stale) (hList st.2) r) st.1, countReward st.2 r.seq r.mask))
    (s, y)
  let y' := rs.foldl (fun y r => countReward y r.seq r.mask) y
  let s := modLayer s z fun x =>
    { x with h := y'.h, c := (getPart s p).groupCount, lastSeq := (getLayer s (16 + p)).lastSeq }
  if stale = 0 then s
  else
    let s := (stratumCores z).foldl (fun s c => modCore s c fun k => { k with stale := k.stale ||| stale }) s
    sysRecord s p 0x0B 12 0 (z + stale.toNat * 65536) (y.lastSeq + 1).toNat

/-- The wakes whose B_w is the present beat (in part DEDUCED, log 25). -/
def startWakes (s : State) : State :=
  ((List.range 16).filter fun z => (getLayer s z).wake.any fun w => w.bw == s.stc).foldl (fun s z =>
    match stratumPart s z with
    | some p => replayRewards s p z
    | none => s) s

/-- The mirror of a waking layer: its marked bytes, the source's elsewhere. -/
def copiedMirror (own src : List Host.Cell) (marks : List Nat) : List Host.Cell :=
  (src.filter fun e => !marks.contains e.1).foldl (fun m e => cset m e.1 e.2) (own.filter fun e => marks.contains e.1)

/-- The end of the copy: the stratum is awake. Every awake layer holds the same bytes at a beat, so the copy stands for
the bytes of the layer from which each word comes as the copy goes on (R292). A layer that an error stopped since B_w stays
stale (R284); a stratum that no partition owns stays asleep (20 R407) (in part DEDUCED, log 25). -/
def mirrorCopied (s : State) (z : Nat) : State :=
  match (getLayer s z).wake with
  | none => s
  | some w =>
    if s.stc.toNat < w.bw.toNat + 64 then s
    else
      let src := (getLayer s (wakeSource s ((stratumPart s z).getD 0) z)).mirror
      let s := modLayer s z fun y =>
        { y with mirror := copiedMirror y.mirror src w.marks, stale := y.stopped, wake := none }
      let s := if (stratumPart s z).isSome then modStratum s z fun x => { x with awake := true } else s
      mapPend s fun r => match r with
        | .waking y bw => if y = z then .val (.s bw) 0 else .waking y bw
        | r => r

/-- MIRROR_COPY_COMPLETE (R292): operand i the stratum. -/
def execMirrorCopyComplete (s : State) : Out :=
  if s.arg.i < 16 then .next (mirrorCopied s s.arg.i) else .fault (.noSuchUnit s.arg.i)

/-! The beat -/

/-- Timers that are due come next. -/
def dueTimers (s : State) : State :=
  let due (t : Word × Step) : Bool := decide (t.1.toNat ≤ s.stc.toNat)
  { s with timers := s.timers.filter fun t => !due t, agenda := (s.timers.filter due).map (·.2) ++ s.agenda }

/-- Beats that are to be applied come next. -/
def dueBeats (s : State) : State :=
  if s.air.any fun a => decide (a.beat.toNat ≤ s.stc.toNat) then
    { s with agenda := ⟨.swellBeatApply, StepArg.none⟩ :: s.agenda }
  else s

/-- The stall windows of 10 µs close before the core cycle of the beat at which they do (20 R415). -/
def dueWindows (s : State) : State :=
  if s.stc.toNat % 12000 = 0 then
    { s with agenda := (((List.range 16).filter fun z => (getStratum s z).awake).map fun z =>
        ⟨.stallWindow, { StepArg.none with i := z }⟩) ++ s.agenda }
  else s

/-- Ended tasks of which nothing is left go (07 R168). -/
def settleEnded (s : State) : State :=
  (s.cores.filter fun e => !e.2.ended.isEmpty).foldl (fun s e => modCore s e.1 fun k =>
    { k with ended := k.ended.filter fun t => !t.2.regs.pend.isEmpty || commandsHeld s e.1 (t.1 % 8) (t.1 / 8) }) s

/-- One beat of stack time: its slot transmits, the logs take what is due to them, then the next beat begins with what is due
at it. -/
def beat (s : State) : State :=
  let s := settleEnded (flushLogs (logBadReads (transmitSlot s)))
  dueBeats (dueTimers (dueWindows (startWakes { s with stc := s.stc + 1 })))

/-- SWELL_SLOT_TRANSMIT (R30, R281): no operand. -/
def execSwellSlotTransmit (s : State) : Out := .next (beat s)

/-- The end of a YIELD (07 R169). -/
def yieldOver (s : State) (c n uid : Nat) : State :=
  modTask s c n uid fun x => { x with yielding := false }

/-- YIELD_EXPIRY (07 R169): operands i the core, j the context, k its task. -/
def execYieldExpiry (s : State) : Out :=
  if validCore s.arg.i then .next (yieldOver s s.arg.i s.arg.j s.arg.k) else .fault (.noSuchCore s.arg.i)

end Sys2Proof.Machine
end

