-- ==== Sys2Proof/Machine/Save.lean ====
section
/-! DEFINITION. Saving and loading contexts: CTXSV and CTXLD with their forms .M, majors 0xE6 and 0xE7 (16 R351 to R354).
The places of fields that 16 Tables 16.8 and 16.12 do not fix within their sections are the model's (in part DEDUCED, log 24). -/

namespace Sys2Proof.Machine

/-! Bytes of a section -/

def w8 (v : Word) : List Byte := toLe 8 v.toNat

/-- Bytes up to a length, zeros where there is nothing. -/
def padTo (n : Nat) (bs : List Byte) : List Byte := bs.take n ++ List.replicate (n - bs.length) 0

/-- The number in n bytes at an offset. -/
def field (bs : List Byte) (o n : Nat) : Nat := fromLe ((bs.drop o).take n)
def fieldW (bs : List Byte) (o : Nat) : Word := word (field bs o 8)

def saveMagic : Nat := 0x58534C46
def extMagic : Nat := 0x584D4C46

/-! The save area (Table 16.8) -/

def boolBits (l : List Bool) : Nat := (l.zipIdx.map fun e => b2n e.1 * 2 ^ e.2).sum

/-- State of a guard slot: 0 unresolved, 1 false, 2 true. -/
def guardCode (g : Guard) : Nat :=
  match g.val with
  | none => 0
  | some false => 1
  | some true => 2
def guardOfCode (n : Nat) : Option Bool := if n = 1 then some false else if n = 2 then some true else none

def ownedMask (k : Core) (n : Nat) : Nat := boolBits (k.guards.toList.map fun g => g.owner == some n)
def guardStates (k : Core) (n : Nat) : Nat :=
  (k.guards.toList.zipIdx.map fun e => if e.1.owner = some n then guardCode e.1 * 4 ^ e.2 else 0).sum

/-- A pending read: address, size, destination register, kind (0 LDSY, 1 with sign extension, 2 VLDSY). -/
def readBytes (p : Pending) : List Byte :=
  let d := match p.dest with
    | .s r => r.toNat
    | .pair r => r.toNat
    | .v r => r.toNat
  match p.prod with
  | .sync _ plan => toLe 8 (planAddr plan) ++ toLe 2 plan.bytes ++ toLe 1 d ++
      toLe 1 (if plan.vec then 2 else b2n plan.sx) ++ toLe 4 0
  | _ => []

def pendingReads (r : Regs) : List Pending := r.pend.filter fun p => isSync p.prod

/-- A queued array command: its words, the captured descriptors, its base address. -/
def cmdBytes (m : MCmd) : List Byte :=
  padTo 16 ((encode m.instr).getD []) ++ w8 m.wd5 ++ w8 m.wd6 ++ w8 m.wd7 ++ w8 m.base

/-- FIFO entries, each FIFO oldest first and followed by its pending pushes. -/
def fifoEntries (r : Regs) : List VWord := (List.range 4).flatMap fun i => r.f.toList.getD i [] ++ r.fPush.toList.getD i []

/-- Pending pushes of each FIFO that the area has room for: 96 entries in all. -/
def savedPushes (r : Regs) : List Nat :=
  let fixed := (r.f.toList.map (·.length)).sum
  (r.fPush.toList.foldl (fun (st : Nat × List Nat) l =>
    let n := minNat l.length (96 - st.1)
    (st.1 + n, st.2 ++ [n])) (fixed, [])).2

def savedRegs (r : Regs) : Regs :=
  { r with fPush := Vector.ofFn fun i : Fin 4 => (r.fPush.get i).take ((savedPushes r).getD i.val 0) }
def leftPushes (r : Regs) : Vector (List VWord) 4 :=
  Vector.ofFn fun i : Fin 4 => (r.fPush.get i).drop ((savedPushes r).getD i.val 0)

/-- The header; its last doubleword tags the task (in part DEDUCED, log 24). -/
def saveHeader (s : State) (c n : Nat) (cmds : List MCmd) (stamps : List Nat) : List Byte :=
  let x := getCtx s c n
  let client := (getCore s c).client == some n || x.replay.isSome
  padTo 56 (toLe 4 saveMagic ++ toLe 4 1 ++ w8 (ctxidOf c n x) ++ w8 x.regs.pc ++ w8 (statusOf x) ++
    toLe 8 (b2n client) ++ toLe 8 x.regs.mldtCur ++ toLe 1 (pendingReads x.regs).length ++ toLe 1 stamps.length ++
    toLe 1 cmds.length ++ toLe 1 (fifoEntries (savedRegs x.regs)).length) ++ toLe 8 x.uid

/-- The sections after the header (in part DEDUCED, log 24). -/
def saveBody (s : State) (c n : Nat) (cmds : List MCmd) (stamps : List Nat) : List Byte :=
  let k := getCore s c
  let x := ctxOf k n
  let r := savedRegs x.regs
  let regs := (List.range 64).flatMap fun i => w8 (rdS r (BitVec.ofNat 6 i))
  let fe := padTo 16 (toLe 8 r.sE.toNat ++ toLe 4 r.vE.toNat ++ toLe 1 r.qE.toNat)
  let preds := (List.range 8).flatMap fun i => toLe 8 (rdP r (BitVec.ofNat 3 i)).toNat
  let conds := padTo 16 (toLe 1 r.q.toNat ++ toLe 1 (ownedMask k n) ++ toLe 2 (guardStates k n))
  let csrs := padTo 128 (w8 (r.fstat.setWidth 64) ++ w8 x.ovp ++ w8 (x.prio.setWidth 64) ++ w8 x.cause ++ w8 x.epc ++
    w8 x.faddr ++ w8 x.tvec ++ w8 x.scratch ++ w8 r.wd5 ++ w8 r.wd6 ++ w8 r.wd7)
  let streams := r.x.toList.flatMap fun t => w8 t.base ++ w8 t.idx ++ toLe 4 t.n.toNat ++ toLe 4 t.k.toNat ++ toLe 8 t.cur
  let reads := padTo 128 ((pendingReads r).flatMap readBytes)
  let marks := padTo 128 (stamps.flatMap (toLe 8))
  let queue := padTo 416 (toLe 32 cmds.length ++ cmds.flatMap cmdBytes)
  let counts := (List.range 4).flatMap (fun i => toLe 4 (r.f.toList.getD i []).length) ++
    (List.range 4).flatMap fun i => toLe 4 (r.fPush.toList.getD i []).length
  let low := padTo 1984 (regs ++ fe ++ preds ++ conds ++ csrs ++ streams ++ reads ++ marks ++ queue ++ counts)
  low ++ r.v.toList.flatMap vBytes ++ padTo (0x9000 - 0x2800) ((fifoEntries r).flatMap vBytes)

/-! The matrix extension (Table 16.12) -/

def fmtCode : MFmt → Nat
  | .int8 => 0
  | .int4 => 1
  | .f16 => 2
  | .bf16 => 3
  | .e4m3 => 4
  | .e5m2 => 5
  | .int8a g => 64 + g / 32
  | .int4a g => 128 + g / 32
def fmtOfCode (n : Nat) : MFmt :=
  if 128 ≤ n then .int4a (32 * (n - 128)) else if 64 ≤ n then .int8a (32 * (n - 64))
  else match n with
    | 1 => .int4
    | 2 => .f16
    | 3 => .bf16
    | 4 => .e4m3
    | 5 => .e5m2
    | _ => .int8

def tileData (t : MTile) : List Byte := (List.range 64).flatMap fun i => toLe 64 (mget t.lines i 0).toNat
def tileRecs (t : MTile) : List Byte := (List.range 64).flatMap fun i => toLe 16 (mget t.records i 0).toNat
def tileOf (fmt : MFmt) (data recs : List Byte) : MTile where
  fmt := fmt
  lines := (List.range 64).map fun i => (i, BitVec.ofNat 512 (field data (64 * i) 64))
  records := (List.range 64).map fun i => (i, BitVec.ofNat 128 (field recs (16 * i) 16))

/-- Whether a core saves the state of its cluster's rotation: the position-0 core of a rotation gang (R354). -/
def savesRotation (s : State) (c : Nat) (x : Ctx) : Bool :=
  posOf c == 0 && !isGw c && (match gangOf s c x with
    | some g => dRot g.desc != 0
    | none => false)

/-- The extension: header, stationary register, latch, arrived tile, arrived latch, accumulators. Flags: bit 0 a latch,
bits 1 and 2 an arrived latch and an arrived tile, bits 3 and 4 whether a multiply still waits for them (in part DEDUCED, log 24). -/
def saveExt (s : State) (c n : Nat) : List Byte :=
  let k := getCore s c
  let cl := getCluster s (clusterOf c)
  let rot := savesRotation s c (ctxOf k n)
  let acc := pwAcc k.pword
  let blank := MTile.reset
  let latch := if rot then cl.latch else blank
  let x := ctxOf k n
  let arrived (l : List (Nat × MTile)) : Option MTile :=
    if rot then (l.find? fun e => e.1 == x.gen.toNat).map (·.2) else none
  let inLatch := arrived cl.linkLatch
  let inTile := arrived cl.linkTile
  let waits := rot && cl.rotFor == some (n, x.uid)
  let flags := boolBits [rot, inLatch.isSome, inTile.isSome, waits && cl.needLatch, waits && cl.needTile]
  let head := padTo 1024 (toLe 4 extMagic ++ toLe 4 acc ++ toLe 2 (fmtCode k.stat.fmt) ++ toLe 2 (fmtCode latch.fmt) ++
    toLe 2 (fmtCode (inLatch.getD blank).fmt) ++ toLe 2 (fmtCode (inTile.getD blank).fmt) ++ toLe 4 flags ++
    toLe 2 k.disc.toNat ++ toLe 2 k.zrow.toNat ++ toLe 1 k.refused.toNat ++ toLe 1 (b2n k.iovf))
  let tile (t : MTile) : List Byte := tileData t ++ tileRecs t
  let accs := (List.range acc).flatMap fun t => (List.range 64).flatMap fun r => (List.range 64).flatMap fun e =>
    toLe 4 (accGet k t r e)
  head ++ tile k.stat ++ tile latch ++ tile (inTile.getD blank) ++ tile (inLatch.getD blank) ++ List.replicate 3072 0 ++ accs

/-! Writing -/

/-- Bytes cut at pages. -/
def pageCuts : Nat → Nat → List Byte → List (Nat × List Byte)
  | 0, _, _ => []
  | f + 1, o, bs =>
    if bs.isEmpty then []
    else
      let n := 4096 - o % 4096
      (o, bs.take n) :: pageCuts f (o + n) (bs.drop n)

/-- Write bytes of a save area page by page; the address of the first failure (R352). -/
def saveWrite (c n priv a : Nat) : List (Nat × List Byte) → State → State × Option Nat
  | [], s => (s, none)
  | (o, bs) :: r, s =>
    match transRange s c priv .write (a + o) bs.length with
    | (s, .error f) => (s, some f.1)
    | (s, .ok pas) =>
      if pas.any fun pa => lostPlace s (.hbm pa) || peerFailed s (partOf s c) pa then
        (s, some (a + o))
      else
        saveWrite c n priv a r (homeWrite s c n (getCtx s c n).gen ((pas.map Place.hbm).zip bs))

/-! CTXSV -/

/-- Bytes of a save area: the extension of .M with the tiles of PWORD (R351, R354). -/
def areaSize (s : State) (m : Bool) : Nat := if m then 0xF000 + 16384 * pwAcc (myCore s).pword else 0x9000

/-- The checks of the save area. -/
def areaCheck (s : State) (m : Bool) (a : Nat) : Option Trap :=
  if apOf a ≠ .glob ∨ apOf (a + areaSize s m - 1) ≠ .glob then some (tAPERTURE a)
  else if a % 4096 ≠ 0 then some (tMISALIGNED a) else none

def setSaved (s : State) (c : Nat) (x : Ctx) (saved : Bool) : State :=
  match (if x.member then gangOf s c x else none) with
  | some g => modGang s (partOf s c) g.id fun g => modMember g c fun m => { m with saved }
  | none => s

/-- Give up what a context holds of its core without resolving its guards. -/
def dropHeld (s : State) (c n : Nat) : State :=
  let s := modCore s c fun k => { k with guards := k.guards.map fun g => if g.owner = some n then { g with owner := none } else g }
  if (getCore s c).client = some n then releaseLease s c else s

/-- The slot goes to the save area; the core keeps what the area does not hold (in part DEDUCED, log 24). -/
def parkCtx (s : State) (c n : Nat) (cmds : List MCmd) : State :=
  let x := getCtx s c n
  let client := (getCore s c).client == some n || x.replay.isSome
  let kept : Ctx :=
    { x with frozen := false, freezing := false, stopping := false, areaPushes := (savedPushes x.regs).sum, replay := if client then some cmds else none,
             regs := { Regs.reset with pend := x.regs.pend, fPush := leftPushes x.regs } }
  let s := freeCtxSlot (dropHeld s c n) c n
  setSaved (modCore s c fun k => { k with parked := mset k.parked x.uid kept }) c x true

/-- A context whose registers cannot be read is lost (R352) (in part DESIGN CHOICE, log 37). -/
def loseCtx (s : State) (c n : Nat) : State :=
  let x := getCtx s c n
  let (s, q) := takeQueued s c n
  let s := reportHeld s c n x 5 (q ++ x.replay.getD [])
  let s := releaseGuards (flushOverflow (flushTurns s c n x.regs.pend) c n) c n
  let s := if (getCore s c).client = some n then releaseLease s c else s
  let s := match x.chan, x.landing with
    | some ch, some id => freeLanding s c ch id
    | _, _ => s
  let s := freeCtxSlot s c n
  match (if x.member then gangOf s c x else none) with
  | some g => modGang s (partOf s c) g.id fun g => modMember g c fun m => { m with lost := true }
  | none => s

/-- The save itself: the extension, then the area in ascending offset, then its header. -/
def saveCtx (s : State) (m : Bool) (n a : Nat) : State × Option Nat :=
  let c := myId s
  let s := flushOverflow s c n
  let k := getCore s c
  let x := ctxOf k n
  let cmds := (k.mq.filter fun q => q.ctx == n && q.uid == x.uid) ++ x.replay.getD []
  let stamps := x.stamps.take 16
  let parts := (if m then pageCuts 128 0x9000 (saveExt s c n) else []) ++ pageCuts 16 64 (saveBody s c n cmds stamps) ++
    [(0, saveHeader s c n cmds stamps)]
  match saveWrite c n (me s).priv.toNat a parts s with
  | (s, some f) => (s, some f)
  | (s, none) =>
    let (s, _) := takeQueued s c n
    (parkCtx s c n cmds, none)

/-- The body of CTXSV and CTXSV.M (in part DESIGN CHOICE, log 37). -/
def ctxsvBody (m : Bool) (d : SReg) (n : Nat) (a : Nat) (s : State) : Act :=
  let c := myId s
  if pwCtx (myCore s).pword ≤ n ∨ n = myN s then .trap s tILLEGAL
  else match areaCheck s m a with
    | some t => .trap s t
    | none =>
      let x := getCtx s c n
      if !x.resident || !x.frozen then status s d 2
      else if !settled s c n then .hold
      else if x.lost then status (loseCtx s c n) d 4
      else match saveCtx s m n a with
        | (s, none) => status s d 0
        | (s, some f) => status (modMe (ctxRecord s c n 9 17 0 0 f 0) fun x => { x with faddr := word f }) d 3

/-- CTXSV (R351). -/
def execCtxsv (c : Cond) (d : SReg) (n : BitVec 3) (a : SSrc) (s : State) : Out :=
  .next (issue (.ctxsv c d n a) s fun s => ctxsvBody false d n.toNat (sv s a).toNat s)

/-- CTXSV.M (R354). -/
def execCtxsvM (c : Cond) (d : SReg) (n : BitVec 3) (a : SSrc) (s : State) : Out :=
  .next (issue (.ctxsvM c d n a) s fun s => ctxsvBody true d n.toNat (sv s a).toNat s)

/-! CTXLD -/

/-- Read n bytes of a save area. -/
def loadArea (s : State) (a n : Nat) : State × Option (List Byte) :=
  match transRange s (myId s) (me s).priv.toNat .read a n with
  | (s, .error _) => (s, none)
  | (s, .ok pas) =>
    if pas.any (badPa s (partOf s (myId s))) then (noteBad s pas, none)
    else (noteFar s (partOf s (myId s)) pas, some (pas.map fun pa => readPlace s (.hbm pa)))

/-- The pending reads of an area that no saved task of the core tags. -/
def readOf (c : Nat) (serial : Nat) (bs : List Byte) : Pending :=
  let off := field bs 0 8 % 2 ^ 20
  let n := field bs 8 2
  let kind := field bs 11 1
  let words (m : Nat) : List Nat := (wordsOf (poolPlaces c off m)).map (·.2)
  if kind = 2 then
    { id := serial, dest := .v (BitVec.ofNat 5 (field bs 10 1)),
      prod := .sync (words 256) { els := (List.range 64).map fun i => (i, .raw (poolPlaces c (off + 4 * i) 4)), vec := true,
                                  bytes := n, sx := false } }
  else
    { id := serial, dest := .s (BitVec.ofNat 6 (field bs 10 1)),
      prod := .sync (words n) { els := [(0, .raw (poolPlaces c off n))], vec := false, bytes := n, sx := kind == 1 } }

/-- A window descriptor as a context holds it: reserved bits read zero, and one with EN = 0 is zero (04 R103, R106). -/
def loadedWd (w : Nat) (v : Word) : Word :=
  if !v.getLsbD 63 then 0 else if w = 7 then v &&& 0x800000000000000F else v &&& 0x803FFFFFFFE7FFFF

/-- A privilege as STATUS holds it: 3 is stored as 1 (Table 16.1). An area that holds 2 gives firmware privilege; the spec enters
it at boot alone and says nothing of such an area (DESIGN CHOICE, log 24). -/
def loadedPriv (n : Nat) : BitVec 2 := if n = 3 then 1 else BitVec.ofNat 2 n

/-- The registers that an area holds (in part DEDUCED, log 24). -/
def loadRegs (s : State) (c : Nat) (bs : List Byte) (kept : Option Ctx) : Regs :=
  let fcount (i : Nat) : Nat := field bs (0x640 + 4 * i) 4
  let before (i : Nat) : Nat := ((List.range i).map fun j => fcount j + fcount (4 + j)).sum
  let entry (i : Nat) : VWord := vOfBytes ((bs.drop (0x2800 + 256 * i)).take 256)
  let fifo (i : Nat) : List VWord := (List.range (minNat (fcount i) 8)).map fun j => entry (before i + j)
  let push (i : Nat) : List VWord := (List.range (minNat (fcount (4 + i)) 96)).map fun j => entry (before i + fcount i + j)
  { pc := fieldW bs 16
    s := Vector.ofFn fun i : Fin 64 => fieldW bs (0x40 + 8 * i.val)
    sE := BitVec.ofNat 64 (field bs 0x240 8)
    v := Vector.ofFn fun i : Fin 32 => vOfBytes ((bs.drop (0x800 + 256 * i.val)).take 256)
    vE := BitVec.ofNat 32 (field bs 0x248 4)
    p := Vector.ofFn fun i : Fin 8 => BitVec.ofNat 64 (field bs (0x250 + 8 * i.val) 8)
    q := BitVec.ofNat 8 (field bs 0x290 1)
    qE := BitVec.ofNat 8 (field bs 0x24C 1)
    x := Vector.ofFn fun i : Fin 4 =>
      { base := fieldW bs (0x320 + 32 * i.val), idx := fieldW bs (0x328 + 32 * i.val),
        n := BitVec.ofNat 32 (field bs (0x330 + 32 * i.val) 4), k := BitVec.ofNat 2 (field bs (0x334 + 32 * i.val) 4),
        cur := field bs (0x338 + 32 * i.val) 8 }
    f := Vector.ofFn fun i : Fin 4 => fifo i.val
    fPush := Vector.ofFn fun i : Fin 4 => push i.val ++ (kept.elim [] fun x => x.regs.fPush.get i)
    fstat := BitVec.ofNat 6 (field bs 0x2A0 8) ||| kept.elim 0 (·.regs.fstat)
    mldtCur := field bs 40 8
    wd5 := loadedWd 5 (fieldW bs 0x2E0)
    wd6 := loadedWd 6 (fieldW bs 0x2E8)
    wd7 := loadedWd 7 (fieldW bs 0x2F0)
    pend := match kept with
      | some x => x.regs.pend
      | none => (List.range (minNat (field bs 48 1) 8)).map fun i => readOf c (s.serial + 1 + i) (bs.drop (0x3A0 + 16 * i)) }

/-- A command of the saved queue; words that decode to no instruction give none. MMAG's index rows stay with the core. -/
def loadCmd (bs : List Byte) (kept : Option MCmd) : Option MCmd :=
  match decodeBytes (bs.take 16) with
  | some (.ok i) =>
    some { id := 0, ctx := 0, uid := 0, instr := i, base := fieldW bs 40, idx := kept.elim [] (·.idx), wd5 := fieldW bs 16,
           wd6 := fieldW bs 24, wd7 := fieldW bs 32, go := false, started := false,
           row := 0, flags := 0 }
  | _ => none

def loadCmds (bs : List Byte) (kept : List MCmd) : List MCmd :=
  (List.range (minNat (field bs 0x4A0 1) 8)).filterMap fun i => loadCmd (bs.drop (0x4C0 + 48 * i)) (kept[i]?)

/-- The context that an area gives (in part DEDUCED, log 24). -/
def loadedCtx (s : State) (c : Nat) (bs : List Byte) (kept : Option Ctx) : Ctx :=
  let st := field bs 24 8
  let base := kept.getD { Ctx.reset with uid := s.serial, gen := BitVec.ofNat 16 (field bs 12 2) }
  { base with
    regs := loadRegs s c bs kept
    resident := true
    frozen := true
    areaPushes := 0
    intrap := bitOf st 4
    ppriv := loadedPriv (bitsOf st 3 2)
    priv := loadedPriv (bitsOf st 1 0)
    ovp := ovpBits (fieldW bs 0x2A8)
    prio := BitVec.ofNat 8 (field bs 0x2B0 8)
    cause := causeBits (fieldW bs 0x2B8)
    epc := fieldW bs 0x2C0
    faddr := fieldW bs 0x2C8
    tvec := tvecBits (fieldW bs 0x2D0)
    scratch := fieldW bs 0x2D8
    replay := if field bs 32 1 = 1 then some (loadCmds bs (kept.elim [] fun x => x.replay.getD [])) else none }

/-- Guard slots that an area names, each with its saved state. -/
def loadGuards (bs : List Byte) (n : Nat) (k : Core) : Core :=
  { k with guards := Vector.ofFn fun i : Fin 8 =>
      if bitOf (field bs 0x291 1) i.val then { owner := some n, val := guardOfCode (field bs 0x292 2 / 4 ^ i.val % 4) }
      else k.guards.get i }

def guardsTaken (bs : List Byte) (n : Nat) (k : Core) : Bool :=
  k.guards.toList.zipIdx.any fun e => bitOf (field bs 0x291 1) e.2 && e.1.owner.isSome && e.1.owner != some n

/-- The matrix state of an extension. What has arrived on the links for the gang after the saved latch and tile is still
there (in part DEDUCED, log 24). -/
def loadExt (s : State) (c n : Nat) (x : Ctx) (ext : List Byte) : State :=
  let flags := field ext 16 4
  let acc := minNat (field ext 4 4) 16
  let tile (fo o : Nat) : MTile := tileOf (fmtOfCode (field ext fo 2)) ((ext.drop o).take 4096) ((ext.drop (o + 4096)).take 1024)
  let s := modCore s c fun k =>
    { k with stat := tile 8 0x400, disc := BitVec.ofNat 16 (field ext 20 2), zrow := BitVec.ofNat 16 (field ext 22 2),
             refused := BitVec.ofNat 8 (field ext 24 1), iovf := field ext 25 1 == 1 }
  let s := (List.range acc).foldl (fun s t => modCore s c fun k => (List.range 4096).foldl (fun k i =>
    accSet k t (i / 64) (i % 64) (field ext (0x6000 + 16384 * t + 4 * i) 4)) k) s
  if bitOf flags 0 then
    let gen := x.gen.toNat
    let put (b : Bool) (t : MTile) (l : List (Nat × MTile)) : List (Nat × MTile) :=
      if b then (gen, t) :: l.eraseP fun e => e.1 == gen else l
    modCluster s (clusterOf c) fun k =>
      { k with latch := tile 10 0x1800, linkLatch := put (bitOf flags 1) (tile 12 0x4000) k.linkLatch,
               linkTile := put (bitOf flags 2) (tile 14 0x2C00) k.linkTile, needLatch := bitOf flags 3, needTile := bitOf flags 4,
               rotFor := if bitOf flags 3 || bitOf flags 4 then some (n, x.uid) else k.rotFor }
  else s

/-- Clear VALID in the header; false: it cannot be written. -/
def clearValid (s : State) (n a : Nat) : State × Bool :=
  match saveWrite (myId s) n (me s).priv.toNat a [(4, toLe 4 0)] s with
  | (s, none) => (s, true)
  | (s, some _) => (s, false)

/-- Put a loaded context into its slot; its fault batch registers are the slot's (18 R390), and it regains client status
only after its resume (17 R376) (in part DEDUCED, log 24). -/
def placeLoaded (s : State) (n : Nat) (bs : List Byte) (ext : Option (List Byte)) : State :=
  let c := myId s
  let tag := field bs 56 8
  let kept := ((getCore s c).parked.find? fun e => e.1 == tag).map (·.2)
  let x := loadedCtx s c bs kept
  let s := match ext with
    | some e => loadExt s c n x e
    | none => s
  let s := modCore { s with serial := s.serial + 16 } c fun k =>
    loadGuards bs n { k with ctxs := mset k.ctxs n { x with lastIssue := (ctxOf k n).lastIssue, batch := (ctxOf k n).batch },
                             parked := k.parked.filter fun e => e.1 != tag }
  setSaved s c x false

/-- The body of CTXLD and CTXLD.M (R353, R354) (in part DEDUCED, log 32). Where VALID cannot be cleared, CTXLD answers LOAD_FAULT and
loads nothing; the spec does not say (DESIGN CHOICE, log 24). -/
def ctxldBody (m : Bool) (d : SReg) (n : Nat) (a : Nat) (s : State) : Act :=
  let c := myId s
  if pwCtx (myCore s).pword ≤ n ∨ (getCtx s c n).resident = true then .trap s tILLEGAL
  else match areaCheck s m a with
    | some t => .trap s t
    | none =>
      match loadArea s a 64 with
      | (s, none) => status s d 5
      | (s, some h) =>
        if field h 0 4 ≠ saveMagic ∨ field h 4 4 % 2 = 0 then status s d 5
        else if field h 8 2 ≠ c ∨ field h 10 2 % 8 ≠ n then .trap s tILLEGAL
        else match loadArea s a (areaSize s m) with
          | (s, none) => status s d 5
          | (s, some bs) =>
            let ext := bs.drop 0x9000
            if m = true ∧ field ext 0 4 ≠ extMagic then status s d 5
            else if guardsTaken bs n (getCore s c) then status s d 6
            else match clearValid s n a with
              | (s, false) => status s d 5
              | (s, true) => status (placeLoaded s n bs (if m then some ext else none)) d 0

/-- CTXLD (R353). -/
def execCtxld (c : Cond) (d : SReg) (n : BitVec 3) (a : SSrc) (s : State) : Out :=
  .next (issue (.ctxld c d n a) s fun s => ctxldBody false d n.toNat (sv s a).toNat s)

/-- CTXLD.M (R354). -/
def execCtxldM (c : Cond) (d : SReg) (n : BitVec 3) (a : SSrc) (s : State) : Out :=
  .next (issue (.ctxldM c d n a) s fun s => ctxldBody true d n.toNat (sv s a).toNat s)

end Sys2Proof.Machine
end

