-- ==== Sys2Proof/Machine/Units.lean ====
section
/-! DEFINITION. Fetching an instruction (06 R136 to R138, R146), and the steps FETCH_FILL, PAGE_WALK, PRODUCER_RESULT,
RANGE_UNIT_OPERATION and RUN_AHEAD_END. -/

namespace Sys2Proof.Machine

/-! Fetch -/

/-- The bytes of a fetch block that a core holds under its kernel id (01 R38). -/
def cachedBlock (k : Core) (kid : BitVec 32) (blk : Nat) : Option (List Byte) :=
  (k.icache.find? fun b => b.kid == kid && b.addr.toNat == blk).map (·.data)

/-- The batch entry of a fetch fault (18 R391). -/
def fetchTrap (pc kind level : Nat) : Trap := { mkTrap 7 pc with pages := [batchEntry pc kind level false true] }

/-- The block that a context has at hand for its next fetch: one that came too late for the cache, else the cached one. -/
def heldBlock (s : State) (c n blk : Nat) : Option (List Byte) :=
  let x := getCtx s c n
  match x.block with
  | some b => if b.kid == x.kernel && b.addr.toNat == blk then some b.data else cachedBlock (getCore s c) x.kernel blk
  | none => cachedBlock (getCore s c) x.kernel blk

/-- A block that came too late for the cache serves one fetch. -/
def spendHeld (s : State) (c n : Nat) : State :=
  if (getCtx s c n).block.isSome then modCtx s c n fun x => { x with block := none } else s

/-- The 32 bytes of the block at a fetch address, or the trap of steps 1 and 2 of 06 Table 6.5; or (error none) the block is
not there: the fetch agent is asked for it, and the context waits (01 R38). An address that cannot start an instruction, such
as block offset 28, is MISALIGNED at the first fetch (02 R57) (in part DEDUCED, log 32). Run-ahead, which leaves no trace in
a cache (18 R389), has the agent fetch a missing block for that one instruction (DESIGN CHOICE, log 40). -/
def fetchBlock (s : State) (c n pc : Nat) : State × Except (Option Trap) (List Byte) :=
  let x := getCtx s c n
  let blk := pc / 32 * 32
  if apOf pc ≠ .glob then (s, .error (some (tAPERTURE pc)))
  else if badTarget (word pc) then (s, .error (some (tMISALIGNED pc)))
  else match translate s c x.priv.toNat x.ra.isSome .fetch pc with
    | (s, .fault k l) => (s, .error (some (fetchTrap pc k l)))
    | (s, .unplaced) => (s, .error (some (fetchTrap pc 0 0)))
    | (s, .pa a) =>
      match heldBlock s c n blk with
      | some d => (spendHeld s c n, .ok d)
      | none =>
        let pas := (List.range 32).map fun i => a - pc % 32 + i
        if pas.any (badPa s (partOf s c)) then (noteBad s pas, .error (some (mkTrap 0x11 pc)))
        else if x.ra.isSome then (noteFar s (partOf s c) pas, .ok (pas.map fun pa => readPlace s (.hbm pa)))
        else (askFill s c x.kernel blk (a - pc % 32), .error none)

/-- Whether an error of decoding is the PRIVILEGE of step 6: a privileged major at task privilege. -/
def majorPrivileged (op : Nat) : Bool := decide (0xE4 ≤ op) && decide (op ≤ 0xEE)

/-- Steps 3 to 8 of 06 Table 6.5 on a block: the instruction at an address (in part DEDUCED, log 17). -/
def decodeAt (priv pc : Nat) (d : List Byte) : Except Trap Instr :=
  let off := pc % 32
  let here := d.drop off
  let w := fromLe (here.take 8)
  let first := fromLe (d.take 4)
  if first % 4 = 3 then .error (mkTrap 0x04 ((pc / 32 * 32 + 2 ^ 64 - 32 * bitsOf first 31 16) % 2 ^ 64))
  else if w % 4 = 3 then .error (mkTrap 0x04 pc)
  else if 32 < off + lengthOf w then .error { tILLEGAL with faddr := word pc }
  else match decodeBytes here with
    | none => .error tILLEGAL
    | some (.ok i) => .ok i
    | some (.error .illegal) => .error tILLEGAL
    | some (.error e) =>
      if priv = 0 ∧ majorPrivileged (bitsOf w 9 2) = true then .error tPRIVILEGE
      else if e = .reserved then .error tRESERVED else .error tILLEGAL

/-- Fetch the next instruction of a context: error none while its block is not there. -/
def fetchInstr (s : State) (c n : Nat) : State × Except (Option Trap) Instr :=
  let x := getCtx s c n
  let pc := x.regs.pc.toNat
  match fetchBlock s c n pc with
  | (s, .error t) => (s, .error t)
  | (s, .ok d) => (s, match decodeAt x.priv.toNat pc d with
    | .ok i => .ok i
    | .error t => .error (some t))

/-- Put a block first into the instruction cache of a core, which holds 1,024 of them (01 Table 1.2). -/
def cacheBlock (s : State) (b : ICacheBlock) (c : Nat) : State :=
  modCore s c fun k =>
    { k with icache := (b :: k.icache.filter fun e => !(e.kid == b.kid && e.addr == b.addr)).take 1024 }

/-- Give a block to the contexts of a core that wait for it, and to no cache. -/
def lendBlock (s : State) (b : ICacheBlock) (c : Nat) : State :=
  (List.range 8).foldl (fun s n =>
    let x := getCtx s c n
    if x.resident && x.kernel == b.kid && x.regs.pc.toNat / 32 * 32 == b.addr.toNat then
      modCtx s c n fun x => { x with block := some b }
    else s) s

/-- A block arrives at the fetch agent of a stratum, which hands the same bytes to every core that has asked for it; a block
whose kernel id was invalidated meanwhile goes to the waiting fetches alone and stays in no cache. A block that cannot be
read goes to none, and each fetch finds that out for itself. -/
def fillBlock (s : State) (z : Nat) (kid : BitVec 32) (addr : Nat) : State :=
  let mine (f : FillReq) : Bool := f.kid == kid && f.addr == word (addr / 32 * 32)
  match (getStratum s z).fetches.find? mine with
  | none => s
  | some f =>
    let part := partOf s (f.cores.headD 0)
    let pas := (List.range 32).map (f.pa + ·)
    let s := noteFar (modStratum s z fun y => { y with fetches := y.fetches.erase f }) part pas
    if pas.any (badPa s part) then noteBad s pas
    else
      let b : ICacheBlock := { kid, addr := f.addr, data := pas.map fun pa => readPlace s (.hbm pa) }
      f.cores.foldl (fun t c => if f.stale then lendBlock t b c else cacheBlock t b c) s

/-- FETCH_FILL (01 R38): operands i the stratum, or 16 the base die, x the address, y the kernel id. -/
def execFetchFill (s : State) : Out :=
  if s.arg.i < 17 then .next (fillBlock s s.arg.i (s.arg.y.setWidth 32) s.arg.x.toNat) else .fault (.noSuchUnit s.arg.i)

/-! PAGE_WALK (18 R380, R382, R385) -/

def kindOf (n : Nat) : AK := if n = 0 then .fetch else if n = 1 then .read else .write

/-- Put a translation into the TLBs of a core, its cluster and its stratum, newest first. -/
def fillTlbs (s : State) (c : Nat) (e : TlbEntry) : State :=
  let s := modCore s c fun k => { k with utlb := tlbPush 32 e k.utlb }
  let s := modCluster s (clusterOf c) fun k => { k with tlb := tlbPush 512 e k.tlb }
  modStratum s (layerOf c) fun z => { z with tlb := tlbPush 16384 e z.tlb }

/-- A walk for a core, with its claim of an unplaced page; a leaf that permits the access enters the TLBs. -/
def pageWalk (s : State) (c priv : Nat) (k : AK) (va : Nat) (rival : Option Word) : State :=
  match walk s (partOf s c) priv false k va rival with
  | (s, .pa _) =>
    match walkOnce s (partOf s c) priv k va with
    | (.pa _, none, level, e) => fillTlbs s c (tlbEntry (partOf s c) va level e)
    | _ => s
  | (s, _) => s

/-- PAGE_WALK: operands i the core, j the privilege, k the kind of access (0 fetch, 1 read, 2 write), x the address; b and
y: another module has put y into an unplaced entry first. -/
def execPageWalk (s : State) : Out :=
  if validCore s.arg.i then
    .next (pageWalk s s.arg.i s.arg.j (kindOf s.arg.k) (bitsOf s.arg.x.toNat 55 0) (if s.arg.b then some s.arg.y else none))
  else .fault (.noSuchCore s.arg.i)

/-! PRODUCER_RESULT (06 R151) -/

/-- The value of a checked read. -/
def planValue (s : State) (p : Plan) : Res × FFlags :=
  if p.vec then
    let v := readLanes s p.els
    (.v v.1.1 v.1.2, v.2)
  else
    let v := elsValue s (p.els.map (·.2))
    (.s (extend p.sx p.bytes v.1), v.2)

/-- The result of a producer of a context, once it is there. An LDSY, or a load behind one, reads in its turn, after the
stores of its context that overlap it (05 R115, R118); in a frozen context it is withdrawn (16 Table 16.7). A CPYW waits for
its copies alone, not for an LDSY before it (08 Table 8.11). -/
def resultOf (s : State) (c n : Nat) (p : Pending) : Option (Res × FFlags) :=
  let k := getCore s c
  let x := ctxOf k n
  let reads (plan : Plan) : Bool :=
    !behind x.regs p.id && !overlapsOwn s c n x.uid p.id (plan.els.map (·.2)) && !elsStopped s c (plan.els.map (·.2)) &&
      !regionsShut s (plan.els.map (·.2)) (some p.id)
  match p.prod with
  | .val r f => some (r, f)
  | .sync words plan => if !x.frozen && words.all (wordFull s c) && reads plan then some (planValue s plan) else none
  | .read plan => if reads plan then some (planValue s plan) else none
  | .device off none =>
    if behind x.regs p.id then none
    else match devLoad { s with cur := (c, n) } off 8 with
      | .ok v => some (.s v, 0)
      | .error _ => some (.s 0, 0)
  | .cpyw all tag upto =>
    if cpywReady k n x all tag upto && !fenceeHeld s c n x.uid p.id then some (.s (cpywValue x all tag upto), 0) else none
  | .preempt g =>
    if (findGang s (partOf s c) g).elim true (gangFrozen s) then some (.s 0, 0) else none
  | _ => none

def planOf : Prod → Option Plan
  | .sync _ plan => some plan
  | .read plan => some plan
  | _ => none

/-- What a read brings about before it reads: peers answer, and the plastic rows come up to the order that its stamp gives
it (10 R271). -/
def settleProd (s : State) (c : Nat) (p : Pending) : State :=
  match planOf p.prod with
  | some plan =>
    let els := plan.els.map (·.2)
    settleEls (touchEls s (partOf s c) els) els
  | none => s

/-- The stamp of a read that is performed leaves the list of the trace unit. -/
def dropStamp (s : State) (c : Nat) (p : Pending) : State :=
  match planOf p.prod with
  | some plan => if plan.els.any fun e => isPlast e.2 then modCore s c fun k => { k with tl := delCmd p.id k.tl } else s
  | none => s

def findPend (x : Ctx) (id : Nat) : Option Pending :=
  (x.regs.pend ++ (x.ra.elim [] fun a => a.saved.pend)).find? fun p => p.id == id

/-- Whether the next context may take a lease or a guard slot: it is free or already its own, and a frozen context takes
nothing (16 Table 16.7). -/
def mayTake (x : Ctx) (n : Nat) (owner : Option Nat) : Bool := !x.frozen && owner.all (· == n)

/-- Whether a command on guards or the lease may act: no FENCEE holds it, and none before it waits. -/
def guardTurnCome (s : State) (c n : Nat) (p : Pending) : Bool :=
  let x := getCtx s c n
  !fenceeHeld s c n x.uid p.id && !(x.regs.pend.any fun q => decide (q.id < p.id) && isGuardTurn q.prod) &&
    (match p.prod with
      | .gset .. => true
      | .gfree _ => true
      | .mstat _ => true
      | .mrel => !leaseBusy s c
      | .mlease => mayTake x n (getCore s c).client
      | .gclr g => mayTake x n (guardAt (getCore s c) g).owner
      | .array _ => decide ((getCore s c).mq.length < 8)
      | _ => false)

/-- Whether an access or a command that waits for its turn may be performed (08 R206, R222); a release once the accesses
before it are performed (05 R120). -/
def turnCome (s : State) (c n : Nat) (p : Pending) : Bool :=
  let s' := { s with cur := (c, n) }
  let x := getCtx s c n
  guardTurnCome s c n p || (!behind x.regs p.id && (match p.prod with
    | .put kind addr els _ rel =>
      !storeWaits s' addr (els.flatMap elPlaces) && !(rel && unreleasedAt s c n p.id (if kind = 4 then farModule els else none))
    | .scatter as els _ => !scatterWaits s' as els
    | .request _ _ rel => !(rel && unreleasedAt s c n p.id none)
    | .device _ (some _) => true
    | .clear _ => true
    | .trhz sel k _ => !engineHeld s c n x.uid p.id && !trhzShut s c n x.uid sel k p.id
    | .bsend _ _ dest .. => !engineHeld s c n x.uid p.id && !pairFull (getPeer s (bitsOf dest.toNat 6 0))
    | .bqdone _ => !engineHeld s c n x.uid p.id
    | .bara _ => !unreleasedAt s c n p.id none
    | .flowsig .. => !unreleasedAt s c n p.id none
    | _ => false))

/-- Whether a producer has something to deliver or to perform now; a core performs nothing while its clock stands still (01
R26). -/
def pendReady (s : State) (c n : Nat) (p : Pending) : Bool :=
  !clockStopped s c && ((resultOf s c n p).isSome || turnCome s c n p)

/-- A producer that is ready delivers, or its access is performed. -/
def deliverNow (s : State) (c n : Nat) (p : Pending) : State :=
  if turnCome s c n p then performTurn s c n p
  else
    let s := settleProd s c p
    match resultOf s c n p with
    | none => s
    | some (x, f) => dropStamp (modBoth s c n fun r => putResult r p x f) c p

/-- A producer of a context delivers, or an access that waits for its turn is performed, where the page tables place it by then
(18 R383); one whose page does not translate any more waits, since the spec gives it no trap (DESIGN CHOICE, log 38). -/
def deliver (s : State) (c n : Nat) (p : Pending) : State :=
  if !pendReady s c n p then s
  else
    let r := renewed s c p
    match r.2 with
    | some q => if pendReady r.1 c n q then deliverNow r.1 c n q else { s with touched := r.1.touched }
    | none => { s with touched := r.1.touched }

/-! What a task has left behind DONE goes on in its own context (07 R168) -/

/-- The ended task of context n that a producer belongs to, under its key. -/
def endedOf (k : Core) (n id : Nat) : Option (Nat × Ctx) :=
  k.ended.find? fun e => e.1 % 8 == n && e.2.regs.pend.any fun p => p.id == id

/-- Do something for an ended task as though it continued: what stands in its slot now is untouched. -/
def forEnded (s : State) (c n : Nat) (e : Nat × Ctx) (f : State → State) : State :=
  let t := standIn s c n e.2 f
  modCore t.1 c fun k => { k with ended := mset k.ended e.1 t.2 }

/-- Producer id of a context, or of a task that has ended in its slot. -/
def producerDone (s : State) (c n id : Nat) : State :=
  match findPend (getCtx s c n) id with
  | some p => deliver s c n p
  | none =>
    match endedOf (getCore s c) n id with
    | none => s
    | some e => forEnded s c n e fun s =>
        flushOverflow ((findPend e.2 id).elim s (deliver s c n)) c n

/-- PRODUCER_RESULT: operands i the core, j the context, k the producer. -/
def execProducerResult (s : State) : Out :=
  if validCore s.arg.i then .next (producerDone s s.arg.i s.arg.j s.arg.k) else .fault (.noSuchCore s.arg.i)

/-! RANGE_UNIT_OPERATION (02 R61) -/

/-- What GRAB takes of a range: the count, and the range after it. -/
def grabRange (e : RangeEnt) : Nat × RangeEnt :=
  let share := (e.rem.toNat + e.d.toNat - 1) / e.d.toNat
  let want := if e.c.toNat < share then share else e.c.toNat
  let count := if e.rem.toNat < want then e.rem.toNat else want
  (count, { e with start := e.start + word count, rem := e.rem - word count })

def rangeOf (z : Stratum) (n : Nat) : RangeEnt := mget z.ranges n RangeEnt.reset

/-- The first operation in the queue of a stratum's range unit. -/
def rangeOperation (s : State) (z : Nat) : State :=
  let y := getStratum s z
  match y.rangeQ with
  | [] => s
  | .set n e :: r => modStratum s z fun y => { y with rangeQ := r, ranges := mset y.ranges n e }
  | .grab c n pid range :: r =>
    let old := rangeOf y range
    let g := grabRange old
    let s := modStratum s z fun y => { y with rangeQ := r, ranges := mset y.ranges range g.2 }
    fulfil s c n pid (.pair old.start (word g.1)) 0

/-- RANGE_UNIT_OPERATION: operand i the stratum. -/
def execRangeUnitOperation (s : State) : Out :=
  if s.arg.i < 16 then .next (rangeOperation s s.arg.i) else .fault (.noSuchUnit s.arg.i)

/-! RUN_AHEAD_END (18 R389) -/

/-- Whether the run-ahead of a context is over: it has met its end, and the walks that it has under way have been answered. -/
def aheadEnded (s : State) (c n : Nat) : Bool :=
  ((getCtx s c n).ra.bind fun a => a.ending).isSome && !aheadWalks s c n && !clockStopped s c

/-- Roll a context back and trap, when its run-ahead is over. -/
def aheadOver (s : State) (c n : Nat) : State := if aheadEnded s c n then finishAhead s c n else s

/-- RUN_AHEAD_END: operands i the core, j the context. -/
def execRunAheadEnd (s : State) : Out :=
  if validCore s.arg.i then .next (aheadOver s s.arg.i s.arg.j) else .fault (.noSuchCore s.arg.i)

end Sys2Proof.Machine
end

