-- ==== Sys2Proof/Machine/Select.lean ====
section
/-! DEFINITION. The selection of a context by its core, ISSUE_SELECTION and PRIORITY_AGING (02 R58 to R60). Which
contexts are able to issue is an operand, which the schedule finds by trying each (DESIGN CHOICE, log 3). -/

namespace Sys2Proof.Machine

/-- Whether a context may issue at all: resident, not frozen, not in a YIELD, nothing to replay first; once a PREEMPT
has stopped it at its boundary it only completes a request under way (16 R350). -/
def mayIssue (s : State) (c n : Nat) : Bool :=
  let x := getCtx s c n
  x.resident && !x.frozen && !x.yielding && x.replay.isNone && (!x.stopping || x.await.isSome)

/-- Whether the instructions of a core run: its stratum is awake and its clock is not stopped (01 R39, 20 R416). -/
def coreRuns (s : State) (c : Nat) : Bool := coreAwake s c && !clockStopped s c

/-- The contexts of a mask that may issue. -/
def readyOf (s : State) (c : Nat) (mask : Word) : List Nat :=
  (List.range 8).filter fun n => mask.getLsbD n && mayIssue s c n

/-- Whether context a goes before context b: higher effective priority, then the one that issued least recently. -/
def goesFirst (k : Core) (a b : Nat) : Bool :=
  let x := ctxOf k a
  let y := ctxOf k b
  decide (effPrio y < effPrio x) || (effPrio x == effPrio y && decide (x.lastIssue < y.lastIssue))

/-- The context that a core selects among those that are ready; of contexts alike in both that have not issued yet, the
lowest number (DESIGN CHOICE, log 40). -/
def selectOf (k : Core) : List Nat → Option Nat
  | [] => none
  | a :: r => match selectOf k r with
    | none => some a
    | some b => if goesFirst k b a then some b else some a

/-- A ready context is passed over for one core cycle; a full 4,096 cycles call PRIORITY_AGING (R59). -/
def passOver (s : State) (c n : Nat) : State :=
  let s := modCtx s c n fun x => { x with passed := x.passed + 1 }
  if 4096 ≤ (getCtx s c n).passed then
    { s with agenda := ⟨.priorityAging, { StepArg.none with i := c, j := n }⟩ :: s.agenda }
  else s

/-- Freezes that have settled, and clients that return, come before the selection. -/
def settleCtxs (s : State) (c : Nat) : State :=
  (List.range 8).foldl (fun s n =>
    let s := settleFreeze s c n
    if (getCtx s c n).resident && !(getCtx s c n).frozen then settleClient s c n else s) s

/-- A core cycle in which a core with a resident context issues nothing is a stall (20 R415); a clock that stands still has
no cycles. -/
def countIdle (s : State) (c : Nat) : State :=
  if isGw c || clockStopped s c || (residents (getCore s c)).isEmpty then s
  else modPower s (stratumOf c) fun p => { p with idle := p.idle + 1 }

/-- One core cycle of a core: the selected context issues next, the other ready ones are passed over. -/
def selectIssue (s : State) (c : Nat) (mask : Word) : State :=
  let s := settleCtxs s c
  let ready := if coreRuns s c then readyOf s c mask else []
  match selectOf (getCore s c) ready with
  | none => countIdle s c
  | some n =>
    let s := (ready.filter fun m => m != n).foldl (fun s m => passOver s c m) s
    let s := modCtx s c n fun x => { x with passed := 0, aged := 0, eprio := effPrio x, lastIssue := s.serial }
    { s with serial := s.serial + 1, cur := (c, n), issuing := true }

/-- ISSUE_SELECTION (R59): operands i the core, x the mask of the contexts that are able to issue. -/
def execIssueSelection (s : State) : Out :=
  if validCore s.arg.i then .next (selectIssue s s.arg.i s.arg.x) else .fault (.noSuchCore s.arg.i)

/-- A full count of 4,096 cycles is worth one of effective priority. -/
def agePriority (s : State) (c n : Nat) : State :=
  modCtx s c n fun x => if 4096 ≤ x.passed then { x with passed := x.passed - 4096, aged := x.aged + 1 } else x

/-- PRIORITY_AGING (R59): operands i the core, j the context. -/
def execPriorityAging (s : State) : Out :=
  if validCore s.arg.i then .next (agePriority s s.arg.i s.arg.j) else .fault (.noSuchCore s.arg.i)

end Sys2Proof.Machine
end

