-- ==== Sys2Proof/Machine/Registers.lean ====
section
/-! DEFINITION. The steps of the registers of the device space (20 R400 to R416, R424): writes by software, the host's
MMIO, power steps, and the attestation report. -/

namespace Sys2Proof.Machine

/-- A step of a numbered unit below a bound. -/
def unitStep (s : State) (bound : Nat) (f : State → Nat → State) : Out :=
  if s.arg.i < bound then .next (f s s.arg.i) else .fault (.noSuchUnit s.arg.i)

/-! Writes of one register: operand i the unit, x the value -/

/-- PCFG_WRITE (R407), by firmware. -/
def execPcfgWrite (s : State) : Out := unitStep s 8 fun s p => pcfgWrite s p s.arg.x

/-- ROUTE_WRITE (R408): operand j the module. A route of which no port is up fails after 10 ms (R412). -/
def execRouteWrite (s : State) : Out :=
  unitStep s 8 fun s p => if s.arg.j < 128 then routeWrite s p s.arg.j s.arg.x else s

/-- RETRAIN (R411). -/
def execRetrain (s : State) : Out := unitStep s 12 retrainPort

/-- BQCTL_OPEN (R413): operand x gives PART and NB. -/
def execBqctlOpen (s : State) : Out := unitStep s 16 fun s n => bqOpen s n s.arg.x

/-- BQCTL_CLOSE (R413). -/
def execBqctlClose (s : State) : Out := unitStep s 16 fun s n => bqClose s n s.arg.x

/-- REQ_WRITE (R416). -/
def execReqWrite (s : State) : Out := unitStep s 16 fun s z => reqWrite s z s.arg.x

/-- RASLOST_CLEAR (R419). -/
def execRaslostClear (s : State) : Out :=
  unitStep s 12 fun s k => modHbm s k fun h => { h with lostA := 0, lostT := 0 }

/-- BOOTCLR (R421), by firmware: operand x the boot step. -/
def execBootclr (s : State) : Out := .next (bootClear s s.arg.x)

/-- ATGO (R424): operand x the value written. -/
def execAtgo (s : State) : Out := .next (startReport s s.arg.x)

/-- REGISTER_WRITE (R362, R400): operands x the offset in the device space, y the value, j the writer's privilege, k the
partition that it acts for. A write that is not accepted changes nothing here; the store that made it takes its trap (in part DEDUCED, log 31). -/
def execRegisterWrite (s : State) : Out :=
  let w : Who := { priv := s.arg.j, part := if s.arg.j = 2 then none else some s.arg.k, host := false, pf0 := false }
  .next (match devStore s w s.arg.x.toNat 8 s.arg.y with
    | .ok t => t
    | .error _ => s)

/-! The host (R401, R402) -/

/-- After a halt of the boot, BAR0 serves the boot record's block only (R422). -/
def barServes (s : State) (o : Nat) : Bool :=
  decide (o < 0x4000000) && (!s.boot.halted || (decide (0x800000 ≤ o) && decide (o < 0x801000)))

/-- Function f of the host's port: PF0 acts for every partition, PF p + 1 for partition p. -/
def whoPf (f : Nat) : Who := { priv := 1, part := if f = 0 then none else some (f - 1), host := true, pf0 := f == 0 }

/-- A read of n bytes: a value, or Unsupported Request. -/
def mmioRead (s : State) (o n : Nat) : State :=
  match (if barServes s o then devLoad s o n else .error .aperture) with
  | .ok v => { s with reply := .value v }
  | .error _ => { countHerr s with reply := .unsupported }

/-- A write of n bytes: performed, or discarded and counted. -/
def mmioWrite (s : State) (f o n : Nat) (v : Word) : State :=
  match (if barServes s o then devStore s (whoPf f) o n v else .error .aperture) with
  | .ok t => { t with reply := .none }
  | .error _ => { countHerr s with reply := .none }

/-- HOST_MMIO (R402): operands i the function, x the offset in BAR0, k the size in bytes, b a write, y its value. -/
def execHostMmio (s : State) : Out :=
  unitStep s 9 fun s f =>
    if s.arg.b then mmioWrite s f s.arg.x.toNat s.arg.k s.arg.y else mmioRead s s.arg.x.toNat s.arg.k

/-! Power steps (R414 to R416) -/

/-- STATUS when a stratum has come to a point: capped while HOT holds it deeper than REQ. -/
def restStatus (p : Power) (z : Nat) : BitVec 4 := if p.hot && decide (p.req.toNat < capPoint z) then 4 else 0

/-- What comes next: what stands in REQ, or the cap point while HOT. -/
def nextTarget (s : State) (z : Nat) : Except Nat (Nat × Nat) :=
  let p := powerOf s z
  if p.hot && !(decide (capPoint z ≤ p.req.toNat) && decide (p.req.toNat ≤ floorOf z) && decide (p.req.toNat ≤ 4)) then
    .ok (capPoint z, 4)
  else requestOf s z

def nextPower (s : State) (z : Nat) : State :=
  match nextTarget s z with
  | .error n => denyReq s z n
  | .ok (t, st) => startPower s z t st

/-- The STATUS with which a REQ is denied, if it is. -/
def denial (s : State) (z : Nat) : Option Nat :=
  match requestOf s z with
  | .error n => some n
  | .ok _ => none

/-- A phase of a power step ends. A REQ written meanwhile, and a change of HOT, are taken now: a denied REQ sets STATUS and
the permitted step goes on, or the one to the cap point starts; for the point at which the clock stands already the rest of
the step is same; else a new step starts (in part DEDUCED, log 34). -/
def endPhase (s : State) (z : Nat) (same goOn : State → State) : State :=
  let p := powerOf s z
  let said (t : State) : State := match (if p.newReq then denial s z else none) with
    | some n => denyReq t z n
    | none => t
  if p.newReq || p.heat then
    let s := modPower s z fun p => { p with newReq := false, heat := false }
    match nextTarget s z with
    | .error _ => said (goOn s)
    | .ok (t, st) =>
      said (if t = p.cur.toNat then same s else startPower (modPower s z fun p => { p with phase := none }) z t st)
  else goOn s

/-- The step is at its target. -/
def stepDone (s : State) (z : Nat) : State :=
  modPower s z fun p => { p with phase := none, status := restStatus p z }

/-- The arithmetic clock of a stratum runs again, at a point. -/
def switched (s : State) (z : Nat) (t : BitVec 3) : State :=
  resumeWaits (modPower s z fun p => { p with cur := t }) z

/-- The frequency has switched: CUR is the target; toward a deeper point the voltage ramps next. -/
def stopEnd (s : State) (z : Nat) : State :=
  match (powerOf s z).phase with
  | some (.switchUp t) => endPhase (switched s z t) z (stepDone · z) (stepDone · z)
  | some (.switchDown t) =>
    let ramp (s : State) : State := if (powerOf s z).volt = t then stepDone s z else startRamp s z t (.rampDown t)
    endPhase (switched s z t) z ramp ramp
  | _ => s

/-- FREQUENCY_STOP_END (R416): operand i the stratum. -/
def execFrequencyStopEnd (s : State) : Out := unitStep s 16 stopEnd

/-- The voltage is at its target: toward a lower-numbered point the frequency switches next, with its stop of 2 µs. Where the
clock is to stay at its point after all, the voltage goes back to that point's (in part DEDUCED, log 34). -/
def rampEnd (s : State) (z : Nat) : State :=
  let stands (t : BitVec 3) : State := modPower s z fun p => { p with volt := t }
  match (powerOf s z).phase with
  | some (.rampUp t) => endPhase (stands t) z (fun s => restPower s z (restStatus (powerOf s z) z)) fun s => startSwitch s z (.switchUp t)
  | some (.rampDown t) => endPhase (stands t) z (stepDone · z) (stepDone · z)
  | _ => s

/-- VOLTAGE_RAMP_DONE (R416): operand i the stratum. -/
def execVoltageRampDone (s : State) : Out := unitStep s 16 rampEnd

/-- Take a new target now, or at the end of the phase under way (in part DEDUCED, log 34). -/
def retarget (s : State) (z : Nat) : State :=
  match (powerOf s z).phase with
  | some _ => modPower s z fun p => { p with heat := true }
  | none => nextPower s z

/-- THERMAL_CAP (R416): operand i the stratum, which exceeds 105 °C. -/
def execThermalCap (s : State) : Out :=
  unitStep s 16 fun s z => retarget (modPower s z fun p => { p with hot := true }) z

/-- The thermal guard stops the clock of a stratum that is held at its cap point; it stays stopped until it is cleared (in
part DEDUCED, log 34). -/
def thermalHalt (s : State) (z : Nat) : State :=
  let p := powerOf s z
  if p.hot && !p.halt && p.phase.isNone && p.cur.toNat == capPoint z then
    modPower (stopWaits s z) z fun p => { p with halt := true, status := 4 }
  else s

/-- THERMAL_HALT (R416): operand i the stratum, which exceeds 115 °C. -/
def execThermalHalt (s : State) : Out := unitStep s 16 thermalHalt

/-- THERMAL_CLEAR (R416): operand i the stratum, which falls below 95 °C. -/
def execThermalClear (s : State) : Out :=
  unitStep s 16 fun s z =>
    let runs (t : State) : State :=
      if (powerOf s z).halt && !clockSwitches s (1024 * z) then resumeWaits t z else t
    if (powerOf s z).hot then retarget (runs (modPower s z fun p => { p with hot := false, halt := false })) z
    else runs (modPower s z fun p => { p with halt := false })

/-- The stall ratio of a window over a stratum's 1,024 cores, in units of 2^−16 (in part DEDUCED, log 34). -/
def stallRatioOf (p : Power) : Nat :=
  let r := p.idle * 65536 / (1024 * p.cycles)
  if r < 65536 then r else 65535

/-- STALL_WINDOW (R415): operand i the stratum. -/
def execStallWindow (s : State) : Out :=
  unitStep s 16 fun s z => modPower s z fun p =>
    { p with stallRatio := BitVec.ofNat 16 (stallRatioOf p), stallCount := p.stallCount + 1, idle := 0, cycles := 0 }

/-! Attestation (R424) -/

/-- Bytes 0 to 175 of a report: the digest and the security version are those of the image that this boot has verified; with
none, when no firmware runs, zeros stand there (log 14). -/
def reportHead (s : State) (p : Nat) : List Byte :=
  s.attest.nonce.flatMap (fun w => toLe 8 w.toNat) ++ toLe 64 (s.boot.image.elim 0 (·.digest.toNat)) ++
    toLe 8 (s.boot.image.elim 0 (·.version.toNat)) ++ (List.range 8).flatMap (fun p => toLe 8 (getPart s p).pcfg.toNat) ++
    toLe 8 (getPart s p).satb.toNat

/-- The whole report: its signature stands from byte 256 on. -/
def reportBytes (s : State) (p : Nat) : List Byte :=
  let head := reportHead s p
  let n := (Config.attestSignatureLength head).toNat
  head ++ toLe 2 n ++ List.replicate 78 0 ++ (List.range n).map (Config.attestSignature head)

/-- The making of the report ends with an ATSTAT. -/
def endReport (s : State) (stat : Word) : State := { s with attest := { s.attest with busy := false, stat, sent := none } }

/-- The report that travels to a peer's memory is written once every packet of it is acknowledged; with one that is lost behind
a route that has failed it is not (R412). -/
def settleReport (s : State) (lost : List Nat) : State :=
  match s.attest.sent with
  | none => s
  | some (lo, upto) =>
    if lost.any (between lo upto) then endReport s 2
    else if s.peers.any fun y => y.2.unacked.any fun o => !o.copy && between lo upto o.id then s
    else endReport s 1

/-- Firmware has written the report through a partition's tables, or could not: its buffer does not translate, lies in a lost
channel (R418) or behind a route that has failed (R412). Bytes at a peer are written when their packets are acknowledged. -/
def reportDone (s : State) (p : Nat) : State :=
  if s.attest.busy && s.attest.sent.isNone then
    let bs := reportBytes s p
    match partRange s p 2 .write s.attest.buf.toNat bs.length with
    | (s, .ok pas) =>
      if pas.any fun a => lostPlace s (.hbm a) || peerFailed s p a then endReport s 2
      else
        let t := partWrite s p pas bs
        settleReport { t with attest := { t.attest with sent := some (s.serial, t.serial) } } []
    | (s, .error _) => endReport s 2
  else s

/-- ATTESTATION_REPORT_DONE (R424): operand i the partition whose tables translate the buffer. -/
def execAttestationReportDone (s : State) : Out := unitStep s 8 reportDone

end Sys2Proof.Machine
end

