-- ==== Sys2Proof/Machine/Links.lean ====
section
/-! DEFINITION. Sloim links and packets (20 R408 to R412, 10 R299), the host's CXL.mem requests (R403), and the
protection of HBM (R417 to R419). -/

namespace Sys2Proof.Machine

/-! Ports (R411, R412) -/

/-- Every route that names a port and has no other that is up fails after 10 ms. -/
def armRoutes (s : State) (n : Nat) : State :=
  (s.routes.filter fun e => (routePorts s (e.1 / 128) (e.1 % 128)).contains n).foldl
    (fun s e => armRoute s (e.1 / 128) (e.1 % 128)) s

/-- A port goes down. The packets that are not acknowledged stay, and the other port of their route re-sends them. -/
def portDown (s : State) (n : Nat) : State :=
  if (getPort s n).up then
    armRoutes (modPort s n fun x =>
      { x with up := false, training := false, lanes := 0, failRun := 0,
               downs := if x.downs = BitVec.allOnes 16 then x.downs else x.downs + 1 }) n
  else modPort s n fun x => { x with training := false }

/-- PORT_DOWN (R412): operand i the port. -/
def execPortDown (s : State) : Out := unitStep s 12 portDown

/-- A port carries traffic: the routes that it serves are restored. -/
def portUp (s : State) (n lanes : Nat) : State :=
  let s := modPort s n fun x => { x with up := true, training := false, lanes := BitVec.ofNat 8 lanes, failRun := 0 }
  disarmRoutes s

/-- PORT_UP (R411): operands i the port, j the lanes in use. A port that is not being trained stays as it is. -/
def execPortUp (s : State) : Out :=
  unitStep s 12 fun s n => if (getPort s n).training then portUp s n s.arg.j else s

/-- An item whose packet fails is reported in its issuer's log. -/
def linkFailed (s : State) (o : OutPacket) (status : Nat) : State :=
  logRecord s o.core { extra := o.p.seq.toNat % 2 ^ 32, addr := o.p.addr.toNat, done := 0, gen := o.gen.toNat, tag := 0,
                       status, kind := 7, ctx := o.ctx % noCtx, src := o.core }

/-! Reports of rows to a bitmap at a peer (10 R275) -/

/-- The report that a packet carries. -/
def reportOf (s : State) (o : OutPacket) : Option RowReport :=
  if o.copy then none else (getCore s o.core).reports.find? fun e => e.packet == o.id

/-- The report of a packet is no longer on its way. -/
def dropReport (s : State) (o : OutPacket) : State := (reportOf s o).elim s (closeReport s o.core)

/-- The OR of a packet has been performed. -/
def reportSet (s : State) (o : OutPacket) : State := (reportOf s o).elim s (reportPerformed s o.core)

/-- What the peer says of a packet that it could not perform: a block that it has discarded (10 R299, 20 R413) is reported, and
so is an OR on a bitmap word that it could not read, which leaves RPT 0 (10 R275). -/
def peerRefused (s : State) (o : OutPacket) (status : Nat) : State :=
  if o.p.kind = 5 then linkFailed s o status
  else match reportOf s o with
    | none => s
    | some e => dropReport (reportRecord s o.core e.seq e.addr status) o

/-- What a read of a peer brings: the bytes of a response from its first on; the others could not be read. -/
def answerOf (r : PeerRead) (bs : List Byte) : List (Nat × Option Byte) := (List.range r.n).map fun i => (r.pa + i, bs[i]?)

/-- No port of a partition's route to a module has come up in time, unless a later failure of it is still running: what is
not acknowledged is reported, and the reads that wait for responses go on without them, to UNCORRECTABLE or WALK_ERROR.
What failed leaves a gap that the sender's next new number closes; while another partition's route is up the packets held
back stay for it (in part DEDUCED, log 33). -/
def routeFails (s : State) (p m : Nat) : State :=
  if routeUp s p m || s.timers.any fun t => t.2.op == .routeFailTimeout && t.2.arg.i == p && t.2.arg.j == m then s
  else
    let y := getPeer s m
    let lost := y.unacked.filter fun o => o.part == p && o.p.kind != 2
    -- the peer's packets come over the routes of every partition
    let alone := !((List.range 8).any fun q => routeUp s q m)
    let s := modPeer s m fun y =>
      { y with unacked := y.unacked.filter fun o => o.part != p, held := if alone then [] else y.held,
               resync := true, reads := y.reads.filter fun r => r.part != p,
               failed := p :: y.failed.filter fun q => q != p }
    let s := (y.reads.filter fun r => r.part == p).foldl (fun s r => bringFar s r.reader (answerOf r [])) s
    settleReport (lost.foldl (fun s o => linkFailed (dropReport s o) o 19) s) (lost.map (·.id))

/-- ROUTE_FAIL_TIMEOUT (R412): operands i the partition, j the module. -/
def execRouteFailTimeout (s : State) : Out := unitStep s 8 fun s p => routeFails s p s.arg.j

/-! The header of a packet (R409, Table 20.3) -/

/-- The 256 bits of the header that opens a packet, with its link check. -/
def headerBits (p : Packet) (lcrc : BitVec 32) : BitVec 256 :=
  lcrc ++ p.flag ++ p.index ++ p.seq ++ p.kind ++ p.queue ++ p.dst ++ p.src ++ (0 : BitVec 14) ++ p.addr ++ p.mask

/-- Bytes of the payload that follows, by the kind. -/
def payloadLength (kind : BitVec 4) : Nat :=
  if kind = 0 ∨ kind = 5 then 256 else if kind = 1 ∨ kind = 4 then 8 else 0

/-- The fields of a header, with the payload that follows. -/
def packetOf (h : BitVec 256) (data : List Byte) : Packet :=
  let f (n lo : Nat) : BitVec n := (h >>> lo).setWidth n
  { flag := f 32 192, index := f 32 160, seq := f 48 112, kind := f 4 108, queue := f 4 104, dst := f 7 97, src := f 7 90,
    addr := f 44 32, mask := f 32 0, data }

/-- A packet on the wire: the 32 bytes of its header, the link check over it a free value (log 33), then its payload. -/
def wireBytes (p : Packet) : List Byte :=
  toLe 32 (headerBits p (Config.linkCrc p)).toNat ++ (List.range (payloadLength p.kind)).map fun i => p.data.getD i 0

/-! Packets that arrive (R409, R410) -/

/-- The kinds that carry sequence numbers. -/
def numbered (p : Packet) : Bool := p.kind.toNat ≤ 2 || p.kind == 4 || p.kind == 5

/-- A byte of the module's own HBM at an offset. -/
def ownByte (a : Nat) : Bool := decide (a < 12 * 2 ^ 36)

/-- Bytes that a store packet names, by their offsets: whole doublewords of 256 bytes, or bytes of one doubleword. -/
def packetBytes (p : Packet) : List (Nat × Byte) :=
  let base := if p.kind = 0 then p.addr.toNat / 256 * 256 else p.addr.toNat / 8 * 8
  let n := if p.kind = 0 then 256 else 8
  (List.range n).filterMap fun i =>
    let on := if p.kind = 0 then p.mask.getLsbD (i / 8) else p.mask.getLsbD i
    if on then some (base + i, p.data.getD i 0) else none

/-- A byte of a packet as it is performed: stored, or its bits set or cleared in the byte that stands there (log 12). -/
def packetByte (op : BitOp) (old new : Byte) : Byte :=
  match op with
  | .store => new
  | .set => old ||| new
  | .clear => old &&& ~~~new

def packetWrites (s : State) (p : Packet) : List (Place × Byte) :=
  ((packetBytes p).filter fun b => ownByte b.1).map fun b => (.hbm b.1, packetByte p.op (cget s.hbm b.1) b.2)

/-- The answer to a read, under its sequence number: a packet without a payload (R409). -/
def readReply (s : State) (p : Packet) : Packet :=
  { kind := 3, src := s.modid, dst := p.src, seq := p.seq, queue := 0, index := p.index, flag := 0, addr := p.addr, mask := 0,
    data := [] }

/-- The addresses that a read names. -/
def readPas (p : Packet) : List Nat :=
  (List.range (if p.index.toNat ≤ 256 then p.index.toNat else 256)).map (p.addr.toNat + ·)

/-- The bytes that a read names of the module's HBM, as far as they can be read (R417): they go beside the packet that answers
it, since Table 20.3 gives a response no payload and no other packet can bring them (DESIGN CHOICE, log 12). -/
def replyBytes (s : State) (p : Packet) : List Byte := ((readPas p).takeWhile fun a => !badByte s a).map (cget s.hbm)

def sendReply (s : State) (m : Nat) (p : Packet) (bs : List Byte) : State :=
  modPeer s m fun y => { y with replies := y.replies ++ [(p, bs)] }

/-- A peer's read is performed: what it finds uncorrectable or corrected is logged (R417). -/
def answerRead (s : State) (p : Packet) : State :=
  let pas := readPas p
  sendReply (noteFixes (noteBad s pas) pas) p.src.toNat (readReply s p) (replyBytes s p)

/-- The acknowledgement of every packet applied so far. -/
def ackOf (s : State) (m : Nat) : Packet :=
  { kind := 6, src := s.modid, dst := BitVec.ofNat 7 m, seq := (getPeer s m).expect - 1, queue := 0, index := 0, flag := 0,
    addr := 0, mask := 0, data := [] }

/-- Whether a packet sets or clears bits of a doubleword that cannot be read (R417). -/
def bitsLost (s : State) (p : Packet) : Bool := p.op != .store && (packetBytes p).any fun b => badByte s b.1

/-- Apply one numbered packet. -/
def applyPacket (s : State) (p : Packet) : State :=
  if p.kind = 2 then answerRead s p
  else if p.kind = 5 then
    match landBlock s p.queue.toNat p.index.toNat p.data p.flag.toNat with
    | (s, none) => s
    | (s, some st) => blockRecord s p.queue.toNat st (p.seq.toNat % 2 ^ 32)
  else if bitsLost s p then noteBad s ((packetBytes p).map (·.1))
  else writePlaces s (packetWrites s p)

/-- Apply the packets held back whose turn has come. -/
def applyHeld (m : Nat) : Nat → State → State
  | 0, s => s
  | n + 1, s =>
    let y := getPeer s m
    match y.held.find? fun p => p.seq == y.expect with
    | none => s
    | some p =>
      applyHeld m n (applyPacket (modPeer s m fun y =>
        { y with expect := y.expect + 1, held := y.held.filter fun q => q.seq != p.seq }) p)

/-- After a failure the sender goes on with new numbers, and the next of them is the one expected (R412): no number before it is
applied later. The numbers go forward only. -/
def resyncPair (y : Peer) (next : BitVec 48) : Peer :=
  if (next - y.expect).toNat < 2 ^ 47 then
    { y with resync := false, expect := next, held := y.held.filter fun q => decide ((q.seq - next).toNat < 2 ^ 47) }
  else y

/-- A numbered packet: applied in its turn with those that wait for it, held back, or discarded as a duplicate. next: the
sender's next new number after a failure, which counts while the pair does not know it. -/
def takeNumbered (s : State) (p : Packet) (next : BitVec 48) : State :=
  let m := p.src.toNat
  let s := if (getPeer s m).resync then modPeer s m fun y => resyncPair y next else s
  let d := (p.seq - (getPeer s m).expect).toNat
  if d = 0 then
    let n := (getPeer s m).held.length
    let s := applyHeld m n (applyPacket (modPeer s m fun y => { y with expect := y.expect + 1 }) p)
    sendReply s m (ackOf s m) []
  else if d < 65536 then
    if (getPeer s m).held.any fun q => q.seq == p.seq then s
    else modPeer s m fun y => { y with held := y.held ++ [p] }
  else
    let s := if p.kind = 2 then answerRead s p else s
    sendReply s m (ackOf s m) []

/-- An acknowledgement frees every packet up to its number. status: what the peer says of the packet numbered seq that it could
not perform, 0 if none. -/
def takeAck (s : State) (p : Packet) (status seq : Nat) : State :=
  let m := p.src.toNat
  let s := match (if status = 0 then none else (getPeer s m).unacked.find? fun o => o.p.seq.toNat == seq) with
    | some o => peerRefused s o status
    | none => s
  let applied (o : OutPacket) : Bool := decide ((p.seq - o.p.seq).toNat < 65536)
  let s := ((getPeer s m).unacked.filter applied).foldl reportSet s
  settleReport (modPeer s m fun y => { y with unacked := y.unacked.filter fun o => !applied o }) []

/-- A read response, with the bytes that could be read, reaches who asked for them; one that nobody waits for is a duplicate. -/
def takeResponse (s : State) (p : Packet) (bs : List Byte) : State :=
  let m := p.src.toNat
  match (getPeer s m).reads.find? fun r => r.seq == p.seq with
  | none => s
  | some r =>
    let s := modPeer s m fun y => { y with reads := y.reads.filter fun e => e.seq != p.seq }
    bringFar s r.reader (answerOf r bs)

/-- A packet that has passed the link check (in part DEDUCED, log 33). -/
def takePacket (s : State) (p : Packet) (bs : List Byte) (status seq : Nat) (next : BitVec 48) : State :=
  if 7 ≤ p.kind.toNat ∨ p.dst ≠ s.modid then countHerr s
  else if p.kind = 6 then takeAck s p status seq
  else if p.kind = 3 then takeResponse s p bs
  else takeNumbered s p next

/-- A packet fails the link check: it is replayed, or after 16 failed replays the port goes down (R411) (in part DEDUCED, log 33). -/
def linkReplay (s : State) (n : Nat) : State :=
  if 16 ≤ (getPort s n).failRun then portDown s n
  else modPort s n fun x =>
    { x with failRun := x.failRun + 1, replays := if x.replays = BitVec.allOnes 32 then x.replays else x.replays + 1 }

/-- SLOIM_PACKET_RECEIVE (R410): operands i the port, packet, bytes what a read response answers (log 12), b whether its LCRC
fails, j and x what an acknowledgement says of a packet that was not performed, y after a failure the sender's next new number; k: the
failure was the sender's own, of which this module has not heard. -/
def execSloimPacketReceive (s : State) : Out :=
  unitStep s 12 fun s n =>
    if !(getPort s n).up then s
    else if s.arg.b then linkReplay s n
    else
      let s := modPort s n fun x => { x with failRun := 0 }
      let s := if s.arg.k = 1 then modPeer s s.arg.packet.src.toNat fun y => { y with resync := true } else s
      takePacket s s.arg.packet s.arg.bytes s.arg.j s.arg.x.toNat (s.arg.y.setWidth 48)

/-! CXL.mem (R403) -/

def setBits (m n : Nat) : List Nat := (List.range n).filter (bitOf m)

/-- The physical address of a host offset in the range of a partition; none: outside the range. -/
def hdmAddr (s : State) (p h : Nat) : Option Nat :=
  let w := (getPart s p).pcfg
  if pcfgEn w then ((setBits (pcfgHbm w) 12)[h / 2 ^ 36]?).map fun k => k * 2 ^ 36 + h % 2 ^ 36 else none

/-- Whether boot has completed step 6. -/
def memoryUp (s : State) : Bool := decide (7 ≤ s.boot.lastStep)

/-- A request of n bytes from a host offset (in part DEDUCED, log 33). -/
def cxlRequest (s : State) (p h n : Nat) (write : Bool) (bs : List Byte) : State :=
  match (List.range n).mapM fun i => hdmAddr s p (h + i) with
  | none => if write then { countHerr s with reply := .none } else { s with reply := .data (List.replicate n 0) true }
  | some pas =>
    if write then
      if memoryUp s then { writePlaces s ((pas.map Place.hbm).zip bs) with reply := .none }
      else { countHerr s with reply := .none }
    else if memoryUp s then
      { noteFixes (noteBad s pas) pas with reply := .data (pas.map fun pa => readPlace s (.hbm pa)) (pas.any (badByte s)) }
    else { s with reply := .data (List.replicate n 0) true }

/-- CXL_MEM_REQUEST (R403): operands i the partition, x the host offset, j the length, b a write, bytes its data. -/
def execCxlMemRequest (s : State) : Out :=
  unitStep s 8 fun s p => cxlRequest s p s.arg.x.toNat s.arg.j s.arg.b s.arg.bytes

/-! HBM (R417 to R419) -/

/-- Take a spare lane of a channel. -/
def takeSpare (s : State) (k off lane : Nat) : State :=
  modHbm s k fun h =>
    { h with spares := mset h.spares (hbmChannel off) (sparesOf h (hbmChannel off) - 1),
             swapped := h.swapped ++ [(hbmChannel off, lane)] }

/-- A lane fails for good: after a swap in vain, or with no spare left, when its channel is lost (R418). -/
def loseLane (s : State) (k off lane : Nat) : State :=
  if sparesOf (getHbm s k) (hbmChannel off) = 0 then
    let s := uncorrectable (logHbm s k 5 4 lane off) k off
    let s := modHbm s k fun h => { h with deadChans := insNat h.deadChans (hbmChannel off) }
    logHbm s k 6 4 lane (hbmChannel off * 2 ^ 31)
  else uncorrectable (logHbm (takeSpare s k off lane) k 5 4 lane off) k off

/-- An access of a unit of a stack, which meets what its operand says; the array's code is checked on reads (in part
DEDUCED, log 33). -/
def hbmAccess (s : State) (k off : Nat) (write : Bool) : HbmKind → State
  | .clean => s
  | .corrected => if write then s else correctUnit s k off
  | .uncorrectable => if write then s else uncorrectable s k off
  | .retried n => if 1 ≤ n ∧ n ≤ 4 then logHbm s k 3 n 0 off else s
  | .swapped lane =>
    if sparesOf (getHbm s k) (hbmChannel off) = 0 then loseLane s k off lane
    else logHbm (takeSpare s k off lane) k 4 4 lane off
  | .laneFailed lane => loseLane s k off lane
  | .channelLost lane => loseLane s k off lane

/-- Firmware makes the repairs of a stack persistent (R423): the record takes its lane swaps and its repaired rows. -/
def recordStack (s : State) (k : Nat) : State :=
  let h := getHbm s k
  modHbm { s with persistent := s.persistent ++ h.swapped.map fun e => (k, e.1),
                  rowRecord := s.rowRecord ++ h.soft.map fun o => (k, o) } k fun h => { h with soft := [], swapped := [] }

/-- HBM_ACCESS (R417): operands i the stack, x the offset of the unit, b a write, hbm what the controller meets, j whether
firmware then makes the repairs of the stack persistent (R423). -/
def execHbmAccess (s : State) : Out :=
  unitStep s 12 fun s k =>
    let t := hbmAccess s k (s.arg.x.toNat % 2 ^ 36 / 32 * 32) s.arg.b s.arg.hbm
    if s.arg.j = 1 then recordStack t k else t

end Sys2Proof.Machine
end

