-- ==== Sys2Proof/Machine/Boot.lean ====
section
/-! DEFINITION. Boot, cold and warm reset (20 R420 to R423): COLD_RESET and WRESET. Whether a boot step succeeds, which
strata fail bring-up and how many lanes the ports train are operands (DEDUCED, log 15). -/

namespace Sys2Proof.Machine

/-- Steps with an alternate, and optional steps (20 Table 20.6). -/
def bootHasAlt (n : Nat) : Bool := n == 1 || n == 4 || n == 8 || n == 12
def bootOptional (n : Nat) : Bool := n == 7 || n == 10 || n == 12

/-- What the outside gives to a boot: bit n of prim and alt says whether the primary and the alternate of step n succeed;
the strata that fail bring-up, the lanes that a port trains, the lane swaps that firmware records at its end, each
32 × stack + channel; what the ROM finds of images A and B; and the step during which another reset cuts the boot short, if
one does. -/
structure BootIn where
  prim : Word
  alt : Word
  badStrata : Nat
  lanes : Nat
  swaps : List Nat
  images : List Image
  cut : Option Nat
  deriving DecidableEq, Repr

/-- The verification of a firmware image (R420): its key has the fused digest, its signature verifies, and its security
version is at least the fused minimum. -/
def verified (f : Fuses) (m : Image) : Bool :=
  m.keyDigest == f.keyDigest && m.verifies && decide (f.minVersion.toNat ≤ m.version.toNat)

/-- Whether the primary, or the alternate, of a step succeeds. Step 1 verifies image A, or B. -/
def primaryOk (i : BootIn) (f : Fuses) (n : Nat) : Bool :=
  i.prim.getLsbD n && (n != 1 || (i.images[0]?).any (verified f))
def alternateOk (i : BootIn) (f : Fuses) (n : Nat) : Bool :=
  i.alt.getLsbD n && (n != 1 || (i.images[1]?).any (verified f))

def bootEntryOf (outcome : Nat) (alt : Bool) (fails : Nat) : BitVec 8 :=
  BitVec.ofNat 8 (outcome + b2n alt * 4 + fails * 16)
def entryOutcome (e : BitVec 8) : Nat := e.toNat % 4
def entryFails (e : BitVec 8) : Nat := e.toNat / 16

/-- Whether boot goes past a step without running it: an optional step that failed (R422). -/
def bootSkips (n : Nat) (e : BitVec 8) : Bool :=
  !(decide (1 ≤ entryFails e) && bootHasAlt n) && bootOptional n && entryOutcome e == 2

/-- The entry while a step runs (R422): failed, so that a reset meanwhile counts as its failure. -/
def bootRunning (n : Nat) (e : BitVec 8) : BitVec 8 :=
  let f := entryFails e
  if 1 ≤ f ∧ bootHasAlt n = true then bootEntryOf 2 true f else bootEntryOf 2 false (if f < 15 then f + 1 else 15)

/-- How a step ends: its entry, whether it succeeded, and whether by its alternate (R422). -/
def bootOutcome (i : BootIn) (fs : Fuses) (n : Nat) (e : BitVec 8) : BitVec 8 × Option Bool :=
  let f := entryFails e
  let byAlt (f : Nat) : BitVec 8 × Option Bool :=
    if alternateOk i fs n then (bootEntryOf 1 true f, some true) else (bootEntryOf 2 true f, none)
  if 1 ≤ f ∧ bootHasAlt n = true then byAlt f
  else if bootOptional n = true ∧ entryOutcome e = 2 then (bootEntryOf 3 (bitOf e.toNat 2) f, none)
  else if primaryOk i fs n then (bootEntryOf 1 false 0, some false)
  else
    let f' := if f < 15 then f + 1 else 15
    if bootHasAlt n then byAlt f' else (bootEntryOf 2 false f', none)

/-- The lane map of the persistent repair record. -/
def applyLaneMap (s : State) : State :=
  s.persistent.foldl (fun s e => modHbm s e.1 fun h => { h with spares := mset h.spares e.2 (sparesOf h e.2 - 1) }) s

/-- Every port is trained (in part DEDUCED, log 33). -/
def trainPorts (s : State) (lanes : Nat) : State := (List.range 12).foldl (fun s n => portUp s n lanes) s

/-- The configuration of a partition without the strata that failed. -/
def withoutStrata (w : Word) (bad : Nat) : Word := w &&& ~~~(word (bad % 65536))

/-- The stored configuration, or one partition that owns every unit. -/
def bootPartition (alt : Bool) (p : Nat) : Word :=
  if alt then (if p = 0 then 0x8000FFFFFF00FFFF else 0) else Config.storedPartition p

def setPartitions (s : State) (alt : Bool) (bad : Nat) : State :=
  (List.range 8).foldl (fun s p => pcfgWrite s p (withoutStrata (bootPartition alt p) bad)) s

/-- The strata that a partition owns after boot are awake; the others stay asleep (R407). -/
def wakeOwned (s : State) : State :=
  (List.range 16).foldl (fun s z =>
    if (stratumPart s z).isSome then modStratum s z fun x => { x with awake := true } else s) s

/-- The row repairs of the record: the rows that it holds are on their spare rows again (R423). -/
def applyRowRepairs (s : State) : State :=
  s.rowRecord.foldl (fun s e => modHbm s e.1 fun h =>
    { h with stray := h.stray.filter fun r => Config.hbmRow r.1 != Config.hbmRow e.2 }) s

/-- The work of a step that succeeded. -/
def bootWork (i : BootIn) (n : Nat) (alt : Bool) (s : State) : State :=
  if n = 1 then { s with boot := { s.boot with image := i.images[b2n alt]? } }
  else if n = 5 then applyLaneMap s
  else if n = 6 then applyRowRepairs s
  else if n = 10 then trainPorts s i.lanes
  else if n = 12 then wakeOwned (setPartitions s alt (if entryFails (bootEntry s 8) = 0 then 0 else i.badStrata))
  else s

/-- Whether a boot has been cut short by another reset. -/
def bootCut (s : State) : Bool := !s.agenda.isEmpty

/-- One boot step: it halts the boot when it is mandatory and its last attempt fails. A reset during it leaves its entry as
it stands while the step runs; that reset comes next, with the inputs of this boot (DEDUCED, log 15). -/
def bootStep (i : BootIn) (warm : Bool) (again : Step) (s : State) (n : Nat) : State :=
  if s.boot.halted || bootCut s then s
  else
    let done (s : State) : State := { s with boot := { s.boot with lastStep := n + 1 } }
    if warm ∧ n = 7 then done s
    else if i.cut = some n ∧ bootSkips n (bootEntry s n) = false then
      { modBoot s n (bootRunning n) with agenda := [again] }
    else
      let r := bootOutcome i s.fuses n (bootEntry s n)
      let s := modBoot s n fun _ => r.1
      match r.2 with
      | some alt => done (bootWork i n alt s)
      | none => if bootOptional n then done s else { s with boot := { s.boot with halted := true } }

/-- The rows of a stack that a warm reset puts back on their original cells: those soft-repaired, of this boot or of one
before; step 6 repairs those of the record (R423). -/
def strayRows (s : State) : Map HbmStack :=
  s.hbms.map fun e => (e.1, { HbmStack.reset with
    stray := e.2.stray ++ e.2.soft.map fun o => (o, s.boot.count + 1),
    rewritten := e.2.rewritten })

/-- The rows of the record are on spare rows too, until a warm reset. -/
def recordedRows (s : State) (hs : Map HbmStack) : Map HbmStack :=
  s.rowRecord.foldl (fun hs e => mset hs e.1
    { mget hs e.1 HbmStack.reset with stray := (mget hs e.1 HbmStack.reset).stray ++ [(e.2, s.boot.count + 1)] }) hs

/-- The state that a boot starts from: what a reset keeps (R423), every other unit as after cold reset. -/
def resetState (s : State) (warm : Bool) : State :=
  { State.reset with
    agenda := []
    serial := s.serial
    choice := s.choice
    hbm := if warm then s.hbm else []
    poison := if warm then s.poison else []
    hbms := if warm then recordedRows s (strayRows s) else []
    persistent := s.persistent
    rowRecord := s.rowRecord
    fuses := s.fuses
    boot := { s.boot with count := s.boot.count + 1, halted := false, lastStep := 0, image := none } }

/-- A lane swap that the boot has made: of a channel with a spare lane left (R418). -/
def bootSwap (s : State) (e : Nat) : State :=
  let k := e / 32 % 12
  if sparesOf (getHbm s k) (e % 32) = 0 then s else takeSpare s k (e % 32 * 2 ^ 31) 0

/-- Firmware writes the repair record at the end of a boot: the lane swaps that it has made. -/
def recordRepairs (s : State) (swaps : List Nat) : State :=
  if s.boot.halted || bootCut s then s else (List.range 12).foldl recordStack (swaps.foldl bootSwap s)

/-- A boot. again: the reset that follows where it is cut short. -/
def runBoot (i : BootIn) (warm : Bool) (again : Step) (s : State) : State :=
  recordRepairs ((List.range 13).foldl (bootStep i warm again) (resetState s warm)) i.swaps

def bootIn (a : StepArg) : BootIn :=
  { prim := a.x, alt := a.y, badStrata := a.k, lanes := a.j, swaps := a.l, images := a.images,
    cut := if 1 ≤ a.i then some (a.i - 1) else none }

/-- The reset that cuts a boot short: a warm one where b says so. -/
def nextReset (a : StepArg) : Step := ⟨if a.b then .wreset else .coldReset, { a with i := 0 }⟩

/-- COLD_RESET (R421): operands x and y the steps whose primary and alternate succeed, k the strata that fail bring-up, j
the lanes of the ports, l the lane swaps recorded at its end, images what the ROM finds of images A and B; i, where it is not
0, the step during which another reset comes, plus 1, and b whether that one is warm. -/
def execColdReset (s : State) : Out := .next (runBoot (bootIn s.arg) false (nextReset s.arg) s)

/-- WRESET (R423): the operands of COLD_RESET. -/
def execWreset (s : State) : Out := .next (runBoot (bootIn s.arg) true (nextReset s.arg) s)

end Sys2Proof.Machine
end

