-- ==== Sys2Proof/Machine/Dispatch.lean ====
section
/-! DEFINITION. One arm for each row of the opcode table: a direct call of its meaning. -/

namespace Sys2Proof.Machine

def exec (i : Instr) (s : State) : Host.Outcome State Fault Refusal :=
  match i with
  | .nop x1 => Sys2Proof.Machine.execNop x1 s
  | .li x1 x2 x3 => Sys2Proof.Machine.execLi x1 x2 x3 s
  | .mov x1 x2 x3 => Sys2Proof.Machine.execMov x1 x2 x3 s
  | .sel x1 x2 x3 x4 x5 => Sys2Proof.Machine.execSel x1 x2 x3 x4 x5 s
  | .cmpq x1 x2 x3 x4 x5 => Sys2Proof.Machine.execCmpq x1 x2 x3 x4 x5 s
  | .qop x1 x2 x3 x4 => Sys2Proof.Machine.execQop x1 x2 x3 x4 s
  | .br x1 x2 => Sys2Proof.Machine.execBr x1 x2 s
  | .cbr x1 x2 x3 x4 x5 => Sys2Proof.Machine.execCbr x1 x2 x3 x4 x5 s
  | .jl x1 x2 x3 => Sys2Proof.Machine.execJl x1 x2 x3 s
  | .jlr x1 x2 x3 x4 => Sys2Proof.Machine.execJlr x1 x2 x3 x4 s
  | .jr x1 x2 x3 => Sys2Proof.Machine.execJr x1 x2 x3 s
  | .trap x1 x2 => Sys2Proof.Machine.execTrap x1 x2 s
  | .syscall x1 x2 => Sys2Proof.Machine.execSyscall x1 x2 s
  | .done x1 => Sys2Proof.Machine.execDone x1 s
  | .yield x1 x2 => Sys2Proof.Machine.execYield x1 x2 s
  | .add x1 x2 x3 x4 x5 => Sys2Proof.Machine.execAdd x1 x2 x3 x4 x5 s
  | .sub x1 x2 x3 x4 x5 => Sys2Proof.Machine.execSub x1 x2 x3 x4 x5 s
  | .mul x1 x2 x3 x4 x5 => Sys2Proof.Machine.execMul x1 x2 x3 x4 x5 s
  | .mulh x1 x2 x3 x4 => Sys2Proof.Machine.execMulh x1 x2 x3 x4 s
  | .mulhu x1 x2 x3 x4 => Sys2Proof.Machine.execMulhu x1 x2 x3 x4 s
  | .div x1 x2 x3 x4 x5 => Sys2Proof.Machine.execDiv x1 x2 x3 x4 x5 s
  | .divu x1 x2 x3 x4 x5 => Sys2Proof.Machine.execDivu x1 x2 x3 x4 x5 s
  | .rem x1 x2 x3 x4 x5 => Sys2Proof.Machine.execRem x1 x2 x3 x4 x5 s
  | .remu x1 x2 x3 x4 x5 => Sys2Proof.Machine.execRemu x1 x2 x3 x4 x5 s
  | .and x1 x2 x3 x4 => Sys2Proof.Machine.execAnd x1 x2 x3 x4 s
  | .or x1 x2 x3 x4 => Sys2Proof.Machine.execOr x1 x2 x3 x4 s
  | .xor x1 x2 x3 x4 => Sys2Proof.Machine.execXor x1 x2 x3 x4 s
  | .andn x1 x2 x3 x4 => Sys2Proof.Machine.execAndn x1 x2 x3 x4 s
  | .shl x1 x2 x3 x4 x5 => Sys2Proof.Machine.execShl x1 x2 x3 x4 x5 s
  | .shr x1 x2 x3 x4 x5 => Sys2Proof.Machine.execShr x1 x2 x3 x4 x5 s
  | .sar x1 x2 x3 x4 x5 => Sys2Proof.Machine.execSar x1 x2 x3 x4 x5 s
  | .ror x1 x2 x3 x4 x5 => Sys2Proof.Machine.execRor x1 x2 x3 x4 x5 s
  | .min x1 x2 x3 x4 => Sys2Proof.Machine.execMin x1 x2 x3 x4 s
  | .max x1 x2 x3 x4 => Sys2Proof.Machine.execMax x1 x2 x3 x4 s
  | .minu x1 x2 x3 x4 => Sys2Proof.Machine.execMinu x1 x2 x3 x4 s
  | .maxu x1 x2 x3 x4 => Sys2Proof.Machine.execMaxu x1 x2 x3 x4 s
  | .clz x1 x2 x3 => Sys2Proof.Machine.execClz x1 x2 x3 s
  | .ctz x1 x2 x3 => Sys2Proof.Machine.execCtz x1 x2 x3 s
  | .popc x1 x2 x3 => Sys2Proof.Machine.execPopc x1 x2 x3 s
  | .sext x1 x2 x3 x4 => Sys2Proof.Machine.execSext x1 x2 x3 x4 s
  | .zext x1 x2 x3 x4 => Sys2Proof.Machine.execZext x1 x2 x3 x4 s
  | .lea x1 x2 x3 x4 x5 x6 => Sys2Proof.Machine.execLea x1 x2 x3 x4 x5 x6 s
  | .bfx x1 x2 x3 x4 x5 => Sys2Proof.Machine.execBfx x1 x2 x3 x4 x5 s
  | .bfi x1 x2 x3 x4 => Sys2Proof.Machine.execBfi x1 x2 x3 x4 s
  | .rdspec x1 x2 x3 => Sys2Proof.Machine.execRdspec x1 x2 x3 s
  | .empty x1 x2 x3 => Sys2Proof.Machine.execEmpty x1 x2 x3 s
  | .ld x1 x2 x3 x4 x5 x6 x7 => Sys2Proof.Machine.execLd x1 x2 x3 x4 x5 x6 x7 s
  | .st x1 x2 x3 x4 x5 x6 => Sys2Proof.Machine.execSt x1 x2 x3 x4 x5 x6 s
  | .lda x1 x2 x3 x4 x5 x6 => Sys2Proof.Machine.execLda x1 x2 x3 x4 x5 x6 s
  | .stl x1 x2 x3 x4 x5 x6 => Sys2Proof.Machine.execStl x1 x2 x3 x4 x5 x6 s
  | .ldsy x1 x2 x3 x4 x5 x6 x7 => Sys2Proof.Machine.execLdsy x1 x2 x3 x4 x5 x6 x7 s
  | .feclr x1 x2 x3 x4 => Sys2Proof.Machine.execFeclr x1 x2 x3 x4 s
  | .pref x1 x2 x3 x4 => Sys2Proof.Machine.execPref x1 x2 x3 x4 s
  | .send x1 x2 x3 x4 x5 x6 => Sys2Proof.Machine.execSend x1 x2 x3 x4 x5 x6 s
  | .sendp x1 x2 x3 x4 x5 x6 => Sys2Proof.Machine.execSendp x1 x2 x3 x4 x5 x6 s
  | .chmask x1 x2 x3 => Sys2Proof.Machine.execChmask x1 x2 x3 s
  | .bara x1 x2 => Sys2Proof.Machine.execBara x1 x2 s
  | .barw x1 x2 => Sys2Proof.Machine.execBarw x1 x2 s
  | .grab x1 x2 x3 => Sys2Proof.Machine.execGrab x1 x2 x3 s
  | .rngset x1 x2 x3 x4 x5 => Sys2Proof.Machine.execRngset x1 x2 x3 x4 x5 s
  | .flowsig x1 x2 => Sys2Proof.Machine.execFlowsig x1 x2 s
  | .vadd x1 x2 x3 x4 x5 => Sys2Proof.Machine.execVadd x1 x2 x3 x4 x5 s
  | .vsub x1 x2 x3 x4 x5 => Sys2Proof.Machine.execVsub x1 x2 x3 x4 x5 s
  | .vmul x1 x2 x3 x4 x5 => Sys2Proof.Machine.execVmul x1 x2 x3 x4 x5 s
  | .vfma x1 x2 x3 x4 x5 x6 => Sys2Proof.Machine.execVfma x1 x2 x3 x4 x5 x6 s
  | .vfms x1 x2 x3 x4 x5 x6 => Sys2Proof.Machine.execVfms x1 x2 x3 x4 x5 x6 s
  | .vfnma x1 x2 x3 x4 x5 x6 => Sys2Proof.Machine.execVfnma x1 x2 x3 x4 x5 x6 s
  | .vmin x1 x2 x3 x4 x5 => Sys2Proof.Machine.execVmin x1 x2 x3 x4 x5 s
  | .vmax x1 x2 x3 x4 x5 => Sys2Proof.Machine.execVmax x1 x2 x3 x4 x5 s
  | .vabs x1 x2 x3 x4 => Sys2Proof.Machine.execVabs x1 x2 x3 x4 s
  | .vneg x1 x2 x3 x4 => Sys2Proof.Machine.execVneg x1 x2 x3 x4 s
  | .vrcp x1 x2 x3 => Sys2Proof.Machine.execVrcp x1 x2 x3 s
  | .vrsq x1 x2 x3 => Sys2Proof.Machine.execVrsq x1 x2 x3 s
  | .vrsqe x1 x2 x3 x4 => Sys2Proof.Machine.execVrsqe x1 x2 x3 x4 s
  | .vsqrt x1 x2 x3 => Sys2Proof.Machine.execVsqrt x1 x2 x3 s
  | .vdiv x1 x2 x3 x4 => Sys2Proof.Machine.execVdiv x1 x2 x3 x4 s
  | .vexp2 x1 x2 x3 => Sys2Proof.Machine.execVexp2 x1 x2 x3 s
  | .vlog2 x1 x2 x3 => Sys2Proof.Machine.execVlog2 x1 x2 x3 s
  | .vclass x1 x2 x3 x4 => Sys2Proof.Machine.execVclass x1 x2 x3 x4 s
  | .viadd x1 x2 x3 x4 x5 => Sys2Proof.Machine.execViadd x1 x2 x3 x4 x5 s
  | .visub x1 x2 x3 x4 x5 => Sys2Proof.Machine.execVisub x1 x2 x3 x4 x5 s
  | .vimul x1 x2 x3 x4 x5 => Sys2Proof.Machine.execVimul x1 x2 x3 x4 x5 s
  | .vimulh x1 x2 x3 x4 x5 => Sys2Proof.Machine.execVimulh x1 x2 x3 x4 x5 s
  | .vand x1 x2 x3 x4 x5 => Sys2Proof.Machine.execVand x1 x2 x3 x4 x5 s
  | .vor x1 x2 x3 x4 x5 => Sys2Proof.Machine.execVor x1 x2 x3 x4 x5 s
  | .vxor x1 x2 x3 x4 x5 => Sys2Proof.Machine.execVxor x1 x2 x3 x4 x5 s
  | .vshl x1 x2 x3 x4 x5 => Sys2Proof.Machine.execVshl x1 x2 x3 x4 x5 s
  | .vshr x1 x2 x3 x4 x5 => Sys2Proof.Machine.execVshr x1 x2 x3 x4 x5 s
  | .vsar x1 x2 x3 x4 x5 => Sys2Proof.Machine.execVsar x1 x2 x3 x4 x5 s
  | .vimin x1 x2 x3 x4 x5 => Sys2Proof.Machine.execVimin x1 x2 x3 x4 x5 s
  | .vimax x1 x2 x3 x4 x5 => Sys2Proof.Machine.execVimax x1 x2 x3 x4 x5 s
  | .vqadd x1 x2 x3 x4 x5 => Sys2Proof.Machine.execVqadd x1 x2 x3 x4 x5 s
  | .vcmp x1 x2 x3 x4 x5 x6 => Sys2Proof.Machine.execVcmp x1 x2 x3 x4 x5 x6 s
  | .vsel x1 x2 x3 x4 x5 => Sys2Proof.Machine.execVsel x1 x2 x3 x4 x5 s
  | .plog x1 x2 x3 x4 => Sys2Proof.Machine.execPlog x1 x2 x3 x4 s
  | .pcnt x1 x2 x3 => Sys2Proof.Machine.execPcnt x1 x2 x3 s
  | .pfirst x1 x2 x3 => Sys2Proof.Machine.execPfirst x1 x2 x3 s
  | .vcvt x1 x2 x3 x4 x5 x6 x7 x8 => Sys2Proof.Machine.execVcvt x1 x2 x3 x4 x5 x6 x7 x8 s
  | .vqnt x1 x2 x3 x4 x5 x6 x7 => Sys2Proof.Machine.execVqnt x1 x2 x3 x4 x5 x6 x7 s
  | .vdqnt x1 x2 x3 x4 x5 x6 => Sys2Proof.Machine.execVdqnt x1 x2 x3 x4 x5 x6 s
  | .vbcast x1 x2 x3 x4 => Sys2Proof.Machine.execVbcast x1 x2 x3 x4 s
  | .vextr x1 x2 x3 x4 => Sys2Proof.Machine.execVextr x1 x2 x3 x4 s
  | .vins x1 x2 x3 x4 => Sys2Proof.Machine.execVins x1 x2 x3 x4 s
  | .vshuf x1 x2 x3 x4 => Sys2Proof.Machine.execVshuf x1 x2 x3 x4 s
  | .vrot x1 x2 x3 x4 => Sys2Proof.Machine.execVrot x1 x2 x3 x4 s
  | .viota x1 x2 x3 => Sys2Proof.Machine.execViota x1 x2 x3 s
  | .vmov x1 x2 x3 => Sys2Proof.Machine.execVmov x1 x2 x3 s
  | .vred x1 x2 x3 x4 => Sys2Proof.Machine.execVred x1 x2 x3 x4 s
  | .vscan x1 x2 x3 x4 => Sys2Proof.Machine.execVscan x1 x2 x3 x4 s
  | .vdot x1 x2 x3 x4 x5 => Sys2Proof.Machine.execVdot x1 x2 x3 x4 x5 s
  | .vld x1 x2 x3 x4 x5 => Sys2Proof.Machine.execVld x1 x2 x3 x4 x5 s
  | .vst x1 x2 x3 x4 x5 => Sys2Proof.Machine.execVst x1 x2 x3 x4 x5 s
  | .vlds x1 x2 x3 x4 x5 x6 => Sys2Proof.Machine.execVlds x1 x2 x3 x4 x5 x6 s
  | .vsts x1 x2 x3 x4 x5 x6 => Sys2Proof.Machine.execVsts x1 x2 x3 x4 x5 x6 s
  | .vgth x1 x2 x3 x4 x5 x6 x7 => Sys2Proof.Machine.execVgth x1 x2 x3 x4 x5 x6 x7 s
  | .vsct x1 x2 x3 x4 x5 x6 x7 => Sys2Proof.Machine.execVsct x1 x2 x3 x4 x5 x6 x7 s
  | .vldsy x1 x2 x3 x4 x5 => Sys2Proof.Machine.execVldsy x1 x2 x3 x4 x5 s
  | .strm x1 x2 x3 x4 x5 => Sys2Proof.Machine.execStrm x1 x2 x3 x4 x5 s
  | .spopStream x1 x2 x3 => Sys2Proof.Machine.execSpopStream x1 x2 x3 s
  | .spopFifo x1 x2 x3 => Sys2Proof.Machine.execSpopFifo x1 x2 x3 s
  | .spush x1 x2 x3 => Sys2Proof.Machine.execSpush x1 x2 x3 s
  | .cpy x1 x2 x3 x4 x5 x6 x7 => Sys2Proof.Machine.execCpy x1 x2 x3 x4 x5 x6 x7 s
  | .cpy2d x1 x2 x3 x4 x5 x6 x7 x8 x9 x10 => Sys2Proof.Machine.execCpy2d x1 x2 x3 x4 x5 x6 x7 x8 x9 x10 s
  | .cpyw x1 x2 x3 x4 => Sys2Proof.Machine.execCpyw x1 x2 x3 x4 s
  | .cpyst x1 x2 x3 x4 x5 x6 x7 x8 x9 x10 => Sys2Proof.Machine.execCpyst x1 x2 x3 x4 x5 x6 x7 x8 x9 x10 s
  | .amo x1 x2 x3 x4 x5 x6 x7 x8 x9 => Sys2Proof.Machine.execAmo x1 x2 x3 x4 x5 x6 x7 x8 x9 s
  | .amocas x1 x2 x3 x4 x5 x6 x7 x8 x9 => Sys2Proof.Machine.execAmocas x1 x2 x3 x4 x5 x6 x7 x8 x9 s
  | .amor x1 x2 x3 x4 x5 x6 x7 => Sys2Proof.Machine.execAmor x1 x2 x3 x4 x5 x6 x7 s
  | .fence x1 x2 x3 => Sys2Proof.Machine.execFence x1 x2 x3 s
  | .fencee x1 x2 => Sys2Proof.Machine.execFencee x1 x2 s
  | .mlease x1 => Sys2Proof.Machine.execMlease x1 s
  | .mrel x1 => Sys2Proof.Machine.execMrel x1 s
  | .mls x1 x2 x3 x4 x5 x6 => Sys2Proof.Machine.execMls x1 x2 x3 x4 x5 x6 s
  | .mma x1 x2 x3 x4 x5 x6 x7 x8 => Sys2Proof.Machine.execMma x1 x2 x3 x4 x5 x6 x7 x8 s
  | .mmag x1 x2 x3 x4 x5 x6 x7 x8 x9 x10 => Sys2Proof.Machine.execMmag x1 x2 x3 x4 x5 x6 x7 x8 x9 x10 s
  | .mrot x1 x2 x3 x4 x5 x6 => Sys2Proof.Machine.execMrot x1 x2 x3 x4 x5 x6 s
  | .mldt x1 x2 x3 x4 x5 x6 => Sys2Proof.Machine.execMldt x1 x2 x3 x4 x5 x6 s
  | .mst x1 x2 x3 x4 x5 x6 x7 x8 x9 x10 => Sys2Proof.Machine.execMst x1 x2 x3 x4 x5 x6 x7 x8 x9 x10 s
  | .mzero x1 x2 x3 x4 => Sys2Proof.Machine.execMzero x1 x2 x3 x4 s
  | .mstat x1 x2 x3 => Sys2Proof.Machine.execMstat x1 x2 x3 s
  | .gset x1 x2 x3 => Sys2Proof.Machine.execGset x1 x2 x3 s
  | .gclr x1 x2 => Sys2Proof.Machine.execGclr x1 x2 s
  | .gclrR x1 x2 => Sys2Proof.Machine.execGclrR x1 x2 s
  | .mwait x1 x2 => Sys2Proof.Machine.execMwait x1 x2 s
  | .rtset x1 x2 x3 => Sys2Proof.Machine.execRtset x1 x2 x3 s
  | .rtsetInit x1 x2 x3 => Sys2Proof.Machine.execRtsetInit x1 x2 x3 s
  | .rhv x1 x2 x3 x4 => Sys2Proof.Machine.execRhv x1 x2 x3 x4 s
  | .rprobe x1 x2 x3 x4 x5 x6 x7 => Sys2Proof.Machine.execRprobe x1 x2 x3 x4 x5 x6 x7 s
  | .rins x1 x2 x3 => Sys2Proof.Machine.execRins x1 x2 x3 s
  | .rdel x1 x2 x3 => Sys2Proof.Machine.execRdel x1 x2 x3 s
  | .rhash x1 x2 x3 x4 => Sys2Proof.Machine.execRhash x1 x2 x3 x4 s
  | .rhashFifo x1 x2 x3 => Sys2Proof.Machine.execRhashFifo x1 x2 x3 s
  | .rdirty x1 x2 x3 => Sys2Proof.Machine.execRdirty x1 x2 x3 s
  | .rfence x1 x2 => Sys2Proof.Machine.execRfence x1 x2 s
  | .rstat x1 x2 x3 x4 x5 => Sys2Proof.Machine.execRstat x1 x2 x3 x4 x5 s
  | .trate x1 x2 x3 => Sys2Proof.Machine.execTrate x1 x2 x3 s
  | .treg x1 x2 x3 => Sys2Proof.Machine.execTreg x1 x2 x3 s
  | .tregInit x1 x2 x3 => Sys2Proof.Machine.execTregInit x1 x2 x3 s
  | .tregX x1 x2 => Sys2Proof.Machine.execTregX x1 x2 s
  | .tstep x1 x2 => Sys2Proof.Machine.execTstep x1 x2 s
  | .tadv x1 x2 x3 x4 x5 x6 x7 => Sys2Proof.Machine.execTadv x1 x2 x3 x4 x5 x6 x7 s
  | .tadvr x1 x2 x3 x4 x5 x6 => Sys2Proof.Machine.execTadvr x1 x2 x3 x4 x5 x6 s
  | .trd x1 x2 x3 x4 x5 => Sys2Proof.Machine.execTrd x1 x2 x3 x4 x5 s
  | .tclrE x1 x2 x3 x4 => Sys2Proof.Machine.execTclrE x1 x2 x3 x4 s
  | .tclrD x1 x2 x3 x4 => Sys2Proof.Machine.execTclrD x1 x2 x3 x4 s
  | .rwd x1 x2 x3 => Sys2Proof.Machine.execRwd x1 x2 x3 s
  | .rwdC x1 x2 x3 => Sys2Proof.Machine.execRwdC x1 x2 x3 s
  | .rwdw x1 x2 => Sys2Proof.Machine.execRwdw x1 x2 s
  | .trhz x1 x2 x3 x4 x5 => Sys2Proof.Machine.execTrhz x1 x2 x3 x4 x5 s
  | .sts x1 x2 x3 x4 x5 => Sys2Proof.Machine.execSts x1 x2 x3 x4 x5 s
  | .swait x1 x2 => Sys2Proof.Machine.execSwait x1 x2 s
  | .swaitOwn x1 => Sys2Proof.Machine.execSwaitOwn x1 s
  | .rdtime x1 x2 => Sys2Proof.Machine.execRdtime x1 x2 s
  | .stsb x1 x2 x3 x4 => Sys2Proof.Machine.execStsb x1 x2 x3 x4 s
  | .bqpop x1 x2 x3 => Sys2Proof.Machine.execBqpop x1 x2 x3 s
  | .bred x1 x2 x3 x4 x5 x6 => Sys2Proof.Machine.execBred x1 x2 x3 x4 x5 x6 s
  | .bsend x1 x2 x3 x4 x5 => Sys2Proof.Machine.execBsend x1 x2 x3 x4 x5 s
  | .bqdone x1 x2 => Sys2Proof.Machine.execBqdone x1 x2 s
  | .wdset x1 x2 x3 => Sys2Proof.Machine.execWdset x1 x2 x3 s
  | .wdget x1 x2 x3 => Sys2Proof.Machine.execWdget x1 x2 x3 s
  | .csrr x1 x2 x3 => Sys2Proof.Machine.execCsrr x1 x2 x3 s
  | .csrw x1 x2 x3 x4 => Sys2Proof.Machine.execCsrw x1 x2 x3 x4 s
  | .csrs x1 x2 x3 x4 => Sys2Proof.Machine.execCsrs x1 x2 x3 x4 s
  | .csrc x1 x2 x3 x4 => Sys2Proof.Machine.execCsrc x1 x2 x3 x4 s
  | .eret x1 => Sys2Proof.Machine.execEret x1 s
  | .tlbiPage x1 x2 => Sys2Proof.Machine.execTlbiPage x1 x2 s
  | .tlbiAll x1 => Sys2Proof.Machine.execTlbiAll x1 s
  | .tlbiKid x1 x2 => Sys2Proof.Machine.execTlbiKid x1 x2 s
  | .ctxsv x1 x2 x3 x4 => Sys2Proof.Machine.execCtxsv x1 x2 x3 x4 s
  | .ctxsvM x1 x2 x3 x4 => Sys2Proof.Machine.execCtxsvM x1 x2 x3 x4 s
  | .ctxld x1 x2 x3 x4 => Sys2Proof.Machine.execCtxld x1 x2 x3 x4 s
  | .ctxldM x1 x2 x3 x4 => Sys2Proof.Machine.execCtxldM x1 x2 x3 x4 s
  | .wfi x1 => Sys2Proof.Machine.execWfi x1 s
  | .satw x1 x2 x3 => Sys2Proof.Machine.execSatw x1 x2 x3 s
  | .chset x1 x2 x3 x4 x5 => Sys2Proof.Machine.execChset x1 x2 x3 x4 x5 s
  | .preempt x1 x2 x3 => Sys2Proof.Machine.execPreempt x1 x2 x3 s
  | .sleeps x1 x2 x3 => Sys2Proof.Machine.execSleeps x1 x2 x3 s
  | .wakes x1 x2 x3 => Sys2Proof.Machine.execWakes x1 x2 x3 s
  | .gangctlStatus x1 x2 x3 => Sys2Proof.Machine.execGangctlStatus x1 x2 x3 s
  | .gangctlResume x1 x2 x3 => Sys2Proof.Machine.execGangctlResume x1 x2 x3 s
  | .gangctlKill x1 x2 x3 => Sys2Proof.Machine.execGangctlKill x1 x2 x3 s
  | .issueSelection => Sys2Proof.Machine.execIssueSelection s
  | .priorityAging => Sys2Proof.Machine.execPriorityAging s
  | .yieldExpiry => Sys2Proof.Machine.execYieldExpiry s
  | .fetchFill => Sys2Proof.Machine.execFetchFill s
  | .eventArrival => Sys2Proof.Machine.execEventArrival s
  | .sendAcceptance => Sys2Proof.Machine.execSendAcceptance s
  | .eventBind => Sys2Proof.Machine.execEventBind s
  | .undeliverableReturn => Sys2Proof.Machine.execUndeliverableReturn s
  | .barrierPhaseComplete => Sys2Proof.Machine.execBarrierPhaseComplete s
  | .barrierCombine => Sys2Proof.Machine.execBarrierCombine s
  | .rangeUnitOperation => Sys2Proof.Machine.execRangeUnitOperation s
  | .producerResult => Sys2Proof.Machine.execProducerResult s
  | .privateOverflowPerform => Sys2Proof.Machine.execPrivateOverflowPerform s
  | .remoteStoreArrival => Sys2Proof.Machine.execRemoteStoreArrival s
  | .seAccess => Sys2Proof.Machine.execSeAccess s
  | .copyUnit => Sys2Proof.Machine.execCopyUnit s
  | .copyCompletion => Sys2Proof.Machine.execCopyCompletion s
  | .matrixRunGrant => Sys2Proof.Machine.execMatrixRunGrant s
  | .matrixRunIdleTimeout => Sys2Proof.Machine.execMatrixRunIdleTimeout s
  | .matrixCommandStart => Sys2Proof.Machine.execMatrixCommandStart s
  | .matrixCommandComplete => Sys2Proof.Machine.execMatrixCommandComplete s
  | .rotationArrival => Sys2Proof.Machine.execRotationArrival s
  | .retrievalBucketOperation => Sys2Proof.Machine.execRetrievalBucketOperation s
  | .rfenceAck => Sys2Proof.Machine.execRfenceAck s
  | .traceCommandApply => Sys2Proof.Machine.execTraceCommandApply s
  | .rewardSweep => Sys2Proof.Machine.execRewardSweep s
  | .swellSlotTransmit => Sys2Proof.Machine.execSwellSlotTransmit s
  | .swellBeatApply => Sys2Proof.Machine.execSwellBeatApply s
  | .satwApply => Sys2Proof.Machine.execSatwApply s
  | .sleepComplete => Sys2Proof.Machine.execSleepComplete s
  | .mirrorCopyComplete => Sys2Proof.Machine.execMirrorCopyComplete s
  | .runAheadEnd => Sys2Proof.Machine.execRunAheadEnd s
  | .pageWalk => Sys2Proof.Machine.execPageWalk s
  | .lqtailWrite => Sys2Proof.Machine.execLqtailWrite s
  | .jobAdmission => Sys2Proof.Machine.execJobAdmission s
  | .counterDecrement => Sys2Proof.Machine.execCounterDecrement s
  | .launchPriorityAging => Sys2Proof.Machine.execLaunchPriorityAging s
  | .placementRound => Sys2Proof.Machine.execPlacementRound s
  | .gangCompletion => Sys2Proof.Machine.execGangCompletion s
  | .evtailWrite => Sys2Proof.Machine.execEvtailWrite s
  | .hostEventForward => Sys2Proof.Machine.execHostEventForward s
  | .owntagWrite => Sys2Proof.Machine.execOwntagWrite s
  | .ellostClear => Sys2Proof.Machine.execEllostClear s
  | .fttailWrite => Sys2Proof.Machine.execFttailWrite s
  | .ftlostClear => Sys2Proof.Machine.execFtlostClear s
  | .pcfgWrite => Sys2Proof.Machine.execPcfgWrite s
  | .routeWrite => Sys2Proof.Machine.execRouteWrite s
  | .retrain => Sys2Proof.Machine.execRetrain s
  | .bqctlOpen => Sys2Proof.Machine.execBqctlOpen s
  | .bqctlClose => Sys2Proof.Machine.execBqctlClose s
  | .reqWrite => Sys2Proof.Machine.execReqWrite s
  | .raslostClear => Sys2Proof.Machine.execRaslostClear s
  | .bootclr => Sys2Proof.Machine.execBootclr s
  | .wreset => Sys2Proof.Machine.execWreset s
  | .atgo => Sys2Proof.Machine.execAtgo s
  | .attestationReportDone => Sys2Proof.Machine.execAttestationReportDone s
  | .registerWrite => Sys2Proof.Machine.execRegisterWrite s
  | .coldReset => Sys2Proof.Machine.execColdReset s
  | .hostMmio => Sys2Proof.Machine.execHostMmio s
  | .cxlMemRequest => Sys2Proof.Machine.execCxlMemRequest s
  | .hbmAccess => Sys2Proof.Machine.execHbmAccess s
  | .sloimPacketReceive => Sys2Proof.Machine.execSloimPacketReceive s
  | .portDown => Sys2Proof.Machine.execPortDown s
  | .routeFailTimeout => Sys2Proof.Machine.execRouteFailTimeout s
  | .frequencyStopEnd => Sys2Proof.Machine.execFrequencyStopEnd s
  | .voltageRampDone => Sys2Proof.Machine.execVoltageRampDone s
  | .thermalCap => Sys2Proof.Machine.execThermalCap s
  | .thermalHalt => Sys2Proof.Machine.execThermalHalt s
  | .thermalClear => Sys2Proof.Machine.execThermalClear s
  | .stallWindow => Sys2Proof.Machine.execStallWindow s
  | .portUp => Sys2Proof.Machine.execPortUp s

end Sys2Proof.Machine
end

