-- ==== Sys2Proof/Machine/Cycle.lean ====
section
/-! DEFINITION. The machine's own steps: running the next instruction of a context, and the schedule that says which steps
come next when none is asked for (DESIGN CHOICE, log 3). It runs every core for one core cycle, then each unit with something to do,
then the two beats of that core cycle. -/

namespace Sys2Proof.Machine

/-! One instruction -/

/-- Whether a trap is one of the fetch, steps 1 to 3 of 06 Table 6.5: APERTURE, a failed translation or an uncorrectable
block, POOL_EXEC, an address that cannot start an instruction; the others are the instruction's own. -/
def fetchCause (t : Trap) : Bool := t.cause == 5 || t.cause == 7 || t.cause == 0x11 || t.cause == 4 || t.cause == 6

/-- Whether a fetch that fails has still to wait outside run-ahead: its walk follows the accesses before it (18 R383), and before a
POOL_EXEC the instruction before it has completed, its producers too, as before a SYSCALL (06 R138) (DEDUCED, log 32). -/
def fetchWaits (r : Regs) (t : Trap) : Bool := (t.cause == 7 && mustFollow r) || (t.cause == 4 && !r.pend.isEmpty)

/-- A fetch that fails traps at the fetched address; in run-ahead it ends it with reason 5, an instruction that would trap
ends it with reason 3 (18 R389, R391). -/
def fetchFailed (s : State) (c n : Nat) (t : Trap) : State :=
  let x := getCtx s c n
  if x.ra.isSome then endAhead s c n (if fetchCause t then 5 else 3)
  else if fetchWaits x.regs t then wait s
  else takeTrap s c n x.regs.pc t 6

/-- Who reads on behalf of an instruction of a context. -/
def instrReader (s : State) (c n : Nat) : FarReader := .instr c n (getCtx s c n).uid

/-- Fetch the next instruction of a context and run it. Its context waits while the block is not there (01 R38), and while
bytes of peers that the instruction reads are on their way. -/
def runInstr (s : State) (c n : Nat) : Out :=
  let r := instrReader s c n
  farGate s r (match fetchInstr (withBrought { s with cur := (c, n), issuing := false, waited := false } r) c n with
    | (s, .ok i) => exec i s
    | (s, .error (some t)) => .next (fetchFailed s c n t)
    | (s, .error none) => .next (wait s))

/-- Whether a context is able to issue: its next instruction, tried on the present state, does not wait. -/
def isReady (s : State) (c n : Nat) : Bool :=
  mayIssue s c n && !farOpen s (instrReader s c n) && (match runInstr s c n with
    | .next t => !t.waited
    | _ => true)

/-- What a context that cannot issue sends for: the block of its next instruction, or bytes of peers. -/
def sendFor (s : State) (c n : Nat) : State :=
  if !mayIssue s c n || !coreRuns s c || farOpen s (instrReader s c n) then s
  else match fetchInstr (withBrought { s with cur := (c, n), issuing := false, waited := false } (instrReader s c n)) c n with
    | (t, .error none) => (match farGate s (instrReader s c n) (.next (wait t)) with
      | .next u => { u with cur := s.cur, waited := s.waited }
      | _ => s)
    | _ =>
      if s.routes.isEmpty then s
      else match runInstr s c n with
        | .next t =>
          if t.waited && farOpen t (instrReader s c n) then { t with cur := s.cur, waited := s.waited } else s
        | _ => s

def readyMask (s : State) (c : Nat) : Nat :=
  ((List.range 8).filter (isReady s c)).foldl (fun acc n => acc + 2 ^ n) 0

/-! The units that have something to do -/

def stepOf (op : Instr) (i j k : Nat) : Step := ⟨op, { StepArg.none with i, j, k }⟩
def stepIf (b : Bool) (op : Instr) (i j k : Nat) : List Step := if b then [stepOf op i j k] else []

def copySteps (s : State) (c : Nat) (k : Core) : List Step :=
  k.copies.filterMap fun p =>
    if copyEnds s c p then some (stepOf .copyCompletion c p.id 0)
    else if copyMoves s c p && !copyStopped s c p then some (stepOf .copyUnit c p.id 0) else none

/-- Those of a list of producers of a context that have something to deliver or to perform. -/
def pendSteps (s : State) (c n : Nat) (ps : List Pending) : List Step :=
  ps.filterMap fun p => if pendReady s c n p then some (stepOf .producerResult c n p.id) else none

def ctxSteps (s : State) (c n : Nat) (x : Ctx) : List Step :=
  pendSteps s c n (x.regs.pend ++ x.ra.elim [] fun a => a.saved.pend) ++
  stepIf (aheadEnded s c n) .runAheadEnd c n 0 ++
  stepIf (!x.fwd.isEmpty) .privateOverflowPerform c n 0

/-- What a core's tasks have left behind DONE (07 R168). -/
def endedSteps (s : State) (c : Nat) (k : Core) : List Step :=
  k.ended.flatMap fun e => pendSteps (modCtx s c (e.1 % 8) fun _ => e.2) c (e.1 % 8) e.2.regs.pend

def matrixSteps (c : Nat) (k : Core) : List Step :=
  match k.mq with
  | [] => []
  | m :: _ => [stepOf (if m.started then .matrixCommandComplete else .matrixCommandStart) c 0 0]

def traceSteps (s : State) (c : Nat) (k : Core) : List Step :=
  if clockStopped s c then []
  else match nextItem k (freeItem s c) [] k.tl with
    | none => []
    | some (_, none) => [stepOf .traceCommandApply c 0 0]
    | some (_, some (g, _)) => stepIf (inCycle s c && cycleNumber s c % sweepCycles k g == 0) .rewardSweep c 0 0

/-- The acknowledgements of an RFENCE at the head of a core's queue; with none left, the last one again, once what was
written to peers is there. -/
def fenceSteps (s : State) (c : Nat) (k : Core) : List Step :=
  match k.rq with
  | m :: _ => match m.op with
    | .fence _ _ left upto =>
      if !m.begun then []
      else if left.isEmpty then stepIf (!fencePackets s c upto) .rfenceAck c (clusterOf c) 0
      else left.map fun u => stepOf .rfenceAck c u 0
    | _ => []
  | [] => []

def coreSteps (s : State) (e : Nat × Core) : List Step :=
  stepIf (coreAwake s e.1 && (freeCtx e.2).isSome && (nextChan e.2).isSome) .eventBind e.1 0 0 ++
    copySteps s e.1 e.2 ++ e.2.ctxs.flatMap (fun x => ctxSteps s e.1 x.1 x.2) ++ endedSteps s e.1 e.2 ++ matrixSteps e.1 e.2 ++
    traceSteps s e.1 e.2 ++ fenceSteps s e.1 e.2

/-- The clusters of the cores that hold anything. -/
def liveClusters (s : State) : List Nat := ((s.cores.filter fun e => !isGw e.1).map fun e => clusterOf e.1).dedup

def clusterSteps (s : State) (k : Nat) : List Step :=
  let cl := getCluster s k
  let cores := clusterCores k
  (if cl.run.isSome then stepIf (cl.run.any fun r => decide (64 ≤ r.idle)) .matrixRunIdleTimeout k 0 0
    else stepIf (cores.any (ableToStart s)) .matrixRunGrant k 0 0) ++
  stepIf (cores.any fun c => match (getCore s c).rq with
    | m :: _ => !cmdWaits s c m && !cmdHeld s k c m && !clockStopped s c
    | [] => false) .retrievalBucketOperation k 0 0 ++
  stepIf (cl.needLatch && !cl.linkLatch.isEmpty) .rotationArrival k 0 0 ++
  (if cl.needTile && !cl.linkTile.isEmpty then [⟨.rotationArrival, { StepArg.none with i := k, b := true }⟩] else [])

def stratumSteps (s : State) (z : Nat) : List Step :=
  stepIf (!(getStratum s z).rangeQ.isEmpty) .rangeUnitOperation z 0 0 ++ stepIf (maySleep s z) .sleepComplete z 0 0 ++
    (getStratum s z).fetches.map (fun f => ⟨.fetchFill, { StepArg.none with i := z, x := f.addr, y := f.kid.setWidth 64 }⟩)

/-- Records reach a core in the order of their sources (02 R51). -/
def insertTransit (t : Transit) : List Transit → List Transit
  | [] => [t]
  | u :: r => if t.ev.src.toNat ≤ u.ev.src.toNat then t :: u :: r else u :: insertTransit t r

def netSteps (s : State) : List Step :=
  (s.net.foldr insertTransit []).map fun t =>
    stepOf (if t.waiting then .sendAcceptance else if t.home then .undeliverableReturn else .eventArrival) 0 t.id 0

def engineSteps (s : State) : List Step :=
  s.engines.flatMap fun e => (e.2.filter (seMay e.2)).map fun r => stepOf .seAccess e.1 r.id 0

def partSteps (s : State) (p : Nat) : List Step :=
  let x := getPart s p
  stepIf (!x.decs.isEmpty) .counterDecrement p 0 0 ++
  stepIf (visited s p).isSome .jobAdmission p 0 0 ++
  (if s.stc.toNat % 16 = 0 ∧ (candsOf x).isEmpty = false then
    [stepOf .launchPriorityAging p 0 0, stepOf .placementRound p 0 0] else []) ++
  stepIf (x.evWait.isNone && (ringSize x.ev.ctl).isSome && x.ev.head != x.ev.tail) .hostEventForward p 0 0

/-- Every unit with something to do, each one step. -/
def unitSteps (s : State) : List Step :=
  netSteps s ++ engineSteps s ++ s.posted.map (fun p => stepOf .remoteStoreArrival 0 p.id 0) ++
    s.cores.flatMap (coreSteps s) ++ (liveClusters s).flatMap (clusterSteps s) ++
    (List.range 17).flatMap (stratumSteps s) ++ (List.range 8).flatMap (partSteps s)

/-- The next core, in the order of ids, that holds a resident context and begins a core cycle now. -/
def nextCore (s : State) : Option Nat :=
  (s.cores.find? fun e => decide (s.visit ≤ e.1) && inCycle s e.1 && e.2.ctxs.any fun x => x.2.resident).map (·.1)

/-- Core cycles of the stall window go by in the strata that are awake and whose clock runs (20 R415). -/
def countCycles (s : State) : State :=
  let runs (e : Nat × Stratum) : Bool := e.2.awake && decide (e.1 < 16) && inCycle s (1024 * e.1) && !clockStopped s (1024 * e.1)
  { s with strata := s.strata.map fun e =>
      (e.1, if runs e then { e.2 with power := { e.2.power with cycles := e.2.power.cycles + 1 } } else e.2) }

/-- The runs whose holder begins a core cycle now count it (09 R225); a clock that stands still has no cycles. -/
def countRuns (s : State) : State :=
  let begins (k : Nat) : Bool := (getCluster s k).run.isSome && inCycle s (k / 256 * 1024) && !clockStopped s (k / 256 * 1024)
  ((liveClusters s).filter begins).foldl countRun s

/-- The steps that have waited for bytes of peers and go on, those aside that come anyway. -/
def resumed (s : State) (units : List Step) : List Step :=
  s.stalled.filter fun t => !farOpen s (.step t) && !units.contains t

/-- What comes when nothing is asked for: the next core of the cycle, or after the last core the units and the beats. -/
def nextCycle (s : State) : State :=
  match nextCore s with
  | some c =>
    let s := (List.range 8).foldl (fun s n => sendFor s c n) s
    { s with visit := c + 1,
             agenda := [⟨.issueSelection, { StepArg.none with i := c, x := word (readyMask s c) }⟩] }
  | none =>
    let s := countRuns (countCycles s)
    let units := unitSteps s
    { s with visit := 0, agenda := units ++ resumed s units ++
                           [stepOf .swellSlotTransmit 0 0 0, stepOf .swellSlotTransmit 0 0 0] }

/-- One step of the machine: the instruction that a core has selected, else the first step asked for, else the schedule. A step
that waits for bytes of a peer is passed over. -/
def machineStep (s : State) : Out :=
  if s.issuing then runInstr s s.cur.1 s.cur.2
  else match s.agenda with
    | t :: r =>
      let s := { s with agenda := r }
      if farOpen s (.step t) then .next s
      else farGate s (.step t) (exec t.op (withBrought { s with arg := t.arg } (.step t)))
    | [] => .next (nextCycle s)

/-! Placing an instruction (DESIGN CHOICE, log 5) -/

/-- The address of the instruction that withFetch places, physical and virtual. -/
def placeAt : Nat := 0x200000

/-- The page tables of partition 0: one page of 1 GiB at address 0 that every access may use. -/
def placeTables (s : State) : State :=
  let s := writeHbmBytes s 0 (toLe 8 (0x100000 + 1))
  writeHbmBytes s 0x100000 (toLe 8 0x3F)

/-- Partition 0 owns stratum 0 and stack 0, boot is over, and context 0 of core 0 runs next at the placed address. -/
def placeReady (s : State) : State :=
  let s := { s with cur := (0, 0), issuing := true, waited := false, touched := [] }
  let s := modStratum s 0 fun z => { z with awake := true }
  let s := modPart s 0 fun p => { p with pcfg := p.pcfg ||| 0x8000000001000001, ptbase := 0 }
  modCtx s 0 0 fun x =>
    { x with resident := true, frozen := false, freezing := false, stopping := false, ra := none, block := none,
             regs := { x.regs with pc := word placeAt } }

/-- The state with an instruction placed where the next step fetches: in memory, and as the one block in the instruction
cache of core 0, since a fetch that misses waits for the fetch agent (01 R38). -/
def placeWord (s : State) (nbits w : Nat) : State :=
  let b : ICacheBlock := { kid := (getCtx s 0 0).kernel, addr := word placeAt, data := toLe 32 (w % 2 ^ nbits) }
  let s := modCore s 0 fun k => { k with utlb := [], icache := [b] }
  let s := modCluster s 0 fun k => { k with tlb := [] }
  let s := modStratum s 0 fun z => { z with tlb := [] }
  writeHbmBytes (placeTables (placeReady s)) placeAt (toLe 16 (w % 2 ^ nbits))

end Sys2Proof.Machine
end

