-- ==== Sys2Proof/Safety.lean ====
section
/-! DEFINITION. The terms in which statements speak of a run: when an instruction executes normally, when a step completes,
which bytes a state holds, and the canonical form of every memory. -/

namespace Sys2Proof.Machine

/-- An instruction that the running context executes normally (06 R146, steps 6 to 10 of Table 6.5; 05 R120 to R123): no
run-ahead, its privilege and its units are there, its condition is FULL and true, its sources and destinations are FULL,
no fence holds it. -/
def issues (i : Instr) (s : State) : Bool :=
  (me s).ra.isNone && !(isPrivileged i && (me s).priv == 0) && !absentOn i (isGw (myId s)) &&
    !qEmpty (myRegs s) (condOf i).q && condTrue s (condOf i) && !((useOf i).srcs.any (srcEmpty (myRegs s))) &&
    !((useOf i).dsts.any (dstEmpty (myRegs s))) && !fenced s i

/-- Wherever the instruction executes normally, exec answers a next state, and that state is t with the program counter
moved past the instruction (06 R136). -/
def Gives (i : Instr) (s t : State) : Prop := issues i s = true → exec i s = .next (advance t i)

/-- The same for an instruction that does not move past itself: a transfer, a wait for an answer, an end. -/
def Becomes (i : Instr) (s t : State) : Prop := issues i s = true → exec i s = .next t

/-- A vector instruction (06 R144, 03 R75): an active lane k of the destination becomes the lane that f gives, an inactive
lane keeps its content, and FSTAT gains the flags that f gives for the active lanes and no other. -/
def VectorGives (i : Instr) (s : State) (p : Pred) (d : VReg) (f : Nat → Lane × FFlags) : Prop :=
  issues i s = true → ∃ (v : VWord) (g : FFlags), exec i s = .next (advance (raise (setV s d v) g) i) ∧
    (∀ k, k < 64 → lane v k = if (lanes s p).getLsbD k then (f k).1 else lane (rdV (myRegs s) d) k) ∧
    ∀ b, b < 6 → (g.getLsbD b = true ↔ ∃ k, k < 64 ∧ (lanes s p).getLsbD k = true ∧ (f k).2.getLsbD b = true)

/-- The choice of the .I32 form of an instruction that has one (07 R172). -/
def i32Of : Instr → Option Bool
  | .add _ t _ _ _ | .sub _ t _ _ _ | .mul _ t _ _ _ | .div _ t _ _ _ | .divu _ t _ _ _ | .rem _ t _ _ _
  | .remu _ t _ _ _ | .shl _ t _ _ _ | .shr _ t _ _ _ | .sar _ t _ _ _ | .ror _ t _ _ _ => some t
  | _ => none

/-- The instructions that change registers of their context alone, and never trap or wait once they issue: the scalar
ones. -/
def scalarPlain : Instr → Bool
  | .nop .. | .li .. | .mov .. | .sel .. | .cmpq .. | .qop .. | .add .. | .sub .. | .mul .. | .mulh .. | .mulhu .. | .div ..
  | .divu .. | .rem .. | .remu .. | .and .. | .or .. | .xor .. | .andn .. | .shl .. | .shr .. | .sar .. | .ror .. | .min ..
  | .max .. | .minu .. | .maxu .. | .clz .. | .ctz .. | .popc .. | .sext .. | .zext .. | .lea .. | .bfx .. | .bfi ..
  | .empty .. | .rdtime .. | .wdget .. => true
  | _ => false

/-- The same of the vector instructions. -/
def vectorPlain : Instr → Bool
  | .vadd .. | .vsub .. | .vmul .. | .vfma .. | .vfms .. | .vfnma .. | .vmin .. | .vmax .. | .vabs .. | .vneg .. | .vrcp ..
  | .vrsq .. | .vrsqe .. | .vsqrt .. | .vdiv .. | .vexp2 .. | .vlog2 .. | .vclass .. | .viadd .. | .visub .. | .vimul ..
  | .vimulh .. | .vand .. | .vor .. | .vxor .. | .vshl .. | .vshr .. | .vsar .. | .vimin .. | .vimax .. | .vqadd ..
  | .vsel .. | .plog .. | .pcnt .. | .pfirst .. | .vbcast .. | .vextr .. | .vins .. | .vshuf .. | .vrot .. | .viota ..
  | .vmov .. | .vred .. | .vscan .. | .vdot .. | .strm .. => true
  | _ => false

/-- Every register of a context but the program counter and FSTAT that is none of the given destinations keeps its value,
every full/empty bit and everything else of the context too. -/
def KeepsRegisters (ds : List Dst) (x y : Ctx) : Prop :=
  (∀ n : SReg, Dst.s n ∉ ds → y.regs.s.get n.toFin = x.regs.s.get n.toFin) ∧
    (∀ n : VReg, Dst.v n ∉ ds → y.regs.v.get n.toFin = x.regs.v.get n.toFin) ∧
    (∀ n : PReg, Dst.p n ∉ ds → y.regs.p.get n.toFin = x.regs.p.get n.toFin) ∧
    (∀ n : QReg, Dst.q n ∉ ds → y.regs.q.getLsbD n.toNat = x.regs.q.getLsbD n.toNat) ∧
    (∀ n : XReg, Dst.x n ∉ ds → y.regs.x.get n.toFin = x.regs.x.get n.toFin) ∧
    y = { x with regs := { x.regs with s := y.regs.s, v := y.regs.v, p := y.regs.p, q := y.regs.q, x := y.regs.x,
                                       pc := y.regs.pc, fstat := y.regs.fstat } }

/-- A step that completes: neither a fault nor a refusal. -/
def Completes (s : State) : Prop := ∃ t, step s = .next t

/-- A safe run of n steps: every step completes. -/
def SafeRun : Nat → State → Prop
  | 0, _ => True
  | n + 1, s => ∃ t, step s = .next t ∧ SafeRun n t

/-- Every byte memory is in its canonical form: addresses strictly rise and no listed byte is the unlisted one (DESIGN CHOICE, log 1). -/
def MemoryOk (s : State) : Prop :=
  Memory.wf s.hbm = true ∧ (∀ c, Memory.wf (getCore s c).pool = true) ∧ (∀ l, Memory.wf (getLayer s l).mirror = true) ∧
    ∀ p, Memory.wf (getPart s p).sync = true

/-- Two states hold the same bytes: physical memory, every pool, every mirror and every sync space. -/
def SameMemory (s t : State) : Prop :=
  (∀ a, cget t.hbm a = cget s.hbm a) ∧ (∀ c o, cget (getCore t c).pool o = cget (getCore s c).pool o) ∧
    (∀ l o, cget (getLayer t l).mirror o = cget (getLayer s l).mirror o) ∧
    ∀ p o, cget (getPart t p).sync o = cget (getPart s p).sync o

/-- The places whose bytes a store to an element writes: a quantized element's code, not its scale record. -/
def storedPlaces : El → List Place
  | .raw ps => ps
  | .fp _ ps => ps
  | .quant _ code _ _ => [code]
  | .plast .. => []

/-- Every byte outside the places of a list reads as before. -/
def SameMemoryBut (l : List Place) (s t : State) : Prop :=
  (∀ a, Place.hbm a ∉ l → cget t.hbm a = cget s.hbm a) ∧
    (∀ c o, Place.pool c o ∉ l → cget (getCore t c).pool o = cget (getCore s c).pool o) ∧
    (∀ m o, Place.mirror m o ∉ l → cget (getLayer t m).mirror o = cget (getLayer s m).mirror o) ∧
    ∀ p o, cget (getPart t p).sync o = cget (getPart s p).sync o

/-- Every other context of the module is unchanged, and the core's own registers are. -/
def SameElsewhere (s t : State) : Prop :=
  (∀ c n, (c, n) ≠ s.cur → getCtx t c n = getCtx s c n) ∧
    ∀ c, { getCore t c with ctxs := [] } = { getCore s c with ctxs := [] }

end Sys2Proof.Machine
end

