-- ==== Sys2Proof/Certificates/Slice0/Obligations.lean ====
section
/-! DEFINITION. The statements about the model, each from the rules that its docstring cites. -/

open Sys2Proof Sys2Proof.Machine

/-! Encoding (06) -/

/-- 06 R135, R139 to R145 and the encoding table of each chapter: an encoded well-formed instruction decodes to itself,
whatever bytes follow it. -/
def Obligations.EncodeDecode : Prop :=
  ∀ i : Instr, i.wf = true →
    ∃ bs, encode i = some bs ∧ bs.length = i.len ∧ ∀ rest, decodeBytes (bs ++ rest) = some (.ok i)

/-- Words written out from the encoding tables (06 Table 6.10, 16 Table 16.3, 10 Tables 10.6 and 10.9, 09 Table 9.6):
the decoder reads each as the instruction it stands for. -/
def Obligations.EncodingWords : Prop :=
  decodeTableWord 64 0x0000000000000004 = some (.nop ⟨0, false⟩) ∧
  decodeTableWord 64 0x0000010000050380 = some (.csrr ⟨0, false⟩ 5 1) ∧
  decodeTableWord 64 0x00000000028903AC = some (.preempt ⟨0, false⟩ 9 ⟨10, false⟩) ∧
  decodeTableWord 64 0x0000030005050398 = some (.ctxsv ⟨0, false⟩ 5 3 ⟨20, false⟩) ∧
  decodeTableWord 64 0x00000300000002EC = some (.tstep ⟨0, false⟩ 3) ∧
  decodeTableWord 64 0x00000000A2400300 = some (.rwd ⟨0, false⟩ ⟨9, false⟩ ⟨10, false⟩) ∧
  decodeTableWord 64 0x0000080075000B0C = some (.sts ⟨0, false⟩ .w ⟨20, false⟩ (.i24 8) ⟨7, false⟩) ∧
  decodeTableWord 128 0xA000007F00000040000000000504068E =
    some (.mma ⟨0, false⟩ true false (some 2) 4 ⟨20, false⟩ 127 64)

/-- 06 R147 and R142: a major that Table 6.6 does not assign is ILLEGAL, whatever the other fields hold, and no word
whose P field is 0 and whose PN bit is 1 is an instruction. -/
def Obligations.UnassignedMajors : Prop :=
  (∀ (r : Raw) (x : Ext), (r.op = 0 ∨ r.op = 0x2F ∨ r.op = 0x37 ∨ (0x71 ≤ r.op.toNat ∧ r.op.toNat ≤ 0x7F) ∨
       (0x8A ≤ r.op.toNat ∧ r.op.toNat ≤ 0x8F) ∨ (0x99 ≤ r.op.toNat ∧ r.op.toNat ≤ 0x9F) ∨
       (0xAD ≤ r.op.toNat ∧ r.op.toNat ≤ 0xAF) ∨ r.op = 0xC7 ∨ (0xCE ≤ r.op.toNat ∧ r.op.toNat ≤ 0xDF) ∨
       0xEF ≤ r.op.toNat) → decodeRaw r x = .error .illegal) ∧
  (∀ (r : Raw) (x : Ext) (i : Instr), r.p = 0 → r.pn = true → decodeRaw r x ≠ .ok i)

/-! The step -/

/-- A step runs the decoded instruction: when a context is to issue and the fetch at its program counter gives i, the
step is exec of i on the state that the fetch leaves, with the marks issuing and waited cleared (log 3: the model's own
marks), and with what responses of peers have brought for that context in its place (log 12, DESIGN CHOICE). Around it
stands the gate of the bytes and packets of peers (log 12): where exec gives a next state that has read none and overfills
no pair (20 R410), and nothing waits for any, that state is the step's. A context whose block is not there waits (01 R38). The i that
a fetch gives is the one that decodes from the bytes at the program counter (06 R135, R136). -/
def Obligations.StepRunsInstruction : Prop :=
  (∀ (s t u : State) (i : Instr), s.issuing = true →
     let start := { s with issuing := false, waited := false }
     let r := instrReader s s.cur.1 s.cur.2
     (s.brought = [] → withBrought start r = start) ∧
     (fetchInstr (withBrought start r) s.cur.1 s.cur.2 = (t, .ok i) → step s = farGate s r (exec i t) ∧
       (exec i t = .next u → u.touched = [] → s.brought = [] → s.stalled = [] → pairsBurst s u = false →
         step s = .next u)) ∧
     (fetchInstr (withBrought start r) s.cur.1 s.cur.2 = (t, .error none) → step s = farGate s r (.next (wait t)))) ∧
  (∀ (s t : State) (c n : Nat) (d : List Byte) (i : Instr),
     fetchBlock s c n (getCtx s c n).regs.pc.toNat = (t, .ok d) → fetchInstr s c n = (t, .ok i) →
       decodeBytes (d.drop ((getCtx s c n).regs.pc.toNat % 32)) = some (.ok i))

/-- A step that runs no instruction is exec of the first step of the agenda with its operands, within the gate of the
bytes and packets of peers (log 12, DESIGN CHOICE), which gives it what was brought for it and passes over a step that still
waits for some; with an empty agenda it asks for steps of the table, and changes nothing but the agenda, the core that the
schedule visits, at the end of a core cycle the cycle counts of the stall windows and of the runs of arrays, and, when a core begins its cycle, what its contexts send for because they cannot
issue without it (log 3: the model's own schedule). What a step has read of peers is noted during that step alone. -/
def Obligations.StepRunsAgenda : Prop :=
  (∀ (s u : State) (x : Step) (r : List Step), s.issuing = false → s.agenda = x :: r →
     let o := exec x.op (withBrought { s with agenda := r, arg := x.arg } (.step x))
     (farOpen s (.step x) = true → step s = .next { s with agenda := r }) ∧
     (farOpen s (.step x) = false → step s = farGate { s with agenda := r } (.step x) o ∧
       (s.brought = [] → o = exec x.op { s with agenda := r, arg := x.arg }) ∧
       (o = .next u → u.touched = [] → s.brought = [] → s.stalled = [] → pairsBurst { s with agenda := r } u = false →
         step s = .next u))) ∧
  (∀ (s : State), s.issuing = false → s.agenda = [] →
     ∃ v a t, step s = .next { t with visit := v, agenda := a } ∧
       (t = countRuns (countCycles s) ∨ ∃ c, t = (List.range 8).foldl (fun u n => sendFor u c n) s) ∧
       ∀ x ∈ a, x.op.isStep = true ∨ x ∈ s.stalled) ∧
  (∀ (s t : State), s.touched = [] → step s = .next t → t.touched = [])

/-- 06 R137 and 02 R57: an instruction address outside the global aperture raises APERTURE, one that cannot start an
instruction raises MISALIGNED, with EPC and FADDR the address, before any instruction has an effect. That MISALIGNED
comes before the translation of the address is the model's reading (log 32, DEDUCED). The trap stands within the gate of
the bytes of peers (log 12, DESIGN CHOICE), which lets it through as it is where nothing waits for any. -/
def Obligations.FetchChecks : Prop :=
  ∀ (s : State) (c n : Nat), s.issuing = true → s.cur = (c, n) → (getCtx s c n).ra = none →
    (getCtx s c n).intrap = false → (getCtx s c n).priv ≠ 2 →
    let quiet := s.touched = [] ∧ s.brought = [] ∧ s.stalled = []
    let pc := (getCtx s c n).regs.pc
    let start := withBrought { s with issuing := false, waited := false } (instrReader s c n)
    let trapped (code : Nat) := Host.Outcome.next (modCtx start c n fun x =>
      { x with cause := word code, epc := pc, faddr := pc, ppriv := x.priv, priv := 1, intrap := true, stopping := false,
               await := none, regs := { x.regs with pc := x.tvec } })
    let traps (code : Nat) := step s = farGate s (instrReader s c n) (trapped code) ∧ (quiet → step s = trapped code)
    (apOf pc.toNat ≠ .glob → traps 0x05) ∧ (apOf pc.toNat = .glob → (pc.toNat % 4 ≠ 0 ∨ pc.toNat % 32 = 28) → traps 0x06)

/-! Memory -/

/-- Every step keeps the canonical form of every memory (DESIGN CHOICE, log 1). -/
def Obligations.StepKeepsMemory : Prop :=
  ∀ (s t : State), MemoryOk s → step s = .next t → MemoryOk t

/-- The memories of the machine after reset have that form. -/
def Obligations.ResetMemory : Prop := MemoryOk State.reset

/-- A byte of physical memory, of a pool or of a mirror read after a write: the byte written at its place, every other
byte of that memory and every byte of the other memories (physical memory, pools, mirrors, sync spaces) as before; bytes
written lowest first read back as the value, modulo the width (00 R4). -/
def Obligations.ByteAfterWrite : Prop :=
  (∀ (s : State) (v : Byte),
     (∀ a b, cget (writeHbm s a v).hbm b = if b = a then v else cget s.hbm b) ∧
     (∀ c o d u, cget (getCore (writePool s c o v) d).pool u =
       if d = c ∧ u = o then v else cget (getCore s d).pool u) ∧
     (∀ l o m u, cget (getLayer (writePlace s (.mirror l o) v) m).mirror u =
       if m = l ∧ u = o then v else cget (getLayer s m).mirror u) ∧
     (∀ a, SameMemoryBut [.hbm a] s (writeHbm s a v)) ∧ (∀ c o, SameMemoryBut [.pool c o] s (writePool s c o v)) ∧
     (∀ l o, SameMemoryBut [.mirror l o] s (writePlace s (.mirror l o) v)) ∧
     (∀ c n a, writePlace s (.fwd c n a) v = writeHbm s a v) ∧
     ∀ a, (writeHbm s a v).cores = s.cores ∧ (writeHbm s a v).layers = s.layers ∧ (writeHbm s a v).parts = s.parts) ∧
  (∀ (s : State) (a n v : Nat), readHbmNat (writeHbmBytes s a (toLe n v)) a n = v % 256 ^ n)

/-! Reset -/

/-- What the specification states that reset leaves: the stack time counter 0 (20 R423), partition words of CTX 1, ACC 0
and SPILL 0 (01 Table 1.3), ranges START 0, REM 0, C 1, D 1 (02 R61), every scratchpad word FULL (04 R110), LRUN 16 and
A latches and stationary registers of INT8 zeros (09 R224, R225), slots of OWNER 31 (16 Table 16.11), no ring of records
(16 R345), OWNTAG never written (16 R357), ports down and routes 0xFF (20 R408, R411), strata asleep until boot (20
R421). That the boot is the first step from reset is the model's choice (log 5, DESIGN CHOICE). -/
def Obligations.ResetState : Prop :=
  let s := State.reset
  s.stc = 0 ∧ s.modid = 0 ∧ s.herr = 0 ∧
  (∀ c, (getCore s c).pword = 1 ∧ (∀ w, wordFull s c w = true) ∧ (getCore s c).elSize = 0 ∧
    (getCore s c).ownWritten = false ∧ (getCore s c).stat = { fmt := .int8, lines := [], records := [] }) ∧
  (∀ k, (getCluster s k).lrun = 16 ∧ (getCluster s k).latch = { fmt := .int8, lines := [], records := [] }) ∧
  (∀ z r, mget (getStratum s z).ranges r RangeEnt.reset = { start := 0, rem := 0, c := 1, d := 1 }) ∧
  (∀ z, (getStratum s z).awake = false) ∧ (∀ n, getSlot s n = 31) ∧ (∀ n, (getPort s n).up = false) ∧
  (∀ p m, routeOf s p m = 0xFF) ∧ s.agenda.map (·.op) = [.coldReset]

/-! Scalar instructions (07) -/

/-- 07 R170: sums, differences, products and their high halves, quotients truncated toward zero and remainders with the
sign of a, on 64 bits. -/
def Obligations.Arithmetic64 : Prop :=
  ∀ (c : Cond) (d : SReg) (a : SSrc) (b : OpB) (s : State),
    let x := sv s a
    let y := opB s b
    Gives (.add c false d a b) s (setS s d (x + y)) ∧ Gives (.sub c false d a b) s (setS s d (x - y)) ∧
    Gives (.mul c false d a b) s (setS s d (x * y)) ∧
    Gives (.mulh c d a b) s (setS s d (BitVec.ofInt 64 (x.toInt * y.toInt / 2 ^ 64))) ∧
    Gives (.mulhu c d a b) s (setS s d (BitVec.ofNat 64 (x.toNat * y.toNat / 2 ^ 64))) ∧
    (y ≠ 0 → Gives (.div c false d a b) s (setS s d (x.sdiv y)) ∧ Gives (.divu c false d a b) s (setS s d (x / y)) ∧
      Gives (.rem c false d a b) s (setS s d (x.srem y)) ∧ Gives (.remu c false d a b) s (setS s d (x % y)))

/-- 07 R171: division by zero and the one signed overflow complete with the table's values, shift amounts use b[5:0],
and the logical majors sign-extend their immediate. -/
def Obligations.DivisionTable : Prop :=
  ∀ (c : Cond) (d : SReg) (a : SSrc) (b : OpB) (s : State),
    let x := sv s a
    let y := opB s b
    let n := y.toNat % 64
    (y = 0 → Gives (.div c false d a b) s (setS s d (BitVec.allOnes 64)) ∧
      Gives (.divu c false d a b) s (setS s d (BitVec.allOnes 64)) ∧ Gives (.rem c false d a b) s (setS s d x) ∧
      Gives (.remu c false d a b) s (setS s d x)) ∧
    (x = BitVec.intMin 64 → y = -1 → Gives (.div c false d a b) s (setS s d (BitVec.intMin 64)) ∧
      Gives (.rem c false d a b) s (setS s d 0)) ∧
    Gives (.shl c false d a b) s (setS s d (x <<< n)) ∧ Gives (.shr c false d a b) s (setS s d (x >>> n)) ∧
    Gives (.sar c false d a b) s (setS s d (x.sshiftRight n)) ∧
    Gives (.ror c false d a b) s (setS s d (x.rotateRight n)) ∧
    (∀ v : BitVec 24, b = .imm (.i24 v) → y = v.signExtend 64) ∧ (∀ v : BitVec 32, b = .imm (.i32 v) → y = v.signExtend 64) ∧
    Gives (.and c d a b) s (setS s d (x &&& y)) ∧ Gives (.or c d a b) s (setS s d (x ||| y)) ∧
    Gives (.xor c d a b) s (setS s d (x ^^^ y)) ∧ Gives (.andn c d a b) s (setS s d (x &&& ~~~y))

/-- 07 R172: the .I32 forms, which FN bit 0 selects, compute on bits 31:0 and sign-extend the 32-bit result; division by
zero and the signed overflow follow R171 with 2^31, shift amounts use b[4:0]. -/
def Obligations.Arithmetic32 : Prop :=
  (∀ (r : Raw) (x : Ext) (i : Instr) (t : Bool), decodeRaw r x = .ok i → i32Of i = some t → t = r.fn.getLsbD 0) ∧
  ∀ (c : Cond) (d : SReg) (a : SSrc) (b : OpB) (s : State),
    let x := (sv s a).setWidth 32
    let y := (opB s b).setWidth 32
    let n := (opB s b).toNat % 32
    let gives (i : Instr) (r : BitVec 32) := Gives i s (setS s d (r.signExtend 64))
    gives (.add c true d a b) (x + y) ∧ gives (.sub c true d a b) (x - y) ∧ gives (.mul c true d a b) (x * y) ∧
    (y ≠ 0 → gives (.div c true d a b) (x.sdiv y) ∧ gives (.divu c true d a b) (x / y) ∧
      gives (.rem c true d a b) (x.srem y) ∧ gives (.remu c true d a b) (x % y)) ∧
    (y = 0 → gives (.div c true d a b) (BitVec.allOnes 32) ∧ gives (.divu c true d a b) (BitVec.allOnes 32) ∧
      gives (.rem c true d a b) x ∧ gives (.remu c true d a b) x) ∧
    (x = BitVec.intMin 32 → y = -1 → gives (.div c true d a b) (BitVec.intMin 32) ∧ gives (.rem c true d a b) 0) ∧
    gives (.shl c true d a b) (x <<< n) ∧ gives (.shr c true d a b) (x >>> n) ∧
    gives (.sar c true d a b) (x.sshiftRight n) ∧ gives (.ror c true d a b) (x.rotateRight n)

/-- 07 R170 and R173 to R175: minima and maxima, bit counts, extensions, addresses and bit fields. -/
def Obligations.BitsAndFields : Prop :=
  ∀ (c : Cond) (d : SReg) (a b : SSrc) (o : OpB) (n1 : BitVec 6) (k : BitVec 2) (disp : Imm) (f : FieldSel) (s : State),
    let x := sv s a
    let y := opB s o
    let p := fieldOf s f
    let m := if p.2 ≤ 64 - p.1 then p.2 else 64 - p.1
    Gives (.min c d a o) s (setS s d (if x.toInt ≤ y.toInt then x else y)) ∧
    Gives (.max c d a o) s (setS s d (if x.toInt ≤ y.toInt then y else x)) ∧
    Gives (.minu c d a o) s (setS s d (if x.toNat ≤ y.toNat then x else y)) ∧
    Gives (.maxu c d a o) s (setS s d (if x.toNat ≤ y.toNat then y else x)) ∧
    (x = 0 → Gives (.clz c d a) s (setS s d 64) ∧ Gives (.ctz c d a) s (setS s d 64)) ∧
    (∀ j, 2 ^ j ≤ x.toNat → x.toNat < 2 ^ (j + 1) → Gives (.clz c d a) s (setS s d (word (63 - j)))) ∧
    (∀ j, x.toNat % 2 ^ j = 0 → x.toNat / 2 ^ j % 2 = 1 → Gives (.ctz c d a) s (setS s d (word j))) ∧
    Gives (.popc c d a) s (setS s d (word ((List.range 64).countP fun i => x.getLsbD i))) ∧
    Gives (.sext c d a n1) s (setS s d ((x.setWidth (n1.toNat + 1)).signExtend 64)) ∧
    Gives (.zext c d a n1) s (setS s d ((x.setWidth (n1.toNat + 1)).setWidth 64)) ∧
    Gives (.lea c d a b k disp) s (setS s d (x + (sv s b <<< k.toNat) + immW disp)) ∧
    Gives (.bfx c false d a f) s (setS s d ((x.extractLsb' p.1 m).setWidth 64)) ∧
    Gives (.bfx c true d a f) s (setS s d ((x.extractLsb' p.1 m).signExtend 64)) ∧
    Gives (.bfi c d a f) s (setS s d ((rdS (myRegs s) d &&& ~~~(((BitVec.allOnes m).setWidth 64) <<< p.1)) |||
      (((x.setWidth m).setWidth 64) <<< p.1)))

/-- 07 R160 to R163 and R176, R177, 04 R106, 10 R289: moves, selections, conditions and the reads of special values. -/
def Obligations.MovesAndConditions : Prop :=
  ∀ (c : Cond) (d : SReg) (q : QReg) (a : SSrc) (u v : QSrc) (o : OpB) (e : SelB) (l : LogOp) (r : FeReg) (k : BitVec 3)
    (i24 : BitVec 24) (i32 : BitVec 32) (i64 : BitVec 64) (s : State),
    let x := sv s a
    let y := opB s o
    let cmp (cc : CmpCond) (t : Bool) := Gives (.cmpq c cc q a o) s (setQ s q t)
    Gives (.nop c) s s ∧ Gives (.li c d (.i24 i24)) s (setS s d (i24.signExtend 64)) ∧
    Gives (.li c d (.i32 i32)) s (setS s d (i32.signExtend 64)) ∧ Gives (.li c d (.i64 i64)) s (setS s d i64) ∧
    Gives (.mov c d a) s (setS s d x) ∧ Gives (.sel c d u a e) s (setS s d (if qv s u then x else selB s e)) ∧
    cmp .eq (decide (x = y)) ∧ cmp .ne (decide (x ≠ y)) ∧ cmp .lt (decide (x.toInt < y.toInt)) ∧
    cmp .ge (decide (y.toInt ≤ x.toInt)) ∧ cmp .ltu (decide (x.toNat < y.toNat)) ∧
    cmp .geu (decide (y.toNat ≤ x.toNat)) ∧ cmp .tst (decide (x &&& y ≠ 0)) ∧ cmp .ntst (decide (x &&& y = 0)) ∧
    Gives (.qop c q u (.bin l v)) s (setQ s q (match l with
      | .and => qv s u && qv s v
      | .or => qv s u || qv s v
      | .xor => qv s u ^^ qv s v
      | .andn => qv s u && !qv s v)) ∧
    Gives (.qop c q u .not) s (setQ s q (!qv s u)) ∧ Gives (.qop c q u .mov) s (setQ s q (qv s u)) ∧
    Gives (.empty c d r) s (setS s d (if feOf (myRegs s) r then 1 else 0)) ∧
    (∀ (n : BitVec 8) w, rdspec s n.toNat = some w → Gives (.rdspec c d n) s (setS s d (word w))) ∧
    (∀ n, n ≤ 12 → (rdspec s n).isSome = true) ∧ rdspec s 0 = some (myId s) ∧ rdspec s 1 = some (myN s) ∧
    rdspec s 2 = some (me s).tx ∧ rdspec s 3 = some (me s).ty ∧ rdspec s 7 = some (me s).gang ∧
    rdspec s 9 = some (me s).prio.toNat ∧ rdspec s 10 = some (me s).eprio ∧ rdspec s 11 = some (me s).kernel.toNat ∧
    Gives (.wdget c d k) s (setS s d (wdValue (myRegs s) k.toNat)) ∧ Gives (.rdtime c d) s (setS s d s.stc)

/-! Vector instructions (08) -/

/-- 08 R190 to R193 and 03 R67, R77 to R79: the floating-point vector instructions, element by element; each result is
computed exactly and rounded once, and VABS, VNEG and VCLASS raise no flag. VRCP, VRSQ, VRSQE, VSQRT, VDIV, VEXP2 and
VLOG2 are named by the model's functions of one element, whose rounding of VEXP2 and VLOG2 rests on log 9 (DEDUCED,
PRESUMED). -/
def Obligations.VectorFloat : Prop :=
  ∀ (p : Pred) (t : FpT) (d : VReg) (a : VSrc) (b : VOpB) (e : VSrc) (q : SSrc) (s : State),
    let f := fpFmt t
    let gives (i : Instr) (g : Nat → Nat → Nat → Bits) :=
      VectorGives i s p d fun k => laneBits f.width fun j =>
        g (elV s a f.width k j) (opV s b f.width k j) (elV s e f.width k j)
    let one (i : Instr) (g : Nat → Nat → Bits) :=
      VectorGives i s p d fun k => laneBits 32 fun j => g (elV s a 32 k j) (opV s b 32 k j)
    let x (v : Nat) := f.decode v
    gives (.vadd p t d a b) (fun u v _ => rne f (fAdd (x u) (x v))) ∧
    gives (.vsub p t d a b) (fun u v _ => rne f (fAdd (x u) (x v).negate)) ∧
    gives (.vmul p t d a b) (fun u v _ => rne f (fMul (x u) (x v))) ∧
    gives (.vfma p t d a b e) (fun u v w => rne f (fFma (x u) (x v) (x w))) ∧
    gives (.vfms p t d a b e) (fun u v w => rne f (fFma (x u) (x v) (x w).negate)) ∧
    gives (.vfnma p t d a b e) (fun u v w => rne f (fFma (x u).negate (x v) (x w))) ∧
    gives (.vmin p t d a b) (fun u v _ => minMax f false u v) ∧ gives (.vmax p t d a b) (fun u v _ => minMax f true u v) ∧
    gives (.vabs p t d a) (fun u _ _ => (u % f.signBit, 0)) ∧
    gives (.vneg p t d a) (fun u _ _ => (if u < f.signBit then u + f.signBit else u - f.signBit, 0)) ∧
    gives (.vclass p t d a) (fun u _ _ => (classMask f u, 0)) ∧
    one (.vrcp p d a) (fun u _ => f32Rcp (fp32.decode u)) ∧ one (.vrsq p d a) (fun u _ => f32Rsq (fp32.decode u)) ∧
    one (.vsqrt p d a) (fun u _ => f32Sqrt (fp32.decode u)) ∧ one (.vexp2 p d a) (fun u _ => f32Exp2 (fp32.decode u)) ∧
    one (.vlog2 p d a) (fun u _ => f32Log2 (fp32.decode u)) ∧
    one (.vdiv p d a b) (fun u v => f32Div (fp32.decode u) (fp32.decode v)) ∧
    one (.vrsqe p d a q) (fun u _ => f32Rsqe (fp32.decode u) (fp32.decode ((sv s q).toNat % 2 ^ 32)))

/-- 08 R191 and R194: the integer vector instructions on elements of 32, 16 and 8 bits, signed or unsigned by type;
shift counts are taken modulo the width, VSAR is signed, VQADD clamps, and no flag is raised. -/
def Obligations.VectorInteger : Prop :=
  ∀ (p : Pred) (t : IntT) (d : VReg) (a : VSrc) (b : VIOpB) (s : State),
    let e := intEt t
    let w := etWidth e
    let gives (i : Instr) (g : Nat → Nat → Nat) :=
      VectorGives i s p d fun k => (laneOf w fun j => g (elV s a w k j) (opVI s b w k j), 0)
    gives (.viadd p t d a b) (fun x y => x + y) ∧ gives (.visub p t d a b) (fun x y => modW w ((x : Int) - (y : Int))) ∧
    gives (.vimul p t d a b) (fun x y => x * y) ∧
    gives (.vimulh p t d a b) (fun x y => modW w (etInt e x * etInt e y / (2 ^ w : Nat))) ∧
    gives (.vand p t d a b) (fun x y => x &&& y) ∧ gives (.vor p t d a b) (fun x y => x ||| y) ∧
    gives (.vxor p t d a b) (fun x y => x ^^^ y) ∧ gives (.vshl p t d a b) (fun x y => x * 2 ^ (y % w)) ∧
    gives (.vshr p t d a b) (fun x y => x / 2 ^ (y % w)) ∧
    gives (.vsar p t d a b) (fun x y => modW w (sgn w x / (2 ^ (y % w) : Nat))) ∧
    gives (.vimin p t d a b) (fun x y => if etInt e x ≤ etInt e y then x else y) ∧
    gives (.vimax p t d a b) (fun x y => if etInt e y ≤ etInt e x then x else y) ∧
    gives (.vqadd p t d a b) (fun x y => modW w (max (etLo e) (min (etInt e x + etInt e y) (etHi e))))

/-- 08 R196, R198 to R200 and R202: selection, conversion, permutation and dot products write whole lanes; an operand
that names a sub-element outside the lane is ILLEGAL, not part of this statement. -/
def Obligations.VectorMoves : Prop :=
  ∀ (p : Pred) (d : VReg) (a b : VSrc) (o : VOpB) (q : SSrc) (n : Sel6) (cp : PReg) (td ts : ElemT) (rm : RMode)
    (ns i4 : Bool) (sel : BitVec 2) (sl : BitVec 3) (sz : BcSize) (dt : DotT) (s : State),
    let old := rdV (myRegs s) d
    let x := (sv s q).toNat
    let v32 := x % 2 ^ 32
    let wq := if i4 then 4 else 8
    VectorGives (.vsel p d cp a o) s p d (fun k =>
      (BitVec.ofNat 32 (if (rdP (myRegs s) cp).getLsbD k then elV s a 32 k 0 else opV s o 32 k 0), 0)) ∧
    (badCvt td ts ns sel.toNat = false → VectorGives (.vcvt p td ts rm ns sel d a) s p d fun k =>
      cvtLane td ts rm ns sel.toNat (lane (vv s a) k) (lane old k)) ∧
    ((i4 = true ∨ sl.toNat ≤ 3) →
      VectorGives (.vqnt p i4 rm sl d a q) s p d (fun k =>
        let r := quantEncode i4 rm (fp32.decode (elV s a 32 k 0)) v32
        (laneSet (lane old k) wq sl.toNat r.1, r.2)) ∧
      VectorGives (.vdqnt p i4 sl d a q) s p d fun k =>
        let r := quantDecode i4 (laneElem (lane (vv s a) k) wq sl.toNat) v32
        (BitVec.ofNat 32 r.1, r.2)) ∧
    VectorGives (.vbcast p sz d q) s p d (fun _ => (laneOf (bcWidth sz) fun _ => x, 0)) ∧
    VectorGives (.vins p d q n) s p d (fun k => (if k = sel6 s n then (sv s q).setWidth 32 else lane old k, 0)) ∧
    VectorGives (.vshuf p d a b) s p d (fun k => (lane (vv s a) ((lane (vv s b) k).toNat % 64), 0)) ∧
    VectorGives (.vrot p d a n) s p d (fun k => (lane (vv s a) ((k + sel6 s n) % 64), 0)) ∧
    VectorGives (.viota p d q) s p d (fun k => (BitVec.ofNat 32 (x + k), 0)) ∧
    VectorGives (.vmov p d a) s p d (fun k => (lane (vv s a) k, 0)) ∧
    VectorGives (.vdot p dt d a b) s p d (fun k => dotLane dt (lane (vv s a) k) (lane (vv s b) k) (lane old k))

/-- 08 R195, R197, R200 and R201: compares and predicate operations write the active bits of a predicate, counts and
extractions a scalar register, and VRED and VSCAN combine the active lanes in the order of 03 R85. -/
def Obligations.VectorScalarResults : Prop :=
  ∀ (p : Pred) (t : CmpT) (cc : VCond) (d : PReg) (e : SReg) (w : VReg) (a : VSrc) (b : VOpB) (pa pb : PReg) (l : LogOp)
    (n : Sel6) (o : RedOp) (s : State),
    let m := lanes s p
    let pv (r : PReg) (k : Nat) := (rdP (myRegs s) r).getLsbD k
    let sets (i : Instr) (f : Nat → Bool) (g : FFlags) := issues i s = true → ∃ v : BitVec 64,
      exec i s = .next (advance (raise (setP s d v) g) i) ∧
        ∀ k, k < 64 → v.getLsbD k = if m.getLsbD k then f k else pv d k
    let act := m &&& rdP (myRegs s) pa
    (badCond t cc = false → sets (.vcmp p t cc d a b) (fun k => (cmpLane t cc (elV s a 32 k 0) (opV s b 32 k 0)).1)
      ((List.range 64).foldl (fun g k =>
        g ||| if m.getLsbD k then (cmpLane t cc (elV s a 32 k 0) (opV s b 32 k 0)).2 else 0) 0)) ∧
    sets (.plog p d pa (.bin l pb)) (fun k => logBit l (pv pa k) (pv pb k)) 0 ∧
    sets (.plog p d pa .not) (fun k => !pv pa k) 0 ∧ sets (.plog p d pa .mov) (fun k => pv pa k) 0 ∧
    Gives (.pcnt p e pa) s (setS s e (word ((List.range 64).countP fun k => act.getLsbD k))) ∧
    (act = 0 → Gives (.pfirst p e pa) s (setS s e 64)) ∧
    (∀ j, j < 64 → act.getLsbD j = true → (∀ k, k < j → act.getLsbD k = false) →
      Gives (.pfirst p e pa) s (setS s e (word j))) ∧
    Gives (.vextr p e a n) s (setS s e ((lane (vv s a) (sel6 s n)).setWidth 64)) ∧
    (let r := redTree o ((List.range 64).map fun k => if m.getLsbD k then elV s a 32 k 0 else redIdent o)
     Gives (.vred p o e a) s
      (raise (setS s e (if redSigned o then (BitVec.ofNat 32 r.1).signExtend 64 else word r.1)) r.2)) ∧
    (let r := scanFrom o m (vv s a) (List.range 64) (redIdent o) 0 []
     Gives (.vscan p o w a) s (raise (setV s w (mkV fun k => match r.1.find? fun x => x.1 == k with
      | some x => BitVec.ofNat 32 x.2
      | none => lane (rdV (myRegs s) w) k)) r.2))

/-! Scalar and vector memory (08 R203 to R213) -/

/-- 08 R204 and R205: LD and LDA of resolved bytes of this module are producers of the value, extended by .SX; of the
sync space they ask the home engine; of device space they give the register's value. LDA holds later accesses (05 R118).
Behind a producer that later accesses follow (08 R206), and where a load through window 7 finds operations of the trace
unit still before it (10 R271), a load is a producer that reads in its turn, its pages walked again then (log 38, DEDUCED).
One of bytes that a private store of its context is on its way to, or of a scratchpad of a stratum whose clock stands still (01
R26), waits. -/
def Obligations.ScalarLoads : Prop :=
  ∀ (c : Cond) (sz : Size) (scope : Scope) (sx x : Bool) (d : SReg) (a : SSrc) (disp : Imm) (s u : State) (els : List El)
    (off : Nat) (v : Word),
    let n := sizeN sz
    let q := issuer s
    let at' := [(0, addrOf s a disp)]
    let w := settleEls (touchEls u (partOf u q.core) els) els
    let r := elsValue w els
    let later := mustFollow (myRegs u) = true ∨ regionsShut u els none = true
    let reads (sx : Bool) := produceRead u (.s d) (.read { els := els.map fun e => (0, e), vec := false, bytes := n, sx }) els
      (laneWalks u q n at')
    let waits := ownInFlight u els = true ∨ elsStopped u q.core els = true
    (resolve s q .ld n sx x at' = (u, .ok [(0, .els els)]) → ¬waits →
      (¬later → Gives (.ld c sz sx x d a disp) s (produceVal w (.s d) (.s (extend sx n r.1)) r.2)) ∧
      (later → Gives (.ld c sz sx x d a disp) s (reads sx))) ∧
    (resolve s q .ld n sx x at' = (u, .ok [(0, .els els)]) → waits → Becomes (.ld c sz sx x d a disp) s (wait s)) ∧
    (resolve s q .ld n sx x at' = (u, .ok [(0, .sync off)]) →
      Gives (.ld c sz sx x d a disp) s (seProduce u d off (.load n sx) false)) ∧
    (resolve s q .ld n sx x at' = (u, .ok [(0, .device off)]) → devLoad u off n = .ok v →
      (mustFollow (myRegs u) = false → Gives (.ld c sz sx x d a disp) s (produceVal u (.s d) (.s v) 0)) ∧
      (mustFollow (myRegs u) = true → Gives (.ld c sz sx x d a disp) s (produce u (.s d) (.device off none)))) ∧
    (resolve s q .lda n false false at' = (u, .ok [(0, .els els)]) → waits → Becomes (.lda c sz scope d a disp) s (wait s)) ∧
    (resolve s q .lda n false false at' = (u, .ok [(0, .els els)]) → ¬waits →
      (¬later → Gives (.lda c sz scope d a disp) s
        (acquireHold (produceVal w (.s d) (.s (word r.1)) r.2) s.serial)) ∧
      (later → Gives (.lda c sz scope d a disp) s (acquireHold (reads false) s.serial))) ∧
    (resolve s q .lda n false false at' = (u, .ok [(0, .sync off)]) →
      Gives (.lda c sz scope d a disp) s (acquireHold (seProduce u d off (.load n false) false) s.serial))

/-- 08 R204 and R205: ST and STL of resolved bytes perform or post the value's bytes, STL once every earlier access of
its context is performed; to the sync space they go to the home engine, to device space to the register. Behind a
producer that later accesses follow (08 R206), a store waits for its turn, its pages walked again then, and later
instructions issue (log 38, DEDUCED). Their frame: every byte outside the stored elements' is as before, whatever the store does with them, or the
store waits without an effect; and of the context nothing changes but the program counter, FSTAT, the list of its
producers, in which a store that follows one waits, and its forwarding table of private stores. -/
def Obligations.ScalarStores : Prop :=
  (∀ (c : Cond) (sz : Size) (scope : Scope) (x : Bool) (a b : SSrc) (disp : Imm) (s u w : State) (els : List El) (off : Nat),
     let n := sizeN sz
     let q := issuer s
     let addr := addrOf s a disp
     let v := (sv s b).toNat % 2 ^ (8 * n)
     let r := elsStore u els v
     let kind := if scope = .system then 4 else 1
     (resolve s q .st n false x [(0, addr)] = (u, .ok [(0, .els els)]) → mustFollow (myRegs u) = false →
       storeWaits u addr (els.flatMap elPlaces) = false →
       Gives (.st c sz x a disp b) s (raise (putStore u 1 addr (lastWrites r.1)) r.2)) ∧
     (resolve s q .st n false x [(0, addr)] = (u, .ok [(0, .els els)]) → mustFollow (myRegs u) = true →
       Gives (.st c sz x a disp b) s (produceAt u (.s 0) (.put 1 addr els v false) (laneWalks u q n [(0, addr)]))) ∧
     (resolve s q .st n false x [(0, addr)] = (u, .ok [(0, .els els)]) → mustFollow (myRegs u) = false →
       storeWaits u addr (els.flatMap elPlaces) = true → Becomes (.st c sz x a disp b) s (wait s)) ∧
     (resolve s q .st n false x [(0, addr)] = (u, .ok [(0, .sync off)]) →
       Gives (.st c sz x a disp b) s (seSend u off (.store n (word v)) false)) ∧
     (resolve s q .st n false x [(0, addr)] = (u, .ok [(0, .device off)]) → devStore u (whoMe u) off n (word v) = .ok w →
       (mustFollow (myRegs u) = false → Gives (.st c sz x a disp b) s w) ∧
       (mustFollow (myRegs u) = true → Gives (.st c sz x a disp b) s (takeTurn u (.device off (some (word v)))))) ∧
     (resolve s q .stl n false false [(0, addr)] = (u, .ok [(0, .els els)]) → mustFollow (myRegs u) = false →
       (unreleasedBut u (if kind = 4 then farModule els else none) = false →
        storeWaits u addr (els.flatMap elPlaces) = false →
        Gives (.stl c sz scope a disp b) s (raise (putStore u kind addr (lastWrites r.1)) r.2)) ∧
       (unreleasedBut u (if kind = 4 then farModule els else none) = true → Becomes (.stl c sz scope a disp b) s (wait s))) ∧
     (resolve s q .stl n false false [(0, addr)] = (u, .ok [(0, .els els)]) → mustFollow (myRegs u) = true →
       Gives (.stl c sz scope a disp b) s (produceAt u (.s 0) (.put kind addr els v true) (laneWalks u q n [(0, addr)]))) ∧
     (resolve s q .stl n false false [(0, addr)] = (u, .ok [(0, .sync off)]) →
       (mustFollow (myRegs u) = true ∨ unreleased u = false →
        Gives (.stl c sz scope a disp b) s (seSend u off (.store n (word v)) true)) ∧
       (mustFollow (myRegs u) = false → unreleased u = true → Becomes (.stl c sz scope a disp b) s (wait s)))) ∧
  (∀ (c : Cond) (sz : Size) (scope : Scope) (x : Bool) (a b : SSrc) (disp : Imm) (s u t : State) (els : List El),
     let addr := addrOf s a disp
     let frame := (SameMemoryBut (els.flatMap storedPlaces) u t ∨ t = wait s) ∧ me t = { me s with
       fwd := (me t).fwd, regs := { myRegs s with pc := (myRegs t).pc, fstat := (myRegs t).fstat, pend := (myRegs t).pend } }
     (resolve s (issuer s) .st (sizeN sz) false x [(0, addr)] = (u, .ok [(0, .els els)]) →
       issues (.st c sz x a disp b) s = true → exec (.st c sz x a disp b) s = .next t → frame) ∧
     (resolve s (issuer s) .stl (sizeN sz) false false [(0, addr)] = (u, .ok [(0, .els els)]) →
       issues (.stl c sz scope a disp b) s = true → exec (.stl c sz scope a disp b) s = .next t → frame))

/-- 04 R93, R102 and 08 R204: LD and ST in window 0 of the local scratchpad, in range and at any alignment, with no
producer that later accesses follow (08 R206): the load's value is that of the bytes at the offset, and after the store
those bytes are the value's, every other byte is as before, and the FE bits of the words are unchanged (04 R110). -/
def Obligations.LocalScratchpad : Prop :=
  ∀ (c : Cond) (sz : Size) (sx : Bool) (d : SReg) (a b : SSrc) (disp : Imm) (s : State) (o : Nat),
    let n := sizeN sz
    let k := myId s
    let ps := poolPlaces k o n
    apOf (addrOf s a disp) = .loc 0 o → o + n ≤ coreSp s k → mustFollow (myRegs s) = false →
    (ownInFlight s [.raw ps] = false →
      Gives (.ld c sz sx false d a disp) s (produce s (.s d) (.val (.s (extend sx n (readPlaces s ps))) 0))) ∧
    (storeWaits s (addrOf s a disp) ps = false → issues (.st c sz false a disp b) s = true →
      ∃ t, exec (.st c sz false a disp b) s = .next t ∧ SameMemoryBut ps s t ∧
        (∀ i, i < n → cget (getCore t k).pool (o + i) = BitVec.ofNat 8 ((sv s b).toNat / 2 ^ (8 * i))) ∧
        ∀ m w, wordFull t m w = wordFull s m w)

/-- 08 R206 to R208: LDSY waits as a producer for its words (through window 7 it takes its stamp at issue, 10 R271), FECLR empties every word that its range touches, and PREF
of an address changes no register. Behind a producer that later accesses follow FECLR waits for its turn (log 38,
DEDUCED). -/
def Obligations.SynchronisingLoads : Prop :=
  ∀ (c : Cond) (p : Pred) (sz : Size) (sx x i : Bool) (d : SReg) (v : VReg) (a b : SSrc) (disp : Imm) (s u : State)
    (els : List El) (l : List (Nat × Acc)) (o : Nat),
    let n := sizeN sz
    let addr := addrOf s a disp
    let len := (sv s b).toNat
    (resolve s (issuer s) .ldsy n sx x [(0, addr)] = (u, .ok [(0, .els els)]) →
      Gives (.ldsy c sz sx x d a disp) s (produceRead u (.s d) (.sync (elsWords els)
        { els := els.map fun e => (0, e), vec := false, bytes := n, sx }) els [])) ∧
    (resolve s (issuer s) .vldsy 4 false x (unitAddrs s p a disp) = (u, .ok l) →
      Gives (.vldsy p x v a disp) s (produceRead u (.v v) (.sync (elsWords ((laneEls l).map (·.2)))
        { els := laneEls l, vec := true, bytes := 4, sx := false }) ((laneEls l).map (·.2)) [])) ∧
    (∀ (r : Dest) (z : Prod) (es : List El), plastRegions es = [] → produceRead u r z es [] = produce u r z) ∧
    (apOf addr = .loc 0 o → (len = 0 ∨ (len ≤ 2 ^ 20 ∧ o + len ≤ coreSp s (myId s))) → mustFollow (myRegs s) = false →
      issues (.feclr c a disp b) s = true →
      ∃ t, exec (.feclr c a disp b) s = .next (advance t (.feclr c a disp b)) ∧
        ∀ w, wordFull t (myId s) w =
          (wordFull s (myId s) w && !decide (len ≠ 0 ∧ o / 8 ≤ w ∧ w ≤ (o + len - 1) / 8))) ∧
    (apOf addr = .loc 0 o → len ≠ 0 → len ≤ 2 ^ 20 → o + len ≤ coreSp s (myId s) → mustFollow (myRegs s) = true →
      Gives (.feclr c a disp b) s (takeTurn s (.clear (rangeWords o len)))) ∧
    (issues (.pref c i a disp) s = true →
      ∃ t, exec (.pref c i a disp) s = .next (advance t (.pref c i a disp)) ∧ me t = me s)

/-- 08 R209 and R210: the vector loads fill the active lanes from their resolved elements, the vector stores write the
bytes of the active lanes in ascending order, those through the remote aperture posted, and no other byte. Behind a
producer that later accesses follow (08 R206) both wait for their turn, their pages walked again then, and so does a load
through window 7 that finds operations of the trace unit still before it (10 R271) (log 38, DEDUCED). In window 0 of the local
scratchpad: lane k reads the four bytes at its offset, and a stored byte is that of the highest active lane that covers
it. -/
def Obligations.VectorMemory : Prop :=
  ∀ (p : Pred) (x : Bool) (k : BitVec 2) (d : VReg) (a e : SSrc) (b g : VSrc) (disp : Imm) (dsp : Imm17) (s u : State)
    (l : List (Nat × Acc)),
    let q := issuer s
    let els := laneEls l
    let es := els.map (·.2)
    let w := settleEls (touchEls u (partOf u q.core) es) es
    let v := readLanes w els
    let follows := mustFollow (myRegs u) = true
    let later := follows ∨ regionsShut u es none = true
    let waits := ownInFlight u es = true ∨ elsStopped u q.core es = true
    let k0 := myId s
    let local0 (as : List (Nat × Nat)) := x = false ∧ mustFollow (myRegs s) = false ∧
      ∀ y ∈ as, ∃ o, apOf y.2 = .loc 0 o ∧ o % 4 = 0 ∧ o + 4 ≤ coreSp s k0
    let loads (i : Instr) (as : List (Nat × Nat)) :=
      (resolve s q .vld 4 false x as = (u, .ok l) → ¬waits →
        (¬later → Gives i s (produceVal w (.v d) (.v v.1.1 v.1.2) v.2)) ∧
        (later → Gives i s (produceRead u (.v d) (.read { els, vec := true, bytes := 4, sx := false }) es
          (laneWalks u q 4 as)))) ∧
      (resolve s q .vld 4 false x as = (u, .ok l) → waits → Becomes i s (wait s)) ∧
      (local0 as → (∀ y ∈ as, ∀ o, apOf y.2 = .loc 0 o → ownInFlight s [.raw (poolPlaces k0 o 4)] = false) →
        ∃ r : VWord, Gives i s (produce s (.v d) (.val (.v (lanes s p) r) 0)) ∧
          ∀ y ∈ as, ∀ o, apOf y.2 = .loc 0 o → lane r y.1 = BitVec.ofNat 32 (readPlaces s (poolPlaces k0 o 4)))
    let stores (i : Instr) (as : List (Nat × Nat)) :=
      let free (s : State) (n : Nat) (ps : List Place) := storeWaits s n ps = false
      (resolve s q .vst 4 false x as = (u, .ok l) →
        (follows → Gives i s (produceAt u (.s 0) (.scatter as els (vv u b)) (laneWalks u (issuer u) 4 as))) ∧
        (¬follows → (∀ y ∈ as, free u y.2 ((els.filter fun z => z.1 == y.1).flatMap fun z => elPlaces z.2)) →
          (let r := putLanes u as els (vv u b)
           Gives i s (raise r.1 r.2)) ∧
          ((∀ y ∈ as, (apOf y.2).number ≠ 1) →
            let ws := writeLanes u els (vv u b) [] 0
            Gives i s (raise (landStore u 1 (lastWrites (ws.1.flatMap (·.2)))) ws.2)) ∧
          (issues i s = true → ∃ t, exec i s = .next t ∧ SameMemoryBut (els.flatMap fun z => storedPlaces z.2) u t))) ∧
      (local0 as → (∀ y ∈ as, ∀ o, apOf y.2 = .loc 0 o → free s y.2 (poolPlaces k0 o 4)) → issues i s = true →
        ∃ t, exec i s = .next t ∧
          (∀ y ∈ as, ∀ o j, apOf y.2 = .loc 0 o → j < 4 →
            (∀ z ∈ as, ∀ o', apOf z.2 = .loc 0 o' → z.1 ≤ y.1 ∨ o + j < o' ∨ o' + 4 ≤ o + j) →
            cget (getCore t k0).pool (o + j) = BitVec.ofNat 8 ((lane (vv s b) y.1).toNat / 2 ^ (8 * j))) ∧
          SameMemoryBut (as.flatMap fun y => match apOf y.2 with
            | .loc 0 o => poolPlaces k0 o 4
            | _ => []) s t)
    loads (.vld p x d a disp) (unitAddrs s p a disp) ∧ loads (.vlds p x d a dsp e) (strideAddrs s p a dsp e) ∧
    loads (.vgth p k x d a dsp g) (gatherAddrs s p k a dsp g) ∧ stores (.vst p x a disp b) (unitAddrs s p a disp) ∧
    stores (.vsts p x a dsp b e) (strideAddrs s p a dsp e) ∧ stores (.vsct p k x a dsp b g) (gatherAddrs s p k a dsp g)

/-- 08 R211 to R213: STRM writes a stream with its cursor at 0, a pop of a stream reads index words and elements and
moves the cursor by 64 or to N, a pop of a FIFO takes its oldest entry, and a push appends one of up to eight. That
index words are read through window 0 whatever window IDX names is the model's reading (log 26, DEDUCED); that STRM takes
any P field, and that it governs nothing, is the model's choice (log 40, DESIGN CHOICE). -/
def Obligations.StreamsAndFifos : Prop :=
  ∀ (p : Pred) (x : XReg) (f : FReg) (d : VReg) (a b e : SSrc) (v : VSrc) (s u w : State) (l l' : List (Nat × Acc))
    (h : VWord) (r : List VWord),
    let str := rdX (myRegs s) x
    let ls := popLanes s p str
    let q := issuer s
    let v' := touchEls u (partOf u q.core) ((laneEls l).map (·.2))
    let idx := readLanes v' (laneEls l)
    let as := (popLanes v' p str).map fun i =>
      (i, wrapAddr str.base.toNat ((lane idx.1.2 i).toNat * 2 ^ str.k.toNat : Nat))
    let es := (laneEls l').map (·.2)
    let y := settleEls (touchEls w (partOf w q.core) es) es
    let val := readLanes y (laneEls l')
    let moved (s : State) := modRegs s fun g => wrX g x { str with cur := min (str.cur + 64) str.n.toNat }
    Gives (.strm p x a b e) s (modRegs s fun g => wrX g x
      { base := sv s a, idx := sv s b, n := (sv s e).setWidth 32, k := (sv s e).extractLsb' 32 2, cur := 0 }) ∧
    (resolve s q .vld 4 false false
        (ls.map fun i => (i, rawAddr (wrapAddr str.idx.toNat (4 * (str.cur + i) : Nat)))) = (u, .ok l) →
      ownInFlight u ((laneEls l).map (·.2)) = false → elsStopped u q.core ((laneEls l).map (·.2)) = false →
      mustFollow (myRegs u) = false → resolve v' q .vld 4 false false as = (w, .ok l') →
      ownInFlight w es = false → elsStopped w q.core es = false →
      (regionsShut w es none = false →
        Gives (.spopStream p d x) s (produceVal (moved y) (.v d) (.v val.1.1 val.1.2) val.2)) ∧
      (regionsShut w es none = true → Gives (.spopStream p d x) s
        (produceRead (moved w) (.v d) (.read { els := laneEls l', vec := true, bytes := 4, sx := false }) es
          (laneWalks w q 4 as)))) ∧
    (rdF (myRegs s) f = h :: r → Gives (.spopFifo p d f) s
      (produceVal (modRegs s fun g => fifoPop g f) (.v d) (.v (lanes s p) h) 0)) ∧
    (rdF (myRegs s) f = [] → Becomes (.spopFifo p d f) s (wait s)) ∧
    (fifoFull (myRegs s) f = false → Gives (.spush p f v) s (modRegs s fun g =>
      wrF g f (rdF g f ++ [mkV fun i => if (lanes s p).getLsbD i then lane (vv s v) i else 0])))

/-! Copies, atomics and fences (08 R214 to R222) -/

/-- 08 R214 to R217, R221 and R222: a copy that passes its checks enters the copy engine, of 16 copies, with its rows,
strides, flag and what it captures at issue; CPYW is a producer for the copies issued before it; a full engine makes a
copy wait, and a swizzle code of 2 or 3 is ILLEGAL (R215). FENCE holds the later accesses of its kinds until the earlier
ones are performed (set bits 0 to 3: rr, rw, wr, ww), beats among them once their layers have applied them, where a later
beat waits only for their transmission (05 R124), an empty set is ILLEGAL, and FENCEE holds later engine commands
(log 38, DEDUCED, on what FENCEE waits for). -/
def Obligations.CopiesEnter : Prop :=
  (∀ (c : Cond) (tag : BitVec 8) (dx sx : BitVec 2) (all : Bool) (a b e : SSrc) (ss ds len rows : BitVec 16)
     (scope : Scope) (f d : SReg) (v : BitVec 64) (s : State),
     let enters (i : Instr) (r : CopyReq) := (myCore s).copies.length < 16 → copyCheck s (issuer s) r = none →
       Gives i s (modMyCore { s with serial := s.serial + 1 } fun k => { k with copies := k.copies ++ [
         { id := s.serial, ctx := myN s, uid := (me s).uid, tag, gen := (me s).gen, priv := (me s).priv, stc := s.stc,
           dst := word r.dst, src := word r.src, dx := r.dx == 1, sx := r.sx == 1, rows := r.rows, len := r.len,
           ds := r.ds, ss := r.ss, wd5 := (myRegs s).wd5, wd6 := (myRegs s).wd6, wd7 := (myRegs s).wd7, flag := r.flag,
           next := 0, buf := [], flags := 0, status := none, flagId := none }] })
     let line (g : Option (Word × Word × Bool)) : CopyReq :=
       { dst := (sv s a).toNat, src := (sv s b).toNat, dx, sx, rows := 1, len := (sv s e).toNat, ds := 0, ss := 0, flag := g }
     let block : CopyReq := { line none with
       rows := rows.toNat, len := len.toNat, ds := 16 * ds.toNat, ss := 16 * ss.toNat }
     let cpy : Instr := .cpy c tag dx sx a b e
     let cpy2d : Instr := .cpy2d c tag dx sx a b ss ds len rows
     let cpyst : Instr := .cpyst c tag scope dx sx a b e f v
     enters cpy (line none) ∧ enters cpy2d block ∧
     enters cpyst (line (some (rdS (myRegs s) f, v, scope == .system))) ∧
     (∀ x ∈ [(cpy, line none), (cpy2d, block), (cpyst, line (some (rdS (myRegs s) f, v, scope == .system)))],
       ((2 ≤ dx.toNat ∨ 2 ≤ sx.toNat) → (myCore s).copies.length < 16 →
         Becomes x.1 s (raiseTrap s x.1 tILLEGAL (copySpans s x.2))) ∧
       (16 ≤ (myCore s).copies.length → Becomes x.1 s (wait s))) ∧
     Gives (.cpyw c all tag d) s (produce s (.s d) (.cpyw all tag s.serial))) ∧
  (∀ (c : Cond) (scope : Scope) (set : BitVec 4) (s : State),
     let far := scope = .stack ∨ scope = .system
     (set = 0 → Becomes (.fence c scope set) s (raiseTrap s (.fence c scope set) tILLEGAL [])) ∧
     (set ≠ 0 → (far → set.getLsbD 3 = false) → Gives (.fence c scope set) s (addHold s set 0 false)) ∧
     (far → set.getLsbD 3 = true → Gives (.fence c scope set) s
       (modMe (addHold s set 0 false) fun x => { x with beatsAfter := s.serial })) ∧
     Gives (.fencee c scope) s (modMe s fun x => { x with engineAfter := liveFencees s ++ [s.serial] })) ∧
  (∀ (s : State) (set : BitVec 4) (h : Hold) (c n uid : Nat) (beat : Bool),
     let sent := beatsBefore s c n uid h.upto = true
     let applied := beatsFlying s c n uid h.upto = true
     (me (addHold s set 0 false)).fences.getLast? = some { set, lo := 0, upto := s.serial, acquire := false } ∧
     (heldRead s c n uid h = true ↔ (h.set.getLsbD 0 = true ∧ readsIn s c n uid h.lo h.upto = true) ∨
       (h.set.getLsbD 2 = true ∧ (writesIn s c n uid h.lo h.upto = true ∨ sent ∨ applied))) ∧
     (heldWrite s c n uid beat h = true ↔ (h.set.getLsbD 1 = true ∧ readsIn s c n uid h.lo h.upto = true) ∨
       (h.set.getLsbD 3 = true ∧ (writesIn s c n uid h.lo h.upto = true ∨ sent ∨ (beat = false ∧ applied)))))

/-- 08 R219 and R220: an atomic of an aligned word of the sync space goes to its home engine, a release once every
earlier access is performed; AMO and AMOCAS are producers of the old value, AMOR is posted. Behind a producer that later
accesses follow (08 R206) it waits for its turn and later instructions issue (log 38, DEDUCED). Outside the sync space it
raises APERTURE, misaligned MISALIGNED. -/
def Obligations.Atomics : Prop :=
  ∀ (c : Cond) (dw aq rl : Bool) (scope : Scope) (op : AmoOp) (d : SReg) (a b e : SSrc) (s : State) (off : Nat),
    let n := if dw then 8 else 4
    let addr := (sv s a).toNat
    let low (x : SSrc) : Word := word ((sv s x).toNat % 2 ^ (8 * n))
    let ends (u : State) := if aq then acquireHold u s.serial else u
    let traps (t : Trap) := Becomes (.amo c dw scope op aq rl d a b) s (raiseTrap s (.amo c dw scope op aq rl d a b) t []) ∧
      Becomes (.amocas c dw scope aq rl d a b e) s (raiseTrap s (.amocas c dw scope aq rl d a b e) t []) ∧
      Becomes (.amor c dw scope op rl a b) s (raiseTrap s (.amor c dw scope op rl a b) t [])
    (apOf addr = .sync off → addr % n = 0 → (rl = true → mustFollow (myRegs s) = true ∨ unreleased s = false) →
      Gives (.amo c dw scope op aq rl d a b) s (ends (seProduce s d off (.amo n op (low b)) rl)) ∧
      Gives (.amocas c dw scope aq rl d a b e) s (ends (seProduce s d off (.cas n (low b) (low e)) rl)) ∧
      Gives (.amor c dw scope op rl a b) s (seSend s off (.amo n op (low b)) rl)) ∧
    (apOf addr = .sync off → addr % n = 0 → rl = true → mustFollow (myRegs s) = false → unreleased s = true →
      Becomes (.amo c dw scope op aq rl d a b) s (wait s) ∧ Becomes (.amocas c dw scope aq rl d a b e) s (wait s) ∧
      Becomes (.amor c dw scope op rl a b) s (wait s)) ∧
    ((apOf addr).number ≠ 5 → traps (tAPERTURE addr)) ∧
    (apOf addr = .sync off → apOf (addr + n - 1) = .sync (off + n - 1) → addr % n ≠ 0 → traps (tMISALIGNED addr))

/-- 08 R220 and 05 R133: what the home engine makes of a word for each atomic; FADD is a sum and FMAX a maximum of FP32,
rounded to nearest even. The answer is the old value, zero-extended, for FADD and FMAX with their flags in bits 37:32;
AMOCAS writes only where it is the expected one, and only the bytes of the request change. -/
def Obligations.AtomicResults : Prop :=
  (∀ (n old b : Nat), (n = 4 ∨ n = 8) → old < 2 ^ (8 * n) → b < 2 ^ (8 * n) →
     let v (op : AmoOp) := (amoNew op n old b).1
     v .add = (old + b) % 2 ^ (8 * n) ∧ v .and = old &&& b ∧ v .or = old ||| b ∧ v .xor = old ^^^ b ∧ v .swap = b ∧
     v .umin = min old b ∧ v .umax = max old b ∧
     sgn (8 * n) (v .smin) = min (sgn (8 * n) old) (sgn (8 * n) b) ∧
     sgn (8 * n) (v .smax) = max (sgn (8 * n) old) (sgn (8 * n) b)) ∧
  (∀ old b : Nat, amoNew .fadd 4 old b = rne fp32 (fAdd (fp32.decode old) (fp32.decode b)) ∧
     amoNew .fmax 4 old b = minMax fp32 true old b) ∧
  (∀ (s : State) (r : SeReq) (n : Nat) (op : AmoOp) (b e : Word), (n = 4 ∨ n = 8) →
     let old := syncPlaces s r.part r.off n
     let only (t : State) := (∀ p o, (p ≠ r.part ∨ o < r.off ∨ r.off + n ≤ o) →
       cget (getPart t p).sync o = cget (getPart s p).sync o) ∧ t.hbm = s.hbm ∧ t.cores = s.cores
     (r.op = .amo n op b → only (seDo s r).1 ∧
       syncPlaces (seDo s r).1 r.part r.off n = (amoNew op n old b.toNat).1 % 256 ^ n ∧
       (op ≠ .fadd → op ≠ .fmax → (seDo s r).2 = word old) ∧
       ((op = .fadd ∨ op = .fmax) → n = 4 → (seDo s r).2 = word (old + (amoNew op n old b.toNat).2.toNat * 2 ^ 32))) ∧
     (r.op = .cas n b e → only (seDo s r).1 ∧ (seDo s r).2 = word old ∧
       syncPlaces (seDo s r).1 r.part r.off n = if old = b.toNat then e.toNat % 256 ^ n else old))

/-! Tasks, events and barriers (07 R166 to R187) -/

/-- 07 R169 and R182, R185 to R187: YIELD makes its context not ready until the start of the core cycle k + 2 on, so for the k
+ 1 between, whatever the clock of its stratum: from then on more than k + 1 cycles have begun, before it no more, and while
that clock stands still the wait does too (which beats a cycle takes is log 11, DEDUCED). CHMASK returns the old mask, GRAB and RNGSET
go to the range unit of the stratum, FLOWSIG sends a decrement, a release, in its turn behind a producer that it must follow (08 R206), and is ILLEGAL where its
flow declares no such counter; that a handler whose job has left the list is such a case is the model's choice (log 40, DESIGN CHOICE). -/
def Obligations.TaskRequests : Prop :=
  ∀ (c : Cond) (k : BitVec 16) (d : SReg) (arg : ChmaskArg) (n : Sel6) (a b e : SSrc) (r ctr : BitVec 6) (s : State)
    (job flow cnt : Nat),
    let ch := chmaskArg s arg
    let old := (getChan (myCore s) ch.1).mask
    let cw := (sv s e).toNat
    let at1 (v : Nat) : BitVec 32 := if v = 0 then 1 else BitVec.ofNat 32 v
    let y := modMe s fun x => { x with yielding := true }
    Gives (.yield c k) s { y with timers := y.timers ++ [(if clockStopped y (myId s) then heldTime + word (k.toNat + 2)
      else waitEnd y (myId s) (k.toNat + 2), ⟨.yieldExpiry, { StepArg.none with i := myId s, j := myN s, k := (me s).uid }⟩)] } ∧
    (s.stc.toNat < 2 ^ 60 → ∀ n m, 1 ≤ n → n ≤ 2 ^ 17 →
      (2 * m < (waitEnd s (myId s) n).toNat ↔ (m + 1) * clockRate s (myId s) / 6 < cyclesBegun s (myId s) + n)) ∧
    Gives (.chmask c d arg) s
      (setS (modChan s (myId s) ch.1 fun h => { h with mask := ch.2 }) d (if old then 1 else 0)) ∧
    (d.toNat % 2 = 0 → 2 ≤ d.toNat → d.toNat ≤ 60 → Gives (.grab c d n) s
      (pushRange (produce s (.pair d) .arrives) (.grab (myId s) (myN s) s.serial (sel6 s n)))) ∧
    ((d.toNat % 2 = 1 ∨ d.toNat < 2 ∨ 60 < d.toNat) →
      Becomes (.grab c d n) s (raiseTrap s (.grab c d n) tILLEGAL [])) ∧
    Gives (.rngset c a b e r) s (pushRange s (.set r.toNat
      { start := sv s a, rem := sv s b, c := at1 (cw % 2 ^ 32), d := at1 (cw / 2 ^ 32) })) ∧
    (flowCtrs s (partOf s (myId s)) (me s) = some (job, flow, cnt) → ctr.toNat < cnt →
      (mustFollow (myRegs s) = false → unreleased s = false →
        Gives (.flowsig c ctr) s (modPart s (partOf s (myId s)) fun x => { x with decs := x.decs ++
          [{ src := myId s, stc := s.stc, job, flow, mask := BitVec.twoPow 64 ctr.toNat }] })) ∧
      (mustFollow (myRegs s) = true → Gives (.flowsig c ctr) s (takeTurn s (.flowsig job flow ctr.toNat))) ∧
      (mustFollow (myRegs s) = false → unreleased s = true → Becomes (.flowsig c ctr) s (wait s))) ∧
    ((flowCtrs s (partOf s (myId s)) (me s) = none ∨
      (flowCtrs s (partOf s (myId s)) (me s) = some (job, flow, cnt) ∧ cnt ≤ ctr.toNat)) →
      Becomes (.flowsig c ctr) s (raiseTrap s (.flowsig c ctr) tILLEGAL []))

/-- 07 R179 to R181: SEND and SENDP put their record on its way, a release, and complete once it is accepted or found
undeliverable; SENDP checks its payload descriptor and reads the payload at issue (log 27, DEDUCED; the record of a
SENDP to channel 63: log 40, DESIGN CHOICE). -/
def Obligations.Sends : Prop :=
  ∀ (c : Cond) (desc : SReg) (dst a b : SSrc) (chan : BitVec 6) (off : Option (BitVec 32)) (s : State) (w : Await),
    let p := (rdS (myRegs s) desc).toNat
    let o := p % 2 ^ 19
    let n := p / 2 ^ 32 % 2 ^ 14
    let i : Instr := .send c dst a b chan off
    let j : Instr := .sendp c desc dst a b chan
    let rec0 (words : Nat) (dl : BitVec 32) : Event :=
      { chan, dest := (sv s dst).setWidth 16, src := BitVec.ofNat 16 (myId s), stc := 0, arg0 := sv s a, arg1 := sv s b,
        pl := decide (words ≠ 0), und := false, llen := BitVec.ofNat 14 words, loff := 0, dloff := dl }
    let sends (i : Instr) (ev : Event) (pay : List Word) :=
      ((me s).await = none → unreleased s = false → Becomes i s (launchEvent
        (modMe { s with serial := s.serial + 1 } fun x => { x with await := some { id := s.serial, done := false } }) ev
        (partOf s (myId s)) pay (some (myId s, myN s)))) ∧
      ((me s).await = some w → w.done = true → Gives i s (modMe s fun x => { x with await := none })) ∧
      ((me s).await = some w → w.done = false → Becomes i s (wait s))
    sends i (rec0 0 (if chan = 63 then off.getD 0 else 0)) [] ∧
    (o % 8 = 0 → n ≤ 8192 → o + 8 * n ≤ coreSp s (myId s) →
      sends j (rec0 n 0) ((List.range n).map fun k => readWord s (myId s) (o + 8 * k))) ∧
    (o % 8 ≠ 0 → Becomes j s (raiseTrap s j (tMISALIGNED o) [])) ∧
    (o % 8 = 0 → (8192 < n ∨ coreSp s (myId s) < o + 8 * n) → Becomes j s (raiseTrap s j (tAPERTURE o) []))

/-- 07 R183 and R184: BARA counts its member's arrival, a release, once the phase before is complete, in its turn behind a
producer that it must follow (08 R206; log 38, DEDUCED); BARW goes on once every phase that the member arrived at is
complete, and waits till then; a tag not bound to the gang, and a task of no gang, is ILLEGAL. -/
def Obligations.Barriers : Prop :=
  ∀ (c : Cond) (tag : BitVec 3) (s : State) (g : Gang) (m : Member),
    let n := tag.toNat
    let p := partOf s (myId s)
    let follows := mustFollow (myRegs s) = true
    let open' := compOf g n (stratumOf m.core) < arrOf m n ∨ ∃ x ∈ (myRegs s).pend, x.prod = .bara n
    (barrierOf s n = some (g, m) → ¬open' → (¬follows → unreleased s = false → Gives (.bara c tag) s
      (signalPhase (modGang s p g.id fun h => modMember h m.core fun x => { x with arr := mset x.arr n (arrOf x n + 1) })
        p g.id n)) ∧
      (follows → Gives (.bara c tag) s (takeTurn s (.bara n))) ∧
      (¬follows → unreleased s = true → Becomes (.bara c tag) s (wait s))) ∧
    (barrierOf s n = some (g, m) → open' → Becomes (.bara c tag) s (wait s) ∧ Becomes (.barw c tag) s (wait s)) ∧
    (barrierOf s n = some (g, m) → ¬open' → Gives (.barw c tag) s s) ∧
    ((me s).member = false → barrierOf s n = none) ∧
    (barrierOf s n = none → Becomes (.bara c tag) s (raiseTrap s (.bara c tag) tILLEGAL []) ∧
      Becomes (.barw c tag) s (raiseTrap s (.barw c tag) tILLEGAL []))

/-- 07 R168: DONE resolves and releases its guard slots first, waits for its matrix and retrieval commands, and then ends
the task: its context is no longer resident and its FIFOs and streams are empty, and the accesses and engine commands that
still wait for their turn are kept for the task that has ended, to complete as though it went on. That DONE is a release in
every member of a gang, and so waits for its earlier accesses, its stack stores among them, and for the releases before it,
and that commands on guards and the lease which a FENCEE holds count among the commands that it waits for, is log 38
(DEDUCED): Table 5.2 makes DONE a release of the last member. -/
def Obligations.TaskEnd : Prop :=
  ∀ (c : Cond) (s : State),
    let k := myCore s
    let n := myN s
    let busy := ((k.client == some n && leaseBusy s (myId s)) || retrievalOpen k n (me s).uid) = true
    let turns := guardTurns (myRegs s) = true
    let open' := (me s).member = true ∧ (unreleased s = true ∨ owesRelease (myRegs s) = true)
    (turns → Becomes (.done c) s (wait s)) ∧
    (¬turns → ownsGuards k n = true → Becomes (.done c) s (releaseGuards s (myId s) n)) ∧
    (¬turns → ownsGuards k n = false → (busy ∨ open') → Becomes (.done c) s (wait s)) ∧
    (¬turns → ownsGuards k n = false → ¬busy → ¬open' → issues (.done c) s = true →
      ∃ t, exec (.done c) s = .next t ∧ (me t).resident = false ∧ (me t).regs.pend = [] ∧
        (∀ f : FReg, rdF (myRegs t) f = []) ∧ (∀ x : XReg, rdX (myRegs t) x = Stream.idle) ∧
        (leftOver (me s) ≠ [] → (me s).fwd = [] →
          (mget (getCore t (myId s)).ended (8 * (me s).uid + n) Ctx.reset).regs.pend = leftOver (me s)))

/-! Matrix and retrieval (09) -/

/-- 09 R223 to R239: a command of the array that its core's client issues, with its guard owned, its tiles there and its
operands in range, enters the queue of eight with its base address and the captured descriptors, and a command at the
head of the queue reads its guard there (R239); from anyone else it is ILLEGAL, and with eight before it it waits. Behind
an MLEASE or a GCLR of its context that a FENCEE holds it keeps its order (08 R222; log 38, DEDUCED). MMAG pops its index
entries when it enters. -/
def Obligations.MatrixCommands : Prop :=
  ∀ (c : Cond) (za i4 west int clr x : Bool) (rm : RMode) (g : Option GReg) (d : AReg) (a : SSrc) (f : FReg)
    (nrow : BitVec 24) (m1 : BitVec 9) (n1 : BitVec 4) (w : BitVec 32) (form : MzForm) (load : Option (SSrc × BitVec 32)) (s : State),
    let rows := m1.toNat + 1
    let tiles := (rows + 63) / 64
    let base := sv s a
    let there (n : Nat) := d.toNat + n ≤ pwAcc (myCore s).pword
    let queue (s : State) (i : Instr) (b : Word) (idx : List (BitVec 32)) :=
      let m : MCmd :=
        { id := s.serial, ctx := myN s, uid := (me s).uid, instr := i, base := b, idx, wd5 := (myRegs s).wd5,
          wd6 := (myRegs s).wd6, wd7 := (myRegs s).wd7, go := false, started := false, row := 0, flags := 0 }
      if arrayTurn (myRegs s) then takeTurn s (.array m)
      else discardHeads (modMyCore { s with serial := s.serial + 1 } fun k => { k with mq := k.mq ++ [m] }) (myId s) 8
    let ok (i : Instr) := mayCommand s i = true ∧ arrayCommands s < 8
    let not (i : Instr) := isClient s = false → Becomes i s (raiseTrap s i tILLEGAL [])
    let mls : Instr := .mls c west i4 g a w
    let mma : Instr := .mma c za i4 g d a m1 w
    let mmag : Instr := .mmag c za i4 g d a f nrow m1 w
    let mrot : Instr := .mrot c za i4 g d load
    let mst : Instr := .mst c int clr x rm g a d m1 w
    let mz : Instr := .mzero c d n1 form
    (ok mls → mlsCheck west i4 w.toNat base.toNat s = none → Gives mls s (queue s mls base [])) ∧
    (ok mma → m1.toNat ≤ 255 → there tiles → rowsCheck i4 rows w.toNat base.toNat s = none →
      Gives mma s (queue s mma base [])) ∧
    (ok mmag → m1.toNat ≤ 255 → there tiles → rowsCheck i4 0 w.toNat base.toNat s = none →
      tiles ≤ (rdF (myRegs s) f).length →
      Gives mmag s (queue (modRegs s fun r => (List.range tiles).foldl (fun r _ => fifoPop r f) r) mmag base
        ((((rdF (myRegs s) f).take tiles).flatMap fun e => (List.range 64).map (lane e)).take rows))) ∧
    (ok mrot → mayRotate s = true → there 1 → (∀ l, load = some l →
        rowsCheck i4 64 l.2.toNat (sv s l.1).toNat s = none) →
      Gives mrot s (queue s mrot (load.elim 0 fun l => sv s l.1) [])) ∧
    (ok mst → m1.toNat ≤ 255 → there tiles → mstCheck x rows w.toNat base.toNat s = none →
      Gives mst s (queue s mst base [])) ∧
    (ok mz → there (n1.toNat + 1) → Gives mz s (queue s mz 0 [])) ∧
    (mayCommand s mz = true → there (n1.toNat + 1) → 8 ≤ arrayCommands s → Becomes mz s (wait s)) ∧
    (mayCommand s mz = true → ¬there (n1.toNat + 1) → Becomes mz s (raiseTrap s mz tILLEGAL [])) ∧
    not mls ∧ not mma ∧ not mmag ∧ not mrot ∧ not mst ∧ not mz

/-- 09 R223, R224, R236 to R238, R240 and R241: the lease, the guards, MLDT, whose swizzle is ILLEGAL in windows 5 to 7
(04 R109) and which waits for a scratchpad whose clock stands still (01 R26), MSTAT and MWAIT (MREL of a context that is not
the client: log 28, DEDUCED). A command on guards or the lease that a FENCEE before it holds (08 R222) takes its turn in the
list of producers, and the later ones of its context keep their order behind it; MWAIT, which a FENCEE does not hold, counts
the array commands that wait so (log 38, DEDUCED). -/
def Obligations.MatrixControl : Prop :=
  ∀ (c : Cond) (b8 ns za : Bool) (d : SReg) (a b : SSrc) (g : GReg) (v : GsetVal) (n : BitVec 4) (w : BitVec 32)
    (s u : State),
    let k := myCore s
    let mine := k.client = some (myN s)
    let own := (guardAt k g).owner = some (myN s)
    let held := commandTurn s = true
    (held ↔ fenceeHeld s (myId s) (myN s) (me s).uid s.serial = true ∨ guardTurns (myRegs s) = true) ∧
    (held → Gives (.mlease c) s (takeTurn s .mlease) ∧ Gives (.gclr c g) s (takeTurn s (.gclr g))) ∧
    (¬held → k.client = none → Gives (.mlease c) s (modMyCore s fun k => { k with client := some (myN s) })) ∧
    (¬held → mine → Gives (.mlease c) s s) ∧
    (¬held → ∀ o, k.client = some o → o ≠ myN s → Becomes (.mlease c) s (wait s)) ∧
    (isClient s = true → ¬held → leaseBusy s (myId s) = false → Gives (.mrel c) s (releaseLease s (myId s))) ∧
    (isClient s = true → ¬held → leaseBusy s (myId s) = true → Becomes (.mrel c) s (wait s)) ∧
    (isClient s = true → held → Gives (.mrel c) s (takeTurn s .mrel)) ∧
    (isClient s = false → Gives (.mrel c) s s) ∧
    ((∀ x ∈ (myRegs s).pend, x.prod ≠ .mrel ∧ x.prod ≠ .mlease) → (isClient s = true ↔ mine)) ∧
    ((∀ x ∈ (myRegs s).pend, x.prod ≠ .gclr g ∧ x.prod ≠ .gfree g) → (ownsGuard s g = true ↔ own)) ∧
    isClient (takeTurn s .mlease) = true ∧ isClient (takeTurn s .mrel) = false ∧
    ownsGuard (takeTurn s (.gclr g)) g = true ∧ ownsGuard (takeTurn s (.gfree g)) g = false ∧
    (¬held → (guardAt k g).owner = none ∨ own →
      Gives (.gclr c g) s (modMyCore s fun k => setGuard k g { owner := some (myN s), val := none })) ∧
    (¬held → ∀ o, (guardAt k g).owner = some o → o ≠ myN s → Becomes (.gclr c g) s (wait s)) ∧
    (ownsGuard s g = true → ¬held → Gives (.gset c g v) s (discardHeads (modMyCore s fun k =>
        setGuard k g { guardAt (myCore s) g with val := some (gsetValue s v) }) (myId s) 8) ∧
      Gives (.gclrR c g) s (discardHeads (modMyCore s fun k => releaseGuard k g) (myId s) 8)) ∧
    (ownsGuard s g = true → held → Gives (.gset c g v) s (takeTurn s (.gset g (gsetValue s v))) ∧
      Gives (.gclrR c g) s (takeTurn s (.gfree g))) ∧
    (ownsGuard s g = false → Becomes (.gset c g v) s (raiseTrap s (.gset c g v) tILLEGAL []) ∧
      Becomes (.gclrR c g) s (raiseTrap s (.gclrR c g) tILLEGAL [])) ∧
    (¬held → Gives (.mstat c false d) s (produceVal s (.s d) (.s (mstatWord s (myId s) (myN s))) 0) ∧
      Gives (.mstat c true d) s (produceVal (modMyCore s fun k => { k with disc := 0, zrow := 0, refused := 0, iovf := false })
        (.s d) (.s (mstatWord s (myId s) (myN s))) 0)) ∧
    (held → Gives (.mstat c za d) s (produce s (.s d) (.mstat za))) ∧
    (n.toNat ≤ 8 → arrayCommands s ≤ n.toNat → Gives (.mwait c n) s s) ∧
    (n.toNat ≤ 8 → n.toNat < arrayCommands s → Becomes (.mwait c n) s (wait s)) ∧
    ((∀ x ∈ (myRegs s).pend, isArray x.prod = false) → arrayCommands s = if mine then k.mq.length else 0) ∧
    (8 < n.toNat → Becomes (.mwait c n) s (raiseTrap s (.mwait c n) tILLEGAL [])) ∧
    (mldtCheck s (issuer s) ns (sv s a).toNat (sv s b).toNat w.toNat (myRegs s).mldtCur = none →
      (mldtStopped s (issuer s) (sv s b).toNat w.toNat (myRegs s).mldtCur = false →
        mldtUnits (issuer s) b8 ns (localOff (sv s a).toNat) (sv s b).toNat w.toNat 16 (myRegs s).mldtCur s = (u, none) →
        Gives (.mldt c b8 ns a b w) s u) ∧
      (mldtStopped s (issuer s) (sv s b).toNat w.toNat (myRegs s).mldtCur = true →
        Becomes (.mldt c b8 ns a b w) s (wait s))) ∧
    (ns = false → 5 ≤ (apOf (sv s a).toNat).win →
      Becomes (.mldt c b8 ns a b w) s (raiseTrap s (.mldt c b8 ns a b w) tILLEGAL []))

/-- 09 R244 to R258: a command that names a valid descriptor enters the queue of eight of the core's retrieval unit;
RPROBE and RSTAT are producers, RHASH of a FIFO pops its entry of ids and takes the rows in ascending order (R255);
without a descriptor each of them is ILLEGAL, as are an RSTAT selector of 6 or 7, an h above the tables of the descriptor and
an m above 512 without S, with a full queue each waits, and a pool that a queued command found exhausted raises RETRIEVAL_POOL,
cause 0x0E (R251), at the next command of any kind, first. RTSET loads the descriptor of a legal block, RTSET.INIT also clears
its tables and completes once its writes are performed (R247), both after the commands that name the descriptor, and RFENCE
waits in the queue until its acknowledgements (R257). That RTSET.INIT clears 4,096 items at a time and, of tables at a peer, waits
for the acknowledgements of its packets, is how the model does so (log 29, DEDUCED); where a block or table lies in a scratchpad
whose clock stands still it waits (01 R26). That a block that cannot be read ends the command with a record of kind 3 and keeps
the descriptor, and the order of the checks, are log 29 (DEDUCED). -/
def Obligations.RetrievalCommands : Prop :=
  (∀ (c : Cond) (f : FReg) (h h1 : BitVec 4) (a b : SSrc) (d : SReg) (m1 : BitVec 12) (sp : Option (BitVec 19)) (clr : Bool)
     (sel : BitVec 3) (scope : Scope) (s : State) (y : RDesc) (e : VWord) (r : List VWord),
     let n := h.toNat
     let ok := myDesc s h = some y ∧ (me s).poolFail = false ∧ (myCore s).rq.length < 8
     let x := (sv s a).toNat
     let fifo := s.serial
     (ok → Gives (.rhv c f h a) s (pushCmd s n (.rhv f.toNat (sv s a))) ∧
       Gives (.rins c h a) s (pushCmd s n (.hash x 1)) ∧ Gives (.rdel c h a) s (pushCmd s n (.del x)) ∧
       Gives (.rhash c h a b) s (pushCmd s n (.hash x (sv s b).toNat)) ∧
       Gives (.rdirty c f h) s (pushCmd s n (.dirty f.toNat)) ∧
       (rdF (myRegs s) f = e :: r → Gives (.rhashFifo c h f) s (pushCmd (modRegs s fun g => fifoPop g f) n
         (.hashList ((((List.range 64).map (lane e)).filter fun v => v.toNat != 2 ^ 32 - 1).foldr insertRow [])))) ∧
       (sel.toNat ≤ 5 → Gives (.rstat c clr d h sel) s
         (pushCmd (produce s (.s d) .arrives) n (.stat fifo sel.toNat clr))) ∧
       (probeCheck h1 m1 sp s y = none → Gives (.rprobe c d a h h1 m1 sp) s
         (pushCmd (produce s (.s d) .arrives) n
           (.probe fifo (sv s a) (h1.toNat + 1) (m1.toNat + 1) (sp.map (·.toNat)))))) ∧
     (∀ i ∈ [Instr.rhv c f h a, .rins c h a, .rdel c h a, .rhash c h a b, .rhashFifo c h f, .rdirty c f h,
         .rstat c clr d h sel, .rprobe c d a h h1 m1 sp],
       ((me s).poolFail = false → myDesc s h = none → Becomes i s (raiseTrap s i tILLEGAL [])) ∧
       ((me s).poolFail = true → Becomes i s
         (raiseTrap (modMe s fun x => { x with poolFail := false }) i (mkTrap 0x0E 0) [])) ∧
       ((me s).poolFail = false → myDesc s h = some y → (sel.toNat ≤ 5 ∧ probeCheck h1 m1 sp s y = none) →
         8 ≤ (myCore s).rq.length → Becomes i s (wait s))) ∧
     ((me s).poolFail = true → ∀ i ∈ [Instr.rtset c h a, .rtsetInit c h a, .rfence c scope], (me s).init = none →
       (me s).await = none → Becomes i s
         (raiseTrap (modMe s fun x => { x with poolFail := false }) i (mkTrap 0x0E 0) [])) ∧
     ((me s).poolFail = false → myDesc s h = some y →
       (5 < sel.toNat → Becomes (.rstat c clr d h sel) s (raiseTrap s (.rstat c clr d h sel) tILLEGAL [])) ∧
       (rdL y < h1.toNat + 1 ∨ (sp = none ∧ 512 < m1.toNat + 1) →
         Becomes (.rprobe c d a h h1 m1 sp) s (raiseTrap s (.rprobe c d a h h1 m1 sp) tILLEGAL [])) ∧
       (rdF (myRegs s) f = [] → Becomes (.rhashFifo c h f) s (wait s)))) ∧
  (∀ (r : BitVec 32) (l : List (BitVec 32)), l.Pairwise (fun x y => x.toNat ≤ y.toNat) →
     (insertRow r l).Pairwise (fun x y => x.toNat ≤ y.toNat) ∧ ∀ x, (insertRow r l).count x = (r :: l).count x) ∧
  (∀ (c : Cond) (h : BitVec 4) (a : SSrc) (scope : Scope) (s u w : State) (ps : List Place) (e : EFail) (t : Await),
     let x := me s
     let y : RDesc := { block := BitVec.ofNat 1024 (readPlaces u ps), core := myId u,
                        priv := (me u).priv, wd5 := (myRegs u).wd5, wd6 := (myRegs u).wd6, wd7 := (myRegs u).wd7,
                        drops := 0, evicts := 0, chains := 0, pfail := 0, rejects := 0 }
     let v := setDesc u (clusterOf (myId u)) h.toNat (some y)
     let k := clusterOf (myId u)
     let items := initItems y
     let lo := ((me v).await.map (·.id)).getD v.serial
     let ended (s : State) := modMe s fun x => { x with init := none, await := none }
     let away (s : State) (lo : Nat) := packetsIn s (myId u) (myN s) (me s).uid lo s.serial none = true
     let ready := x.poolFail = false ∧ x.init = none ∧ descBusy s (clusterOf (myId s)) h.toNat = false ∧ (sv s a).toNat % 8 = 0 ∧
       (apOf (sv s a).toNat).win = 0
     let clear (s : State) := { s with waited := false }
     let kept (s w : State) := { w with waited := s.waited }
     (ready → engineRead s (myId s) x.priv.toNat (sv s a).toNat 128 = (u, .ok ps) → placesStopped u (myId u) ps = false →
       (blockOk y = true → Gives (.rtset c h a) s v ∧
        (initWrites k y (items.take 4096) (clear v) = (w, none) → w.waited = true → Becomes (.rtsetInit c h a) s (wait s)) ∧
        (initWrites k y (items.take 4096) (clear v) = (w, none) → w.waited = false → myId v = myId u →
         (items.length ≤ 4096 → ¬away (kept u w) lo → Gives (.rtsetInit c h a) s (ended (kept u w))) ∧
         (items ≠ [] → (4096 < items.length ∨ away (kept u w) lo) → Becomes (.rtsetInit c h a) s (modMe (kept u w) fun x =>
           { x with init := some (h.toNat, 4096), await := some { id := lo, done := false } })))) ∧
       (blockOk y = false → Becomes (.rtset c h a) s (raiseTrap u (.rtset c h a) (mkTrap 0x0D (sv s a).toNat) []) ∧
        Becomes (.rtsetInit c h a) s (raiseTrap u (.rtsetInit c h a) (mkTrap 0x0D (sv s a).toNat) []))) ∧
     (ready → engineRead s (myId s) x.priv.toNat (sv s a).toNat 128 = (u, .ok ps) → placesStopped u (myId u) ps = true →
       Becomes (.rtset c h a) s (wait s) ∧ Becomes (.rtsetInit c h a) s (wait s)) ∧
     (x.poolFail = false → x.init = none → descBusy s (clusterOf (myId s)) h.toNat = false → (sv s a).toNat % 8 ≠ 0 →
       Becomes (.rtset c h a) s (raiseTrap s (.rtset c h a) (tMISALIGNED (sv s a).toNat) [])) ∧
     (x.poolFail = false → x.init = none → descBusy s (clusterOf (myId s)) h.toNat = true → Becomes (.rtset c h a) s (wait s)) ∧
     (∀ m i d, x.init = some (m, i) → mget (getCluster s (clusterOf (myId s))).descs m none = some d →
       let lo := (x.await.map (·.id)).getD s.serial
       let rest := (initItems d).drop i
       initWrites (clusterOf (myId s)) d (rest.take 4096) (clear s) = (w, none) →
       let away := packetsIn (kept s w) (myId s) (myN w) (me w).uid lo w.serial none = true
       (w.waited = true → Becomes (.rtsetInit c h a) s (wait s)) ∧
       (w.waited = false →
         (rest.length ≤ 4096 → ¬away → Gives (.rtsetInit c h a) s (ended (kept s w))) ∧
         (rest ≠ [] → (4096 < rest.length ∨ away) → Becomes (.rtsetInit c h a) s (modMe (kept s w) fun x =>
           { x with init := some (m, i + 4096), await := some { id := lo, done := false } })) ∧
         (rest = [] → away → Becomes (.rtsetInit c h a) s (wait s)))) ∧
     (ready → engineRead s (myId s) x.priv.toNat (sv s a).toNat 128 = (u, .error e) →
       let r := ctxRecord u (myId u) (myN u) 3 e.1 0 0 e.2 0
       Gives (.rtset c h a) s r ∧ Gives (.rtsetInit c h a) s r) ∧
     (x.await = none → x.poolFail = false → (myCore s).rq.length < 8 → Becomes (.rfence c scope) s (pushCmd
       (modMe { s with serial := s.serial + 1 } fun x => { x with await := some { id := s.serial, done := false } }) 0
       (.fence scope s.serial [] 0))) ∧
     (x.await = some t → t.done = true → Gives (.rfence c scope) s (modMe s fun x => { x with await := none })) ∧
     (x.await = some t → t.done = false → Becomes (.rfence c scope) s (wait s)))

/-! Plasticity, rewards, Swell and collectives (10) -/

/-- 10 R262 to R270: rate slots, regions and the commands of a defined region, which enter the list of the trace unit, of
sixteen commands, or wait for room there. TRATE raises PLASTIC_DESC for a λ out of range and for a slot that a region names; TREG
and TREG.INIT wait for what is pending on their region, then raise APERTURE for a block that does not lie in the scratchpad,
MISALIGNED for a misaligned one and PLASTIC_DESC for one that fails (that they wait before these checks: log 30, DEDUCED); rows or
columns that pass the region's raise RANGE, and a command of an undefined region, TREG.X among them, PLASTIC_DESC. -/
def Obligations.TraceCommands : Prop :=
  ∀ (c : Cond) (k n : BitVec 4) (a q : SSrc) (b e : VSrc) (d : VReg) (nr1 nc1 : BitVec 6) (nr : BitVec 16) (s : State)
    (r : Region) (lam o : Nat) (t : Await),
    let v := (sv s a).toNat
    let row := v % 2 ^ 16
    let col := v / 2 ^ 32 % 2 ^ 9
    let push (op : TOp) := modMyCore { s with serial := s.serial + 1 } fun x =>
      { x with tl := x.tl ++ [.cmd s.serial (myN s) (me s).uid op] }
    let room := cmdsPending (myCore s) < 16
    let block := readPool s (myId s) o 16
    let ok := regionBusy s n.toNat = false ∧ apOf v = .loc 0 o ∧ o + 16 ≤ coreSp s (myId s) ∧ v % 8 = 0 ∧
      regionOk s n.toNat block = true
    let tab := powerTable 24 lam
    (rateOf (v % 2 ^ 32) = some lam → ((myCore s).regions.any fun x => x.2.any fun y => y.slot == k.toNat) = false →
      Gives (.trate c k a) s (tflag (modMyCore s fun x =>
        { x with slots := mset x.slots k.toNat { lam := BitVec.ofNat 32 lam, tab := tab.1 } }) (myId s) tab.2)) ∧
    (rateOf (v % 2 ^ 32) = none ∨ ((myCore s).regions.any fun x => x.2.any fun y => y.slot == k.toNat) = true →
      Becomes (.trate c k a) s (raiseTrap s (.trate c k a) (tPLASTIC 0) [])) ∧
    (∀ i ∈ [Instr.treg c n a, .tregInit c n a],
      (regionBusy s n.toNat = true → Becomes i s (wait s)) ∧
      (regionBusy s n.toNat = false →
        ((∀ o, apOf v ≠ .loc 0 o) ∨ (apOf v = .loc 0 o ∧ coreSp s (myId s) < o + 16) →
          Becomes i s (raiseTrap s i (tAPERTURE v) [])) ∧
        (apOf v = .loc 0 o → o + 16 ≤ coreSp s (myId s) →
          (v % 8 ≠ 0 → Becomes i s (raiseTrap s i (tMISALIGNED v) [])) ∧
          (v % 8 = 0 → regionOk s n.toNat block = false → Becomes i s (raiseTrap s i (tPLASTIC v) []))))) ∧
    (ok → Gives (.tregInit c n a) s
        (defineRegion (clearRegion s (myId s) (blockRegion block)) n.toNat (some (blockRegion block))) ∧
      Gives (.treg c n a) s (defineRegion s n.toNat (some { blockRegion block with
        n := BitVec.ofNat 24 (lastStamp s (myId s) (blockRegion block)) }))) ∧
    (regionBusy s n.toNat = false → regionOf s (myId s) n.toNat = some r →
      Gives (.tregX c n) s (defineRegion s n.toNat none)) ∧
    (regionBusy s n.toNat = false → regionOf s (myId s) n.toNat = none →
      Becomes (.tregX c n) s (raiseTrap s (.tregX c n) (tPLASTIC 0) [])) ∧
    (regionBusy s n.toNat = true → Becomes (.tregX c n) s (wait s)) ∧
    (regionOf s (myId s) n.toNat = some r → room → Gives (.tstep c n) s (push (.step n.toNat)) ∧
      (row + (nr1.toNat + 1) ≤ r.rows → col + (nc1.toNat + 1) ≤ r.cols → Gives (.tadv c n a b e nr1 nc1) s
        (push (.adv n.toNat row col (firstLanes (vv s b) (nc1.toNat + 1)) (firstLanes (vv s e) (nr1.toNat + 1))))) ∧
      (row + 1 ≤ r.rows → col + (nc1.toNat + 1) ≤ r.cols → Gives (.tadvr c n a b q nc1) s
        (push (.adv n.toNat row col (firstLanes (vv s b) (nc1.toNat + 1)) [(sv s q).setWidth 32]))) ∧
      (row + (nr.toNat + 1) ≤ r.rows → Gives (.tclrE c n a nr) s (push (.clrE n.toNat row (nr.toNat + 1))) ∧
        Gives (.tclrD c n a nr) s (push (.clrD n.toNat row (nr.toNat + 1)))) ∧
      ((me s).await = none → row + 1 ≤ r.rows → col + (nc1.toNat + 1) ≤ r.cols → issues (.trd c d n a nc1) s = true →
        ∃ t, exec (.trd c d n a nc1) s = .next t ∧ (me t).await = some { id := s.serial, done := false } ∧
          (myCore t).tl = (myCore s).tl ++
            [.cmd (s.serial + 1) (myN s) (me s).uid (.read n.toNat row col (nc1.toNat + 1) d s.serial)])) ∧
    ((me s).await = some t → t.done = true → Gives (.trd c d n a nc1) s (modMe s fun x => { x with await := none })) ∧
    (regionOf s (myId s) n.toNat = some r →
      let outside (i : Instr) := Becomes i s (raiseTrap s i tRANGE [])
      (r.rows < row + (nr1.toNat + 1) ∨ r.cols < col + (nc1.toNat + 1) → outside (.tadv c n a b e nr1 nc1)) ∧
      (r.rows < row + 1 ∨ r.cols < col + (nc1.toNat + 1) → outside (.tadvr c n a b q nc1) ∧
        ((me s).await = none → outside (.trd c d n a nc1))) ∧
      (r.rows < row + (nr.toNat + 1) → outside (.tclrE c n a nr) ∧ outside (.tclrD c n a nr)) ∧
      (¬room → Becomes (.tstep c n) s (wait s) ∧
        (row + (nr1.toNat + 1) ≤ r.rows → col + (nc1.toNat + 1) ≤ r.cols → Becomes (.tadv c n a b e nr1 nc1) s (wait s)) ∧
        (row + 1 ≤ r.rows → col + (nc1.toNat + 1) ≤ r.cols → Becomes (.tadvr c n a b q nc1) s (wait s) ∧
          ((me s).await = none → Becomes (.trd c d n a nc1) s (wait s))) ∧
        (row + (nr.toNat + 1) ≤ r.rows → Becomes (.tclrE c n a nr) s (wait s) ∧ Becomes (.tclrD c n a nr) s (wait s)))) ∧
    (regionOf s (myId s) n.toNat = none → (me s).await = none → ∀ i ∈ [Instr.tstep c n, .tadv c n a b e nr1 nc1,
      .tadvr c n a b q nc1, .trd c d n a nc1, .tclrE c n a nr, .tclrD c n a nr],
        Becomes i s (raiseTrap s i (tPLASTIC 0) []))

/-- 10 R278 to R280: RWD and RWD.C queue a reward beat of their layer, RWDW waits until the sequence number is reached,
a value of 0 in all 64 bits passing at once, TRHZ is a producer of the selected value; an undefined region raises
PLASTIC, and while a FENCEE, an acquire or an operation that one of them holds stands before it, it reads later (the
region number for the selectors that name none, and what is settled first: log 30, DEDUCED). -/
def Obligations.Rewards : Prop :=
  ∀ (c : Cond) (a b : SSrc) (d : SReg) (sel : BitVec 3) (k : BitVec 4) (s : State) (v w : Word) (item : Nat),
    let seq : BitVec 32 := (sv s a).setWidth 32
    let ahead := (seq - acOf s (myId s)).toNat
    let u := settleUnit s (myId s) sel.toNat
    let passed := sv s a = 0 ∨ isGw (myId s) = true ∨ ahead = 0 ∨ 2 ^ 31 ≤ ahead
    (queued s (layerIn s (myId s)) (partOf s (myId s)) (fun i => b2n (isReward i)) < 64 →
      Gives (.rwd c a b) s (pushBeat s (.reward ((sv s a).setWidth 16) false ((sv s b).setWidth 32))) ∧
      Gives (.rwdC c a b) s (pushBeat s (.reward ((sv s a).setWidth 16) true ((sv s b).setWidth 32)))) ∧
    (passed → Gives (.rwdw c a) s s) ∧ (¬passed → Becomes (.rwdw c a) s (wait s)) ∧
    let held := heldNow s = true ∨ trhzShut s (myId s) (myN s) (me s).uid sel.toNat k.toNat s.serial = true
    (sel.toNat ≤ 5 → sel ≠ 2 → trhzValue s (myId s) sel.toNat k.toNat = some w → ¬held →
      trhzValue u (myId s) sel.toNat k.toNat = some v →
      Gives (.trhz c false d sel k) s (produceVal u (.s d) (.s v) 0)) ∧
    (sel.toNat ≤ 5 → sel ≠ 2 → trhzValue s (myId s) sel.toNat k.toNat = some w → held →
      Gives (.trhz c false d sel k) s (produce s (.s d) (.trhz sel.toNat k.toNat false))) ∧
    (sel ≠ 2 → trhzValue s (myId s) sel.toNat k.toNat = none →
      Becomes (.trhz c false d sel k) s (raiseTrap s (.trhz c false d sel k)
        (if 6 ≤ sel.toNat then tILLEGAL else tPLASTIC 0) [])) ∧
    (openReward s = some item → Gives (.trhz c false d 2 k) s (produce s (.s d) (.rwdSeq item))) ∧
    (openReward s = none → Gives (.trhz c false d 2 k) s (produceVal s (.s d) (.s ((me s).lastRwd.setWidth 64)) 0)) ∧
    (heldNow s = false → Gives (.trhz c true d 3 k) s (produceVal (modMyCore s fun x => { x with stale := 0, overrun := 0 })
      (.s d) (.s (word ((myCore s).stale.toNat + (myCore s).overrun.toNat * 65536))) 0)) ∧
    (heldNow s = true → Gives (.trhz c true d 3 k) s (produce s (.s d) (.trhz 3 k.toNat true)))

/-- 10 R286 to R290 and 04 R106: STS and STSB queue stack stores of their layer, SWAIT waits until 12 beats past its
time, SWAIT.OWN for its task's own beats, and WDSET writes a legal descriptor, 0 for a disabled one. -/
def Obligations.StackStores : Prop :=
  ∀ (c : Cond) (sz : Size) (a b : SSrc) (disp : Imm) (len1 : BitVec 7) (w : BitVec 3) (s : State) (m o : Nat),
    let addr := addrOf s a disp
    let n := sizeN sz
    let len := len1.toNat + 1
    let dst := (sv s a).toNat
    let src := (sv s b).toNat
    let q := queued s (layerIn s (myId s)) (partOf s (myId s)) recordsOf
    let v := (sv s a)
    let own := beatsOpen s (myId s) (myN s) (me s).uid
    (apOf addr = .mirror m → apOf (addr + n - 1) = .mirror (m + n - 1) → addr % n = 0 → q + 1 ≤ 1024 →
      Gives (.sts c sz a disp b) s (pushBeat s (.store [
        { off := m / 8 * 8, mask := BitVec.ofNat 8 ((2 ^ n - 1) * 2 ^ (m % 8)),
          data := word ((sv s b).toNat % 2 ^ (8 * n) * 2 ^ (8 * (m % 8))) }]))) ∧
    (apOf dst = .mirror m → apOf (dst + len - 1) = .mirror (m + len - 1) → apOf src = .loc 0 o →
      o + len ≤ coreSp s (myId s) → dst % 8 + len ≤ 128 → q + (m % 8 + len + 7) / 8 ≤ 1024 →
      Gives (.stsb c a b len1) s (pushBeat s (.block (myId s) o m len))) ∧
    (v.toNat + 12 ≤ s.stc.toNat → Gives (.swait c a) s s) ∧
    (s.stc.toNat < v.toNat + 12 → Becomes (.swait c a) s (wait s)) ∧
    (own = false → Gives (.swaitOwn c) s s) ∧ (own = true → Becomes (.swaitOwn c) s (wait s)) ∧
    (wdOk w.toNat v = true → Gives (.wdset c w a) s (modRegs s fun r => setWd r w.toNat (if v.getLsbD 63 then v else 0))) ∧
    (wdOk w.toNat v = false → Becomes (.wdset c w a) s (raiseTrap s (.wdset c w a) (mkTrap 0x0A 0) []))

/-- 10 R297 to R300: on a gateway core BQPOP takes the oldest ready block of a configured queue, or all ones once the
queue is closed, BQDONE closes it, BRED combines two slots into a third, completing once a slot of a peer is written there (05
R123), and BSEND sends a slot to a queue of a module; BQDONE and BSEND wait for a FENCEE before them (log 38, DEDUCED); a
type that is no floating-point one, and a queue of the own module that is not configured, is ILLEGAL. That a queue with
NB 0 is not configured, and where a slot may lie, is log 22 (DEDUCED); that BSEND reads its slot at issue is log 4
(DESIGN CHOICE). -/
def Obligations.Collectives : Prop :=
  ∀ (c : Cond) (d : SReg) (n : BitVec 4) (op : BredOp) (t : ElemT) (f : Fmt) (a b e : SSrc) (s u v w : State) (i : BitVec 32)
    (r : List (BitVec 32)) (xs ys : List Byte) (y : Await),
    let travels (s : State) (lo : Nat) := packetsIn s (myId s) (myN s) (me s).uid lo s.serial none
    let q := getBq s n.toNat
    let da := (rdS (myRegs s) d).toNat
    let xa := (sv s a).toNat
    let ya := (sv s b).toNat
    let x := issuer s
    let mine := ya % 2 ^ 16 = s.modid.toNat
    let far := (getBq s (ya / 2 ^ 16 % 16)).nb
    let out := combineSlots op f xs ys
    let flag := slotFlag xs ||| (if (slotElems f xs).any fun z => (f.decode z).nonfinite then 1 else 0)
    (q.nb ≠ 0 → q.ready = i :: r →
      Gives (.bqpop c d n) s (setS (modBq s n.toNat fun q => { q with ready := r }) d (i.setWidth 64))) ∧
    (q.nb ≠ 0 → q.ready = [] → q.isOpen = false → Gives (.bqpop c d n) s (setS s d (BitVec.allOnes 64))) ∧
    (q.nb ≠ 0 → q.ready = [] → q.isOpen = true → Becomes (.bqpop c d n) s (wait s)) ∧
    (q.nb ≠ 0 → heldNow s = false → Gives (.bqdone c n) s (modBq s n.toNat fun q => { q with isOpen := false })) ∧
    (q.nb ≠ 0 → heldNow s = true → Gives (.bqdone c n) s (produce s (.s 0) (.bqdone n.toNat))) ∧
    (q.nb = 0 → Becomes (.bqpop c d n) s (raiseTrap s (.bqpop c d n) tILLEGAL []) ∧
      Becomes (.bqdone c n) s (raiseTrap s (.bqdone c n) tILLEGAL [])) ∧
    (etFmt t = none → ((me s).await = none → Becomes (.bred c op t d a b) s
        (raiseTrap s (.bred c op t d a b) tILLEGAL (slotSpan s da))) ∧
      Becomes (.bsend c t a b e) s (raiseTrap s (.bsend c t a b e) tILLEGAL [])) ∧
    (etFmt t = some f → mine → far = 0 → Becomes (.bsend c t a b e) s (raiseTrap s (.bsend c t a b e) tILLEGAL [])) ∧
    ((me s).await = none → etFmt t = some f → slotCheck s x [xa, ya] [da] = (u, none) →
      readSlot u x.core x.priv xa = (v, some xs) → readSlot v x.core x.priv ya = (w, some ys) →
      let z := raise (writeSlot w x.core x.priv da out.1) out.2
      (travels z w.serial = false → Gives (.bred c op t d a b) s z) ∧
      (travels z w.serial = true → Becomes (.bred c op t d a b) s
        (modMe z fun x => { x with await := some { id := w.serial, done := false } }))) ∧
    ((me s).await = some y →
      (travels s y.id = false → Gives (.bred c op t d a b) s (modMe s fun x => { x with await := none })) ∧
      (travels s y.id = true → Becomes (.bred c op t d a b) s (wait s))) ∧
    (etFmt t = some f → (mine → far ≠ 0) → slotCheck s x [xa] [] = (u, none) →
      (heldNow u = false → pairFull (getPeer u (ya % 128)) = false → readSlot u (myId u) x.priv xa = (v, some xs) →
        Gives (.bsend c t a b e) s (sendBlock v (ya % 2 ^ 16) (ya / 2 ^ 16 % 16) ((sv s e).toNat % 2 ^ 32) flag (xs.take 256))) ∧
      (heldNow u = false → pairFull (getPeer u (ya % 128)) = true → Becomes (.bsend c t a b e) s (wait s)) ∧
      (heldNow u = true → Gives (.bsend c t a b e) s (produce u (.s 0)
        (.bsend t (sv s a) (sv s b) ((sv s e).toNat % 2 ^ 32) (BitVec.ofNat 2 x.priv)))))

/-! System instructions (16) -/

/-- 16 R343 and R344: a control register that the privilege may reach is read and written in one step, the old value
goes to sD; CSRS sets and CSRC clears the bits of a; an unlisted number is ILLEGAL, a denied access PRIVILEGE: at task
privilege any but the reads of FSTAT, PWORD and CTXID and the write of FSTAT, at system privilege a write of SATB or SYSCORE.
FSTAT waits for flags that are still on their way (03 R75). After a write of v a register reads as Table 16.2 says: bits that are
read-only keep their value. That CSRS of ELLOST, which a write of 1s clears, is the write of the value it makes is log 32
(DEDUCED), that CSRC is, is the model's choice (log 32, DESIGN CHOICE), and so is what a SATB count outside 1 to 256 becomes
(log 32, DESIGN CHOICE). -/
def Obligations.ControlRegisters : Prop :=
  (∀ (c : Cond) (d : SReg) (n : BitVec 12) (a : SSrc) (s : State) (r : Csr),
     let old := csrValue s r
     let x := sv s a
     let may (w : Bool) := csrOf n.toNat = some r ∧ csrDenied (me s).priv.toNat r w = false ∧
       (r = .fstat → flagsOpen (myRegs s) = false)
     (may false → Gives (.csrr c d n) s (setS s d old)) ∧
     (may true → Gives (.csrw c d n a) s (setS (csrWrite s r x) d old) ∧
       Gives (.csrs c d n a) s (setS (csrWrite s r (old ||| x)) d old) ∧
       Gives (.csrc c d n a) s (setS (csrWrite s r (old &&& ~~~x)) d old)) ∧
     (csrOf n.toNat = none → ∀ i ∈ [Instr.csrr c d n, .csrw c d n a, .csrs c d n a, .csrc c d n a],
       Becomes i s (raiseTrap s i tILLEGAL [])) ∧
     (csrOf n.toNat = some r → ((me s).priv = 0 ∧ r ≠ .fstat ∨ (me s).priv = 1 ∧ (r = .satb ∨ r = .syscore)) →
       ∀ i ∈ [Instr.csrw c d n a, .csrs c d n a, .csrc c d n a], Becomes i s (raiseTrap s i tPRIVILEGE [])) ∧
     (csrOf n.toNat = some r → (me s).priv = 0 → r ≠ .fstat → r ≠ .pword → r ≠ .ctxid →
       Becomes (.csrr c d n) s (raiseTrap s (.csrr c d n) tPRIVILEGE [])) ∧
     (csrOf n.toNat = some .fstat → flagsOpen (myRegs s) = true →
       ∀ i ∈ [Instr.csrr c d n, .csrw c d n a, .csrs c d n a, .csrc c d n a], Becomes i s (wait s))) ∧
  (∀ (s : State) (v : Word),
     let after (r : Csr) := csrValue (csrWrite s r v) r
     after .epc = v ∧ after .faddr = v ∧ after .scratch = v ∧ after .eltail = v ∧ after .cause = v &&& 0xFFFFFF ∧
     after .tvec = v &&& ~~~(31 : Word) ∧ after .ovp = v &&& ~~~(63 : Word) ∧ after .fstat = v &&& 0x3F ∧
     after .prio = v &&& 0xFF ∧ after .elnote = v &&& 0xFFFF ∧ after .owntag = v &&& 0xFFFF ∧
     after .status = (v &&& 0x10) ||| (if v &&& 0xC = 0xC then 4 else v &&& 0xC) ||| (me s).priv.setWidth 64 ∧
     after .pword = csrValue s .pword ∧ after .ctxid = csrValue s .ctxid ∧ after .otstc = csrValue s .otstc ∧
     after .elhead = csrValue s .elhead ∧ after .part = csrValue s .part ∧
     after .elbase = v &&& ~~~(4095 : Word) ∧ after .ellost = csrValue s .ellost &&& ~~~v ∧
     ((v = 0 ∨ ∃ i, 4 ≤ i ∧ i ≤ 16 ∧ v = word (2 ^ i)) → after .elsize = v) ∧
     (¬(v = 0 ∨ ∃ i, 4 ≤ i ∧ i ≤ 16 ∧ v = word (2 ^ i)) → after .elsize = csrValue s .elsize) ∧
     after .ptbase = v &&& 0x000FFFFFFFF00000 ∧ after .satb = v &&& 0x1FFFF ∧ after .syscore = v &&& 0xFFFF ∧
     csrValue (csrWrite s .owntag v) .otstc = s.stc ∧
     (let n := v.toNat % 128
      after .lrun = if 1 ≤ n ∧ n ≤ 64 then BitVec.ofNat 64 n else csrValue s .lrun))

/-- 16 R341: ERET restores the privilege, clears INTRAP and transfers to EPC; with PPRIV above PRIV it raises PRIVILEGE,
to a target that no instruction may start at MISALIGNED. Outside a context that a PREEMPT waits for. -/
def Obligations.ReturnFromTrap : Prop :=
  ∀ (c : Cond) (s : State),
    let x := me s
    let t := x.epc
    let legal := t.toNat % 4 = 0 ∧ t.toNat % 32 ≠ 28
    (x.ppriv.toNat ≤ x.priv.toNat → legal → x.freezing = false → Becomes (.eret c) s (modMe s fun x =>
      { x with priv := x.ppriv, intrap := false, stopping := false, regs := { x.regs with pc := t } })) ∧
    (x.priv.toNat < x.ppriv.toNat → Becomes (.eret c) s (raiseTrap s (.eret c) tPRIVILEGE [])) ∧
    (x.ppriv.toNat ≤ x.priv.toNat → ¬legal → Becomes (.eret c) s (raiseTrap s (.eret c) (tMISALIGNED t.toNat) []))

/-- 16 R348, R349 and R358 to R360: TLBI discards the translations or the cached blocks of the issuer's partition alone, once
no copy holds bytes for places it has translated, no write made through one is on its way to a peer or in the forwarding of
its context, and no run-ahead walks the tables for bytes of a peer (18 R383), and the blocks on their way to a cache (01 R38) go
to no cache; WFI waits for an event or a record. SATW outside the share raises PRIVILEGE, an OWNER of 17 to 30 and, below firmware,
another PART ILLEGAL; CHSET of no core raises APERTURE, of another partition's core PRIVILEGE, with bits 62:56 RESERVED_FIELD, of
channel 63 with an LSIZE ILLEGAL (the order of CHSET's checks: log 32, DESIGN CHOICE); one that makes the entry invalid or
changes GANG, LBASE or LSIZE returns the held events first, and with another ring it waits for the payloads still held. That the
gateway cores of every partition share the one
fetch agent of the base die, number 16, so that TLBI.KID marks its fetches of the kernel id whichever partition asked for them,
is the model's choice (log 40, DESIGN CHOICE). -/
def Obligations.SystemRequests : Prop :=
  ∀ (c : Cond) (a b e : SSrc) (chan : BitVec 6) (s : State) (w : Await),
    let p := partOf s (myId s)
    let va := (sv s a).toNat % 2 ^ 56
    let kid : BitVec 32 := (sv s a).setWidth 32
    let slot := (sv s a).toNat % 256
    let v := (sv s b).toNat
    let owner := v % 32
    let fw := (me s).priv = 2
    let t := (sv s a).toNat % 65536
    let due := frameAt (s.stc.toNat + 512)
    let waits (f : Await) (s : State) := modMe { s with serial := s.serial + 1 } fun x => { x with await := some f }
    let ask : Await := { id := s.serial, done := false }
    (unitsHold s p = false → Gives (.tlbiPage c a) s (dropTlb s fun e => e.part == p && e.vpn == va / 2 ^ e.size) ∧
      Gives (.tlbiAll c) s (dropTlb s fun e => e.part == p)) ∧
    (unitsHold s p = true → Becomes (.tlbiPage c a) s (wait s) ∧ Becomes (.tlbiAll c) s (wait s)) ∧
    Gives (.tlbiKid c a) s { s with
      cores := s.cores.map fun e => (e.1, if inPart s p e.1 then
        { e.2 with icache := e.2.icache.filter fun b => b.kid != kid } else e.2)
      strata := s.strata.map fun e => (e.1, if e.1 = 16 || ownsLayer s p e.1 then
        { e.2 with fetches := e.2.fetches.map fun f => { f with stale := f.stale || f.kid == kid } } else e.2) } ∧
    ((me s).await = none → Becomes (.wfi c) s
      (waits ask (modMyCore s fun k => { k with wfi := setBit k.wfi (myN s) false }))) ∧
    ((me s).await = some w → (myCore s).wfi.getLsbD (myN s) = true →
      Gives (.wfi c) s (modMe s fun x => { x with await := none })) ∧
    ((me s).await = some w → (myCore s).wfi.getLsbD (myN s) = false → Becomes (.wfi c) s (wait s)) ∧
    ((fw ∨ inShare (getPart s p).satb slot = true) → (owner ≤ 16 ∨ owner = 31) → (fw ∨ v / 8192 % 8 = p) →
      ((me s).await = none → Becomes (.satw c a b) s (later { waits ask s with slotWrites := s.slotWrites ++
        [{ slot, entry := BitVec.ofNat 16 (v / 256 % 256 * 256 + owner), due := word due, core := myId s, ctx := myN s,
           await := s.serial }] } (due - s.stc.toNat) .satwApply StepArg.none)) ∧
      ((me s).await = some w → w.done = true → Gives (.satw c a b) s (modMe s fun x => { x with await := none })) ∧
      ((me s).await = some w → w.done = false → Becomes (.satw c a b) s (wait s))) ∧
    (¬fw → inShare (getPart s p).satb slot = false → Becomes (.satw c a b) s (raiseTrap s (.satw c a b) tPRIVILEGE [])) ∧
    ((fw ∨ inShare (getPart s p).satb slot = true) → ((17 ≤ owner ∧ owner ≤ 30) ∨ (¬fw ∧ v / 8192 % 8 ≠ p)) →
      Becomes (.satw c a b) s (raiseTrap s (.satw c a b) tILLEGAL [])) ∧
    (let h := chanOfWords (sv s b) (sv s e)
     let old := getChan (getCore s t) chan.toNat
     let moved : Bool := old.lbase != h.lbase || old.lsize != h.lsize
     let u := if h.valid = false ∨ old.gang ≠ h.gang ∨ moved = true then returnHeld s t chan.toNat else s
     let held (s : State) := (getRing (getCore s t) chan.toNat).live ≠ []
     let traps (x : Trap) := Becomes (.chset c a chan b e) s (raiseTrap s (.chset c a chan b e) x [])
     (validCore t = true → inPart s p t = true → v / 2 ^ 56 % 128 = 0 → (chan = 63 → h.lsize = 0) →
       (mget (getCore s t).chset chan.toNat none = none →
         (moved = false ∨ ¬held u → Gives (.chset c a chan b e) s (writeChan u t chan.toNat h moved)) ∧
         (moved = true → held u → Becomes (.chset c a chan b e) s
           (modCore u t fun k => { k with chset := mset k.chset chan.toNat (some h) }))) ∧
       (mget (getCore s t).chset chan.toNat none ≠ none →
         (¬held s → Gives (.chset c a chan b e) s (writeChan s t chan.toNat h moved)) ∧
         (held s → Becomes (.chset c a chan b e) s (wait s)))) ∧
     (validCore t = false → traps (tAPERTURE t)) ∧
     (validCore t = true → inPart s p t = false → traps tPRIVILEGE) ∧
     (validCore t = true → inPart s p t = true → v / 2 ^ 56 % 128 ≠ 0 → traps tRESERVED) ∧
     (validCore t = true → inPart s p t = true → v / 2 ^ 56 % 128 = 0 → chan = 63 → h.lsize ≠ 0 → traps tILLEGAL))

/-- 16 R350, R355 and R361: a gang id that names no gang gives status 1, a lost gang 7; PREEMPT of a frozen gang gives
8, otherwise it stops every member and answers when all are frozen (log 32, DEDUCED, on lost members); GANGCTL reports,
resumes and kills; SLEEPS of a sleeping stratum gives 8, WAKES of an awake one 0, WAKES of a sleeping one starts its
wake, whose copy ends exactly 64 beats after B_w, of the at least 64 that 10 R292 gives (what the model keeps of latencies:
log 11, DESIGN CHOICE; B_w is a free value after the present beat), and the result of both comes when the stratum is asleep or awake. That SLEEPS and WAKES follow a request of the other kind that is under way is
log 25 (DEDUCED). -/
def Obligations.GangsAndStrata : Prop :=
  ∀ (c : Cond) (d : SReg) (a : SSrc) (s : State) (g : Gang) (z : Nat) (w : Wake),
    let st (s : State) (n : Nat) := produceVal s (.s d) (.s (word n)) 0
    let has := gangArg s a = some g
    let live := liveMembers g
    (gangArg s a = none → Gives (.preempt c d a) s (st s 1) ∧ Gives (.gangctlStatus c d a) s (st s 1) ∧
      Gives (.gangctlResume c d a) s (st s 1) ∧ Gives (.gangctlKill c d a) s (st s 1)) ∧
    (has → gangLost g = true → Gives (.preempt c d a) s (st s 7) ∧ Gives (.gangctlStatus c d a) s (st s 7) ∧
      Gives (.gangctlResume c d a) s (st s 7)) ∧
    (has → gangLost g = false → gangFrozen s g = true → Gives (.preempt c d a) s (st s 8) ∧
      Gives (.gangctlStatus c d a) s (st s 2)) ∧
    (has → gangLost g = false → gangFrozen s g = false → Gives (.gangctlStatus c d a) s (st s 0) ∧
      Gives (.preempt c d a) s (live.foldl (fun s m => if m.saved then s else stopMember s m.core m.ctx)
        (produce s (.s d) (.preempt g.id)))) ∧
    (has → gangLost g = false → (live.all fun m => !m.saved && (getCtx s m.core m.ctx).frozen) = true →
      Gives (.gangctlResume c d a) s (st (live.foldl (fun s m => resumeMember s m.core m.ctx) s) 0)) ∧
    (has → Gives (.gangctlKill c d a) s (st (killGang s (partOf s (myId s)) g) 0)) ∧
    (has → gangLost g = false → (live.any fun m => m.saved || !(getCtx s m.core m.ctx).frozen) = true →
      Gives (.gangctlResume c d a) s (st s 2)) ∧
    (stratumArg s a true = .ok z → (getStratum s z).awake = false → (getLayer s z).wake = none →
      Gives (.sleeps c d a) s (st s 8)) ∧
    (stratumArg s a true = .ok z → ((getStratum s z).awake = true ∨ (getLayer s z).wake = some w) →
      Gives (.sleeps c d a) s (produce (modStratum s z fun x => { x with sleepReq := true }) (.s d) (.sleeping z))) ∧
    (stratumArg s a false = .ok z → (getStratum s z).sleepReq = true → Becomes (.wakes c d a) s (wait s)) ∧
    (stratumArg s a false = .ok z → (getStratum s z).sleepReq = false → (getStratum s z).awake = false →
      (getLayer s z).wake = none →
      let bw := s.stc + 1 + word (Config.wakeChoice s.choice).val
      Gives (.wakes c d a) s (produce (later (modLayer { s with choice := s.choice + 1 } z fun y =>
        { y with wake := some { bw, marks := [] }, stopped := false }) ((bw - s.stc).toNat + 64) .mirrorCopyComplete
        { StepArg.none with i := z }) (.s d) (.waking z bw))) ∧
    (∀ t : Trap, stratumArg s a true = .error t → Becomes (.sleeps c d a) s (raiseTrap s (.sleeps c d a) t [])) ∧
    (∀ t : Trap, stratumArg s a false = .error t → Becomes (.wakes c d a) s (raiseTrap s (.wakes c d a) t [])) ∧
    (stratumArg s a false = .ok z → (getStratum s z).awake = true → (getStratum s z).sleepReq = false →
      Gives (.wakes c d a) s (st s 0)) ∧
    (stratumArg s a false = .ok z → (getStratum s z).sleepReq = false → (getStratum s z).awake = false →
      (getLayer s z).wake = some w →
      Gives (.wakes c d a) s (produce s (.s d) (.waking z w.bw)))

/-- 16 R351 to R354: CTXSV of a context that is not frozen gives 2, of a settled frozen one it writes the save area and
gives 0; CTXLD of an area whose header is not valid gives 5, else it places the context and gives 0 (what the core keeps
beside the area: log 24, DEDUCED; that a header without the magic number is not valid either: log 32, DEDUCED). -/
def Obligations.SaveAndLoad : Prop :=
  ∀ (c : Cond) (d : SReg) (n : BitVec 3) (a : SSrc) (s u v w : State) (h bs : List Byte),
    let m := n.toNat
    let k := myId s
    let x := getCtx s k m
    let at' := (sv s a).toNat
    let st (s : State) (j : Nat) := produceVal s (.s d) (.s (word j)) 0
    let saves (i : Instr) (ext : Bool) := m < pwCtx (myCore s).pword → m ≠ myN s → areaCheck s ext at' = none →
      ((x.resident = false ∨ x.frozen = false) → Gives i s (st s 2)) ∧
      (x.resident = true → x.frozen = true → settled s k m = true → x.lost = false →
        saveCtx s ext m at' = (u, none) → Gives i s (st u 0))
    let loads (i : Instr) (ext : Bool) := m < pwCtx (myCore s).pword → x.resident = false → areaCheck s ext at' = none →
      loadArea s at' 64 = (u, some h) →
      ((field h 0 4 ≠ saveMagic ∨ field h 4 4 % 2 = 0) → Gives i s (st u 5)) ∧
      (field h 0 4 = saveMagic → field h 4 4 % 2 = 1 → field h 8 2 = k → field h 10 2 % 8 = m →
        loadArea u at' (areaSize u ext) = (v, some bs) → (ext = true → field (bs.drop 0x9000) 0 4 = extMagic) →
        guardsTaken bs m (getCore v k) = false → clearValid v m at' = (w, true) →
        Gives i s (st (placeLoaded w m bs (if ext then some (bs.drop 0x9000) else none)) 0))
    saves (.ctxsv c d n a) false ∧ saves (.ctxsvM c d n a) true ∧ loads (.ctxld c d n a) false ∧ loads (.ctxldM c d n a) true

/-! Checks of an issue (06 R143 to R151) -/

/-- 06 R149 and R150: a write to s0, s63, p0 or q0 is discarded, and each reads its constant and is always full; any
other register reads what was last written to it, and a write changes no other register. -/
def Obligations.HardwiredRegisters : Prop :=
  (∀ (r : Regs) (v : Word) (p : BitVec 64) (b : Bool),
     wrS r 0 v = r ∧ wrS r 63 v = r ∧ wrP r 0 p = r ∧ wrQ r 0 b = r ∧ rdS r 0 = 0 ∧ rdS r 63 = r.pc ∧
     rdP r 0 = BitVec.allOnes 64 ∧ rdQ r 0 = true ∧ sEmpty r 0 = false ∧ sEmpty r 63 = false ∧ qEmpty r 0 = false ∧
     markS r 0 b = r ∧ markS r 63 b = r) ∧
  (∀ (r : Regs) (m n : SReg) (v w : VReg) (p q : PReg) (i j : QReg) (x : Word) (y : VWord) (z : BitVec 64) (b : Bool),
     (m ≠ 0 → m ≠ 63 → rdS (wrS r m x) m = x) ∧ (n ≠ m → rdS (wrS r m x) n = rdS r n) ∧
     rdV (wrV r v y) v = y ∧ (w ≠ v → rdV (wrV r v y) w = rdV r w) ∧ (p ≠ 0 → rdP (wrP r p z) p = z) ∧
     (q ≠ p → rdP (wrP r p z) q = rdP r q) ∧ (i ≠ 0 → rdQ (wrQ r i b) i = b) ∧ (j ≠ i → rdQ (wrQ r i b) j = rdQ r j))

/-- 06 R143 and R147, 01 R24, 07 R178: at task privilege a privileged major raises PRIVILEGE, and on a core without its
unit an instruction raises ILLEGAL; then an empty condition waits without an effect, and one whose condition is false
does nothing but move past itself, whatever its sources hold. -/
def Obligations.ConditionFirst : Prop :=
  (∀ (i : Instr) (s : State), i.isStep = false → isVector i = false → (me s).ra = none →
     (isPrivileged i = true → (me s).priv ≠ 0) → absentOn i (isGw (myId s)) = false →
     (qEmpty (myRegs s) i.pField.1 = true → exec i s = .next (wait s)) ∧
     (qEmpty (myRegs s) i.pField.1 = false → rdQ (myRegs s) i.pField.1 = i.pField.2 → exec i s = .next (advance s i))) ∧
  (∀ (i : Instr) (s : State), i.isStep = false → (me s).ra = none →
     (isPrivileged i = true → (me s).priv = 0 → exec i s = .next (raiseTrap s i tPRIVILEGE [])) ∧
     ((isPrivileged i = true → (me s).priv ≠ 0) → absentOn i (isGw (myId s)) = true →
       exec i s = .next (raiseTrap s i tILLEGAL [])))

/-- 06 R151: a source that is EMPTY raises FE_EMPTY where its W bit is 1, and otherwise the instruction waits; it waits
too for an EMPTY destination. None of the three has an effect. PREF, which raises no trap beyond decode (08 R208), goes
on without an effect instead. Two points are the model's choice (log 40, DESIGN CHOICE), since neither R151 nor 06 Table 6.5
says so: an EMPTY source with W = 1 traps at once beside a source or destination that would wait, and the instruction EMPTY
waits for its own EMPTY destination, though 07 R177 says that it never waits. -/
def Obligations.FullEmpty : Prop :=
  ∀ (i : Instr) (s : State), i.isStep = false → (isPrivileged i = true → (me s).priv ≠ 0) → (me s).ra = none →
    absentOn i (isGw (myId s)) = false → qEmpty (myRegs s) (condOf i).q = false → condTrue s (condOf i) = true →
    ((∃ x ∈ (useOf i).srcs, srcEmpty (myRegs s) x = true ∧ srcW x = true) → exec i s = .next (match i with
      | .pref .. => advance s i
      | _ => raiseTrap s i tFE [])) ∧
    ((∀ x ∈ (useOf i).srcs, srcEmpty (myRegs s) x = true → srcW x = false) →
      ((∃ x ∈ (useOf i).srcs, srcEmpty (myRegs s) x = true) ∨ ∃ y ∈ (useOf i).dsts, dstEmpty (myRegs s) y = true) →
      exec i s = .next (wait s))

/-- 06 R151: a producer's destination is EMPTY from its issue until its result is written, which makes it FULL in the
same step; at a destination s0 nothing happens (R150). A core whose clock stands still delivers nothing (01 R26). -/
def Obligations.ProducerResult : Prop :=
  ∀ (s : State) (c n : Nat) (d : SReg) (v : Word) (f : FFlags) (p : Pending),
    let x := getCtx s c n
    let t := producerDone s c n p.id
    (sEmpty (myRegs (produce s (.s d) (.val (.s v) f))) d = true ↔ d ≠ 0 ∧ d ≠ 63) ∧
    (clockStopped s c = false → x.ra = none → x.regs.pend = [p] → p.dest = .s d → p.prod = .val (.s v) f →
      sEmpty (getCtx t c n).regs d = false ∧ (d ≠ 0 → d ≠ 63 → rdS (getCtx t c n).regs d = v) ∧
      (getCtx t c n).regs.pend = [] ∧ (getCtx t c n).regs.fstat = x.regs.fstat ||| f)

/-- The frame of the scalar computing instructions: nothing changes but the program counter and the destinations of the
instruction; FSTAT, every other context and every other unit are as before (07 R158). -/
def Obligations.ScalarFrame : Prop :=
  ∀ (i : Instr) (s t : State), scalarPlain i = true → issues i s = true → exec i s = .next t →
    KeepsRegisters (useOf i).dsts (me s) (me t) ∧ (myRegs t).fstat = (myRegs s).fstat ∧ SameMemory s t ∧
      SameElsewhere s t ∧ { t with cores := s.cores } = s

/-- The same of the vector instructions that address no memory; FSTAT only gains flags (03 R74). -/
def Obligations.VectorFrame : Prop :=
  ∀ (i : Instr) (s t : State), vectorPlain i = true → issues i s = true → exec i s = .next t →
    KeepsRegisters (useOf i).dsts (me s) (me t) ∧ (myRegs s).fstat &&& (myRegs t).fstat = (myRegs s).fstat ∧
      SameMemory s t ∧ SameElsewhere s t ∧ { t with cores := s.cores } = s

/-! Transfers and traps (07 R164 to R167, 16 R341, R342) -/

/-- 07 R164: a transfer reaches its target, JL and JLR link the next sequential address, JLR reads a before it writes
sD; a target that no instruction may start at raises MISALIGNED, without a link. -/
def Obligations.Transfers : Prop :=
  ∀ (c : Cond) (cc : CmpCond) (d : SReg) (a b : SSrc) (off : Imm) (s : State),
    let pc := (myRegs s).pc
    let legal (t : Word) := t.toNat % 4 = 0 ∧ t.toNat % 32 ≠ 28
    let goes (i : Instr) (t : Word) (link : State → State) :=
      (legal t → Becomes i s (modRegs (link s) fun r => { r with pc := t })) ∧
      (¬legal t → Becomes i s (raiseTrap s i (tMISALIGNED t.toNat) []))
    let rel := pc + 4 * immW off
    let ind := sv s a + immW off
    let links (i : Instr) (s : State) := setS s d (nextPc pc i.len)
    goes (.br c off) rel id ∧ (cmpCond cc (sv s a) (sv s b) = true → goes (.cbr c cc a b off) rel id) ∧
    (cmpCond cc (sv s a) (sv s b) = false → Gives (.cbr c cc a b off) s s) ∧
    goes (.jl c d off) rel (links (.jl c d off)) ∧ goes (.jlr c d a off) ind (links (.jlr c d a off)) ∧
    goes (.jr c a off) ind id

/-- 07 R166 and R167: TRAP enters the handler with USER_TRAP, its code and EPC at itself, SYSCALL, once the instructions
before it have completed, with SYSCALL, its code and EPC at the next instruction, every register but the program counter
as it was; a selector, condition or sub-element that a statement does not list is ILLEGAL (07 R176, 08 R195, R198,
R199). -/
def Obligations.TrapInstructions : Prop :=
  (∀ (c : Cond) (code : BitVec 16) (s : State), (me s).intrap = false → (me s).priv ≠ 2 →
     let pc := (myRegs s).pc
     let enters (cause : Nat) (epc : Word) := modMe s fun x =>
       { x with cause := word (cause + 256 * code.toNat), epc, faddr := 0, ppriv := x.priv, priv := 1, intrap := true,
                stopping := false, await := none, regs := { x.regs with pc := x.tvec } }
     Becomes (.trap c code) s (enters 0x12 pc) ∧
     ((myRegs s).pend = [] → Becomes (.syscall c code) s (enters 0x13 (nextPc pc (Instr.syscall c code).len))) ∧
     ((myRegs s).pend ≠ [] → Becomes (.syscall c code) s (wait s))) ∧
  (∀ (c : Cond) (p : Pred) (d : SReg) (v : VReg) (pd : PReg) (a : VSrc) (b : VOpB) (q : SSrc) (n : BitVec 8) (t : CmpT)
     (cc : VCond) (td ts : ElemT) (rm : RMode) (ns : Bool) (sel : BitVec 2) (sl : BitVec 3) (s : State),
     let illegal (i : Instr) := Becomes i s (raiseTrap s i tILLEGAL [])
     (13 ≤ n.toNat → illegal (.rdspec c d n)) ∧
     (t ≠ .f32 → (cc = .un ∨ cc = .or) → illegal (.vcmp p t cc pd a b)) ∧
     (∀ k, cc = .bad k → illegal (.vcmp p t cc pd a b)) ∧
     (badCvt td ts ns sel.toNat = true → illegal (.vcvt p td ts rm ns sel v a)) ∧
     (4 ≤ sl.toNat → illegal (.vqnt p false rm sl v a q) ∧ illegal (.vdqnt p false sl v a q)))

/-- 16 R341: a trap outside INTRAP and firmware privilege: CAUSE, EPC, FADDR, PPRIV, PRIV, INTRAP and the program counter, and
every other register as it stands. A page fault (cause 7, 18 R386 to R391) does so at once where there is no run-ahead, above
task privilege or while a PREEMPT waits for the context, with reason 6 and the first faulting page in its batch. At task
privilege it starts run-ahead: the registers are kept as they are at the faulting instruction, whose destinations are poisoned
and which is passed, the cursor of a passed MLDT being 0 again (09 R237), and nothing else changes. The end of run-ahead (RUN_AHEAD_END, once a reason stands and no walk of it waits
for a peer) restores the registers that were kept and enters the handler at the faulting instruction, with the batch of its own
pages and those recorded, of at most 17, their number and the reason in CAUSE (in part DEDUCED, log 18). -/
def Obligations.TrapEntry : Prop :=
  (∀ (i : Instr) (s : State) (t : Trap) (l : List (Nat × Nat)), (me s).intrap = false → (me s).priv ≠ 2 →
     let x := me s
     let u := raiseTrap s i t l
     let y := me u
     let enters (cause : Nat) := y.cause = word cause ∧
       y.epc = (if t.next then nextPc x.regs.pc i.len else x.regs.pc) ∧ y.faddr = t.faddr ∧ y.ppriv = x.priv ∧ y.priv = 1 ∧
       y.intrap = true ∧ y.regs = { x.regs with pc := x.tvec } ∧ y.tvec = x.tvec ∧ SameMemory s u ∧ SameElsewhere s u
     (t.cause ≠ 7 → enters (t.cause + 256 * t.code) ∧ y.batch = x.batch) ∧
     (t.cause = 7 → ((me s).priv ≠ 0 ∨ (me s).freezing = true) →
       enters (7 + 256 * (t.pages.take 1).length + 8192 * 6) ∧ y.batch = t.pages.take 1) ∧
     (t.cause = 7 → (me s).priv = 0 → (me s).freezing = false →
       SameMemory s u ∧ SameElsewhere s u ∧ ∃ a : RunAhead,
         y = { x with ra := some a, regs := passCursor i { x.regs with pc := nextPc x.regs.pc i.len } } ∧ a.saved = x.regs ∧
         a.faddr = t.faddr ∧ a.own = t.pages ∧ a.pages = [] ∧ a.stores = l ∧ a.count = 0 ∧ a.ending = none ∧
         (∀ n : SReg, a.poisonS.getLsbD n.toNat = true ↔ Dst.s n ∈ (useOf i).dsts) ∧
         (∀ n : VReg, a.poisonV.getLsbD n.toNat = true ↔ Dst.v n ∈ (useOf i).dsts) ∧
         (∀ n : PReg, a.poisonP.getLsbD n.toNat = true ↔ Dst.p n ∈ (useOf i).dsts) ∧
         (∀ n : QReg, a.poisonQ.getLsbD n.toNat = true ↔ Dst.q n ∈ (useOf i).dsts) ∧
         ∀ n : XReg, a.poisonX.getLsbD n.toNat = true ↔ Dst.x n ∈ (useOf i).dsts)) ∧
  (∀ (s : State) (a : RunAhead) (r : Nat), let c := s.arg.i
     let n := s.arg.j
     let x := getCtx s c n
     validCore c = true → x.ra = some a →
     (a.ending = none → exec .runAheadEnd s = .next s) ∧
     (a.ending = some r → aheadWalks s c n = false → clockStopped s c = false → x.intrap = false → x.priv ≠ 2 →
       ∃ t, exec .runAheadEnd s = .next t ∧ SameMemory s t ∧
         let y := getCtx t c n
         y.ra = none ∧ y.regs = { a.saved with pc := x.tvec } ∧ y.epc = a.saved.pc ∧ y.faddr = a.faddr ∧
         y.batch = (a.own ++ a.pages).take 17 ∧
         y.cause = word (7 + 256 * ((a.own ++ a.pages).take 17).length + 8192 * r) ∧ y.ppriv = x.priv ∧ y.priv = 1 ∧
         y.intrap = true))

/-- 16 R342: a trap in a context with INTRAP = 1, or at firmware privilege, freezes it in place, CAUSE and EPC
unchanged, and the core writes a context record with status DOUBLE_TRAP (18) that carries FADDR in its ADDR field; a page fault
(cause 7), of which there is then no run-ahead (18 R388), leaves its first page in the batch registers beside that. -/
def Obligations.DoubleTrap : Prop :=
  ∀ (i : Instr) (s : State) (t : Trap) (l : List (Nat × Nat)), ((me s).intrap = true ∨ (me s).priv = 2) →
    let c := myId s
    let n := myN s
    let u := if t.cause = 7 then modMe s fun x => { x with batch := t.pages.take 1 } else s
    raiseTrap s i t l = logRecord (freeze u c n) c
      { extra := 0, addr := t.faddr.toNat, done := 0, gen := (me s).gen.toNat, tag := 0, status := 18, kind := 9, ctx := n,
        src := c } ∧
    (me (raiseTrap s i t l)).frozen = true ∧ (me (raiseTrap s i t l)).cause = (me s).cause ∧
      (me (raiseTrap s i t l)).epc = (me s).epc

/-! Steps of the device -/

/-- 02 R61: every range starts as START 0, REM 0, C 1, D 1; the unit of a stratum applies its operations one at a time
in the order of its queue: RNGSET writes all four values, GRAB answers START and min(REM, max(C, ceil(REM ÷ D))), and
moves START and REM by the count. -/
def Obligations.RangeUnit : Prop :=
  (∀ z n, rangeOf (getStratum State.reset z) n = { start := 0, rem := 0, c := 1, d := 1 }) ∧
  ∀ (s : State) (z : Nat), z < 16 → s.arg.i = z →
    let y := getStratum s z
    (∀ n e r, y.rangeQ = .set n e :: r → ∃ t, exec .rangeUnitOperation s = .next t ∧ (getStratum t z).rangeQ = r ∧
      ∀ m, rangeOf (getStratum t z) m = if m = n then e else rangeOf y m) ∧
    (∀ c k id n r, y.rangeQ = .grab c k id n :: r → (rangeOf y n).d ≠ 0 →
      let e := rangeOf y n
      let count := min e.rem.toNat (max e.c.toNat (e.rem.toNat ⌈/⌉ e.d.toNat))
      ∃ t, exec .rangeUnitOperation s = .next (fulfil t c k id (.pair e.start (word count)) 0) ∧
        (getStratum t z).rangeQ = r ∧ ∀ m, rangeOf (getStratum t z) m =
          if m = n then { e with start := e.start + word count, rem := e.rem - word count } else rangeOf y m)

/-- A step for a core that does not exist, or for a unit that does not, is a fault: the model's own bound on its
operands (DESIGN CHOICE, log 3). -/
def Obligations.StepOperands : Prop :=
  ∀ (s : State), let n := s.arg.i
    (validCore n = false → ∀ i ∈ [Instr.issueSelection, .priorityAging, .yieldExpiry, .eventBind, .producerResult,
      .privateOverflowPerform, .copyUnit, .copyCompletion, .traceCommandApply, .rewardSweep, .runAheadEnd, .pageWalk,
      .owntagWrite, .ellostClear], exec i s = .fault (.noSuchCore n)) ∧
    (0x4000 ≤ n → ∀ i ∈ [Instr.matrixCommandStart, .matrixCommandComplete, .rfenceAck], exec i s = .fault (.noSuchCore n)) ∧
    (4096 ≤ n → ∀ i ∈ [Instr.matrixRunGrant, .matrixRunIdleTimeout, .rotationArrival, .retrievalBucketOperation],
      exec i s = .fault (.noSuchUnit n)) ∧
    (17 ≤ n → exec .seAccess s = .fault (.noSuchUnit n) ∧ exec .fetchFill s = .fault (.noSuchUnit n)) ∧
    (16 ≤ n → ∀ i ∈ [Instr.rangeUnitOperation, .sleepComplete, .mirrorCopyComplete, .bqctlOpen, .bqctlClose, .reqWrite,
      .frequencyStopEnd, .voltageRampDone, .thermalCap, .thermalHalt, .thermalClear, .stallWindow],
      exec i s = .fault (.noSuchUnit n)) ∧
    (12 ≤ n → ∀ i ∈ [Instr.retrain, .raslostClear, .portDown, .portUp, .sloimPacketReceive, .hbmAccess],
      exec i s = .fault (.noSuchUnit n)) ∧
    (9 ≤ n → exec .hostMmio s = .fault (.noSuchUnit n)) ∧
    (8 ≤ n → ∀ i ∈ [Instr.barrierPhaseComplete, .barrierCombine, .jobAdmission, .counterDecrement, .launchPriorityAging,
      .placementRound, .gangCompletion, .evtailWrite, .hostEventForward, .fttailWrite, .ftlostClear, .pcfgWrite, .routeWrite,
      .attestationReportDone, .routeFailTimeout, .cxlMemRequest], exec i s = .fault (.noSuchUnit n)) ∧
    ((64 ≤ s.arg.j ∨ 8 ≤ n) → (∃ k, exec .lqtailWrite s = .fault (.noSuchUnit k)))

/-- The steps of a core (02 R51, R59, 07 R169, 01 R38, 06 R151, 04 R97, 08 R214, R217, 10 R271, R273, 18 R382, R389, 16
R345, R357), of the array, the retrieval units, the synchronisation engines and the strata (09 R223 to R257, 05 R133, 10
R291, R292): each completes with its own operation, and what those leave of which a rule gives the effect in a few
words: a YIELD that ends, a private store that reaches memory, a fetched block in every cache that asked for it, a copy
that completes, a request that its engine performs, a selection, a stratum that falls asleep or wakes (the schedule of
the steps: log 3, DESIGN CHOICE; that a stratum that no partition owns stays asleep: log 25, DEDUCED). -/
def Obligations.CoreSteps : Prop :=
  (∀ (s : State), let c := s.arg.i
     let n := s.arg.j
     validCore c = true →
     exec .issueSelection s = .next (selectIssue s c s.arg.x) ∧
     exec .priorityAging s = .next (modCtx s c n fun x =>
       if 4096 ≤ x.passed then { x with passed := x.passed - 4096, aged := x.aged + 1 } else x) ∧
     exec .yieldExpiry s = .next (yieldOver s c n s.arg.k) ∧
     exec .eventBind s = .next (bindEvent s c) ∧ exec .producerResult s = .next (producerDone s c n s.arg.k) ∧
     exec .privateOverflowPerform s = .next (overflowPerform s c n) ∧ exec .copyUnit s = .next (copyUnit s c n) ∧
     exec .copyCompletion s = .next (copyComplete s c n) ∧
     (clockStopped s c = true → exec .traceCommandApply s = .next s ∧ exec .rewardSweep s = .next s) ∧
     (clockStopped s c = false → exec .rewardSweep s = .next (sweepNext s c (freeItem s c)) ∧
       exec .traceCommandApply s = .next (match firstCmd (freeItem s c) [] (getCore s c).tl with
         | some t => applyItem s c t
         | none => s)) ∧ exec .runAheadEnd s = .next (aheadOver s c n) ∧
     exec .pageWalk s = .next (pageWalk s c n (if s.arg.k = 0 then .fetch else if s.arg.k = 1 then .read else .write)
       (s.arg.x.toNat % 2 ^ 56) (if s.arg.b then some s.arg.y else none)) ∧
     exec .owntagWrite s = .next (modCore s c fun k =>
       { k with ownTag := s.arg.x.setWidth 16, otStc := s.stc, ownWritten := true }) ∧
     exec .ellostClear s = .next (modCore s c fun k => { k with elLost := k.elLost &&& ~~~s.arg.x })) ∧
  (∀ (s : State), let n := s.arg.i
     (n < 4096 → exec .matrixRunGrant s = .next (grantRun s n) ∧ exec .matrixRunIdleTimeout s = .next (idleRun s n) ∧
       exec .rotationArrival s = .next (rotationArrive s n s.arg.b) ∧
       exec .retrievalBucketOperation s = .next (bucketOperation s n)) ∧
     (n < 0x4000 → exec .matrixCommandStart s = .next (startHead s n) ∧
       exec .matrixCommandComplete s = .next (completeHead s n) ∧ exec .rfenceAck s = .next (fenceAck s n s.arg.j)) ∧
     (n < 17 → exec .seAccess s = .next (seAccess s n s.arg.j) ∧
       exec .fetchFill s = .next (fillBlock s n (s.arg.y.setWidth 32) s.arg.x.toNat)) ∧
     (n < 16 → exec .sleepComplete s = .next (sleepNow s n) ∧ exec .mirrorCopyComplete s = .next (mirrorCopied s n))) ∧
  (∀ (s : State) (e : FwdStore) (r : List FwdStore) (p : Copy), let c := s.arg.i
     let n := s.arg.j
     validCore c = true →
     ((getCtx s c n).uid = s.arg.k → exec .yieldExpiry s = .next (modCtx s c n fun x => { x with yielding := false })) ∧
     (clockStopped s c = false → (getCtx s c n).fwd = e :: r → (e.bytes.map (·.1)).Nodup → (∀ b ∈ e.bytes, bitOf b.1 51 = false) →
       ∃ t, exec .privateOverflowPerform s = .next t ∧ (getCtx t c n).fwd = r ∧ (∀ b ∈ e.bytes, cget t.hbm b.1 = b.2) ∧
         SameMemoryBut (e.bytes.map fun b => .hbm b.1) s t) ∧
     (findCopy s c n = some p → copyTravels s c n = false → p.status = none → copyTotal p ≤ p.next → p.flag = none → p.flagId = none →
       engineHeld s c p.ctx p.uid p.id = false → (getCtx s c p.ctx).uid = p.uid →
       ∃ t, exec .copyCompletion s = .next t ∧ (getCore t c).copies = (getCore s c).copies.filter (fun q => q.id != p.id) ∧
         (getCtx t c p.ctx).regs.fstat = (getCtx s c p.ctx).regs.fstat ||| p.flags) ∧
     (s.issuing = false → ∃ t, exec .issueSelection s = .next t ∧ (t.issuing = true → ∃ m, t.cur = (c, m) ∧
       s.arg.x.getLsbD m = true ∧ (getCtx t c m).resident = true ∧ (getCtx t c m).frozen = false))) ∧
  (∀ (s : State) (q : SeReq) (f : FillReq) (w : Wake), let n := s.arg.i
     (n < 17 → (getEngine s n).find? (fun r => r.id == s.arg.j) = some q → seMay (getEngine s n) q = true → q.pid = none →
       clockStopped s q.core = false → (n < 16 → clockStopped s (1024 * n) = false) →
       exec .seAccess s = .next (seDo { s with engines := mset s.engines n ((getEngine s n).filter fun x => x.id != s.arg.j) }
         q).1) ∧
     (n < 17 → (getStratum s n).fetches.find? (fun g => g.kid == s.arg.y.setWidth 32 &&
         g.addr == word (s.arg.x.toNat / 32 * 32)) = some f → f.stale = false →
       (∀ i, i < 32 → badPa s (partOf s (f.cores.headD 0)) (f.pa + i) = false) → ∃ t, exec .fetchFill s = .next t ∧
         ∀ c ∈ f.cores, cachedBlock (getCore t c) (s.arg.y.setWidth 32) (s.arg.x.toNat / 32 * 32) =
           some ((List.range 32).map fun i => cget s.hbm (f.pa + i))) ∧
     (n < 16 → maySleep s n = true → ∃ t, exec .sleepComplete s = .next t ∧ (getStratum t n).awake = false ∧
       (getStratum t n).sleepReq = false ∧ (getLayer t n).stale = true ∧ (getLayer t n).wake = none) ∧
     (n < 16 → (getLayer s n).wake = some w → w.bw.toNat + 64 ≤ s.stc.toNat → ∃ t, exec .mirrorCopyComplete s = .next t ∧
       ((stratumPart s n).isSome = true → (getStratum t n).awake = true) ∧
       ((stratumPart s n).isSome = false → (getStratum t n).awake = (getStratum s n).awake) ∧ (getLayer t n).stale = (getLayer s n).stopped ∧ (getLayer t n).wake = none))

/-- The steps of events on their way, of posted stores and of Swell (02 R50 to R53, 04 R102, 10 R281 to R283, 16 R360):
a record that is not there changes nothing; a posted store, which a stopped clock holds (01 R26), writes its bytes in
range, and one out of range is discarded with a record of kind 12 in its issuer's log (the items and their numbers are the model's: log 3, DESIGN CHOICE). -/
def Obligations.TransitSteps : Prop :=
  ∀ (s : State) (t : Transit) (p : Posted),
    let found := findTransit s s.arg.j = some t
    let post := (s.posted.find? fun q => q.id == s.arg.j) = some p
    let gone := { s with posted := s.posted.filter fun e => e.id != s.arg.j }
    let runs := clockStopped s p.core = false ∧ clockStopped s p.target = false
    let inside := (p.bytes.all fun b => decide (b.1 < coreSp gone p.target)) = true
    (found → t.home = false → t.waiting = false → exec .eventArrival s = .next (tryAccept s t)) ∧
    (found → t.waiting = true → exec .sendAcceptance s = .next (tryAccept s t)) ∧
    (found → t.home = true → t.waiting = false → exec .undeliverableReturn s = .next (tryAccept s t)) ∧
    (findTransit s s.arg.j = none → exec .eventArrival s = .next s ∧ exec .sendAcceptance s = .next s ∧
      exec .undeliverableReturn s = .next s) ∧
    (post → postedMay s p = true → runs → inside → exec .remoteStoreArrival s =
      .next (writePlaces gone (p.bytes.map fun b => (.pool p.target b.1, b.2)))) ∧
    (post → ¬runs → exec .remoteStoreArrival s = .next s) ∧
    (post → postedMay s p = true → runs → ¬inside → exec .remoteStoreArrival s = .next (logRecord gone p.core
      { extra := 0, addr := p.addr.toNat, done := 0, gen := p.tag.toNat, tag := 0, status := 3, kind := 12, ctx := p.ctx,
        src := p.core })) ∧
    exec .swellSlotTransmit s = .next (beat s) ∧ exec .swellBeatApply s = .next (applyDue s s.arg.l) ∧
    exec .satwApply s = .next (satwApply s)

/-- The steps of the launch unit and of a partition's rings (02 R45, 17 R363 to R375, 18 R384): each completes with its
own operation; a write of a ring's tail is accepted as far as the ring has room, EVTAIL always (log 31, DEDUCED), FTLOST
is cleared, a phase of one stratum completes for the gang, of one GEN, that armed it, one that spans strata goes into the
queue of the base die as a record, and a step with nothing to do
changes nothing (log 3, DESIGN CHOICE). -/
def Obligations.LaunchSteps : Prop :=
  ∀ (s : State), let p := s.arg.i
    let j := s.arg.j
    let v := s.arg.x
    p < 8 →
    (let mine := (findGang s p j).any fun g => g.gen.toNat == s.arg.y.toNat
     exec .barrierPhaseComplete s = .next (if mine then completePhase s p j s.arg.k v.toNat (fun _ => true) else s)) ∧
    exec .barrierCombine s = .next (combineBarrier s p j s.arg.k v.toNat) ∧
    (j < 64 → exec .lqtailWrite s = .next (lqtailWrite s p j v) ∧ getQueue (lqtailWrite s p j v) p j =
      if (v - (getQueue s p j).head).toNat ≤ (getQueue s p j).ctl.toNat % 2 ^ 17 then { getQueue s p j with tail := v }
      else getQueue s p j) ∧
    getPart (evtailWrite s p v) p = { getPart s p with ev := { (getPart s p).ev with tail := v } } ∧
    getPart (fttailWrite s p v) p = (if (v - (getPart s p).ft.head).toNat ≤ (getPart s p).ft.ctl.toNat % 2 ^ 17 then
      { getPart s p with ft := { (getPart s p).ft with tail := v } } else getPart s p) ∧
    getPart (ftlostWrite s p (word (2 ^ 63))) p = { getPart s p with ftLost := 0 } ∧
    (getLayer (combineBarrier s p j s.arg.k v.toNat) (16 + p)).queue = (getLayer s (16 + p)).queue ++
      [{ id := s.serial, part := p, core := 65535, ctx := 0, uid := 0, after := 0,
         item := .barrier { gang := BitVec.ofNat 16 j, tag := BitVec.ofNat 3 s.arg.k, comp := BitVec.ofNat 32 v.toNat } }] ∧
    ((getPart s p).decs = [] → applyDec s p = s) ∧ (visited s p = none → admitNext s p = s) ∧
    ((getPart s p).ev.head = (getPart s p).ev.tail → forwardEvent s p = s) ∧
    (findGang s p j = none → completePhase s p j s.arg.k v.toNat (fun _ => true) = s) ∧
    exec .jobAdmission s = .next (admitNext s p) ∧
    exec .counterDecrement s = .next (applyDec s p) ∧ exec .launchPriorityAging s = .next (ageGangs s p) ∧
    exec .placementRound s = .next (placementRound s p) ∧ exec .gangCompletion s = .next (completeGang s p j) ∧
    exec .evtailWrite s = .next (evtailWrite s p v) ∧ exec .hostEventForward s = .next (forwardEvent s p) ∧
    exec .fttailWrite s = .next (fttailWrite s p v) ∧ exec .ftlostClear s = .next (ftlostWrite s p (word (2 ^ 63)))

/-- The writes of registers by firmware, host and instructions (16 R362, 20 R400, R407, R408, R411, R413, R416, R419,
R421, R424), of which one that the register does not accept, or that task privilege makes (16 R362), changes nothing;
and the steps of links, memory controllers, power and reset (20 R403, R410 to R412, R415 to R417, R421, R423): each
completes with its own operation, and what a write of a route, a queue, REQ or RETRAIN and a port that goes up or down
leave. Where a register accepts a write and what it then reads rests on log 31 (DEDUCED). -/
def Obligations.RegisterSteps : Prop :=
  (∀ (s t : State), let n := s.arg.i
     let v := s.arg.x
     let who : Who := { priv := s.arg.j, part := if s.arg.j = 2 then none else some s.arg.k, host := false, pf0 := false }
     (n < 8 → exec .pcfgWrite s = .next (pcfgWrite s n v) ∧
       (s.arg.j < 128 → exec .routeWrite s = .next (routeWrite s n s.arg.j v)) ∧
       exec .attestationReportDone s = .next (reportDone s n)) ∧
     (n < 12 → exec .retrain s = .next (retrainPort s n) ∧
       exec .raslostClear s = .next (modHbm s n fun h => { h with lostA := 0, lostT := 0 })) ∧
     (n < 16 → exec .bqctlOpen s = .next (bqOpen s n v) ∧ exec .bqctlClose s = .next (bqClose s n v) ∧
       exec .reqWrite s = .next (reqWrite s n v)) ∧
     exec .bootclr s = .next (bootClear s v) ∧ exec .atgo s = .next (startReport s v) ∧
     (devStore s who v.toNat 8 s.arg.y = .ok t → exec .registerWrite s = .next t) ∧
     (∀ e, devStore s who v.toNat 8 s.arg.y = .error e → exec .registerWrite s = .next s) ∧
     (s.arg.j = 0 → exec .registerWrite s = .next s) ∧
     (let r := v.toNat % 256
      let ok (m : Nat) := m = 15 ∨ ownsPort s n m = true
      n < 8 → s.arg.j < 128 →
        (ok (r % 16) → ok (r / 16) → routeOf (routeWrite s n s.arg.j v) n s.arg.j = BitVec.ofNat 8 r) ∧
        (¬(ok (r % 16) ∧ ok (r / 16)) → routeWrite s n s.arg.j v = s)) ∧
     getPort (retrainPort s n) n = { getPort s n with training := true } ∧
     ((getBq s n).isOpen = false → getBq (bqOpen s n v) n =
       { getBq s n with isOpen := true, ready := [], part := v.extractLsb' 16 3, nb := v.setWidth 16 }) ∧
     ((getBq s n).isOpen = true → getBq (bqClose s n v) n = { getBq s n with isOpen := false }) ∧
     (powerOf (reqWrite s n v) n).req = v.setWidth 3 ∧
     (v.toNat < 32 → bootEntry (bootClear s v) v.toNat = bootEntry s v.toNat &&& 0x0F) ∧
     (v = 1 → s.attest.busy = false → (startReport s v).attest = { s.attest with busy := true, stat := 0 }) ∧
     (n < 9 → exec .hostMmio s =
       .next (if s.arg.b then mmioWrite s n v.toNat s.arg.k s.arg.y else mmioRead s v.toNat s.arg.k))) ∧
  (∀ (s : State), let n := s.arg.i
     (n < 12 → exec .portDown s = .next (portDown s n) ∧ (getPort (portDown s n) n).up = false ∧
       (getPort (portDown s n) n).training = false ∧ (getPort (portUp s n s.arg.j) n).up = true ∧
       (getPort (portUp s n s.arg.j) n).lanes = BitVec.ofNat 8 s.arg.j ∧
       ((getPort s n).training = true → exec .portUp s = .next (portUp s n s.arg.j)) ∧
       ((getPort s n).training = false → exec .portUp s = .next s) ∧
       ((getPort s n).up = false → exec .sloimPacketReceive s = .next s) ∧
       ((getPort s n).up = true → s.arg.b = true → exec .sloimPacketReceive s = .next (linkReplay s n)) ∧
       ((getPort s n).up = true → s.arg.b = false → exec .sloimPacketReceive s =
         (let t := modPort s n fun x => { x with failRun := 0 }
          .next (takePacket (if s.arg.k = 1 then modPeer t s.arg.packet.src.toNat fun y => { y with resync := true } else t)
            s.arg.packet s.arg.bytes s.arg.j s.arg.x.toNat (s.arg.y.setWidth 48)))) ∧
       (let u := hbmAccess s n (s.arg.x.toNat % 2 ^ 36 / 32 * 32) s.arg.b s.arg.hbm
        (s.arg.j ≠ 1 → exec .hbmAccess s = .next u) ∧ (s.arg.j = 1 → exec .hbmAccess s = .next (recordStack u n)))) ∧
     (n < 8 → exec .routeFailTimeout s = .next (routeFails s n s.arg.j) ∧
       exec .cxlMemRequest s = .next (cxlRequest s n s.arg.x.toNat s.arg.j s.arg.b s.arg.bytes)) ∧
     (n < 16 → exec .frequencyStopEnd s = .next (stopEnd s n) ∧ exec .voltageRampDone s = .next (rampEnd s n) ∧
       exec .thermalCap s = .next (retarget (modPower s n fun p => { p with hot := true }) n) ∧
       exec .thermalHalt s = .next (thermalHalt s n) ∧
       (let runs (t : State) : State := if (powerOf s n).halt && !clockSwitches s (1024 * n) then resumeWaits t n else t
        ((powerOf s n).hot = true →
          exec .thermalClear s = .next (retarget (runs (modPower s n fun p => { p with hot := false, halt := false })) n)) ∧
        ((powerOf s n).hot = false → exec .thermalClear s = .next (runs (modPower s n fun p => { p with halt := false })))) ∧
       exec .stallWindow s = .next (modPower s n fun p =>
         { p with stallRatio := BitVec.ofNat 16 (stallRatioOf p), stallCount := p.stallCount + 1, idle := 0, cycles := 0 })) ∧
     exec .coldReset s = .next (runBoot (bootIn s.arg) false (nextReset s.arg) s) ∧
     exec .wreset s = .next (runBoot (bootIn s.arg) true (nextReset s.arg) s))
end

