-- ==== Sys2Proof/Laws/Maps.lean ====
section
/-! SUPPORT. What a sparse table and a byte memory read after a write, and that a write keeps the canonical form. -/

namespace Sys2Proof.Machine

@[simp] theorem mget_mset_same {α : Type} (m : Map α) (k : Nat) (v d : α) : mget (mset m k v) k d = v := by
  induction m with
  | nil => simp [mset, mget]
  | cons e r ih =>
    obtain ⟨k', v'⟩ := e
    simp only [mset]
    split
    · simp [mget]
    · split
      · simp [mget]
      · simp [mget, *]

theorem mget_mset_other {α : Type} (m : Map α) (k j : Nat) (v d : α) (h : j ≠ k) :
    mget (mset m k v) j d = mget m j d := by
  have h' : k ≠ j := fun e => h e.symm
  induction m with
  | nil => simp [mset, mget, h']
  | cons e r ih =>
    obtain ⟨k', v'⟩ := e
    simp only [mset]
    split
    · subst k'; simp [mget, h']
    · split
      · simp [mget, h']
      · simp [mget, ih]

theorem mget_mset {α : Type} (m : Map α) (k j : Nat) (v d : α) :
    mget (mset m k v) j d = if j = k then v else mget m j d := by
  split
  · subst_vars; simp
  · exact mget_mset_other m k j v d ‹_›

theorem cget_cdel (m : List Host.Cell) (a b : Nat) : cget (cdel m a) b = if b = a then unlisted else cget m b := by
  induction m with
  | nil => simp [cdel, cget]
  | cons e r ih =>
    obtain ⟨k, w⟩ := e
    simp only [cdel]
    split
    · subst k; rw [ih]
      by_cases h : b = a
      · rw [if_pos h, if_pos h]
      · rw [if_neg h, if_neg h, cget, if_neg (fun e => h e.symm)]
    · simp only [cget, ih]
      split
      · subst k; rw [if_neg ‹_›]
      · rfl

theorem cget_cins (m : List Host.Cell) (a : Nat) (v : Byte) (b : Nat) (h : cget m a = unlisted) (hm : ∀ e ∈ m, e.1 ≠ a) :
    cget (cins m a v) b = if b = a then v else cget m b := by
  induction m with
  | nil =>
    by_cases e : b = a
    · rw [if_pos e, cins, cget, if_pos e.symm]
    · have e' : ¬a = b := fun x => e x.symm
      simp only [cins, cget, e, e', if_false]
  | cons e r ih =>
    obtain ⟨k, w⟩ := e
    have hk : k ≠ a := hm (k, w) (by simp)
    have hr : ∀ e ∈ r, e.1 ≠ a := fun e he => hm e (by simp [he])
    have hu : cget r a = unlisted := by simpa [cget, hk] using h
    simp only [cins]
    split
    · rw [cget]
      by_cases h : b = a
      · rw [if_pos h, if_pos h.symm]
      · rw [if_neg h, if_neg (fun e => h e.symm)]
    · simp only [cget, ih hu hr]
      split
      · subst_vars; simp [hk]
      · rfl

theorem mem_cdel (m : List Host.Cell) (a : Nat) : ∀ e ∈ cdel m a, e.1 ≠ a := by
  induction m with
  | nil => simp [cdel]
  | cons e r ih =>
    obtain ⟨k, w⟩ := e
    simp only [cdel]
    split
    · exact ih
    · intro e he
      rcases List.mem_cons.mp he with rfl | he
      · assumption
      · exact ih e he

/-- A byte read after a write: the byte written at its address, every other byte as before. -/
theorem cget_cset (m : List Host.Cell) (a b : Nat) (v : Byte) : cget (cset m a v) b = if b = a then v else cget m b := by
  unfold cset
  split
  · subst v; exact cget_cdel m a b
  · rw [cget_cins _ _ _ _ (by rw [cget_cdel]; simp) (mem_cdel m a), cget_cdel]
    split <;> rfl

theorem cellsFrom_le (m : List Host.Cell) (lo hi : Nat) (h : lo ≤ hi) (w : cellsFrom m hi = true) :
    cellsFrom m lo = true := by
  cases m with
  | nil => rfl
  | cons e r =>
    simp only [cellsFrom, Bool.and_eq_true, decide_eq_true_eq] at *
    exact ⟨⟨by omega, w.1.2⟩, w.2⟩

/-- Leaving out entries keeps the canonical form. -/
theorem cellsFrom_filter (f : Host.Cell → Bool) : ∀ (m : List Host.Cell) (lo : Nat), cellsFrom m lo = true →
    cellsFrom (m.filter f) lo = true := by
  intro m
  induction m with
  | nil => exact fun _ h => h
  | cons e r ih =>
    intro lo h
    simp only [cellsFrom, Bool.and_eq_true, decide_eq_true_eq] at h
    rw [List.filter_cons]
    split
    · simp only [cellsFrom, Bool.and_eq_true, decide_eq_true_eq]
      exact ⟨h.1, ih _ h.2⟩
    · exact cellsFrom_le _ _ _ (by omega) (ih _ h.2)

theorem cellsFrom_cdel (m : List Host.Cell) (lo a : Nat) (w : cellsFrom m lo = true) : cellsFrom (cdel m a) lo = true := by
  induction m generalizing lo with
  | nil => rfl
  | cons e r ih =>
    obtain ⟨k, v⟩ := e
    simp only [cellsFrom, Bool.and_eq_true, decide_eq_true_eq] at w
    simp only [cdel]
    split
    · exact cellsFrom_le _ _ _ (by omega) (ih _ w.2)
    · simp only [cellsFrom, Bool.and_eq_true, decide_eq_true_eq]
      exact ⟨w.1, ih _ w.2⟩

theorem cellsFrom_cins (m : List Host.Cell) (lo a : Nat) (v : Byte) (hl : lo ≤ a) (hv : v ≠ unlisted)
    (hm : ∀ e ∈ m, e.1 ≠ a) (w : cellsFrom m lo = true) : cellsFrom (cins m a v) lo = true := by
  induction m generalizing lo with
  | nil => simp [cins, cellsFrom, hl, hv]
  | cons e r ih =>
    obtain ⟨k, x⟩ := e
    have hk : k ≠ a := hm (k, x) (by simp)
    have hr : ∀ e ∈ r, e.1 ≠ a := fun e he => hm e (by simp [he])
    simp only [cellsFrom, Bool.and_eq_true, decide_eq_true_eq] at w
    simp only [cins]
    split
    · simp only [cellsFrom, Bool.and_eq_true, decide_eq_true_eq]
      exact ⟨⟨hl, by simpa using hv⟩, ⟨by omega, w.1.2⟩, w.2⟩
    · simp only [cellsFrom, Bool.and_eq_true, decide_eq_true_eq]
      exact ⟨w.1, ih _ (by omega) hr w.2⟩

/-- A write of one byte keeps the canonical form. -/
theorem wf_cset (m : List Host.Cell) (a : Nat) (v : Byte) (w : Memory.wf m = true) : Memory.wf (cset m a v) = true := by
  unfold cset
  split
  · exact cellsFrom_cdel _ _ _ w
  · exact cellsFrom_cins _ _ _ _ (Nat.zero_le _) ‹_› (mem_cdel m a) (cellsFrom_cdel _ _ _ w)

theorem wf_nil : Memory.wf [] = true := rfl

end Sys2Proof.Machine
end

