-- ==== Sys2Proof/Laws/State.lean ====
section
/-! SUPPORT. What each update of one table of State leaves as it is: one lemma per field and update. -/

namespace Sys2Proof.Machine

@[simp] theorem setCore_cur (s : State) (c : Nat) (k : Core) : (setCore s c k).cur = s.cur := rfl
@[simp] theorem setCore_issuing (s : State) (c : Nat) (k : Core) : (setCore s c k).issuing = s.issuing := rfl
@[simp] theorem setCore_waited (s : State) (c : Nat) (k : Core) : (setCore s c k).waited = s.waited := rfl
@[simp] theorem setCore_arg (s : State) (c : Nat) (k : Core) : (setCore s c k).arg = s.arg := rfl
@[simp] theorem setCore_agenda (s : State) (c : Nat) (k : Core) : (setCore s c k).agenda = s.agenda := rfl
@[simp] theorem setCore_timers (s : State) (c : Nat) (k : Core) : (setCore s c k).timers = s.timers := rfl
@[simp] theorem setCore_visit (s : State) (c : Nat) (k : Core) : (setCore s c k).visit = s.visit := rfl
@[simp] theorem setCore_choice (s : State) (c : Nat) (k : Core) : (setCore s c k).choice = s.choice := rfl
@[simp] theorem setCore_serial (s : State) (c : Nat) (k : Core) : (setCore s c k).serial = s.serial := rfl
@[simp] theorem setCore_stc (s : State) (c : Nat) (k : Core) : (setCore s c k).stc = s.stc := rfl
@[simp] theorem setCore_clusters (s : State) (c : Nat) (k : Core) : (setCore s c k).clusters = s.clusters := rfl
@[simp] theorem setCore_strata (s : State) (c : Nat) (k : Core) : (setCore s c k).strata = s.strata := rfl
@[simp] theorem setCore_layers (s : State) (c : Nat) (k : Core) : (setCore s c k).layers = s.layers := rfl
@[simp] theorem setCore_parts (s : State) (c : Nat) (k : Core) : (setCore s c k).parts = s.parts := rfl
@[simp] theorem setCore_hbm (s : State) (c : Nat) (k : Core) : (setCore s c k).hbm = s.hbm := rfl
@[simp] theorem setCore_poison (s : State) (c : Nat) (k : Core) : (setCore s c k).poison = s.poison := rfl
@[simp] theorem setCore_badReads (s : State) (c : Nat) (k : Core) : (setCore s c k).badReads = s.badReads := rfl
@[simp] theorem setCore_fixReads (s : State) (c : Nat) (k : Core) : (setCore s c k).fixReads = s.fixReads := rfl
@[simp] theorem setCore_touched (s : State) (c : Nat) (k : Core) : (setCore s c k).touched = s.touched := rfl
@[simp] theorem setCore_brought (s : State) (c : Nat) (k : Core) : (setCore s c k).brought = s.brought := rfl
@[simp] theorem setCore_stalled (s : State) (c : Nat) (k : Core) : (setCore s c k).stalled = s.stalled := rfl
@[simp] theorem setCore_broken (s : State) (c : Nat) (k : Core) : (setCore s c k).broken = s.broken := rfl
@[simp] theorem setCore_logs (s : State) (c : Nat) (k : Core) : (setCore s c k).logs = s.logs := rfl
@[simp] theorem setCore_unseen (s : State) (c : Nat) (k : Core) : (setCore s c k).unseen = s.unseen := rfl
@[simp] theorem setCore_slots (s : State) (c : Nat) (k : Core) : (setCore s c k).slots = s.slots := rfl
@[simp] theorem setCore_slotWrites (s : State) (c : Nat) (k : Core) : (setCore s c k).slotWrites = s.slotWrites := rfl
@[simp] theorem setCore_air (s : State) (c : Nat) (k : Core) : (setCore s c k).air = s.air := rfl
@[simp] theorem setCore_net (s : State) (c : Nat) (k : Core) : (setCore s c k).net = s.net := rfl
@[simp] theorem setCore_posted (s : State) (c : Nat) (k : Core) : (setCore s c k).posted = s.posted := rfl
@[simp] theorem setCore_engines (s : State) (c : Nat) (k : Core) : (setCore s c k).engines = s.engines := rfl
@[simp] theorem setCore_ports (s : State) (c : Nat) (k : Core) : (setCore s c k).ports = s.ports := rfl
@[simp] theorem setCore_peers (s : State) (c : Nat) (k : Core) : (setCore s c k).peers = s.peers := rfl
@[simp] theorem setCore_routes (s : State) (c : Nat) (k : Core) : (setCore s c k).routes = s.routes := rfl
@[simp] theorem setCore_bqs (s : State) (c : Nat) (k : Core) : (setCore s c k).bqs = s.bqs := rfl
@[simp] theorem setCore_hbms (s : State) (c : Nat) (k : Core) : (setCore s c k).hbms = s.hbms := rfl
@[simp] theorem setCore_persistent (s : State) (c : Nat) (k : Core) : (setCore s c k).persistent = s.persistent := rfl
@[simp] theorem setCore_rowRecord (s : State) (c : Nat) (k : Core) : (setCore s c k).rowRecord = s.rowRecord := rfl
@[simp] theorem setCore_fuses (s : State) (c : Nat) (k : Core) : (setCore s c k).fuses = s.fuses := rfl
@[simp] theorem setCore_modid (s : State) (c : Nat) (k : Core) : (setCore s c k).modid = s.modid := rfl
@[simp] theorem setCore_herr (s : State) (c : Nat) (k : Core) : (setCore s c k).herr = s.herr := rfl
@[simp] theorem setCore_boot (s : State) (c : Nat) (k : Core) : (setCore s c k).boot = s.boot := rfl
@[simp] theorem setCore_attest (s : State) (c : Nat) (k : Core) : (setCore s c k).attest = s.attest := rfl
@[simp] theorem setCore_msix (s : State) (c : Nat) (k : Core) : (setCore s c k).msix = s.msix := rfl
@[simp] theorem setCore_reply (s : State) (c : Nat) (k : Core) : (setCore s c k).reply = s.reply := rfl

@[simp] theorem modCore_cur (s : State) (c : Nat) (f : Core → Core) : (modCore s c f).cur = s.cur := rfl
@[simp] theorem modCore_issuing (s : State) (c : Nat) (f : Core → Core) : (modCore s c f).issuing = s.issuing := rfl
@[simp] theorem modCore_waited (s : State) (c : Nat) (f : Core → Core) : (modCore s c f).waited = s.waited := rfl
@[simp] theorem modCore_arg (s : State) (c : Nat) (f : Core → Core) : (modCore s c f).arg = s.arg := rfl
@[simp] theorem modCore_agenda (s : State) (c : Nat) (f : Core → Core) : (modCore s c f).agenda = s.agenda := rfl
@[simp] theorem modCore_timers (s : State) (c : Nat) (f : Core → Core) : (modCore s c f).timers = s.timers := rfl
@[simp] theorem modCore_visit (s : State) (c : Nat) (f : Core → Core) : (modCore s c f).visit = s.visit := rfl
@[simp] theorem modCore_choice (s : State) (c : Nat) (f : Core → Core) : (modCore s c f).choice = s.choice := rfl
@[simp] theorem modCore_serial (s : State) (c : Nat) (f : Core → Core) : (modCore s c f).serial = s.serial := rfl
@[simp] theorem modCore_stc (s : State) (c : Nat) (f : Core → Core) : (modCore s c f).stc = s.stc := rfl
@[simp] theorem modCore_clusters (s : State) (c : Nat) (f : Core → Core) : (modCore s c f).clusters = s.clusters := rfl
@[simp] theorem modCore_strata (s : State) (c : Nat) (f : Core → Core) : (modCore s c f).strata = s.strata := rfl
@[simp] theorem modCore_layers (s : State) (c : Nat) (f : Core → Core) : (modCore s c f).layers = s.layers := rfl
@[simp] theorem modCore_parts (s : State) (c : Nat) (f : Core → Core) : (modCore s c f).parts = s.parts := rfl
@[simp] theorem modCore_hbm (s : State) (c : Nat) (f : Core → Core) : (modCore s c f).hbm = s.hbm := rfl
@[simp] theorem modCore_poison (s : State) (c : Nat) (f : Core → Core) : (modCore s c f).poison = s.poison := rfl
@[simp] theorem modCore_badReads (s : State) (c : Nat) (f : Core → Core) : (modCore s c f).badReads = s.badReads := rfl
@[simp] theorem modCore_fixReads (s : State) (c : Nat) (f : Core → Core) : (modCore s c f).fixReads = s.fixReads := rfl
@[simp] theorem modCore_touched (s : State) (c : Nat) (f : Core → Core) : (modCore s c f).touched = s.touched := rfl
@[simp] theorem modCore_brought (s : State) (c : Nat) (f : Core → Core) : (modCore s c f).brought = s.brought := rfl
@[simp] theorem modCore_stalled (s : State) (c : Nat) (f : Core → Core) : (modCore s c f).stalled = s.stalled := rfl
@[simp] theorem modCore_broken (s : State) (c : Nat) (f : Core → Core) : (modCore s c f).broken = s.broken := rfl
@[simp] theorem modCore_logs (s : State) (c : Nat) (f : Core → Core) : (modCore s c f).logs = s.logs := rfl
@[simp] theorem modCore_unseen (s : State) (c : Nat) (f : Core → Core) : (modCore s c f).unseen = s.unseen := rfl
@[simp] theorem modCore_slots (s : State) (c : Nat) (f : Core → Core) : (modCore s c f).slots = s.slots := rfl
@[simp] theorem modCore_slotWrites (s : State) (c : Nat) (f : Core → Core) : (modCore s c f).slotWrites = s.slotWrites := rfl
@[simp] theorem modCore_air (s : State) (c : Nat) (f : Core → Core) : (modCore s c f).air = s.air := rfl
@[simp] theorem modCore_net (s : State) (c : Nat) (f : Core → Core) : (modCore s c f).net = s.net := rfl
@[simp] theorem modCore_posted (s : State) (c : Nat) (f : Core → Core) : (modCore s c f).posted = s.posted := rfl
@[simp] theorem modCore_engines (s : State) (c : Nat) (f : Core → Core) : (modCore s c f).engines = s.engines := rfl
@[simp] theorem modCore_ports (s : State) (c : Nat) (f : Core → Core) : (modCore s c f).ports = s.ports := rfl
@[simp] theorem modCore_peers (s : State) (c : Nat) (f : Core → Core) : (modCore s c f).peers = s.peers := rfl
@[simp] theorem modCore_routes (s : State) (c : Nat) (f : Core → Core) : (modCore s c f).routes = s.routes := rfl
@[simp] theorem modCore_bqs (s : State) (c : Nat) (f : Core → Core) : (modCore s c f).bqs = s.bqs := rfl
@[simp] theorem modCore_hbms (s : State) (c : Nat) (f : Core → Core) : (modCore s c f).hbms = s.hbms := rfl
@[simp] theorem modCore_persistent (s : State) (c : Nat) (f : Core → Core) : (modCore s c f).persistent = s.persistent := rfl
@[simp] theorem modCore_rowRecord (s : State) (c : Nat) (f : Core → Core) : (modCore s c f).rowRecord = s.rowRecord := rfl
@[simp] theorem modCore_fuses (s : State) (c : Nat) (f : Core → Core) : (modCore s c f).fuses = s.fuses := rfl
@[simp] theorem modCore_modid (s : State) (c : Nat) (f : Core → Core) : (modCore s c f).modid = s.modid := rfl
@[simp] theorem modCore_herr (s : State) (c : Nat) (f : Core → Core) : (modCore s c f).herr = s.herr := rfl
@[simp] theorem modCore_boot (s : State) (c : Nat) (f : Core → Core) : (modCore s c f).boot = s.boot := rfl
@[simp] theorem modCore_attest (s : State) (c : Nat) (f : Core → Core) : (modCore s c f).attest = s.attest := rfl
@[simp] theorem modCore_msix (s : State) (c : Nat) (f : Core → Core) : (modCore s c f).msix = s.msix := rfl
@[simp] theorem modCore_reply (s : State) (c : Nat) (f : Core → Core) : (modCore s c f).reply = s.reply := rfl

@[simp] theorem modCtx_cur (s : State) (c n : Nat) (f : Ctx → Ctx) : (modCtx s c n f).cur = s.cur := rfl
@[simp] theorem modCtx_issuing (s : State) (c n : Nat) (f : Ctx → Ctx) : (modCtx s c n f).issuing = s.issuing := rfl
@[simp] theorem modCtx_waited (s : State) (c n : Nat) (f : Ctx → Ctx) : (modCtx s c n f).waited = s.waited := rfl
@[simp] theorem modCtx_arg (s : State) (c n : Nat) (f : Ctx → Ctx) : (modCtx s c n f).arg = s.arg := rfl
@[simp] theorem modCtx_agenda (s : State) (c n : Nat) (f : Ctx → Ctx) : (modCtx s c n f).agenda = s.agenda := rfl
@[simp] theorem modCtx_timers (s : State) (c n : Nat) (f : Ctx → Ctx) : (modCtx s c n f).timers = s.timers := rfl
@[simp] theorem modCtx_visit (s : State) (c n : Nat) (f : Ctx → Ctx) : (modCtx s c n f).visit = s.visit := rfl
@[simp] theorem modCtx_choice (s : State) (c n : Nat) (f : Ctx → Ctx) : (modCtx s c n f).choice = s.choice := rfl
@[simp] theorem modCtx_serial (s : State) (c n : Nat) (f : Ctx → Ctx) : (modCtx s c n f).serial = s.serial := rfl
@[simp] theorem modCtx_stc (s : State) (c n : Nat) (f : Ctx → Ctx) : (modCtx s c n f).stc = s.stc := rfl
@[simp] theorem modCtx_clusters (s : State) (c n : Nat) (f : Ctx → Ctx) : (modCtx s c n f).clusters = s.clusters := rfl
@[simp] theorem modCtx_strata (s : State) (c n : Nat) (f : Ctx → Ctx) : (modCtx s c n f).strata = s.strata := rfl
@[simp] theorem modCtx_layers (s : State) (c n : Nat) (f : Ctx → Ctx) : (modCtx s c n f).layers = s.layers := rfl
@[simp] theorem modCtx_parts (s : State) (c n : Nat) (f : Ctx → Ctx) : (modCtx s c n f).parts = s.parts := rfl
@[simp] theorem modCtx_hbm (s : State) (c n : Nat) (f : Ctx → Ctx) : (modCtx s c n f).hbm = s.hbm := rfl
@[simp] theorem modCtx_poison (s : State) (c n : Nat) (f : Ctx → Ctx) : (modCtx s c n f).poison = s.poison := rfl
@[simp] theorem modCtx_badReads (s : State) (c n : Nat) (f : Ctx → Ctx) : (modCtx s c n f).badReads = s.badReads := rfl
@[simp] theorem modCtx_fixReads (s : State) (c n : Nat) (f : Ctx → Ctx) : (modCtx s c n f).fixReads = s.fixReads := rfl
@[simp] theorem modCtx_touched (s : State) (c n : Nat) (f : Ctx → Ctx) : (modCtx s c n f).touched = s.touched := rfl
@[simp] theorem modCtx_brought (s : State) (c n : Nat) (f : Ctx → Ctx) : (modCtx s c n f).brought = s.brought := rfl
@[simp] theorem modCtx_stalled (s : State) (c n : Nat) (f : Ctx → Ctx) : (modCtx s c n f).stalled = s.stalled := rfl
@[simp] theorem modCtx_broken (s : State) (c n : Nat) (f : Ctx → Ctx) : (modCtx s c n f).broken = s.broken := rfl
@[simp] theorem modCtx_logs (s : State) (c n : Nat) (f : Ctx → Ctx) : (modCtx s c n f).logs = s.logs := rfl
@[simp] theorem modCtx_unseen (s : State) (c n : Nat) (f : Ctx → Ctx) : (modCtx s c n f).unseen = s.unseen := rfl
@[simp] theorem modCtx_slots (s : State) (c n : Nat) (f : Ctx → Ctx) : (modCtx s c n f).slots = s.slots := rfl
@[simp] theorem modCtx_slotWrites (s : State) (c n : Nat) (f : Ctx → Ctx) : (modCtx s c n f).slotWrites = s.slotWrites := rfl
@[simp] theorem modCtx_air (s : State) (c n : Nat) (f : Ctx → Ctx) : (modCtx s c n f).air = s.air := rfl
@[simp] theorem modCtx_net (s : State) (c n : Nat) (f : Ctx → Ctx) : (modCtx s c n f).net = s.net := rfl
@[simp] theorem modCtx_posted (s : State) (c n : Nat) (f : Ctx → Ctx) : (modCtx s c n f).posted = s.posted := rfl
@[simp] theorem modCtx_engines (s : State) (c n : Nat) (f : Ctx → Ctx) : (modCtx s c n f).engines = s.engines := rfl
@[simp] theorem modCtx_ports (s : State) (c n : Nat) (f : Ctx → Ctx) : (modCtx s c n f).ports = s.ports := rfl
@[simp] theorem modCtx_peers (s : State) (c n : Nat) (f : Ctx → Ctx) : (modCtx s c n f).peers = s.peers := rfl
@[simp] theorem modCtx_routes (s : State) (c n : Nat) (f : Ctx → Ctx) : (modCtx s c n f).routes = s.routes := rfl
@[simp] theorem modCtx_bqs (s : State) (c n : Nat) (f : Ctx → Ctx) : (modCtx s c n f).bqs = s.bqs := rfl
@[simp] theorem modCtx_hbms (s : State) (c n : Nat) (f : Ctx → Ctx) : (modCtx s c n f).hbms = s.hbms := rfl
@[simp] theorem modCtx_persistent (s : State) (c n : Nat) (f : Ctx → Ctx) : (modCtx s c n f).persistent = s.persistent := rfl
@[simp] theorem modCtx_rowRecord (s : State) (c n : Nat) (f : Ctx → Ctx) : (modCtx s c n f).rowRecord = s.rowRecord := rfl
@[simp] theorem modCtx_fuses (s : State) (c n : Nat) (f : Ctx → Ctx) : (modCtx s c n f).fuses = s.fuses := rfl
@[simp] theorem modCtx_modid (s : State) (c n : Nat) (f : Ctx → Ctx) : (modCtx s c n f).modid = s.modid := rfl
@[simp] theorem modCtx_herr (s : State) (c n : Nat) (f : Ctx → Ctx) : (modCtx s c n f).herr = s.herr := rfl
@[simp] theorem modCtx_boot (s : State) (c n : Nat) (f : Ctx → Ctx) : (modCtx s c n f).boot = s.boot := rfl
@[simp] theorem modCtx_attest (s : State) (c n : Nat) (f : Ctx → Ctx) : (modCtx s c n f).attest = s.attest := rfl
@[simp] theorem modCtx_msix (s : State) (c n : Nat) (f : Ctx → Ctx) : (modCtx s c n f).msix = s.msix := rfl
@[simp] theorem modCtx_reply (s : State) (c n : Nat) (f : Ctx → Ctx) : (modCtx s c n f).reply = s.reply := rfl

@[simp] theorem modMe_cur (s : State) (f : Ctx → Ctx) : (modMe s f).cur = s.cur := rfl
@[simp] theorem modMe_issuing (s : State) (f : Ctx → Ctx) : (modMe s f).issuing = s.issuing := rfl
@[simp] theorem modMe_waited (s : State) (f : Ctx → Ctx) : (modMe s f).waited = s.waited := rfl
@[simp] theorem modMe_arg (s : State) (f : Ctx → Ctx) : (modMe s f).arg = s.arg := rfl
@[simp] theorem modMe_agenda (s : State) (f : Ctx → Ctx) : (modMe s f).agenda = s.agenda := rfl
@[simp] theorem modMe_timers (s : State) (f : Ctx → Ctx) : (modMe s f).timers = s.timers := rfl
@[simp] theorem modMe_visit (s : State) (f : Ctx → Ctx) : (modMe s f).visit = s.visit := rfl
@[simp] theorem modMe_choice (s : State) (f : Ctx → Ctx) : (modMe s f).choice = s.choice := rfl
@[simp] theorem modMe_serial (s : State) (f : Ctx → Ctx) : (modMe s f).serial = s.serial := rfl
@[simp] theorem modMe_stc (s : State) (f : Ctx → Ctx) : (modMe s f).stc = s.stc := rfl
@[simp] theorem modMe_clusters (s : State) (f : Ctx → Ctx) : (modMe s f).clusters = s.clusters := rfl
@[simp] theorem modMe_strata (s : State) (f : Ctx → Ctx) : (modMe s f).strata = s.strata := rfl
@[simp] theorem modMe_layers (s : State) (f : Ctx → Ctx) : (modMe s f).layers = s.layers := rfl
@[simp] theorem modMe_parts (s : State) (f : Ctx → Ctx) : (modMe s f).parts = s.parts := rfl
@[simp] theorem modMe_hbm (s : State) (f : Ctx → Ctx) : (modMe s f).hbm = s.hbm := rfl
@[simp] theorem modMe_poison (s : State) (f : Ctx → Ctx) : (modMe s f).poison = s.poison := rfl
@[simp] theorem modMe_badReads (s : State) (f : Ctx → Ctx) : (modMe s f).badReads = s.badReads := rfl
@[simp] theorem modMe_fixReads (s : State) (f : Ctx → Ctx) : (modMe s f).fixReads = s.fixReads := rfl
@[simp] theorem modMe_touched (s : State) (f : Ctx → Ctx) : (modMe s f).touched = s.touched := rfl
@[simp] theorem modMe_brought (s : State) (f : Ctx → Ctx) : (modMe s f).brought = s.brought := rfl
@[simp] theorem modMe_stalled (s : State) (f : Ctx → Ctx) : (modMe s f).stalled = s.stalled := rfl
@[simp] theorem modMe_broken (s : State) (f : Ctx → Ctx) : (modMe s f).broken = s.broken := rfl
@[simp] theorem modMe_logs (s : State) (f : Ctx → Ctx) : (modMe s f).logs = s.logs := rfl
@[simp] theorem modMe_unseen (s : State) (f : Ctx → Ctx) : (modMe s f).unseen = s.unseen := rfl
@[simp] theorem modMe_slots (s : State) (f : Ctx → Ctx) : (modMe s f).slots = s.slots := rfl
@[simp] theorem modMe_slotWrites (s : State) (f : Ctx → Ctx) : (modMe s f).slotWrites = s.slotWrites := rfl
@[simp] theorem modMe_air (s : State) (f : Ctx → Ctx) : (modMe s f).air = s.air := rfl
@[simp] theorem modMe_net (s : State) (f : Ctx → Ctx) : (modMe s f).net = s.net := rfl
@[simp] theorem modMe_posted (s : State) (f : Ctx → Ctx) : (modMe s f).posted = s.posted := rfl
@[simp] theorem modMe_engines (s : State) (f : Ctx → Ctx) : (modMe s f).engines = s.engines := rfl
@[simp] theorem modMe_ports (s : State) (f : Ctx → Ctx) : (modMe s f).ports = s.ports := rfl
@[simp] theorem modMe_peers (s : State) (f : Ctx → Ctx) : (modMe s f).peers = s.peers := rfl
@[simp] theorem modMe_routes (s : State) (f : Ctx → Ctx) : (modMe s f).routes = s.routes := rfl
@[simp] theorem modMe_bqs (s : State) (f : Ctx → Ctx) : (modMe s f).bqs = s.bqs := rfl
@[simp] theorem modMe_hbms (s : State) (f : Ctx → Ctx) : (modMe s f).hbms = s.hbms := rfl
@[simp] theorem modMe_persistent (s : State) (f : Ctx → Ctx) : (modMe s f).persistent = s.persistent := rfl
@[simp] theorem modMe_rowRecord (s : State) (f : Ctx → Ctx) : (modMe s f).rowRecord = s.rowRecord := rfl
@[simp] theorem modMe_fuses (s : State) (f : Ctx → Ctx) : (modMe s f).fuses = s.fuses := rfl
@[simp] theorem modMe_modid (s : State) (f : Ctx → Ctx) : (modMe s f).modid = s.modid := rfl
@[simp] theorem modMe_herr (s : State) (f : Ctx → Ctx) : (modMe s f).herr = s.herr := rfl
@[simp] theorem modMe_boot (s : State) (f : Ctx → Ctx) : (modMe s f).boot = s.boot := rfl
@[simp] theorem modMe_attest (s : State) (f : Ctx → Ctx) : (modMe s f).attest = s.attest := rfl
@[simp] theorem modMe_msix (s : State) (f : Ctx → Ctx) : (modMe s f).msix = s.msix := rfl
@[simp] theorem modMe_reply (s : State) (f : Ctx → Ctx) : (modMe s f).reply = s.reply := rfl

@[simp] theorem modRegs_cur (s : State) (f : Regs → Regs) : (modRegs s f).cur = s.cur := rfl
@[simp] theorem modRegs_issuing (s : State) (f : Regs → Regs) : (modRegs s f).issuing = s.issuing := rfl
@[simp] theorem modRegs_waited (s : State) (f : Regs → Regs) : (modRegs s f).waited = s.waited := rfl
@[simp] theorem modRegs_arg (s : State) (f : Regs → Regs) : (modRegs s f).arg = s.arg := rfl
@[simp] theorem modRegs_agenda (s : State) (f : Regs → Regs) : (modRegs s f).agenda = s.agenda := rfl
@[simp] theorem modRegs_timers (s : State) (f : Regs → Regs) : (modRegs s f).timers = s.timers := rfl
@[simp] theorem modRegs_visit (s : State) (f : Regs → Regs) : (modRegs s f).visit = s.visit := rfl
@[simp] theorem modRegs_choice (s : State) (f : Regs → Regs) : (modRegs s f).choice = s.choice := rfl
@[simp] theorem modRegs_serial (s : State) (f : Regs → Regs) : (modRegs s f).serial = s.serial := rfl
@[simp] theorem modRegs_stc (s : State) (f : Regs → Regs) : (modRegs s f).stc = s.stc := rfl
@[simp] theorem modRegs_clusters (s : State) (f : Regs → Regs) : (modRegs s f).clusters = s.clusters := rfl
@[simp] theorem modRegs_strata (s : State) (f : Regs → Regs) : (modRegs s f).strata = s.strata := rfl
@[simp] theorem modRegs_layers (s : State) (f : Regs → Regs) : (modRegs s f).layers = s.layers := rfl
@[simp] theorem modRegs_parts (s : State) (f : Regs → Regs) : (modRegs s f).parts = s.parts := rfl
@[simp] theorem modRegs_hbm (s : State) (f : Regs → Regs) : (modRegs s f).hbm = s.hbm := rfl
@[simp] theorem modRegs_poison (s : State) (f : Regs → Regs) : (modRegs s f).poison = s.poison := rfl
@[simp] theorem modRegs_badReads (s : State) (f : Regs → Regs) : (modRegs s f).badReads = s.badReads := rfl
@[simp] theorem modRegs_fixReads (s : State) (f : Regs → Regs) : (modRegs s f).fixReads = s.fixReads := rfl
@[simp] theorem modRegs_touched (s : State) (f : Regs → Regs) : (modRegs s f).touched = s.touched := rfl
@[simp] theorem modRegs_brought (s : State) (f : Regs → Regs) : (modRegs s f).brought = s.brought := rfl
@[simp] theorem modRegs_stalled (s : State) (f : Regs → Regs) : (modRegs s f).stalled = s.stalled := rfl
@[simp] theorem modRegs_broken (s : State) (f : Regs → Regs) : (modRegs s f).broken = s.broken := rfl
@[simp] theorem modRegs_logs (s : State) (f : Regs → Regs) : (modRegs s f).logs = s.logs := rfl
@[simp] theorem modRegs_unseen (s : State) (f : Regs → Regs) : (modRegs s f).unseen = s.unseen := rfl
@[simp] theorem modRegs_slots (s : State) (f : Regs → Regs) : (modRegs s f).slots = s.slots := rfl
@[simp] theorem modRegs_slotWrites (s : State) (f : Regs → Regs) : (modRegs s f).slotWrites = s.slotWrites := rfl
@[simp] theorem modRegs_air (s : State) (f : Regs → Regs) : (modRegs s f).air = s.air := rfl
@[simp] theorem modRegs_net (s : State) (f : Regs → Regs) : (modRegs s f).net = s.net := rfl
@[simp] theorem modRegs_posted (s : State) (f : Regs → Regs) : (modRegs s f).posted = s.posted := rfl
@[simp] theorem modRegs_engines (s : State) (f : Regs → Regs) : (modRegs s f).engines = s.engines := rfl
@[simp] theorem modRegs_ports (s : State) (f : Regs → Regs) : (modRegs s f).ports = s.ports := rfl
@[simp] theorem modRegs_peers (s : State) (f : Regs → Regs) : (modRegs s f).peers = s.peers := rfl
@[simp] theorem modRegs_routes (s : State) (f : Regs → Regs) : (modRegs s f).routes = s.routes := rfl
@[simp] theorem modRegs_bqs (s : State) (f : Regs → Regs) : (modRegs s f).bqs = s.bqs := rfl
@[simp] theorem modRegs_hbms (s : State) (f : Regs → Regs) : (modRegs s f).hbms = s.hbms := rfl
@[simp] theorem modRegs_persistent (s : State) (f : Regs → Regs) : (modRegs s f).persistent = s.persistent := rfl
@[simp] theorem modRegs_rowRecord (s : State) (f : Regs → Regs) : (modRegs s f).rowRecord = s.rowRecord := rfl
@[simp] theorem modRegs_fuses (s : State) (f : Regs → Regs) : (modRegs s f).fuses = s.fuses := rfl
@[simp] theorem modRegs_modid (s : State) (f : Regs → Regs) : (modRegs s f).modid = s.modid := rfl
@[simp] theorem modRegs_herr (s : State) (f : Regs → Regs) : (modRegs s f).herr = s.herr := rfl
@[simp] theorem modRegs_boot (s : State) (f : Regs → Regs) : (modRegs s f).boot = s.boot := rfl
@[simp] theorem modRegs_attest (s : State) (f : Regs → Regs) : (modRegs s f).attest = s.attest := rfl
@[simp] theorem modRegs_msix (s : State) (f : Regs → Regs) : (modRegs s f).msix = s.msix := rfl
@[simp] theorem modRegs_reply (s : State) (f : Regs → Regs) : (modRegs s f).reply = s.reply := rfl

@[simp] theorem modMyCore_cur (s : State) (f : Core → Core) : (modMyCore s f).cur = s.cur := rfl
@[simp] theorem modMyCore_issuing (s : State) (f : Core → Core) : (modMyCore s f).issuing = s.issuing := rfl
@[simp] theorem modMyCore_waited (s : State) (f : Core → Core) : (modMyCore s f).waited = s.waited := rfl
@[simp] theorem modMyCore_arg (s : State) (f : Core → Core) : (modMyCore s f).arg = s.arg := rfl
@[simp] theorem modMyCore_agenda (s : State) (f : Core → Core) : (modMyCore s f).agenda = s.agenda := rfl
@[simp] theorem modMyCore_timers (s : State) (f : Core → Core) : (modMyCore s f).timers = s.timers := rfl
@[simp] theorem modMyCore_visit (s : State) (f : Core → Core) : (modMyCore s f).visit = s.visit := rfl
@[simp] theorem modMyCore_choice (s : State) (f : Core → Core) : (modMyCore s f).choice = s.choice := rfl
@[simp] theorem modMyCore_serial (s : State) (f : Core → Core) : (modMyCore s f).serial = s.serial := rfl
@[simp] theorem modMyCore_stc (s : State) (f : Core → Core) : (modMyCore s f).stc = s.stc := rfl
@[simp] theorem modMyCore_clusters (s : State) (f : Core → Core) : (modMyCore s f).clusters = s.clusters := rfl
@[simp] theorem modMyCore_strata (s : State) (f : Core → Core) : (modMyCore s f).strata = s.strata := rfl
@[simp] theorem modMyCore_layers (s : State) (f : Core → Core) : (modMyCore s f).layers = s.layers := rfl
@[simp] theorem modMyCore_parts (s : State) (f : Core → Core) : (modMyCore s f).parts = s.parts := rfl
@[simp] theorem modMyCore_hbm (s : State) (f : Core → Core) : (modMyCore s f).hbm = s.hbm := rfl
@[simp] theorem modMyCore_poison (s : State) (f : Core → Core) : (modMyCore s f).poison = s.poison := rfl
@[simp] theorem modMyCore_badReads (s : State) (f : Core → Core) : (modMyCore s f).badReads = s.badReads := rfl
@[simp] theorem modMyCore_fixReads (s : State) (f : Core → Core) : (modMyCore s f).fixReads = s.fixReads := rfl
@[simp] theorem modMyCore_touched (s : State) (f : Core → Core) : (modMyCore s f).touched = s.touched := rfl
@[simp] theorem modMyCore_brought (s : State) (f : Core → Core) : (modMyCore s f).brought = s.brought := rfl
@[simp] theorem modMyCore_stalled (s : State) (f : Core → Core) : (modMyCore s f).stalled = s.stalled := rfl
@[simp] theorem modMyCore_broken (s : State) (f : Core → Core) : (modMyCore s f).broken = s.broken := rfl
@[simp] theorem modMyCore_logs (s : State) (f : Core → Core) : (modMyCore s f).logs = s.logs := rfl
@[simp] theorem modMyCore_unseen (s : State) (f : Core → Core) : (modMyCore s f).unseen = s.unseen := rfl
@[simp] theorem modMyCore_slots (s : State) (f : Core → Core) : (modMyCore s f).slots = s.slots := rfl
@[simp] theorem modMyCore_slotWrites (s : State) (f : Core → Core) : (modMyCore s f).slotWrites = s.slotWrites := rfl
@[simp] theorem modMyCore_air (s : State) (f : Core → Core) : (modMyCore s f).air = s.air := rfl
@[simp] theorem modMyCore_net (s : State) (f : Core → Core) : (modMyCore s f).net = s.net := rfl
@[simp] theorem modMyCore_posted (s : State) (f : Core → Core) : (modMyCore s f).posted = s.posted := rfl
@[simp] theorem modMyCore_engines (s : State) (f : Core → Core) : (modMyCore s f).engines = s.engines := rfl
@[simp] theorem modMyCore_ports (s : State) (f : Core → Core) : (modMyCore s f).ports = s.ports := rfl
@[simp] theorem modMyCore_peers (s : State) (f : Core → Core) : (modMyCore s f).peers = s.peers := rfl
@[simp] theorem modMyCore_routes (s : State) (f : Core → Core) : (modMyCore s f).routes = s.routes := rfl
@[simp] theorem modMyCore_bqs (s : State) (f : Core → Core) : (modMyCore s f).bqs = s.bqs := rfl
@[simp] theorem modMyCore_hbms (s : State) (f : Core → Core) : (modMyCore s f).hbms = s.hbms := rfl
@[simp] theorem modMyCore_persistent (s : State) (f : Core → Core) : (modMyCore s f).persistent = s.persistent := rfl
@[simp] theorem modMyCore_rowRecord (s : State) (f : Core → Core) : (modMyCore s f).rowRecord = s.rowRecord := rfl
@[simp] theorem modMyCore_fuses (s : State) (f : Core → Core) : (modMyCore s f).fuses = s.fuses := rfl
@[simp] theorem modMyCore_modid (s : State) (f : Core → Core) : (modMyCore s f).modid = s.modid := rfl
@[simp] theorem modMyCore_herr (s : State) (f : Core → Core) : (modMyCore s f).herr = s.herr := rfl
@[simp] theorem modMyCore_boot (s : State) (f : Core → Core) : (modMyCore s f).boot = s.boot := rfl
@[simp] theorem modMyCore_attest (s : State) (f : Core → Core) : (modMyCore s f).attest = s.attest := rfl
@[simp] theorem modMyCore_msix (s : State) (f : Core → Core) : (modMyCore s f).msix = s.msix := rfl
@[simp] theorem modMyCore_reply (s : State) (f : Core → Core) : (modMyCore s f).reply = s.reply := rfl

@[simp] theorem modPart_cur (s : State) (p : Nat) (f : Partition → Partition) : (modPart s p f).cur = s.cur := rfl
@[simp] theorem modPart_issuing (s : State) (p : Nat) (f : Partition → Partition) : (modPart s p f).issuing = s.issuing := rfl
@[simp] theorem modPart_waited (s : State) (p : Nat) (f : Partition → Partition) : (modPart s p f).waited = s.waited := rfl
@[simp] theorem modPart_arg (s : State) (p : Nat) (f : Partition → Partition) : (modPart s p f).arg = s.arg := rfl
@[simp] theorem modPart_agenda (s : State) (p : Nat) (f : Partition → Partition) : (modPart s p f).agenda = s.agenda := rfl
@[simp] theorem modPart_timers (s : State) (p : Nat) (f : Partition → Partition) : (modPart s p f).timers = s.timers := rfl
@[simp] theorem modPart_visit (s : State) (p : Nat) (f : Partition → Partition) : (modPart s p f).visit = s.visit := rfl
@[simp] theorem modPart_choice (s : State) (p : Nat) (f : Partition → Partition) : (modPart s p f).choice = s.choice := rfl
@[simp] theorem modPart_serial (s : State) (p : Nat) (f : Partition → Partition) : (modPart s p f).serial = s.serial := rfl
@[simp] theorem modPart_stc (s : State) (p : Nat) (f : Partition → Partition) : (modPart s p f).stc = s.stc := rfl
@[simp] theorem modPart_cores (s : State) (p : Nat) (f : Partition → Partition) : (modPart s p f).cores = s.cores := rfl
@[simp] theorem modPart_clusters (s : State) (p : Nat) (f : Partition → Partition) : (modPart s p f).clusters = s.clusters := rfl
@[simp] theorem modPart_strata (s : State) (p : Nat) (f : Partition → Partition) : (modPart s p f).strata = s.strata := rfl
@[simp] theorem modPart_layers (s : State) (p : Nat) (f : Partition → Partition) : (modPart s p f).layers = s.layers := rfl
@[simp] theorem modPart_hbm (s : State) (p : Nat) (f : Partition → Partition) : (modPart s p f).hbm = s.hbm := rfl
@[simp] theorem modPart_poison (s : State) (p : Nat) (f : Partition → Partition) : (modPart s p f).poison = s.poison := rfl
@[simp] theorem modPart_badReads (s : State) (p : Nat) (f : Partition → Partition) : (modPart s p f).badReads = s.badReads := rfl
@[simp] theorem modPart_fixReads (s : State) (p : Nat) (f : Partition → Partition) : (modPart s p f).fixReads = s.fixReads := rfl
@[simp] theorem modPart_touched (s : State) (p : Nat) (f : Partition → Partition) : (modPart s p f).touched = s.touched := rfl
@[simp] theorem modPart_brought (s : State) (p : Nat) (f : Partition → Partition) : (modPart s p f).brought = s.brought := rfl
@[simp] theorem modPart_stalled (s : State) (p : Nat) (f : Partition → Partition) : (modPart s p f).stalled = s.stalled := rfl
@[simp] theorem modPart_broken (s : State) (p : Nat) (f : Partition → Partition) : (modPart s p f).broken = s.broken := rfl
@[simp] theorem modPart_logs (s : State) (p : Nat) (f : Partition → Partition) : (modPart s p f).logs = s.logs := rfl
@[simp] theorem modPart_unseen (s : State) (p : Nat) (f : Partition → Partition) : (modPart s p f).unseen = s.unseen := rfl
@[simp] theorem modPart_slots (s : State) (p : Nat) (f : Partition → Partition) : (modPart s p f).slots = s.slots := rfl
@[simp] theorem modPart_slotWrites (s : State) (p : Nat) (f : Partition → Partition) : (modPart s p f).slotWrites = s.slotWrites := rfl
@[simp] theorem modPart_air (s : State) (p : Nat) (f : Partition → Partition) : (modPart s p f).air = s.air := rfl
@[simp] theorem modPart_net (s : State) (p : Nat) (f : Partition → Partition) : (modPart s p f).net = s.net := rfl
@[simp] theorem modPart_posted (s : State) (p : Nat) (f : Partition → Partition) : (modPart s p f).posted = s.posted := rfl
@[simp] theorem modPart_engines (s : State) (p : Nat) (f : Partition → Partition) : (modPart s p f).engines = s.engines := rfl
@[simp] theorem modPart_ports (s : State) (p : Nat) (f : Partition → Partition) : (modPart s p f).ports = s.ports := rfl
@[simp] theorem modPart_peers (s : State) (p : Nat) (f : Partition → Partition) : (modPart s p f).peers = s.peers := rfl
@[simp] theorem modPart_routes (s : State) (p : Nat) (f : Partition → Partition) : (modPart s p f).routes = s.routes := rfl
@[simp] theorem modPart_bqs (s : State) (p : Nat) (f : Partition → Partition) : (modPart s p f).bqs = s.bqs := rfl
@[simp] theorem modPart_hbms (s : State) (p : Nat) (f : Partition → Partition) : (modPart s p f).hbms = s.hbms := rfl
@[simp] theorem modPart_persistent (s : State) (p : Nat) (f : Partition → Partition) : (modPart s p f).persistent = s.persistent := rfl
@[simp] theorem modPart_rowRecord (s : State) (p : Nat) (f : Partition → Partition) : (modPart s p f).rowRecord = s.rowRecord := rfl
@[simp] theorem modPart_fuses (s : State) (p : Nat) (f : Partition → Partition) : (modPart s p f).fuses = s.fuses := rfl
@[simp] theorem modPart_modid (s : State) (p : Nat) (f : Partition → Partition) : (modPart s p f).modid = s.modid := rfl
@[simp] theorem modPart_herr (s : State) (p : Nat) (f : Partition → Partition) : (modPart s p f).herr = s.herr := rfl
@[simp] theorem modPart_boot (s : State) (p : Nat) (f : Partition → Partition) : (modPart s p f).boot = s.boot := rfl
@[simp] theorem modPart_attest (s : State) (p : Nat) (f : Partition → Partition) : (modPart s p f).attest = s.attest := rfl
@[simp] theorem modPart_msix (s : State) (p : Nat) (f : Partition → Partition) : (modPart s p f).msix = s.msix := rfl
@[simp] theorem modPart_reply (s : State) (p : Nat) (f : Partition → Partition) : (modPart s p f).reply = s.reply := rfl

@[simp] theorem modLayer_cur (s : State) (l : Nat) (f : Layer → Layer) : (modLayer s l f).cur = s.cur := rfl
@[simp] theorem modLayer_issuing (s : State) (l : Nat) (f : Layer → Layer) : (modLayer s l f).issuing = s.issuing := rfl
@[simp] theorem modLayer_waited (s : State) (l : Nat) (f : Layer → Layer) : (modLayer s l f).waited = s.waited := rfl
@[simp] theorem modLayer_arg (s : State) (l : Nat) (f : Layer → Layer) : (modLayer s l f).arg = s.arg := rfl
@[simp] theorem modLayer_agenda (s : State) (l : Nat) (f : Layer → Layer) : (modLayer s l f).agenda = s.agenda := rfl
@[simp] theorem modLayer_timers (s : State) (l : Nat) (f : Layer → Layer) : (modLayer s l f).timers = s.timers := rfl
@[simp] theorem modLayer_visit (s : State) (l : Nat) (f : Layer → Layer) : (modLayer s l f).visit = s.visit := rfl
@[simp] theorem modLayer_choice (s : State) (l : Nat) (f : Layer → Layer) : (modLayer s l f).choice = s.choice := rfl
@[simp] theorem modLayer_serial (s : State) (l : Nat) (f : Layer → Layer) : (modLayer s l f).serial = s.serial := rfl
@[simp] theorem modLayer_stc (s : State) (l : Nat) (f : Layer → Layer) : (modLayer s l f).stc = s.stc := rfl
@[simp] theorem modLayer_cores (s : State) (l : Nat) (f : Layer → Layer) : (modLayer s l f).cores = s.cores := rfl
@[simp] theorem modLayer_clusters (s : State) (l : Nat) (f : Layer → Layer) : (modLayer s l f).clusters = s.clusters := rfl
@[simp] theorem modLayer_strata (s : State) (l : Nat) (f : Layer → Layer) : (modLayer s l f).strata = s.strata := rfl
@[simp] theorem modLayer_parts (s : State) (l : Nat) (f : Layer → Layer) : (modLayer s l f).parts = s.parts := rfl
@[simp] theorem modLayer_hbm (s : State) (l : Nat) (f : Layer → Layer) : (modLayer s l f).hbm = s.hbm := rfl
@[simp] theorem modLayer_poison (s : State) (l : Nat) (f : Layer → Layer) : (modLayer s l f).poison = s.poison := rfl
@[simp] theorem modLayer_badReads (s : State) (l : Nat) (f : Layer → Layer) : (modLayer s l f).badReads = s.badReads := rfl
@[simp] theorem modLayer_fixReads (s : State) (l : Nat) (f : Layer → Layer) : (modLayer s l f).fixReads = s.fixReads := rfl
@[simp] theorem modLayer_touched (s : State) (l : Nat) (f : Layer → Layer) : (modLayer s l f).touched = s.touched := rfl
@[simp] theorem modLayer_brought (s : State) (l : Nat) (f : Layer → Layer) : (modLayer s l f).brought = s.brought := rfl
@[simp] theorem modLayer_stalled (s : State) (l : Nat) (f : Layer → Layer) : (modLayer s l f).stalled = s.stalled := rfl
@[simp] theorem modLayer_broken (s : State) (l : Nat) (f : Layer → Layer) : (modLayer s l f).broken = s.broken := rfl
@[simp] theorem modLayer_logs (s : State) (l : Nat) (f : Layer → Layer) : (modLayer s l f).logs = s.logs := rfl
@[simp] theorem modLayer_unseen (s : State) (l : Nat) (f : Layer → Layer) : (modLayer s l f).unseen = s.unseen := rfl
@[simp] theorem modLayer_slots (s : State) (l : Nat) (f : Layer → Layer) : (modLayer s l f).slots = s.slots := rfl
@[simp] theorem modLayer_slotWrites (s : State) (l : Nat) (f : Layer → Layer) : (modLayer s l f).slotWrites = s.slotWrites := rfl
@[simp] theorem modLayer_air (s : State) (l : Nat) (f : Layer → Layer) : (modLayer s l f).air = s.air := rfl
@[simp] theorem modLayer_net (s : State) (l : Nat) (f : Layer → Layer) : (modLayer s l f).net = s.net := rfl
@[simp] theorem modLayer_posted (s : State) (l : Nat) (f : Layer → Layer) : (modLayer s l f).posted = s.posted := rfl
@[simp] theorem modLayer_engines (s : State) (l : Nat) (f : Layer → Layer) : (modLayer s l f).engines = s.engines := rfl
@[simp] theorem modLayer_ports (s : State) (l : Nat) (f : Layer → Layer) : (modLayer s l f).ports = s.ports := rfl
@[simp] theorem modLayer_peers (s : State) (l : Nat) (f : Layer → Layer) : (modLayer s l f).peers = s.peers := rfl
@[simp] theorem modLayer_routes (s : State) (l : Nat) (f : Layer → Layer) : (modLayer s l f).routes = s.routes := rfl
@[simp] theorem modLayer_bqs (s : State) (l : Nat) (f : Layer → Layer) : (modLayer s l f).bqs = s.bqs := rfl
@[simp] theorem modLayer_hbms (s : State) (l : Nat) (f : Layer → Layer) : (modLayer s l f).hbms = s.hbms := rfl
@[simp] theorem modLayer_persistent (s : State) (l : Nat) (f : Layer → Layer) : (modLayer s l f).persistent = s.persistent := rfl
@[simp] theorem modLayer_rowRecord (s : State) (l : Nat) (f : Layer → Layer) : (modLayer s l f).rowRecord = s.rowRecord := rfl
@[simp] theorem modLayer_fuses (s : State) (l : Nat) (f : Layer → Layer) : (modLayer s l f).fuses = s.fuses := rfl
@[simp] theorem modLayer_modid (s : State) (l : Nat) (f : Layer → Layer) : (modLayer s l f).modid = s.modid := rfl
@[simp] theorem modLayer_herr (s : State) (l : Nat) (f : Layer → Layer) : (modLayer s l f).herr = s.herr := rfl
@[simp] theorem modLayer_boot (s : State) (l : Nat) (f : Layer → Layer) : (modLayer s l f).boot = s.boot := rfl
@[simp] theorem modLayer_attest (s : State) (l : Nat) (f : Layer → Layer) : (modLayer s l f).attest = s.attest := rfl
@[simp] theorem modLayer_msix (s : State) (l : Nat) (f : Layer → Layer) : (modLayer s l f).msix = s.msix := rfl
@[simp] theorem modLayer_reply (s : State) (l : Nat) (f : Layer → Layer) : (modLayer s l f).reply = s.reply := rfl

@[simp] theorem modStratum_cur (s : State) (z : Nat) (f : Stratum → Stratum) : (modStratum s z f).cur = s.cur := rfl
@[simp] theorem modStratum_issuing (s : State) (z : Nat) (f : Stratum → Stratum) : (modStratum s z f).issuing = s.issuing := rfl
@[simp] theorem modStratum_waited (s : State) (z : Nat) (f : Stratum → Stratum) : (modStratum s z f).waited = s.waited := rfl
@[simp] theorem modStratum_arg (s : State) (z : Nat) (f : Stratum → Stratum) : (modStratum s z f).arg = s.arg := rfl
@[simp] theorem modStratum_agenda (s : State) (z : Nat) (f : Stratum → Stratum) : (modStratum s z f).agenda = s.agenda := rfl
@[simp] theorem modStratum_timers (s : State) (z : Nat) (f : Stratum → Stratum) : (modStratum s z f).timers = s.timers := rfl
@[simp] theorem modStratum_visit (s : State) (z : Nat) (f : Stratum → Stratum) : (modStratum s z f).visit = s.visit := rfl
@[simp] theorem modStratum_choice (s : State) (z : Nat) (f : Stratum → Stratum) : (modStratum s z f).choice = s.choice := rfl
@[simp] theorem modStratum_serial (s : State) (z : Nat) (f : Stratum → Stratum) : (modStratum s z f).serial = s.serial := rfl
@[simp] theorem modStratum_stc (s : State) (z : Nat) (f : Stratum → Stratum) : (modStratum s z f).stc = s.stc := rfl
@[simp] theorem modStratum_cores (s : State) (z : Nat) (f : Stratum → Stratum) : (modStratum s z f).cores = s.cores := rfl
@[simp] theorem modStratum_clusters (s : State) (z : Nat) (f : Stratum → Stratum) : (modStratum s z f).clusters = s.clusters := rfl
@[simp] theorem modStratum_layers (s : State) (z : Nat) (f : Stratum → Stratum) : (modStratum s z f).layers = s.layers := rfl
@[simp] theorem modStratum_parts (s : State) (z : Nat) (f : Stratum → Stratum) : (modStratum s z f).parts = s.parts := rfl
@[simp] theorem modStratum_hbm (s : State) (z : Nat) (f : Stratum → Stratum) : (modStratum s z f).hbm = s.hbm := rfl
@[simp] theorem modStratum_poison (s : State) (z : Nat) (f : Stratum → Stratum) : (modStratum s z f).poison = s.poison := rfl
@[simp] theorem modStratum_badReads (s : State) (z : Nat) (f : Stratum → Stratum) : (modStratum s z f).badReads = s.badReads := rfl
@[simp] theorem modStratum_fixReads (s : State) (z : Nat) (f : Stratum → Stratum) : (modStratum s z f).fixReads = s.fixReads := rfl
@[simp] theorem modStratum_touched (s : State) (z : Nat) (f : Stratum → Stratum) : (modStratum s z f).touched = s.touched := rfl
@[simp] theorem modStratum_brought (s : State) (z : Nat) (f : Stratum → Stratum) : (modStratum s z f).brought = s.brought := rfl
@[simp] theorem modStratum_stalled (s : State) (z : Nat) (f : Stratum → Stratum) : (modStratum s z f).stalled = s.stalled := rfl
@[simp] theorem modStratum_broken (s : State) (z : Nat) (f : Stratum → Stratum) : (modStratum s z f).broken = s.broken := rfl
@[simp] theorem modStratum_logs (s : State) (z : Nat) (f : Stratum → Stratum) : (modStratum s z f).logs = s.logs := rfl
@[simp] theorem modStratum_unseen (s : State) (z : Nat) (f : Stratum → Stratum) : (modStratum s z f).unseen = s.unseen := rfl
@[simp] theorem modStratum_slots (s : State) (z : Nat) (f : Stratum → Stratum) : (modStratum s z f).slots = s.slots := rfl
@[simp] theorem modStratum_slotWrites (s : State) (z : Nat) (f : Stratum → Stratum) : (modStratum s z f).slotWrites = s.slotWrites := rfl
@[simp] theorem modStratum_air (s : State) (z : Nat) (f : Stratum → Stratum) : (modStratum s z f).air = s.air := rfl
@[simp] theorem modStratum_net (s : State) (z : Nat) (f : Stratum → Stratum) : (modStratum s z f).net = s.net := rfl
@[simp] theorem modStratum_posted (s : State) (z : Nat) (f : Stratum → Stratum) : (modStratum s z f).posted = s.posted := rfl
@[simp] theorem modStratum_engines (s : State) (z : Nat) (f : Stratum → Stratum) : (modStratum s z f).engines = s.engines := rfl
@[simp] theorem modStratum_ports (s : State) (z : Nat) (f : Stratum → Stratum) : (modStratum s z f).ports = s.ports := rfl
@[simp] theorem modStratum_peers (s : State) (z : Nat) (f : Stratum → Stratum) : (modStratum s z f).peers = s.peers := rfl
@[simp] theorem modStratum_routes (s : State) (z : Nat) (f : Stratum → Stratum) : (modStratum s z f).routes = s.routes := rfl
@[simp] theorem modStratum_bqs (s : State) (z : Nat) (f : Stratum → Stratum) : (modStratum s z f).bqs = s.bqs := rfl
@[simp] theorem modStratum_hbms (s : State) (z : Nat) (f : Stratum → Stratum) : (modStratum s z f).hbms = s.hbms := rfl
@[simp] theorem modStratum_persistent (s : State) (z : Nat) (f : Stratum → Stratum) : (modStratum s z f).persistent = s.persistent := rfl
@[simp] theorem modStratum_rowRecord (s : State) (z : Nat) (f : Stratum → Stratum) : (modStratum s z f).rowRecord = s.rowRecord := rfl
@[simp] theorem modStratum_fuses (s : State) (z : Nat) (f : Stratum → Stratum) : (modStratum s z f).fuses = s.fuses := rfl
@[simp] theorem modStratum_modid (s : State) (z : Nat) (f : Stratum → Stratum) : (modStratum s z f).modid = s.modid := rfl
@[simp] theorem modStratum_herr (s : State) (z : Nat) (f : Stratum → Stratum) : (modStratum s z f).herr = s.herr := rfl
@[simp] theorem modStratum_boot (s : State) (z : Nat) (f : Stratum → Stratum) : (modStratum s z f).boot = s.boot := rfl
@[simp] theorem modStratum_attest (s : State) (z : Nat) (f : Stratum → Stratum) : (modStratum s z f).attest = s.attest := rfl
@[simp] theorem modStratum_msix (s : State) (z : Nat) (f : Stratum → Stratum) : (modStratum s z f).msix = s.msix := rfl
@[simp] theorem modStratum_reply (s : State) (z : Nat) (f : Stratum → Stratum) : (modStratum s z f).reply = s.reply := rfl

@[simp] theorem modCluster_cur (s : State) (k : Nat) (f : Cluster → Cluster) : (modCluster s k f).cur = s.cur := rfl
@[simp] theorem modCluster_issuing (s : State) (k : Nat) (f : Cluster → Cluster) : (modCluster s k f).issuing = s.issuing := rfl
@[simp] theorem modCluster_waited (s : State) (k : Nat) (f : Cluster → Cluster) : (modCluster s k f).waited = s.waited := rfl
@[simp] theorem modCluster_arg (s : State) (k : Nat) (f : Cluster → Cluster) : (modCluster s k f).arg = s.arg := rfl
@[simp] theorem modCluster_agenda (s : State) (k : Nat) (f : Cluster → Cluster) : (modCluster s k f).agenda = s.agenda := rfl
@[simp] theorem modCluster_timers (s : State) (k : Nat) (f : Cluster → Cluster) : (modCluster s k f).timers = s.timers := rfl
@[simp] theorem modCluster_visit (s : State) (k : Nat) (f : Cluster → Cluster) : (modCluster s k f).visit = s.visit := rfl
@[simp] theorem modCluster_choice (s : State) (k : Nat) (f : Cluster → Cluster) : (modCluster s k f).choice = s.choice := rfl
@[simp] theorem modCluster_serial (s : State) (k : Nat) (f : Cluster → Cluster) : (modCluster s k f).serial = s.serial := rfl
@[simp] theorem modCluster_stc (s : State) (k : Nat) (f : Cluster → Cluster) : (modCluster s k f).stc = s.stc := rfl
@[simp] theorem modCluster_cores (s : State) (k : Nat) (f : Cluster → Cluster) : (modCluster s k f).cores = s.cores := rfl
@[simp] theorem modCluster_strata (s : State) (k : Nat) (f : Cluster → Cluster) : (modCluster s k f).strata = s.strata := rfl
@[simp] theorem modCluster_layers (s : State) (k : Nat) (f : Cluster → Cluster) : (modCluster s k f).layers = s.layers := rfl
@[simp] theorem modCluster_parts (s : State) (k : Nat) (f : Cluster → Cluster) : (modCluster s k f).parts = s.parts := rfl
@[simp] theorem modCluster_hbm (s : State) (k : Nat) (f : Cluster → Cluster) : (modCluster s k f).hbm = s.hbm := rfl
@[simp] theorem modCluster_poison (s : State) (k : Nat) (f : Cluster → Cluster) : (modCluster s k f).poison = s.poison := rfl
@[simp] theorem modCluster_badReads (s : State) (k : Nat) (f : Cluster → Cluster) : (modCluster s k f).badReads = s.badReads := rfl
@[simp] theorem modCluster_fixReads (s : State) (k : Nat) (f : Cluster → Cluster) : (modCluster s k f).fixReads = s.fixReads := rfl
@[simp] theorem modCluster_touched (s : State) (k : Nat) (f : Cluster → Cluster) : (modCluster s k f).touched = s.touched := rfl
@[simp] theorem modCluster_brought (s : State) (k : Nat) (f : Cluster → Cluster) : (modCluster s k f).brought = s.brought := rfl
@[simp] theorem modCluster_stalled (s : State) (k : Nat) (f : Cluster → Cluster) : (modCluster s k f).stalled = s.stalled := rfl
@[simp] theorem modCluster_broken (s : State) (k : Nat) (f : Cluster → Cluster) : (modCluster s k f).broken = s.broken := rfl
@[simp] theorem modCluster_logs (s : State) (k : Nat) (f : Cluster → Cluster) : (modCluster s k f).logs = s.logs := rfl
@[simp] theorem modCluster_unseen (s : State) (k : Nat) (f : Cluster → Cluster) : (modCluster s k f).unseen = s.unseen := rfl
@[simp] theorem modCluster_slots (s : State) (k : Nat) (f : Cluster → Cluster) : (modCluster s k f).slots = s.slots := rfl
@[simp] theorem modCluster_slotWrites (s : State) (k : Nat) (f : Cluster → Cluster) : (modCluster s k f).slotWrites = s.slotWrites := rfl
@[simp] theorem modCluster_air (s : State) (k : Nat) (f : Cluster → Cluster) : (modCluster s k f).air = s.air := rfl
@[simp] theorem modCluster_net (s : State) (k : Nat) (f : Cluster → Cluster) : (modCluster s k f).net = s.net := rfl
@[simp] theorem modCluster_posted (s : State) (k : Nat) (f : Cluster → Cluster) : (modCluster s k f).posted = s.posted := rfl
@[simp] theorem modCluster_engines (s : State) (k : Nat) (f : Cluster → Cluster) : (modCluster s k f).engines = s.engines := rfl
@[simp] theorem modCluster_ports (s : State) (k : Nat) (f : Cluster → Cluster) : (modCluster s k f).ports = s.ports := rfl
@[simp] theorem modCluster_peers (s : State) (k : Nat) (f : Cluster → Cluster) : (modCluster s k f).peers = s.peers := rfl
@[simp] theorem modCluster_routes (s : State) (k : Nat) (f : Cluster → Cluster) : (modCluster s k f).routes = s.routes := rfl
@[simp] theorem modCluster_bqs (s : State) (k : Nat) (f : Cluster → Cluster) : (modCluster s k f).bqs = s.bqs := rfl
@[simp] theorem modCluster_hbms (s : State) (k : Nat) (f : Cluster → Cluster) : (modCluster s k f).hbms = s.hbms := rfl
@[simp] theorem modCluster_persistent (s : State) (k : Nat) (f : Cluster → Cluster) : (modCluster s k f).persistent = s.persistent := rfl
@[simp] theorem modCluster_rowRecord (s : State) (k : Nat) (f : Cluster → Cluster) : (modCluster s k f).rowRecord = s.rowRecord := rfl
@[simp] theorem modCluster_fuses (s : State) (k : Nat) (f : Cluster → Cluster) : (modCluster s k f).fuses = s.fuses := rfl
@[simp] theorem modCluster_modid (s : State) (k : Nat) (f : Cluster → Cluster) : (modCluster s k f).modid = s.modid := rfl
@[simp] theorem modCluster_herr (s : State) (k : Nat) (f : Cluster → Cluster) : (modCluster s k f).herr = s.herr := rfl
@[simp] theorem modCluster_boot (s : State) (k : Nat) (f : Cluster → Cluster) : (modCluster s k f).boot = s.boot := rfl
@[simp] theorem modCluster_attest (s : State) (k : Nat) (f : Cluster → Cluster) : (modCluster s k f).attest = s.attest := rfl
@[simp] theorem modCluster_msix (s : State) (k : Nat) (f : Cluster → Cluster) : (modCluster s k f).msix = s.msix := rfl
@[simp] theorem modCluster_reply (s : State) (k : Nat) (f : Cluster → Cluster) : (modCluster s k f).reply = s.reply := rfl

@[simp] theorem writeHbm_cur (s : State) (a : Nat) (v : Byte) : (writeHbm s a v).cur = s.cur := rfl
@[simp] theorem writeHbm_issuing (s : State) (a : Nat) (v : Byte) : (writeHbm s a v).issuing = s.issuing := rfl
@[simp] theorem writeHbm_waited (s : State) (a : Nat) (v : Byte) : (writeHbm s a v).waited = s.waited := rfl
@[simp] theorem writeHbm_arg (s : State) (a : Nat) (v : Byte) : (writeHbm s a v).arg = s.arg := rfl
@[simp] theorem writeHbm_agenda (s : State) (a : Nat) (v : Byte) : (writeHbm s a v).agenda = s.agenda := rfl
@[simp] theorem writeHbm_timers (s : State) (a : Nat) (v : Byte) : (writeHbm s a v).timers = s.timers := rfl
@[simp] theorem writeHbm_visit (s : State) (a : Nat) (v : Byte) : (writeHbm s a v).visit = s.visit := rfl
@[simp] theorem writeHbm_choice (s : State) (a : Nat) (v : Byte) : (writeHbm s a v).choice = s.choice := rfl
@[simp] theorem writeHbm_serial (s : State) (a : Nat) (v : Byte) : (writeHbm s a v).serial = s.serial := rfl
@[simp] theorem writeHbm_stc (s : State) (a : Nat) (v : Byte) : (writeHbm s a v).stc = s.stc := rfl
@[simp] theorem writeHbm_cores (s : State) (a : Nat) (v : Byte) : (writeHbm s a v).cores = s.cores := rfl
@[simp] theorem writeHbm_clusters (s : State) (a : Nat) (v : Byte) : (writeHbm s a v).clusters = s.clusters := rfl
@[simp] theorem writeHbm_strata (s : State) (a : Nat) (v : Byte) : (writeHbm s a v).strata = s.strata := rfl
@[simp] theorem writeHbm_layers (s : State) (a : Nat) (v : Byte) : (writeHbm s a v).layers = s.layers := rfl
@[simp] theorem writeHbm_parts (s : State) (a : Nat) (v : Byte) : (writeHbm s a v).parts = s.parts := rfl
@[simp] theorem writeHbm_poison (s : State) (a : Nat) (v : Byte) : (writeHbm s a v).poison = s.poison := rfl
@[simp] theorem writeHbm_badReads (s : State) (a : Nat) (v : Byte) : (writeHbm s a v).badReads = s.badReads := rfl
@[simp] theorem writeHbm_fixReads (s : State) (a : Nat) (v : Byte) : (writeHbm s a v).fixReads = s.fixReads := rfl
@[simp] theorem writeHbm_touched (s : State) (a : Nat) (v : Byte) : (writeHbm s a v).touched = s.touched := rfl
@[simp] theorem writeHbm_brought (s : State) (a : Nat) (v : Byte) : (writeHbm s a v).brought = s.brought := rfl
@[simp] theorem writeHbm_stalled (s : State) (a : Nat) (v : Byte) : (writeHbm s a v).stalled = s.stalled := rfl
@[simp] theorem writeHbm_broken (s : State) (a : Nat) (v : Byte) : (writeHbm s a v).broken = s.broken := rfl
@[simp] theorem writeHbm_logs (s : State) (a : Nat) (v : Byte) : (writeHbm s a v).logs = s.logs := rfl
@[simp] theorem writeHbm_unseen (s : State) (a : Nat) (v : Byte) : (writeHbm s a v).unseen = s.unseen := rfl
@[simp] theorem writeHbm_slots (s : State) (a : Nat) (v : Byte) : (writeHbm s a v).slots = s.slots := rfl
@[simp] theorem writeHbm_slotWrites (s : State) (a : Nat) (v : Byte) : (writeHbm s a v).slotWrites = s.slotWrites := rfl
@[simp] theorem writeHbm_air (s : State) (a : Nat) (v : Byte) : (writeHbm s a v).air = s.air := rfl
@[simp] theorem writeHbm_net (s : State) (a : Nat) (v : Byte) : (writeHbm s a v).net = s.net := rfl
@[simp] theorem writeHbm_posted (s : State) (a : Nat) (v : Byte) : (writeHbm s a v).posted = s.posted := rfl
@[simp] theorem writeHbm_engines (s : State) (a : Nat) (v : Byte) : (writeHbm s a v).engines = s.engines := rfl
@[simp] theorem writeHbm_ports (s : State) (a : Nat) (v : Byte) : (writeHbm s a v).ports = s.ports := rfl
@[simp] theorem writeHbm_peers (s : State) (a : Nat) (v : Byte) : (writeHbm s a v).peers = s.peers := rfl
@[simp] theorem writeHbm_routes (s : State) (a : Nat) (v : Byte) : (writeHbm s a v).routes = s.routes := rfl
@[simp] theorem writeHbm_bqs (s : State) (a : Nat) (v : Byte) : (writeHbm s a v).bqs = s.bqs := rfl
@[simp] theorem writeHbm_hbms (s : State) (a : Nat) (v : Byte) : (writeHbm s a v).hbms = s.hbms := rfl
@[simp] theorem writeHbm_persistent (s : State) (a : Nat) (v : Byte) : (writeHbm s a v).persistent = s.persistent := rfl
@[simp] theorem writeHbm_rowRecord (s : State) (a : Nat) (v : Byte) : (writeHbm s a v).rowRecord = s.rowRecord := rfl
@[simp] theorem writeHbm_fuses (s : State) (a : Nat) (v : Byte) : (writeHbm s a v).fuses = s.fuses := rfl
@[simp] theorem writeHbm_modid (s : State) (a : Nat) (v : Byte) : (writeHbm s a v).modid = s.modid := rfl
@[simp] theorem writeHbm_herr (s : State) (a : Nat) (v : Byte) : (writeHbm s a v).herr = s.herr := rfl
@[simp] theorem writeHbm_boot (s : State) (a : Nat) (v : Byte) : (writeHbm s a v).boot = s.boot := rfl
@[simp] theorem writeHbm_attest (s : State) (a : Nat) (v : Byte) : (writeHbm s a v).attest = s.attest := rfl
@[simp] theorem writeHbm_msix (s : State) (a : Nat) (v : Byte) : (writeHbm s a v).msix = s.msix := rfl
@[simp] theorem writeHbm_reply (s : State) (a : Nat) (v : Byte) : (writeHbm s a v).reply = s.reply := rfl

@[simp] theorem writePool_cur (s : State) (c o : Nat) (v : Byte) : (writePool s c o v).cur = s.cur := rfl
@[simp] theorem writePool_issuing (s : State) (c o : Nat) (v : Byte) : (writePool s c o v).issuing = s.issuing := rfl
@[simp] theorem writePool_waited (s : State) (c o : Nat) (v : Byte) : (writePool s c o v).waited = s.waited := rfl
@[simp] theorem writePool_arg (s : State) (c o : Nat) (v : Byte) : (writePool s c o v).arg = s.arg := rfl
@[simp] theorem writePool_agenda (s : State) (c o : Nat) (v : Byte) : (writePool s c o v).agenda = s.agenda := rfl
@[simp] theorem writePool_timers (s : State) (c o : Nat) (v : Byte) : (writePool s c o v).timers = s.timers := rfl
@[simp] theorem writePool_visit (s : State) (c o : Nat) (v : Byte) : (writePool s c o v).visit = s.visit := rfl
@[simp] theorem writePool_choice (s : State) (c o : Nat) (v : Byte) : (writePool s c o v).choice = s.choice := rfl
@[simp] theorem writePool_serial (s : State) (c o : Nat) (v : Byte) : (writePool s c o v).serial = s.serial := rfl
@[simp] theorem writePool_stc (s : State) (c o : Nat) (v : Byte) : (writePool s c o v).stc = s.stc := rfl
@[simp] theorem writePool_clusters (s : State) (c o : Nat) (v : Byte) : (writePool s c o v).clusters = s.clusters := rfl
@[simp] theorem writePool_strata (s : State) (c o : Nat) (v : Byte) : (writePool s c o v).strata = s.strata := rfl
@[simp] theorem writePool_layers (s : State) (c o : Nat) (v : Byte) : (writePool s c o v).layers = s.layers := rfl
@[simp] theorem writePool_parts (s : State) (c o : Nat) (v : Byte) : (writePool s c o v).parts = s.parts := rfl
@[simp] theorem writePool_hbm (s : State) (c o : Nat) (v : Byte) : (writePool s c o v).hbm = s.hbm := rfl
@[simp] theorem writePool_poison (s : State) (c o : Nat) (v : Byte) : (writePool s c o v).poison = s.poison := rfl
@[simp] theorem writePool_badReads (s : State) (c o : Nat) (v : Byte) : (writePool s c o v).badReads = s.badReads := rfl
@[simp] theorem writePool_fixReads (s : State) (c o : Nat) (v : Byte) : (writePool s c o v).fixReads = s.fixReads := rfl
@[simp] theorem writePool_touched (s : State) (c o : Nat) (v : Byte) : (writePool s c o v).touched = s.touched := rfl
@[simp] theorem writePool_brought (s : State) (c o : Nat) (v : Byte) : (writePool s c o v).brought = s.brought := rfl
@[simp] theorem writePool_stalled (s : State) (c o : Nat) (v : Byte) : (writePool s c o v).stalled = s.stalled := rfl
@[simp] theorem writePool_broken (s : State) (c o : Nat) (v : Byte) : (writePool s c o v).broken = s.broken := rfl
@[simp] theorem writePool_logs (s : State) (c o : Nat) (v : Byte) : (writePool s c o v).logs = s.logs := rfl
@[simp] theorem writePool_unseen (s : State) (c o : Nat) (v : Byte) : (writePool s c o v).unseen = s.unseen := rfl
@[simp] theorem writePool_slots (s : State) (c o : Nat) (v : Byte) : (writePool s c o v).slots = s.slots := rfl
@[simp] theorem writePool_slotWrites (s : State) (c o : Nat) (v : Byte) : (writePool s c o v).slotWrites = s.slotWrites := rfl
@[simp] theorem writePool_air (s : State) (c o : Nat) (v : Byte) : (writePool s c o v).air = s.air := rfl
@[simp] theorem writePool_net (s : State) (c o : Nat) (v : Byte) : (writePool s c o v).net = s.net := rfl
@[simp] theorem writePool_posted (s : State) (c o : Nat) (v : Byte) : (writePool s c o v).posted = s.posted := rfl
@[simp] theorem writePool_engines (s : State) (c o : Nat) (v : Byte) : (writePool s c o v).engines = s.engines := rfl
@[simp] theorem writePool_ports (s : State) (c o : Nat) (v : Byte) : (writePool s c o v).ports = s.ports := rfl
@[simp] theorem writePool_peers (s : State) (c o : Nat) (v : Byte) : (writePool s c o v).peers = s.peers := rfl
@[simp] theorem writePool_routes (s : State) (c o : Nat) (v : Byte) : (writePool s c o v).routes = s.routes := rfl
@[simp] theorem writePool_bqs (s : State) (c o : Nat) (v : Byte) : (writePool s c o v).bqs = s.bqs := rfl
@[simp] theorem writePool_hbms (s : State) (c o : Nat) (v : Byte) : (writePool s c o v).hbms = s.hbms := rfl
@[simp] theorem writePool_persistent (s : State) (c o : Nat) (v : Byte) : (writePool s c o v).persistent = s.persistent := rfl
@[simp] theorem writePool_rowRecord (s : State) (c o : Nat) (v : Byte) : (writePool s c o v).rowRecord = s.rowRecord := rfl
@[simp] theorem writePool_fuses (s : State) (c o : Nat) (v : Byte) : (writePool s c o v).fuses = s.fuses := rfl
@[simp] theorem writePool_modid (s : State) (c o : Nat) (v : Byte) : (writePool s c o v).modid = s.modid := rfl
@[simp] theorem writePool_herr (s : State) (c o : Nat) (v : Byte) : (writePool s c o v).herr = s.herr := rfl
@[simp] theorem writePool_boot (s : State) (c o : Nat) (v : Byte) : (writePool s c o v).boot = s.boot := rfl
@[simp] theorem writePool_attest (s : State) (c o : Nat) (v : Byte) : (writePool s c o v).attest = s.attest := rfl
@[simp] theorem writePool_msix (s : State) (c o : Nat) (v : Byte) : (writePool s c o v).msix = s.msix := rfl
@[simp] theorem writePool_reply (s : State) (c o : Nat) (v : Byte) : (writePool s c o v).reply = s.reply := rfl

end Sys2Proof.Machine
end

