-- ==== Sys2Proof/Laws/Access.lean ====
section
/-! SUPPORT. Reading a unit after the update of one: the unit updated, and every other unit as before. -/

namespace Sys2Proof.Machine

@[simp] theorem getCore_setCore_same (s : State) (c : Nat) (k : Core) : getCore (setCore s c k) c = k := by
  simp [getCore, setCore]

theorem getCore_setCore_other (s : State) (c d : Nat) (k : Core) (h : d ≠ c) : getCore (setCore s c k) d = getCore s d := by
  simp [getCore, setCore, mget_mset_other _ _ _ _ _ h]

@[simp] theorem getCore_modCore_same (s : State) (c : Nat) (f : Core → Core) :
    getCore (modCore s c f) c = f (getCore s c) := by
  simp [modCore]

theorem getCore_modCore_other (s : State) (c d : Nat) (f : Core → Core) (h : d ≠ c) :
    getCore (modCore s c f) d = getCore s d := getCore_setCore_other _ _ _ _ h

@[simp] theorem getCtx_modCtx_same (s : State) (c n : Nat) (f : Ctx → Ctx) :
    getCtx (modCtx s c n f) c n = f (getCtx s c n) := by
  simp [getCtx, modCtx, ctxOf]

theorem getCtx_modCtx_other (s : State) (c n d m : Nat) (f : Ctx → Ctx) (h : (d, m) ≠ (c, n)) :
    getCtx (modCtx s c n f) d m = getCtx s d m := by
  by_cases e : d = c
  · subst e
    have : m ≠ n := fun x => h (by rw [x])
    simp [getCtx, modCtx, ctxOf, mget_mset_other _ _ _ _ _ this]
  · simp [getCtx, modCtx, getCore_modCore_other _ _ _ _ e]

/-- The core of a context that is updated keeps everything else. -/
theorem getCore_modCtx (s : State) (c n d : Nat) (f : Ctx → Ctx) :
    { getCore (modCtx s c n f) d with ctxs := [] } = { getCore s d with ctxs := [] } := by
  by_cases e : d = c
  · subst e; simp [modCtx]
  · simp [modCtx, getCore_modCore_other _ _ _ _ e]

@[simp] theorem me_modMe (s : State) (f : Ctx → Ctx) : me (modMe s f) = f (me s) := by
  simp [me, modMe, myId, myN]

@[simp] theorem myRegs_modRegs (s : State) (f : Regs → Regs) : (me (modRegs s f)).regs = f (me s).regs := by
  simp [modRegs]

@[simp] theorem getPart_modPart_same (s : State) (p : Nat) (f : Partition → Partition) :
    getPart (modPart s p f) p = f (getPart s p) := by
  simp [getPart, modPart]

theorem getPart_modPart_other (s : State) (p q : Nat) (f : Partition → Partition) (h : q ≠ p) :
    getPart (modPart s p f) q = getPart s q := by
  simp [getPart, modPart, mget_mset_other _ _ _ _ _ h]

@[simp] theorem getLayer_modLayer_same (s : State) (l : Nat) (f : Layer → Layer) :
    getLayer (modLayer s l f) l = f (getLayer s l) := by
  simp [getLayer, modLayer]

theorem getLayer_modLayer_other (s : State) (l m : Nat) (f : Layer → Layer) (h : m ≠ l) :
    getLayer (modLayer s l f) m = getLayer s m := by
  simp [getLayer, modLayer, mget_mset_other _ _ _ _ _ h]

@[simp] theorem getStratum_modStratum_same (s : State) (z : Nat) (f : Stratum → Stratum) :
    getStratum (modStratum s z f) z = f (getStratum s z) := by
  simp [getStratum, modStratum]

theorem getStratum_modStratum_other (s : State) (z y : Nat) (f : Stratum → Stratum) (h : y ≠ z) :
    getStratum (modStratum s z f) y = getStratum s y := by
  simp [getStratum, modStratum, mget_mset_other _ _ _ _ _ h]

@[simp] theorem getCluster_modCluster_same (s : State) (k : Nat) (f : Cluster → Cluster) :
    getCluster (modCluster s k f) k = f (getCluster s k) := by
  simp [getCluster, modCluster]

theorem getCluster_modCluster_other (s : State) (k j : Nat) (f : Cluster → Cluster) (h : j ≠ k) :
    getCluster (modCluster s k f) j = getCluster s j := by
  simp [getCluster, modCluster, mget_mset_other _ _ _ _ _ h]

end Sys2Proof.Machine
end

