-- ==== Sys2Proof/Laws/Issue.lean ====
section
/-! SUPPORT. Everything that the issue of an instruction can do (06 R146): one lemma for each of its ends. -/

namespace Sys2Proof.Machine

/-- What an instruction that executes normally does is its body's. -/
theorem issueWith_issues (i : Instr) (s : State) (l t : List (Nat × Nat)) (body : State → Act) (h : issues i s = true) :
    issueWith i s l t body = endOf i s t (body s) := by
  simp only [issues, Bool.and_eq_true, Bool.not_eq_true', Option.isNone_iff_eq_none, myRegs] at h
  obtain ⟨⟨⟨⟨⟨⟨⟨h1, h2⟩, h3⟩, h4⟩, h5⟩, h6⟩, h7⟩, h8⟩ := h
  have h9 : ((useOf i).srcs.any fun y => srcEmpty (me s).regs y && srcW y) = false := by
    rw [List.any_eq_false] at h6 ⊢
    intro x hx
    have := h6 x hx
    simp_all
  simp only [issueWith, h1, h2, h3, h4, h5, h6, h7, h8, h9, Bool.false_eq_true, if_false, Bool.not_true, Bool.or_false]

/-- The same for an instruction that addresses no memory of its own. -/
theorem issue_issues (i : Instr) (s : State) (body : State → Act) (h : issues i s = true) :
    issue i s body = endOf i s [] (body s) := issueWith_issues i s [] [] body h

@[simp] theorem endOf_go (i : Instr) (s t : State) (st : List (Nat × Nat)) : endOf i s st (.go t) = advance t i := rfl
@[simp] theorem endOf_jump (i : Instr) (s t : State) (st : List (Nat × Nat)) (a : Word) :
    endOf i s st (.jump t a) = modRegs t fun r => { r with pc := a } := rfl
@[simp] theorem endOf_stay (i : Instr) (s t : State) (st : List (Nat × Nat)) : endOf i s st (.stay t) = t := rfl
@[simp] theorem endOf_hold (i : Instr) (s : State) (st : List (Nat × Nat)) : endOf i s st .hold = wait s := rfl

/-- A trap is raised, but for a failed translation that accesses before it may still mend (18 R383). -/
theorem endOf_trap (i : Instr) (s t : State) (st : List (Nat × Nat)) (x : Trap) :
    endOf i s st (.trap t x) = if x.cause = 7 ∧ mustFollow (myRegs s) = true then wait s else raiseTrap t i x st := rfl

theorem endOf_trap_plain (i : Instr) (s t : State) (st : List (Nat × Nat)) (x : Trap) (h : x.cause ≠ 7) :
    endOf i s st (.trap t x) = raiseTrap t i x st := if_neg fun g => h g.1

@[simp] theorem endOf_unplaced (i : Instr) (s t : State) (st : List (Nat × Nat)) : endOf i s st (.unplaced t) = t := rfl

/-- The meaning of every instruction word but PREF is one issue of it. -/
theorem exec_issueWith (i : Instr) (s : State) (h : i.isStep = false) (hp : ∀ c b a d, i ≠ .pref c b a d) :
    ∃ l t body, exec i s = .next (issueWith i s l t body) := by
  cases i <;> first
    | exact ⟨_, _, _, rfl⟩
    | exact absurd rfl (hp _ _ _ _)
    | exact absurd h (by decide)

/-- A condition that is FULL and false: nothing but the program counter changes (06 R143). -/
theorem issueWith_false (i : Instr) (s : State) (l t : List (Nat × Nat)) (body : State → Act) (h1 : (me s).ra = none)
    (h2 : (isPrivileged i && (me s).priv == 0) = false) (h3 : absentOn i (isGw (myId s)) = false)
    (h4 : qEmpty (myRegs s) (condOf i).q = false) (h5 : condTrue s (condOf i) = false) :
    issueWith i s l t body = advance s i := by
  simp only [myRegs] at h4
  simp only [issueWith, h1, h2, h3, h4, h5, Bool.false_eq_true, if_false, Bool.not_false, if_true]

/-- A privileged instruction at task privilege (06 R147). -/
theorem issueWith_privilege (i : Instr) (s : State) (l t : List (Nat × Nat)) (body : State → Act) (h1 : (me s).ra = none)
    (h2 : (isPrivileged i && (me s).priv == 0) = true) : issueWith i s l t body = raiseTrap s i tPRIVILEGE [] := by
  simp only [issueWith, h1, h2, if_true]

/-- A trap that is no page fault enters the handler at once (16 R341, R342). -/
theorem raiseTrap_plain (s : State) (i : Instr) (t : Trap) (st : List (Nat × Nat)) (h : t.cause ≠ 7) :
    raiseTrap s i t st =
      takeTrap s (myId s) (myN s) (if t.next then nextPc (me s).regs.pc i.len else (me s).regs.pc) t 6 := by
  simp [raiseTrap, h]

/-- Taking a trap that is no page fault, outside INTRAP and firmware privilege. -/
theorem takeTrap_plain (s : State) (c n : Nat) (epc : Word) (t : Trap) (r : Nat) (h : t.cause ≠ 7)
    (h1 : (getCtx s c n).intrap = false) (h2 : (getCtx s c n).priv ≠ 2) :
    takeTrap s c n epc t r = modCtx s c n fun x =>
      { x with cause := causeWord { t with pages := t.pages.take 17 } r, epc, faddr := t.faddr, ppriv := x.priv, priv := 1,
               intrap := true, stopping := false, await := none, regs := { x.regs with pc := x.tvec } } := by
  have h3 : ((getCtx s c n).intrap || (getCtx s c n).priv == 2) = false := by
    rw [h1, Bool.false_or]; exact beq_eq_false_iff_ne.mpr h2
  simp only [takeTrap, h, if_false, h3, Bool.false_eq_true]

end Sys2Proof.Machine
end

