-- ==== Sys2Proof/Laws/Memory.lean ====
section
/-! SUPPORT. Every operation that writes bytes keeps the canonical form of every memory (DESIGN CHOICE, log 1), and so does an update
that leaves the bytes of its unit alone. -/

namespace Sys2Proof.Machine

theorem memoryOk_setCore (s : State) (c : Nat) (k : Core) (h : MemoryOk s) (hk : Memory.wf k.pool = true) :
    MemoryOk (setCore s c k) := by
  obtain ⟨h1, h2, h3, h4⟩ := h
  refine ⟨h1, fun d => ?_, h3, h4⟩
  by_cases e : d = c
  · subst e; simpa using hk
  · rw [getCore_setCore_other _ _ _ _ e]; exact h2 d

/-- An update of a core that keeps its pool. -/
theorem memoryOk_modCore (s : State) (c : Nat) (f : Core → Core) (h : MemoryOk s)
    (hf : ∀ k, (f k).pool = k.pool) : MemoryOk (modCore s c f) :=
  memoryOk_setCore _ _ _ h (by rw [hf]; exact h.2.1 c)

/-- A new partition word keeps the form of the pool. -/
theorem memoryOk_repartition (s : State) (c : Nat) (w : Word) (h : MemoryOk s) : MemoryOk (modCore s c (repartition w)) := by
  refine memoryOk_setCore _ _ _ h ?_
  unfold repartition
  split
  · exact h.2.1 c
  · exact cellsFrom_filter _ _ _ (h.2.1 c)

theorem memoryOk_modCtx (s : State) (c n : Nat) (f : Ctx → Ctx) (h : MemoryOk s) : MemoryOk (modCtx s c n f) :=
  memoryOk_modCore _ _ _ h fun _ => rfl

theorem memoryOk_modMe (s : State) (f : Ctx → Ctx) (h : MemoryOk s) : MemoryOk (modMe s f) := memoryOk_modCtx _ _ _ _ h

theorem memoryOk_modRegs (s : State) (f : Regs → Regs) (h : MemoryOk s) : MemoryOk (modRegs s f) := memoryOk_modMe _ _ h

theorem memoryOk_modLayer (s : State) (l : Nat) (f : Layer → Layer) (h : MemoryOk s)
    (hf : Memory.wf (f (getLayer s l)).mirror = true) : MemoryOk (modLayer s l f) := by
  obtain ⟨h1, h2, h3, h4⟩ := h
  refine ⟨h1, h2, fun m => ?_, h4⟩
  by_cases e : m = l
  · subst e; simpa using hf
  · rw [getLayer_modLayer_other _ _ _ _ e]; exact h3 m

theorem memoryOk_modPart (s : State) (p : Nat) (f : Partition → Partition) (h : MemoryOk s)
    (hf : Memory.wf (f (getPart s p)).sync = true) : MemoryOk (modPart s p f) := by
  obtain ⟨h1, h2, h3, h4⟩ := h
  refine ⟨h1, h2, h3, fun q => ?_⟩
  by_cases e : q = p
  · subst e; simpa using hf
  · rw [getPart_modPart_other _ _ _ _ e]; exact h4 q

theorem memoryOk_writeHbm (s : State) (a : Nat) (v : Byte) (h : MemoryOk s) : MemoryOk (writeHbm s a v) :=
  ⟨wf_cset _ _ _ h.1, h.2⟩

theorem memoryOk_writePool (s : State) (c o : Nat) (v : Byte) (h : MemoryOk s) : MemoryOk (writePool s c o v) :=
  memoryOk_setCore _ _ _ h (wf_cset _ _ _ (h.2.1 c))

theorem memoryOk_writePlace (s : State) (p : Place) (v : Byte) (h : MemoryOk s) : MemoryOk (writePlace s p v) := by
  cases p with
  | hbm pa => exact memoryOk_writeHbm _ _ _ h
  | fwd c n pa => exact memoryOk_writeHbm _ _ _ h
  | pool c o => exact memoryOk_writePool _ _ _ _ h
  | mirror l o => exact memoryOk_modLayer _ _ _ h (wf_cset _ _ _ (h.2.2.1 l))

theorem memoryOk_foldl {α : Type} (f : State → α → State) (hf : ∀ s a, MemoryOk s → MemoryOk (f s a)) (l : List α) :
    ∀ s, MemoryOk s → MemoryOk (l.foldl f s) := by
  induction l with
  | nil => exact fun _ h => h
  | cons a r ih => exact fun s h => ih _ (hf s a h)

theorem memoryOk_writeBytes (s : State) (ws : List (Place × Byte)) (h : MemoryOk s) : MemoryOk (writeBytes s ws) :=
  memoryOk_foldl _ (fun s w h => memoryOk_writePlace s w.1 w.2 h) ws s h

theorem memoryOk_unpoison (s : State) (ws : List (Place × Byte)) (h : MemoryOk s) : MemoryOk (unpoison s ws) := by
  have r : ∀ (us : List Nat) (t : State), MemoryOk t → MemoryOk (rewriteUnits t us) := fun us t h => by
    unfold rewriteUnits
    refine memoryOk_foldl _ ?_ us t h
    exact fun _ _ h => h
  unfold unpoison
  split <;> simp only <;> split <;> first | exact r _ _ h | exact h

theorem memoryOk_showWrites (s : State) (ws : List (Place × Byte)) (h : MemoryOk s) : MemoryOk (showWrites s ws) := by
  unfold showWrites
  split <;> exact h

theorem memoryOk_writePlaces (s : State) (ws : List (Place × Byte)) (h : MemoryOk s) : MemoryOk (writePlaces s ws) :=
  memoryOk_unpoison _ _ (memoryOk_showWrites _ _ (memoryOk_writeBytes _ _ h))

/-- What a step has brought of peers goes as it came: memory keeps its form. -/
theorem memoryOk_keepFar (s t : State) (h : MemoryOk t) : MemoryOk (keepFar s t) := by
  have f : ∀ (l : List Host.Cell) (m : List Host.Cell), Memory.wf m = true →
      Memory.wf (l.foldl (fun m b => cset m b.1 b.2) m) = true := by
    intro l
    induction l with
    | nil => exact fun _ h => h
    | cons a r ih => exact fun m h => ih _ (wf_cset _ _ _ h)
  exact ⟨f _ _ (cellsFrom_filter _ _ _ h.1), h.2⟩

theorem memoryOk_writeHbmBytes (s : State) (a : Nat) (bs : List Byte) (h : MemoryOk s) : MemoryOk (writeHbmBytes s a bs) :=
  memoryOk_writePlaces _ _ h

theorem memoryOk_fillWord (s : State) (c w : Nat) (h : MemoryOk s) : MemoryOk (fillWord s c w) :=
  memoryOk_modCore _ _ _ h fun _ => rfl

theorem memoryOk_emptyWord (s : State) (c w : Nat) (h : MemoryOk s) : MemoryOk (emptyWord s c w) :=
  memoryOk_modCore _ _ _ h fun _ => rfl

theorem memoryOk_writeFull (s : State) (ws : List (Place × Byte)) (h : MemoryOk s) : MemoryOk (writeFull s ws) :=
  memoryOk_foldl _ (fun s w h => memoryOk_fillWord s w.1 w.2 h) _ _ (memoryOk_writePlaces _ _ h)

/-- Every memory is empty after reset, which is the canonical form. -/
theorem getCore_reset (c : Nat) : getCore State.reset c = Core.reset := rfl
theorem getLayer_reset (l : Nat) : getLayer State.reset l = Layer.reset := rfl
theorem getPart_reset (p : Nat) : getPart State.reset p = Partition.reset := rfl

end Sys2Proof.Machine
end

