-- ==== Sys2Proof/Laws/Registers.lean ====
section
/-! SUPPORT. Reading a register after a write of it or of another one of its file (06 R149, R150). -/

namespace Sys2Proof.Machine

theorem vector_get_set {α : Type} {n : Nat} (v : Vector α n) (i : Nat) (h : i < n) (x : α) (j : Fin n) :
    (v.set i x h).get j = if i = j.val then x else v.get j := by
  show (v.set i x h)[j.val] = _
  rw [Vector.getElem_set]
  rfl

theorem rdS_wrS (r : Regs) (m n : SReg) (v : Word) (h : m ≠ 0) (k : m ≠ 63) :
    rdS (wrS r m v) n = if n = m then v else rdS r n := by
  have hk : ¬(m = 0 ∨ m = 63) := by rintro (e | e) <;> contradiction
  have e : (m.toNat = n.toFin.val) ↔ (n = m) := ⟨fun g => (BitVec.eq_of_toNat_eq g).symm, fun g => by rw [g]; rfl⟩
  simp only [rdS, wrS, hk, if_false, vector_get_set, e]
  by_cases g : n = m
  · subst g; simp only [h, k, if_false, if_true]
  · simp only [g, if_false]

@[simp] theorem rdS_zero (r : Regs) : rdS r 0 = 0 := rfl
@[simp] theorem wrS_zero (r : Regs) (v : Word) : wrS r 0 v = r := rfl
@[simp] theorem wrS_pc (r : Regs) (v : Word) : wrS r 63 v = r := rfl

theorem rdV_wrV (r : Regs) (m n : VReg) (v : VWord) : rdV (wrV r m v) n = if n = m then v else rdV r n := by
  have e : (m.toNat = n.toFin.val) ↔ (n = m) := ⟨fun g => (BitVec.eq_of_toNat_eq g).symm, fun g => by rw [g]; rfl⟩
  simp only [rdV, wrV, vector_get_set, e]

theorem rdP_wrP (r : Regs) (m n : PReg) (v : BitVec 64) (h : m ≠ 0) :
    rdP (wrP r m v) n = if n = m then v else rdP r n := by
  have e : (m.toNat = n.toFin.val) ↔ (n = m) := ⟨fun g => (BitVec.eq_of_toNat_eq g).symm, fun g => by rw [g]; rfl⟩
  simp only [rdP, wrP, h, if_false, vector_get_set, e]
  by_cases g : n = m
  · subst g; simp only [h, if_false, if_true]
  · simp only [g, if_false]

theorem getLsbD_setBit {w : Nat} (x : BitVec w) (i j : Nat) (b : Bool) :
    (setBit x i b).getLsbD j = if j = i ∧ j < w then b else x.getLsbD j := by
  by_cases hj : j < w
  · unfold setBit
    split <;> by_cases e : i = j <;> simp_all [eq_comm]
  · simp only [hj, and_false, if_false]
    rw [BitVec.getLsbD_of_ge _ _ (by omega), BitVec.getLsbD_of_ge _ _ (by omega)]

theorem rdQ_wrQ (r : Regs) (m n : QReg) (b : Bool) (h : m ≠ 0) : rdQ (wrQ r m b) n = if n = m then b else rdQ r n := by
  have e : (n.toNat = m.toNat) ↔ (n = m) := ⟨BitVec.eq_of_toNat_eq, fun g => by rw [g]⟩
  have l : n.toNat < 8 := n.isLt
  simp only [rdQ, wrQ, h, if_false, getLsbD_setBit, e, l, and_true]
  by_cases g : n = m
  · subst g; simp only [h, if_false, if_true]
  · simp only [g, if_false]

end Sys2Proof.Machine
end

