-- ==== Sys2Proof/Laws/Save.lean ====
section
/-! SUPPORT. When the writes of a save area succeed: every page of it translates by a held entry and no channel of physical
memory is dead (16 R352). -/

namespace Sys2Proof.Machine

/-- Two states agree on what the translation by a held entry reads, and on the channels of physical memory. -/
def SameHeld (s t : State) : Prop :=
  t.cores = s.cores ∧ t.clusters = s.clusters ∧ t.strata = s.strata ∧ t.parts = s.parts ∧ t.hbms = s.hbms

theorem sameHeld_trans {s t u : State} (h : SameHeld s t) (g : SameHeld t u) : SameHeld s u :=
  ⟨g.1.trans h.1, g.2.1.trans h.2.1, g.2.2.1.trans h.2.2.1, g.2.2.2.1.trans h.2.2.2.1, g.2.2.2.2.trans h.2.2.2.2⟩

theorem sameHeld_foldl {α : Type} (f : State → α → State) (l : List α) (hf : ∀ s, ∀ a ∈ l, SameHeld s (f s a)) :
    ∀ s, SameHeld s (l.foldl f s) := by
  induction l with
  | nil => exact fun s => ⟨rfl, rfl, rfl, rfl, rfl⟩
  | cons a r ih =>
    exact fun s => sameHeld_trans (hf s a (List.mem_cons_self ..)) (ih (fun s b hb => hf s b (List.mem_cons_of_mem _ hb)) _)

theorem sameHeld_writePlaces_hbm (s : State) (ws : List (Place × Byte)) (h : ∀ w ∈ ws, ∃ pa, w.1 = .hbm pa)
    (hh : s.hbms = []) : SameHeld s (writePlaces s ws) := by
  have b : SameHeld s (writeBytes s ws) := by
    refine sameHeld_foldl (fun s w => writePlace s w.1 w.2) ws (fun s w hw => ?_) s
    obtain ⟨pa, e⟩ := h w hw
    simp only [e, writePlace]
    exact ⟨rfl, rfl, rfl, rfl, rfl⟩
  refine sameHeld_trans b ?_
  have w : SameHeld (writeBytes s ws) (showWrites (writeBytes s ws) ws) := by
    unfold showWrites
    split <;> exact ⟨rfl, rfl, rfl, rfl, rfl⟩
  refine sameHeld_trans w ?_
  have e : (showWrites (writeBytes s ws) ws).hbms = [] := (w.2.2.2.2.trans b.2.2.2.2).trans hh
  unfold writePlaces unpoison
  split <;> simp only [e, List.any_nil, Bool.false_eq_true, if_false] <;> exact ⟨rfl, rfl, rfl, rfl, e.symm ▸ rfl⟩

theorem sameHeld_sendPeerStores (s : State) (c n part : Nat) (gen : BitVec 16) (kind : Nat) (copy : Option Nat)
    (ws : List (Nat × Byte)) : SameHeld s (sendPeerStores s c n part gen kind copy ws) := by
  refine sameHeld_foldl _ _ (fun s d _ => ?_) s
  unfold sendPacket armRoute modPeer later
  split <;> exact ⟨rfl, rfl, rfl, rfl, rfl⟩

theorem tlbHit_of_sameHeld {s t : State} (h : SameHeld s t) (c va : Nat) : tlbHit t c va = tlbHit s c va := by
  obtain ⟨h1, h2, h3, h4, -⟩ := h
  simp only [tlbHit, tlbs, getCore, getCluster, getStratum, partOf, ownsPort, ownsLayer, getPart, h1, h2, h3, h4]

/-- An address below the limit translates by a held entry that permits the access, to the module's own memory. -/
def HeldBelow (s : State) (c priv : Nat) (k : AK) (lim : Nat) : Prop :=
  ∀ va, va < lim → ∃ e pa, tlbHit s c va = some e ∧
    pePerm priv k (sizeLevel e.size) e.entry (pePa e.entry + va % 2 ^ e.size) = .pa pa ∧ pa < 2 ^ 50

theorem pieces_lt (va n : Nat) : ∀ p ∈ pieces va n, p.1 < va + n ∧ p.2 ≤ 4096 := by
  intro p hp
  simp only [pieces, List.mem_filterMap] at hp
  obtain ⟨i, -, h⟩ := hp
  split at h
  · split at h <;> split at h <;> simp only [Option.some.injEq, reduceCtorEq] at h <;> subst h <;> simp only <;> omega
  · split at h <;> split at h <;> simp only [Option.some.injEq, reduceCtorEq] at h <;> subst h <;> simp only <;> omega

theorem transPieces_held {s : State} {c priv lim : Nat} {k : AK} (h : HeldBelow s c priv k lim) :
    ∀ l : List (Nat × Nat), (∀ p ∈ l, p.1 < lim) →
      ∃ ts, transPieces c priv false k l s = (s, ts) ∧ firstFault ts = none ∧
        ∀ t ∈ ts, ∃ pa, t.2.2 = .pa pa ∧ pa < 2 ^ 50 ∧ (t.1, t.2.1) ∈ l := by
  intro l
  induction l with
  | nil => exact fun _ => ⟨[], rfl, rfl, fun _ h => absurd h List.not_mem_nil⟩
  | cons p r ih =>
    intro hl
    obtain ⟨ts, h1, h2, h5⟩ := ih fun q hq => hl q (List.mem_cons_of_mem _ hq)
    obtain ⟨e, pa, h3, h4, h6⟩ := h p.1 (hl p (List.mem_cons_self ..))
    refine ⟨(p.1, p.2, .pa pa) :: ts, ?_, ?_, fun t ht => ?_⟩
    · simp only [transPieces, translate, h3, h1, h4]
    · simpa only [firstFault, List.findSome?_cons] using h2
    · rcases List.mem_cons.1 ht with rfl | ht
      · exact ⟨pa, rfl, h6, List.mem_cons_self ..⟩
      · obtain ⟨pb, g1, g2, g3⟩ := h5 t ht
        exact ⟨pb, g1, g2, List.mem_cons_of_mem _ g3⟩

/-- Pages that translate below the limit lie in the module's own memory. -/
theorem pasOf_near {va n : Nat} {ts : List (Nat × Nat × TRes)}
    (h : ∀ t ∈ ts, ∃ pa, t.2.2 = .pa pa ∧ pa < 2 ^ 50 ∧ (t.1, t.2.1) ∈ pieces va n) : ∀ x ∈ pasOf ts, bitOf x 51 = false := by
  intro x hx
  simp only [pasOf, List.mem_flatMap] at hx
  obtain ⟨t, ht, hx⟩ := hx
  obtain ⟨pa, e, hpa, hm⟩ := h t ht
  simp only [e, List.mem_map, List.mem_range] at hx
  obtain ⟨i, hi, rfl⟩ := hx
  have := (pieces_lt _ _ _ hm).2
  unfold bitOf
  rw [Nat.div_eq_of_lt (by omega)]
  rfl

/-- The writes of the parts of a save area all succeed. -/
theorem saveWrite_held {c n priv a lim : Nat} (s : State) (h : HeldBelow s c priv .write lim) (hh : s.hbms = []) :
    ∀ (parts : List (Nat × List Byte)) (t : State), SameHeld s t →
      (∀ p ∈ parts, a + p.1 + p.2.length ≤ lim) → (saveWrite c n priv a parts t).2 = none := by
  intro parts
  induction parts with
  | nil => exact fun _ _ _ => rfl
  | cons p r ih =>
    intro t ht hp
    have hb : HeldBelow t c priv .write lim := fun va hv => by rw [tlbHit_of_sameHeld ht]; exact h va hv
    obtain ⟨ts, h1, h2, h3⟩ := transPieces_held hb (pieces (a + p.1) p.2.length) fun q hq =>
      Nat.lt_of_lt_of_le (pieces_lt _ _ q hq).1 (hp p (List.mem_cons_self ..))
    have hd : ∀ k, (getHbm t k).deadChans = [] := fun k => by rw [getHbm, ht.2.2.2.2, hh]; rfl
    obtain ⟨o, bs⟩ := p
    have hn : ((pasOf ts).any fun pa => lostPlace t (.hbm pa) || peerFailed t (partOf t c) pa) = false := by
      rw [List.any_eq_false]
      intro x hx
      simp only [lostPlace, peerFailed, hd, pasOf_near h3 x hx, List.contains_nil, Bool.and_false, Bool.false_and, Bool.or_false,
        Bool.false_eq_true, not_false_eq_true]
    simp only [saveWrite, transRange, h1, h2, hn, Bool.false_eq_true, if_false, homeWrite, sendFar]
    refine ih _ (sameHeld_trans ht (sameHeld_trans (sameHeld_writePlaces_hbm _ _ ?_ (ht.2.2.2.2.trans hh)) (sameHeld_sendPeerStores ..)))
      fun q hq => hp q (List.mem_cons_of_mem _ hq)
    intro w hw
    have hw : w ∈ ((pasOf ts).map Place.hbm).zip bs := List.mem_of_mem_filter hw
    obtain ⟨pa, -, e⟩ := List.mem_map.1 (List.of_mem_zip (show (w.1, w.2) ∈ _ from hw)).1
    exact ⟨pa, e.symm⟩

/-- The bytes at the addresses to which the pages of an area translate. -/
def areaBytes (s : State) (a n : Nat) : List Byte :=
  (pasOf (transPieces (myId s) (me s).priv.toNat false .read (pieces a n) s).2).map fun pa => readPlace s (.hbm pa)

/-- A read of an area all of whose pages translate and none of whose bytes is bad. -/
theorem loadArea_held {a n lim : Nat} (s : State) (h : HeldBelow s (myId s) (me s).priv.toNat .read lim) (hh : s.hbms = [])
    (hp : s.poison = []) (hl : a + n ≤ lim) : loadArea s a n = (s, some (areaBytes s a n)) := by
  obtain ⟨ts, h1, h2, h3⟩ := transPieces_held h (pieces a n) fun q hq => Nat.lt_of_lt_of_le (pieces_lt _ _ q hq).1 hl
  have near : ∀ x ∈ pasOf ts, bitOf x 51 = false := pasOf_near h3
  have hd : ∀ k, (getHbm s k).deadChans = [] ∧ (getHbm s k).stray = [] := fun k => by rw [getHbm, hh]; exact ⟨rfl, rfl⟩
  have hb : (pasOf ts).any (badPa s (partOf s (myId s))) = false := by
    rw [List.any_eq_false]
    intro x hx
    simp only [badPa, badByte, strayBad, peerFailed, hp, (hd _).1, (hd _).2, near x hx, List.contains_nil, List.any_nil,
      Bool.and_false, Bool.false_and, Bool.or_false, Bool.false_eq_true, not_false_eq_true]
  have hf : noteFar s (partOf s (myId s)) (pasOf ts) = s := by
    have e : (pasOf ts).filter (fun a => bitOf a 51) = [] :=
      List.filter_eq_nil_iff.2 fun x hx => by rw [near x hx]; exact Bool.false_ne_true
    rw [noteFar, e]
    simp only [noteFixes, hh, List.all_nil, if_true]
  simp only [loadArea, transRange, areaBytes, h1, h2, hb, hf]
  rfl

theorem pageCuts_end : ∀ (f o : Nat) (bs : List Byte), ∀ p ∈ pageCuts f o bs, p.1 + p.2.length ≤ o + 4096 * f := by
  intro f
  induction f with
  | zero => intro o bs p hp; simp [pageCuts] at hp
  | succ f ih =>
    intro o bs p hp
    unfold pageCuts at hp
    split at hp
    · simp at hp
    · simp only [List.mem_cons] at hp
      rcases hp with rfl | hp
      · simp only [List.length_take]; omega
      · have := ih _ _ p hp
        omega

theorem saveHeader_length (s : State) (c n : Nat) (cmds : List MCmd) (stamps : List Nat) :
    (saveHeader s c n cmds stamps).length ≤ 128 := by
  have h : ∀ k l, (padTo k l).length ≤ max k l.length := by
    intro k l
    simp only [padTo, List.length_append, List.length_take, List.length_replicate]
    omega
  have e : ∀ n v, (toLe n v).length = n := by
    intro n
    induction n with
    | zero => exact fun _ => rfl
    | succ n ih => exact fun v => by simp only [toLe, List.length_cons, ih]
  unfold saveHeader
  rw [List.length_append, e]
  refine Nat.le_trans (Nat.add_le_add_right (h _ _) _) ?_
  simp only [List.length_append, e, w8]
  decide

/-- The save of an area whose pages translate succeeds, with the extension too. -/
theorem saveCtx_held (m : Bool) {n a lim : Nat} (s : State)
    (h : HeldBelow (flushOverflow s (myId s) n) (myId s) (me (flushOverflow s (myId s) n)).priv.toNat .write lim)
    (hh : (flushOverflow s (myId s) n).hbms = []) (hl : a + 0x89000 ≤ lim) : ∃ u, saveCtx s m n a = (u, none) := by
  have g := saveWrite_held (n := n) (a := a) _ h hh
  simp only [saveCtx]
  split
  · rename_i f hf
    refine absurd (g _ _ ⟨rfl, rfl, rfl, rfl, rfl⟩ ?_) (by rw [hf]; exact Option.some_ne_none _)
    intro p hp
    simp only [List.mem_append, List.mem_singleton] at hp
    rcases hp with (hp | hp) | rfl
    · split at hp
      · have := pageCuts_end _ _ _ p hp
        omega
      · exact absurd hp List.not_mem_nil
    · have := pageCuts_end _ _ _ p hp
      omega
    · have := saveHeader_length (flushOverflow s (myId s) n) (myId s) n
        ((getCore (flushOverflow s (myId s) n) (myId s)).mq.filter (fun q => q.ctx == n &&
          q.uid == (ctxOf (getCore (flushOverflow s (myId s) n) (myId s)) n).uid) ++
          (ctxOf (getCore (flushOverflow s (myId s) n) (myId s)) n).replay.getD [])
        ((ctxOf (getCore (flushOverflow s (myId s) n) (myId s)) n).stamps.take 16)
      simp only
      omega
  · exact ⟨_, rfl⟩

end Sys2Proof.Machine
end

