-- ==== Sys2Proof/Laws/Vector.lean ====
section
/-! SUPPORT. What the shared write of a vector result leaves in each lane and in FSTAT (06 R144, 03 R75). -/

namespace Sys2Proof.Machine

@[simp] theorem lane_mkV (f : Nat → Lane) (k : Nat) (h : k < 64) : lane (mkV f) k = f k := by
  simp [lane, mkV, h]

theorem lane_perLane (m : BitVec 64) (old : VWord) (f : Nat → Lane × FFlags) (k : Nat) (h : k < 64) :
    lane (perLane m old f).1 k = if m.getLsbD k then (f k).1 else lane old k := by
  simp only [perLane, lane_mkV _ _ h, List.getD_eq_getElem?_getD, List.getElem?_map]
  rw [List.getElem?_range h]
  simp only [Option.map_some, Option.getD_some]
  split <;> rfl

theorem getLsbD_foldl_or {α : Type} (l : List α) (g : α → FFlags) (b : Nat) : ∀ a : FFlags,
    (l.foldl (fun a r => a ||| g r) a).getLsbD b = (a.getLsbD b || l.any fun r => (g r).getLsbD b) := by
  induction l with
  | nil => exact fun a => by simp only [List.foldl_nil, List.any_nil, Bool.or_false]
  | cons x r ih => exact fun a => by simp only [List.foldl_cons, ih, BitVec.getLsbD_or, List.any_cons, Bool.or_assoc]

theorem flags_perLane (m : BitVec 64) (old : VWord) (f : Nat → Lane × FFlags) (b : Nat) :
    (perLane m old f).2.getLsbD b = true ↔ ∃ k, k < 64 ∧ m.getLsbD k = true ∧ (f k).2.getLsbD b = true := by
  have z : (0 : FFlags).getLsbD b = false := by simp
  simp only [perLane, getLsbD_foldl_or, z, Bool.false_or, List.any_map, List.any_eq_true, List.mem_range,
    Function.comp_apply]
  refine exists_congr fun k => and_congr_right fun _ => ?_
  by_cases h : m.getLsbD k = true
  · simp only [h, if_true, true_and]
  · simp only [h, Bool.false_eq_true, if_false, z, false_and]

/-- An instruction whose body writes its lanes one by one. -/
theorem vectorGives_putV (i : Instr) (s : State) (p : Pred) (d : VReg) (f : Nat → Lane × FFlags)
    (h : issues i s = true → exec i s = .next (endOf i s [] (putV s p d f))) : VectorGives i s p d f := fun hi =>
  ⟨_, _, h hi, fun k hk => lane_perLane _ _ _ k hk, fun b _ => flags_perLane _ _ _ b⟩

end Sys2Proof.Machine
end

