-- ==== Sys2Proof/Tests/Slice0.lean ====
section
/-! SUPPORT. Tests: the words of the encoding tables, ill-formed terms, single steps with results worked out from the
specification, and for each statement with hypotheses a state and operands that meet them. -/

namespace Sys2Proof.Tests

open Sys2Proof Sys2Proof.Machine

set_option Elab.async false

def c0 : Cond := ⟨0, false⟩
def p0 : Pred := ⟨0, false⟩
def r (n : SReg) : SSrc := ⟨n, false⟩
def v (n : VReg) : VSrc := ⟨n, false⟩

/-! Decoding: each word is written out from the fields of 06 Table 6.2 and the table that the theorem's docstring cites. -/

/-- Every word decodes to its instruction, which is well-formed and encodes to the same bytes. -/
def readsAs (l : List (Nat × Nat × Instr)) : Bool :=
  l.all fun e => e.2.2.wf && decodeTableWord e.1 e.2.1 == some e.2.2 && encode e.2.2 == some (leBytes (e.1 / 8) e.2.1)

/-- Words as the specification prints them: 06 Table 6.10, 07 Table 7.8, 08 R198 and Table 8.10, 04 R106. -/
theorem test_decode_printed : readsAs [
    (64, 0x0000000071850040, .add c0 false 5 (r 6) (.reg (r 7))),
    (64, 0xFFFFF00801858040, .add ⟨2, false⟩ false 5 (r 6) (.imm (.i24 0xFFFFF0))),
    (64, 0x000004003081010C, .vfma p0 .f32 1 (v 2) (.v (v 3)) (v 4)),
    (96, 0x123456780000000001858041, .add c0 false 5 (r 6) (.imm (.i32 0x12345678))),
    (64, 0x0000004871850040, .add ⟨2, false⟩ false 5 ⟨6, true⟩ (.reg (r 7))),
    (128, 0x0000000800000004000000000009800A, .li c0 9 (.i64 0x800000004)),
    (64, 0x00018900204000F8, .rngset c0 (r 1) (r 2) (r 9) 3), (64, 0x00000300000A80F4, .grab c0 10 (.imm 3)),
    (64, 0x0000060002C00020, .cbr c0 .eq (r 11) (r 0) (.i24 6)), (64, 0xFFFFFA000000801C, .br c0 (.i24 0xFFFFFA)),
    (64, 0x00000001650000D4, .feclr c0 (r 20) (.i24 0) (r 22)),
    (64, 0x0000010000000260, .fencee c0 .core), (64, 0x0003960155000240, .cpy c0 7 0 0 (r 20) (r 21) (r 22)),
    (64, 0x0000380005050CD0, .ldsy c0 .d false false 5 (r 20) (.i24 56)), (64, 0x0000070000060248, .cpyw c0 false 7 6),
    (64, 0x0008010000830190, .vcvt p0 .f16 .f32 .rne false 1 3 (v 2)),
    (64, 0x0000050001000330, .wdset c0 5 (r 4)), (64, 0x0000060000050334, .wdget c0 5 6)] = true := by decide +kernel

/-- 07 Table 7.1. -/
theorem test_decode_control : readsAs [
    (64, 0x0000002C00000004, .nop ⟨3, true⟩),
    (64, 0xFFFFF00000098008, .li c0 9 (.i24 0xFFFFF0)),
    (96, 0x400000000000000000158009, .li c0 21 (.i32 0x40000000)),
    (128, 0x0000000800000004000000000009800A, .li c0 9 (.i64 0x0000000800000004)),
    (64, 0x000000400185000C, .mov c0 5 ⟨6, true⟩),
    (64, 0x0000438071850010, .sel c0 5 ⟨3, true⟩ (r 6) (.reg ⟨7, true⟩)),
    (64, 0xFFFF030001858010, .sel c0 5 ⟨3, false⟩ (r 6) (.imm (.i17 0x1FFFE))),
    (64, 0x0000000071841814, .cmpq c0 .tst 4 (r 6) (.reg (r 7))),
    (64, 0x0000640001849014, .cmpq c0 .ltu 4 (r 6) (.imm (.i24 100))),
    (64, 0x0000008071840C18, .qop c0 4 ⟨6, false⟩ (.bin .andn ⟨7, true⟩)),
    (64, 0x0000000001841018, .qop c0 4 ⟨6, false⟩ .not),
    (64, 0xFFFFFA000000801C, .br c0 (.i24 0xFFFFFA)),
    (96, 0x01000000000000000000801D, .br c0 (.i32 0x1000000)),
    (64, 0x00000600C2C00C20, .cbr c0 .ge (r 11) (r 12) (.i24 6)),
    (64, 0x00000800003E8024, .jl c0 62 (.i24 8)),
    (64, 0x0000200002FE0028, .jlr c0 62 (r 11) (.i24 32)),
    (64, 0x000004000F80002C, .jr c0 (r 62) (.i24 4)),
    (64, 0x0012340000008030, .trap c0 0x1234),
    (64, 0x0043210000008034, .syscall c0 0x4321),
    (64, 0x0000000000000038, .done c0),
    (64, 0x000064000000803C, .yield c0 100)] = true := by decide +kernel

/-- 07 Table 7.3, 06 Table 6.10. -/
theorem test_decode_integer : readsAs [
    (64, 0x0000008071850440, .add c0 true 5 (r 6) (.reg ⟨7, true⟩)),
    (64, 0x0000008071850444, .sub c0 true 5 (r 6) (.reg ⟨7, true⟩)),
    (64, 0x0000008071850448, .mul c0 true 5 (r 6) (.reg ⟨7, true⟩)),
    (64, 0x000000007185004C, .mulh c0 5 (r 6) (.reg (r 7))),
    (64, 0xFFFFF04001858050, .mulhu c0 5 ⟨6, true⟩ (.imm (.i24 0xFFFFF0))),
    (64, 0x0000008071850454, .div c0 true 5 (r 6) (.reg ⟨7, true⟩)),
    (64, 0x0000008071850458, .divu c0 true 5 (r 6) (.reg ⟨7, true⟩)),
    (64, 0x000000807185045C, .rem c0 true 5 (r 6) (.reg ⟨7, true⟩)),
    (64, 0x0000008071850460, .remu c0 true 5 (r 6) (.reg ⟨7, true⟩)),
    (64, 0x0000000071850064, .and c0 5 (r 6) (.reg (r 7))),
    (64, 0xFFFFF04001858068, .or c0 5 ⟨6, true⟩ (.imm (.i24 0xFFFFF0))),
    (64, 0x000000007185006C, .xor c0 5 (r 6) (.reg (r 7))),
    (64, 0xFFFFF04001858070, .andn c0 5 ⟨6, true⟩ (.imm (.i24 0xFFFFF0))),
    (64, 0x0000008071850474, .shl c0 true 5 (r 6) (.reg ⟨7, true⟩)),
    (64, 0x0000008071850478, .shr c0 true 5 (r 6) (.reg ⟨7, true⟩)),
    (64, 0x000000807185047C, .sar c0 true 5 (r 6) (.reg ⟨7, true⟩)),
    (64, 0x0000008071850480, .ror c0 true 5 (r 6) (.reg ⟨7, true⟩)),
    (64, 0x0000000071850084, .min c0 5 (r 6) (.reg (r 7))),
    (64, 0xFFFFF04001858088, .max c0 5 ⟨6, true⟩ (.imm (.i24 0xFFFFF0))),
    (64, 0x000000007185008C, .minu c0 5 (r 6) (.reg (r 7))),
    (64, 0xFFFFF04001858090, .maxu c0 5 ⟨6, true⟩ (.imm (.i24 0xFFFFF0))),
    (64, 0xFFFFF00801858040, .add ⟨2, false⟩ false 5 (r 6) (.imm (.i24 0xFFFFF0))),
    (96, 0x123456780000000001858041, .add c0 false 5 (r 6) (.imm (.i32 0x12345678))),
    (64, 0x0000000001850094, .clz c0 5 (r 6)),
    (64, 0x0000000001850098, .ctz c0 5 (r 6)),
    (64, 0x000000000185009C, .popc c0 5 (r 6)),
    (64, 0x00000F00018580A0, .sext c0 5 (r 6) 15),
    (64, 0x00002000018580A4, .zext c0 5 (r 6) 32),
    (64, 0x0000400071850CA8, .lea c0 5 (r 6) (r 7) 3 (.i24 64)),
    (64, 0x0001C300018584AC, .bfx c0 true 5 (r 6) (.imm 3 7)),
    (64, 0x00000000718500B0, .bfi c0 5 (r 6) (.reg (r 7))),
    (64, 0x00000C00000580B4, .rdspec c0 5 12),
    (64, 0x00000000024504B8, .empty c0 5 (.v 9))] = true := by decide +kernel

/-- 08 Table 8.6. -/
theorem test_decode_memory : readsAs [
    (64, 0x00003800018538C0, .ld c0 .w true true 5 (r 6) (.i24 56)),
    (64, 0x00000800718004C4, .st c0 .h false (r 6) (.i24 8) (r 7)),
    (64, 0x0000000001854CC8, .lda c0 .d .stack 5 (r 6) (.i24 0)),
    (64, 0x0000000071805CCC, .stl c0 .d .system (r 6) (.i24 0) (r 7)),
    (64, 0x0000380005050CD0, .ldsy c0 .d false false 5 (r 20) (.i24 56)),
    (96, 0x0100000000000001650000D5, .feclr c0 (r 20) (.i32 0x1000000) (r 22)),
    (64, 0x00002000018004D8, .pref c0 true (r 6) (.i24 32))] = true := by decide +kernel

/-- 07 Table 7.5. -/
theorem test_decode_tasks : readsAs [
    (64, 0x00144300204000E0, .send c0 (r 1) (r 2) ⟨3, true⟩ 40 none),
    (96, 0x00002000001F8300204000E1, .send c0 (r 1) (r 2) (r 3) 63 (some 0x2000)),
    (64, 0x00028300204400E4, .sendp c0 4 (r 1) (r 2) (r 3) 5),
    (64, 0x00004900000580E8, .chmask c0 5 (.imm 9 true)),
    (64, 0x00000000718500E8, .chmask c0 5 (.reg (r 6) (r 7))),
    (64, 0x00000600000080EC, .bara c0 6),
    (64, 0x00000500000080F0, .barw c0 5),
    (64, 0x00000300000A80F4, .grab c0 10 (.imm 3)),
    (64, 0x00000000010A00F4, .grab c0 10 (.reg (r 4))),
    (64, 0x00018900204000F8, .rngset c0 (r 1) (r 2) (r 9) 3),
    (64, 0x00002100000080FC, .flowsig c0 33)] = true := by decide +kernel

/-- 08 Tables 8.1 and 8.2. -/
theorem test_decode_vectors : readsAs [
    (64, 0x000000A830810500, .vadd ⟨2, true⟩ .f16 1 (v 2) (.v ⟨3, true⟩)),
    (64, 0x000000A830810504, .vsub ⟨2, true⟩ .f16 1 (v 2) (.v ⟨3, true⟩)),
    (64, 0x000000A830810508, .vmul ⟨2, true⟩ .f16 1 (v 2) (.v ⟨3, true⟩)),
    (64, 0x000004003081010C, .vfma p0 .f32 1 (v 2) (.v (v 3)) (v 4)),
    (64, 0x0000040030810110, .vfms p0 .f32 1 (v 2) (.v (v 3)) (v 4)),
    (64, 0x0000040030810114, .vfnma p0 .f32 1 (v 2) (.v (v 3)) (v 4)),
    (64, 0x0000000210814918, .vmin p0 .bf16 1 (v 2) (.s (r 33))),
    (64, 0x000000021081491C, .vmax p0 .bf16 1 (v 2) (.s (r 33))),
    (64, 0x0000000000810520, .vabs p0 .f16 1 (v 2)),
    (64, 0x0000000000810524, .vneg p0 .f16 1 (v 2)),
    (64, 0x0000000000810128, .vrcp p0 1 (v 2)),
    (64, 0x000000000081012C, .vrsq p0 1 (v 2)),
    (64, 0x0000000000810134, .vsqrt p0 1 (v 2)),
    (64, 0x000000000081013C, .vexp2 p0 1 (v 2)),
    (64, 0x0000000000810140, .vlog2 p0 1 (v 2)),
    (64, 0x0000000210814130, .vrsqe p0 1 (v 2) (r 33)),
    (64, 0x0000000030810138, .vdiv p0 1 (v 2) (.v (v 3))),
    (64, 0x0000000000810944, .vclass p0 .bf16 1 (v 2)),
    (64, 0x0000000030811548, .viadd p0 .i32 1 (v 2) (.v (v 3))),
    (64, 0x000000021081594C, .visub p0 .i16 1 (v 2) (.s (r 33))),
    (64, 0xFFFFFF0000819D50, .vimul p0 .i8 1 (v 2) (.imm (.i24 0xFFFFFF))),
    (64, 0x0000000030812154, .vimulh p0 .uw 1 (v 2) (.v (v 3))),
    (64, 0x0000000210816558, .vand p0 .uh 1 (v 2) (.s (r 33))),
    (64, 0xFFFFFF000081A95C, .vor p0 .ub 1 (v 2) (.imm (.i24 0xFFFFFF))),
    (64, 0x0000000030811560, .vxor p0 .i32 1 (v 2) (.v (v 3))),
    (64, 0x0000000210815964, .vshl p0 .i16 1 (v 2) (.s (r 33))),
    (64, 0xFFFFFF0000819D68, .vshr p0 .i8 1 (v 2) (.imm (.i24 0xFFFFFF))),
    (64, 0x000000003081216C, .vsar p0 .uw 1 (v 2) (.v (v 3))),
    (64, 0x0000000210816570, .vimin p0 .uh 1 (v 2) (.s (r 33))),
    (64, 0xFFFFFF000081A974, .vimax p0 .ub 1 (v 2) (.imm (.i24 0xFFFFFF))),
    (64, 0x0000000030811578, .vqadd p0 .i32 1 (v 2) (.v (v 3)))] = true := by decide +kernel

/-- 08 R195 to R202. -/
theorem test_decode_lanes : readsAs [
    (64, 0x000006003084017C, .vcmp p0 .f32 .un 4 (v 2) (.v (v 3))),
    (64, 0x000005021084617C, .vcmp p0 .uw .ge 4 (v 2) (.s (r 33))),
    (64, 0x000009003084017C, .vcmp p0 .f32 (.bad 1) 4 (v 2) (.v (v 3))),
    (64, 0x0000050030810180, .vsel p0 1 5 (v 2) (.v (v 3))),
    (64, 0x0000000061440984, .plog p0 4 5 (.bin .xor 6)),
    (64, 0x0000000001441584, .plog p0 4 5 .mov),
    (64, 0x0000000001490188, .pcnt p0 9 5),
    (64, 0x000000000149018C, .pfirst p0 9 5),
    (64, 0x0008010000830190, .vcvt p0 .f16 .f32 .rne false 1 3 (v 2)),
    (64, 0x001F030000830190, .vcvt p0 .e4m3 .f32 .rup true 3 3 (v 2)),
    (64, 0x0000190210830594, .vqnt p0 true .rtz 6 3 (v 2) (r 33)),
    (64, 0x0000080210830198, .vdqnt p0 false 2 3 (v 2) (r 33)),
    (64, 0x000000000843059C, .vbcast p0 .h 3 (r 33)),
    (64, 0x0000280000A181A0, .vextr p0 33 (v 2) (.imm 40)),
    (64, 0x00000002284301A4, .vins p0 3 (r 33) (.reg (r 34))),
    (64, 0x00000000408301A8, .vshuf p0 3 (v 2) (v 4)),
    (64, 0x00002800008381AC, .vrot p0 3 (v 2) (.imm 40)),
    (64, 0x00000000084301B0, .viota p0 3 (r 33)),
    (64, 0x00000000008301B4, .vmov p0 3 (v 2)),
    (64, 0x0000000000A111B8, .vred p0 .smax 33 (v 2)),
    (64, 0x0000000000831DBC, .vscan p0 .umin 3 (v 2)),
    (64, 0x00000000408329C0, .vdot p0 .ub 3 (v 2) (v 4))] = true := by decide +kernel

/-- 08 R209 to R213. -/
theorem test_decode_vector_memory : readsAs [
    (64, 0x0000400008432200, .vld p0 true 3 (r 33) (.i24 64)),
    (96, 0x010000000000000048400205, .vst p0 false (r 33) (.i32 0x1000000) (v 4)),
    (64, 0xFFFE220008430208, .vlds p0 false 3 (r 33) (.i17 0x1FFFC) (r 34)),
    (64, 0x000822004840020C, .vsts p0 false (r 33) (.i17 16) (v 4) (r 34)),
    (64, 0x0008050008430A10, .vgth p0 2 false 3 (r 33) (.i17 16) (v 5)),
    (64, 0x0008050048402614, .vsct p0 1 true (r 33) (.i17 16) (v 4) (v 5)),
    (64, 0x0000400008430218, .vldsy p0 false 3 (r 33) (.i24 64)),
    (64, 0x000023022842021C, .strm p0 2 (r 33) (r 34) (r 35)),
    (64, 0x0000000000830220, .spopStream p0 3 2),
    (64, 0x0000000000430620, .spopFifo p0 3 1),
    (64, 0x0000000001020224, .spush p0 2 (v 4))] = true := by decide +kernel

/-- 08 R215 to R222. -/
theorem test_decode_copies : readsAs [
    (64, 0x0083960155000240, .cpy c0 7 1 0 (r 20) (r 21) (r 22)),
    (64, 0x0703960155000240, .cpy c0 7 2 3 (r 20) (r 21) (r 22)),
    (128, 0x00010002000300040004070155000246, .cpy2d c0 7 0 1 (r 20) (r 21) 1 2 3 4),
    (64, 0x0001000000060248, .cpyw c0 true 0 6),
    (128, 0x8000000000000001220396015517024E, .cpyst c0 7 .stack 0 1 (r 20) (r 21) (r 22) 23 0x8000000000000001),
    (64, 0x00000A0071852A50, .amo c0 false .cluster .swap true false 5 (r 6) (r 7)),
    (64, 0x0009880071854254, .amocas c0 true .stratum false true 5 (r 6) (r 7) (r 8)),
    (64, 0x0000110071805A58, .amor c0 true .core .umax true (r 6) (r 7)),
    (64, 0x000054000000025C, .fence c0 .stack 0b1010),
    (64, 0x0000010000000260, .fencee c0 .core)] = true := by decide +kernel

/-- 09 Table 9.1. -/
theorem test_decode_matrix : readsAs [
    (64, 0x0000000000000280, .mlease c0),
    (64, 0x0000000000000284, .mrel c0),
    (128, 0xD000000000000040000000000500068A, .mls c0 true false (some 5) (r 20) 64),
    (128, 0xA000007F00000040000000000504068E, .mma c0 true false (some 2) 4 (r 20) 127 64),
    (128, 0x000000FF000000408000000015040A92, .mmag c0 false true none 4 (r 20) 1 0x800000 255 64),
    (128, 0xD0000000000000400000000005041696, .mrot c0 true false (some 5) 4 (some (r 20, 64))),
    (128, 0x00000000000000000000000000040A96, .mrot c0 false true none 4 none),
    (128, 0x0000000000001000000000015500069A, .mldt c0 true false (r 20) (r 21) 4096),
    (128, 0x00000663000000400000000045000A9E, .mst c0 false true false .rup none (r 20) 4 99 64),
    (64, 0x00000200000402A0, .mzero c0 4 2 .short),
    (128, 0xD00000000000000000000200000402A2, .mzero c0 4 2 (.long (some 5))),
    (64, 0x00000000000906A4, .mstat c0 true 9),
    (64, 0x0000054000C002A8, .gset c0 5 (.q ⟨3, true⟩)),
    (64, 0x00000D00000082A8, .gset c0 5 (.imm true)),
    (64, 0x00000500000002AC, .gclr c0 5),
    (64, 0x00000500000006AC, .gclrR c0 5),
    (64, 0x00000800000002B0, .mwait c0 8)] = true := by decide +kernel

/-- 09 Table 9.6. -/
theorem test_decode_retrieval : readsAs [
    (64, 0x00000300028002C0, .rtset c0 3 (r 10)),
    (64, 0x00000300028006C0, .rtsetInit c0 3 (r 10)),
    (64, 0x00000300028202C4, .rhv c0 2 3 (r 10)),
    (128, 0x0007FFF8000000FF00004300028906CA, .rprobe c0 9 (r 10) 3 4 255 (some 0x7FFF8)),
    (128, 0x00000000000000FF00004300028902CA, .rprobe c0 9 (r 10) 3 4 255 none),
    (64, 0x00000300028002CC, .rins c0 3 (r 10)),
    (64, 0x00000300028002D0, .rdel c0 3 (r 10)),
    (64, 0x00000300B28002D4, .rhash c0 3 (r 10) (r 11)),
    (64, 0x00000300200006D4, .rhashFifo c0 3 2),
    (64, 0x00000300000202D8, .rdirty c0 2 3),
    (64, 0x00000200000002DC, .rfence c0 .cluster),
    (64, 0x00005300000906E0, .rstat c0 true 9 3 5)] = true := by decide +kernel

/-- 10 Table 10.2. -/
theorem test_decode_plasticity : readsAs [
    (64, 0x00000900028002E4, .trate c0 9 (r 10)),
    (64, 0x00000300028002E8, .treg c0 3 (r 10)),
    (64, 0x00000300028006E8, .tregInit c0 3 (r 10)),
    (64, 0x0000030000000AE8, .tregX c0 3),
    (64, 0x00000300000002EC, .tstep c0 3),
    (64, 0x53418500428002F0, .tadv c0 3 (r 10) (v 4) (v 5) 40 41),
    (64, 0x5201A800428002F4, .tadvr c0 3 (r 10) (v 4) (r 40) 41),
    (64, 0x00029300028702F8, .trd c0 7 3 (r 10) 41),
    (64, 0x08001300028002FC, .tclrE c0 3 (r 10) 0x8001),
    (64, 0x08001300028006FC, .tclrD c0 3 (r 10) 0x8001),
    (64, 0x00000000A2400300, .rwd c0 (r 9) (r 10)),
    (64, 0x00000000A2400700, .rwdC c0 (r 9) (r 10)),
    (64, 0x0000000002400304, .rwdw c0 (r 9)),
    (64, 0x0000030000090708, .trhz c0 true 9 3 0), (64, 0x0000C10000090308, .trhz c0 false 9 1 12)] = true := by decide +kernel

/-- 10 Tables 10.9 and 10.10, 04 Table 4.6. -/
theorem test_decode_stack : readsAs [
    (64, 0x0000080075000B0C, .sts c0 .w (r 20) (.i24 8) (r 7)),
    (64, 0x0000000002400310, .swait c0 (r 9)),
    (64, 0x0000000000000710, .swaitOwn c0),
    (64, 0x0000000000090314, .rdtime c0 9),
    (128, 0x000000000000007F000000015500031A, .stsb c0 (r 20) (r 21) 127),
    (64, 0x00000C0000090320, .bqpop c0 9 12),
    (64, 0x00000400B2890B24, .bred c0 .min .e5m2 9 (r 10) (r 11)),
    (64, 0x00010C00B2800328, .bsend c0 .bf16 (r 10) (r 11) (r 12)),
    (64, 0x00000C000000032C, .bqdone c0 12),
    (64, 0x0000050001000330, .wdset c0 5 (r 4)),
    (64, 0x0000050000050334, .wdget c0 5 5)] = true := by decide +kernel

/-- 16 Table 16.3. -/
theorem test_decode_system : readsAs [
    (64, 0x000ABC0000050380, .csrr c0 5 0xABC),
    (64, 0x000ABC0001850384, .csrw c0 5 0xABC (r 6)),
    (64, 0x000ABC0001850388, .csrs c0 5 0xABC (r 6)),
    (64, 0x000ABC000185038C, .csrc c0 5 0xABC (r 6)),
    (64, 0x0000000000000390, .eret c0),
    (64, 0x0000000001800394, .tlbiPage c0 (r 6)),
    (64, 0x0000000000000794, .tlbiAll c0),
    (64, 0x0000000001800B94, .tlbiKid c0 (r 6)),
    (64, 0x0000030005050398, .ctxsv c0 5 3 (r 20)),
    (64, 0x00000B0005050398, .ctxsvM c0 5 3 (r 20)),
    (64, 0x000003000505039C, .ctxld c0 5 3 (r 20)),
    (64, 0x00000B000505039C, .ctxldM c0 5 3 (r 20)),
    (64, 0x00000000000003A0, .wfi c0),
    (64, 0x00000000718003A4, .satw c0 (r 6) (r 7)),
    (64, 0x00140800718003A8, .chset c0 (r 6) 40 (r 7) (r 8)),
    (64, 0x00000000028903AC, .preempt c0 9 (r 10)),
    (64, 0x00000000028903B0, .sleeps c0 9 (r 10)),
    (64, 0x00000000028903B4, .wakes c0 9 (r 10)),
    (64, 0x00000000028903B8, .gangctlStatus c0 9 (r 10)),
    (64, 0x00000000028907B8, .gangctlResume c0 9 (r 10)),
    (64, 0x0000000002890BB8, .gangctlKill c0 9 (r 10))] = true := by decide +kernel

/-! What is refused. -/

/-- A step of the device has no word, a condition or predicate that never holds is no instruction (06 R142), nor is a form
that the tables do not list (08 R203, R219, 07 R179). -/
theorem test_ill_formed : ([.coldReset, .nop ⟨0, true⟩, .vmov ⟨0, true⟩ 1 (v 2), .ld c0 .d true false 5 (r 6) (.i24 0),
    .ldsy c0 .d true false 5 (r 6) (.i24 0), .send c0 (r 1) (r 2) (r 3) 62 (some 0),
    .amo c0 true .core .fadd false false 5 (r 6) (r 7), .amor c0 true .core .fmax false (r 6) (r 7)] : List Instr).all
      (fun i => !i.wf) = true := by decide +kernel

/-- The neighbours of those terms are well-formed. -/
theorem test_well_formed : ([.nop ⟨0, false⟩, .nop ⟨1, true⟩, .ld c0 .w true false 5 (r 6) (.i24 0),
    .ld c0 .d false true 5 (r 6) (.i24 0), .send c0 (r 1) (r 2) (r 3) 63 (some 0), .send c0 (r 1) (r 2) (r 3) 62 none,
    .amo c0 false .core .fadd false false 5 (r 6) (r 7), .amor c0 true .core .umax false (r 6) (r 7)] : List Instr).all
      Instr.wf = true := by decide +kernel

/-- Each word's failure in the order of 06 Table 6.5: an unassigned major, a function and a length that LI does not list,
a shared code that is reserved; a reserved field,
among them the k of TRHZ where its selector names nothing and the tag of CPYW.ALL; a register outside its file. -/
theorem test_refused : ([0x00000000000000BC, 0xFFFFFFFFFFFFF008, 0x0000000000000005, 0x0000000000002D00,
      0x0000000000010004, 0x0000002000000004, 0x0000000000008014, 0x0000000000080014,
      0x0000C30000090708, 0x0001070000060248] : List Nat).map
    (fun w => decodeBytes (leBytes 16 w)) =
    [some (.error .illegal), some (.error .illegal), some (.error .illegal), some (.error .illegal),
     some (.error .reserved), some (.error .reserved), some (.ok (.cmpq c0 .eq 0 (r 0) (.imm (.i24 0)))),
     some (.error .badReg), some (.error .reserved), some (.error .reserved)] := by decide +kernel

/-! States for the tests below: context 0 of core 0 issues next, every register 0 but those set here. -/

/-- Partition 0 runs on stratum 0; the context is at task privilege (log 5). -/
def base : State := placeReady State.reset
def withS (s : State) (l : List (SReg × Word)) : State := modRegs s fun g => l.foldl (fun g e => wrS g e.1 e.2) g
def withCtx (s : State) (f : Ctx → Ctx) : State := modMe s f
/-- At system privilege. -/
def sys : State := withCtx base fun x => { x with priv := 1 }
/-- Every instruction of the list executes normally in the state. -/
def runs (s : State) (l : List Instr) : Bool := l.all fun i => issues i s
/-- What a step of the instruction leaves in a scalar register. -/
def sAfter (i : Instr) (s : State) (n : SReg) : Option Word :=
  match exec i s with
  | .next t => some (rdS (myRegs t) n)
  | _ => none
/-- The registers s6 and s7 of the scalar tests. -/
def ab (x y : Word) : State := withS base [(6, x), (7, y)]

def minI : Word := 0x8000000000000000
def r7 : OpB := .reg (r 7)

/-! Scalar instructions (07). -/

theorem witness_Arithmetic64 : opB (ab 5 3) r7 ≠ 0 ∧ runs (ab 5 3) [.add c0 false 5 (r 6) r7, .sub c0 false 5 (r 6) r7,
    .mul c0 false 5 (r 6) r7, .mulh c0 5 (r 6) r7, .mulhu c0 5 (r 6) r7, .div c0 false 5 (r 6) r7,
    .divu c0 false 5 (r 6) r7, .rem c0 false 5 (r 6) r7, .remu c0 false 5 (r 6) r7] = true := by decide +kernel

theorem witness_DivisionTable : opB (ab 5 0) r7 = 0 ∧ sv (ab minI (-1)) (r 6) = BitVec.intMin 64 ∧
    opB (ab minI (-1)) r7 = -1 ∧ runs (ab 5 0) [.div c0 false 5 (r 6) r7, .divu c0 false 5 (r 6) r7,
    .rem c0 false 5 (r 6) r7, .remu c0 false 5 (r 6) r7] = true ∧ runs (ab minI (-1)) [.div c0 false 5 (r 6) r7,
    .rem c0 false 5 (r 6) r7, .shl c0 false 5 (r 6) r7, .shr c0 false 5 (r 6) r7, .sar c0 false 5 (r 6) r7,
    .ror c0 false 5 (r 6) r7, .and c0 5 (r 6) (.imm (.i24 1)), .or c0 5 (r 6) (.imm (.i32 1)), .xor c0 5 (r 6) r7,
    .andn c0 5 (r 6) r7] = true := by decide +kernel

theorem witness_Arithmetic32 : (opB (ab 5 (2 ^ 32)) r7).setWidth 32 = (0 : BitVec 32) ∧
    (opB (ab 5 (2 ^ 32 + 3)) r7).setWidth 32 ≠ (0 : BitVec 32) ∧
    (sv (ab 0x80000000 (2 ^ 32 - 1)) (r 6)).setWidth 32 = BitVec.intMin 32 ∧
    (opB (ab 0x80000000 (2 ^ 32 - 1)) r7).setWidth 32 = (-1 : BitVec 32) ∧
    ([ab 5 (2 ^ 32), ab 5 (2 ^ 32 + 3), ab 0x80000000 (2 ^ 32 - 1)].all fun s => runs s [.div c0 true 5 (r 6) r7,
      .divu c0 true 5 (r 6) r7, .rem c0 true 5 (r 6) r7, .remu c0 true 5 (r 6) r7, .add c0 true 5 (r 6) r7,
      .sub c0 true 5 (r 6) r7, .mul c0 true 5 (r 6) r7, .shl c0 true 5 (r 6) r7, .shr c0 true 5 (r 6) r7,
      .sar c0 true 5 (r 6) r7, .ror c0 true 5 (r 6) r7]) = true ∧
    decodeRaw (Raw.unpack 0x0000000071850440) .none = .ok (.add c0 true 5 (r 6) r7) := by decide +kernel

theorem witness_BitsAndFields : sv (ab 0 0) (r 6) = 0 ∧ 2 ^ 63 ≤ (sv (ab minI 0) (r 6)).toNat ∧
    (sv (ab minI 0) (r 6)).toNat < 2 ^ (63 + 1) ∧ (sv (ab minI 0) (r 6)).toNat % 2 ^ 63 = 0 ∧
    (sv (ab minI 0) (r 6)).toNat / 2 ^ 63 % 2 = 1 ∧ 2 ^ 0 ≤ (sv (ab 1 0) (r 6)).toNat ∧
    (sv (ab 1 0) (r 6)).toNat < 2 ^ (0 + 1) ∧ (sv (ab 1 0) (r 6)).toNat % 2 ^ 0 = 0 ∧
    (sv (ab 1 0) (r 6)).toNat / 2 ^ 0 % 2 = 1 ∧ ([ab 0 0, ab minI 0, ab 1 0].all fun s => runs s [.min c0 5 (r 6) r7,
      .max c0 5 (r 6) r7, .minu c0 5 (r 6) r7, .maxu c0 5 (r 6) r7, .clz c0 5 (r 6), .ctz c0 5 (r 6), .popc c0 5 (r 6),
      .sext c0 5 (r 6) 15, .zext c0 5 (r 6) 15, .lea c0 5 (r 6) (r 7) 3 (.i24 1), .bfx c0 false 5 (r 6) (.imm 60 63),
      .bfx c0 true 5 (r 6) (.reg (r 7)), .bfi c0 5 (r 6) (.imm 60 63)]) = true := by decide +kernel

theorem witness_MovesAndConditions : runs (ab 1 2) [.nop c0, .li c0 5 (.i24 1), .mov c0 5 (r 6),
    .sel c0 5 ⟨3, false⟩ (r 6) (.reg (r 7)), .cmpq c0 .eq 3 (r 6) r7, .qop c0 3 ⟨4, false⟩ (.bin .andn ⟨5, false⟩),
    .qop c0 3 ⟨4, false⟩ .not, .qop c0 3 ⟨4, false⟩ .mov, .empty c0 5 (.s 6), .rdspec c0 5 12, .wdget c0 5 7,
    .rdtime c0 5] = true ∧ rdspec (ab 1 2) (12 : BitVec 8).toNat = some 0 := by decide +kernel

theorem test_add : sAfter (.add c0 false 5 (r 6) r7) (ab (-1) 3) 5 = some 2 := by decide +kernel
theorem test_add_wraps_i32 : sAfter (.add c0 true 5 (r 6) r7) (ab 0x7FFFFFFF 1) 5 = some 0xFFFFFFFF80000000 := by
  decide +kernel
theorem test_sub : sAfter (.sub c0 false 5 (r 6) (.imm (.i24 0xFFFFFF))) (ab 4 0) 5 = some 5 := by decide +kernel
theorem test_mul : sAfter (.mul c0 false 6 (r 6) r7) (ab (-3) 5) 6 = some (-15) := by decide +kernel
theorem test_mulh : sAfter (.mulh c0 5 (r 6) r7) (ab (-3) 5) 5 = some (-1) := by decide +kernel
theorem test_mulhu : sAfter (.mulhu c0 5 (r 6) r7) (ab (-3) 5) 5 = some 4 := by decide +kernel
theorem test_div : sAfter (.div c0 false 5 (r 6) r7) (ab (-7) 2) 5 = some (-3) := by decide +kernel
theorem test_divu_zero_i32 : sAfter (.divu c0 true 5 (r 6) r7) (ab 7 0) 5 = some (-1) := by decide +kernel
theorem test_rem : sAfter (.rem c0 false 5 (r 6) r7) (ab (-7) 2) 5 = some (-1) := by decide +kernel
theorem test_remu : sAfter (.remu c0 false 5 (r 6) r7) (ab (-7) 10) 5 = some 9 := by decide +kernel
theorem test_and : sAfter (.and c0 5 (r 6) (.imm (.i24 0x800000))) (ab (-1) 0) 5 = some 0xFFFFFFFFFF800000 := by
  decide +kernel
theorem test_andn : sAfter (.andn c0 5 (r 6) r7) (ab 0xFF 0x0F) 5 = some 0xF0 := by decide +kernel
theorem test_shl : sAfter (.shl c0 false 5 (r 6) r7) (ab 1 65) 5 = some 2 := by decide +kernel
theorem test_shr_i32 : sAfter (.shr c0 true 5 (r 6) r7) (ab 0xFFFFFFFF80000000 31) 5 = some 1 := by decide +kernel
theorem test_sar : sAfter (.sar c0 false 5 (r 6) r7) (ab minI 63) 5 = some (-1) := by decide +kernel
theorem test_ror_i32 : sAfter (.ror c0 true 5 (r 6) r7) (ab 1 1) 5 = some 0xFFFFFFFF80000000 := by decide +kernel
theorem test_min : sAfter (.min c0 5 (r 6) r7) (ab (-1) 1) 5 = some (-1) := by decide +kernel
theorem test_maxu : sAfter (.maxu c0 5 (r 6) r7) (ab (-1) 1) 5 = some (-1) := by decide +kernel
theorem test_clz : sAfter (.clz c0 5 (r 6)) (ab 1 0) 5 = some 63 := by decide +kernel
theorem test_ctz : sAfter (.ctz c0 5 (r 6)) (ab 0 0) 5 = some 64 := by decide +kernel
theorem test_popc : sAfter (.popc c0 5 (r 6)) (ab (-1) 0) 5 = some 64 := by decide +kernel
theorem test_sext : sAfter (.sext c0 5 (r 6) 7) (ab 0x180 0) 5 = some 0xFFFFFFFFFFFFFF80 := by decide +kernel
theorem test_zext : sAfter (.zext c0 5 (r 6) 7) (ab 0x180 0) 5 = some 0x80 := by decide +kernel
theorem test_lea : sAfter (.lea c0 5 (r 6) (r 7) 3 (.i24 0xFFFFFF)) (ab 1 2) 5 = some 16 := by decide +kernel
theorem test_bfx_clipped : sAfter (.bfx c0 true 5 (r 6) (.imm 60 7)) (ab minI 0) 5 = some (-8) := by decide +kernel
theorem test_bfi : sAfter (.bfi c0 7 (r 6) (.imm 4 3)) (ab 0xAB (-1)) 7 = some 0xFFFFFFFFFFFFFFBF := by decide +kernel
theorem test_li : sAfter (.li c0 5 (.i24 0x800000)) base 5 = some 0xFFFFFFFFFF800000 := by decide +kernel
theorem test_sel : sAfter (.sel c0 5 ⟨0, false⟩ (r 6) (.imm (.i17 1))) (ab 9 0) 5 = some 9 := by decide +kernel
/-- s63 reads the address of the instruction (06 R150). -/
theorem test_mov_pc : sAfter (.mov c0 5 (r 63)) base 5 = some 0x200000 := by decide +kernel
/-- A false condition: nothing but the next address (06 R143). -/
theorem test_false_condition : sAfter (.li ⟨3, false⟩ 5 (.i24 1)) base 5 = some 0 ∧
    sAfter (.li ⟨3, false⟩ 5 (.i24 1)) base 63 = some 0x200008 := by decide +kernel
/-- An instruction of 96 bits at block offset 20 skips the tail (06 R136). -/
theorem test_block_tail : sAfter (.li c0 5 (.i32 1)) (modRegs base fun g => { g with pc := 0x200010 }) 63 =
    some 0x200020 := by decide +kernel

/-! Vector instructions (08): v2 holds one value in every lane, v3 another; p1 is lanes 0 and 63. -/

def fill (x : Nat) : VWord := mkV fun _ => BitVec.ofNat 32 x
def vab (x y : Nat) : State := modRegs base fun g => wrP (wrV (wrV g 2 (fill x)) 3 (fill y)) 1 0x8000000000000001
def p1 : Pred := ⟨1, false⟩
/-- A lane of a vector register, and FSTAT, after a step of the instruction. -/
def vAfter (i : Instr) (s : State) (n : VReg) (k : Nat) : Option (Lane × BitVec 6) :=
  match exec i s with
  | .next t => some (lane (rdV (myRegs t) n) k, (myRegs t).fstat)
  | _ => none
def pAfter (i : Instr) (s : State) (n : PReg) : Option (BitVec 64) :=
  match exec i s with
  | .next t => some (rdP (myRegs t) n)
  | _ => none

theorem witness_VectorFloat : runs (vab 0x3F800000 0x40000000) [.vadd p1 .f32 1 (v 2) (.v (v 3)),
    .vsub p1 .f16 1 (v 2) (.s (r 6)), .vmul p1 .bf16 1 (v 2) (.v (v 3)), .vfma p1 .f32 1 (v 2) (.v (v 3)) (v 4),
    .vfms p1 .f32 1 (v 2) (.v (v 3)) (v 4), .vfnma p1 .f32 1 (v 2) (.v (v 3)) (v 4), .vmin p1 .f32 1 (v 2) (.v (v 3)),
    .vmax p1 .f32 1 (v 2) (.v (v 3)), .vabs p1 .f32 1 (v 2), .vneg p1 .f32 1 (v 2), .vclass p1 .f32 1 (v 2),
    .vrcp p1 1 (v 2), .vrsq p1 1 (v 2), .vsqrt p1 1 (v 2), .vexp2 p1 1 (v 2), .vlog2 p1 1 (v 2),
    .vdiv p1 1 (v 2) (.v (v 3)), .vrsqe p1 1 (v 2) (r 6)] = true := by decide +kernel

theorem witness_VectorInteger : runs (vab 5 (2 ^ 32 - 1)) [.viadd p1 .i32 1 (v 2) (.v (v 3)),
    .visub p1 .i16 1 (v 2) (.s (r 6)), .vimul p1 .i8 1 (v 2) (.imm (.i24 1)), .vimulh p1 .uw 1 (v 2) (.v (v 3)),
    .vand p1 .i32 1 (v 2) (.v (v 3)), .vor p1 .uh 1 (v 2) (.v (v 3)), .vxor p1 .ub 1 (v 2) (.v (v 3)),
    .vshl p1 .i32 1 (v 2) (.v (v 3)), .vshr p1 .i32 1 (v 2) (.v (v 3)), .vsar p1 .i32 1 (v 2) (.v (v 3)),
    .vimin p1 .i32 1 (v 2) (.v (v 3)), .vimax p1 .i32 1 (v 2) (.v (v 3)), .vqadd p1 .i8 1 (v 2) (.v (v 3))] = true := by
  decide +kernel

theorem witness_VectorMoves : badCvt .f16 .f32 false (1 : BitVec 2).toNat = false ∧
    badCvt .e4m3 .f32 true (3 : BitVec 2).toNat = false ∧ (3 : BitVec 3).toNat ≤ 3 ∧
    runs (vab 1 2) [.vsel p1 1 2 (v 2) (.v (v 3)), .vcvt p1 .f16 .f32 .rne false 1 1 (v 2),
      .vcvt p1 .e4m3 .f32 .rne true 3 1 (v 2), .vqnt p1 false .rne 3 1 (v 2) (r 6), .vqnt p1 true .rne 7 1 (v 2) (r 6),
      .vdqnt p1 false 3 1 (v 2) (r 6), .vdqnt p1 true 7 1 (v 2) (r 6), .vbcast p1 .h 1 (r 6), .vins p1 1 (r 6) (.imm 63),
      .vshuf p1 1 (v 2) (v 3), .vrot p1 1 (v 2) (.reg (r 6)), .viota p1 1 (r 6), .vmov p1 1 (v 2),
      .vdot p1 .ub 1 (v 2) (v 3)] = true := by decide +kernel

theorem witness_VectorScalarResults : badCond .f32 .un = false ∧ badCond .i32 .ge = false ∧
    lanes (vab 1 2) p1 &&& rdP (myRegs (vab 1 2)) 2 = 0 ∧
    (lanes (vab 1 2) ⟨1, true⟩ &&& rdP (myRegs (vab 1 2)) 0).getLsbD 1 = true ∧
    (lanes (vab 1 2) ⟨1, true⟩ &&& rdP (myRegs (vab 1 2)) 0).getLsbD 0 = false ∧
    (lanes (vab 1 2) p1 &&& rdP (myRegs (vab 1 2)) 1).getLsbD 0 = true ∧
    runs (vab 1 2) [.vcmp p1 .f32 .un 3 (v 2) (.v (v 3)), .vcmp p1 .i32 .ge 3 (v 2) (.v (v 3)), .plog p1 3 1 (.bin .or 2),
      .plog p1 3 1 .not, .plog p1 3 1 .mov, .pcnt p1 5 1, .pfirst p1 5 2, .pfirst ⟨1, true⟩ 5 0, .vextr p1 5 (v 2) (.imm 63),
      .vred p1 .fsum 5 (v 2), .vscan p1 .isum 1 (v 2)] = true := by decide +kernel

/-- 1 + 2 = 3 in the active lanes 0 and 63; lane 1 keeps its content. -/
theorem test_vadd : [0, 1, 63].map (vAfter (.vadd p1 .f32 1 (v 2) (.v (v 3))) (vab 0x3F800000 0x40000000) 1) =
    [some (0x40400000, 0), some (0, 0), some (0x40400000, 0)] := by decide +kernel
/-- 65504 + 65504 overflows .F16 to infinity (03 R76). -/
theorem test_vadd_overflow : (vAfter (.vadd p1 .f16 1 (v 2) (.v (v 3))) (vab 0x7BFF 0x7BFF) 1 0).map (·.1) =
    some 0x00007C00 := by decide +kernel
theorem test_vfma : vAfter (.vfma p1 .f32 2 (v 2) (.v (v 3)) (v 2)) (vab 0x40000000 0x40400000) 2 0 =
    some (0x41000000, 0) := by decide +kernel
theorem test_vmax_nan : (vAfter (.vmax p1 .f32 1 (v 2) (.v (v 3))) (vab 0x3F800000 0xFF800000) 1 0).map (·.1) =
    some 0x3F800000 := by decide +kernel
/-- 1 ÷ 0 is +∞. -/
theorem test_vrcp_zero : (vAfter (.vrcp p1 1 (v 2)) (vab 0 0) 1 0).map (·.1) = some 0x7F800000 := by decide +kernel
theorem test_vsqrt : vAfter (.vsqrt p1 1 (v 2)) (vab 0x40800000 0) 1 0 = some (0x40000000, 0) := by decide +kernel
theorem test_vclass : vAfter (.vclass p1 .f32 1 (v 2)) (vab 0x80000000 0) 1 0 = some (8, 0) := by decide +kernel
theorem test_viadd_i8 : vAfter (.viadd p1 .i8 1 (v 2) (.v (v 3))) (vab 0x01FF02FF 0x01010101) 1 0 =
    some (0x02000300, 0) := by decide +kernel
theorem test_vqadd_i8 : vAfter (.vqadd p1 .i8 1 (v 2) (.v (v 3))) (vab 0x7F808001 0x01FF0101) 1 0 =
    some (0x7F808102, 0) := by decide +kernel
theorem test_vimulh : vAfter (.vimulh p1 .i32 1 (v 2) (.v (v 3))) (vab 0xFFFFFFFF 2) 1 0 = some (0xFFFFFFFF, 0) := by
  decide +kernel
theorem test_vsar_uh : vAfter (.vsar p1 .uh 1 (v 2) (.imm (.i24 17))) (vab 0x80004000 0) 1 0 = some (0xC0002000, 0) := by
  decide +kernel
theorem test_vcmp : pAfter (.vcmp p1 .i32 .lt 3 (v 2) (.v (v 3))) (vab 0xFFFFFFFF 0) 3 = some 0x8000000000000001 := by
  decide +kernel
theorem test_plog_not : pAfter (.plog p1 1 1 .not) (vab 0 0) 1 = some 0 := by decide +kernel
theorem test_pcnt : sAfter (.pcnt ⟨1, true⟩ 5 0) (vab 0 0) 5 = some 62 := by decide +kernel
theorem test_pfirst : sAfter (.pfirst ⟨1, true⟩ 5 0) (vab 0 0) 5 = some 1 := by decide +kernel
/-- 1.0 narrows to 0x3C00 in the odd element; the even one keeps its content (08 R198). -/
theorem test_vcvt : vAfter (.vcvt p1 .f16 .f32 .rne false 1 3 (v 2)) (vab 0x3F800000 0x12345678) 3 0 =
    some (0x3C005678, 0) := by decide +kernel
theorem test_vshuf : vAfter (.vshuf p1 1 (v 2) (v 3)) (modRegs (vab 0 65) fun g => wrV g 2 (mkV fun k => BitVec.ofNat 32 k)) 1
    63 = some (1, 0) := by decide +kernel
theorem test_vrot : vAfter (.vrot p1 2 (v 2) (.imm 2)) (modRegs (vab 0 0) fun g => wrV g 2 (mkV fun k => BitVec.ofNat 32 k)) 2
    63 = some (1, 0) := by decide +kernel
theorem test_viota : vAfter (.viota p1 1 (r 6)) (modRegs (vab 0 0) fun g => wrS g 6 (2 ^ 32 - 1)) 1 63 = some (62, 0) := by
  decide +kernel
theorem test_vred : sAfter (.vred p1 .smin 5 (v 2)) (vab 0xFFFFFFFE 0) 5 = some (-2) := by decide +kernel
theorem test_vscan : vAfter (.vscan p1 .isum 1 (v 2)) (vab 3 0) 1 63 = some (6, 0) := by decide +kernel
/-- Four signed products of −1 and 2 on 10 (08 R202). -/
theorem test_vdot : vAfter (.vdot p1 .i8 1 (v 2) (v 3)) (modRegs (vab 0xFFFFFFFF 0x02020202) fun g => wrV g 1 (fill 10)) 1 0 =
    some (2, 0) := by decide +kernel

/-! Memory (08): s6 holds an address, s7 a datum. -/

/-- One page table maps all of global memory. -/
def mapped : State := placeTables base
def ptr (s : State) (a : Nat) : State := withS s [(6, word a), (7, 0x1122334455667788)]
def o0 : Imm := .i24 0
def spad : Nat := 0xFFFFFF0000000000
def syncA : Nat := 0xFFFFFF3000000000
/-- An access to [s6] reaches resolved elements, of which nothing is in flight and on which no store waits. -/
def reachesEls (s : State) (k : Acs) (n : Nat) : Bool :=
  match resolve s (issuer s) k n false false [(0, addrOf s (r 6) o0)] with
  | (u, .ok [(0, .els e)]) => !ownInFlight u e && !elsStopped u (issuer s).core e && !regionsShut u e none &&
      !storeWaits u (addrOf s (r 6) o0) (e.flatMap elPlaces) && mustFollow (myRegs u) == mustFollow (myRegs s)
  | _ => false
def reachesSync (s : State) (k : Acs) (n : Nat) : Bool :=
  match resolve s (issuer s) k n false false [(0, addrOf s (r 6) o0)] with
  | (_, .ok [(0, .sync _)]) => true
  | _ => false
def reachesDevice (s : State) (k : Acs) (n : Nat) : Bool :=
  match resolve s (issuer s) k n false false [(0, addrOf s (r 6) o0)] with
  | (u, .ok [(0, .device o)]) => if k.store then (devStore u (whoMe u) o n (sv s (r 7))).toOption.isSome
    else (devLoad u o n).toOption.isSome
  | _ => false
def vecOk (s : State) (k : Acs) (as : List (Nat × Nat)) : Bool :=
  match resolve s (issuer s) k 4 false false as with
  | (u, .ok l) => !ownInFlight u ((laneEls l).map (·.2)) && !elsStopped u (issuer s).core ((laneEls l).map (·.2)) && !regionsShut u ((laneEls l).map (·.2)) none && mustFollow (myRegs u) == mustFollow (myRegs s) && as.all fun y =>
      !storeWaits u y.2 (((laneEls l).filter fun z => z.1 == y.1).flatMap fun z => elPlaces z.2)
  | _ => false
/-- An LDSY to s9 waits for word 0: later accesses take their turn behind it. -/
def behindLdsy (s : State) : State := modRegs s fun g => { g with pend := g.pend ++
  [{ id := 0, dest := .s 9, prod := .sync [0] { els := [], vec := false, bytes := 8, sx := false } }] }
/-- A store of the context's own to the first byte of a scratchpad, of its core or of another, is on its way. -/
def storingAt (s : State) (target : Nat) : State := { s with serial := 1, posted := [
  { id := 0, core := 0, ctx := 0, uid := (me s).uid, target, addr := word (2 ^ 63), tag := 0, bytes := [(0, 1)] }] }
/-- An access to [s6] meets its own store: a load waits, and so does a store. -/
def meetsOwn (s : State) (k : Acs) (n : Nat) : Bool :=
  match resolve s (issuer s) k n false false [(0, addrOf s (r 6) o0)] with
  | (u, .ok [(0, .els e)]) => ownInFlight u e && storeWaits u (addrOf s (r 6) o0) (e.flatMap elPlaces) && unreleased u &&
      !mustFollow (myRegs u)
  | _ => false
/-- The scratchpad of a core of stratum 1, which the partition owns too and whose clock the thermal guard has stopped. -/
def farPad : Nat := 0xFFFFE00000000000 + 1024 * 2 ^ 23
def stoppedAway (s : State) : State := modPower (modPart s 0 fun p => { p with pcfg := p.pcfg ||| 2 }) 1 fun p => { p with halt := true }
def meetsStopped (s : State) (k : Acs) (n : Nat) : Bool :=
  match resolve s (issuer s) k n false false [(0, addrOf s (r 6) o0)] with
  | (u, .ok l) => elsStopped u (issuer s).core ((laneEls l).map (·.2)) && !mustFollow (myRegs u)
  | _ => false
/-- The value that a local load of the instruction carries to its producer's result. -/
def loads (i : Instr) (s : State) : Option Res :=
  match exec i s with
  | .next t => match (myRegs t).pend with
    | [p] => match p.prod with
      | .val v _ => some v
      | _ => none
    | _ => none
  | _ => none
def poolAfter (i : Instr) (s : State) (o n : Nat) : Option Nat :=
  match exec i s with
  | .next t => some (readPool t 0 o n)
  | _ => none

theorem witness_ScalarLoads : reachesEls (ptr mapped 0x200040) .ld 8 = true ∧
    reachesEls (behindLdsy (ptr mapped 0x200040)) .ld 8 = true ∧ mustFollow (myRegs (behindLdsy base)) = true ∧
    mustFollow (myRegs (ptr mapped 0x200040)) = false ∧ mustFollow (myRegs (ptr sys 0xFFFFFFF000300048)) = false ∧
    runs (behindLdsy (ptr mapped 0x200040)) [.ld c0 .d false false 5 (r 6) o0] = true ∧ reachesEls (ptr base (spad + 0x2000)) .lda 8 = true ∧
    reachesSync (ptr base syncA) .ld 8 = true ∧ reachesSync (ptr base syncA) .lda 8 = true ∧
    reachesDevice (ptr sys 0xFFFFFFF000300048) .ld 8 = true ∧
    runs (ptr mapped 0x200040) [.ld c0 .d false false 5 (r 6) o0, .lda c0 .d .system 5 (r 6) o0] = true ∧
    runs (ptr base syncA) [.ld c0 .d false false 5 (r 6) o0, .lda c0 .d .core 5 (r 6) o0] = true ∧
    meetsOwn (storingAt (ptr base spad) 0) .ld 8 = true ∧ reachesDevice (behindLdsy (ptr sys 0xFFFFFFF000300048)) .ld 8 = true ∧
    ([ptr sys 0xFFFFFFF000300048, behindLdsy (ptr sys 0xFFFFFFF000300048), storingAt (ptr base spad) 0].all fun s =>
      runs s [.ld c0 .d false false 5 (r 6) o0]) = true ∧ reachesEls (behindLdsy (ptr base spad)) .lda 8 = true ∧
    runs (behindLdsy (ptr base spad)) [.lda c0 .d .core 5 (r 6) o0] = true ∧
    meetsStopped (stoppedAway (ptr base farPad)) .ld 8 = true ∧ meetsStopped (stoppedAway (ptr base farPad)) .lda 8 = true ∧
    meetsOwn (storingAt (ptr base spad) 0) .lda 8 = true ∧
    ([stoppedAway (ptr base farPad), storingAt (ptr base spad) 0].all fun s =>
      runs s [.ld c0 .d false false 5 (r 6) o0, .lda c0 .d .core 5 (r 6) o0]) = true := by decide +kernel

theorem witness_ScalarStores : reachesEls (ptr mapped 0x200040) .st 8 = true ∧
    reachesEls (behindLdsy (ptr mapped 0x200040)) .st 8 = true ∧
    runs (behindLdsy (ptr mapped 0x200040)) [.st c0 .d false (r 6) o0 (r 7), .stl c0 .d .system (r 6) o0 (r 7)] = true ∧
    reachesEls (behindLdsy (ptr mapped 0x200040)) .stl 8 = true ∧ reachesDevice (behindLdsy (ptr sys 0xFFFFFFF000600000)) .st 8 = true ∧
    meetsOwn (storingAt (ptr base spad) 0) .st 8 = true ∧ meetsOwn (storingAt (ptr base spad) 0) .stl 8 = true ∧
    reachesSync (behindLdsy (ptr base syncA)) .stl 8 = true ∧ unreleased (storingAt (ptr base syncA) 1) = true ∧
    reachesSync (storingAt (ptr base syncA) 1) .stl 8 = true ∧
    ([storingAt (ptr base spad) 0, behindLdsy (ptr base syncA), storingAt (ptr base syncA) 1].all fun s =>
      runs s [.st c0 .d false (r 6) o0 (r 7), .stl c0 .d .core (r 6) o0 (r 7)]) = true ∧
    runs (behindLdsy (ptr sys 0xFFFFFFF000600000)) [.st c0 .d false (r 6) o0 (r 7)] = true ∧
    reachesEls (ptr base (spad + 0x2000)) .stl 8 = true ∧ reachesSync (ptr base syncA) .st 8 = true ∧
    reachesSync (ptr base syncA) .stl 8 = true ∧ reachesDevice (ptr sys 0xFFFFFFF000600000) .st 8 = true ∧
    unreleased (ptr base syncA) = false ∧
    runs (ptr mapped 0x200040) [.st c0 .d false (r 6) o0 (r 7), .stl c0 .d .system (r 6) o0 (r 7)] = true ∧
    runs (ptr base syncA) [.st c0 .d false (r 6) o0 (r 7), .stl c0 .d .core (r 6) o0 (r 7)] = true ∧
    runs (ptr sys 0xFFFFFFF000600000) [.st c0 .d false (r 6) o0 (r 7)] = true := by decide +kernel

/-- The first word and the last byte of the local scratchpad. -/
theorem witness_LocalScratchpad : let s := ptr base spad
    let t := ptr base (spad + coreSp base 0 - 1)
    mustFollow (myRegs s) = false ∧ mustFollow (myRegs t) = false ∧
    apOf (addrOf s (r 6) o0) = .loc 0 0 ∧ 0 + 8 ≤ coreSp s 0 ∧ ownInFlight s [.raw (poolPlaces 0 0 8)] = false ∧
    storeWaits s (addrOf s (r 6) o0) (poolPlaces 0 0 8) = false ∧
    apOf (addrOf t (r 6) o0) = .loc 0 (coreSp base 0 - 1) ∧ ownInFlight t [.raw (poolPlaces 0 (coreSp base 0 - 1) 1)] = false ∧
    storeWaits t (addrOf t (r 6) o0) (poolPlaces 0 (coreSp base 0 - 1) 1) = false ∧
    runs s [.ld c0 .d false false 5 (r 6) o0, .st c0 .d false (r 6) o0 (r 7)] = true ∧
    runs t [.ld c0 .b true false 5 (r 6) o0, .st c0 .b false (r 6) o0 (r 7)] = true := by decide +kernel

theorem witness_SynchronisingLoads : let s := ptr base (spad + coreSp base 0 - 8)
    let t := withS (ptr base spad) [(7, word (coreSp base 0))]
    reachesEls (ptr base spad) .ldsy 8 = true ∧
    vecOk (ptr base spad) .vldsy (unitAddrs (ptr base spad) p0 (r 6) o0) = true ∧
    apOf (addrOf (withS s [(7, 8)]) (r 6) o0) = .loc 0 (coreSp base 0 - 8) ∧ apOf (addrOf t (r 6) o0) = .loc 0 0 ∧
    mustFollow (myRegs t) = false ∧ (sv t (r 0)).toNat = 0 ∧ apOf (addrOf (ptr base (spad + 2 ^ 20 - 1)) (r 6) o0) = .loc 0 (2 ^ 20 - 1) ∧
    (let b := behindLdsy (ptr base spad)
     mustFollow (myRegs b) = true ∧ (sv b (r 5)).toNat = 0 ∧ (sv (behindLdsy t) (r 7)).toNat ≠ 0 ∧
       runs (behindLdsy t) [.feclr c0 (r 6) o0 (r 7)] = true) ∧
    runs (ptr base (spad + 2 ^ 20 - 1)) [.feclr c0 (r 6) o0 (r 0)] = true ∧ (sv t (r 7)).toNat ≤ 2 ^ 20 ∧ 0 + (sv t (r 7)).toNat ≤ coreSp t (myId t) ∧
    runs (withS s [(7, 8)]) [.ldsy c0 .d false false 5 (r 6) o0, .vldsy p0 false 1 (r 6) o0, .feclr c0 (r 6) o0 (r 7),
      .pref c0 true (r 6) o0] = true ∧ runs t [.feclr c0 (r 6) o0 (r 7), .feclr c0 (r 6) o0 (r 0)] = true := by
  decide +kernel

/-- Every lane's four bytes lie in window 0 of the local scratchpad, aligned, with nothing of the context's own in flight. -/
def lanesLocal (s : State) (as : List (Nat × Nat)) : Bool :=
  !mustFollow (myRegs s) && as.all fun y => match apOf y.2 with
    | .loc 0 o => decide (o % 4 = 0 ∧ o + 4 ≤ coreSp s (myId s)) && !ownInFlight s [.raw (poolPlaces (myId s) o 4)] &&
        !storeWaits s y.2 (poolPlaces (myId s) o 4)
    | _ => false

/-- Two lanes, four bytes apart, one on the other, and at the end of the scratchpad; free and behind an LDSY. -/
theorem witness_VectorMemory : let s := modRegs (ptr base (spad + 64)) fun g => wrS (wrP g 1 3) 8 4
    let e := modRegs (ptr base (spad + coreSp base 0 - 8)) fun g => wrS (wrP g 1 3) 8 0
    let l := [.vld p1 false 1 (r 6) o0, .vlds p1 false 1 (r 6) (.i17 0) (r 8), .vgth p1 2 false 1 (r 6) (.i17 0) (v 3),
      .vst p1 false (r 6) o0 (v 2), .vsts p1 false (r 6) (.i17 0) (v 2) (r 8), .vsct p1 2 false (r 6) (.i17 0) (v 2) (v 3)]
    let addrs (s : State) := [unitAddrs s p1 (r 6) o0, strideAddrs s p1 (r 6) (.i17 0) (r 8),
      gatherAddrs s p1 2 (r 6) (.i17 0) (v 3)]
    ([s, e, behindLdsy s].all fun s => runs s l && (addrs s).all fun as => as.length == 2 && vecOk s .vld as && vecOk s .vst as) =
      true ∧ ([s, e].all fun s => (addrs s).all (lanesLocal s)) = true ∧
    ((match resolve (storingAt (ptr base spad) 0) (issuer base) .vld 4 false false [(0, spad)] with
      | (u, .ok l) => ownInFlight u ((laneEls l).map (·.2))
      | _ => false) && runs (storingAt (ptr base spad) 0) l) = true ∧
    meetsStopped (stoppedAway (ptr base farPad)) .vld 4 = true ∧ runs (stoppedAway (ptr base farPad)) l = true ∧ mustFollow (myRegs (behindLdsy s)) = true ∧
    ((unitAddrs s p1 (r 6) o0).all fun y => (apOf y.2).number != 1) = true := by decide +kernel

/-- x0 is a stream of two elements at 0x100 with indices at 0x200; f1 holds one entry, f2 none. -/
def streaming : State := modRegs base fun g => wrF (wrP (wrX g 0
  { base := word (spad + 0x100), idx := word (spad + 0x200), n := 2, k := 2, cur := 0 }) 1 0x8000000000000001) 1 [fill 7]

theorem witness_StreamsAndFifos : let s := streaming
    let ls := popLanes s p0 (rdX (myRegs s) 0)
    (match resolve s (issuer s) .vld 4 false false
        (ls.map fun i => (i, rawAddr (wrapAddr (rdX (myRegs s) 0).idx.toNat (4 * ((rdX (myRegs s) 0).cur + i) : Nat)))) with
     | (u, .ok l) => !ownInFlight u ((laneEls l).map (·.2)) && !elsStopped u 0 ((laneEls l).map (·.2)) && !mustFollow (myRegs u) &&
       match resolve u (issuer s) .vld 4 false false ((popLanes u p0 (rdX (myRegs s) 0)).map fun i =>
         (i, wrapAddr (rdX (myRegs s) 0).base.toNat ((lane (readLanes u (laneEls l)).1.2 i).toNat * 2 ^ 2 : Nat))) with
       | (w, .ok m) => !ownInFlight w ((laneEls m).map (·.2)) && !elsStopped w 0 ((laneEls m).map (·.2)) && !regionsShut w ((laneEls m).map (·.2)) none
       | _ => false
     | _ => false) = true ∧
    rdF (myRegs s) 1 = [fill 7] ∧ rdF (myRegs s) 2 = [] ∧ fifoFull (myRegs s) 1 = false ∧
    runs s [.strm p0 1 (r 6) (r 7) (r 8), .spopStream p0 1 0, .spopFifo p1 1 1, .spopFifo p1 1 2, .spush p1 1 (v 2)] = true := by
  decide +kernel

/-- Little-endian bytes, sign-extended from the top one (00 R4, 08 R204). -/
theorem test_ld_sx : loads (.ld c0 .h true false 5 (r 6) o0)
    (writePlace (writePlace (ptr base (spad + 16)) (.pool 0 16) 0x34) (.pool 0 17) 0x92) = some (.s 0xFFFFFFFFFFFF9234) := by
  decide +kernel
theorem test_lda : loads (.lda c0 .w .core 5 (r 6) o0) (writePlace (ptr base (spad + 16)) (.pool 0 19) 0x92) =
    some (.s 0x92000000) := by decide +kernel
theorem test_st : poolAfter (.st c0 .w false (r 6) (.i24 0xFFFFFC) (r 7)) (ptr base (spad + 20)) 16 8 = some 0x55667788 := by
  decide +kernel
theorem test_vst : poolAfter (.vst p1 false (r 6) o0 (v 2)) (withS (vab 0xA1B2C3D4 0) [(6, word (spad + 64))]) 64 8 =
    some 0xA1B2C3D4 := by decide +kernel

/-! Copies, atomics and fences (08). -/

/-- A copy of s8 bytes from [s7] to [s6], both in the local scratchpad; s9 is a flag address. -/
def copying (n : Word) : State := withS base [(6, word (spad + 0x1000)), (7, word (spad + 0x2000)), (8, n), (9, word syncA)]
def copyOk (s : State) (rows len : Nat) (flag : Option (Word × Word × Bool)) : Bool :=
  (copyCheck s (issuer s) { dst := (sv s (r 6)).toNat, src := (sv s (r 7)).toNat, dx := 0, sx := 0, rows, len,
                            ds := 16, ss := 16, flag }).isNone && decide ((myCore s).copies.length < 16)

/-- A full copy engine. -/
def sixteen (s : State) : State := modMyCore s fun k => { k with copies := (List.range 16).map fun i =>
  { id := i, ctx := 0, uid := 0, tag := 0, gen := 0, priv := 0, stc := 0, dst := 0, src := 0, dx := false, sx := false, rows := 1,
    len := 0, ds := 0, ss := 0, wd5 := 0, wd6 := 0, wd7 := 0, flag := none, next := 0, buf := [], flags := 0,
    status := none, flagId := none } }
/-- Lengths 0 and 4096; the flag is a word of the sync space; each swizzle code of 2 or 3; fifteen and sixteen copies. -/
theorem witness_CopiesEnter : copyOk (copying 0) 1 0 none = true ∧ copyOk (copying 4096) 1 4096 none = true ∧
    copyOk (copying 8) 2 8 none = true ∧ copyOk (copying 8) 1 8 (some (word syncA, 1, true)) = true ∧
    copyOk (modMyCore (sixteen (copying 8)) fun k => { k with copies := k.copies.tail }) 1 8 none = true ∧
    (myCore (sixteen base)).copies.length = 16 ∧ 2 ≤ (2 : BitVec 2).toNat ∧
    runs (sixteen (copying 8)) [.cpy c0 7 0 0 (r 6) (r 7) (r 8), .cpy2d c0 7 0 0 (r 6) (r 7) 1 1 8 2,
      .cpyst c0 7 .system 0 0 (r 6) (r 7) (r 8) 9 1] = true ∧
    runs (copying 4096) [.cpy c0 7 0 0 (r 6) (r 7) (r 8), .cpy c0 7 2 0 (r 6) (r 7) (r 8), .cpy c0 7 0 3 (r 6) (r 7) (r 8),
      .cpy2d c0 7 0 0 (r 6) (r 7) 1 1 8 2, .cpyst c0 7 .system 0 0 (r 6) (r 7) (r 8) 9 1, .cpyw c0 false 7 5,
      .cpy2d c0 7 3 0 (r 6) (r 7) 1 1 8 2, .cpyst c0 7 .system 0 2 (r 6) (r 7) (r 8) 9 1,
      .fence c0 .core 0, .fence c0 .core 15, .fence c0 .system 7, .fence c0 .stack 8, .fencee c0 .task] = true := by
  decide +kernel

/-- A store of context 0 to the scratchpad of core 1 is on its way. -/
def storing (s : State) : State := storingAt s 1
/-- Behind a store wr holds a load and ww a store; rr and rw hold nothing (08 R221). -/
theorem test_fence_sets : (let s := storing base
    [1, 2, 4, 8].map fun b => let h : Hold := { set := BitVec.ofNat 4 b, lo := 0, upto := 1, acquire := false }
      (heldRead s 0 0 (me base).uid h, heldWrite s 0 0 (me base).uid false h)) =
    [(false, false), (false, false), (true, false), (false, true)] := by decide +kernel

/-- An aligned word, one in another aperture, and one that is not aligned. -/
theorem witness_Atomics : let s := ptr base (syncA + 4)
    let m := ptr base (syncA + 2)
    apOf (sv s (r 6)).toNat = .sync 4 ∧ (sv s (r 6)).toNat % 4 = 0 ∧ unreleased s = false ∧
    mustFollow (myRegs (behindLdsy s)) = true ∧ mustFollow (myRegs (storing s)) = false ∧ unreleased (storing s) = true ∧
    (apOf (sv (ptr base spad) (r 6)).toNat).number ≠ 5 ∧ apOf (sv m (r 6)).toNat = .sync 2 ∧
    apOf ((sv m (r 6)).toNat + 4 - 1) = .sync (2 + 4 - 1) ∧ (sv m (r 6)).toNat % 4 ≠ 0 ∧
    ([s, behindLdsy s, storing s, m, ptr base spad].all fun s => runs s [.amo c0 false .core .add true true 5 (r 6) (r 7),
      .amocas c0 false .core true true 5 (r 6) (r 7) (r 8), .amor c0 false .core .add true (r 6) (r 7)]) = true := by
  decide +kernel

def seReq (op : SeOp) : SeReq := { id := 0, part := 0, core := 0, ctx := 0, uid := 0, pid := none, off := 8, op }

theorem witness_AtomicResults : (4 = 4 ∨ 4 = 8) ∧ 2 ^ 32 - 1 < 2 ^ (8 * 4) ∧ 2 ^ 64 - 1 < 2 ^ (8 * 8) ∧
    (seReq (.amo 8 .add 1)).op = .amo 8 .add 1 ∧ (seReq (.cas 4 0 5)).op = .cas 4 0 5 ∧
    (seReq (.amo 4 .fmax 1)).op = .amo 4 .fmax 1 := by decide +kernel

/-- Wrapping, signed and compare results on words (08 R220). -/
theorem test_amo : (amoNew .add 4 (2 ^ 32 - 1) 2).1 = 1 ∧ (amoNew .smin 4 1 (2 ^ 32 - 1)).1 = 2 ^ 32 - 1 ∧
    (amoNew .umax 8 1 (2 ^ 64 - 1)).1 = 2 ^ 64 - 1 ∧ (amoNew .fadd 4 0x3F800000 0x3F800000).1 = 0x40000000 ∧
    (amoNew .swap 4 7 9).1 = 9 := by decide +kernel
theorem test_amocas : (let t := (seDo base (seReq (.cas 4 0 5))).1
    (syncPlaces t 0 8 4, (seDo t (seReq (.cas 4 0 6))).2, syncPlaces (seDo t (seReq (.cas 4 0 6))).1 0 8 4)) = (5, 5, 5) := by
  decide +kernel
/-- The old value with the flags of an exact sum, none (08 R220). -/
theorem test_fadd_flags : (seDo base (seReq (.amo 4 .fadd 0x3F800000))).2 = 0 := by decide +kernel

/-! Tasks, events and barriers (07): the context belongs to gang 1, whose descriptor binds the tags 0 and 7, and to a flow
of two counters of job 1. -/

def mem0 (arr : Map Nat) : Member :=
  { core := 0, ctx := 0, tx := 0, ty := 0, done := false, lost := false, saved := false, arr }
def gang1 (arr : Map Nat) : Gang :=
  { id := 1, gen := 1, job := 1, flow := 0, index := 0, desc := BitVec.ofNat 512 (0x81 * 2 ^ 78 + 2 ^ 62), prio := 0,
    x0 := 0, y0 := 0, z0 := 0, members := [mem0 arr], comp := [], signals := [] }
def job1 : Job := { id := 1, jobid := 1, prio := 0, queue := 0, entry := 0,
                    flows := [{ ctrs := [1, 1], gangs := [], underflow := false }], killed := false }
def ganged (s : State) (arr : Map Nat) : State := modPart (withCtx s fun x =>
  { x with gang := 1, gen := 1, member := true, flow := some (1, 0) }) 0 fun p =>
    { p with gangs := [gang1 arr], jobs := [job1] }
/-- A member of the gang that has a store on its way to another core of the stack. -/
def stackStore : State := storing (ganged base [])
def awaiting (s : State) (d : Bool) : State := withCtx s fun x => { x with await := some { id := 0, done := d } }
/-- s4 is a payload descriptor. -/
def sending (p : Nat) : State := withS base [(4, word p)]

/-- GRAB's pair at its bounds and beside them; the last counter of the flow and the one after it; a release in its turn and one
that waits. -/
theorem witness_TaskRequests : (let ok (d : SReg) := d.toNat % 2 = 0 ∧ 2 ≤ d.toNat ∧ d.toNat ≤ 60
    ok 2 ∧ ok 60 ∧ ¬ok 0 ∧ ¬ok 3 ∧ ¬ok 62) ∧
    flowCtrs (ganged base []) 0 (me (ganged base [])) = some (1, 0, 2) ∧ flowCtrs base 0 (me base) = none ∧
    unreleased (ganged base []) = false ∧ base.stc.toNat < 2 ^ 60 ∧ runs (ganged base []) [.yield c0 0, .chmask c0 5 (.imm 63 true),
      .grab c0 2 (.imm 63), .grab c0 60 (.reg (r 6)), .grab c0 0 (.imm 0), .grab c0 62 (.imm 0), .grab c0 3 (.imm 0),
      .rngset c0 (r 6) (r 7) (r 8) 63, .flowsig c0 1, .flowsig c0 2] = true ∧
    mustFollow (myRegs (ganged base [])) = false ∧ mustFollow (myRegs (behindLdsy (ganged base []))) = true ∧
    mustFollow (myRegs stackStore) = false ∧ unreleased stackStore = true ∧
    ([base, behindLdsy (ganged base []), stackStore].all fun s => runs s [.flowsig c0 0]) = true := by
  decide +kernel

/-- A core at its third operating point, three core cycles in eight beats: of a YIELD 0 in its first one, the wait ends with the
start of the third (07 R169). -/
theorem test_yield_cycles : (let s := modPower { base with stc := 0, visit := 1 } 0 fun p => { p with cur := 2 }
    (clockRate s 0, cyclesBegun s 0, (waitEnd s 0 2).toNat)) = (4, 0, 4) := by decide +kernel

/-- Payload descriptors: empty, the largest offset and length that fit, one byte off, and one word too long. -/
theorem witness_Sends : (me base).await = none ∧ unreleased base = false ∧
    (let top := coreSp base 0
     let ok (p : Nat) := p % 2 ^ 19 % 8 = 0 ∧ p / 2 ^ 32 % 2 ^ 14 ≤ 8192 ∧
       p % 2 ^ 19 + 8 * (p / 2 ^ 32 % 2 ^ 14) ≤ top
     ok 0 ∧ ok (top - 8 + 2 ^ 32) ∧ ok (8192 * 2 ^ 32) ∧ ¬ok 1 ∧ ¬ok (8193 * 2 ^ 32)) ∧
    ([base, awaiting base true, awaiting base false, sending 1, sending (8193 * 2 ^ 32)].all fun s =>
      runs s [.send c0 (r 1) (r 2) (r 3) 5 none, .send c0 (r 1) (r 2) (r 3) 63 (some 0x100),
        .sendp c0 4 (r 1) (r 2) (r 3) 5]) = true ∧
    (sv base (r 1)).toNat = 0 ∧ (me (awaiting base true)).await = some { id := 0, done := true } ∧
    (me (awaiting base false)).await = some { id := 0, done := false } := by decide +kernel

/-- A BARA of tag 7 in its turn. -/
def arriving (s : State) : State := modRegs s fun g => { g with pend := g.pend ++ [{ id := 0, dest := .s 0, prod := .bara 7 }] }
/-- Tag 7 before its arrival, while its phase is open, and while its arrival waits for its turn; tag 1 is not bound; a task of
no gang. -/
theorem witness_Barriers : barrierOf (ganged base []) 7 = some (gang1 [], mem0 []) ∧
    ¬ compOf (gang1 []) 7 0 < arrOf (mem0 []) 7 ∧ unreleased (ganged base []) = false ∧
    barrierOf (ganged base [(7, 1)]) 7 = some (gang1 [(7, 1)], mem0 [(7, 1)]) ∧
    compOf (gang1 [(7, 1)]) 7 0 < arrOf (mem0 [(7, 1)]) 7 ∧ barrierOf (ganged base []) 1 = none ∧ (me base).member = false ∧
    mustFollow (myRegs (ganged base [])) = false ∧ mustFollow (myRegs (behindLdsy (ganged base []))) = true ∧
    mustFollow (myRegs stackStore) = false ∧ unreleased stackStore = true ∧ barrierOf stackStore 7 = some (gang1 [], mem0 []) ∧
    ((myRegs (arriving (ganged base []))).pend.any fun x => x.prod == .bara 7) = true ∧
    ([ganged base [], ganged base [(7, 1)], base, behindLdsy (ganged base []), stackStore, arriving (ganged base [])].all
      fun s => runs s [.bara c0 7, .barw c0 7, .bara c0 1, .barw c0 1]) = true := by decide +kernel

def guarding (s : State) : State := modMyCore s fun k => setGuard k 7 { owner := some 0, val := none }
def client (s : State) : State := modMyCore s fun k => { k with client := some 0, pword := 1 + 4 * 16 }
def idleCmd : MCmd := { id := 0, ctx := 0, uid := 0, instr := .mzero c0 0 0 .short, base := 0, idx := [], wd5 := 0, wd6 := 0,
                        wd7 := 0, go := false, started := false, row := 0, flags := 0 }
def queued1 (s : State) : State := modMyCore (client s) fun k => { k with mq := [idleCmd] }

/-- A block queue's end that a FENCEE held, still in its turn. -/
def heldCopy (s : State) : State := modRegs s fun g => { g with pend := g.pend ++ [{ id := 0, dest := .s 0, prod := .bqdone 3 }] }
/-- A command on the lease or on guard 7 that waits for its turn. -/
def waiting (s : State) (p : Prod) : State := modRegs s fun g => { g with pend := g.pend ++ [{ id := 0, dest := .s 0, prod := p }] }
/-- A task of no gang with nothing of its own on the array, one that owns a guard, has a command queued, or has a command in its
turn; a member with a store or an arrival on its way; what stays of a task that has ended. -/
theorem witness_TaskEnd : ownsGuards (myCore (guarding base)) 0 = true ∧ ownsGuards (myCore base) 0 = false ∧
    guardTurns (myRegs (guarding base)) = false ∧ guardTurns (myRegs (waiting base .mrel)) = true ∧
    (myCore (queued1 base)).client = some 0 ∧ leaseBusy (queued1 base) 0 = true ∧ ownsGuards (myCore (queued1 base)) 0 = false ∧
    retrievalOpen (myCore base) 0 (me base).uid = false ∧ (myCore base).client = none ∧ (me base).member = false ∧
    (me stackStore).member = true ∧ unreleased stackStore = true ∧ ownsGuards (myCore stackStore) 0 = false ∧
    unreleased (arriving (ganged base [])) = false ∧ owesRelease (myRegs (arriving (ganged base []))) = true ∧
    guardTurns (myRegs (heldCopy base)) = false ∧ ownsGuards (myCore (heldCopy base)) 0 = false ∧
    leftOver (me (heldCopy base)) ≠ [] ∧ (me (heldCopy base)).fwd = [] ∧
    ([base, guarding base, waiting base .mrel, queued1 base, stackStore, arriving (ganged base []), heldCopy base].all
      fun s => runs s [.done c0]) = true := by decide +kernel

/-! Matrix and retrieval (09). -/

/-- Context 0 is the client, its core has four tiles, s6 is an operand, f1 an entry of indices; the gang rotates. -/
def array : State := modRegs (ptr (client (ganged base [])) (spad + 0x1000)) fun g => wrF g 1 [fill 0]

theorem witness_MatrixCommands : let s := array
    mayCommand s (.mma c0 false false none 3 (r 6) 63 64) = true ∧ (myCore s).mq.length < 8 ∧
    (3 : AReg).toNat + (63 + 1 + 63) / 64 ≤ pwAcc (myCore s).pword ∧ mlsCheck false false 64 (sv s (r 6)).toNat s = none ∧
    mlsCheck true false 64 (sv s (r 6)).toNat s = none ∧ rowsCheck false 64 64 (sv s (r 6)).toNat s = none ∧
    rowsCheck false 0 64 (sv s (r 6)).toNat s = none ∧ (63 + 1 + 63) / 64 ≤ (rdF (myRegs s) 1).length ∧ mayRotate s = true ∧
    mstCheck false 64 256 (sv s (r 6)).toNat s = none ∧ (0 : AReg).toNat + ((3 : BitVec 4).toNat + 1) ≤ pwAcc (myCore s).pword ∧
    isClient base = false ∧ isClient s = true ∧ arrayCommands s < 8 ∧ arrayTurn (myRegs s) = false ∧
    (let t := waiting s .mlease
     mayCommand t (.mzero c0 0 3 .short) = true ∧ arrayTurn (myRegs t) = true ∧ arrayCommands t < 8 ∧
       runs t [.mzero c0 0 3 .short]) ∧
    (let t := modMyCore s fun k => { k with mq := List.replicate 8 idleCmd }
     arrayCommands t = 8 ∧ mayCommand t (.mzero c0 0 3 .short) = true ∧ runs t [.mzero c0 0 3 .short]) ∧
    ¬((1 : AReg).toNat + ((3 : BitVec 4).toNat + 1) ≤ pwAcc (myCore s).pword) ∧ mayCommand s (.mzero c0 1 3 .short) = true ∧
    runs s [.mzero c0 1 3 .short] = true ∧
    ([s, base].all fun s => runs s [.mls c0 false false none (r 6) 64, .mma c0 false false none 3 (r 6) 63 64,
      .mmag c0 false false none 3 (r 6) 1 1 63 64, .mrot c0 false false none 3 (some (r 6, 64)), .mrot c0 false false none 3 none,
      .mst c0 true false false .rne none (r 6) 3 63 256, .mzero c0 0 3 .short]) = true := by decide +kernel

/-- The same state with a FENCEE in it that waits for a store on its way: engine commands that issue now are held. -/
def heldAt (s : State) : State := withCtx { storing s with serial := 2 } fun x => { x with engineAfter := [1] }
/-- A client and owner of guard 7 with nothing before it, held, behind its own MREL or GCLR.R, with commands queued or in their
turn; another client and another owner; no client and no owner. -/
theorem witness_MatrixControl : let s := array
    let g (o : Option Nat) := modMyCore base fun k => setGuard k 7 { owner := o, val := none }
    (myCore base).client = none ∧ (myCore s).client = some (myN s) ∧ leaseBusy s 0 = false ∧
    (myCore (modMyCore base fun k => { k with client := some 1 })).client = some 1 ∧ 1 ≠ myN base ∧
    (guardAt (myCore (g none)) 7).owner = none ∧ (guardAt (myCore (g (some 0))) 7).owner = some (myN base) ∧
    (guardAt (myCore (g (some 1))) 7).owner = some 1 ∧ (myCore (queued1 base)).mq.length = 1 ∧ (0 : BitVec 4).toNat < 1 ∧
    (8 : BitVec 4).toNat ≤ 8 ∧ 8 < (9 : BitVec 4).toNat ∧
    commandTurn s = false ∧ commandTurn base = false ∧ isClient s = true ∧ isClient base = false ∧ (myRegs s).pend = [] ∧
    fenceeHeld (heldAt s) 0 0 (me s).uid (heldAt s).serial = true ∧ isClient (heldAt s) = true ∧
    guardTurns (myRegs (waiting s .mrel)) = true ∧
    isClient (waiting s .mrel) = false ∧ isClient (waiting s (.gfree 7)) = true ∧ commandTurn (queued1 base) = false ∧
    isClient (queued1 base) = true ∧ leaseBusy (queued1 base) 0 = true ∧
    ownsGuard (g (some 0)) 7 = true ∧ ([g none, g (some 0), g (some 1)].all fun s => !commandTurn s) = true ∧
    ownsGuard (heldAt (g (some 0))) 7 = true ∧
    commandTurn (heldAt (g (some 0))) = true ∧ ownsGuard (waiting (g (some 0)) (.gfree 7)) 7 = false ∧
    ownsGuard (waiting (g (some 0)) (.gset 7 true)) 7 = true ∧ commandTurn (waiting (g (some 0)) (.gset 7 true)) = true ∧
    arrayCommands (queued1 base) = 1 ∧ arrayCommands base = 0 ∧
    arrayCommands (waiting (waiting base .mlease) (.array idleCmd)) = 1 ∧
    runs (waiting (waiting base .mlease) (.array idleCmd)) [.mwait c0 0, .mwait c0 1] = true ∧
    ownsGuard (g (some 1)) 7 = false ∧
    ([heldAt s, waiting s .mrel, waiting s (.gfree 7)].all fun s => runs s [.mrel c0, .mstat c0 false 5, .mstat c0 true 5]) = true ∧
    ([heldAt s, waiting s .mrel, waiting s (.gfree 7)].all fun s => runs s [.mlease c0, .mwait c0 0, .gclr c0 7]) = true ∧ runs (queued1 base) [.mrel c0] = true ∧
    ([heldAt (g (some 0)), waiting (g (some 0)) (.gset 7 true), waiting (g (some 0)) (.gfree 7)].all fun s => runs s [.gset c0 7 (.imm true), .gclrR c0 7]) = true ∧
    ([base, s, modMyCore base fun k => { k with client := some 1 }].all fun s => runs s [.mlease c0, .mrel c0,
      .mstat c0 false 5, .mstat c0 true 5, .mwait c0 0, .mwait c0 8, .mwait c0 9]) = true ∧
    runs (queued1 base) [.mwait c0 0, .mwait c0 1] = true ∧
    ([g none, g (some 0), g (some 1)].all fun s => runs s [.gclr c0 7, .gset c0 7 (.imm true), .gclrR c0 7]) = true := by
  decide +kernel

/-- The last unit of a tile's load from [s7] to [s6], both in the scratchpad. -/
def tileLoad : State := modRegs (withS base [(6, word (spad + 0x4000)), (7, word (spad + 0x8000))]) fun g =>
  { g with mldtCur := 60 }
def tileLoads (s : State) : Bool :=
  (mldtUnits (issuer s) false true (localOff (sv s (r 6)).toNat) (sv s (r 7)).toNat 128 16 (myRegs s).mldtCur s).2.isNone

theorem witness_MatrixControl_load : mldtCheck tileLoad (issuer tileLoad) true (sv tileLoad (r 6)).toNat (sv tileLoad (r 7)).toNat
    128 60 = none ∧ (myRegs tileLoad).mldtCur = 60 ∧ (apOf (sv (ptr base (spad + 5 * 2 ^ 20)) (r 6)).toNat).win = 5 ∧
    runs (ptr base (spad + 5 * 2 ^ 20)) [.mldt c0 false false (r 6) (r 7) 128] = true ∧
    mldtStopped tileLoad (issuer tileLoad) (sv tileLoad (r 7)).toNat 128 60 = false ∧
    (let s := stoppedAway (withS tileLoad [(7, word farPad)])
     mldtStopped s (issuer s) (sv s (r 7)).toNat 128 60 = true ∧ runs s [.mldt c0 false true (r 6) (r 7) 128] = true ∧
       mldtCheck s (issuer s) true (sv s (r 6)).toNat (sv s (r 7)).toNat 128 60 = none) ∧
    tileLoads tileLoad = true ∧ runs tileLoad [.mldt c0 false true (r 6) (r 7) 128] = true := by decide +kernel

/-- A descriptor of one table of 16 buckets in the scratchpad, one row. -/
def block : Nat := 2 ^ 537 + 4 * 2 ^ 532 + 2 ^ 160 + (spad + 0x5000) * 2 ^ 192 + (spad + 0x6000) * 2 ^ 256 +
  (spad + 0x7000) * 2 ^ 320
def rdesc : RDesc := { block := BitVec.ofNat 1024 block, core := 0, priv := 0, wd5 := 0, wd6 := 0, wd7 := 0, drops := 0,
                       evicts := 0, chains := 0, pfail := 0, rejects := 0 }
/-- hf3 holds that descriptor, f1 an entry of ids; its block lies at [s6]. -/
def probing : State := setDesc (writePlaces (modRegs (ptr base (spad + 0x1000)) fun g => wrF g 1 [fill 0])
  ((poolPlaces 0 0x1000 128).zip (toLe 128 block))) 0 3 (some rdesc)
def failed (s : State) : State := withCtx s fun x => { x with poolFail := true }
/-- n writes of context 0 of a core to module 5, numbered 0, are not acknowledged. -/
def unackedFar (core n : Nat) (s : State) : State :=
  let o : OutPacket :=
    { p := { kind := 0, src := 0, dst := 5, seq := 0, queue := 0, index := 0, flag := 0, addr := 0, mask := 0, data := [], op := .store },
      id := 0, copy := false, core, ctx := 0, uid := (me s).uid, gen := 0, part := 0 }
  awaiting (modPeer s 5 fun y => { y with unacked := List.replicate n o }) false
/-- RTSET.INIT of hf3 has cleared its table up to item i, and waits for what it sent under number 0. -/
def clearing (i : Nat) (s : State) : State := withCtx { awaiting s false with serial := 1 } fun x => { x with init := some (3, i) }
/-- A table of 4,096 buckets: 4,098 items. -/
def wide : State := setDesc probing 0 3 (some { rdesc with block := rdesc.block + BitVec.ofNat 1024 (8 * 2 ^ 532) })
/-- Whether a packet of the core's context is on its way, as RTSET.INIT asks. -/
def awayFar (s : State) : Bool := packetsIn s 0 0 (me s).uid 0 s.serial none
/-- What is left from item i, cleared in one piece. -/
def pieceOk (s : State) (i : Nat) : Bool :=
  match myDesc s 3 with
  | some d => (match initWrites 0 d (((initItems d).drop i).take 4096) { s with waited := false } with
      | (w, none) => !w.waited
      | _ => false)
  | none => false
/-- The steps of RTSET.INIT up to its first writes: at most 4,096 items, all of the core's own scratchpad. -/
def initOk (s : State) : Bool :=
  match engineRead s (myId s) (me s).priv.toNat (sv s (r 6)).toNat 128 with
  | (u, .ok ps) =>
    let y : RDesc := { rdesc with block := BitVec.ofNat 1024 (readPlaces u ps) }
    blockOk y && !placesStopped u 0 ps && (match initWrites 0 y ((initItems y).take 4096) { setDesc u 0 3 (some y) with waited := false } with
      | (w, none) => !w.waited
      | _ => false)
  | _ => false
/-- A block that no page maps. -/
def unread : State := ptr probing 0x4000000000
def unreadOk (s : State) : Bool :=
  match engineRead s (myId s) (me s).priv.toNat (sv s (r 6)).toNat 128 with
  | (_, .error _) => true
  | _ => false

/-- A block at the scratchpad of a core whose clock stands still; one of zeros; one whose tables lie there. -/
def blockAt (s : State) : Option (Bool × Bool) :=
  match engineRead s (myId s) (me s).priv.toNat (sv s (r 6)).toNat 128 with
  | (u, .ok ps) => some (placesStopped u (myId u) ps, blockOk { rdesc with block := BitVec.ofNat 1024 (readPlaces u ps) })
  | _ => none
def farTable : RDesc := { rdesc with block := BitVec.ofNat 1024 (block - (spad + 0x5000) * 2 ^ 192 + farPad * 2 ^ 192) }
def tableStopped (s : State) (d : RDesc) : Bool :=
  match initWrites 0 d ((initItems d).take 4096) { s with waited := false } with
  | (w, none) => w.waited
  | _ => false
def farProbing : State := stoppedAway (setDesc (writePlaces (ptr base (spad + 0x1000))
  ((poolPlaces 0 0x1000 128).zip (toLe 128 farTable.block.toNat))) 0 3 (some farTable))
def rcommands : List Instr := [.rhv c0 1 3 (r 6), .rins c0 3 (r 6), .rdel c0 3 (r 6), .rhash c0 3 (r 6) (r 7), .rhashFifo c0 3 1,
  .rdirty c0 1 3, .rstat c0 false 5 3 5, .rprobe c0 5 (r 6) 3 0 511 none]
/-- Commands with a full queue, without a descriptor, after a pool failure; selectors, h and m out of range; an empty FIFO;
blocks in a stopped scratchpad, misaligned, of zeros, and with a table in a stopped scratchpad. -/
theorem witness_RetrievalCommands_traps : let s := probing
    let full := modMyCore s fun k => { k with rq := List.replicate 8 (rcmd s 3 (.del 0)) }
    let bare := setDesc s 0 3 none
    8 ≤ (myCore full).rq.length ∧ myDesc bare 3 = none ∧ (me bare).poolFail = false ∧ (me full).poolFail = false ∧
    myDesc full 3 = some rdesc ∧ ([full, bare, failed s].all fun s => runs s rcommands) = true ∧
    (me (failed s)).init = none ∧ (me (failed s)).await = none ∧
    runs (failed s) [.rtset c0 3 (r 6), .rtsetInit c0 3 (r 6), .rfence c0 .core] = true ∧
    5 < (6 : BitVec 3).toNat ∧ 5 < (7 : BitVec 3).toNat ∧ rdL rdesc < (1 : BitVec 4).toNat + 1 ∧ 512 < (512 : BitVec 12).toNat + 1 ∧
    rdF (myRegs s) 2 = [] ∧ runs s [.rstat c0 false 5 3 6, .rstat c0 true 5 3 7, .rprobe c0 5 (r 6) 3 1 511 none,
      .rprobe c0 5 (r 6) 3 0 512 none, .rhashFifo c0 3 2] = true ∧
    (let t := stoppedAway (ptr probing farPad)
     blockAt t = some (true, false) ∧ (me t).init = none ∧ descBusy t 0 3 = false ∧ (sv t (r 6)).toNat % 8 = 0 ∧
       (apOf (sv t (r 6)).toNat).win = 0 ∧ runs t [.rtset c0 3 (r 6), .rtsetInit c0 3 (r 6)] = true) ∧
    blockAt (ptr probing spad) = some (false, false) ∧ (sv (ptr probing (spad + 1)) (r 6)).toNat % 8 ≠ 0 ∧
    ([ptr probing spad, ptr probing (spad + 1)].all fun s => runs s [.rtset c0 3 (r 6), .rtsetInit c0 3 (r 6)]) = true ∧
    descBusy full 0 3 = true ∧ runs full [.rtset c0 3 (r 6)] = true ∧
    blockAt farProbing = some (false, true) ∧ tableStopped farProbing farTable = true ∧
    runs farProbing [.rtsetInit c0 3 (r 6)] = true ∧ tableStopped (clearing 0 farProbing) farTable = true ∧
    (me (clearing 0 farProbing)).init = some (3, 0) ∧ runs (clearing 0 farProbing) [.rtsetInit c0 3 (r 6)] = true := by
  decide +kernel

theorem witness_RetrievalCommands : let s := probing
    myDesc s 3 = some rdesc ∧ (me s).poolFail = false ∧ (myCore s).rq.length < 8 ∧ rdF (myRegs s) 1 = [fill 0] ∧
    (5 : BitVec 3).toNat ≤ 5 ∧ probeCheck 0 511 none s rdesc = none ∧
    probeCheck 0 4095 (some 0x100) s rdesc = none ∧ myDesc s 4 = none ∧ (me (failed s)).poolFail = true ∧
    descBusy s 0 3 = false ∧ (sv s (r 6)).toNat % 8 = 0 ∧ (apOf (sv s (r 6)).toNat).win = 0 ∧ (me s).await = none ∧
    ([s, failed s, awaiting s true, awaiting s false].all fun s => runs s [.rhv c0 1 3 (r 6), .rins c0 3 (r 6),
      .rdel c0 3 (r 6), .rhash c0 3 (r 6) (r 7), .rdirty c0 1 3, .rhashFifo c0 3 1, .rstat c0 false 5 3 5,
      .rprobe c0 5 (r 6) 3 0 511 none, .rtset c0 3 (r 6), .rtsetInit c0 3 (r 6), .rfence c0 .stack]) = true := by
  decide +kernel

/-- A block of 18 items read and cleared in one piece, with and without a packet on its way; one that cannot be read. -/
theorem witness_RetrievalCommands_init : initOk probing = true ∧ (initItems rdesc).length = 18 ∧
    initOk (unackedFar 0 1 { probing with serial := 1 }) = true ∧ awayFar (unackedFar 0 1 { probing with serial := 1 }) = true ∧
    awayFar probing = false ∧ (me probing).init = none ∧ (me (unackedFar 0 1 probing)).init = none ∧
    unreadOk unread = true ∧ (sv unread (r 6)).toNat % 8 = 0 ∧ (me unread).init = none ∧ (me unread).poolFail = false ∧
    (apOf (sv unread (r 6)).toNat).win = 0 ∧ descBusy unread 0 3 = false ∧
    runs unread [.rtset c0 3 (r 6), .rtsetInit c0 3 (r 6)] = true ∧
    runs (unackedFar 0 1 { probing with serial := 1 }) [.rtsetInit c0 3 (r 6)] = true := by decide +kernel

/-- RTSET.INIT under way: its last piece with nothing or a packet on its way, a piece with more after it, and only the wait. -/
theorem witness_RetrievalCommands_pieces : ([clearing 0 probing, clearing 0 (unackedFar 0 1 probing)].all fun s => pieceOk s 0) =
    true ∧ awayFar (clearing 0 probing) = false ∧ awayFar (clearing 0 (unackedFar 0 1 probing)) = true ∧
    ((myDesc wide 3).map fun d => (initItems d).length) = some 4098 ∧
    pieceOk (clearing 18 (unackedFar 0 1 probing)) 18 = true ∧ awayFar (clearing 18 (unackedFar 0 1 probing)) = true ∧
    pieceOk (clearing 4096 wide) 4096 = true ∧
    ([clearing 0 probing, clearing 0 (unackedFar 0 1 probing), clearing 18 (unackedFar 0 1 probing), clearing 4096 wide].all
      fun s => (me s).init.isSome && runs s [.rtsetInit c0 3 (r 6)]) = true := by decide +kernel

/-! Plasticity, rewards, Swell and collectives (10). -/

/-- A region of 2 × 2 synapses at 0x3000. -/
def region1 : Region := blockRegion (2 * 2 ^ 112 + 2 * 2 ^ 96 + 0x3000 * 2 ^ 64)
def plastic (origin : Nat) : State := modMyCore (withS base [(6, word origin)]) fun k => { k with regions := [(3, some region1)] }
/-- Its block at [s6]. -/
def blocked : State := writePlaces (ptr base (spad + 0x1000))
  ((poolPlaces 0 0x1000 16).zip (toLe 16 (2 * 2 ^ 112 + 2 * 2 ^ 96 + 0x3000 * 2 ^ 64)))

/-- A TSTEP of region 3 waits in the trace unit. -/
def pending3 (s : State) : State := modMyCore s fun k => { k with tl := [.cmd 0 0 (me s).uid (.step 3)] }
def tcommands (n : BitVec 4) (nr nc : BitVec 6) : List Instr := [.tstep c0 n, .tadv c0 n (r 6) (v 1) (v 2) nr nc,
  .tadvr c0 n (r 6) (v 1) (r 7) nc, .trd c0 1 n (r 6) nc, .tclrE c0 n (r 6) (nr.setWidth 16), .tclrD c0 n (r 6) (nr.setWidth 16)]
/-- λ of 1.0, a slot in use; a region with commands before it; blocks outside window 0, past the scratchpad, misaligned and of
zeros; rows and columns past the region's, from its last synapse on; a full list; an undefined region. -/
theorem witness_TraceCommands_traps : rateOf one32 = none ∧ rateOf (2 ^ 31 + 1) = none ∧
    (let s := plastic (1 + 2 ^ 32)
     let full := modMyCore s fun k => { k with tl := List.replicate 16 (.cmd 0 0 (me s).uid (.step 3)) }
     ((myCore s).regions.any fun x => x.2.any fun y => y.slot == 0) = true ∧ regionBusy (pending3 s) 3 = true ∧
     region1.rows < (sv s (r 6)).toNat % 2 ^ 16 + ((1 : BitVec 6).toNat + 1) ∧
     region1.cols < (sv s (r 6)).toNat / 2 ^ 32 % 2 ^ 9 + ((1 : BitVec 6).toNat + 1) ∧ ¬cmdsPending (myCore full) < 16 ∧
     regionOf full 0 3 = some region1 ∧ (me full).await = none ∧ regionOf s 0 4 = none ∧
     runs (pending3 s) [.treg c0 3 (r 6), .tregInit c0 3 (r 6)] = true ∧
     runs s (.trate c0 0 (r 6) :: tcommands 3 1 0 ++ tcommands 3 0 1 ++ tcommands 4 0 0) = true ∧
     runs full (tcommands 3 0 0) = true ∧
     (let t := plastic (2 + 2 * 2 ^ 32)
      region1.rows < (sv t (r 6)).toNat % 2 ^ 16 + 1 ∧ region1.cols < (sv t (r 6)).toNat / 2 ^ 32 % 2 ^ 9 + 1 ∧
        runs t (tcommands 3 0 0))) ∧
    ([ptr base (spad + 2 ^ 20), ptr base (spad + coreSp base 0 - 8), ptr base (spad + 4), ptr base spad].all fun s =>
      !regionBusy s 3 && runs s [.treg c0 3 (r 6), .tregInit c0 3 (r 6), .trate c0 0 (r 6)]) = true ∧
    apOf (sv (ptr base (spad + 2 ^ 20)) (r 6)).toNat = .loc 1 0 ∧
    apOf (sv (ptr base (spad + coreSp base 0 - 8)) (r 6)).toNat = .loc 0 (coreSp base 0 - 8) ∧
    coreSp base 0 < coreSp base 0 - 8 + 16 ∧ (sv (ptr base (spad + 4)) (r 6)).toNat % 8 ≠ 0 ∧
    apOf (sv (ptr base (spad + 4)) (r 6)).toNat = .loc 0 4 ∧ regionOk (ptr base spad) 3 (readPool (ptr base spad) 0 0 16) = false := by
  decide +kernel

/-- λ of 0, the largest below 1, and −0; the last row and column of the region, and the row after it. -/
theorem witness_TraceCommands : rateOf 0 = some 0 ∧ rateOf (2 ^ 31) = some 0 ∧ rateOf (one32 - 1) = some (one32 - 1) ∧
    ((myCore base).regions.any fun x => x.2.any fun y => y.slot == 15) = false ∧
    regionBusy blocked 3 = false ∧ apOf (sv blocked (r 6)).toNat = .loc 0 0x1000 ∧
    0x1000 + 16 ≤ coreSp blocked 0 ∧ (sv blocked (r 6)).toNat % 8 = 0 ∧
    regionOk blocked 3 (readPool blocked 0 0x1000 16) = true ∧
    (let s := plastic (1 + 2 ^ 32)
     regionOf s 0 3 = some region1 ∧ cmdsPending (myCore s) < 16 ∧ (sv s (r 6)).toNat % 2 ^ 16 + (0 + 1) ≤ region1.rows ∧
     (sv s (r 6)).toNat / 2 ^ 32 % 2 ^ 9 + (0 + 1) ≤ region1.cols ∧
     regionBusy s 3 = false ∧ regionBusy s 4 = false ∧ regionBusy (pending3 s) 3 = true ∧
     runs (pending3 s) [.tregX c0 3] = true ∧ region1.rows < (sv s (r 6)).toNat % 2 ^ 16 + (1 + 1) ∧ (me s).await = none ∧ regionOf s 0 4 = none ∧
     ([s, awaiting s true].all fun s => runs s [.trate c0 15 (r 6), .treg c0 3 (r 6), .tregInit c0 3 (r 6), .tregX c0 3,
       .tregX c0 4, .tstep c0 3, .tstep c0 4, .tadv c0 3 (r 6) (v 1) (v 2) 0 0, .tadvr c0 3 (r 6) (v 1) (r 7) 0, .trd c0 1 3 (r 6) 0,
       .tclrE c0 3 (r 6) 0, .tclrE c0 3 (r 6) 1, .tclrD c0 3 (r 6) 0]) = true) ∧
    runs blocked [.treg c0 3 (r 6), .tregInit c0 3 (r 6)] = true := by decide +kernel

/-- An advance of region 3 waits for a FENCEE, which waits for a store; s6 addresses the region's first synapse through window
7, and x0 is a stream of it. -/
def shut7 : State :=
  let s := modMyCore (storing (ptr base (spad + 7 * 2 ^ 20))) fun k =>
    { k with regions := [(3, some region1)], tl := [.cmd 2 0 (me base).uid (.clrE 3 0 1)] }
  withCtx { s with serial := 3 } fun x => { x with engineAfter := [1], regs :=
    (wrX ({ x.regs with wd7 := 2 ^ 63 + 3 }) 0 ({ base := word (spad + 7 * 2 ^ 20), idx := word (spad + 0x200), n := 1, k := 0, cur := 0 })) }
def readsShut (k : Acs) (n : Nat) (as : List (Nat × Nat)) : Bool :=
  match resolve shut7 (issuer shut7) k n false false as with
  | (u, .ok [(0, .els es)]) => !es.isEmpty && regionsShut u es none && !ownInFlight u es && !mustFollow (myRegs u)
  | _ => false
theorem witness_loads_shut : readsShut .ld 4 [(0, spad + 7 * 2 ^ 20)] = true ∧
    readsShut .vld 4 [(0, spad + 7 * 2 ^ 20)] = true ∧
    runs shut7 [.ld c0 .w false false 5 (r 6) o0, .vld p1 false 1 (r 6) o0, .spopStream p0 1 0] = true := by decide +kernel

/-- One reward beat of this context waits in its layer's queue. -/
def rewarding : State := pushBeat base (.reward 1 false 0)

theorem witness_Rewards : queued base (layerIn base 0) 0 (fun i => b2n (isReward i)) < 64 ∧
    sv base (r 6) = 0 ∧
    (let seq : BitVec 32 := (sv (withS base [(6, 1)]) (r 6)).setWidth 32
     ¬ (sv (withS base [(6, 1)]) (r 6) = 0 ∨ isGw 0 = true ∨ (seq - acOf (withS base [(6, 1)]) 0).toNat = 0 ∨
        2 ^ 31 ≤ (seq - acOf (withS base [(6, 1)]) 0).toNat)) ∧
    2 ^ 31 ≤ ((sv (withS base [(6, -1)]) (r 6)).setWidth 32 - acOf base 0 : BitVec 32).toNat ∧
    (trhzValue base 0 4 15).isSome = true ∧ (trhzValue (settleUnit base 0 4) 0 4 15).isSome = true ∧ heldNow base = false ∧
    trhzShut base 0 0 (me base).uid 4 15 0 = false ∧ heldNow (behindLdsy rewarding) = true ∧ (trhzValue rewarding 0 4 15).isSome =
    true ∧ trhzValue base 0 5 15 = none ∧ trhzValue base 0 7 15 = none ∧ (openReward rewarding).isSome = true ∧ openReward base = none ∧
    runs (behindLdsy rewarding) [.trhz c0 false 5 4 15, .trhz c0 true 5 3 0] = true ∧
    ([base, rewarding, withS base [(6, 1)], withS base [(6, -1)]].all fun s => runs s [.rwd c0 (r 6) (r 7), .rwdC c0 (r 6) (r 7),
      .rwdw c0 (r 6), .trhz c0 false 5 4 15, .trhz c0 false 5 2 0, .trhz c0 false 5 5 15, .trhz c0 false 5 7 15, .trhz c0 true 5 3 0]) = true := by decide +kernel

/-- The last word of the mirror, a block of 128 bytes, and the two times about 12 beats. -/
theorem witness_StackStores : let s := ptr base (0xFFFFFF2000000000 + 2 ^ 22 - 4)
    let t := withS base [(6, 0xFFFFFF2000000000), (7, word spad)]
    let at' (n : Nat) := { base with stc := word n }
    apOf (addrOf s (r 6) o0) = .mirror (2 ^ 22 - 4) ∧ apOf (addrOf s (r 6) o0 + 4 - 1) = .mirror (2 ^ 22 - 4 + 4 - 1) ∧
    addrOf s (r 6) o0 % 4 = 0 ∧ queued s (layerIn s 0) 0 recordsOf + 1 ≤ 1024 ∧
    apOf (sv t (r 6)).toNat = .mirror 0 ∧ apOf ((sv t (r 6)).toNat + 128 - 1) = .mirror (0 + 128 - 1) ∧
    apOf (sv t (r 7)).toNat = .loc 0 0 ∧ 0 + 128 ≤ coreSp t 0 ∧ (sv t (r 6)).toNat % 8 + 128 ≤ 128 ∧
    queued t (layerIn t 0) 0 recordsOf + (0 % 8 + 128 + 7) / 8 ≤ 1024 ∧
    (sv (at' 12) (r 6)).toNat + 12 ≤ (at' 12).stc.toNat ∧ (at' 11).stc.toNat < (sv (at' 11) (r 6)).toNat + 12 ∧
    beatsOpen base 0 0 (me base).uid = false ∧ beatsOpen rewarding 0 0 (me rewarding).uid = true ∧
    wdOk 7 0 = true ∧ wdOk 5 minI = false ∧ wdOk 4 0 = false ∧ runs s [.sts c0 .w (r 6) o0 (r 7)] = true ∧
    runs t [.stsb c0 (r 6) (r 7) 127] = true ∧ ([at' 11, at' 12, rewarding].all fun s => runs s [.swait c0 (r 6),
      .swaitOwn c0, .wdset c0 7 (r 0), .wdset c0 4 (r 0)]) = true := by decide +kernel

/-- A byte store at mirror offset 11 is a record of the doubleword at 8 with the mask of byte 3 (10 R286). -/
theorem test_sts : (match exec (.sts c0 .b (r 6) (.i24 3) (r 7)) (ptr base 0xFFFFFF2000000008) with
    | .next t => (getLayer t 0).queue.map (·.item)
    | _ => []) = [.store [{ off := 8, mask := 8, data := 0x88000000 }]] := by decide +kernel

/-- On a gateway core, with queue 3 open and one block ready, closed, or not configured; s6, s7 and s8 are slots. -/
def gateway (ready : List (BitVec 32)) (isOpen : Bool) (nb : BitVec 16) : State :=
  let s : State := { base with cur := (0x4000, 0), bqs := [(3, { lb := 0, isOpen, part := 0, nb, ready })] }
  let s := modCtx s 0x4000 0 fun x => { x with resident := true, regs := { x.regs with pc := 0x200000 } }
  withS s [(6, word spad), (7, word (spad + 0x400)), (8, word (spad + 0x800))]

theorem witness_Collectives : let s := gateway [7] true 4
    isGw (myId s) = true ∧ (getBq s 3).nb ≠ 0 ∧ (getBq s 3).ready = [7] ∧ (getBq (gateway [] false 4) 3).ready = [] ∧
    (getBq (gateway [] false 4) 3).isOpen = false ∧ (getBq (gateway [] true 4) 3).isOpen = true ∧ (getBq s 4).nb = 0 ∧
    heldNow s = false ∧ heldNow (behindLdsy { s with serial := 1 }) = true ∧
    runs (behindLdsy { s with serial := 1 }) [.bqdone c0 3, .bsend c0 .f32 (r 6) (r 0) (r 0)] = true ∧ (me s).await = none ∧
    etFmt .i32 = none ∧ etFmt .bf16 = some bf16 ∧ (sv (withS s [(7, 3 * 65536)]) (r 7)).toNat % 2 ^ 16 = s.modid.toNat ∧
    (sv (withS s [(7, 4 * 65536)]) (r 7)).toNat / 2 ^ 16 % 16 = 4 ∧
    runs s [.bred c0 .add .i32 8 (r 6) (r 7), .bsend c0 .ub (r 6) (r 0) (r 0)] = true ∧
    runs (withS s [(7, 4 * 65536)]) [.bsend c0 .f32 (r 6) (r 7) (r 0)] = true ∧
    ([s, gateway [] false 4, gateway [] true 4].all fun s => runs s [.bqpop c0 5 3, .bqpop c0 5 4, .bqdone c0 3, .bqdone c0 4,
      .bred c0 .add .f32 8 (r 6) (r 7), .bsend c0 .f32 (r 6) (r 0) (r 0)]) = true := by decide +kernel

/-- A write of the BRED under way to slot bytes of module 5, not acknowledged; the pair with module 5 is full. -/
def bredFar (n : Nat) (s : State) : State := unackedFar 0x4000 n s
theorem witness_Collectives_far : let s := bredFar 1 (gateway [7] true 4)
    packetsIn s 0x4000 0 (me s).uid 0 1 none = true ∧ (me s).await = some { id := 0, done := false } ∧
    packetsIn (awaiting (gateway [7] true 4) false) 0x4000 0 (me s).uid 0 1 none = false ∧
    pairFull (getPeer (bredFar 65536 s) 5) = true ∧ pairFull (getPeer s 5) = false ∧
    ([s, awaiting (gateway [7] true 4) false].all fun s => runs s [.bred c0 .add .f32 8 (r 6) (r 7)]) = true := by decide +kernel

theorem witness_Collectives_slots : let s := gateway [7] true 4
    (match slotCheck s (issuer s) [(sv s (r 6)).toNat, (sv s (r 7)).toNat] [(sv s (r 8)).toNat] with
     | (u, none) => (readSlot u 0x4000 0 (sv s (r 6)).toNat).2.isSome && (readSlot u 0x4000 0 (sv s (r 7)).toNat).2.isSome
     | _ => false) = true ∧ pairFull (getPeer s 0) = false ∧
    (let u := withS s [(7, 3 * 65536)]
     (sv u (r 7)).toNat % 2 ^ 16 = u.modid.toNat ∧ (getBq u ((sv u (r 7)).toNat / 2 ^ 16 % 16)).nb ≠ 0) := by decide +kernel

/-! System instructions (16). -/

theorem witness_ControlRegisters : csrOf (0x001 : BitVec 12).toNat = some .fstat ∧ csrOf (0x012 : BitVec 12).toNat = some .epc ∧
    csrOf (0xFFF : BitVec 12).toNat = none ∧ csrDenied (me base).priv.toNat .fstat true = false ∧
    csrDenied (me sys).priv.toNat .epc true = false ∧ flagsOpen (myRegs base) = false ∧ (me base).priv = 0 ∧
    ([base, sys].all fun s => runs s [.csrr c0 5 1, .csrw c0 5 1 (r 6), .csrr c0 5 0x12, .csrw c0 5 0x12 (r 6),
      .csrs c0 5 0x12 (r 6), .csrc c0 5 0x12 (r 6), .csrr c0 5 0xFFF, .csrw c0 5 0xFFF (r 6), .csrs c0 5 0xFFF (r 6),
      .csrc c0 5 0xFFF (r 6), .csrw c0 5 0x41 (r 6), .csrs c0 5 0x41 (r 6), .csrc c0 5 0x43 (r 6)]) = true ∧
    csrOf (0x41 : BitVec 12).toNat = some .satb ∧ csrOf (0x43 : BitVec 12).toNat = some .syscore ∧ (me sys).priv = 1 ∧
    flagsOpen (myRegs (behindLdsy base)) = true ∧
    runs (behindLdsy base) [.csrr c0 5 1, .csrw c0 5 1 (r 6), .csrs c0 5 1 (r 6), .csrc c0 5 1 (r 6)] = true := by decide +kernel

/-- The old value goes to sD, and TVEC keeps its low five bits 0 (16 Table 16.2). -/
theorem test_csrw : (match exec (.csrw c0 5 0x14 (r 6)) (withS sys [(6, 0x12345)]) with
    | .next t => (rdS (myRegs t) 5, (me t).tvec)
    | _ => (1, 1)) = (0, 0x12340) := by decide +kernel
/-- At task privilege only the registers marked so (06 R147): the trap's CAUSE is PRIVILEGE. -/
theorem test_csrr_privilege : (match exec (.csrr c0 5 0x12) base with
    | .next t => ((me t).cause, (me t).priv, (me t).intrap, (me t).epc)
    | _ => (0, 0, false, 0)) = (2, 1, true, 0x200000) := by decide +kernel

/-- In a handler at system privilege that a task's trap entered, its EPC at 0x200010; EPC at offset 28 of a block; and
PPRIV above PRIV. -/
def handler (epc : Word) (pp : BitVec 2) : State := withCtx sys fun x => { x with epc, ppriv := pp, intrap := true }
theorem witness_ReturnFromTrap : let s := handler 0x200010 0
    (me s).ppriv.toNat ≤ (me s).priv.toNat ∧ (me s).epc.toNat % 4 = 0 ∧ (me s).epc.toNat % 32 ≠ 28 ∧ (me s).freezing = false ∧
    (me (handler 0x20001C 1)).ppriv.toNat ≤ (me (handler 0x20001C 1)).priv.toNat ∧
    (me (handler 0x20001C 1)).epc.toNat % 32 = 28 ∧ (me (handler 0 2)).priv.toNat < (me (handler 0 2)).ppriv.toNat ∧
    ([s, handler 0x20001C 1, handler 0 2].all fun s => runs s [.eret c0]) = true := by decide +kernel

theorem test_eret : (match exec (.eret c0) (handler 0x200010 0) with
    | .next t => ((me t).priv, (me t).intrap, (myRegs t).pc)
    | _ => (3, true, 0)) = (0, false, 0x200010) := by decide +kernel

/-- Slots 0 to 15 are the partition's; s6 names one of them or the first beyond, s7 an. -/
def sharing : State := modPart (withS sys [(6, 15), (7, 31)]) 0 fun p => { p with satb := 16 * 256 }
theorem witness_SystemRequests : let s := sharing
    let o := withS s [(6, 16)]
    (me s).await = none ∧ inShare (getPart s 0).satb ((sv s (r 6)).toNat % 256) = true ∧
    (sv s (r 7)).toNat % 32 = 31 ∧ (sv s (r 7)).toNat / 8192 % 8 = 0 ∧ (me o).priv ≠ 2 ∧
    inShare (getPart o 0).satb ((sv o (r 6)).toNat % 256) = false ∧
    (myCore (modMyCore (awaiting s false) fun k => { k with wfi := 1 })).wfi.getLsbD 0 = true ∧
    (let t (v : Word) := withS s [(7, v)]
     (sv (t 17) (r 7)).toNat % 32 = 17 ∧ (sv (t 30) (r 7)).toNat % 32 = 30 ∧ (sv (t 8192) (r 7)).toNat / 8192 % 8 = 1 ∧
       ([t 17, t 30, t 8192].all fun s => runs s [.satw c0 (r 6) (r 7)])) ∧
    (myCore (awaiting s false)).wfi.getLsbD 0 = false ∧ (me (awaiting s true)).await = some { id := 0, done := true } ∧
    ([s, o, awaiting s true, awaiting s false, modMyCore (awaiting s false) fun k => { k with wfi := 1 }].all fun s =>
      runs s [.tlbiPage c0 (r 6), .tlbiAll c0, .tlbiKid c0 (r 6), .wfi c0, .satw c0 (r 6) (r 7)]) = true := by
  decide +kernel

/-- A copy holds a byte for a place of memory. -/
def holding (s : State) : State := modMyCore (sixteen s) fun k =>
  { k with copies := k.copies.map fun p => { p with buf := [(0, .hbm 64, 0xFF, 7)] } }
theorem witness_SystemRequests_tlbi : unitsHold sharing 0 = false ∧ unitsHold (holding sharing) 0 = true ∧
    runs (holding sharing) [.tlbiPage c0 (r 6), .tlbiAll c0] = true := by decide +kernel

/-- CHSET of core 5, whose entry for channel 40 becomes valid, and of core 1024, whose stratum the partition does not own. -/
def charting (c : Word) : State := withS sys [(6, c), (7, minI), (8, 2 ^ 55)]
theorem witness_SystemRequests_chset : let s := charting 5
    let h := chanOfWords (sv s (r 7)) (sv s (r 8))
    h.valid = true ∧ (sv s (r 7)).toNat / 2 ^ 56 % 128 = 0 ∧ (getChan (getCore s 5) 40).gang = h.gang ∧
    (getChan (getCore s 5) 40).lbase = h.lbase ∧ (getChan (getCore s 5) 40).lsize = h.lsize ∧
    validCore 5 = true ∧ inPart s 0 5 = true ∧ mget (getCore s 5).chset 40 none = none ∧ h.lsize = 0 ∧
    inPart s 0 1024 = false ∧ validCore 1024 = true ∧ validCore 0xFFFF = false ∧
    (let t := withS s [(7, 2 ^ 56)]
     (sv t (r 7)).toNat / 2 ^ 56 % 128 = 1 ∧ runs t [.chset c0 (r 6) 40 (r 7) (r 8)]) ∧
    (let t := withS s [(8, 1)]
     let g := chanOfWords (sv t (r 7)) (sv t (r 8))
     let k := modCore t 5 fun k => { k with rings := mset k.rings 40 { Ring.reset with live := [{ id := 0, off := 0, len := 1, freed := false }] } }
     g.lsize ≠ 0 ∧ g.valid = false ∧ (getRing (getCore (returnHeld t 5 40) 5) 40).live = [] ∧
       (getRing (getCore (returnHeld k 5 40) 5) 40).live ≠ [] ∧ (getRing (getCore k 5) 40).live ≠ [] ∧
       (let w (s : State) := modCore s 5 fun k => { k with chset := mset k.chset 40 (some g) }
        mget (getCore (w t) 5).chset 40 none ≠ none ∧ mget (getCore (w k) 5).chset 40 none ≠ none ∧
          ([t, k, w t, w k].all fun s => runs s [.chset c0 (r 6) 40 (r 7) (r 8), .chset c0 (r 6) 63 (r 7) (r 8)]))) ∧
    ([s, charting 0xFFFF, charting 1024].all fun s => runs s [.chset c0 (r 6) 40 (r 7) (r 8), .chset c0 (r 6) 63 (r 7) (r 8)]) = true := by
  decide +kernel

def ganged2 (f : Member → Member) (g : Ctx → Ctx) : State :=
  let s := withS (modPart sys 0 fun p => { p with gangs := [{ gang1 [] with members := [f { mem0 [] with core := 1 }] }] }) [(6, 1)]
  modCtx s 1 0 fun x => g { x with resident := true, gang := 1, gen := 1, member := true }
theorem witness_GangsAndStrata : let s := ganged2 id id
    let f := ganged2 id fun x => { x with frozen := true }
    let l := ganged2 (fun m => { m with lost := true }) id
    gangArg sys (r 6) = none ∧ ((gangArg s (r 6)).map gangLost) = some false ∧
    ((gangArg s (r 6)).map (gangFrozen s)) = some false ∧ ((gangArg l (r 6)).map gangLost) = some true ∧
    ((gangArg f (r 6)).map (gangFrozen f)) = some true ∧
    ((gangArg f (r 6)).map fun g => (liveMembers g).all fun m => !m.saved && (getCtx f m.core m.ctx).frozen) = some true ∧
    ([sys, s, f, l].all fun s => runs s [.preempt c0 5 (r 6), .gangctlStatus c0 5 (r 6), .gangctlResume c0 5 (r 6),
      .gangctlKill c0 5 (r 6)]) = true := by decide +kernel

/-- Strata 0 and 3 belong to the partition; stratum 3 sleeps or is awake, or wakes. -/
def strata (awake : Bool) (wake : Option Wake) : State :=
  let s := modPart (withS sys [(6, 3)]) 0 fun p => { p with pcfg := p.pcfg ||| 8 }
  modLayer (modStratum s 3 fun z => { z with awake }) 3 fun y => { y with wake }
theorem witness_GangsAndStrata_sleep : stratumArg (strata true none) (r 6) true = .ok 3 ∧
    stratumArg (strata false none) (r 6) false = .ok 3 ∧ (getStratum (strata true none) 3).awake = true ∧
    (getStratum (strata false none) 3).awake = false ∧ (getStratum (strata true none) 3).sleepReq = false ∧
    (getLayer (strata false (some ⟨1, []⟩)) 3).wake = some ⟨1, []⟩ ∧
    (getLayer (strata false none) 3).wake = none ∧ (getStratum (strata false none) 3).sleepReq = false ∧
    (getStratum (modStratum (strata true none) 3 fun z => { z with sleepReq := true }) 3).sleepReq = true ∧
    stratumArg (withS sys [(6, 5)]) (r 6) true = .error tPRIVILEGE ∧ stratumArg (withS sys [(6, 5)]) (r 6) false = .error tPRIVILEGE ∧
    ([strata true none, strata false none, strata false (some ⟨1, []⟩), withS sys [(6, 5)],
      modStratum (strata true none) 3 fun z => { z with sleepReq := true }].all fun s =>
      runs s [.sleeps c0 5 (r 6), .wakes c0 5 (r 6)]) = true := by decide +kernel

/-- Core 0 holds a second context, resident or not, frozen or not; [s6] is a save area at 0x300000. -/
def twoCtx (resident frozen : Bool) : State :=
  let s := modMyCore (withCtx mapped fun x => { x with priv := 1 }) fun k => { k with pword := 2 }
  modCtx (withS s [(6, 0x300000)]) 0 1 fun x => { x with resident, frozen }
def saves (s : State) : Bool := (saveCtx s false 1 0x300000).2.isNone
theorem witness_SaveAndLoad : let s := twoCtx true true
    1 < pwCtx (myCore s).pword ∧ 1 ≠ myN s ∧ areaCheck s false (sv s (r 6)).toNat = none ∧
    areaCheck s true (sv s (r 6)).toNat = none ∧ (getCtx (twoCtx true false) 0 1).frozen = false ∧
    (getCtx s 0 1).resident = true ∧ (getCtx s 0 1).frozen = true ∧ settled s 0 1 = true ∧ (getCtx s 0 1).lost = false ∧
    (getCtx (twoCtx false true) 0 1).resident = false ∧
    ([s, twoCtx true false, twoCtx false true].all fun s => runs s [.ctxsv c0 5 1 (r 6), .ctxsvM c0 5 1 (r 6),
      .ctxld c0 5 1 (r 6), .ctxldM c0 5 1 (r 6)]) = true := by decide +kernel

/-- With a held translation of 1 GiB. -/
def held (s : State) : State := modMyCore s fun k => { k with utlb := [{ part := 0, vpn := 0, size := 30, entry := 0x3F }] }
def saving : State := held (twoCtx true true)

theorem heldBelow_of (s : State) (k : AK) (hk : k ≠ .fetch)
    (h1 : tlbs s 0 = [{ part := 0, vpn := 0, size := 30, entry := 0x3F }]) (h2 : partOf s 0 = 0) :
    HeldBelow s 0 1 k (2 ^ 30) := by
  intro va hv
  have h3 : va / 2 ^ 30 = 0 := Nat.div_eq_of_lt hv
  refine ⟨{ part := 0, vpn := 0, size := 30, entry := 0x3F }, pePa 0x3F + va % 2 ^ 30, ?_, ?_, ?_⟩
  · rw [tlbHit, h1, h2]
    simp [show va / 1073741824 = 0 from h3]
  · cases k
    · exact absurd rfl hk
    · rfl
    · rfl
  · have : pePa 0x3F = 0 := by decide +kernel
    omega

/-- The save of the frozen context succeeds, with its extension too. -/
theorem witness_SaveAndLoad_save : settled saving 0 1 = true ∧ areaCheck saving false 0x300000 = none ∧
    areaCheck saving true 0x300000 = none ∧ runs saving [.ctxsv c0 5 1 (r 6), .ctxsvM c0 5 1 (r 6)] = true ∧
    ∀ m, ∃ u, saveCtx saving m 1 0x300000 = (u, none) := by
  refine ⟨by decide +kernel, by decide +kernel, by decide +kernel, by decide +kernel, fun m => saveCtx_held m saving ?_
    (by decide +kernel) (show _ ≤ 2 ^ 30 by decide +kernel)⟩
  have h := heldBelow_of (flushOverflow saving (myId saving) 1) .write (by decide) (by decide +kernel) (by decide +kernel)
  rwa [show myId saving = 0 from rfl, show (me (flushOverflow saving 0 1)).priv.toNat = 1 by decide +kernel]

/-- A save area of zeros but for its header's magic number, V, core and context, and the magic number of its extension. -/
def loading : State := writeHbmBytes (writeHbmBytes (held (twoCtx false false)) 0x300000
  (toLe 12 (saveMagic + 2 ^ 32 + 2 ^ 80))) 0x309000 (toLe 4 extMagic)

theorem witness_SaveAndLoad_load : (getCtx loading 0 1).resident = false ∧
    runs loading [.ctxld c0 5 1 (r 6), .ctxldM c0 5 1 (r 6)] = true ∧ areaCheck loading true 0x300000 = none ∧
    (match loadArea loading 0x300000 64 with
     | (_, some h) => field h 0 4 == saveMagic && field h 4 4 % 2 == 1 && field h 8 2 == 0 && field h 10 2 % 8 == 1
     | _ => false) = true ∧
    (∀ m, loadArea loading 0x300000 (areaSize loading m) = (loading, some (areaBytes loading 0x300000 (areaSize loading m)))) ∧
    field ((areaBytes loading 0x300000 (areaSize loading true)).drop 0x9000) 0 4 = extMagic ∧
    (∀ bs, guardsTaken bs 1 (getCore loading 0) = false) ∧ (clearValid loading 1 0x300000).2 = true := by
  refine ⟨by decide +kernel, by decide +kernel, by decide +kernel, by decide +kernel, fun m => ?_, by decide +kernel, fun bs => ?_,
    by decide +kernel⟩
  · have h := heldBelow_of loading .read (by decide) (by decide +kernel) (by decide +kernel)
    refine loadArea_held loading ?_ (by decide +kernel) (by decide +kernel) (show _ ≤ 2 ^ 30 by cases m <;> decide +kernel)
    rwa [show myId loading = 0 from rfl, show (me loading).priv.toNat = 1 by decide +kernel]
  · have h : ((getCore loading 0).guards.toList.zipIdx.all fun e => e.1.owner.isNone) = true := by decide +kernel
    simp only [guardsTaken, List.any_eq_false]
    intro e he
    have := List.all_eq_true.1 h e he
    simp [Option.isNone_iff_eq_none.1 this]

/-- An area of zeros holds no valid header. -/
theorem witness_SaveAndLoad_invalid : (match loadArea (held (twoCtx false false)) 0x300000 64 with
    | (_, some h) => field h 0 4 != saveMagic
    | _ => false) = true := by decide +kernel

/-! Checks of an issue, transfers and traps (06, 07, 16). -/

def nexts (i : Instr) (s : State) : Bool :=
  match exec i s with
  | .next _ => true
  | _ => false

theorem witness_HardwiredRegisters : (1 : SReg) ≠ 0 ∧ (1 : SReg) ≠ 63 ∧ (62 : SReg) ≠ 63 ∧ (2 : SReg) ≠ 1 ∧ (1 : VReg) ≠ 0 ∧
    (1 : PReg) ≠ 0 ∧ (2 : PReg) ≠ 1 ∧ (1 : QReg) ≠ 0 ∧ (7 : QReg) ≠ 1 := by decide

/-- q3 EMPTY; q3 FULL and false; a privileged instruction at task privilege; a gateway has no array (01 R24). -/
def emptied (f : Regs → Regs) : State := modRegs base f
theorem witness_ConditionFirst : (Instr.li ⟨3, false⟩ 5 (.i24 1)).isStep = false ∧ isVector (.li ⟨3, false⟩ 5 (.i24 1)) = false ∧
    (me base).ra = none ∧ isPrivileged (.li ⟨3, false⟩ 5 (.i24 1)) = false ∧ isPrivileged (.eret c0) = true ∧
    (me base).priv = 0 ∧ (me sys).priv ≠ 0 ∧ absentOn (.eret c0) (isGw (myId sys)) = false ∧
    qEmpty (myRegs (emptied fun g => { g with qE := 8 })) 3 = true ∧ qEmpty (myRegs base) 3 = false ∧
    rdQ (myRegs base) 3 = false ∧ rdQ (myRegs (emptied fun g => { g with q := 8 })) 3 = true ∧
    absentOn (.mlease c0) (isGw (myId (gateway [] true 1))) = true ∧
    absentOn (.li c0 5 (.i24 1)) (isGw (myId (gateway [] true 1))) = false := by decide +kernel

/-- s6 EMPTY, read with W 1 and with W 0; s5 EMPTY as a destination. -/
theorem witness_FullEmpty : let s := emptied fun g => markS g 6 true
    let d := emptied fun g => markS g 5 true
    let w : Instr := .mov c0 5 ⟨6, true⟩
    let n : Instr := .mov c0 5 (r 6)
    w.isStep = false ∧ isPrivileged w = false ∧ (me s).ra = none ∧ absentOn w (isGw (myId s)) = false ∧
    qEmpty (myRegs s) (condOf w).q = false ∧ condTrue s (condOf w) = true ∧
    ((useOf w).srcs.any fun x => srcEmpty (myRegs s) x && srcW x) = true ∧
    ((useOf n).srcs.any (srcEmpty (myRegs s))) = true ∧ ((useOf n).srcs.all fun x => !(srcEmpty (myRegs s) x && srcW x)) = true ∧
    ((useOf (.pref c0 false ⟨6, true⟩ o0)).srcs.any fun x => srcEmpty (myRegs s) x && srcW x) = true ∧
    ((useOf n).dsts.any (dstEmpty (myRegs d))) = true ∧ ((useOf n).srcs.any (srcEmpty (myRegs d))) = false := by
  decide +kernel

def producing (d : SReg) : State := modRegs base fun g =>
  { markS g d true with pend := [{ id := 4, dest := .s d, prod := .val (.s 9) 3 }] }
theorem witness_ProducerResult : ([0, 5, 63].all fun d => let x := getCtx (producing d) 0 0
    x.ra.isNone && !clockStopped (producing d) 0 && x.regs.pend == [{ id := 4, dest := .s d, prod := .val (.s 9) 3 }]) = true := by decide +kernel

theorem witness_ScalarFrame : ([.nop c0, .li c0 5 (.i24 1), .cmpq c0 .eq 3 (r 6) r7, .div c0 false 5 (r 6) r7, .bfi c0 5 (r 6)
    (.imm 0 0), .wdget c0 5 7] : List Instr).all (fun i => scalarPlain i && issues i base && nexts i base) = true := by
  decide +kernel

theorem witness_VectorFrame : ([.vadd p1 .f32 1 (v 2) (.v (v 3)), .vred p1 .fsum 5 (v 2), .plog p1 1 2 .not, .strm p0 1 (r 6) (r 7)
    (r 8)] : List Instr).all (fun i => vectorPlain i && issues i base && nexts i base) = true := by decide +kernel

/-- Targets at block offset 0, 24 and 28, and one that is no multiple of 4; equal and unequal operands. -/
theorem witness_Transfers : let to' (a : Nat) := withS base [(6, word a)]
    (sv (to' 0x300018) (r 6) + immW (.i24 0)).toNat % 32 ≠ 28 ∧ (sv (to' 0x30001C) (r 6) + immW (.i24 0)).toNat % 32 = 28 ∧
    (sv (to' 0x300002) (r 6) + immW (.i24 0)).toNat % 4 ≠ 0 ∧ ((myRegs base).pc + 4 * immW (.i24 7)).toNat % 32 = 28 ∧
    ((myRegs base).pc + 4 * immW (.i24 8)).toNat % 32 = 0 ∧ cmpCond .eq (sv base (r 6)) (sv base (r 7)) = true ∧
    cmpCond .ne (sv base (r 6)) (sv base (r 7)) = false ∧
    ([to' 0x300018, to' 0x30001C, to' 0x300002].all fun s => runs s [.br c0 (.i24 7), .br c0 (.i24 8), .cbr c0 .eq (r 6) (r 7)
      (.i24 8), .jl c0 62 (.i24 8), .jlr c0 62 (r 6) (.i24 0), .jr c0 (r 6) (.i24 0)]) = true := by decide +kernel

/-- JLR through its own link register jumps to the old value and links the next address (07 R164). -/
theorem test_jlr : (match exec (.jlr c0 6 (r 6) (.i24 8)) (withS base [(6, 0x300000)]) with
    | .next t => ((myRegs t).pc, rdS (myRegs t) 6)
    | _ => (0, 0)) = (0x300008, 0x200008) := by decide +kernel
theorem test_cbr_back : (match exec (.cbr c0 .ltu (r 6) (r 7) (.i24 0xFFFFFE)) (ab 1 (-1)) with
    | .next t => (myRegs t).pc
    | _ => 0) = 0x1FFFF8 := by decide +kernel
/-- SYSCALL saves the next address, TRAP its own (07 R166). -/
theorem test_syscall : (match exec (.syscall c0 0x12) base with
    | .next t => ((me t).cause, (me t).epc, (me t).priv)
    | _ => (0, 0, 0)) = (0x1213, 0x200008, 1) := by decide +kernel

theorem witness_TrapInstructions : (me base).intrap = false ∧ (me base).priv ≠ 2 ∧ 13 ≤ (13 : BitVec 8).toNat ∧
    badCvt .f16 .f32 false (2 : BitVec 2).toNat = true ∧ badCvt .i32 .f32 true (0 : BitVec 2).toNat = true ∧
    4 ≤ (4 : BitVec 3).toNat ∧ (myRegs base).pend = [] ∧ (myRegs (producing 5)).pend ≠ [] ∧
    runs (producing 5) [.syscall c0 1] = true ∧ runs base [.vcmp p0 .f32 (.bad 7) 1 (v 2) (.v (v 3)), .trap c0 1, .syscall c0 1, .rdspec c0 5 13, .vcmp p0 .uw .un 1 (v 2) (.v (v 3)),
      .vcmp p0 .i32 .or 1 (v 2) (.v (v 3)), .vcvt p0 .f16 .f32 .rne false 2 1 (v 2), .vcvt p0 .i32 .f32 .rne true 0 1 (v 2),
      .vqnt p0 false .rne 4 1 (v 2) (r 6), .vdqnt p0 false 4 1 (v 2) (r 6)] = true := by decide +kernel

/-- A page fault of two pages; run-ahead with one page of its own and one recorded, its end not met or met for reason 2. -/
def fault7 : Trap := { mkTrap 7 0 with faddr := 0x5000, pages := [0x5000, 0x6000] }
def ahead (reason : Option Nat) : State := withCtx { base with arg := StepArg.none } fun x =>
  let a : RunAhead := { saved := x.regs, faddr := 0x5000, poisonS := 0, poisonV := 0, poisonP := 0, poisonQ := 0, poisonX := 0,
                        own := [0x5000], pages := [0x7000], stores := [], count := 3, ending := reason }
  { x with ra := some a }
theorem witness_TrapEntry : (me base).intrap = false ∧ (me base).priv = 0 ∧ (me base).freezing = false ∧ (me sys).priv = 1 ∧
    (me sys).intrap = false ∧ (me (withCtx base fun x => { x with freezing := true })).freezing = true ∧ tILLEGAL.cause ≠ 7 ∧
    (tMISALIGNED 4).cause ≠ 7 ∧ fault7.cause = 7 ∧ Dst.s 5 ∈ (useOf (.ld c0 .d false false 5 (r 6) o0)).dsts := by decide +kernel

theorem witness_TrapEntry_end : ([none, some 2].all fun e => let s := ahead e
    validCore s.arg.i && s.arg.i == 0 && s.arg.j == 0 && ((getCtx s 0 0).ra.map fun a => a.ending) == some e && !aheadWalks s 0 0 &&
      !clockStopped s 0 && !(getCtx s 0 0).intrap && (getCtx s 0 0).priv == 0) = true := by decide +kernel

/-- A load at task privilege whose walk stops at level 2 starts run-ahead (18 R388); its end enters the handler with both pages
and the reason in CAUSE (18 R389, R391). -/
theorem test_run_ahead_start : (match exec (.ld c0 .d false false 5 (r 6) o0) (ptr mapped 0x4000000000) with
    | .next t => ((me t).ra.map fun a => (a.faddr, a.own), (me t).cause, (myRegs t).pc)
    | _ => (none, 9, 0)) = (some (0x4000000000, [0x4000000000 + 2 * 2 ^ 9]), 0, 0x200008) := by decide +kernel
theorem test_run_ahead_end : (match exec .runAheadEnd (ahead (some 2)) with
    | .next t => ((me t).cause, (me t).epc, (me t).batch)
    | _ => (0, 0, [])) = (7 + 256 * 2 + 8192 * 2, 0x200000, [0x5000, 0x7000]) := by decide +kernel

theorem witness_DoubleTrap : (me (handler 0 0)).intrap = true ∧ (me (withCtx base fun x => { x with priv := 2 })).priv = 2 ∧
    (tMISALIGNED 4).cause ≠ 7 ∧ fault7.cause = 7 := by decide +kernel

/-! The step. -/

/-- ADD s5, s6, s7 of 06 Table 6.10 placed where step fetches. -/
def placed : State := State.reset.withFetchWord 64 0x71850040
theorem witness_StepRunsInstruction : placed.issuing = true ∧ placed.cur = (0, 0) ∧
    (match fetchInstr { placed with issuing := false, waited := false } 0 0 with
     | (_, .ok i) => i == .add c0 false 5 (r 6) r7
     | _ => false) = true ∧ (match fetchBlock placed 0 0 0x200000 with
     | (_, .ok _) => true
     | _ => false) = true := by decide +kernel

/-- The block is not there: the fetch agent is asked for it. -/
def missing : State := modMyCore placed fun k => { k with icache := [] }
theorem witness_StepRunsInstruction_missing : (match fetchInstr { missing with issuing := false, waited := false } 0 0 with
     | (t, .error none) => (getStratum t 0).fetches.map (fun f => (f.pa, f.cores)) == [(0x200000, [0])]
     | _ => false) = true ∧ missing.issuing = true ∧ placed.touched = [] ∧ placed.brought = [] ∧ placed.stalled = [] ∧
    (match exec (.add c0 false 5 (r 6) r7) placed with
     | .next u => u.touched.isEmpty && !pairsBurst placed u
     | _ => false) = true := by decide +kernel

theorem test_step : (match step placed with
    | .next t => ((myRegs t).pc, t.issuing)
    | _ => (0, true)) = (0x200008, false) := by decide +kernel

theorem witness_StepRunsAgenda : State.reset.issuing = false ∧ State.reset.agenda.map (·.op) = [.coldReset] ∧
    ({ State.reset with agenda := [] } : State).agenda = [] ∧ State.reset.touched = [] ∧ State.reset.brought = [] ∧
    State.reset.stalled = [] ∧ State.reset.agenda.all (fun x => !farOpen State.reset (.step x)) = true ∧
    (match exec .coldReset { State.reset with agenda := [], arg := StepArg.none } with
     | .next u => u.touched.isEmpty && !pairsBurst { State.reset with agenda := [] } u
     | _ => false) = true := by decide +kernel
/-- The beat of Swell, the next step, waits for a byte of module 5. -/
def openStep : State := modPeer { placed with issuing := false, agenda := [stepOf .swellSlotTransmit 0 0 0] } 5 fun y =>
  { y with reads := [{ seq := 1, part := 0, reader := .step (stepOf .swellSlotTransmit 0 0 0), pa := 0, n := 1 }] }
theorem witness_StepRunsAgenda_open : openStep.issuing = false ∧ openStep.agenda = [stepOf .swellSlotTransmit 0 0 0] ∧
    farOpen openStep (.step (stepOf .swellSlotTransmit 0 0 0)) = true := by decide +kernel

def fetching (pc : Word) : State := modRegs placed fun g => { g with pc }
theorem witness_FetchChecks : (me placed).ra = none ∧ (me placed).intrap = false ∧ (me placed).priv ≠ 2 ∧
    apOf (myRegs (fetching 0xFFFFFF0000000000)).pc.toNat ≠ .glob ∧ apOf (myRegs (fetching 0x20001C)).pc.toNat = .glob ∧
    (myRegs (fetching 0x20001C)).pc.toNat % 32 = 28 ∧ (myRegs (fetching 2)).pc.toNat % 4 ≠ 0 ∧
    apOf (myRegs (fetching 2)).pc.toNat = .glob := by decide +kernel

theorem witness_StepKeepsMemory : MemoryOk State.reset ∧ (match step { State.reset with agenda := [] } with
    | .next _ => true
    | _ => false) = true :=
  ⟨⟨rfl, fun _ => rfl, fun _ => rfl, fun _ => rfl⟩, by decide +kernel⟩

theorem witness_UnassignedMajors : (Raw.unpack 0x00000000000000BC).op = 0x2F ∧ (Raw.unpack 0x3FC).op = 0xFF ∧
    0xEF ≤ (Raw.unpack 0x3FC).op.toNat ∧ (Raw.unpack 0x2000000004).p = 0 ∧ (Raw.unpack 0x2000000004).pn = true := by
  decide +kernel

theorem witness_EncodeDecode : (Instr.add c0 false 5 (r 6) r7).wf = true := by decide +kernel

/-! Steps of the device. -/

def unit (i j : Nat) : State := { base with arg := { StepArg.none with i, j } }

/-- A GRAB from a range of 10 with C 3 and D 2 takes 5, the rest of a range of 2 takes 2 (02 R61). -/
def ranging (q : RangeReq) (rem : Word) : State :=
  modStratum (unit 15 0) 15 fun z => { z with rangeQ := [q], ranges := [(63, { start := 100, rem, c := 3, d := 2 })] }
theorem witness_RangeUnit : (getStratum (ranging (.set 63 RangeEnt.reset) 0) 15).rangeQ = [.set 63 RangeEnt.reset] ∧
    (getStratum (ranging (.grab 0 0 1 63) 10) 15).rangeQ = [.grab 0 0 1 63] ∧
    (rangeOf (getStratum (ranging (.grab 0 0 1 63) 10) 15) 63).d ≠ 0 ∧ (unit 15 0).arg.i = 15 := by decide +kernel
theorem test_grab : ([10, 2, 0] : List Word).map (fun n => match exec .rangeUnitOperation (ranging (.grab 0 0 1 63) n) with
    | .next t => some (rangeOf (getStratum t 15) 63)
    | _ => none) = [some { start := 105, rem := 5, c := 3, d := 2 }, some { start := 102, rem := 0, c := 3, d := 2 },
      some { start := 100, rem := 0, c := 3, d := 2 }] := by decide +kernel

theorem witness_StepOperands : validCore 0x4030 = false ∧ validCore 0x402F = true ∧ (unit 0x4030 0).arg.i = 0x4030 ∧
    64 ≤ (unit 0 64).arg.j ∧ 17 ≤ (unit 17 0).arg.i := by decide +kernel

/-- The arithmetic clock of stratum 0 stands still. -/
def halted : State := modPower (unit 0 0) 0 fun p => { p with halt := true }
theorem witness_CoreSteps : validCore 0x3FFF = true ∧ validCore 0x4000 = true ∧ (unit 4095 0).arg.i < 4096 ∧
    (unit 0x3FFF 0).arg.i < 0x4000 ∧ (unit 16 0).arg.i < 17 ∧ (unit 15 0).arg.i < 16 ∧ clockStopped halted 0 = true ∧
    clockStopped (unit 0 0) 0 = false := by decide +kernel

/-- A yielding context; a private store of two bytes in its forwarding table; a copy of nothing that has nothing to wait for;
a context that may issue. -/
def storedTwice : State := withCtx (unit 0 0) fun x => { x with yielding := true, fwd := [{ id := 0, bytes := [(64, 7), (65, 8)] }] }
def copied : State := modMyCore (unit 0 3) fun k => { k with copies := [
  { id := 3, ctx := 0, uid := (me base).uid, tag := 0, gen := 0, priv := 0, stc := 0, dst := word spad, src := word spad,
    dx := false, sx := false, rows := 1, len := 4, ds := 0, ss := 0, wd5 := 0, wd6 := 0, wd7 := 0, flag := none, next := 4,
    buf := [], flags := 1, status := none, flagId := none }] }
def selecting : State := { unit 0 0 with issuing := false, arg := { (unit 0 0).arg with x := 1 } }
theorem witness_CoreSteps_core : (getCtx storedTwice 0 0).uid = (me base).uid ∧ (me storedTwice).yielding = true ∧
    ((getCtx storedTwice 0 0).fwd.map fun e => (e.bytes.map (·.1), e.bytes.map fun b => bitOf b.1 51)) =
      [([64, 65], [false, false])] ∧ ([64, 65] : List Nat).Nodup ∧
    ((findCopy copied 0 3).any fun p => p.status.isNone && decide (copyTotal p ≤ p.next) && p.flag.isNone && p.flagId.isNone &&
      !engineHeld copied 0 p.ctx p.uid p.id && (getCtx copied 0 p.ctx).uid == p.uid) = true ∧ copyTravels copied 0 3 = false ∧
    selecting.issuing = false ∧ selecting.arg.x = 1 ∧ (selectIssue selecting 0 1).issuing = true := by decide +kernel

/-- A request in engine 16; a block of the agent of stratum 0 for core 5; a stratum asked to sleep, and one at the end of its
wake. -/
def asking : State := { unit 16 0 with engines := [(16, [seReq (.amo 4 .add 1)])] }
def fillingS : State := modStratum (unit 0 0) 0 fun z => { z with fetches := [
  { kid := 0, addr := 0x200000, pa := 0x200000, cores := [5], stale := false }] }
def filling : State := { fillingS with arg := { fillingS.arg with x := 0x200008, y := 0 } }
def asleepSoon : State := modStratum (unit 3 0) 3 fun z => { z with awake := true, sleepReq := true }
def waking : State := { modLayer (unit 3 0) 3 fun y => { y with wake := some { bw := 10, marks := [] } } with stc := 74 }
theorem witness_CoreSteps_units : ((getEngine asking 16).find? fun r => r.id == asking.arg.j).map (fun q =>
      (q == seReq (.amo 4 .add 1), seMay (getEngine asking 16) q, q.pid)) = some (true, true, none) ∧
    ((getStratum filling 0).fetches.find? fun g => g.kid == filling.arg.y.setWidth 32 &&
      g.addr == word (filling.arg.x.toNat / 32 * 32)).map (fun f => (f.cores, f.stale, f.pa)) = some ([5], false, 0x200000) ∧
    ((List.range 32).all fun i => !badPa filling (partOf filling 5) (0x200000 + i)) = true ∧
    clockStopped asking (seReq (.amo 4 .add 1)).core = false ∧ clockStopped asking (1024 * 0) = false ∧
    (stratumPart (modPart waking 0 fun p => { p with pcfg := p.pcfg ||| 8 }) 3).isSome = true ∧
    (stratumPart waking 3).isSome = false ∧ maySleep asleepSoon 3 = true ∧
    (getLayer waking 3).wake = some { bw := 10, marks := [] } ∧ (10 : Word).toNat + 64 ≤ waking.stc.toNat := by decide +kernel

def ev0 : Event := { chan := 5, dest := 0, src := 0, stc := 0, arg0 := 0, arg1 := 0, pl := false, und := false, llen := 0,
                     loff := 0, dloff := 0 }
def transit (waiting home : Bool) : State := { unit 0 7 with
  net := [{ id := 7, ev := ev0, part := 0, payload := [], sender := none, waiting, home, origin := none }] }
/-- A posted store of one byte to the last byte of core 1's scratchpad, or to the one after it. -/
def posting (o : Nat) : State := { unit 0 7 with
  posted := [{ id := 7, core := 0, ctx := 0, uid := 0, target := 1, addr := 0, tag := 0, bytes := [(o, 9)] }] }
def postedInside (s : State) : Bool := s.posted.all fun p => postedMay s p && p.bytes.all fun b => decide (b.1 < coreSp s p.target)
theorem witness_TransitSteps : ((findTransit (transit false false) 7).map fun t => (t.home, t.waiting)) = some (false, false) ∧
    ((findTransit (transit true false) 7).map (·.waiting)) = some true ∧
    ((findTransit (transit false true) 7).map fun t => (t.home, t.waiting)) = some (true, false) ∧
    findTransit base 7 = none ∧ clockStopped (posting 0) 0 = false ∧ clockStopped (posting 0) 1 = false ∧
    clockStopped (modPower (posting 0) 0 fun p => { p with halt := true }) 1 = true ∧ postedInside (posting (coreSp base 1 - 1)) = true ∧ postedInside (posting (coreSp base 1)) = false ∧
    (posting 0).arg.j = 7 := by decide +kernel

theorem witness_LaunchSteps : (unit 7 63).arg.i < 8 ∧ (unit 7 63).arg.j < 64 ∧ (getPart (unit 7 63) 7).decs = [] ∧
    visited (unit 7 63) 7 = none ∧ (getPart (unit 7 63) 7).ev.head = (getPart (unit 7 63) 7).ev.tail ∧
    findGang (unit 7 63) 7 63 = none ∧
    (let s := { ganged base [] with arg := { StepArg.none with j := 1, y := 1 } }
     s.arg.i < 8 ∧ ((findGang s 0 s.arg.j).any fun g => g.gen.toNat == s.arg.y.toNat) = true) := by decide +kernel

/-- Registers of the device at their offsets, one that is not there; ports down, training and up; a stratum hot or not. -/
def register (o : Nat) : State := { unit 0 2 with arg := { (unit 0 2).arg with x := word o } }
def registerOk (s : State) : Bool :=
  (devStore s { priv := s.arg.j, part := none, host := false, pf0 := false } s.arg.x.toNat 8 s.arg.y).toOption.isSome
/-- Ports that the partition owns, 15 for none, and a port that it does not own. -/
def twoPorts : State := modPart (unit 0 127) 0 fun p => { p with pcfg := 2 ^ 63 + 3 * 2 ^ 36 }
theorem witness_RegisterSteps : registerOk (register 0x600000) = true ∧ registerOk (register 1) = false ∧
    (unit 11 127).arg.i < 12 ∧ (unit 11 127).arg.j < 128 ∧ (getPort (modPort base 11 fun p => { p with training := true }) 11).training =
    true ∧ (getPort base 11).training = false ∧ (getPort base 11).up = false ∧
    (getPort (modPort base 11 fun p => { p with up := true }) 11).up = true ∧ (powerOf base 15).hot = false ∧
    (powerOf (modPower base 15 fun p => { p with hot := true }) 15).hot = true ∧
    (powerOf (modPower base 15 fun p => { p with halt := true }) 15).halt = true ∧
    clockSwitches base (1024 * 15) = false ∧
    clockSwitches (modPower base 15 fun p => { p with halt := true, phase := some (.switchUp 0) }) (1024 * 15) = true ∧
    registerOk { register 0x600000 with arg := { (register 0x600000).arg with j := 0 } } = false ∧
    (unit 11 0).arg.j = 0 ∧ (unit 11 1).arg.j = 1 ∧ ownsPort twoPorts 0 1 = true ∧ ownsPort twoPorts 0 2 = false ∧ 2 ≠ 15 ∧ twoPorts.arg.i < 8 ∧ twoPorts.arg.j < 128 ∧ (getBq base 3).isOpen = false ∧
    (getBq (gateway [] true 4) 3).isOpen = true ∧ (31 : Word).toNat < 32 ∧ base.attest.busy = false := by decide +kernel

end Sys2Proof.Tests
end

section
/-! SUPPORT. What the byte memories read after a write, byte by byte and as little-endian values (00 R4), and the proof
of the statement about them. -/

namespace Sys2Proof.Machine

/-! Cores and layers after the update of one -/

theorem getCore_modCore (s : State) (c d : Nat) (f : Core → Core) :
    getCore (modCore s c f) d = if d = c then f (getCore s c) else getCore s d := by
  split
  · subst d; exact getCore_modCore_same s c f
  · exact getCore_modCore_other s c d f ‹_›

theorem getLayer_modLayer (s : State) (l m : Nat) (f : Layer → Layer) :
    getLayer (modLayer s l f) m = if m = l then f (getLayer s l) else getLayer s m := by
  split
  · subst m; exact getLayer_modLayer_same s l f
  · exact getLayer_modLayer_other s l m f ‹_›

/-! One byte written -/

theorem cget_hbm_writeHbm (s : State) (a b : Nat) (v : Byte) :
    cget (writeHbm s a v).hbm b = if b = a then v else cget s.hbm b := cget_cset s.hbm a b v

theorem cget_pool_writePool (s : State) (c o d u : Nat) (v : Byte) :
    cget (getCore (writePool s c o v) d).pool u = if d = c ∧ u = o then v else cget (getCore s d).pool u := by
  rw [writePool, getCore_modCore]
  by_cases h : d = c
  · subst d; simp [cget_cset]
  · simp [h]

theorem cget_mirror_writePlace (s : State) (l o m u : Nat) (v : Byte) :
    cget (getLayer (writePlace s (.mirror l o) v) m).mirror u =
      if m = l ∧ u = o then v else cget (getLayer s m).mirror u := by
  rw [writePlace, getLayer_modLayer]
  by_cases h : m = l
  · subst m; simp [cget_cset]
  · simp [h]

theorem sameMemoryBut_writeHbm (s : State) (a : Nat) (v : Byte) : SameMemoryBut [.hbm a] s (writeHbm s a v) := by
  refine ⟨fun b h => ?_, fun _ _ _ => rfl, fun _ _ _ => rfl, fun _ _ => rfl⟩
  have hb : b ≠ a := by simpa using h
  rw [cget_hbm_writeHbm, if_neg hb]

theorem sameMemoryBut_writePool (s : State) (c o : Nat) (v : Byte) :
    SameMemoryBut [.pool c o] s (writePool s c o v) := by
  refine ⟨fun _ _ => rfl, fun d u h => ?_, fun _ _ _ => rfl, fun _ _ => rfl⟩
  have hd : ¬(d = c ∧ u = o) := by simpa using h
  rw [cget_pool_writePool, if_neg hd]

theorem sameMemoryBut_writePlace_mirror (s : State) (l o : Nat) (v : Byte) :
    SameMemoryBut [.mirror l o] s (writePlace s (.mirror l o) v) := by
  refine ⟨fun _ _ => rfl, fun _ _ _ => rfl, fun m u h => ?_, fun _ _ => rfl⟩
  have hm : ¬(m = l ∧ u = o) := by simpa using h
  rw [cget_mirror_writePlace, if_neg hm]

/-! Writes of many bytes: beside the bytes themselves, `writePlaces` changes only what is noted about them -/

theorem SameMemory.refl (s : State) : SameMemory s s :=
  ⟨fun _ => rfl, fun _ _ => rfl, fun _ _ => rfl, fun _ _ => rfl⟩

theorem SameMemory.trans {s t u : State} (h : SameMemory s t) (g : SameMemory t u) : SameMemory s u := by
  obtain ⟨hh, hp, hm, hs⟩ := h
  obtain ⟨gh, gp, gm, gs⟩ := g
  exact ⟨fun a => (gh a).trans (hh a), fun c o => (gp c o).trans (hp c o), fun l o => (gm l o).trans (hm l o),
    fun p o => (gs p o).trans (hs p o)⟩

theorem sameMemory_rewriteUnits (s : State) (us : List Nat) : SameMemory s (rewriteUnits s us) := by
  induction us generalizing s with
  | nil => exact .refl s
  | cons u us ih => exact ih (modHbm s _ _)

theorem sameMemory_unpoison (s : State) (ws : List (Place × Byte)) : SameMemory s (unpoison s ws) := by
  unfold unpoison
  split <;> dsimp only <;> split
  · exact sameMemory_rewriteUnits s _
  · exact .refl s
  · exact sameMemory_rewriteUnits { s with poison := _ } _
  · exact .refl s

theorem sameMemory_showWrites (s : State) (ws : List (Place × Byte)) : SameMemory s (showWrites s ws) := by
  unfold showWrites
  split <;> exact .refl s

theorem sameMemory_writePlaces (s : State) (ws : List (Place × Byte)) :
    SameMemory (writeBytes s ws) (writePlaces s ws) :=
  (sameMemory_showWrites _ ws).trans (sameMemory_unpoison _ ws)

/-! Little-endian values (00 R4) -/

@[simp] theorem length_toLe (n v : Nat) : (toLe n v).length = n := by
  induction n generalizing v with
  | zero => rfl
  | succ n ih => rw [toLe, List.length_cons, ih]

/-- The bytes of a value, lowest first, give the value modulo the width. -/
theorem fromLe_toLe (n v : Nat) : fromLe (toLe n v) = v % 256 ^ n := by
  induction n generalizing v with
  | zero => simp [toLe, fromLe, Nat.mod_one]
  | succ n ih =>
    calc fromLe (toLe (n + 1) v)
        = v % 256 + 256 * (v / 256 % 256 ^ n) := by rw [toLe, fromLe, ih, BitVec.toNat_ofNat]
      _ = v % (256 * 256 ^ n) := (Nat.mod_mul).symm
      _ = v % 256 ^ (n + 1) := by rw [Nat.pow_succ']

/-! Bytes of physical memory from an address on -/

theorem hbmPlaces_succ (a n : Nat) : hbmPlaces a (n + 1) = .hbm a :: hbmPlaces (a + 1) n := by
  simp [hbmPlaces, List.range_succ_eq_map, Function.comp_def, Nat.add_comm, Nat.add_left_comm]

theorem writeBytes_hbmPlaces_cons (s : State) (a : Nat) (v : Byte) (bs : List Byte) :
    writeBytes s ((hbmPlaces a (v :: bs).length).zip (v :: bs)) =
      writeBytes (writeHbm s a v) ((hbmPlaces (a + 1) bs.length).zip bs) := by
  rw [List.length_cons, hbmPlaces_succ]; rfl

theorem cget_writeBytes_hbmPlaces_of_outside (s : State) (a b : Nat) (bs : List Byte) (h : b < a ∨ a + bs.length ≤ b) :
    cget (writeBytes s ((hbmPlaces a bs.length).zip bs)).hbm b = cget s.hbm b := by
  induction bs generalizing s a with
  | nil => rfl
  | cons v bs ih =>
    rw [List.length_cons] at h
    rw [writeBytes_hbmPlaces_cons, ih _ _ (by omega), cget_hbm_writeHbm, if_neg (by omega)]

/-- Bytes written from an address on read back as the list that was written: the byte at the first address stays, since
the others go to higher addresses. -/
theorem map_readPlace_writeBytes_hbmPlaces (s : State) (a : Nat) (bs : List Byte) :
    (hbmPlaces a bs.length).map (readPlace (writeBytes s ((hbmPlaces a bs.length).zip bs))) = bs := by
  induction bs generalizing s a with
  | nil => rfl
  | cons v bs ih =>
    have first : readPlace (writeBytes (writeHbm s a v) ((hbmPlaces (a + 1) bs.length).zip bs)) (.hbm a) = v := by
      rw [readPlace, cget_writeBytes_hbmPlaces_of_outside _ _ _ _ (by omega), cget_hbm_writeHbm, if_pos rfl]
    rw [writeBytes_hbmPlaces_cons, List.length_cons, hbmPlaces_succ, List.map_cons, first, ih]

theorem readHbmNat_congr {s t : State} (h : SameMemory s t) (a n : Nat) : readHbmNat t a n = readHbmNat s a n := by
  obtain ⟨hbm, -, -, -⟩ := h
  simp only [readHbmNat, readPlaces, hbmPlaces, List.map_map, Function.comp_def, readPlace, hbm]

theorem readHbmNat_writeHbmBytes (s : State) (a : Nat) (bs : List Byte) :
    readHbmNat (writeHbmBytes s a bs) a bs.length = fromLe bs := by
  rw [writeHbmBytes, readHbmNat_congr (sameMemory_writePlaces s _), readHbmNat, readPlaces,
    map_readPlace_writeBytes_hbmPlaces]

/-- Settles O9: each memory reads as its cells after `cset`, and the bytes of `toLe` stand in rising order from the
address they are written to. -/
theorem byteAfterWrite : Obligations.ByteAfterWrite := by
  refine ⟨fun s v => ⟨fun a b => cget_hbm_writeHbm s a b v, fun c o d u => cget_pool_writePool s c o d u v,
    fun l o m u => cget_mirror_writePlace s l o m u v, fun a => sameMemoryBut_writeHbm s a v,
    fun c o => sameMemoryBut_writePool s c o v, fun l o => sameMemoryBut_writePlace_mirror s l o v,
    fun _ _ _ => rfl, fun _ => ⟨rfl, rfl, rfl⟩⟩, fun s a n v => ?_⟩
  have h := readHbmNat_writeHbmBytes s a (toLe n v)
  rwa [length_toLe, fromLe_toLe] at h

end Sys2Proof.Machine
end

section
/-! SUPPORT. The range units (02 R61), and the proof of the statement about them. -/

namespace Sys2Proof.Machine

theorem rangeOf_set (y : Stratum) (r : List RangeReq) (n m : Nat) (e : RangeEnt) :
    rangeOf { y with rangeQ := r, ranges := mset y.ranges n e } m = if m = n then e else rangeOf y m :=
  mget_mset y.ranges n m e RangeEnt.reset

/-- The count of a GRAB in the words of R61. -/
theorem grabRange_count (e : RangeEnt) :
    (grabRange e).1 = min e.rem.toNat (max e.c.toNat (e.rem.toNat ⌈/⌉ e.d.toNat)) := by
  rw [Nat.ceilDiv_eq_add_pred_div, grabRange]
  generalize (e.rem.toNat + e.d.toNat - 1) / e.d.toNat = share
  dsimp only
  split <;> split <;> omega

theorem grabRange_range (e : RangeEnt) : (grabRange e).2 =
    { e with start := e.start + word (grabRange e).1, rem := e.rem - word (grabRange e).1 } := rfl

theorem exec_rangeUnitOperation {s : State} (h : s.arg.i < 16) :
    exec .rangeUnitOperation s = .next (rangeOperation s s.arg.i) := if_pos h

theorem rangeOperation_set {s : State} {z n : Nat} {e : RangeEnt} {r : List RangeReq}
    (h : (getStratum s z).rangeQ = .set n e :: r) :
    rangeOperation s z = modStratum s z fun y => { y with rangeQ := r, ranges := mset y.ranges n e } := by
  simp only [rangeOperation, h]

theorem rangeOperation_grab {s : State} {z c k id n : Nat} {r : List RangeReq}
    (h : (getStratum s z).rangeQ = .grab c k id n :: r) :
    rangeOperation s z =
      fulfil (modStratum s z fun y =>
          { y with rangeQ := r, ranges := mset y.ranges n (grabRange (rangeOf (getStratum s z) n)).2 })
        c k id (.pair (rangeOf (getStratum s z) n).start (word (grabRange (rangeOf (getStratum s z) n)).1)) 0 := by
  simp only [rangeOperation, h]

/-- Settles O55: the head of the queue says which of the two operations runs, and `grabRange` counts as R61 does. -/
theorem rangeUnit : Obligations.RangeUnit := by
  refine ⟨fun _ _ => rfl, ?_⟩
  rintro s _ hz rfl
  refine ⟨fun n e r hq => ?_, fun c k id n r hq _ => ?_⟩
  · refine ⟨_, (exec_rangeUnitOperation hz).trans (congrArg _ (rangeOperation_set hq)), ?_, fun m => ?_⟩
    · rw [getStratum_modStratum_same]
    · rw [getStratum_modStratum_same, rangeOf_set]
  · have step := (exec_rangeUnitOperation hz).trans (congrArg _ (rangeOperation_grab hq))
    rw [grabRange_range, grabRange_count] at step
    refine ⟨_, step, ?_, fun m => ?_⟩
    · rw [getStratum_modStratum_same]
    · rw [getStratum_modStratum_same, rangeOf_set]

end Sys2Proof.Machine
end

section
/-! SUPPORT. The steps of events on their way, of posted stores and of Swell, and the proof of the statement about them. -/

namespace Sys2Proof.Machine

/-! Events on their way (02 R50 to R53) -/

theorem exec_eventArrival_found {s : State} {t : Transit} (h : findTransit s s.arg.j = some t) (home : t.home = false)
    (waiting : t.waiting = false) : exec .eventArrival s = .next (tryAccept s t) := by
  simp [exec, execEventArrival, h, home, waiting]

theorem exec_sendAcceptance_found {s : State} {t : Transit} (h : findTransit s s.arg.j = some t)
    (waiting : t.waiting = true) : exec .sendAcceptance s = .next (tryAccept s t) := by
  simp [exec, execSendAcceptance, h, waiting]

theorem exec_undeliverableReturn_found {s : State} {t : Transit} (h : findTransit s s.arg.j = some t)
    (home : t.home = true) (waiting : t.waiting = false) : exec .undeliverableReturn s = .next (tryAccept s t) := by
  simp [exec, execUndeliverableReturn, h, home, waiting]

/-- A record that is not there changes nothing. -/
theorem exec_transit_none {s : State} (h : findTransit s s.arg.j = none) :
    exec .eventArrival s = .next s ∧ exec .sendAcceptance s = .next s ∧ exec .undeliverableReturn s = .next s := by
  simp [exec, execEventArrival, execSendAcceptance, execUndeliverableReturn, h]

/-! Posted stores (04 R102) -/

section
variable {s : State} {id : Nat} {p : Posted} (found : (s.posted.find? fun q => q.id == id) = some p)
include found

theorem postedArrive_stopped (h : ¬(clockStopped s p.core = false ∧ clockStopped s p.target = false)) :
    postedArrive s id = s := by
  simp only [postedArrive, found]
  refine if_neg fun g => h ?_
  simp only [Bool.and_eq_true, Bool.not_eq_true'] at g
  obtain ⟨⟨-, core⟩, target⟩ := g
  exact ⟨core, target⟩

theorem postedArrive_runs (may : postedMay s p = true)
    (runs : clockStopped s p.core = false ∧ clockStopped s p.target = false) :
    postedArrive s id =
      let gone := { s with posted := s.posted.filter fun e => e.id != id }
      if p.bytes.all fun b => decide (b.1 < coreSp gone p.target) then
        writePlaces gone (p.bytes.map fun b => (.pool p.target b.1, b.2))
      else logRecord gone p.core { extra := 0, addr := p.addr.toNat, done := 0, gen := p.tag.toNat, tag := 0, status := 3,
                                   kind := 12, ctx := p.ctx, src := p.core } := by
  obtain ⟨core, target⟩ := runs
  simp only [postedArrive, found, may, core, target, Bool.not_false, Bool.and_self, if_true]

end

/-- Settles O58: a record or a store is found or not, and a store that is found is held, written or logged. -/
theorem transitSteps : Obligations.TransitSteps := by
  intro s t p found post gone runs inside
  refine ⟨exec_eventArrival_found, exec_sendAcceptance_found, exec_undeliverableReturn_found, exec_transit_none, ?_, ?_, ?_,
    rfl, rfl, rfl⟩
  · intro hp may hr hi
    exact congrArg _ ((postedArrive_runs hp may hr).trans (if_pos hi))
  · intro hp hr
    exact congrArg _ (postedArrive_stopped hp hr)
  · intro hp may hr hi
    exact congrArg _ ((postedArrive_runs hp may hr).trans (if_neg hi))

end Sys2Proof.Machine
end

section
/-! SUPPORT. The rings of a partition and the launch unit (17 R363 to R375, 18 R384), and the proof of the statement about
their steps. -/

namespace Sys2Proof.Machine

/-! Rings -/

theorem bitsOf_zero (v hi : Nat) : bitsOf v hi 0 = v % 2 ^ (hi + 1) := by
  simp [bitsOf]

theorem getQueue_modQueue_same (s : State) (p q : Nat) (f : LQueue → LQueue) :
    getQueue (modQueue s p q f) p q = f (getQueue s p q) := by
  simp [getQueue, modQueue]

/-- A tail is accepted as far as the ring has room (17 R363). -/
theorem getQueue_lqtailWrite (s : State) (p q : Nat) (v : Word) :
    getQueue (lqtailWrite s p q v) p q =
      if (v - (getQueue s p q).head).toNat ≤ (getQueue s p q).ctl.toNat % 2 ^ 17 then { getQueue s p q with tail := v }
      else getQueue s p q := by
  rw [lqtailWrite, getQueue_modQueue_same, ringSizeField, bitsOf_zero]

theorem getPart_fttailWrite (s : State) (p : Nat) (v : Word) :
    getPart (fttailWrite s p v) p =
      if (v - (getPart s p).ft.head).toNat ≤ (getPart s p).ft.ctl.toNat % 2 ^ 17 then
        { getPart s p with ft := { (getPart s p).ft with tail := v } }
      else getPart s p := by
  rw [fttailWrite, getPart_modPart_same, ringSizeField, bitsOf_zero]

theorem getPart_evtailWrite (s : State) (p : Nat) (v : Word) :
    getPart (evtailWrite s p v) p = { getPart s p with ev := { (getPart s p).ev with tail := v } } :=
  getPart_modPart_same s p _

/-- Bit 63 of the value written is the one that clears FTLOST. -/
theorem getPart_ftlostWrite (s : State) (p : Nat) (v : Word) (h : v.getLsbD 63 = true) :
    getPart (ftlostWrite s p v) p = { getPart s p with ftLost := 0 } := by
  rw [ftlostWrite, if_pos h, getPart_modPart_same]

theorem queue_combineBarrier (s : State) (p id tag comp : Nat) :
    (getLayer (combineBarrier s p id tag comp) (16 + p)).queue = (getLayer s (16 + p)).queue ++
      [{ id := s.serial, part := p, core := 65535, ctx := 0, uid := 0, after := 0,
         item := .barrier { gang := BitVec.ofNat 16 id, tag := BitVec.ofNat 3 tag, comp := BitVec.ofNat 32 comp } }] := by
  rw [combineBarrier, getLayer_modLayer_same]; rfl

/-! Steps with nothing to do -/

theorem applyDec_nil {s : State} {p : Nat} (h : (getPart s p).decs = []) : applyDec s p = s := by
  simp only [applyDec, h, takeDec]

theorem admitNext_none {s : State} {p : Nat} (h : visited s p = none) : admitNext s p = s := by
  simp only [admitNext, h]

theorem forwardEvent_empty {s : State} {p : Nat} (h : (getPart s p).ev.head = (getPart s p).ev.tail) :
    forwardEvent s p = s := by
  unfold forwardEvent
  dsimp only
  split
  · exact if_pos (.inl h)
  · rfl

theorem completePhase_none {s : State} {p id : Nat} (h : findGang s p id = none) (tag comp : Nat) (on : Nat → Bool) :
    completePhase s p id tag comp on = s := by
  simp only [completePhase, h]

/-- Settles O59: that the partition exists is all that `partStep` asks of a step, and the rules above say what the
operations leave. -/
theorem launchSteps : Obligations.LaunchSteps := by
  intro s p j v hp
  have lqtail (hj : j < 64) : exec .lqtailWrite s = .next (lqtailWrite s p j v) := (if_pos hj).trans (if_pos hp)
  exact ⟨if_pos hp, if_pos hp, fun hj => ⟨lqtail hj, getQueue_lqtailWrite s p j v⟩, getPart_evtailWrite s p v,
    getPart_fttailWrite s p v, getPart_ftlostWrite s p _ (by decide), queue_combineBarrier s p j s.arg.k v.toNat,
    applyDec_nil, admitNext_none, forwardEvent_empty, fun h => completePhase_none h _ _ _, if_pos hp, if_pos hp,
    if_pos hp, if_pos hp, if_pos hp, if_pos hp, if_pos hp, if_pos hp, if_pos hp⟩

end Sys2Proof.Machine
end

section
/-! SUPPORT. What the steps of a core and of its units leave, and the proof of the statement about them. -/

namespace Sys2Proof.Machine

/-! What a fold of updates leaves alone -/

theorem foldl_keeps {α β : Type} (g : State → β) (f : State → α → State) (h : ∀ s a, g (f s a) = g s) (l : List α)
    (s : State) : g (l.foldl f s) = g s := by
  induction l generalizing s with
  | nil => rfl
  | cons a l ih => rw [List.foldl_cons, ih, h]

/-- A part of a context that an update leaves alone reads as before, in that context and in every other. -/
theorem getCtx_modCtx_keeps {β : Type} (g : Ctx → β) (s : State) (c n d m : Nat) (f : Ctx → Ctx) (h : ∀ x, g (f x) = g x) :
    g (getCtx (modCtx s c n f) d m) = g (getCtx s d m) := by
  by_cases e : (d, m) = (c, n)
  · obtain ⟨rfl, rfl⟩ := Prod.mk.inj e
    rw [getCtx_modCtx_same, h]
  · rw [getCtx_modCtx_other _ _ _ _ _ _ e]

/-! The selection of a context (02 R59) -/

theorem issuing_endRun (s : State) (c : Nat) : (endRun s c).issuing = s.issuing := by
  unfold endRun
  split
  · split <;> rfl
  · rfl

theorem issuing_settleFreeze (s : State) (c n : Nat) : (settleFreeze s c n).issuing = s.issuing := by
  unfold settleFreeze freeze
  dsimp only
  split
  · split
    · exact issuing_endRun _ c
    · rfl
  · rfl

theorem issuing_settleClient (s : State) (c n : Nat) : (settleClient s c n).issuing = s.issuing := by
  unfold settleClient
  split
  · dsimp only
    rw [foldl_keeps State.issuing]
    · rfl
    · exact fun _ _ => rfl
  · rfl

theorem issuing_settleCtxs (s : State) (c : Nat) : (settleCtxs s c).issuing = s.issuing := by
  refine foldl_keeps State.issuing _ (fun s n => ?_) _ s
  dsimp only
  split
  · rw [issuing_settleClient, issuing_settleFreeze]
  · exact issuing_settleFreeze s c n

theorem issuing_countIdle (s : State) (c : Nat) : (countIdle s c).issuing = s.issuing := by
  unfold countIdle
  split <;> rfl

theorem mem_of_selectOf {k : Core} {l : List Nat} {n : Nat} (h : selectOf k l = some n) : n ∈ l := by
  induction l generalizing n with
  | nil => exact absurd h (Option.some_ne_none n).symm
  | cons a r ih =>
    rw [selectOf] at h
    split at h
    · exact List.mem_cons.mpr (.inl (Option.some.inj h).symm)
    · rename_i b hb
      split at h
      · exact List.mem_cons.mpr (.inr (Option.some.inj h ▸ ih hb))
      · exact List.mem_cons.mpr (.inl (Option.some.inj h).symm)

/-- Whether a context is resident, and whether it is frozen. -/
def presence (x : Ctx) : Bool × Bool := (x.resident, x.frozen)

theorem presence_passOver (s : State) (c n d m : Nat) :
    presence (getCtx (passOver s c n) d m) = presence (getCtx s d m) := by
  have h := getCtx_modCtx_keeps presence s c n d m (fun x => { x with passed := x.passed + 1 }) fun _ => rfl
  unfold passOver
  dsimp only
  split <;> exact h

theorem mem_readyOf {s : State} {c n : Nat} {mask : Word} (h : n ∈ readyOf s c mask) :
    mask.getLsbD n = true ∧ presence (getCtx s c n) = (true, false) := by
  simp only [readyOf, mayIssue, List.mem_filter, Bool.and_eq_true, Bool.not_eq_true'] at h
  obtain ⟨-, bit, ⟨⟨⟨resident, frozen⟩, -⟩, -⟩, -⟩ := h
  exact ⟨bit, Prod.ext resident frozen⟩

/-- Passing contexts over and noting that one issues change the presence of none. -/
theorem presence_issue (s : State) (c n k : Nat) (cur : Nat × Nat) (b : Bool) (l : List Nat) (f : Ctx → Ctx)
    (h : ∀ x, presence (f x) = presence x) :
    presence (getCtx { modCtx (l.foldl (fun s m => passOver s c m) s) c n f with serial := k, cur, issuing := b } c n) =
      presence (getCtx s c n) :=
  (getCtx_modCtx_keeps presence _ c n c n f h).trans
    (foldl_keeps (fun t => presence (getCtx t c n)) _ (fun t m => presence_passOver t c m c n) l s)

/-- A context that a core selects is one of the mask that is resident and not frozen. -/
theorem selectIssue_selects {s : State} {c : Nat} {mask : Word} (idle : s.issuing = false)
    (h : (selectIssue s c mask).issuing = true) :
    ∃ m, (selectIssue s c mask).cur = (c, m) ∧ mask.getLsbD m = true ∧
      presence (getCtx (selectIssue s c mask) c m) = (true, false) := by
  unfold selectIssue at h ⊢
  dsimp only at h ⊢
  split at h
  · rw [issuing_countIdle, issuing_settleCtxs, idle] at h
    exact absurd h Bool.false_ne_true
  · rename_i n hn
    have ready : n ∈ readyOf (settleCtxs s c) c mask := by
      have := mem_of_selectOf hn
      split at this
      · exact this
      · exact absurd this List.not_mem_nil
    obtain ⟨bit, here⟩ := mem_readyOf ready
    refine ⟨n, rfl, bit, Eq.trans ?_ here⟩
    exact presence_issue _ c n _ _ _ _ _ fun _ => rfl

/-! Bytes of physical memory at addresses of a list, and the stores of a forwarding table that reach them (04 R97) -/

theorem SameMemoryBut.mono {l m : List Place} {s t : State} (sub : l ⊆ m) (h : SameMemoryBut l s t) :
    SameMemoryBut m s t := by
  obtain ⟨hbm, pool, mirror, sync⟩ := h
  exact ⟨fun a ha => hbm a (ha <| sub ·), fun c o ho => pool c o (ho <| sub ·), fun l o ho => mirror l o (ho <| sub ·), sync⟩

theorem SameMemoryBut.trans {l : List Place} {s t u : State} (h : SameMemoryBut l s t) (g : SameMemoryBut l t u) :
    SameMemoryBut l s u := by
  obtain ⟨hh, hp, hm, hs⟩ := h
  obtain ⟨gh, gp, gm, gs⟩ := g
  exact ⟨fun a ha => (gh a ha).trans (hh a ha), fun c o ho => (gp c o ho).trans (hp c o ho),
    fun l o ho => (gm l o ho).trans (hm l o ho), fun p o => (gs p o).trans (hs p o)⟩

theorem SameMemory.but {s t : State} (h : SameMemory s t) (l : List Place) : SameMemoryBut l s t := by
  obtain ⟨hbm, pool, mirror, sync⟩ := h
  exact ⟨fun a _ => hbm a, fun c o _ => pool c o, fun l o _ => mirror l o, sync⟩

theorem sameMemory_modCtx (s : State) (c n : Nat) (f : Ctx → Ctx) : SameMemory s (modCtx s c n f) :=
  ⟨fun _ => rfl, fun d o => congrArg (fun k => cget k.pool o) (getCore_modCtx s c n d f), fun _ _ => rfl, fun _ _ => rfl⟩

/-- Writes of bytes to physical addresses. -/
def hbmWrites (bs : List (Nat × Byte)) : List (Place × Byte) := bs.map fun b => (.hbm b.1, b.2)

theorem sameMemoryBut_writeBytes_hbmWrites (s : State) (bs : List (Nat × Byte)) :
    SameMemoryBut (bs.map fun b => .hbm b.1) s (writeBytes s (hbmWrites bs)) := by
  induction bs generalizing s with
  | nil => exact (SameMemory.refl s).but _
  | cons b bs ih =>
    have head := (sameMemoryBut_writeHbm s b.1 b.2).mono (m := (b :: bs).map fun b => .hbm b.1) (by simp)
    have tail := (ih (writeHbm s b.1 b.2)).mono (m := (b :: bs).map fun b => .hbm b.1) (by simp)
    exact head.trans tail

/-- At addresses that differ, each byte reads as written: the writes after it go elsewhere. -/
theorem cget_writeBytes_hbmWrites (s : State) (bs : List (Nat × Byte)) (distinct : (bs.map (·.1)).Nodup) :
    ∀ b ∈ bs, cget (writeBytes s (hbmWrites bs)).hbm b.1 = b.2 := by
  induction bs generalizing s with
  | nil => exact fun b hb => absurd hb List.not_mem_nil
  | cons a bs ih =>
    rw [List.map_cons, List.nodup_cons] at distinct
    obtain ⟨fresh, distinct⟩ := distinct
    intro b hb
    obtain rfl | hb := List.mem_cons.mp hb
    · obtain ⟨hbm, -, -, -⟩ := sameMemoryBut_writeBytes_hbmWrites (writeHbm s b.1 b.2) bs
      refine (hbm b.1 (by simpa using fresh)).trans ?_
      rw [cget_hbm_writeHbm, if_pos rfl]
    · exact ih (writeHbm s a.1 a.2) distinct b hb

theorem nearWrites_hbmWrites {bs : List (Nat × Byte)} (near : ∀ b ∈ bs, bitOf b.1 51 = false) :
    nearWrites (hbmWrites bs) = hbmWrites bs := by
  refine List.filter_eq_self.mpr fun w hw => ?_
  obtain ⟨b, hb, rfl⟩ := List.mem_map.mp hw
  simp [isFar, near b hb]

theorem sendPeerStores_near {bs : List (Nat × Byte)} (near : ∀ b ∈ bs, bitOf b.1 51 = false) (s : State)
    (c n part : Nat) (gen : BitVec 16) (kind : Nat) (copy : Option Nat) :
    sendPeerStores s c n part gen kind copy bs = s := by
  have none : bs.filter (fun w => bitOf w.1 51) = [] := List.filter_eq_nil_iff.mpr fun b hb => by simp [near b hb]
  rw [sendPeerStores, none]
  rfl

section
variable {s : State} {c n : Nat} {e : FwdStore} {r : List FwdStore}

theorem performOldest_near (h : (getCtx s c n).fwd = e :: r) (near : ∀ b ∈ e.bytes, bitOf b.1 51 = false) :
    performOldest s c n = modCtx (writePlaces s (hbmWrites e.bytes)) c n fun x => { x with fwd := r } := by
  rw [← nearWrites_hbmWrites near]
  simp only [performOldest, h, sendPeerStores_near near]
  rfl

/-- The oldest store of a forwarding table, to addresses of this module that differ, leaves the table, and its bytes reach
memory, where every other byte stays. -/
theorem performOldest_effect (h : (getCtx s c n).fwd = e :: r) (distinct : (e.bytes.map (·.1)).Nodup)
    (near : ∀ b ∈ e.bytes, bitOf b.1 51 = false) :
    (getCtx (performOldest s c n) c n).fwd = r ∧ (∀ b ∈ e.bytes, cget (performOldest s c n).hbm b.1 = b.2) ∧
      SameMemoryBut (e.bytes.map fun b => .hbm b.1) s (performOldest s c n) := by
  rw [performOldest_near h near]
  have after := (sameMemory_writePlaces s (hbmWrites e.bytes)).trans (sameMemory_modCtx _ c n fun x => { x with fwd := r })
  have written := sameMemoryBut_writeBytes_hbmWrites s e.bytes
  refine ⟨by rw [getCtx_modCtx_same], fun b hb => ?_, written.trans (after.but _)⟩
  obtain ⟨hbm, -, -, -⟩ := after
  exact (hbm b.1).trans (cget_writeBytes_hbmWrites s e.bytes distinct b hb)

end

theorem overflowPerform_runs {s : State} {c : Nat} (h : clockStopped s c = false) (n : Nat) :
    overflowPerform s c n = performOldest s c n := if_neg (Bool.eq_false_iff.mp h)

/-! Tasks and copies (07 R169, 08 R217) -/

theorem modTask_here {s : State} {c n uid : Nat} (h : (getCtx s c n).uid = uid) (f : Ctx → Ctx) :
    modTask s c n uid f = modCtx s c n f := if_pos h

theorem copies_modCtx (s : State) (c n d : Nat) (f : Ctx → Ctx) :
    (getCore (modCtx s c n f) d).copies = (getCore s d).copies :=
  (congrArg (fun k => k.copies) (getCore_modCtx s c n d f) :)

theorem getCtx_dropCopy (s : State) (c id n : Nat) : getCtx (dropCopy s c id) c n = getCtx s c n := by
  simp [getCtx, dropCopy, ctxOf]

theorem engineFlags_here {s : State} {c n uid : Nat} (h : (getCtx s c n).uid = uid) (f : FFlags) :
    (getCtx (engineFlags s c n uid f) c n).regs.fstat = (getCtx s c n).regs.fstat ||| f ∧
      (getCore (engineFlags s c n uid f) c).copies = (getCore s c).copies := by
  rw [engineFlags, modTask_here h]
  exact ⟨by rw [getCtx_modCtx_same], copies_modCtx s c n c _⟩

section
variable {s : State} {c id : Nat} {p : Copy} (found : findCopy s c id = some p) (still : copyTravels s c id = false)
  (ok : p.status = none) (all : copyTotal p ≤ p.next) (flag : p.flag = none) (sent : p.flagId = none)
  (free : engineHeld s c p.ctx p.uid p.id = false)
include found still ok all flag sent free

/-- A copy that has moved everything and has no flag to store ends with its flags alone. -/
theorem copyComplete_unflagged : copyComplete s c id = engineFlags (dropCopy s c p.id) c p.ctx p.uid p.flags := by
  have same : p.id = id := beq_iff_eq.mp (List.find?_some found :)
  subst same
  have ends : copyEnds s c p = true := by simp [copyEnds, still, ok, all, flag, sent, free]
  simp [copyComplete, found, ends, ok, flag, sent, finishCopy]

theorem copyComplete_effect (here : (getCtx s c p.ctx).uid = p.uid) :
    (getCore (copyComplete s c id) c).copies = (getCore s c).copies.filter (fun q => q.id != p.id) ∧
      (getCtx (copyComplete s c id) c p.ctx).regs.fstat = (getCtx s c p.ctx).regs.fstat ||| p.flags := by
  have task : (getCtx (dropCopy s c p.id) c p.ctx).uid = p.uid := by rw [getCtx_dropCopy, here]
  obtain ⟨fstat, copies⟩ := engineFlags_here task p.flags
  rw [copyComplete_unflagged found still ok all flag sent free, copies, fstat, getCtx_dropCopy]
  exact ⟨by rw [dropCopy, getCore_modCore_same], rfl⟩

end

/-! Requests of a synchronisation engine (05 R133) -/

/-- A request that wants no answer is performed, and leaves its queue. -/
theorem seAccess_unanswered {s : State} {e id : Nat} {q : SeReq}
    (found : (getEngine s e).find? (fun r => r.id == id) = some q) (may : seMay (getEngine s e) q = true)
    (silent : q.pid = none) (core : clockStopped s q.core = false) (home : e < 16 → clockStopped s (1024 * e) = false) :
    seAccess s e id =
      (seDo { s with engines := mset s.engines e ((getEngine s e).filter fun x => x.id != id) } q).1 := by
  have runs : (decide (e < 16) && clockStopped s (1024 * e)) = false := by
    by_cases h : e < 16
    · rw [home h, Bool.and_false]
    · rw [decide_eq_false h, Bool.false_and]
  simp [seAccess, found, may, core, runs, silent]

/-! Blocks of a fetch agent (01 R38) -/

theorem noteFar_notes (s : State) (part : Nat) (pas : List Nat) :
    ∃ fixes far, noteFar s part pas = { s with fixReads := fixes, touched := far } := by
  unfold noteFar noteFixes
  split <;> dsimp only <;> split <;> exact ⟨_, _, rfl⟩

theorem badPa_noteFar (s : State) (part q a : Nat) (pas : List Nat) : badPa (noteFar s part pas) q a = badPa s q a := by
  obtain ⟨fixes, far, h⟩ := noteFar_notes s part pas
  rw [h]; rfl

theorem hbm_noteFar (s : State) (part : Nat) (pas : List Nat) : (noteFar s part pas).hbm = s.hbm := by
  obtain ⟨fixes, far, h⟩ := noteFar_notes s part pas
  rw [h]

theorem cachedBlock_cacheBlock (s : State) (b : ICacheBlock) (c : Nat) :
    cachedBlock (getCore (cacheBlock s b c) c) b.kid b.addr.toNat = some b.data := by
  simp [cachedBlock, cacheBlock]

/-- Every core of a list holds a block that is put into the caches of all: a later one leaves it or puts it there again. -/
theorem cachedBlock_foldl_cacheBlock (b : ICacheBlock) {l : List Nat} {c : Nat} (h : c ∈ l) (s : State) :
    cachedBlock (getCore (l.foldl (fun t c => cacheBlock t b c) s) c) b.kid b.addr.toNat = some b.data := by
  induction l using List.reverseRecOn with
  | nil => exact absurd h List.not_mem_nil
  | append_singleton l d ih =>
    rw [List.foldl_append, List.foldl_cons, List.foldl_nil]
    by_cases e : c = d
    · subst e
      exact cachedBlock_cacheBlock _ b c
    · rw [cacheBlock, getCore_modCore_other _ _ _ _ e]
      exact ih ((List.mem_append.mp h).resolve_right (e <| List.mem_singleton.mp ·))

section
variable {s : State} {z addr : Nat} {kid : BitVec 32} {f : FillReq}
  (found : (getStratum s z).fetches.find? (fun g => g.kid == kid && g.addr == word (addr / 32 * 32)) = some f)
  (fresh : f.stale = false) (good : ∀ i, i < 32 → badPa s (partOf s (f.cores.headD 0)) (f.pa + i) = false)
include found fresh good

/-- A block that can be read and is not stale is handed to the caches of the cores that asked for it. -/
theorem fillBlock_fresh :
    ∃ t, fillBlock s z kid addr = f.cores.foldl (fun t c => cacheBlock t
      { kid, addr := f.addr, data := (List.range 32).map fun i => cget s.hbm (f.pa + i) } c) t := by
  have good : ¬((List.range 32).map (f.pa + ·)).any (badPa (noteFar
      (modStratum s z fun y => { y with fetches := y.fetches.erase f }) (partOf s (f.cores.headD 0))
      ((List.range 32).map (f.pa + ·))) (partOf s (f.cores.headD 0))) = true := by
    simp only [List.any_map, List.any_eq_true, List.mem_range, Function.comp_apply, badPa_noteFar]
    rintro ⟨i, hi, bad⟩
    exact absurd ((good i hi).symm.trans bad) Bool.false_ne_true
  simp only [fillBlock, found]
  rw [if_neg good]
  simp only [fresh, List.map_map, Function.comp_def, readPlace, hbm_noteFar]
  exact ⟨_, rfl⟩

theorem fillBlock_cached (small : addr < 2 ^ 64) :
    ∀ c ∈ f.cores, cachedBlock (getCore (fillBlock s z kid addr) c) kid (addr / 32 * 32) =
      some ((List.range 32).map fun i => cget s.hbm (f.pa + i)) := by
  intro c hc
  have asked := List.find?_some found
  simp only [Bool.and_eq_true, beq_iff_eq] at asked
  obtain ⟨-, address⟩ := asked
  have block : f.addr.toNat = addr / 32 * 32 := by
    rw [address, word, BitVec.toNat_ofNat]
    exact Nat.mod_eq_of_lt (by omega)
  obtain ⟨t, filled⟩ := fillBlock_fresh found fresh good
  rw [filled, ← block]
  exact cachedBlock_foldl_cacheBlock _ hc t

end

/-! Strata that fall asleep and wake (10 R291, R292) -/

@[simp] theorem getStratum_mapPend (s : State) (f : Prod → Prod) (z : Nat) :
    getStratum (mapPend s f) z = getStratum s z := rfl

@[simp] theorem getLayer_mapPend (s : State) (f : Prod → Prod) (z : Nat) : getLayer (mapPend s f) z = getLayer s z := rfl

@[simp] theorem getStratum_modLayer (s : State) (l z : Nat) (f : Layer → Layer) :
    getStratum (modLayer s l f) z = getStratum s z := rfl

@[simp] theorem getLayer_modStratum (s : State) (z l : Nat) (f : Stratum → Stratum) :
    getLayer (modStratum s z f) l = getLayer s l := rfl

@[simp] theorem stratumPart_modLayer (s : State) (l z : Nat) (f : Layer → Layer) :
    stratumPart (modLayer s l f) z = stratumPart s z := rfl

theorem sleepNow_asleep {s : State} {z : Nat} (h : maySleep s z = true) :
    (getStratum (sleepNow s z) z).awake = false ∧ (getStratum (sleepNow s z) z).sleepReq = false ∧
      (getLayer (sleepNow s z) z).stale = true ∧ (getLayer (sleepNow s z) z).wake = none := by
  simp [sleepNow, h]

/-- At the end of its wake a stratum that a partition owns is awake; one that none owns stays as it is. -/
theorem mirrorCopied_due {s : State} {z : Nat} {w : Wake} (waking : (getLayer s z).wake = some w)
    (due : w.bw.toNat + 64 ≤ s.stc.toNat) :
    ((stratumPart s z).isSome = true → (getStratum (mirrorCopied s z) z).awake = true) ∧
      ((stratumPart s z).isSome = false → (getStratum (mirrorCopied s z) z).awake = (getStratum s z).awake) ∧
      (getLayer (mirrorCopied s z) z).stale = (getLayer s z).stopped ∧ (getLayer (mirrorCopied s z) z).wake = none := by
  have late : ¬s.stc.toNat < w.bw.toNat + 64 := Nat.not_lt.mpr due
  cases owned : (stratumPart s z).isSome with
  | false => simp [mirrorCopied, waking, late, owned]
  | true => simp [mirrorCopied, waking, late, owned]

/-! Steps whose operation depends on more than their operands -/

theorem exec_pageWalk {s : State} (h : validCore s.arg.i = true) :
    exec .pageWalk s = .next (pageWalk s s.arg.i s.arg.j
      (if s.arg.k = 0 then .fetch else if s.arg.k = 1 then .read else .write) (s.arg.x.toNat % 2 ^ 56)
      (if s.arg.b then some s.arg.y else none)) := by
  rw [← bitsOf_zero s.arg.x.toNat 55]
  exact if_pos h

/-- A trace unit does nothing while the clock of its stratum stands still (01 R26). -/
theorem exec_traceUnit_stopped {s : State} (h : validCore s.arg.i = true) (stopped : clockStopped s s.arg.i = true) :
    exec .traceCommandApply s = .next s ∧ exec .rewardSweep s = .next s :=
  ⟨(if_pos h).trans (congrArg _ (if_pos stopped)), (if_pos h).trans (congrArg _ (if_pos stopped))⟩

theorem exec_rewardSweep_runs {s : State} (h : validCore s.arg.i = true) (runs : clockStopped s s.arg.i = false) :
    exec .rewardSweep s = .next (sweepNext s s.arg.i (freeItem s s.arg.i)) :=
  (if_pos h).trans (congrArg _ (if_neg (Bool.eq_false_iff.mp runs)))

theorem exec_traceCommandApply_runs {s : State} (h : validCore s.arg.i = true) (runs : clockStopped s s.arg.i = false) :
    exec .traceCommandApply s = .next (match firstCmd (freeItem s s.arg.i) [] (getCore s s.arg.i).tl with
      | some t => applyItem s s.arg.i t
      | none => s) :=
  (if_pos h).trans (congrArg _ (if_neg (Bool.eq_false_iff.mp runs)))

/-- Settles O57: the bound on its operand is all that each step asks, and the lemmas above say what the operations of
eight of them leave. (`coreSteps` alone is taken: it is a part of the model's schedule.) -/
theorem Settled.coreSteps : Obligations.CoreSteps := by
  refine ⟨?_, ?_, ?_, ?_⟩
  · intro s c n hc
    exact ⟨if_pos hc, if_pos hc, if_pos hc, if_pos hc, if_pos hc, if_pos hc, if_pos hc, if_pos hc,
      exec_traceUnit_stopped hc, fun runs => ⟨exec_rewardSweep_runs hc runs, exec_traceCommandApply_runs hc runs⟩,
      if_pos hc, exec_pageWalk hc, if_pos hc, if_pos hc⟩
  · intro s n
    exact ⟨fun h => ⟨if_pos h, if_pos h, if_pos h, if_pos h⟩, fun h => ⟨if_pos h, if_pos h, if_pos h⟩,
      fun h => ⟨if_pos h, if_pos h⟩, fun h => ⟨if_pos h, if_pos h⟩⟩
  · intro s e r p c n hc
    refine ⟨fun here => ?_, fun runs oldest distinct near => ?_, fun found still ok all flag sent free here => ?_,
      fun idle => ?_⟩
    · exact (if_pos hc).trans (congrArg _ (modTask_here here _))
    · exact ⟨_, (if_pos hc).trans (congrArg _ (overflowPerform_runs runs n)), performOldest_effect oldest distinct near⟩
    · exact ⟨_, if_pos hc, copyComplete_effect found still ok all flag sent free here⟩
    · refine ⟨_, if_pos hc, fun selected => ?_⟩
      obtain ⟨m, cur, bit, present⟩ := selectIssue_selects idle selected
      exact ⟨m, cur, bit, Prod.mk.inj present⟩
  · intro s q f w n
    refine ⟨fun hn found may silent core home => ?_, fun hn found fresh good => ?_, fun hn may => ?_,
      fun hn waking due => ?_⟩
    · exact (if_pos hn).trans (congrArg _ (seAccess_unanswered found may silent core home))
    · exact ⟨_, if_pos hn, fillBlock_cached found fresh good s.arg.x.isLt⟩
    · exact ⟨_, if_pos hn, sleepNow_asleep may⟩
    · exact ⟨_, if_pos hn, mirrorCopied_due waking due⟩

end Sys2Proof.Machine
end

section
/-! SUPPORT. Accesses in window 0 of a core's own scratchpad (04 R93 to R102): how their address resolves, what they read and
write, and the proof of the statement about LD and ST of it. -/

namespace Sys2Proof.Machine

/-! Writes of many places: each byte as written, every other byte and every full/empty bit as before -/

theorem sameMemoryBut_writePlace {p : Place} (direct : isFwd p = false) (s : State) (v : Byte) :
    SameMemoryBut [p] s (writePlace s p v) := by
  cases p with
  | hbm a => exact sameMemoryBut_writeHbm s a v
  | fwd c n a => exact absurd direct.symm Bool.false_ne_true
  | pool c o => exact sameMemoryBut_writePool s c o v
  | mirror l o => exact sameMemoryBut_writePlace_mirror s l o v

theorem readPlace_writePlace_same {p : Place} (direct : isFwd p = false) (s : State) (v : Byte) :
    readPlace (writePlace s p v) p = v := by
  cases p with
  | hbm a => exact (cget_hbm_writeHbm s a a v).trans (if_pos rfl)
  | fwd c n a => exact absurd direct.symm Bool.false_ne_true
  | pool c o => exact (cget_pool_writePool s c o c o v).trans (if_pos ⟨rfl, rfl⟩)
  | mirror l o => exact (cget_mirror_writePlace s l o l o v).trans (if_pos ⟨rfl, rfl⟩)

theorem SameMemoryBut.readPlace {l : List Place} {s t : State} (h : SameMemoryBut l s t) {p : Place}
    (direct : isFwd p = false) (out : p ∉ l) : readPlace t p = readPlace s p := by
  obtain ⟨hbm, pool, mirror, -⟩ := h
  cases p with
  | hbm a => exact hbm a out
  | fwd c n a => exact absurd direct.symm Bool.false_ne_true
  | pool c o => exact pool c o out
  | mirror l o => exact mirror l o out

theorem sameMemoryBut_writeBytes (ws : List (Place × Byte)) (direct : ∀ w ∈ ws, isFwd w.1 = false) (s : State) :
    SameMemoryBut (ws.map (·.1)) s (writeBytes s ws) := by
  induction ws generalizing s with
  | nil => exact (SameMemory.refl s).but _
  | cons w ws ih =>
    obtain ⟨first, rest⟩ := List.forall_mem_cons.mp direct
    have head := (sameMemoryBut_writePlace first s w.2).mono (m := (w :: ws).map (·.1)) (by simp)
    have tail := (ih rest (writePlace s w.1 w.2)).mono (m := (w :: ws).map (·.1)) (by simp)
    exact head.trans tail

/-- At places that differ, each byte reads as written: the writes after it go elsewhere. -/
theorem readPlace_writeBytes (ws : List (Place × Byte)) (direct : ∀ w ∈ ws, isFwd w.1 = false)
    (distinct : (ws.map (·.1)).Nodup) (s : State) : ∀ w ∈ ws, readPlace (writeBytes s ws) w.1 = w.2 := by
  induction ws generalizing s with
  | nil => exact fun w hw => absurd hw List.not_mem_nil
  | cons a ws ih =>
    obtain ⟨first, rest⟩ := List.forall_mem_cons.mp direct
    rw [List.map_cons, List.nodup_cons] at distinct
    obtain ⟨fresh, distinct⟩ := distinct
    intro w hw
    obtain rfl | hw := List.mem_cons.mp hw
    · have later := (sameMemoryBut_writeBytes ws rest (writePlace s w.1 w.2)).readPlace first fresh
      exact later.trans (readPlace_writePlace_same first s w.2)
    · exact ih rest distinct (writePlace s a.1 a.2) w hw

/-- Where no place is written twice, no write of a list hides another. -/
theorem lastWrites_of_nodup (ws : List (Place × Byte)) (distinct : (ws.map (·.1)).Nodup) : lastWrites ws = ws := by
  induction ws using List.reverseRecOn with
  | nil => rfl
  | append_singleton ws w ih =>
    rw [List.map_append, List.map_singleton, ← List.concat_eq_append, List.nodup_concat] at distinct
    obtain ⟨fresh, distinct⟩ := distinct
    have kept : ws.filter (fun a => a.1 != w.1) = ws := List.filter_eq_self.mpr fun a ha =>
      bne_iff_ne.mpr fun same => fresh (List.mem_map.mpr ⟨a, ha, same⟩)
    calc lastWrites (ws ++ [w]) = (lastWrites ws).filter (fun a => a.1 != w.1) ++ [w] := by
          simp only [lastWrites, List.foldl_append, List.foldl_cons, List.foldl_nil]
      _ = ws ++ [w] := by rw [ih distinct, kept]

/-- The EMPTY words of a core's scratchpad are in none of the bytes. -/
theorem spE_writePlace (s : State) (p : Place) (v : Byte) (m : Nat) :
    (getCore (writePlace s p v) m).spE = (getCore s m).spE := by
  cases p with
  | pool c o =>
    rw [writePlace, writePool, getCore_modCore]
    split
    · subst m; rfl
    · rfl
  | _ => rfl

theorem cores_rewriteUnits (s : State) (us : List Nat) : (rewriteUnits s us).cores = s.cores := by
  refine foldl_keeps State.cores _ (fun _ _ => ?_) us s
  rfl

theorem cores_unpoison (s : State) (ws : List (Place × Byte)) : (unpoison s ws).cores = s.cores := by
  unfold unpoison
  split <;> dsimp only <;> split
  · exact cores_rewriteUnits s _
  · rfl
  · exact cores_rewriteUnits { s with poison := _ } _
  · rfl

theorem cores_showWrites (s : State) (ws : List (Place × Byte)) : (showWrites s ws).cores = s.cores := by
  unfold showWrites
  split <;> rfl

theorem spE_writeBytes (s : State) (ws : List (Place × Byte)) (m : Nat) :
    (getCore (writeBytes s ws) m).spE = (getCore s m).spE := by
  refine foldl_keeps (fun t => (getCore t m).spE) _ (fun t e => ?_) ws s
  exact spE_writePlace t e.1 e.2 m

/-- A write of bytes by a store leaves every full/empty bit (04 R110). -/
theorem wordFull_writePlaces (s : State) (ws : List (Place × Byte)) (m w : Nat) :
    wordFull (writePlaces s ws) m w = wordFull s m w := by
  have cores : (writePlaces s ws).cores = (writeBytes s ws).cores :=
    (cores_unpoison _ ws).trans (cores_showWrites _ ws)
  rw [wordFull, getCore, cores, ← getCore, spE_writeBytes, wordFull]

theorem wordFull_modRegs (s : State) (f : Regs → Regs) (m w : Nat) : wordFull (modRegs s f) m w = wordFull s m w :=
  (congrArg (fun k => !k.spE.contains w) (getCore_modCtx s (myId s) (myN s) m _) :)

theorem sameMemory_modRegs (s : State) (f : Regs → Regs) : SameMemory s (modRegs s f) := sameMemory_modCtx s _ _ _

/-! Addresses of window 0 of the local scratchpad (04 Tables 4.1 and 4.3) -/

theorem apOf_eq_loc_zero_iff {a o : Nat} : apOf a = .loc 0 o ↔ o < 2 ^ 20 ∧ a = 0xFFFFFF0000000000 + o := by
  constructor
  · intro h
    unfold apOf at h
    split at h
    · exact absurd h (by simp)
    split at h
    · exact absurd h (by simp)
    split at h
    · simp only [bitsOf, Ap.loc.injEq] at h
      omega
    repeat' split at h
    all_goals exact absurd h (by simp)
  · rintro ⟨small, rfl⟩
    unfold apOf
    rw [if_neg (by omega), if_neg (by omega), if_pos (by omega)]
    simp only [bitsOf, Ap.loc.injEq]
    omega

theorem sizeN_pos (sz : Size) : 0 < sizeN sz := by cases sz <;> decide

theorem coreSp_le (s : State) (c : Nat) : coreSp s c ≤ 2 ^ 19 := by
  unfold coreSp spSize
  omega

section
variable {s : State} {q : Issuer} {k : Acs} {n a o : Nat} {sx : Bool}
  (place : apOf a = .loc 0 o) (pos : 0 < n) (fits : o + n ≤ coreSp s q.core)
include place

include pos fits in
theorem chkMember_local : chkMember n a = none := by
  obtain ⟨-, rfl⟩ := apOf_eq_loc_zero_iff.mp place
  have small := coreSp_le s q.core
  have last : apOf (0xFFFFFF0000000000 + o + n - 1) = .loc 0 (o + n - 1) :=
    apOf_eq_loc_zero_iff.mpr ⟨by omega, by omega⟩
  simp [chkMember, place, winSpan, Ap.win, last, Ap.number]

theorem chkPriv_local : chkPriv q a = none := by simp [chkPriv, place]

theorem chkDesc_local : chkDesc s q a = none := by simp [chkDesc, place]

include fits in
theorem chkRange_local : chkRange s q k n a = none := by simp [chkRange, place, winSpan, fits]

/-- Plain loads and stores may take any alignment (04 R94), and extension or not. -/
theorem chkClass_local (kind : k = .ld ∨ k = .st) : chkClass s q k n sx false a = none := by
  obtain rfl | rfl := kind <;> simp [chkClass, place, Ap.win]

theorem chkAlign_local (kind : k = .ld ∨ k = .st) : chkAlign k n a = none := by
  obtain rfl | rfl := kind <;> simp [chkAlign, place, Ap.win, Nat.mod_one]

theorem globalPart_local : globalPart s q n a = [] := by simp [globalPart, place]

theorem accOf_local (pas : List Nat) : accOf s q n false a pas = .els [.raw (poolPlaces q.core o n)] := by
  simp [accOf, place, winEl, poolPlaces, swz]

include pos fits in
/-- A plain access in window 0 of the local scratchpad passes every check of R95, translates nothing, and is the bytes from
its offset. -/
theorem resolve_local (kind : k = .ld ∨ k = .st) :
    resolve s q k n sx false [(0, a)] = (s, .ok [(0, .els [.raw (poolPlaces q.core o n)])]) := by
  simp [resolve, chkMember_local place pos fits, chkPriv_local place, chkClass_local place kind, chkDesc_local place,
    chkRange_local place fits, chkAlign_local place kind, globalPart_local place, accOf_local place, lanePieces,
    transPieces, pageFault, isUnplaced, pasOf]

end

/-! Bytes of a pool, read and written -/

theorem nodup_poolPlaces (c o n : Nat) : (poolPlaces c o n).Nodup :=
  List.nodup_range.map fun i j h => by simpa using h

theorem servedPas_poolPlaces (s : State) (c o n : Nat) : servedPas s (poolPlaces c o n) = [] := by
  simp [servedPas, poolPlaces, List.filterMap_map]

theorem noteFar_nil (s : State) (part : Nat) : noteFar s part [] = s := by
  simp [noteFar, noteFixes]

/-- A read of a scratchpad asks no memory. -/
theorem touchEls_poolPlaces (s : State) (part c o n : Nat) : touchEls s part [.raw (poolPlaces c o n)] = s := by
  rw [touchEls, List.flatMap_singleton, elPlaces, touch, servedPas_poolPlaces, noteFar_nil]

/-- The clock of a core's own stratum does not stand between it and its scratchpad (01 R26). -/
theorem elsStopped_own (s : State) (c o n : Nat) : elsStopped s c [.raw (poolPlaces c o n)] = false := by
  simp [elsStopped, placesStopped, elPlaces, poolPlaces, awayStopped]

theorem regionsShut_raw (s : State) (ps : List Place) (stamp : Option Nat) : regionsShut s [.raw ps] stamp = false := rfl

theorem toLe_eq_map_range (n v : Nat) : toLe n v = (List.range n).map fun i => BitVec.ofNat 8 (v / 2 ^ (8 * i)) := by
  induction n generalizing v with
  | zero => rfl
  | succ n ih =>
    have shift (i : Nat) : v / 256 / 2 ^ (8 * i) = v / 2 ^ (8 * (i + 1)) := by
      rw [Nat.div_div_eq_div_mul, Nat.mul_succ, Nat.pow_add, Nat.mul_comm]
    simp only [toLe, ih, List.range_succ_eq_map, List.map_cons, List.map_map, Function.comp_def, shift, Nat.mul_zero,
      Nat.pow_zero, Nat.div_one, Nat.succ_eq_add_one]

/-- The n bytes of a value, lowest first, at the places of a pool from an offset on. -/
def poolWrites (c o n v : Nat) : List (Place × Byte) :=
  (List.range n).map fun i => (.pool c (o + i), BitVec.ofNat 8 (v / 2 ^ (8 * i)))

theorem writeEl_poolPlaces (s : State) (c o n v : Nat) :
    writeEl s (.raw (poolPlaces c o n)) v = (poolWrites c o n v, 0) := by
  rw [writeEl, toLe_eq_map_range]
  simp only [poolPlaces, List.length_map, List.length_range, List.zip_map', poolWrites]

theorem map_fst_poolWrites (c o n v : Nat) : (poolWrites c o n v).map (·.1) = poolPlaces c o n := by
  simp only [poolWrites, poolPlaces, List.map_map, Function.comp_def]

theorem lastWrites_poolWrites (c o n v : Nat) : lastWrites (poolWrites c o n v) = poolWrites c o n v :=
  lastWrites_of_nodup _ (map_fst_poolWrites c o n v ▸ nodup_poolPlaces c o n)

theorem isFwd_poolWrites (c o n v : Nat) : ∀ w ∈ poolWrites c o n v, isFwd w.1 = false := by
  simp [poolWrites, isFwd]

/-- A byte below the width does not see that a value is cut to it. -/
theorem ofNat_byte_mod {i n : Nat} (h : i < n) (v : Nat) :
    BitVec.ofNat 8 (v % 2 ^ (8 * n) / 2 ^ (8 * i)) = BitVec.ofNat 8 (v / 2 ^ (8 * i)) := by
  have width : 2 ^ (8 * n) = 2 ^ (8 * i) * 2 ^ (8 * (n - i)) := by rw [← Nat.pow_add]; congr 1; omega
  apply BitVec.eq_of_toNat_eq
  rw [BitVec.toNat_ofNat, BitVec.toNat_ofNat, width, Nat.mod_mul_right_div_self]
  exact Nat.mod_mod_of_dvd _ (Nat.pow_dvd_pow 2 (by omega))

/-- Writes to a pool land in it: none of them is private, and none travels to a peer. -/
theorem landStore_poolWrites (s : State) (kind c o n v : Nat) :
    landStore s kind (poolWrites c o n v) = writePlaces s (poolWrites c o n v) := by
  have near : (nearWrites (poolWrites c o n v)).filter (fun w => !isFwd w.1) = poolWrites c o n v := by
    rw [nearWrites, List.filter_filter, List.filter_eq_self]
    simp [poolWrites, isFwd, isFar]
  rw [landStore, near]
  simp [poolWrites, List.filterMap_map, sendPeerStores]

theorem putStore_local {addr o : Nat} (place : apOf addr = .loc 0 o) (s : State) (kind : Nat) (ws : List (Place × Byte)) :
    putStore s kind addr ws = landStore s kind ws := by
  simp only [putStore, place]

/-- What the bytes of a value written to a pool leave: the bytes, every other byte, and every full/empty bit. -/
theorem writePlaces_poolWrites_effect (s : State) (c o n v : Nat) :
    SameMemoryBut (poolPlaces c o n) s (writePlaces s (poolWrites c o n v)) ∧
      (∀ i, i < n → cget (getCore (writePlaces s (poolWrites c o n v)) c).pool (o + i) =
        BitVec.ofNat 8 (v / 2 ^ (8 * i))) ∧
      ∀ m w, wordFull (writePlaces s (poolWrites c o n v)) m w = wordFull s m w := by
  have direct := isFwd_poolWrites c o n v
  have frame := sameMemoryBut_writeBytes _ direct s
  rw [map_fst_poolWrites] at frame
  have noted := sameMemory_writePlaces s (poolWrites c o n v)
  refine ⟨frame.trans (noted.but _), fun i hi => ?_, fun m w => wordFull_writePlaces s _ m w⟩
  obtain ⟨-, pool, -, -⟩ := noted
  exact (pool c (o + i)).trans (readPlace_writeBytes _ direct (map_fst_poolWrites c o n v ▸ nodup_poolPlaces c o n) s
    _ (List.mem_map.mpr ⟨i, List.mem_range.mpr hi, rfl⟩))

/-! Issue of LD and ST -/

theorem issues_ra {i : Instr} {s : State} (h : issues i s = true) : (me s).ra = none := by
  simp only [issues, Bool.and_eq_true, Option.isNone_iff_eq_none] at h
  obtain ⟨⟨⟨⟨⟨⟨⟨ra, -⟩, -⟩, -⟩, -⟩, -⟩, -⟩, -⟩ := h
  exact ra

theorem exec_ld_issues {c : Cond} {sz : Size} {sx x : Bool} {d : SReg} {a : SSrc} {disp : Imm} {s : State}
    (h : issues (.ld c sz sx x d a disp) s = true) :
    exec (.ld c sz sx x d a disp) s =
      .next (endOf (.ld c sz sx x d a disp) s [] (loadBody .ld sz sx x d (addrOf s a disp) s)) :=
  congrArg _ (issueWith_issues _ s _ _ _ h)

theorem exec_st_issues {c : Cond} {sz : Size} {x : Bool} {a b : SSrc} {disp : Imm} {s : State}
    (h : issues (.st c sz x a disp b) s = true) :
    exec (.st c sz x a disp b) s =
      .next (endOf (.st c sz x a disp b) s (spanOf s (issuer s) x (sizeN sz) (addrOf s a disp))
        (storeBody .st sz x 1 false (addrOf s a disp) b s)) :=
  congrArg _ (issueWith_issues _ s _ _ _ h)

theorem issuer_ahead {s : State} (ra : (me s).ra = none) : (issuer s).ahead = false := by simp [issuer, ra]

theorem produceVal_issues {s : State} (ra : (me s).ra = none) (d : Dest) (x : Res) (f : FFlags) :
    produceVal s d x f = produce s d (.val x f) := by
  simp [produceVal, ra]

section
variable {s u : State} {k : Acs} {sz : Size} {sx x : Bool} {addr : Nat} {els : List El}
  (ra : (me s).ra = none) (turn : mustFollow (myRegs u) = false)
include ra turn

/-- A load of elements that nothing holds and no producer precedes reads them at once. -/
theorem loadBody_els (res : resolve s (issuer s) k (sizeN sz) sx x [(0, addr)] = (u, .ok [(0, .els els)]))
    (own : ownInFlight u els = false) (runs : elsStopped u (issuer s).core els = false)
    (clear : regionsShut u els none = false) (d : SReg) :
    loadBody k sz sx x d addr s =
      let w := settleEls (touchEls u (partOf u (issuer s).core) els) els
      .go (produceVal w (.s d) (.s (extend sx (sizeN sz) (elsValue w els).1)) (elsValue w els).2) := by
  simp [loadBody, res, own, runs, clear, turn, issuer_ahead ra]

/-- A store to elements that nothing holds and no producer precedes is performed at once. -/
theorem storeBody_els (res : resolve s (issuer s) k (sizeN sz) false x [(0, addr)] = (u, .ok [(0, .els els)]))
    (free : storeWaits u addr (els.flatMap elPlaces) = false) (kind : Nat) (b : SSrc) :
    storeBody k sz x kind false addr b s =
      let r := elsStore u els ((sv s b).toNat % 2 ^ (8 * sizeN sz))
      .go (raise (putStore u kind addr (lastWrites r.1)) r.2) := by
  simp [storeBody, res, free, turn, issuer_ahead ra]

end

section
variable {s : State} {sz : Size} {addr o : Nat} (ra : (me s).ra = none) (turn : mustFollow (myRegs s) = false)
  (place : apOf addr = .loc 0 o) (fits : o + sizeN sz ≤ coreSp s (myId s))
include ra turn place fits

theorem loadBody_local (own : ownInFlight s [.raw (poolPlaces (myId s) o (sizeN sz))] = false) (sx : Bool) (d : SReg) :
    loadBody .ld sz sx false d addr s = .go (produce s (.s d)
      (.val (.s (extend sx (sizeN sz) (readPlaces s (poolPlaces (myId s) o (sizeN sz))))) 0)) := by
  have res := resolve_local (q := issuer s) (sx := sx) place (sizeN_pos sz) fits (.inl rfl)
  rw [loadBody_els ra turn res own (elsStopped_own s _ o _) (regionsShut_raw s _ none), touchEls_poolPlaces]
  exact congrArg Act.go (produceVal_issues ra _ _ _)

theorem storeBody_local (free : storeWaits s addr (poolPlaces (myId s) o (sizeN sz)) = false) (kind : Nat) (b : SSrc) :
    storeBody .st sz false kind false addr b s = .go (raise (writePlaces s
      (poolWrites (myId s) o (sizeN sz) ((sv s b).toNat % 2 ^ (8 * sizeN sz)))) 0) := by
  have res := resolve_local (q := issuer s) (sx := false) place (sizeN_pos sz) fits (.inr rfl)
  have waits : storeWaits s addr ([El.raw (poolPlaces (myId s) o (sizeN sz))].flatMap elPlaces) = false := by
    rw [List.flatMap_singleton]
    exact free
  rw [storeBody_els ra turn res waits]
  simp only [elsStore, writeEl_poolPlaces, lastWrites_poolWrites, putStore_local place, landStore_poolWrites]
  rfl

end

/-- Settles O22: both accesses resolve to the bytes at the offset; the load is a producer of their value, and the store
writes them and changes the registers of its context. -/
theorem localScratchpad : Obligations.LocalScratchpad := by
  intro c sz sx d a b disp s o n k ps place fits turn
  refine ⟨fun own issue => ?_, fun free issue => ?_⟩
  · rw [exec_ld_issues issue, loadBody_local (issues_ra issue) turn place fits own, endOf_go]
  · let v := (sv s b).toNat % 2 ^ (8 * n)
    let w := writePlaces s (poolWrites k o n v)
    let i := Instr.st c sz false a disp b
    obtain ⟨frame, bytes, full⟩ := writePlaces_poolWrites_effect s k o n v
    have after : SameMemory w (advance (raise w 0) i) := (sameMemory_modRegs w _).trans (sameMemory_modRegs _ _)
    refine ⟨advance (raise w 0) i, ?_, frame.trans (after.but _), fun j hj => ?_, fun m x => ?_⟩
    · rw [exec_st_issues issue, storeBody_local (issues_ra issue) turn place fits free, endOf_go]
    · obtain ⟨-, pool, -, -⟩ := after
      exact ((pool k (o + j)).trans (bytes j hj)).trans (ofNat_byte_mod hj _)
    · exact ((wordFull_modRegs _ _ m x).trans (wordFull_modRegs w _ m x)).trans (full m x)

end Sys2Proof.Machine
end

section
/-! SUPPORT. The registers that hold a constant (06 R149, R150), and the proof of the statement about them. -/

namespace Sys2Proof.Machine

/-- A write leaves every other register of its file, also a write that is discarded. -/
theorem rdS_wrS_other (r : Regs) {m n : SReg} (v : Word) (h : n ≠ m) : rdS (wrS r m v) n = rdS r n := by
  by_cases hw : m = 0 ∨ m = 63
  · rw [wrS, if_pos hw]
  · rw [not_or] at hw
    obtain ⟨h0, h63⟩ := hw
    rw [rdS_wrS r m n v h0 h63, if_neg h]

theorem rdP_wrP_other (r : Regs) {m n : PReg} (v : BitVec 64) (h : n ≠ m) : rdP (wrP r m v) n = rdP r n := by
  by_cases h0 : m = 0
  · rw [wrP, if_pos h0]
  · rw [rdP_wrP r m n v h0, if_neg h]

theorem rdQ_wrQ_other (r : Regs) {m n : QReg} (b : Bool) (h : n ≠ m) : rdQ (wrQ r m b) n = rdQ r n := by
  by_cases h0 : m = 0
  · rw [wrQ, if_pos h0]
  · rw [rdQ_wrQ r m n b h0, if_neg h]

/-- Settles O45: s0, s63, p0 and q0 compute to their constants, and the rules above say what the other registers read. -/
theorem hardwiredRegisters : Obligations.HardwiredRegisters := by
  refine ⟨fun _ _ _ _ => ⟨rfl, rfl, rfl, rfl, rfl, rfl, rfl, rfl, rfl, rfl, rfl, rfl, rfl⟩,
    fun r m n v w p q i j x y z b => ⟨fun h0 h63 => ?_, rdS_wrS_other r x, ?_, fun h => ?_, fun h0 => ?_, rdP_wrP_other r z,
      fun h0 => ?_, rdQ_wrQ_other r b⟩⟩
  · exact (rdS_wrS r m m x h0 h63).trans (if_pos rfl)
  · exact (rdV_wrV r v v y).trans (if_pos rfl)
  · exact (rdV_wrV r v w y).trans (if_neg h)
  · exact (rdP_wrP r p p z h0).trans (if_pos rfl)
  · exact (rdQ_wrQ r i i b h0).trans (if_pos rfl)

end Sys2Proof.Machine
end

section
/-! SUPPORT. The checks of an issue before the body of an instruction (06 R143, R147, R151), and the proofs of the two
statements about them. -/

namespace Sys2Proof.Machine

section
variable {i : Instr} {s : State} (ra : (me s).ra = none)
include ra

/-- An instruction whose unit is absent (01 R24). -/
theorem issueWith_absent (l t : List (Nat × Nat)) (body : State → Act) (priv : (isPrivileged i && (me s).priv == 0) = false)
    (absent : absentOn i (isGw (myId s)) = true) : issueWith i s l t body = raiseTrap s i tILLEGAL [] := by
  simp only [issueWith, ra, priv, absent, Bool.false_eq_true, if_false, if_true]

variable (priv : (isPrivileged i && (me s).priv == 0) = false) (unit : absentOn i (isGw (myId s)) = false)
include priv unit

/-- An EMPTY condition (06 R143). -/
theorem issueWith_conditionEmpty (l t : List (Nat × Nat)) (body : State → Act)
    (empty : qEmpty (myRegs s) (condOf i).q = true) : issueWith i s l t body = wait s := by
  rw [myRegs] at empty
  simp only [issueWith, ra, priv, unit, empty, Bool.false_eq_true, if_false, if_true]

variable (full : qEmpty (myRegs s) (condOf i).q = false) (holds : condTrue s (condOf i) = true)
include full holds

/-- An EMPTY source with W = 1 (06 R151). -/
theorem issueWith_sourceTraps (l t : List (Nat × Nat)) (body : State → Act)
    (traps : ((useOf i).srcs.any fun x => srcEmpty (myRegs s) x && srcW x) = true) :
    issueWith i s l t body = raiseTrap s i tFE [] := by
  simp only [myRegs] at full traps
  simp only [issueWith, ra, priv, unit, full, holds, traps, Bool.false_eq_true, Bool.not_true, if_false, if_true]

/-- An EMPTY source with W = 0, or an EMPTY destination (06 R151). -/
theorem issueWith_waits (l t : List (Nat × Nat)) (body : State → Act)
    (traps : ((useOf i).srcs.any fun x => srcEmpty (myRegs s) x && srcW x) = false)
    (empty : ((useOf i).srcs.any (srcEmpty (myRegs s)) || (useOf i).dsts.any (dstEmpty (myRegs s))) = true) :
    issueWith i s l t body = wait s := by
  simp only [myRegs] at full traps empty
  simp only [issueWith, ra, priv, unit, full, holds, traps, empty, Bool.false_eq_true, Bool.not_true, Bool.true_or, if_false,
    if_true]

end

/-- PREF with an EMPTY source and W = 1 only moves past itself (08 R208). -/
theorem exec_pref_sourceTraps {c : Cond} {b : Bool} {a : SSrc} {disp : Imm} {s : State} (ra : (me s).ra = none)
    (traps : ((useOf (.pref c b a disp)).srcs.any fun x => srcEmpty (myRegs s) x && srcW x) = true)
    (full : qEmpty (myRegs s) c.q = false) : exec (.pref c b a disp) s = .next (advance s (.pref c b a disp)) := by
  simp [exec, execPref, traps, full, ra, runsAhead]

/-- What the issue of an instruction comes to whatever its body, that its meaning comes to; PREF where its EMPTY source
makes it do nothing is apart. -/
theorem exec_of_issueWith {i : Instr} {s u : State} (word : i.isStep = false) (ra : (me s).ra = none)
    (issued : ∀ l t body, issueWith i s l t body = u)
    (skipped : ((useOf i).srcs.any fun x => srcEmpty (myRegs s) x && srcW x) = true →
      qEmpty (myRegs s) (condOf i).q = false → advance s i = u) : exec i s = .next u := by
  by_cases pref : ∃ c b a disp, i = .pref c b a disp
  · obtain ⟨c, b, a, disp, rfl⟩ := pref
    by_cases skip : ((useOf (.pref c b a disp)).srcs.any fun x => srcEmpty (myRegs s) x && srcW x) = true ∧
        qEmpty (myRegs s) c.q = false
    · obtain ⟨traps, full⟩ := skip
      rw [exec_pref_sourceTraps ra traps full, skipped traps full]
    · refine (if_neg fun h => skip ?_).trans (congrArg _ (issued [] [] _))
      simp only [Bool.and_eq_true, Bool.not_eq_true'] at h
      obtain ⟨⟨traps, full⟩, -⟩ := h
      exact ⟨traps, full⟩
  · obtain ⟨l, t, body, h⟩ := exec_issueWith i s word fun c b a disp e => pref ⟨c, b, a, disp, e⟩
    rw [h, issued]

/-- PREF needs no privilege and no unit that a core may lack. -/
theorem not_pref_of_checked {i : Instr} {gw : Bool} (h : isPrivileged i = true ∨ absentOn i gw = true) :
    ∀ c b a disp, i ≠ .pref c b a disp := by
  rintro c b a disp rfl
  rcases h with h | h <;> cases h

theorem privilege_passes {i : Instr} {s : State} (h : isPrivileged i = true → (me s).priv ≠ 0) :
    (isPrivileged i && (me s).priv == 0) = false := by
  cases e : isPrivileged i
  · rfl
  · exact beq_eq_false_iff_ne.mpr (h e)

theorem condOf_scalar {i : Instr} (h : isVector i = false) : condOf i = ⟨i.pField.1, i.pField.2⟩ := by
  rw [condOf, h]; rfl

/-- Settles O46: the checks come in the order of `issueWith`, and each of the four decides the issue whatever the body. -/
theorem conditionFirst : Obligations.ConditionFirst := by
  refine ⟨fun i s word scalar ra priv unit => ?_, fun i s word ra => ⟨fun needs task => ?_, fun priv absent => ?_⟩⟩
  · have cond := condOf_scalar scalar
    have passes := privilege_passes priv
    refine ⟨fun empty => ?_, fun full value => ?_⟩
    · have empty : qEmpty (myRegs s) (condOf i).q = true := by rw [cond]; exact empty
      exact exec_of_issueWith word ra (fun l t body => issueWith_conditionEmpty ra passes unit l t body empty)
        fun _ full => absurd (empty.symm.trans full) (by decide)
    · have fails : condTrue s (condOf i) = false := by rw [cond, condTrue, value]; exact bne_self_eq_false _
      have full : qEmpty (myRegs s) (condOf i).q = false := by rw [cond]; exact full
      exact exec_of_issueWith word ra (fun l t body => issueWith_false i s l t body ra passes unit full fails) fun _ _ => rfl
  · obtain ⟨l, t, body, h⟩ := exec_issueWith i s word (not_pref_of_checked (gw := isGw (myId s)) (.inl needs))
    rw [h, issueWith_privilege i s l t body ra (by rw [needs, task]; rfl)]
  · obtain ⟨l, t, body, h⟩ := exec_issueWith i s word (not_pref_of_checked (.inr absent))
    rw [h, issueWith_absent ra l t body (privilege_passes priv) absent]

theorem any_traps_iff {l : List Src} {r : Regs} :
    (l.any fun x => srcEmpty r x && srcW x) = true ↔ ∃ x ∈ l, srcEmpty r x = true ∧ srcW x = true := by
  simp only [List.any_eq_true, Bool.and_eq_true]

/-- Settles O47: the trap is decided before the wait, both after the condition, and PREF does nothing in place of the trap. -/
theorem fullEmpty : Obligations.FullEmpty := by
  intro i s word priv ra unit full holds
  have passes := privilege_passes priv
  refine ⟨fun traps => ?_, fun calm empty => ?_⟩
  · have traps := any_traps_iff.mpr traps
    split
    · exact exec_pref_sourceTraps ra traps full
    · obtain ⟨l, t, body, h⟩ := exec_issueWith i s word ‹_›
      rw [h, issueWith_sourceTraps ra passes unit full holds l t body traps]
  · have calm : ((useOf i).srcs.any fun x => srcEmpty (myRegs s) x && srcW x) = false := by
      refine Bool.eq_false_iff.mpr fun h => ?_
      obtain ⟨x, mem, e, w⟩ := any_traps_iff.mp h
      exact absurd (w.symm.trans (calm x mem e)) (by decide)
    refine exec_of_issueWith word ra (fun l t body => issueWith_waits ra passes unit full holds l t body calm ?_)
      fun traps => absurd (traps.symm.trans calm) (by decide)
    simpa only [Bool.or_eq_true, List.any_eq_true] using empty

end Sys2Proof.Machine
end

section
/-! SUPPORT. Producers whose result is a value (06 R151), and the proof of the statement about them. -/

namespace Sys2Proof.Machine

theorem sEmpty_markS_same (r : Regs) (n : SReg) (e : Bool) : sEmpty (markS r n e) n = (n != 0 && n != 63 && e) := by
  by_cases hw : n = 0 ∨ n = 63
  · rcases hw with rfl | rfl <;> rfl
  · rw [markS, if_neg hw, sEmpty, getLsbD_setBit, if_pos ⟨rfl, n.isLt⟩]

theorem rdS_markS (r : Regs) (m n : SReg) (e : Bool) : rdS (markS r m e) n = rdS r n := by
  unfold markS
  split <;> rfl

theorem myRegs_produce (s : State) (d : Dest) (p : Prod) :
    myRegs (produce s d p) = { markDest (myRegs s) d true with
      pend := (myRegs s).pend ++ [{ id := s.serial, dest := d, prod := p, priv := (me s).priv.toNat, walks := [] }] } := by
  have h := myRegs_modRegs s fun r => { markDest r d true with
    pend := r.pend ++ [{ id := s.serial, dest := d, prod := p, priv := (me s).priv.toNat, walks := [] }] }
  exact h

section
variable {s : State} {c n : Nat} {p : Pending} {v : Res} {f : FFlags} (value : p.prod = .val v f)
include value

theorem resultOf_val : resultOf s c n p = some (v, f) := by simp only [resultOf, value]

/-- A value waits for no turn: it is there. -/
theorem turnCome_val : turnCome s c n p = false := by simp [turnCome, guardTurnCome, value]

theorem renewed_val : renewed s c p = (s, some p) := by simp only [renewed, value]

theorem settleProd_val : settleProd s c p = s := by simp only [settleProd, planOf, value]

theorem dropStamp_val : dropStamp s c p = s := by simp only [dropStamp, planOf, value]

theorem deliver_val (runs : clockStopped s c = false) :
    deliver s c n p = modBoth s c n fun r => putResult r p v f := by
  have ready : pendReady s c n p = true := by simp [pendReady, runs, resultOf_val value]
  simp [deliver, ready, renewed_val value, deliverNow, turnCome_val value, settleProd_val value, resultOf_val value,
    dropStamp_val value]

end

theorem producerDone_found {s : State} {c n : Nat} {p : Pending} (h : findPend (getCtx s c n) p.id = some p) :
    producerDone s c n p.id = deliver s c n p := by simp only [producerDone, h]

theorem findPend_head {x : Ctx} {p : Pending} {l : List Pending} (h : x.regs.pend = p :: l) :
    findPend x p.id = some p := by
  rw [findPend, h, List.cons_append, List.find?_cons_of_pos]
  exact beq_self_eq_true p.id

theorem putResult_only {r : Regs} {p : Pending} (h : r.pend = [p]) (v : Res) (f : FFlags) :
    putResult r p v f =
      { markDest (wrRes r p.dest v) p.dest false with
        fstat := (markDest (wrRes r p.dest v) p.dest false).fstat ||| f
        pend := (markDest (wrRes r p.dest v) p.dest false).pend.filter fun q => q.id != p.id } := by
  refine if_pos ?_
  rw [h]
  exact List.any_eq_true.mpr ⟨p, List.mem_singleton_self p, beq_self_eq_true p.id⟩

/-- Beside the value and the full/empty bits, a write to an s register changes nothing. -/
theorem markS_wrS_frame (r : Regs) (d : SReg) (v : Word) (e : Bool) :
    (markS (wrS r d v) d e).fstat = r.fstat ∧ (markS (wrS r d v) d e).pend = r.pend := by
  unfold markS wrS
  split <;> exact ⟨rfl, rfl⟩

theorem putResult_scalar {r : Regs} {p : Pending} {d : SReg} (only : r.pend = [p]) (dest : p.dest = .s d) (v : Word)
    (f : FFlags) : sEmpty (putResult r p (.s v) f) d = false ∧
      (d ≠ 0 → d ≠ 63 → rdS (putResult r p (.s v) f) d = v) ∧ (putResult r p (.s v) f).pend = [] ∧
      (putResult r p (.s v) f).fstat = r.fstat ||| f := by
  obtain ⟨fstat, pend⟩ := markS_wrS_frame r d v false
  rw [putResult_only only, dest]
  refine ⟨?_, fun h0 h63 => ?_, ?_, congrArg (· ||| f) fstat⟩
  · exact (sEmpty_markS_same (wrS r d v) d false).trans (Bool.and_false _)
  · calc rdS (markS (wrS r d v) d false) d
        = rdS (wrS r d v) d := rdS_markS _ d d false
      _ = v := (rdS_wrS r d d v h0 h63).trans (if_pos rfl)
  · show (markS (wrS r d v) d false).pend.filter (fun q => q.id != p.id) = []
    rw [pend, only]
    simp

/-- Settles O48: `markDest` marks the destination at issue, and the delivery of a value writes it and marks it FULL. -/
theorem producerResult : Obligations.ProducerResult := by
  refine fun s c n d v f p => ⟨?_, fun runs _ only dest value => ?_⟩
  · have h : sEmpty (myRegs (produce s (.s d) (.val (.s v) f))) d = (d != 0 && d != 63 && true) := by
      rw [myRegs_produce]
      exact sEmpty_markS_same (myRegs s) d true
    rw [h]
    simp
  · rw [producerDone_found (findPend_head only), deliver_val value runs, modBoth, getCtx_modCtx_same]
    exact putResult_scalar only dest v f

end Sys2Proof.Machine
end

section
/-! SUPPORT. The fetch of an instruction and its run (06 R135 to R137, 02 R57), within the gate of the bytes of peers (log
12), and the proofs of the two statements about them. -/

namespace Sys2Proof.Machine

theorem withBrought_nothing {s : State} (h : s.brought = []) (r : FarReader) : withBrought s r = s := by
  simp only [withBrought, h, List.filter_nil]

/-- What is brought changes bytes of peers and no context. -/
theorem getCtx_withBrought (s : State) (r : FarReader) (c n : Nat) : getCtx (withBrought s r) c n = getCtx s c n := by
  unfold withBrought
  split <;> rfl

/-- Where nothing waits for bytes of peers and none were read, the gate lets a next state through. -/
theorem farGate_quiet {s u : State} (read : u.touched = []) (brought : s.brought = []) (stalled : s.stalled = [])
    (room : pairsBurst s u = false) (r : FarReader) : farGate s r (.next u) = .next u := by
  simp [farGate, room, read, brought, stalled]

/-- A step that sends no packet overfills no pair. -/
theorem pairsBurst_samePeers {s u : State} (h : u.peers = s.peers) : pairsBurst s u = false := by
  simp only [pairsBurst, getPeer, h, List.any_eq_false, Bool.and_eq_true, decide_eq_true_eq, not_and]
  exact fun _ _ _ => lt_irrefl _

theorem step_issuing {s : State} (h : s.issuing = true) : step s = runInstr s s.cur.1 s.cur.2 := if_pos h

theorem runInstr_fetched {s t : State} {i : Instr}
    (h : fetchInstr (withBrought { s with issuing := false, waited := false } (instrReader s s.cur.1 s.cur.2)) s.cur.1 s.cur.2 =
      (t, .ok i)) : runInstr s s.cur.1 s.cur.2 = farGate s (instrReader s s.cur.1 s.cur.2) (exec i t) := by
  simp only [runInstr, h]

theorem runInstr_missing {s t : State}
    (h : fetchInstr (withBrought { s with issuing := false, waited := false } (instrReader s s.cur.1 s.cur.2)) s.cur.1 s.cur.2 =
      (t, .error none)) : runInstr s s.cur.1 s.cur.2 = farGate s (instrReader s s.cur.1 s.cur.2) (.next (wait t)) := by
  simp only [runInstr, h]

theorem runInstr_trapped {s t : State} {x : Trap}
    (h : fetchInstr (withBrought { s with issuing := false, waited := false } (instrReader s s.cur.1 s.cur.2)) s.cur.1 s.cur.2 =
      (t, .error (some x))) :
    runInstr s s.cur.1 s.cur.2 = farGate s (instrReader s s.cur.1 s.cur.2) (.next (fetchFailed t s.cur.1 s.cur.2 x)) := by
  simp only [runInstr, h]

/-- Steps 3 to 8 of 06 Table 6.5 pass only what decodes from the bytes at the address. -/
theorem decodeBytes_of_decodeAt {priv pc : Nat} {d : List Byte} {i : Instr} (h : decodeAt priv pc d = .ok i) :
    decodeBytes (d.drop (pc % 32)) = some (.ok i) := by
  unfold decodeAt at h
  dsimp only at h
  split at h
  · cases h
  split at h
  · cases h
  split at h
  · cases h
  split at h
  next => cases h
  next j e => cases h; exact e
  next => cases h
  next =>
    split at h
    · cases h
    · split at h <;> cases h

theorem decodeAt_of_fetchInstr {s t : State} {c n : Nat} {d : List Byte} {i : Instr}
    (block : fetchBlock s c n (getCtx s c n).regs.pc.toNat = (t, .ok d)) (fetched : fetchInstr s c n = (t, .ok i)) :
    decodeAt (getCtx s c n).priv.toNat (getCtx s c n).regs.pc.toNat d = .ok i := by
  simp only [fetchInstr, block, Prod.mk.injEq, true_and] at fetched
  split at fetched
  · cases fetched
    assumption
  · cases fetched

/-- Settles O4: the fetch decides what `runInstr` runs, the gate lets a quiet step through, and a fetch passes only what
`decodeBytes` reads. -/
theorem stepRunsInstruction : Obligations.StepRunsInstruction := by
  refine ⟨fun s t u i issuing => ?_, fun s t c n d i block fetched => ?_⟩
  · refine ⟨fun nothing => withBrought_nothing (s := { s with issuing := false, waited := false }) nothing _, fun fetched => ?_, fun missing => ?_⟩
    · have run := (step_issuing issuing).trans (runInstr_fetched fetched)
      refine ⟨run, fun done read brought stalled room => ?_⟩
      rw [run, done, farGate_quiet read brought stalled room]
    · exact (step_issuing issuing).trans (runInstr_missing missing)
  · exact decodeBytes_of_decodeAt (decodeAt_of_fetchInstr block fetched)

theorem fetchInstr_error {s t : State} {c n : Nat} {e : Option Trap}
    (h : fetchBlock s c n (getCtx s c n).regs.pc.toNat = (t, .error e)) : fetchInstr s c n = (t, .error e) := by
  simp only [fetchInstr, h]

theorem fetchBlock_aperture {s : State} {c n pc : Nat} (h : apOf pc ≠ .glob) :
    fetchBlock s c n pc = (s, .error (some (tAPERTURE pc))) := if_pos h

theorem fetchBlock_misaligned {s : State} {c n pc : Nat} (glob : apOf pc = .glob) (h : badTarget (word pc) = true) :
    fetchBlock s c n pc = (s, .error (some (tMISALIGNED pc))) :=
  (if_neg fun outside => outside glob).trans (if_pos h)

theorem word_toNat (w : Word) : word w.toNat = w := BitVec.eq_of_toNat_eq (by simp [word])

theorem badTarget_iff {w : Word} : badTarget w = true ↔ w.toNat % 4 ≠ 0 ∨ w.toNat % 32 = 28 := by
  simp [badTarget]

/-- A trap of a fetch that waits for nothing, outside run-ahead, INTRAP and firmware privilege, enters the handler. -/
theorem fetchFailed_traps {s : State} {c n code : Nat} (ra : (getCtx s c n).ra = none) (intrap : (getCtx s c n).intrap = false)
    (priv : (getCtx s c n).priv ≠ 2) (h4 : code ≠ 4) (h7 : code ≠ 7) (pc : Word) (here : (getCtx s c n).regs.pc = pc) :
    fetchFailed s c n (mkTrap code pc.toNat) = modCtx s c n fun x =>
      { x with cause := word code, epc := pc, faddr := pc, ppriv := x.priv, priv := 1, intrap := true, stopping := false,
               await := none, regs := { x.regs with pc := x.tvec } } := by
  have go : fetchWaits (getCtx s c n).regs (mkTrap code pc.toNat) = false := by simp [fetchWaits, mkTrap, h4, h7]
  have cause : causeWord { mkTrap code pc.toNat with pages := [] } 6 = word code := by simp [causeWord, mkTrap, h7]
  have faddr : (mkTrap code pc.toNat).faddr = pc := word_toNat pc
  simp only [fetchFailed, ra, go, Option.isSome_none, Bool.false_eq_true, if_false, here]
  rw [takeTrap_plain s c n pc _ 6 h7 intrap priv, faddr]
  exact congrArg (modCtx s c n) (funext fun x => congrArg (fun w => ({ x with
    cause := w, epc := pc, faddr := pc, ppriv := x.priv, priv := 1, intrap := true, stopping := false,
    await := none, regs := { x.regs with pc := x.tvec } } : Ctx)) cause)

/-- Settles O6: the two checks come first in `fetchBlock`, and their traps wait for nothing. -/
theorem fetchChecks : Obligations.FetchChecks := by
  rintro s c n issuing cur ra intrap priv
  obtain ⟨rfl, rfl⟩ := Prod.mk.inj cur
  intro quiet pc start trapped traps
  have same := getCtx_withBrought { s with issuing := false, waited := false } (instrReader s s.cur.1 s.cur.2) s.cur.1 s.cur.2
  have stands : getCtx start s.cur.1 s.cur.2 = getCtx s s.cur.1 s.cur.2 := same
  have taken (code : Nat) (h4 : code ≠ 4) (h7 : code ≠ 7)
      (h : fetchBlock start s.cur.1 s.cur.2 pc.toNat = (start, .error (some (mkTrap code pc.toNat)))) : traps code := by
    have fetched : fetchInstr start s.cur.1 s.cur.2 = (start, .error (some (mkTrap code pc.toNat))) :=
      fetchInstr_error (by rw [stands]; exact h)
    have run := (step_issuing issuing).trans (runInstr_trapped fetched)
    rw [fetchFailed_traps (by rw [stands]; exact ra) (by rw [stands]; exact intrap) (by rw [stands]; exact priv) h4 h7 pc
      (by rw [stands])] at run
    refine ⟨run, fun ⟨touched, brought, stalled⟩ => run.trans ?_⟩
    have untouched : start = { s with issuing := false, waited := false } := withBrought_nothing (s := { s with issuing := false, waited := false }) brought _
    refine farGate_quiet ?_ brought stalled (pairsBurst_samePeers ?_) _
    · rw [modCtx_touched, untouched]; exact touched
    · rw [modCtx_peers, untouched]
  refine ⟨fun outside => taken 5 (by decide) (by decide) (fetchBlock_aperture outside), fun glob bad => ?_⟩
  refine taken 6 (by decide) (by decide) (fetchBlock_misaligned glob ?_)
  rw [word_toNat]
  exact badTarget_iff.mpr bad

end Sys2Proof.Machine
end

section
/-! SUPPORT. Encoding and decoding (06): what the decoder reads of the fields that the encoder wrote. -/

namespace Sys2Proof

/-! Parts of bit vectors. The widths of what is joined stay out of the index of `simp`, which has them added up. -/

section
variable {v w n k len i : Nat}

@[simp] theorem extractLsb'_beyond (x : BitVec w) (h : w ≤ k) : x.extractLsb' k len = 0#len := by
  ext i hi
  simp [BitVec.getLsbD_of_ge x (k + i) (by omega)]

@[simp] theorem extractLsb'_widened (x : BitVec w) (h : w ≤ n) :
    (x.setWidth n).extractLsb' k len = x.extractLsb' k len := by
  refine BitVec.eq_of_getLsbD_eq fun i hi => ?_
  by_cases hk : k + i < n
  · simp [hk, hi]
  · simp [hk, BitVec.getLsbD_of_ge x (k + i) (by omega)]

@[simp] theorem extractLsb'_append_high (x : BitVec v) (y : BitVec w) (h : w ≤ k) :
    (no_index (x ++ y)).extractLsb' k len = x.extractLsb' (k - w) len := BitVec.extractLsb'_append_eq_of_le h

@[simp] theorem extractLsb'_append_low (x : BitVec v) (y : BitVec w) (h : k + len ≤ w) :
    (no_index (x ++ y)).extractLsb' k len = y.extractLsb' k len := BitVec.extractLsb'_append_eq_of_add_le h

@[simp] theorem setWidth_append_low (x : BitVec v) (y : BitVec w) (h : n ≤ w) :
    (no_index (x ++ y)).setWidth n = y.setWidth n := by
  rw [BitVec.setWidth_append, dif_pos h]

@[simp] theorem getElem_append_low (x : BitVec v) (y : BitVec w) (h : i < w) (g : i < v + w) :
    getElem (coll := no_index (BitVec (v + w))) (no_index (x ++ y)) i g = y.getLsbD i := by
  rw [BitVec.getElem_append, dif_pos h, BitVec.getLsbD_eq_getElem]

@[simp] theorem getElem_append_high (x : BitVec v) (y : BitVec w) (h : w ≤ i) (g : i < v + w) :
    getElem (coll := no_index (BitVec (v + w))) (no_index (x ++ y)) i g = x.getLsbD (i - w) := by
  rw [BitVec.getElem_append, dif_neg (Nat.not_lt.mpr h), BitVec.getLsbD_eq_getElem]

end

/-! The setters of the encoder, written out, and what the decoder reads of a word -/

/-- The P and PN fields that 06 R142 admits. -/
def condOk (q : BitVec 3) (neg : Bool) : Bool := !(q == 0 && neg)

@[simp] theorem rawC_eq (op : BitVec 8) (fn : BitVec 6) (c : Cond) :
    rawC op fn c = ⟨op, fn, 0, 0, 0, c.q, c.neg, false, false, 0⟩ := rfl

@[simp] theorem rawP_eq (op : BitVec 8) (fn : BitVec 6) (p : Pred) :
    rawP op fn p = ⟨op, fn, 0, 0, 0, p.p, p.neg, false, false, 0⟩ := rfl

namespace Raw

section
variable (r : Raw)

@[simp] theorem setD_eq (d : BitVec 6) : r.setD d = { r with d } := rfl
@[simp] theorem setA_eq (a : SSrc) : r.setA a = { r with a := a.r, wa := a.w } := rfl
@[simp] theorem setB_eq (b : SSrc) : r.setB b = { r with b := b.r, wb := b.w } := rfl
@[simp] theorem setVa_eq (a : VSrc) : r.setVa a = { r with a := a.r.setWidth 6, wa := a.w } := rfl
@[simp] theorem setVb_eq (b : VSrc) : r.setVb b = { r with b := b.r.setWidth 6, wb := b.w } := rfl
@[simp] theorem setQa_eq (a : QSrc) : r.setQa a = { r with a := a.r.setWidth 6, wa := a.w } := rfl
@[simp] theorem setQb_eq (b : QSrc) : r.setQb b = { r with b := b.r.setWidth 6, wb := b.w } := rfl
@[simp] theorem setI_eq (imm : BitVec 24) : r.setI imm = { r with imm } := rfl

@[simp] theorem c_eq : r.c = ⟨r.p, r.pn⟩ := rfl
@[simp] theorem pr_eq : r.pr = ⟨r.p, r.pn⟩ := rfl
@[simp] theorem cOk_eq : r.cOk = condOk r.p r.pn := rfl
@[simp] theorem sa_eq : r.sa = ⟨r.a, r.wa⟩ := rfl
@[simp] theorem sb_eq : r.sb = ⟨r.b, r.wb⟩ := rfl
@[simp] theorem sc_eq : r.sc = ⟨r.cf, r.wc⟩ := rfl
@[simp] theorem va_eq : r.va = ⟨v5 r.a, r.wa⟩ := rfl
@[simp] theorem vb_eq : r.vb = ⟨v5 r.b, r.wb⟩ := rfl
@[simp] theorem vc_eq : r.vc = ⟨v5 r.cf, r.wc⟩ := rfl
@[simp] theorem zd_eq : r.zd = (r.d == 0) := rfl
@[simp] theorem za_eq : r.za = (r.a == 0 && !r.wa) := rfl
@[simp] theorem zb_eq : r.zb = (r.b == 0 && !r.wb) := rfl
@[simp] theorem zi_eq : r.zi = (r.imm == 0) := rfl
@[simp] theorem n4_eq : r.n4 = r.imm.setWidth 4 := rfl

section
variable (cf : BitVec 6) (wc : Bool) (i : BitVec 17)

@[simp] theorem op_set3 : (r.set3 cf wc i).op = r.op := rfl
@[simp] theorem fn_set3 : (r.set3 cf wc i).fn = r.fn := rfl
@[simp] theorem d_set3 : (r.set3 cf wc i).d = r.d := rfl
@[simp] theorem a_set3 : (r.set3 cf wc i).a = r.a := rfl
@[simp] theorem b_set3 : (r.set3 cf wc i).b = r.b := rfl
@[simp] theorem p_set3 : (r.set3 cf wc i).p = r.p := rfl
@[simp] theorem pn_set3 : (r.set3 cf wc i).pn = r.pn := rfl
@[simp] theorem wa_set3 : (r.set3 cf wc i).wa = r.wa := rfl
@[simp] theorem wb_set3 : (r.set3 cf wc i).wb = r.wb := rfl

@[simp] theorem cf_set3 : (r.set3 cf wc i).cf = cf := BitVec.extractLsb'_append_eq_right

@[simp] theorem wc_set3 : (r.set3 cf wc i).wc = wc := by
  simp [Raw.wc, set3]

@[simp] theorem i17_set3 : (r.set3 cf wc i).i17 = i :=
  calc (i ++ BitVec.ofBool wc ++ cf).extractLsb' 7 17
      = (i ++ BitVec.ofBool wc).extractLsb' 1 17 := extractLsb'_append_high _ cf (by decide)
    _ = i.extractLsb' 0 17 := extractLsb'_append_high i _ (by decide)
    _ = i := BitVec.extractLsb'_eq_self

end

/-- A value of no more than n bits leaves the bits of IMM24 from n upward zero. -/
@[simp] theorem ziFrom_eq_true {w n : Nat} (x : BitVec w) (h : w ≤ n) (imm : r.imm = x.setWidth 24) :
    r.ziFrom n = true := by
  have lt : x.toNat < 2 ^ n := lt_of_lt_of_le x.isLt (Nat.pow_le_pow_right (by decide) h)
  simp only [ziFrom, imm, BitVec.toNat_setWidth, decide_eq_true_eq]
  exact lt_of_le_of_lt (Nat.mod_le _ _) lt

@[simp] theorem z17From_set3 {w n : Nat} (cf : BitVec 6) (wc : Bool) (x : BitVec w) (h : w ≤ n) :
    (r.set3 cf wc (x.setWidth 17)).z17From n = true := by
  have lt : x.toNat < 2 ^ n := lt_of_lt_of_le x.isLt (Nat.pow_le_pow_right (by decide) h)
  simp only [z17From, i17_set3, BitVec.toNat_setWidth, decide_eq_true_eq]
  exact lt_of_le_of_lt (Nat.mod_le _ _) lt

@[simp] theorem withImm_ext (op : BitVec 8) (fn d a b : BitVec 6) (p : BitVec 3) (pn wa wb : Bool) (v : Imm)
    (k : Imm → Bool → DRes) : withImm ⟨op, fn, d, a, b, p, pn, wa, wb, v.low⟩ v.ext k = k v true := by
  cases v <;> rfl

@[simp] theorem withImm17_ext (cf : BitVec 6) (wc : Bool) (v : Imm17) (k : Imm17 → Bool → DRes) :
    withImm17 (r.set3 cf wc v.low) v.ext k = k v true := by
  cases v <;> simp [withImm17, Imm17.low, Imm17.ext]

end

section
variable (op : BitVec 8) (fn d a b : BitVec 6) (p : BitVec 3) (pn wa wb : Bool)

@[simp] theorem ziFrom_mk {w n : Nat} (x : BitVec w) (h : w ≤ n) :
    (Raw.mk op fn d a b p pn wa wb (x.setWidth 24)).ziFrom n = true := ziFrom_eq_true _ x h rfl

@[simp] theorem ziFrom_mk_zero (n : Nat) : (Raw.mk op fn d a b p pn wa wb 0#24).ziFrom n = true :=
  ziFrom_eq_true _ 0#0 (Nat.zero_le n) rfl

end

end Raw

@[simp] theorem only64_none (k : DRes) : only64 .none k = k := rfl
@[simp] theorem only128_w64 (w : BitVec 64) (k : BitVec 64 → DRes) : only128 (.w64 w) k = k w := rfl
@[simp] theorem sh_true (i : Instr) : sh true true true i = .ok i := rfl

/-! Registers of the smaller files in a register field -/

@[simp] theorem v5_setWidth (x : VReg) : v5 (x.setWidth 6) = x := by simp [v5]
@[simp] theorem okV_setWidth (x : VReg) : okV (x.setWidth 6) = true := by simp [okV]
@[simp] theorem ok8_setWidth (x : BitVec 3) : ok8 (x.setWidth 6) = true := by simp [ok8]
@[simp] theorem ok4_setWidth (x : BitVec 2) : ok4 (x.setWidth 6) = true := by simp [ok4]
@[simp] theorem ok16_setWidth (x : AReg) : ok16 (x.setWidth 6) = true := by simp [ok16]

/-! Codes (06 Table 6.9) -/

@[simp] theorem sizeOf2_code (t : Size) : sizeOf2 t.code = t := by cases t <;> rfl
@[simp] theorem scopeOf_code (t : Scope) : scopeOf t.code = some t := by cases t <;> rfl
@[simp] theorem rmOf_code (t : RMode) : rmOf t.code = t := by cases t <;> rfl
@[simp] theorem elemOf_code (t : ElemT) : elemOf t.code = some t := by cases t <;> rfl
@[simp] theorem fpOf_code (t : FpT) : fpOf t.elem.code = some t := by cases t <;> rfl
@[simp] theorem intOf_code (t : IntT) : intOf t.elem.code = some t := by cases t <;> rfl
@[simp] theorem cmpTOf_code (t : CmpT) : cmpTOf t.elem.code = some t := by cases t <;> rfl
@[simp] theorem dotOf_code (t : DotT) : dotOf (t.elem.code.setWidth 6) = some t := by cases t <;> rfl
@[simp] theorem ccOf_code (t : CmpCond) : ccOf t.code = t := by cases t <;> rfl
@[simp] theorem logOf_code (t : LogOp) : logOf t.code = some t := by cases t <;> rfl
@[simp] theorem redOf_code (t : RedOp) : redOf t.code = some t := by cases t <;> rfl
@[simp] theorem amoOf_code (t : AmoOp) : amoOf t.code = some t := by cases t <;> rfl

@[simp] theorem logOf_not : logOf 4#6 = none := rfl
@[simp] theorem logOf_mov : logOf 5#6 = none := rfl

theorem vcondOf_bad : ∀ n : BitVec 3, vcondOf (1#1 ++ n) = .bad n := by decide

@[simp] theorem vcondOf_code (t : VCond) : vcondOf t.code = t := by
  cases t with
  | bad n => exact vcondOf_bad n
  | _ => rfl

/-! Flags of an FN field -/

@[simp] theorem fnAt_zero (b : Bool) : fnAt b 0 = fnBit b := by cases b <;> rfl
@[simp] theorem fnBit_beq_one (b : Bool) : (fnBit b == 1#6) = b := by cases b <;> decide
@[simp] theorem fnBit_beq_zero (b : Bool) : (fnBit b == 0#6) = !b := by cases b <;> decide

theorem getLsbD_fnAt (b : Bool) (n i : Nat) : (fnAt b n).getLsbD i = (decide (i < 6) && decide (i = n) && b) := by
  cases b
  · simp [fnAt]
  · simp only [fnAt, if_true, BitVec.getLsbD_shiftLeft, BitVec.getLsbD_one]
    grind

@[simp] theorem getElem_fnAt (b : Bool) (n i : Nat) (h : i < 6) : (fnAt b n)[i] = (decide (i = n) && b) := by
  rw [← BitVec.getLsbD_eq_getElem, getLsbD_fnAt]
  simp [h]

@[simp] theorem extractLsb'_fnAt (b : Bool) {n k len : Nat} (h : n < k ∨ k + len ≤ n) :
    (fnAt b n).extractLsb' k len = 0#len := by
  ext i hi
  have outside : k + i ≠ n := by omega
  simp [getLsbD_fnAt, outside]

@[simp] theorem setWidth_fnAt (b : Bool) {n w : Nat} (h : w ≤ n) : (fnAt b n).setWidth w = 0#w := by
  ext i hi
  have outside : i ≠ n := by omega
  simp [getLsbD_fnAt, outside]

@[simp] theorem getElem_fnBit (b : Bool) (i : Nat) (h : i < 6) : (fnBit b)[i] = (decide (i = 0) && b) := by
  rw [← fnAt_zero, getElem_fnAt]

@[simp] theorem extractLsb'_fnBit (b : Bool) {k len : Nat} (h : 0 < k) : (fnBit b).extractLsb' k len = 0#len := by
  rw [← fnAt_zero, extractLsb'_fnAt b (.inl h)]

section
variable (b : Bool)

@[simp] theorem imm_or_fnBit_ne_one : 0x20#6 ||| fnBit b ≠ 1#6 := by cases b <;> decide
@[simp] theorem imm_or_fnBit_even : 0x20#6 ||| fnBit b = 0x20#6 ↔ b = false := by cases b <;> decide
@[simp] theorem imm_or_fnBit_beq_odd : (0x20#6 ||| fnBit b == 0x21#6) = b := by cases b <;> decide

end

/-! Guards (09 R227) -/

/-- The four bits of an operand doubleword that hold its guard. -/
def guardTop : Option GReg → BitVec 4
  | none => 0
  | some g => 1#1 ++ g

theorem guardBits_some : ∀ g : GReg, guardBits (some g) = 1#1 ++ g ++ 0#60 := by decide

theorem guardBits_eq (g : Option GReg) : guardBits g = guardTop g ++ 0#60 := by
  cases g with
  | none => rfl
  | some g => exact guardBits_some g

@[simp] theorem guardBits_or {n : Nat} (g : Option GReg) (x : BitVec n) (h : n ≤ 60) :
    guardBits g ||| x.setWidth 64 = guardTop g ++ x.setWidth 60 := by
  have lt : x.toNat < 2 ^ 60 := lt_of_lt_of_le x.isLt (Nat.pow_le_pow_right (by decide) h)
  have split : x.setWidth 64 = 0#4 ++ x.setWidth 60 := by
    refine BitVec.eq_of_toNat_eq ((BitVec.toNat_setWidth 64 x).trans ?_)
    rw [BitVec.toNat_append, BitVec.toNat_setWidth, Nat.mod_eq_of_lt lt, Nat.mod_eq_of_lt (lt.trans (by decide))]
    simp
  rw [guardBits_eq, split, BitVec.or_append, BitVec.or_zero, BitVec.zero_or]

@[simp] theorem dwGuardOk_top (g : Option GReg) (y : BitVec 60) : dwGuardOk (guardTop g ++ y) = true := by
  cases g <;> simp [dwGuardOk, guardTop]

@[simp] theorem dwGuard_top (g : Option GReg) (y : BitVec 60) : dwGuard (guardTop g ++ y) = g := by
  cases g <;> simp [dwGuard, guardTop]

theorem dwZero_append (t : BitVec 4) (y : BitVec 60) (n : Nat) : dwZero (t ++ y) n = decide (y.toNat < 2 ^ n) := by
  rw [dwZero, ← BitVec.toNat_setWidth, BitVec.setWidth_append_eq_right]

@[simp] theorem dwZero_top {m n : Nat} (t : BitVec 4) (x : BitVec m) (h : m ≤ n) :
    dwZero (t ++ x.setWidth 60) n = true := by
  have lt : x.toNat < 2 ^ n := lt_of_lt_of_le x.isLt (Nat.pow_le_pow_right (by decide) h)
  simp only [dwZero_append, BitVec.toNat_setWidth, decide_eq_true_eq]
  exact lt_of_le_of_lt (Nat.mod_le _ _) lt

@[simp] theorem dwZero_top_zero (t : BitVec 4) (n : Nat) : dwZero (t ++ 0#60) n = true :=
  dwZero_top t 0#0 (Nat.zero_le n)

section
variable (g : Option GReg)

@[simp] theorem dwGuardOk_guardBits : dwGuardOk (guardBits g) = true := by rw [guardBits_eq, dwGuardOk_top]
@[simp] theorem dwGuard_guardBits : dwGuard (guardBits g) = g := by rw [guardBits_eq, dwGuard_top]
@[simp] theorem dwZero_guardBits (n : Nat) : dwZero (guardBits g) n = true := by rw [guardBits_eq, dwZero_top_zero]

end

/-! The shapes that several majors share, written out -/

section
variable (fn : BitVec 6) (n : Nat) (mk : Instr) (r : Raw) (x : Ext)

@[simp] theorem decUn_eq : decUn mk r x =
    only64 x (sh (r.fn == 0) (r.cOk && r.zb && r.zi) true mk) := rfl
@[simp] theorem decPlain_eq : decPlain fn n mk r x =
    only64 x (sh (r.fn == fn) (r.cOk && r.zd && r.za && r.zb && r.ziFrom n) true mk) := rfl
@[simp] theorem decA_eq : decA fn n mk r x =
    only64 x (sh (r.fn == fn) (r.cOk && r.zd && r.zb && r.ziFrom n) true mk) := rfl
@[simp] theorem decD_eq : decD fn n mk r x =
    only64 x (sh (r.fn == fn) (r.cOk && r.za && r.zb && r.ziFrom n) true mk) := rfl
@[simp] theorem decDA_eq : decDA fn n mk r x =
    only64 x (sh (r.fn == fn) (r.cOk && r.zb && r.ziFrom n) true mk) := rfl
@[simp] theorem decAB_eq : decAB fn n mk r x =
    only64 x (sh (r.fn == fn) (r.cOk && r.zd && r.ziFrom n) true mk) := rfl
@[simp] theorem decV1_eq : decV1 mk r x =
    only64 x (sh (r.fn == 0) (r.cOk && r.zb && r.zi) (okV r.d && okV r.a) mk) := rfl

end

end Sys2Proof
end

section
/-! SUPPORT. Words that are no instruction: of P 0 with PN 1 (06 R142), and of a major that Table 6.6 leaves out
(06 R147). -/

namespace Sys2Proof

/-! Words of P 0 with PN 1 (06 R142) -/

/-- A result that is no instruction. -/
def Refused (d : DRes) : Prop := ∀ i, d ≠ .ok i

@[simp] theorem refused_error (e : DErr) : Refused (.error e) := fun _ h => by cases h

@[simp] theorem refused_sh_unclean (listed regs : Bool) (i : Instr) : Refused (sh listed false regs i) := by
  cases listed <;> exact refused_error _

section
variable {r : Raw} {x : Ext}

@[simp] theorem refused_only64 {k : DRes} (h : Refused k) : Refused (only64 x k) := by
  cases x with
  | none => exact h
  | w32 | w64 => exact refused_error _

@[simp] theorem refused_only128 {k : BitVec 64 → DRes} (h : ∀ w, Refused (k w)) : Refused (only128 x k) := by
  cases x with
  | w64 w => exact h w
  | none | w32 => exact refused_error _

@[simp] theorem refused_withImm {k : Imm → Bool → DRes} (h : ∀ i cl, Refused (k i cl)) :
    Refused (withImm r x k) := by
  cases x with
  | none | w32 => exact h _ _
  | w64 => exact refused_error _

@[simp] theorem refused_withImm17 {k : Imm17 → Bool → DRes} (h : ∀ i cl, Refused (k i cl)) :
    Refused (withImm17 r x k) := by
  cases x with
  | none | w32 => exact h _ _
  | w64 => exact refused_error _

@[simp] theorem refused_ite_iff {p : Prop} [Decidable p] {a b : DRes} :
    Refused (if p then a else b) ↔ (p → Refused a) ∧ (¬ p → Refused b) := by
  split <;> simp [*]

variable (hc : condOk r.p r.pn = false)
include hc

theorem refused_decVfp (mk : FpT → VOpB → Instr) : Refused (decVfp mk r x) := by
  unfold decVfp
  split <;> simp [hc]

theorem refused_decVfp3 (mk : FpT → VOpB → VSrc → Instr) : Refused (decVfp3 mk r x) := by
  unfold decVfp3
  split <;> simp [hc]

theorem refused_decVfp1 (mk : FpT → Instr) : Refused (decVfp1 mk r x) := by
  unfold decVfp1
  split <;> simp [hc]

theorem refused_decVint (mk : IntT → VIOpB → Instr) : Refused (decVint mk r x) := by
  unfold decVint
  split <;> simp [hc]

theorem refused_decControl : Refused (decControl r x) := by
  unfold decControl
  split
  case h_2 | h_6 => split <;> simp [hc]
  all_goals simp [hc]

theorem refused_decInteger : Refused (decInteger r x) := by
  unfold decInteger
  split <;> simp [decAlu, decExt, decField, hc]

theorem refused_decScalarMem : Refused (decScalarMem r x) := by
  unfold decScalarMem
  split
  case h_3 | h_4 => split <;> simp [hc]
  all_goals simp [hc]

theorem refused_decTask : Refused (decTask r x) := by
  unfold decTask
  split
  case h_1 => split <;> simp [hc]
  all_goals simp [hc]

theorem refused_decVecFp : Refused (decVecFp r x) := by
  unfold decVecFp
  split <;> simp [refused_decVfp hc, refused_decVfp3 hc, refused_decVfp1 hc, hc]

theorem refused_decVecInt : Refused (decVecInt r x) := by
  unfold decVecInt
  split <;> simp [refused_decVint hc]

theorem refused_decVecMisc : Refused (decVecMisc r x) := by
  unfold decVecMisc
  split
  case h_1 | h_3 | h_6 | h_16 | h_17 | h_18 => split <;> simp [hc]
  all_goals simp [decSel6, hc]

theorem refused_decVecMem : Refused (decVecMem r x) := by
  unfold decVecMem
  split <;> simp [hc]

theorem refused_decCopySync : Refused (decCopySync r x) := by
  unfold decCopySync
  split
  case h_4 | h_5 | h_6 | h_7 | h_8 | h_9 => split <;> simp [hc]
  all_goals simp [hc]

theorem refused_decMatrix : Refused (decMatrix r x) := by
  unfold decMatrix
  split
  case h_9 => split <;> simp [hc]
  all_goals simp [hc]

theorem refused_decRetrieval : Refused (decRetrieval r x) := by
  unfold decRetrieval
  split
  case h_8 => split <;> simp [hc]
  all_goals simp [hc]

theorem refused_decTrace : Refused (decTrace r x) := by
  unfold decTrace
  split <;> simp [hc]

theorem refused_decStack : Refused (decStack r x) := by
  unfold decStack
  split
  case h_6 | h_7 => split <;> simp [hc]
  all_goals simp [hc]

theorem refused_decPrivileged : Refused (decPrivileged r x) := by
  unfold decPrivileged
  split <;> simp [hc]

end

/-- A word of P 0 with PN 1 is refused in every group of majors. -/
theorem refused_decodeRaw {r : Raw} (x : Ext) (hc : condOk r.p r.pn = false) : Refused (decodeRaw r x) := by
  simp [decodeRaw, refused_decControl hc, refused_decInteger hc, refused_decScalarMem hc, refused_decTask hc,
    refused_decVecFp hc, refused_decVecInt hc, refused_decVecMisc hc, refused_decVecMem hc, refused_decCopySync hc, refused_decMatrix hc,
    refused_decRetrieval hc, refused_decTrace hc, refused_decStack hc, refused_decPrivileged hc]

/-! Unassigned majors (06 R147, Table 6.6) -/

/-- The majors that Table 6.6 leaves out. -/
def Unassigned (op : BitVec 8) : Prop :=
  op = 0 ∨ op = 0x2F ∨ op = 0x37 ∨ (0x71 ≤ op.toNat ∧ op.toNat ≤ 0x7F) ∨ (0x8A ≤ op.toNat ∧ op.toNat ≤ 0x8F) ∨
    (0x99 ≤ op.toNat ∧ op.toNat ≤ 0x9F) ∨ (0xAD ≤ op.toNat ∧ op.toNat ≤ 0xAF) ∨ op = 0xC7 ∨
    (0xCE ≤ op.toNat ∧ op.toNat ≤ 0xDF) ∨ 0xEF ≤ op.toNat

section
variable {r : Raw} {x : Ext} (h : Unassigned r.op)
include h

theorem decControl_unassigned : decControl r x = .error .illegal := by
  unfold decControl
  split <;> simp_all [Unassigned]

theorem decInteger_unassigned : decInteger r x = .error .illegal := by
  unfold decInteger
  split <;> simp_all [Unassigned]

theorem decScalarMem_unassigned : decScalarMem r x = .error .illegal := by
  unfold decScalarMem
  split <;> simp_all [Unassigned]

theorem decTask_unassigned : decTask r x = .error .illegal := by
  unfold decTask
  split <;> simp_all [Unassigned]

theorem decVecFp_unassigned : decVecFp r x = .error .illegal := by
  unfold decVecFp
  split <;> simp_all [Unassigned]

theorem decVecInt_unassigned : decVecInt r x = .error .illegal := by
  unfold decVecInt
  split <;> simp_all [Unassigned]

theorem decVecMisc_unassigned : decVecMisc r x = .error .illegal := by
  unfold decVecMisc
  split <;> simp_all [Unassigned]

theorem decVecMem_unassigned : decVecMem r x = .error .illegal := by
  unfold decVecMem
  split <;> simp_all [Unassigned]

theorem decCopySync_unassigned : decCopySync r x = .error .illegal := by
  unfold decCopySync
  split <;> simp_all [Unassigned]

theorem decMatrix_unassigned : decMatrix r x = .error .illegal := by
  unfold decMatrix
  split <;> simp_all [Unassigned]

theorem decRetrieval_unassigned : decRetrieval r x = .error .illegal := by
  unfold decRetrieval
  split <;> simp_all [Unassigned]

theorem decTrace_unassigned : decTrace r x = .error .illegal := by
  unfold decTrace
  split <;> simp_all [Unassigned]

theorem decStack_unassigned : decStack r x = .error .illegal := by
  unfold decStack
  split <;> simp_all [Unassigned]

theorem decPrivileged_unassigned : decPrivileged r x = .error .illegal := by
  unfold decPrivileged
  split <;> simp_all [Unassigned]

end

theorem decodeRaw_unassigned {r : Raw} (x : Ext) (h : Unassigned r.op) : decodeRaw r x = .error .illegal := by
  simp only [decodeRaw, decControl_unassigned h, decInteger_unassigned h, decScalarMem_unassigned h,
    decTask_unassigned h, decVecFp_unassigned h, decVecInt_unassigned h, decVecMisc_unassigned h, decVecMem_unassigned h,
    decCopySync_unassigned h, decMatrix_unassigned h, decRetrieval_unassigned h, decTrace_unassigned h,
    decStack_unassigned h, decPrivileged_unassigned h, ite_self]

/-- Settles O3: the majors that Table 6.6 leaves out fall to the last case of every group, and a condition that never
holds leaves no form of any group clean. -/
theorem unassignedMajors : Obligations.UnassignedMajors :=
  ⟨fun _ x h => decodeRaw_unassigned x h, fun _ x i hp hpn => refused_decodeRaw x (by simp [condOk, hp, hpn]) i⟩

end Sys2Proof
end

section
/-! SUPPORT. The bytes of an instruction (06 R135): a word and its extension, read back from memory. -/

namespace Sys2Proof

/-! Bytes (00 R4) -/

@[simp] theorem length_leBytes (n v : Nat) : (leBytes n v).length = n := by
  induction n generalizing v with
  | zero => rfl
  | succ n ih => simp [leBytes, ih]

theorem leNat_leBytes (n v : Nat) : leNat (leBytes n v) = v % 256 ^ n := by
  induction n generalizing v with
  | zero => simp [leBytes, leNat, Nat.mod_one]
  | succ n ih => simp [leBytes, leNat, ih, Nat.pow_succ', Nat.mod_mul]

theorem leNat_leBytes_of_lt {n v : Nat} (h : v < 256 ^ n) : leNat (leBytes n v) = v := by
  rw [leNat_leBytes, Nat.mod_eq_of_lt h]

/-! The word of the fields (06 Table 6.2) -/

theorem boolBit_le_one (b : Bool) : boolBit b ≤ 1 := by cases b <;> decide

theorem boolBit_beq_one (b : Bool) : (boolBit b == 1) = b := by cases b <;> rfl

theorem Raw.pack_lt (r : Raw) {l : Nat} (h : l < 4) : r.pack l < 256 ^ 8 := by
  have := boolBit_le_one r.pn
  have := boolBit_le_one r.wa
  have := boolBit_le_one r.wb
  unfold Raw.pack
  omega

theorem Raw.pack_mod_four (r : Raw) {l : Nat} (h : l < 4) : r.pack l % 4 = l := by
  unfold Raw.pack
  omega

theorem Raw.unpack_pack (r : Raw) {l : Nat} (h : l < 4) : Raw.unpack (r.pack l) = r := by
  have := boolBit_le_one r.pn
  have := boolBit_le_one r.wa
  have := boolBit_le_one r.wb
  have pn : r.pack l / 137438953472 % 2 = boolBit r.pn := by unfold Raw.pack; omega
  have wa : r.pack l / 274877906944 % 2 = boolBit r.wa := by unfold Raw.pack; omega
  have wb : r.pack l / 549755813888 % 2 = boolBit r.wb := by unfold Raw.pack; omega
  unfold Raw.unpack
  rw [pn, wa, wb]
  simp only [boolBit_beq_one]
  rcases r with ⟨op, fn, d, a, b, p, pn, wa, wb, imm⟩
  congr <;> apply BitVec.eq_of_toNat_eq <;> simp only [BitVec.toNat_ofNat, Raw.pack] at * <;> omega

/-! The bytes of an instruction (06 R135) -/

theorem Ext.lcode_lt (x : Ext) : x.lcode < 4 := by cases x <;> simp [Ext.lcode]

theorem decodeBytes_pack (r : Raw) (x : Ext) (rest : List Byte) :
    decodeBytes (leBytes 8 (r.pack x.lcode) ++ x.bytes ++ rest) = some (decodeRaw r x) := by
  have word : leNat (leBytes 8 (r.pack x.lcode)) = r.pack x.lcode := leNat_leBytes_of_lt (r.pack_lt x.lcode_lt)
  have code : r.pack x.lcode % 4 = x.lcode := r.pack_mod_four x.lcode_lt
  have fields : Raw.unpack (r.pack x.lcode) = r := r.unpack_pack x.lcode_lt
  cases x with
  | none =>
    simp only [Ext.lcode] at word code fields
    simp [decodeBytes, Ext.bytes, Ext.lcode, word, code, fields]
  | w32 v =>
    have imm : leNat (leBytes 4 v.toNat) = v.toNat := leNat_leBytes_of_lt v.isLt
    have long : 12 ≤ 8 + (4 + rest.length) := by omega
    simp only [Ext.lcode] at word code fields
    simp [decodeBytes, Ext.bytes, Ext.lcode, word, code, fields, imm, long]
  | w64 v =>
    have imm : leNat (leBytes 8 v.toNat) = v.toNat := leNat_leBytes_of_lt v.isLt
    have long : 16 ≤ 8 + (8 + rest.length) := by omega
    simp only [Ext.lcode] at word code fields
    simp [decodeBytes, Ext.bytes, Ext.lcode, word, code, fields, imm, long]

theorem length_bytes_of_encodeRaw {i : Instr} {r : Raw} {x : Ext} (h : encodeRaw i = some (r, x)) :
    8 + x.bytes.length = i.len := by
  cases x <;> simp [Instr.len, h, Ext.bytes]

end Sys2Proof
end

section
/-! SUPPORT. The round trip of every form: encoded by 06 R139 to R145 and the tables of each chapter, and decoded. -/

namespace Sys2Proof

/-- The instruction is encoded, and its word and extension decode to it. -/
def RoundTrips (i : Instr) : Prop := ∃ r x, encodeRaw i = some (r, x) ∧ decodeRaw r x = .ok i

/-- The condition of a well-formed instruction may be assumed to be one that 06 R142 admits. -/
theorem RoundTrips.intro {i : Instr} {q : BitVec 3} {neg : Bool} {r : Raw} {x : Ext} (h : i.wf = true)
    (hp : i.pField = (q, neg)) (he : encodeRaw i = some (r, x))
    (hd : condOk q neg = true → decodeRaw r x = .ok i) : RoundTrips i := by
  simp only [Instr.wf, hp, Bool.and_eq_true] at h
  exact ⟨r, x, he, hd h.1.2⟩

theorem formOk_of_wf {i : Instr} (h : i.wf = true) : i.formOk = true := by
  simp only [Instr.wf, Bool.and_eq_true] at h
  exact h.2

/-! By the families of forms of each group of majors (06 Table 6.6), an operand with several forms split -/

theorem roundTrips_of_isVector {i : Instr} (h : i.wf = true) (hv : Machine.isVector i = true) : RoundTrips i := by
  cases i with
  -- vector floating point and integer (08)
  | vadd _ _ _ _ b | vsub _ _ _ _ b | vmul _ _ _ _ b | vmin _ _ _ _ b | vmax _ _ _ _ b =>
    cases b <;> exact .intro h rfl rfl fun hc => by
      simp [decodeRaw, decVecFp, decVfp, encVfp, Raw.setVop, decVOpB, okVOpB, BitVec.setWidth_or, hc]
  | vfma _ _ _ _ b | vfms _ _ _ _ b | vfnma _ _ _ _ b =>
    cases b <;> exact .intro h rfl rfl fun hc => by
      simp [decodeRaw, decVecFp, decVfp3, encVfp, Raw.setVop, decVOpB, okVOpB, BitVec.setWidth_or, hc]
  | vdiv _ _ _ b =>
    cases b <;> exact .intro h rfl rfl fun hc => by simp [decodeRaw, decVecFp, encV1, Raw.setVop, decVOpB, okVOpB, hc]
  | vabs | vneg | vrcp | vrsq | vrsqe | vsqrt | vexp2 | vlog2 | vclass =>
    exact .intro h rfl rfl fun hc => by simp [decodeRaw, decVecFp, decVfp1, encV1, hc]
  | viadd _ _ _ _ b | visub _ _ _ _ b | vimul _ _ _ _ b | vimulh _ _ _ _ b | vand _ _ _ _ b | vor _ _ _ _ b
  | vxor _ _ _ _ b | vshl _ _ _ _ b | vshr _ _ _ _ b | vsar _ _ _ _ b | vimin _ _ _ _ b | vimax _ _ _ _ b
  | vqadd _ _ _ _ b =>
    cases b <;> exact .intro h rfl rfl fun hc => by
      simp [decodeRaw, decVecInt, decVint, BitVec.extractLsb'_or, BitVec.setWidth_or, hc]
  -- compare, select, convert, move, reduce (08)
  | vcmp _ _ _ _ _ b | vsel _ _ _ _ b =>
    cases b <;> exact .intro h rfl rfl fun hc => by
      simp [decodeRaw, decVecMisc, encV1, Raw.setVop, decVOpB, okVOpB, BitVec.setWidth_or, hc]
  | plog _ _ _ o => cases o <;> exact .intro h rfl rfl fun hc => by simp [decodeRaw, decVecMisc, hc]
  | vbcast _ sz => cases sz <;> exact .intro h rfl rfl fun hc => by simp [decodeRaw, decVecMisc, BcSize.code, hc]
  | vextr _ _ _ n | vins _ _ _ n | vrot _ _ _ n =>
    cases n <;> exact .intro h rfl rfl fun hc => by simp [decodeRaw, decVecMisc, decSel6, encSel, encV1, hc]
  | pcnt | pfirst | vcvt | vqnt | vdqnt | vshuf | viota | vmov | vred | vscan | vdot =>
    exact .intro h rfl rfl fun hc => by simp [decodeRaw, decVecMisc, encV1, hc]
  -- vector memory (08)
  | vld | vst | vlds | vsts | vgth | vsct | vldsy | strm | spopStream | spopFifo | spush =>
    exact .intro h rfl rfl fun hc => by
      simp [decodeRaw, decVecMem, BitVec.extractLsb'_or, BitVec.setWidth_or, hc]
  | _ => nomatch hv

theorem roundTrips_of_isEngine {i : Instr} (h : i.wf = true) (he : Machine.isEngine i = true) : RoundTrips i := by
  cases i with
  -- copies (08)
  | cpy | cpy2d | cpyst =>
    exact .intro h rfl rfl fun hc => by simp [decodeRaw, decCopySync, hc]
  | cpyw _ all tag =>
    cases all with
    | false => exact .intro h rfl rfl fun hc => by simp [decodeRaw, decCopySync, hc]
    | true =>
      obtain rfl : tag = 0 := by simpa [Instr.formOk] using formOk_of_wf h
      exact .intro h rfl rfl fun hc => by simp [decodeRaw, decCopySync, Raw.ziFrom, hc]
  -- matrix and retrieval (09)
  | mlease | mrel | mls | mma | mmag | mldt | mst | mstat | gclr | gclrR | mwait =>
    exact .intro h rfl rfl fun hc => by simp [decodeRaw, decMatrix, BitVec.extractLsb'_or, hc]
  | mrot _ _ _ _ _ load =>
    cases load <;> exact .intro h rfl rfl fun hc => by simp [decodeRaw, decMatrix, BitVec.extractLsb'_or, hc]
  | mzero _ _ _ form => cases form <;> exact .intro h rfl rfl fun hc => by simp [decodeRaw, decMatrix, hc]
  | gset _ _ v => cases v <;> exact .intro h rfl rfl fun hc => by simp [decodeRaw, decMatrix, hc]
  | rtset | rtsetInit | rhv | rins | rdel | rhash | rhashFifo | rdirty | rfence | rstat =>
    exact .intro h rfl rfl fun hc => by simp [decodeRaw, decRetrieval, hc]
  | rprobe _ _ _ _ _ _ spill =>
    cases spill <;> exact .intro h rfl rfl fun hc => by simp [decodeRaw, decRetrieval, hc]
  -- trace, reward, stack, collective (10)
  | trate | treg | tregInit | tregX | tstep | tadv | tadvr | trd | tclrE | tclrD | rwd | rwdC | rwdw =>
    exact .intro h rfl rfl fun hc => by simp [decodeRaw, decTrace, hc]
  | trhz _ _ _ sel k =>
    have listed : (¬sel = 2#3 ∧ ¬sel = 3#3) ∧ ¬sel = 4#3 ∨ k = 0#4 := by
      simpa [Instr.formOk] using formOk_of_wf h
    by_cases short : (sel = 2#3 ∨ sel = 3#3) ∨ sel = 4#3
    · obtain rfl : k = 0#4 := listed.resolve_left (by tauto)
      rcases short with (rfl | rfl) | rfl <;>
        exact .intro h rfl rfl fun hc => by simp [decodeRaw, decTrace, Raw.ziFrom, hc]
    · exact .intro h rfl rfl fun hc => by simp [decodeRaw, decTrace, short, hc]
  | stsb | bqpop | bsend | bqdone =>
    exact .intro h rfl rfl fun hc => by simp [decodeRaw, decStack, hc]
  | bred _ op => cases op <;> exact .intro h rfl rfl fun hc => by simp [decodeRaw, decStack, BredOp.code, hc]
  | _ => nomatch he

/-- The remaining scalar instructions; a step of the device is not well-formed. -/
theorem roundTrips_of_scalar {i : Instr} (h : i.wf = true) (hv : Machine.isVector i = false)
    (he : Machine.isEngine i = false) : RoundTrips i := by
  cases i with
  -- control (07)
  | nop | mov | br | cbr | jl | jlr | jr | trap | syscall | done | yield =>
    exact .intro h rfl rfl fun hc => by simp [decodeRaw, decControl, hc]
  | li _ _ v => cases v <;> exact .intro h rfl rfl fun hc => by simp [decodeRaw, decControl, hc]
  | sel _ _ _ _ b | cmpq _ _ _ _ b =>
    cases b <;> exact .intro h rfl rfl fun hc => by
      simp [decodeRaw, decControl, BitVec.extractLsb'_or, BitVec.setWidth_or, hc]
  | qop _ _ _ o => cases o <;> exact .intro h rfl rfl fun hc => by simp [decodeRaw, decControl, hc]
  -- integer (07)
  | add _ _ _ _ b | sub _ _ _ _ b | mul _ _ _ _ b | div _ _ _ _ b | divu _ _ _ _ b | rem _ _ _ _ b | remu _ _ _ _ b
  | shl _ _ _ _ b | shr _ _ _ _ b | sar _ _ _ _ b | ror _ _ _ _ b =>
    cases b <;> exact .intro h rfl rfl fun hc => by simp [decodeRaw, decInteger, decAlu, hc]
  | mulh _ _ _ b | mulhu _ _ _ b | and _ _ _ b | or _ _ _ b | xor _ _ _ b | andn _ _ _ b | min _ _ _ b | max _ _ _ b
  | minu _ _ _ b | maxu _ _ _ b =>
    cases b <;> exact .intro h rfl rfl fun hc => by simp [decodeRaw, decInteger, decAlu, hc]
  | clz | ctz | popc | sext | zext | lea | rdspec =>
    exact .intro h rfl rfl fun hc => by simp [decodeRaw, decInteger, decExt, hc]
  | bfx _ _ _ _ f | bfi _ _ _ f =>
    cases f <;> exact .intro h rfl rfl fun hc => by simp [decodeRaw, decInteger, decField, hc]
  | empty _ _ r => cases r <;> exact .intro h rfl rfl fun hc => by simp [decodeRaw, decInteger, hc]
  -- scalar memory (08)
  | ld _ sz sx | ldsy _ sz sx =>
    have listed : (!sx || !sz == .d) = true := by simpa [Instr.formOk] using formOk_of_wf h
    exact .intro h rfl rfl fun hc => by
      simp [decodeRaw, decScalarMem, BitVec.extractLsb'_or, BitVec.setWidth_or, listed, hc]
  | st | lda | stl | feclr | pref =>
    exact .intro h rfl rfl fun hc => by
      simp [decodeRaw, decScalarMem, BitVec.extractLsb'_or, BitVec.setWidth_or, hc]
  -- task (07)
  | send _ _ _ _ chan off =>
    cases off with
    | none => exact .intro h rfl rfl fun hc => by simp [decodeRaw, decTask, hc]
    | some v =>
      obtain rfl : chan = 63 := by simpa [Instr.formOk] using formOk_of_wf h
      exact .intro h rfl rfl fun hc => by simp [decodeRaw, decTask, Raw.z17From, hc]
  | sendp | bara | barw | rngset | flowsig => exact .intro h rfl rfl fun hc => by simp [decodeRaw, decTask, hc]
  | chmask _ _ s | grab _ _ s => cases s <;> exact .intro h rfl rfl fun hc => by simp [decodeRaw, decTask, hc]
  -- atomics and fences (08)
  | amocas | fence | fencee => exact .intro h rfl rfl fun hc => by simp [decodeRaw, decCopySync, hc]
  | amo _ dw _ op | amor _ dw _ op =>
    have listed : (!dw || !op == .fadd && !op == .fmax) = true := by simpa [Instr.formOk] using formOk_of_wf h
    exact .intro h rfl rfl fun hc => by simp [decodeRaw, decCopySync, listed, hc]
  -- stack and windows (10, 04)
  | sts | swait | swaitOwn | rdtime | wdset | wdget =>
    exact .intro h rfl rfl fun hc => by simp [decodeRaw, decStack, hc]
  -- privileged (16)
  | csrr | csrw | csrs | csrc | eret | tlbiPage | tlbiAll | tlbiKid | ctxsv | ctxsvM | ctxld | ctxldM | wfi | satw
  | chset | preempt | sleeps | wakes | gangctlStatus | gangctlResume | gangctlKill =>
    exact .intro h rfl rfl fun hc => by simp [decodeRaw, decPrivileged, hc]
  | _ => contradiction

theorem roundTrips_of_wf {i : Instr} (h : i.wf = true) : RoundTrips i := by
  cases hv : Machine.isVector i with
  | true => exact roundTrips_of_isVector h hv
  | false =>
    cases he : Machine.isEngine i with
    | true => exact roundTrips_of_isEngine h he
    | false => exact roundTrips_of_scalar h hv he

/-- Settles O1: the fields of the word are read back as they were written (`decodeBytes_pack`), and every family of
forms decodes from its own fields (`roundTrips_of_wf`). -/
theorem encodeDecode : Obligations.EncodeDecode := by
  intro i h
  obtain ⟨r, x, he, hd⟩ := roundTrips_of_wf h
  refine ⟨_, by rw [encode, he]; rfl, ?_, fun rest => ?_⟩
  · simp [← length_bytes_of_encodeRaw he]
  · rw [decodeBytes_pack, hd]

end Sys2Proof
end

section
/-! SUPPORT. How the issue of an instruction that executes normally ends, one rule for each end of its body (06 R146), and
the frame of the scalar computing instructions (07 R158) with the proof of the statement about it. -/

namespace Sys2Proof.Machine

/-! The ends of an issue -/

section
variable {i : Instr} {s : State} {body : State → Act} (runs : exec i s = .next (issue i s body))
include runs

theorem exec_of_issues (h : issues i s = true) : exec i s = .next (endOf i s [] (body s)) := by
  rw [runs, issue_issues i s body h]

theorem gives_of_go {t u : State} (ends : body s = .go t) (value : t = u) : Gives i s u := fun h => by
  rw [exec_of_issues runs h, ends, endOf_go, value]

theorem becomes_of_jump {t : State} {a : Word} (ends : body s = .jump t a) :
    Becomes i s (modRegs t fun r => { r with pc := a }) := fun h => by
  rw [exec_of_issues runs h, ends, endOf_jump]

theorem becomes_of_stay {t u : State} (ends : body s = .stay t) (value : t = u) : Becomes i s u := fun h => by
  rw [exec_of_issues runs h, ends, endOf_stay, value]

theorem becomes_of_hold (ends : body s = .hold) : Becomes i s (wait s) := fun h => by
  rw [exec_of_issues runs h, ends, endOf_hold]

theorem becomes_of_trap {t : Trap} (ends : body s = .trap s t) (plain : t.cause ≠ 7) :
    Becomes i s (raiseTrap s i t []) := fun h => by
  rw [exec_of_issues runs h, ends, endOf_trap_plain i s s [] t plain]

end

/-! An instruction whose body always completes -/

section
variable {i : Instr} {s : State} {t : State → State} (runs : exec i s = .next (issue i s fun s => .go (t s)))
include runs

theorem exec_of_completes (h : issues i s = true) : exec i s = .next (advance (t s) i) :=
  exec_of_issues runs h

theorem gives_of_completes {u : State} (value : t s = u) : Gives i s u := fun h =>
  value ▸ exec_of_completes runs h

end

theorem gives_setS {i : Instr} {s : State} {d : SReg} {v : State → Word} {w : Word}
    (runs : exec i s = .next (issue i s fun s => .go (setS s d (v s)))) (value : v s = w) : Gives i s (setS s d w) :=
  gives_of_completes runs (congrArg (setS s d) value)

/-! What an update of the running context's registers leaves as it was -/

theorem SameElsewhere.trans {s t u : State} (h : SameElsewhere s t) (g : SameElsewhere t u) (cur : t.cur = s.cur) :
    SameElsewhere s u := by
  obtain ⟨hctx, hcore⟩ := h
  obtain ⟨gctx, gcore⟩ := g
  exact ⟨fun c n away => (gctx c n (cur ▸ away)).trans (hctx c n away), fun c => (gcore c).trans (hcore c)⟩

/-- Nothing but the context that runs has changed: no byte of memory, no other context, no other unit. -/
def OnlyMine (s t : State) : Prop := SameMemory s t ∧ SameElsewhere s t ∧ { t with cores := s.cores } = s

theorem OnlyMine.refl (s : State) : OnlyMine s s := ⟨.refl s, ⟨fun _ _ _ => rfl, fun _ => rfl⟩, rfl⟩

theorem sameElsewhere_modRegs (s : State) (f : Regs → Regs) : SameElsewhere s (modRegs s f) :=
  ⟨fun c n away => getCtx_modCtx_other s s.cur.1 s.cur.2 c n _ away, fun c => getCore_modCtx s _ _ c _⟩

theorem OnlyMine.modRegs {s t : State} (h : OnlyMine s t) (f : Regs → Regs) : OnlyMine s (modRegs t f) := by
  obtain ⟨memory, elsewhere, units⟩ := h
  have cur : t.cur = s.cur := by rw [← units]
  exact ⟨memory.trans (sameMemory_modRegs t f), elsewhere.trans (sameElsewhere_modRegs t f) cur, units⟩

theorem me_modRegs (s : State) (f : Regs → Regs) : me (modRegs s f) = { me s with regs := f (me s).regs } :=
  me_modMe s _

theorem KeepsRegisters.refl (ds : List Dst) (x : Ctx) : KeepsRegisters ds x x :=
  ⟨fun _ _ => rfl, fun _ _ => rfl, fun _ _ => rfl, fun _ _ => rfl, fun _ _ => rfl, rfl⟩

theorem KeepsRegisters.advance {ds : List Dst} {x : Ctx} {t : State} (h : KeepsRegisters ds x (me t)) (i : Instr) :
    KeepsRegisters ds x (me (advance t i)) := by
  obtain ⟨hs, hv, hp, hq, hx, rest⟩ := h
  rw [Machine.advance, me_modRegs]
  refine ⟨hs, hv, hp, hq, hx, ?_⟩
  rw [rest]

/-! A register that is written, and the others of its file -/

theorem get_wrS_other (r : Regs) (v : Word) {d n : SReg} (h : n ≠ d) :
    (wrS r d v).s.get n.toFin = r.s.get n.toFin := by
  unfold wrS
  split
  · rfl
  · have index : ¬d.toNat = n.toFin.val := fun e => h (BitVec.eq_of_toNat_eq e.symm)
    rw [vector_get_set, if_neg index]

theorem getLsbD_wrQ_other (r : Regs) (b : Bool) {d n : QReg} (h : n ≠ d) :
    (wrQ r d b).q.getLsbD n.toNat = r.q.getLsbD n.toNat := by
  unfold wrQ
  split
  · rfl
  · have index : ¬(n.toNat = d.toNat ∧ n.toNat < 8) := fun ⟨e, _⟩ => h (BitVec.eq_of_toNat_eq e)
    rw [getLsbD_setBit, if_neg index]

theorem keepsRegisters_setS (s : State) (d : SReg) (v : Word) : KeepsRegisters [.s d] (me s) (me (setS s d v)) := by
  rw [setS, me_modRegs]
  refine ⟨fun n other => get_wrS_other _ v (by simpa using other), fun _ _ => ?_, fun _ _ => ?_, fun _ _ => ?_,
    fun _ _ => ?_, ?_⟩ <;> simp only [wrS] <;> split <;> rfl

theorem keepsRegisters_setQ (s : State) (d : QReg) (b : Bool) : KeepsRegisters [.q d] (me s) (me (setQ s d b)) := by
  rw [setQ, me_modRegs]
  refine ⟨fun _ _ => ?_, fun _ _ => ?_, fun _ _ => ?_, fun n other => getLsbD_wrQ_other _ b (by simpa using other),
    fun _ _ => ?_, ?_⟩ <;> simp only [wrQ] <;> split <;> rfl

theorem fstat_setS (s : State) (d : SReg) (v : Word) : (myRegs (setS s d v)).fstat = (myRegs s).fstat := by
  rw [myRegs, setS, me_modRegs]
  simp only [wrS]
  split <;> rfl

theorem fstat_setQ (s : State) (d : QReg) (b : Bool) : (myRegs (setQ s d b)).fstat = (myRegs s).fstat := by
  rw [myRegs, setQ, me_modRegs]
  simp only [wrQ]
  split <;> rfl

/-! The three shapes of a scalar computing instruction -/

/-- A scalar computing instruction writes the s register or the q register that it lists, or none. -/
theorem exec_scalarPlain {i : Instr} {s : State} (plain : scalarPlain i = true) (h : issues i s = true) :
    ((useOf i).dsts = [] ∧ exec i s = .next (advance s i)) ∨
    (∃ d v, (useOf i).dsts = [.s d] ∧ exec i s = .next (advance (setS s d v) i)) ∨
    (∃ d b, (useOf i).dsts = [.q d] ∧ exec i s = .next (advance (setQ s d b) i)) := by
  cases i with
  | nop => exact .inl ⟨rfl, exec_of_completes rfl h⟩
  | cmpq | qop => exact .inr (.inr ⟨_, _, rfl, exec_of_completes rfl h⟩)
  | li | mov | sel | add | sub | mul | mulh | mulhu | div | divu | rem | remu | and | or | xor | andn | shl | shr | sar
  | ror | min | max | minu | maxu | clz | ctz | popc | sext | zext | lea | bfx | bfi | empty | rdtime | wdget =>
    exact .inr (.inl ⟨_, _, rfl, exec_of_completes rfl h⟩)
  | _ => contradiction

/-- What such an instruction leaves as it was before it moves past itself. -/
theorem scalarPlain_frame {i : Instr} {s : State} (plain : scalarPlain i = true) (h : issues i s = true) :
    ∃ u, exec i s = .next (advance u i) ∧ KeepsRegisters (useOf i).dsts (me s) (me u) ∧
      (myRegs u).fstat = (myRegs s).fstat ∧ OnlyMine s u := by
  rcases exec_scalarPlain plain h with ⟨-, e⟩ | ⟨d, v, dst, e⟩ | ⟨d, b, dst, e⟩
  · exact ⟨s, e, .refl _ _, rfl, .refl s⟩
  · exact ⟨setS s d v, e, dst ▸ keepsRegisters_setS s d v, fstat_setS s d v, (OnlyMine.refl s).modRegs _⟩
  · exact ⟨setQ s d b, e, dst ▸ keepsRegisters_setQ s d b, fstat_setQ s d b, (OnlyMine.refl s).modRegs _⟩

/-- Settles O49: beside the write of its destination the instruction only moves past itself. -/
theorem scalarFrame : Obligations.ScalarFrame := by
  intro i s t plain h runs
  obtain ⟨u, e, keeps, flags, mine⟩ := scalarPlain_frame plain h
  obtain rfl : advance u i = t := by simpa [e] using runs
  obtain ⟨memory, elsewhere, units⟩ := mine.modRegs fun r => { r with pc := nextPc r.pc i.len }
  refine ⟨keeps.advance i, Eq.trans ?_ flags, memory, elsewhere, units⟩
  rw [myRegs, advance, me_modRegs]
  rfl

end Sys2Proof.Machine
end

section
/-! SUPPORT. The arithmetic of the integer instructions (07 R170 to R172) as operations on words of any width, and the proofs
of the statements about it. -/

namespace Sys2Proof.Machine

/-! Quotients and remainders of the numbers that words stand for, as words -/

section
variable {w : Nat} {x y : BitVec w}

theorem toInt_ne_zero (h : y ≠ 0) : y.toInt ≠ 0 := fun e => h (BitVec.eq_of_toInt_eq (by simpa using e))

theorem natCast_toNat_ne_zero (h : y ≠ 0) : (y.toNat : Int) ≠ 0 := fun e =>
  h (BitVec.eq_of_toNat_eq (by simpa using e))

/-- The one overflow of the quotient gives what the words' own division gives. -/
theorem ofInt_quotS (h : y ≠ 0) : BitVec.ofInt w (quotS x.toInt y.toInt (-2 ^ (w - 1))) = x.sdiv y := by
  rw [quotS, if_neg (toInt_ne_zero h)]
  split
  case isTrue overflow =>
    obtain ⟨hx, hy⟩ := overflow
    have hx : x = BitVec.intMin w := by rw [BitVec.intMin_eq_neg_two_pow, ← hx, BitVec.ofInt_toInt]
    have hy : y = -1#w := by rw [← BitVec.ofInt_toInt (x := y), hy, BitVec.ofInt_neg]; rfl
    rw [hx, hy, BitVec.intMin_sdiv_neg_one, ← BitVec.intMin_eq_neg_two_pow]
  case isFalse => exact BitVec.eq_of_toInt_eq (by rw [BitVec.toInt_ofInt, BitVec.toInt_sdiv])

theorem ofInt_remS (lo : Int) (h : y ≠ 0) : BitVec.ofInt w (remS x.toInt y.toInt lo) = x.srem y := by
  have value : remS x.toInt y.toInt lo = x.toInt.tmod y.toInt := by
    rw [remS, if_neg (toInt_ne_zero h)]
    split
    case isTrue overflow => rw [overflow.2]; simp
    case isFalse => rfl
  rw [value, ← BitVec.toInt_srem, BitVec.ofInt_toInt]

theorem ofInt_quotU (h : y ≠ 0) : BitVec.ofInt w (quotU x.toNat y.toNat) = x / y := by
  rw [quotU, if_neg (natCast_toNat_ne_zero h), ← Int.ofNat_tdiv, BitVec.ofInt_natCast, ← BitVec.toNat_udiv,
    BitVec.ofNat_toNat, BitVec.setWidth_eq]

theorem ofInt_remU (h : y ≠ 0) : BitVec.ofInt w (remU x.toNat y.toNat) = x % y := by
  rw [remU, if_neg (natCast_toNat_ne_zero h), ← Int.ofNat_tmod, BitVec.ofInt_natCast, ← BitVec.toNat_umod,
    BitVec.ofNat_toNat, BitVec.setWidth_eq]

end

/-! Division by zero and the signed overflow (R171) -/

section
variable {w : Nat} {x y : BitVec w} (lo : Int)

theorem ofInt_neg_one : BitVec.ofInt w (-1) = BitVec.allOnes w := by
  rw [BitVec.ofInt_neg, ← BitVec.neg_one_eq_allOnes]; rfl

theorem ofInt_quotS_zero (h : y = 0) : BitVec.ofInt w (quotS x.toInt y.toInt lo) = BitVec.allOnes w := by
  rw [h, quotS, if_pos (by simp), ofInt_neg_one]

theorem ofInt_remS_zero (h : y = 0) : BitVec.ofInt w (remS x.toInt y.toInt lo) = x := by
  rw [h, remS, if_pos (by simp), BitVec.ofInt_toInt]

theorem ofInt_quotU_zero (h : y = 0) : BitVec.ofInt w (quotU x.toNat y.toNat) = BitVec.allOnes w := by
  rw [h, quotU, if_pos (by simp), ofInt_neg_one]

theorem ofInt_remU_zero (h : y = 0) : BitVec.ofInt w (remU x.toNat y.toNat) = x := by
  rw [h, remU, if_pos (by simp), BitVec.ofInt_natCast, BitVec.ofNat_toNat, BitVec.setWidth_eq]

theorem neg_one_ne_zero_of_pos (pos : 0 < w) : (-1 : BitVec w) ≠ 0 := by
  obtain ⟨n, rfl⟩ := Nat.exists_eq_succ_of_ne_zero pos.ne'
  simp

variable (pos : 0 < w) (hx : x = BitVec.intMin w) (hy : y = -1)
include pos hx hy

theorem ofInt_quotS_overflow : BitVec.ofInt w (quotS x.toInt y.toInt (-2 ^ (w - 1))) = BitVec.intMin w := by
  rw [ofInt_quotS (hy ▸ neg_one_ne_zero_of_pos pos), hx, hy]
  exact BitVec.intMin_sdiv_neg_one

omit hx in
theorem ofInt_remS_overflow : BitVec.ofInt w (remS x.toInt y.toInt lo) = 0 := by
  have minus : y.toInt = -1 := by
    rw [hy]
    exact (congrArg BitVec.toInt BitVec.neg_one_eq_allOnes).trans (BitVec.toInt_allOnes.trans (if_pos pos))
  rw [ofInt_remS lo (hy ▸ neg_one_ne_zero_of_pos pos)]
  exact BitVec.eq_of_toInt_eq (by rw [BitVec.toInt_srem, minus]; simp)

end

/-! The .I32 forms (R172) -/

section
variable {w : Nat} (z : BitVec w)

theorem ofInt_natCast_toNat : BitVec.ofInt w z.toNat = z := by
  rw [BitVec.ofInt_natCast, BitVec.ofNat_toNat, BitVec.setWidth_eq]

theorem ofInt_toInt_add (x y : BitVec w) : BitVec.ofInt w (x.toInt + y.toInt) = x + y := by
  rw [BitVec.ofInt_add, BitVec.ofInt_toInt, BitVec.ofInt_toInt]

theorem ofInt_toInt_sub (x y : BitVec w) : BitVec.ofInt w (x.toInt - y.toInt) = x - y := by
  rw [sub_eq_add_neg, BitVec.ofInt_add, BitVec.ofInt_neg, BitVec.ofInt_toInt, BitVec.ofInt_toInt, BitVec.sub_eq_add_neg]

theorem ofInt_toInt_mul (x y : BitVec w) : BitVec.ofInt w (x.toInt * y.toInt) = x * y := by
  rw [BitVec.ofInt_mul, BitVec.ofInt_toInt, BitVec.ofInt_toInt]

theorem ofInt_toNat_shiftLeft (n : Nat) : BitVec.ofInt w (z.toNat * 2 ^ n) = z <<< n := by
  have nat : (z.toNat * 2 ^ n : Int) = (z.toNat * 2 ^ n : Nat) := by push_cast; rfl
  rw [nat, BitVec.ofInt_natCast]
  exact BitVec.eq_of_toNat_eq (by rw [BitVec.toNat_ofNat, BitVec.toNat_shiftLeft, Nat.shiftLeft_eq])

theorem ofInt_toNat_ushiftRight (n : Nat) : BitVec.ofInt w (z.toNat / 2 ^ n) = z >>> n := by
  have nat : (z.toNat / 2 ^ n : Int) = (z >>> n).toNat := by
    rw [BitVec.toNat_ushiftRight, Nat.shiftRight_eq_div_pow]; push_cast; rfl
  rw [nat, ofInt_natCast_toNat]

theorem ofInt_toInt_sshiftRight (n : Nat) :
    BitVec.ofInt w (z.toInt / 2 ^ n) = z.sshiftRight n := by
  rw [BitVec.sshiftRight_eq, Int.shiftRight_eq_div_pow]; norm_cast

end

theorem gives_i64 {i : Instr} {s : State} {d : SReg} {v : State → Int} {r : Word}
    (runs : exec i s = .next (issue i s fun s => .go (setS s d (wordI (v s))))) (value : BitVec.ofInt 64 (v s) = r) :
    Gives i s (setS s d r) :=
  gives_setS runs value

theorem gives_i32 {i : Instr} {s : State} {d : SReg} {v : State → Int} {r : BitVec 32}
    (runs : exec i s = .next (issue i s fun s => .go (setS s d (sext32 (v s))))) (value : BitVec.ofInt 32 (v s) = r) :
    Gives i s (setS s d (r.signExtend 64)) :=
  gives_setS runs (congrArg (·.signExtend 64) value)

/-! The integer instructions -/

/-- Settles O11: the numbers that the words stand for are added, multiplied and divided, and the result is taken modulo 2^64. -/
theorem arithmetic64 : Obligations.Arithmetic64 := by
  intro c d a b s x y
  have high : BitVec.ofInt 64 (uI x * uI y / 2 ^ 64) = BitVec.ofNat 64 (x.toNat * y.toNat / 2 ^ 64) := by
    rw [← BitVec.ofInt_natCast]; push_cast; rfl
  exact ⟨gives_of_completes rfl rfl, gives_of_completes rfl rfl, gives_of_completes rfl rfl, gives_of_completes rfl rfl,
    gives_i64 rfl high, fun nonzero =>
    ⟨gives_i64 rfl (ofInt_quotS nonzero), gives_i64 rfl (ofInt_quotU nonzero),
      gives_i64 rfl (ofInt_remS _ nonzero), gives_i64 rfl (ofInt_remU nonzero)⟩⟩

/-- Settles O12: the cases of R171 come before the division of the model, and the logical operations and shifts are those
of words. -/
theorem divisionTable : Obligations.DivisionTable := by
  intro c d a b s x y n
  have pos : 0 < 64 := by decide
  refine ⟨fun zero => ⟨?_, ?_, ?_, ?_⟩, fun least minus => ⟨?_, ?_⟩, ?shl, ?shr, ?sar, ?ror, ?_, ?_, ?and, ?or, ?xor, ?andn⟩
  · exact gives_i64 rfl (ofInt_quotS_zero _ zero)
  · exact gives_i64 rfl (ofInt_quotU_zero zero)
  · exact gives_i64 rfl (ofInt_remS_zero _ zero)
  · exact gives_i64 rfl (ofInt_remU_zero zero)
  · exact gives_i64 rfl (ofInt_quotS_overflow pos least minus)
  · exact gives_i64 rfl (ofInt_remS_overflow _ pos minus)
  case shl | shr | sar | ror | and | or | xor | andn => exact gives_of_completes rfl rfl
  · rintro v rfl; rfl
  · rintro v rfl; rfl

end Sys2Proof.Machine
end

section
/-! SUPPORT. Where FN bit 0 of a word selects a .I32 form (07 R172), and the proof of the statement about these forms. -/

namespace Sys2Proof.Machine

/-- A word that decodes, if at all, to an instruction whose .I32 form, if it has one, FN bit 0 selects. -/
def I32ByFn (r : Raw) (d : DRes) : Prop := ∀ i t, d = .ok i → i32Of i = some t → t = r.fn.getLsbD 0

section
variable {r : Raw} {x : Ext}

@[simp] theorem i32ByFn_error (e : DErr) : I32ByFn r (.error e) := fun _ _ h => by cases h

@[simp] theorem i32ByFn_ok (i : Instr) : I32ByFn r (.ok i) ↔ ∀ t, i32Of i = some t → t = r.fn.getLsbD 0 :=
  ⟨fun h t => h i t rfl, fun h _ t e => by cases e; exact h t⟩

@[simp] theorem i32ByFn_sh (listed clean regs : Bool) (i : Instr) : I32ByFn r (sh listed clean regs i) ↔
    (listed = true → clean = true → regs = true → ∀ t, i32Of i = some t → t = r.fn.getLsbD 0) := by
  cases listed <;> cases clean <;> cases regs <;> simp [sh]

@[simp] theorem i32ByFn_only64 (k : DRes) : I32ByFn r (only64 x k) ↔ (x = .none → I32ByFn r k) := by
  cases x <;> simp [only64]

@[simp] theorem i32ByFn_only128 (k : BitVec 64 → DRes) :
    I32ByFn r (only128 x k) ↔ ∀ w, x = .w64 w → I32ByFn r (k w) := by
  cases x <;> simp [only128]

@[simp] theorem i32ByFn_withImm (k : Imm → Bool → DRes) : I32ByFn r (withImm r x k) ↔
    (x = .none → I32ByFn r (k (.i24 r.imm) true)) ∧ ∀ v, x = .w32 v → I32ByFn r (k (.i32 v) r.zi) := by
  cases x <;> simp [withImm]

@[simp] theorem i32ByFn_withImm17 (k : Imm17 → Bool → DRes) : I32ByFn r (withImm17 r x k) ↔
    (x = .none → I32ByFn r (k (.i17 r.i17) true)) ∧ ∀ v, x = .w32 v → I32ByFn r (k (.i32 v) (r.i17 == 0)) := by
  cases x <;> simp [withImm17]

@[simp] theorem i32ByFn_ite_iff {p : Prop} [Decidable p] {a b : DRes} :
    I32ByFn r (if p then a else b) ↔ (p → I32ByFn r a) ∧ (¬ p → I32ByFn r b) := by
  split <;> simp [*]

theorem i32ByFn_decVfp {mk : FpT → VOpB → Instr} (h : ∀ t b, i32Of (mk t b) = none) : I32ByFn r (decVfp mk r x) := by
  unfold decVfp
  split <;> simp [h]

theorem i32ByFn_decVfp3 {mk : FpT → VOpB → VSrc → Instr} (h : ∀ t b c, i32Of (mk t b c) = none) :
    I32ByFn r (decVfp3 mk r x) := by
  unfold decVfp3
  split <;> simp [h]

theorem i32ByFn_decVfp1 {mk : FpT → Instr} (h : ∀ t, i32Of (mk t) = none) : I32ByFn r (decVfp1 mk r x) := by
  unfold decVfp1
  split <;> simp [h]

theorem i32ByFn_decVint {mk : IntT → VIOpB → Instr} (h : ∀ t b, i32Of (mk t b) = none) : I32ByFn r (decVint mk r x) := by
  unfold decVint
  split <;> simp [h]

/-- Of the codes that an integer major lists for a shape of its operands the even one is the 64-bit form, the odd one the
.I32 form. -/
theorem fn_selects_i32 {fn wide narrow : BitVec 6} {i32ok : Bool} {i : Instr} {t : Bool}
    (listed : (fn == wide || (i32ok && fn == narrow)) = true) (even : wide.getLsbD 0 = false)
    (odd : narrow.getLsbD 0 = true) (form : i32Of i = if i32ok then some (fn == narrow) else none)
    (h : i32Of i = some t) : t = fn.getLsbD 0 := by
  rw [form] at h
  cases i32ok with
  | false => cases h
  | true =>
    obtain rfl : (fn == narrow) = t := by simpa using h
    rcases Bool.or_eq_true _ _ ▸ listed with h | h
    · obtain rfl : fn = wide := by simpa using h
      rw [even, beq_eq_false_iff_ne]
      rintro rfl
      exact absurd (even.symm.trans odd) (by decide)
    · obtain rfl : fn = narrow := by simpa using h
      rw [odd, beq_self_eq_true]

theorem i32ByFn_decAlu {i32ok : Bool} {mk : Bool → OpB → Instr}
    (form : ∀ b o, i32Of (mk b o) = if i32ok then some b else none) : I32ByFn r (decAlu i32ok mk r x) := by
  unfold decAlu
  split
  case isTrue register =>
    rw [i32ByFn_only64, i32ByFn_sh]
    exact fun _ _ _ _ t => fn_selects_i32 register rfl rfl (form _ _)
  case isFalse =>
    split
    case isTrue immediate =>
      simp only [i32ByFn_withImm, i32ByFn_sh]
      exact ⟨fun _ _ _ _ t => fn_selects_i32 immediate rfl rfl (form _ _),
        fun _ _ _ _ _ t => fn_selects_i32 immediate rfl rfl (form _ _)⟩
    case isFalse => exact i32ByFn_error _

theorem i32ByFn_decControl : I32ByFn r (decControl r x) := by
  unfold decControl
  split
  case h_2 | h_6 => split <;> simp [i32Of]
  all_goals simp [i32Of]

theorem i32ByFn_decInteger : I32ByFn r (decInteger r x) := by
  unfold decInteger
  split
  case h_22 | h_23 | h_24 | h_25 | h_26 | h_27 | h_28 | h_29 | h_30 | h_31 | h_32 => simp [decExt, decField, i32Of]
  all_goals exact i32ByFn_decAlu fun _ _ => rfl

theorem i32ByFn_decScalarMem : I32ByFn r (decScalarMem r x) := by
  unfold decScalarMem
  split
  case h_3 | h_4 => split <;> simp [i32Of]
  all_goals simp [i32Of]

theorem i32ByFn_decTask : I32ByFn r (decTask r x) := by
  unfold decTask
  split
  case h_1 => split <;> simp [i32Of]
  all_goals simp [i32Of]

theorem i32ByFn_decVecFp : I32ByFn r (decVecFp r x) := by
  unfold decVecFp
  split
  case h_1 | h_2 | h_3 | h_7 | h_8 => exact i32ByFn_decVfp fun _ _ => rfl
  case h_4 | h_5 | h_6 => exact i32ByFn_decVfp3 fun _ _ _ => rfl
  case h_9 | h_10 | h_18 => exact i32ByFn_decVfp1 fun _ => rfl
  all_goals simp [i32Of]

theorem i32ByFn_decVecInt : I32ByFn r (decVecInt r x) := by
  unfold decVecInt
  split
  case h_14 => exact i32ByFn_error _
  all_goals exact i32ByFn_decVint fun _ _ => rfl

theorem i32ByFn_decVecMisc : I32ByFn r (decVecMisc r x) := by
  unfold decVecMisc
  split
  case h_1 | h_3 | h_6 | h_16 | h_17 | h_18 => split <;> simp [i32Of]
  all_goals simp [decSel6, i32Of]

theorem i32ByFn_decVecMem : I32ByFn r (decVecMem r x) := by
  unfold decVecMem
  split <;> simp [i32Of]

theorem i32ByFn_decCopySync : I32ByFn r (decCopySync r x) := by
  unfold decCopySync
  split
  case h_4 | h_5 | h_6 | h_7 | h_8 | h_9 => split <;> simp [i32Of]
  all_goals simp [i32Of]

theorem i32ByFn_decMatrix : I32ByFn r (decMatrix r x) := by
  unfold decMatrix
  split
  case h_9 => split <;> simp [i32Of]
  all_goals simp [i32Of]

theorem i32ByFn_decRetrieval : I32ByFn r (decRetrieval r x) := by
  unfold decRetrieval
  split
  case h_8 => split <;> simp [i32Of]
  all_goals simp [i32Of]

theorem i32ByFn_decTrace : I32ByFn r (decTrace r x) := by
  unfold decTrace
  split <;> simp [i32Of]

theorem i32ByFn_decStack : I32ByFn r (decStack r x) := by
  unfold decStack
  split
  case h_6 | h_7 => split <;> simp [i32Of]
  all_goals simp [i32Of]

theorem i32ByFn_decPrivileged : I32ByFn r (decPrivileged r x) := by
  unfold decPrivileged
  split
  case h_7 | h_8 => cases m : r.imm.getLsbD 3 <;> simp [i32Of]
  all_goals simp [i32Of]

end

/-- No group of majors but the integer one has a .I32 form, and there FN bit 0 selects it. -/
theorem i32ByFn_decodeRaw (r : Raw) (x : Ext) : I32ByFn r (decodeRaw r x) := by
  simp [decodeRaw, i32ByFn_decControl, i32ByFn_decInteger, i32ByFn_decScalarMem, i32ByFn_decTask, i32ByFn_decVecFp,
    i32ByFn_decVecInt, i32ByFn_decVecMisc, i32ByFn_decVecMem, i32ByFn_decCopySync, i32ByFn_decMatrix,
    i32ByFn_decRetrieval, i32ByFn_decTrace, i32ByFn_decStack, i32ByFn_decPrivileged]

/-- Settles O13: the operands are the low 32 bits, and the result is taken modulo 2^32 before it is extended. -/
theorem arithmetic32 : Obligations.Arithmetic32 := by
  refine ⟨i32ByFn_decodeRaw, fun c d a b s => ?_⟩
  intro x y n gives
  have pos : 0 < 32 := by decide
  refine ⟨gives_i32 rfl (ofInt_toInt_add x y), gives_i32 rfl (ofInt_toInt_sub x y),
    gives_i32 rfl (ofInt_toInt_mul x y), fun nonzero => ⟨?_, ?_, ?_, ?_⟩,
    fun zero => ⟨?_, ?_, ?_, ?_⟩, fun least minus => ⟨?_, ?_⟩, ?_, ?_, ?_, ?_⟩
  · exact gives_i32 rfl (ofInt_quotS nonzero)
  · exact gives_i32 rfl (ofInt_quotU nonzero)
  · exact gives_i32 rfl (ofInt_remS _ nonzero)
  · exact gives_i32 rfl (ofInt_remU nonzero)
  · exact gives_i32 rfl (ofInt_quotS_zero _ zero)
  · exact gives_i32 rfl (ofInt_quotU_zero zero)
  · exact gives_i32 rfl (ofInt_remS_zero _ zero)
  · exact gives_i32 rfl (ofInt_remU_zero zero)
  · exact gives_i32 rfl (ofInt_quotS_overflow pos least minus)
  · exact gives_i32 rfl (ofInt_remS_overflow _ pos minus)
  · exact gives_i32 rfl (ofInt_toNat_shiftLeft x n)
  · exact gives_i32 rfl (ofInt_toNat_ushiftRight x n)
  · exact gives_i32 rfl (ofInt_toInt_sshiftRight x n)
  · exact gives_i32 rfl (ofInt_natCast_toNat _)

end Sys2Proof.Machine
end

section
/-! SUPPORT. Minima and maxima, bit counts, extensions and bit fields (07 R170, R173 to R175) as operations on words, and the
proof of the statement about them. -/

namespace Sys2Proof.Machine

/-! Minima and maxima -/

section
variable (x y : Word)

theorem min_signed : (if BitVec.slt y x then y else x) = if x.toInt ≤ y.toInt then x else y := by
  simp only [BitVec.slt_iff_toInt_lt, ← not_le, ite_not]

theorem min_unsigned : (if BitVec.ult y x then y else x) = if x.toNat ≤ y.toNat then x else y := by
  simp only [BitVec.ult_iff_lt, BitVec.lt_def, ← not_le, ite_not]

/-- Of two equal words either is the maximum. -/
theorem max_signed : (if BitVec.slt x y then y else x) = if x.toInt ≤ y.toInt then y else x := by
  by_cases same : x = y
  · subst same; rw [ite_self, ite_self]
  · have apart : x.toInt ≠ y.toInt := fun e => same (BitVec.eq_of_toInt_eq e)
    simp only [BitVec.slt_iff_toInt_lt, le_iff_lt_or_eq, apart, or_false]

theorem max_unsigned : (if BitVec.ult x y then y else x) = if x.toNat ≤ y.toNat then y else x := by
  by_cases same : x = y
  · subst same; rw [ite_self, ite_self]
  · have apart : x.toNat ≠ y.toNat := fun e => same (BitVec.eq_of_toNat_eq e)
    simp only [BitVec.ult_iff_lt, BitVec.lt_def, le_iff_lt_or_eq, apart, or_false]

end

/-! Bit counts -/

/-- The highest set bit of a word. -/
theorem bitLen_of_between {n j : Nat} (low : 2 ^ j ≤ n) (high : n < 2 ^ (j + 1)) : bitLen n = j + 1 := by
  have nonzero : n ≠ 0 := by have := Nat.two_pow_pos j; omega
  rw [bitLen, if_neg nonzero, (Nat.log2_eq_iff nonzero).mpr ⟨low, high⟩]

theorem bitOf_eq_true {w n : Nat} : bitOf w n = true ↔ w / 2 ^ n % 2 = 1 := beq_iff_eq

/-- The search of the lowest set bit passes over the bits that are clear. -/
theorem lowBit_of_lowest {w j : Nat} (clear : ∀ i, i < j → bitOf w i = false) (set : bitOf w j = true) :
    ∀ n i, i ≤ j → j < i + n → lowBit w n i = j := by
  intro n
  induction n with
  | zero => intro i _ _; omega
  | succ n ih =>
    intro i before within
    rw [lowBit]
    rcases Nat.eq_or_lt_of_le before with rfl | before
    · rw [if_pos set]
    · rw [clear i before, if_neg (by decide), ih (i + 1) before (by omega)]

theorem bitOf_below_of_mod_eq_zero {w j i : Nat} (multiple : w % 2 ^ j = 0) (before : i < j) : bitOf w i = false := by
  obtain ⟨k, rfl⟩ := Nat.dvd_of_mod_eq_zero multiple
  obtain ⟨m, rfl⟩ := Nat.exists_eq_add_of_lt before
  rw [Bool.eq_false_iff, Ne, bitOf_eq_true, show 2 ^ (i + m + 1) * k = 2 ^ i * (2 * (2 ^ m * k)) by ring,
    Nat.mul_div_cancel_left _ (Nat.two_pow_pos i)]
  omega

theorem lt_of_bitOf {x : Word} {j : Nat} (set : bitOf x.toNat j = true) : j < 64 := by
  have below : x.toNat < 2 ^ 64 := x.isLt
  have reaches : 2 ^ j ≤ x.toNat := by
    refine le_of_not_gt fun small => ?_
    rw [bitOf_eq_true, Nat.div_eq_of_lt small] at set
    cases set
  exact (Nat.pow_lt_pow_iff_right (by decide)).mp (reaches.trans_lt below)

theorem popcount_eq_countP (x : Word) : popcount x = (List.range 64).countP fun i => x.getLsbD i :=
  (List.countP_eq_length_filter).symm

/-! Extensions and fields -/

theorem ofNat_mod_two_pow (n v : Nat) : BitVec.ofNat n (v % 2 ^ n) = BitVec.ofNat n v :=
  BitVec.eq_of_toNat_eq (by simp)

theorem word_mod (v n : Nat) : word (v % 2 ^ n) = (BitVec.ofNat n v).setWidth 64 := by
  rw [word, ← BitVec.toNat_ofNat, BitVec.ofNat_toNat]

theorem word_toNat_mod (x : Word) (n : Nat) : word (x.toNat % 2 ^ n) = (x.setWidth n).setWidth 64 := by
  rw [word_mod, BitVec.ofNat_toNat]

/-- The signed value of the low bits is that of the word that they are. -/
theorem sgn_eq_toInt (n v : Nat) : sgn n v = (BitVec.ofNat n v).toInt := by
  have half : v % 2 ^ n < 2 ^ (n - 1) ↔ 2 * (v % 2 ^ n) < 2 ^ n := by
    cases n with
    | zero => simp [Nat.mod_one]
    | succ n => rw [Nat.add_sub_cancel, Nat.pow_succ]; omega
  simp only [sgn, BitVec.toInt_eq_toNat_cond, BitVec.toNat_ofNat, half]

theorem sextW_eq (v n : Nat) : sextW v n = (BitVec.ofNat n v).signExtend 64 := by
  rw [sextW, sgn_eq_toInt]; rfl

theorem word_mul_two_pow (v p : Nat) : word (v * 2 ^ p) = word v <<< p :=
  BitVec.eq_of_toNat_eq (by simp [word, Nat.shiftLeft_eq])

theorem word_ones (m : Nat) : word (2 ^ m - 1) = (BitVec.allOnes m).setWidth 64 := by
  rw [word, ← BitVec.toNat_allOnes, BitVec.ofNat_toNat]

theorem fieldLen_eq (p : Nat × Nat) : (if p.2 ≤ 64 - p.1 then p.2 else 64 - p.1) = fieldLen p := by
  simp only [fieldLen, ← not_le, ite_not]

theorem extractLsb'_eq (x : Word) (p m : Nat) : x.extractLsb' p m = BitVec.ofNat m (x.toNat / 2 ^ p) := by
  rw [BitVec.extractLsb', Nat.shiftRight_eq_div_pow]

/-- Settles O14: the fields that the model computes on numbers are parts of words. -/
theorem bitsAndFields : Obligations.BitsAndFields := by
  intro c d a b o n1 k disp f s x y p m
  have len : m = fieldLen p := fieldLen_eq p
  refine ⟨gives_setS rfl (min_signed x y), gives_setS rfl (max_signed x y),
    gives_setS rfl (min_unsigned x y), gives_setS rfl (max_unsigned x y),
    fun zero => ⟨gives_setS rfl ?clz0, gives_setS rfl ?ctz0⟩,
    fun j low high => gives_setS rfl ?clz, fun j multiple odd => gives_setS rfl ?ctz,
    gives_setS rfl (congrArg word (popcount_eq_countP x)), gives_setS rfl ?sext,
    gives_setS rfl ?zext, gives_setS rfl rfl, gives_setS rfl ?bfx, gives_setS rfl ?bfxSigned, gives_setS rfl ?bfi⟩
  case clz0 => change word (64 - bitLen x.toNat) = 64; rw [zero]; rfl
  case ctz0 => change word (lowBit x.toNat 64 0) = 64; rw [zero]; decide
  case clz => rw [bitLen_of_between low high, Nat.sub_add_eq, Nat.sub_right_comm]
  case ctz =>
    have set := bitOf_eq_true.mpr odd
    have within : j < 0 + 64 := by rw [Nat.zero_add]; exact lt_of_bitOf set
    exact congrArg word (lowBit_of_lowest (fun i => bitOf_below_of_mod_eq_zero multiple) set 64 0 (Nat.zero_le j) within)
  case sext => rw [sextW_eq, BitVec.ofNat_toNat]
  case zext => exact word_toNat_mod x _
  case bfx => rw [len, extractLsb'_eq]; exact word_mod _ _
  case bfxSigned => rw [len, extractLsb'_eq, ← ofNat_mod_two_pow]; exact sextW_eq _ _
  case bfi => rw [len, ← word_ones, ← word_toNat_mod, ← word_mul_two_pow, ← word_mul_two_pow]

end Sys2Proof.Machine
end

section
/-! SUPPORT. Moves, selections, conditions and the reads of special values (07 R160 to R163, R176, R177), and the proof of the
statement about them. -/

namespace Sys2Proof.Machine

theorem gives_setQ {i : Instr} {s : State} {q : QReg} {v : State → Bool} {t : Bool}
    (runs : exec i s = .next (issue i s fun s => .go (setQ s q (v s)))) (value : v s = t) : Gives i s (setQ s q t) :=
  gives_of_completes runs (congrArg (setQ s q) value)

/-- RDSPEC of a selector that R176 lists. -/
theorem gives_rdspec {s : State} {n : BitVec 8} {v : Nat} (listed : rdspec s n.toNat = some v) (c : Cond) (d : SReg) :
    Gives (.rdspec c d n) s (setS s d (word v)) :=
  gives_of_go rfl (by rw [listed]) rfl

theorem rdspec_isSome {n : Nat} (s : State) (h : n ≤ 12) : (rdspec s n).isSome = true := by
  interval_cases n <;> rfl

/-- The conditions of Table 7.2 as relations of the numbers that the words stand for. -/
theorem cmpCond_eq (x y : Word) : cmpCond .eq x y = decide (x = y) ∧ cmpCond .ne x y = decide (x ≠ y) ∧
    cmpCond .lt x y = decide (x.toInt < y.toInt) ∧ cmpCond .ge x y = decide (y.toInt ≤ x.toInt) ∧
    cmpCond .ltu x y = decide (x.toNat < y.toNat) ∧ cmpCond .geu x y = decide (y.toNat ≤ x.toNat) ∧
    cmpCond .tst x y = decide (x &&& y ≠ 0) ∧ cmpCond .ntst x y = decide (x &&& y = 0) := by
  refine ⟨rfl, decide_not.symm, rfl, ?ge, rfl, ?geu, decide_not.symm, rfl⟩
  case ge => rw [cmpCond, BitVec.slt_eq_decide, ← decide_not]; simp only [not_lt]
  case geu => rw [cmpCond, BitVec.ult_eq_decide, ← decide_not]; simp only [not_lt]

/-- Settles O15: every one of these instructions writes the value that its body computes; the conditions are those of
`cmpCond_eq`. -/
theorem movesAndConditions : Obligations.MovesAndConditions := by
  intro c d q a u v o e l r k i24 i32 i64 s x y cmp
  obtain ⟨eq, ne, lt, ge, ltu, geu, tst, ntst⟩ := cmpCond_eq x y
  refine ⟨gives_of_completes rfl rfl, gives_setS rfl rfl, gives_setS rfl rfl, gives_setS rfl rfl, gives_setS rfl rfl,
    gives_setS rfl rfl, gives_setQ rfl eq, gives_setQ rfl ne, gives_setQ rfl lt, gives_setQ rfl ge, gives_setQ rfl ltu,
    gives_setQ rfl geu, gives_setQ rfl tst, gives_setQ rfl ntst, gives_setQ rfl ?_, gives_setQ rfl rfl, gives_setQ rfl rfl,
    gives_setS rfl rfl, fun n w listed => gives_rdspec listed c d, fun n => rdspec_isSome s, rfl, rfl, rfl, rfl, rfl, rfl,
    rfl, rfl, gives_setS rfl rfl, gives_setS rfl rfl⟩
  cases l <;> rfl

end Sys2Proof.Machine
end

section
/-! SUPPORT. Transfers, TRAP and SYSCALL, and the conditions on which an instruction is ILLEGAL (07 R164 to R167, R176, 08
R195, R198, R199), with the proofs of the two statements about them. -/

namespace Sys2Proof.Machine

/-! Transfers (R164) -/

theorem badTarget_eq_false {t : Word} (legal : t.toNat % 4 = 0 ∧ t.toNat % 32 ≠ 28) : badTarget t = false := by
  obtain ⟨aligned, whole⟩ := legal
  simp [badTarget, aligned, whole]

theorem badTarget_of_not_legal {t : Word} (h : ¬(t.toNat % 4 = 0 ∧ t.toNat % 32 ≠ 28)) : badTarget t = true :=
  badTarget_iff.mpr (by tauto)

/-- A transfer reaches a target where an instruction may start, its link written, and traps elsewhere without the link. -/
theorem transfer_goes {i : Instr} {s : State} {body : State → Act} (t : Word) (link : State → State)
    (runs : exec i s = .next (issue i s body)) (ends : body s = transfer s t link) :
    let legal := t.toNat % 4 = 0 ∧ t.toNat % 32 ≠ 28
    (legal → Becomes i s (modRegs (link s) fun r => { r with pc := t })) ∧
      (¬legal → Becomes i s (raiseTrap s i (tMISALIGNED t.toNat) [])) := by
  refine ⟨fun legal => ?_, fun illegal => ?_⟩
  · exact becomes_of_jump runs (by rw [ends, transfer, badTarget_eq_false legal]; rfl)
  · exact becomes_of_trap runs (by rw [ends, transfer, badTarget_of_not_legal illegal]; rfl) (show 6 ≠ 7 by decide)

/-- Settles O51: each body is a transfer to the stated target, CBR where its condition holds. -/
theorem transfers : Obligations.Transfers := by
  intro c cc d a b off s pc legal goes rel ind links
  refine ⟨transfer_goes rel id rfl rfl, fun taken => transfer_goes rel id rfl (if_pos taken), fun passed => ?_,
    transfer_goes rel _ rfl rfl, transfer_goes ind _ rfl rfl, transfer_goes ind id rfl rfl⟩
  exact gives_of_go rfl (if_neg (by rw [passed]; decide)) rfl

/-! Entry of a handler by an instruction (R166, R167) -/

section
variable {i : Instr} {s : State} {t : Trap} (plain : t.cause ≠ 7) (intrap : (me s).intrap = false) (priv : (me s).priv ≠ 2)
include plain intrap priv

theorem raiseTrap_enters : raiseTrap s i t [] = modMe s fun x =>
    { x with cause := word (t.cause + t.code * 256), epc := if t.next then nextPc (me s).regs.pc i.len else (me s).regs.pc,
             faddr := t.faddr, ppriv := x.priv, priv := 1, intrap := true, stopping := false, await := none,
             regs := { x.regs with pc := x.tvec } } := by
  rw [raiseTrap_plain s i t [] plain, takeTrap_plain s _ _ _ t 6 plain intrap priv]
  simp only [causeWord, plain, if_false]
  rfl

/-- An instruction that traps outside INTRAP and firmware privilege enters the handler. -/
theorem becomes_enters {body : State → Act} {cause epc : Word} (runs : exec i s = .next (issue i s body))
    (ends : body s = .trap s t) (causes : word (t.cause + t.code * 256) = cause)
    (returns : (if t.next then nextPc (me s).regs.pc i.len else (me s).regs.pc) = epc) :
    Becomes i s (modMe s fun x =>
      { x with cause, epc, faddr := t.faddr, ppriv := x.priv, priv := 1, intrap := true, stopping := false, await := none,
               regs := { x.regs with pc := x.tvec } }) := by
  subst causes returns
  rw [← raiseTrap_enters plain intrap priv]
  exact becomes_of_trap runs ends plain

end

/-! Forms that no statement lists -/

theorem becomes_illegal {i : Instr} {s : State} {body : State → Act} (runs : exec i s = .next (issue i s body))
    (ends : body s = .trap s tILLEGAL) : Becomes i s (raiseTrap s i tILLEGAL []) :=
  becomes_of_trap runs ends (by decide)

theorem rdspec_eq_none (s : State) {n : Nat} (h : 13 ≤ n) : rdspec s n = none := by
  obtain ⟨m, rfl⟩ := Nat.exists_eq_add_of_le' h
  rfl

theorem badCond_unordered {t : CmpT} {cc : VCond} (integer : t ≠ .f32) (unordered : cc = .un ∨ cc = .or) :
    badCond t cc = true := by
  rcases unordered with rfl | rfl <;> simp [badCond, integer]

theorem badSel_high {sel : BitVec 3} (high : 4 ≤ sel.toNat) : badSel false sel.toNat = true := decide_eq_true high

/-- Settles O52: TRAP and SYSCALL end in a trap that carries their code, and a form that is not listed in one of ILLEGAL. -/
theorem trapInstructions : Obligations.TrapInstructions := by
  refine ⟨fun c code s intrap priv => ?_, fun c p d v pd a b q n t cc td ts rm ns sel sl s => ?_⟩
  · have causes (cause : Nat) : word (cause + code.toNat * 256) = word (cause + 256 * code.toNat) := by rw [Nat.mul_comm]
    refine ⟨?trap, fun done => ?syscall, fun pending => ?_⟩
    case trap =>
      exact becomes_enters (t := { mkTrap 0x12 0 with code := code.toNat }) (show 0x12 ≠ 7 by decide) intrap priv rfl rfl
        (causes 0x12) rfl
    case syscall =>
      have passes : ¬(runsAhead s = false ∧ (myRegs s).pend ≠ []) := fun ⟨_, pending⟩ => pending done
      exact becomes_enters (t := { mkTrap 0x13 0 with code := code.toNat, next := true }) (show 0x13 ≠ 7 by decide) intrap priv
        rfl (if_neg passes) (causes 0x13) rfl
    · intro h
      have ahead : runsAhead s = false := by rw [runsAhead, issues_ra h]; rfl
      exact becomes_of_hold rfl (if_pos ⟨ahead, pending⟩) h
  · refine ⟨fun unlisted => becomes_illegal rfl ?_, fun integer unordered => becomes_illegal rfl (if_pos ?_),
      fun k bad => becomes_illegal rfl (if_pos ?_), fun bad => becomes_illegal rfl (if_pos bad),
      fun high => ⟨becomes_illegal rfl (if_pos ?_), becomes_illegal rfl (if_pos ?_)⟩⟩
    · rw [rdspec_eq_none s unlisted]
    · exact badCond_unordered integer unordered
    · rw [bad]; rfl
    · exact badSel_high high
    · exact badSel_high high

end Sys2Proof.Machine
end

section
/-! SUPPORT. Requests of a task: YIELD, CHMASK, GRAB, RNGSET and FLOWSIG (07 R169, R182, R185 to R187), barriers (R183,
R184) and events sent (R179 to R181), with the proofs of the three statements about them. -/

namespace Sys2Proof.Machine

theorem runsAhead_of_issues {i : Instr} {s : State} (h : issues i s = true) : runsAhead s = false := by
  rw [runsAhead, issues_ra h]; rfl

/-! Waits that are counted in core cycles (00 R6) -/

theorem clockRate_bounds (s : State) (c : Nat) : 1 ≤ clockRate s c ∧ clockRate s c ≤ 6 := by
  unfold clockRate
  split
  · decide
  · exact ⟨Nat.le_max_left _ _, Nat.max_le.mpr ⟨by decide, Nat.sub_le _ _⟩⟩

theorem cyclesBegun_le {s : State} (early : s.stc.toNat < 2 ^ 60) (c : Nat) : cyclesBegun s c ≤ 2 ^ 59 := by
  obtain ⟨-, slow⟩ := clockRate_bounds s c
  have within (pairs : Nat) : pairs * clockRate s c / 6 ≤ pairs :=
    Nat.div_le_of_le_mul ((Nat.mul_le_mul_left pairs slow).trans_eq (Nat.mul_comm _ _))
  unfold cyclesBegun cycleNumber
  split
  · exact (within _).trans (by omega)
  · exact (within _).trans (by omega)

/-- A core cycle has begun by a pair of beats exactly when the pair is not before the one that it begins with. -/
theorem lt_cycleStart_iff {rate : Nat} (runs : 1 ≤ rate) (m i : Nat) :
    2 * m < cycleStart rate i ↔ (m + 1) * rate / 6 < i + 1 := by
  calc 2 * m < cycleStart rate i
      ↔ m + 2 ≤ (6 * (i + 1) + rate - 1) / rate := by rw [cycleStart]; omega
    _ ↔ (m + 2) * rate ≤ 6 * (i + 1) + rate - 1 := Nat.le_div_iff_mul_le runs
    _ ↔ (m + 1) * rate < (i + 1) * 6 := by rw [show (m + 2) * rate = (m + 1) * rate + rate by ring]; omega
    _ ↔ (m + 1) * rate / 6 < i + 1 := (Nat.div_lt_iff_lt_mul (by decide)).symm

theorem cycleStart_le (rate i : Nat) : cycleStart rate i ≤ 2 * (6 * (i + 1) + rate) := by
  have quotient := Nat.div_le_self (6 * (i + 1) + rate - 1) rate
  rw [cycleStart]
  omega

/-- The pairs of beats before the end of a wait are those by which its core cycles have not all begun. -/
theorem lt_waitEnd_iff {s : State} (early : s.stc.toNat < 2 ^ 60) (c m : Nat) {n : Nat} (some : 1 ≤ n) (few : n ≤ 2 ^ 17) :
    2 * m < (waitEnd s c n).toNat ↔ (m + 1) * clockRate s c / 6 < cyclesBegun s c + n := by
  obtain ⟨runs, slow⟩ := clockRate_bounds s c
  have begun := cyclesBegun_le early c
  have fits : cycleStart (clockRate s c) (cyclesBegun s c + n - 1) < 2 ^ 64 :=
    (cycleStart_le _ _).trans_lt (by omega)
  rw [waitEnd, word, BitVec.toNat_ofNat, Nat.mod_eq_of_lt fits, lt_cycleStart_iff runs, Nat.sub_add_cancel (by omega)]

/-! Requests -/

theorem bitsOf_low (v hi : Nat) : bitsOf v hi 0 = v % 2 ^ (hi + 1) := by
  rw [bitsOf, Nat.pow_zero, Nat.div_one, Nat.sub_zero]

theorem bitsOf_high_half (x : Word) : bitsOf x.toNat 63 32 = x.toNat / 2 ^ 32 :=
  Nat.mod_eq_of_lt (Nat.div_lt_of_lt_mul x.isLt)

section
variable {c : Cond} {ctr : BitVec 6} {s : State}

/-- FLOWSIG of a counter that its flow declares (R187), in its turn (08 R206). -/
theorem flowsig_declared {job flow cnt : Nat} (declared : flowCtrs s (partOf s (myId s)) (me s) = some (job, flow, cnt))
    (within : ctr.toNat < cnt) :
    (mustFollow (myRegs s) = false → unreleased s = false →
      Gives (.flowsig c ctr) s (signalFlow s (myId s) job flow ctr.toNat)) ∧
    (mustFollow (myRegs s) = true → Gives (.flowsig c ctr) s (takeTurn s (.flowsig job flow ctr.toNat))) ∧
    (mustFollow (myRegs s) = false → unreleased s = true → Becomes (.flowsig c ctr) s (wait s)) := by
  have listed : ¬cnt ≤ ctr.toNat := by omega
  refine ⟨fun free released h => gives_of_go rfl ?_ rfl h, fun follows h => gives_of_go rfl ?_ rfl h,
    fun free owes h => becomes_of_hold rfl ?_ h⟩
  · simp [declared, listed, free, released]
  · simp [declared, listed, follows, runsAhead_of_issues h]
  · simp [declared, listed, free, owes, runsAhead_of_issues h]

/-- FLOWSIG of a counter that its flow does not declare. -/
theorem flowsig_undeclared {job flow cnt : Nat} (h : flowCtrs s (partOf s (myId s)) (me s) = none ∨
    (flowCtrs s (partOf s (myId s)) (me s) = some (job, flow, cnt) ∧ cnt ≤ ctr.toNat)) :
    Becomes (.flowsig c ctr) s (raiseTrap s (.flowsig c ctr) tILLEGAL []) := by
  rcases h with none | ⟨declared, beyond⟩
  · exact becomes_illegal rfl (by simp [none])
  · exact becomes_illegal rfl (by simp [declared, beyond])

end

/-- Settles O29: the end of a wait is counted by `lt_waitEnd_iff`; the requests are those that the bodies make, FLOWSIG by
whether its flow declares the counter. -/
theorem taskRequests : Obligations.TaskRequests := by
  intro c k d arg n a b e r ctr s job flow cnt ch old cw at1 y
  refine ⟨gives_of_completes rfl rfl, fun early n m some few => lt_waitEnd_iff early _ m some few, gives_of_completes rfl rfl,
    fun even two sixty => gives_of_go rfl (if_neg ?grab) rfl, fun odd => becomes_illegal rfl (if_pos odd),
    gives_of_completes rfl ?rngset, flowsig_declared, flowsig_undeclared⟩
  case grab => omega
  case rngset => rw [bitsOf_low, bitsOf_high_half]; rfl

/-! Barriers -/

section
variable {c : Cond} {tag : BitVec 3} {s : State} {g : Gang} {m : Member}

/-- The phase before a member's next arrival is still to complete, or the arrival before is still to be counted. -/
def phaseOpen (s : State) (g : Gang) (m : Member) (tag : Nat) : Bool :=
  decide (compOf g tag (stratumOf m.core) < arrOf m tag) || arriving (myRegs s) tag

theorem phaseOpen_iff {n : Nat} : phaseOpen s g m n = true ↔
    compOf g n (stratumOf m.core) < arrOf m n ∨ ∃ x ∈ (myRegs s).pend, x.prod = .bara n := by
  simp [phaseOpen, arriving]

theorem bara_closed (bound : barrierOf s tag.toNat = some (g, m)) (closed : phaseOpen s g m tag.toNat = false) :
    (¬mustFollow (myRegs s) = true → unreleased s = false →
      Gives (.bara c tag) s (arriveAt s (myId s) (myN s) tag.toNat)) ∧
    (mustFollow (myRegs s) = true → Gives (.bara c tag) s (takeTurn s (.bara tag.toNat))) ∧
    (¬mustFollow (myRegs s) = true → unreleased s = true → Becomes (.bara c tag) s (wait s)) := by
  rw [phaseOpen] at closed
  refine ⟨fun free released => gives_of_go rfl ?_ rfl, fun follows => gives_of_go rfl ?_ rfl,
    fun free owes => becomes_of_hold rfl ?_⟩
  · simp [bound, closed, free, released]
  · simp [bound, closed, follows]
  · simp [bound, closed, free, owes]

theorem barw_closed (bound : barrierOf s tag.toNat = some (g, m)) (closed : phaseOpen s g m tag.toNat = false) :
    Gives (.barw c tag) s s := by
  rw [phaseOpen] at closed
  exact gives_of_go rfl (by simp [bound, closed]) rfl

theorem barriers_opened (bound : barrierOf s tag.toNat = some (g, m)) (opened : phaseOpen s g m tag.toNat = true) :
    Becomes (.bara c tag) s (wait s) ∧ Becomes (.barw c tag) s (wait s) := by
  rw [phaseOpen] at opened
  exact ⟨becomes_of_hold rfl (by simp [bound, opened]), becomes_of_hold rfl (by simp [bound, opened])⟩

theorem barriers_unbound (unbound : barrierOf s tag.toNat = none) :
    Becomes (.bara c tag) s (raiseTrap s (.bara c tag) tILLEGAL []) ∧
      Becomes (.barw c tag) s (raiseTrap s (.barw c tag) tILLEGAL []) :=
  ⟨becomes_illegal rfl (by simp [unbound]), becomes_illegal rfl (by simp [unbound])⟩

/-- An arrival (R183): the member's count, then what its stratum signals. -/
theorem arriveAt_bound {n : Nat} (bound : barrierOf s n = some (g, m)) :
    arriveAt s (myId s) (myN s) n =
      let p := partOf s (myId s)
      signalPhase (modGang s p g.id fun h => modMember h m.core fun x => { x with arr := mset x.arr n (arrOf x n + 1) })
        p g.id n := by
  rw [barrierOf] at bound
  rw [arriveAt, bound]

theorem barrierOf_of_no_member (alone : (me s).member = false) (n : Nat) : barrierOf s n = none := by
  rw [me] at alone
  simp [barrierOf, barrierAt, alone]

end

/-- Settles O31: both instructions are decided by the gang and member that may use the tag, and by whether its phase is open. -/
theorem barriers : Obligations.Barriers := by
  intro c tag s g m n p follows open'
  have phase : phaseOpen s g m n = true ↔ open' := phaseOpen_iff
  refine ⟨fun bound closed => ?_, fun bound opened => barriers_opened bound (phase.mpr opened),
    fun bound closed => barw_closed bound (Bool.eq_false_iff.mpr (mt phase.mp closed)),
    fun alone => barrierOf_of_no_member alone n, barriers_unbound⟩
  have h := bara_closed (c := c) bound (Bool.eq_false_iff.mpr (mt phase.mp closed))
  rwa [arriveAt_bound bound] at h

/-! Events sent -/

section
variable {i : Instr} {s : State} {body : State → Act} (runs : exec i s = .next (issue i s body))
include runs

/-- The three states of a send (R181): its record goes once its context owes no release, then it waits, then it completes. -/
theorem becomes_sendBody {ev : Event} {pay : List Word} (ends : body s = sendBody s ev pay) :
    ((me s).await = none → unreleased s = false → Becomes i s (launchEvent
      (modMe { s with serial := s.serial + 1 } fun x => { x with await := some { id := s.serial, done := false } }) ev
      (partOf s (myId s)) pay (some (myId s, myN s)))) ∧
    (∀ w, (me s).await = some w → w.done = true → Gives i s (modMe s fun x => { x with await := none })) ∧
    (∀ w, (me s).await = some w → w.done = false → Becomes i s (wait s)) := by
  refine ⟨fun first released => ?_, fun w asked done => ?_, fun w asked pending => ?_⟩
  · exact becomes_of_stay runs (by simp only [ends, sendBody, first, released, request, Bool.and_false]; rfl) rfl
  · exact gives_of_go runs (by simp [ends, sendBody, asked, request, done]) rfl
  · exact becomes_of_hold runs (by simp [ends, sendBody, asked, request, pending])

end

/-- The record of a send, its PL bit as a relation. -/
theorem sendRecord_eq (s : State) (dst a b : SSrc) (chan : BitVec 6) (off : BitVec 32) (words : Nat) :
    sendRecord s dst a b chan off words =
      { chan, dest := (sv s dst).setWidth 16, src := BitVec.ofNat 16 (myId s), stc := 0, arg0 := sv s a, arg1 := sv s b,
        pl := decide (words ≠ 0), und := false, llen := BitVec.ofNat 14 words, loff := 0, dloff := off } := by
  have pl : (words != 0) = decide (words ≠ 0) := by cases words <;> rfl
  rw [sendRecord, pl]

section
variable {c : Cond} {desc : SReg} {dst a b : SSrc} {chan : BitVec 6} {s : State}

/-- What SENDP reads at its descriptor (R180): the payload's offset and length. -/
def payloadOf (s : State) (desc : SReg) : Nat × Nat :=
  ((rdS (myRegs s) desc).toNat % 2 ^ 19, (rdS (myRegs s) desc).toNat / 2 ^ 32 % 2 ^ 14)

theorem exec_sendp : exec (.sendp c desc dst a b chan) s = .next (issue (.sendp c desc dst a b chan) s fun s =>
    let p := payloadOf s desc
    if p.1 % 8 ≠ 0 then .trap s (tMISALIGNED p.1)
    else if 8192 < p.2 ∨ coreSp s (myId s) < p.1 + 8 * p.2 then .trap s (tAPERTURE p.1)
    else sendBody s (sendRecord s dst a b chan 0 p.2)
      ((List.range p.2).map fun k => readWord s (myId s) (p.1 + 8 * k))) := by
  have low (p : Nat) : p % 2 ^ 19 = bitsOf p 18 0 := (bitsOf_low p 18).symm
  simp only [payloadOf, low]
  rfl

end

/-- Settles O30: both bodies are `sendBody` of their record, for SENDP once its descriptor has passed the checks. -/
theorem sends : Obligations.Sends := by
  intro c desc dst a b chan off s w p o n i j rec0 sends
  have sent {i : Instr} {body : State → Act} {ev : Event} {pay : List Word} (runs : exec i s = .next (issue i s body))
      (ends : body s = sendBody s ev pay) : sends i ev pay := by
    obtain ⟨first, done, waits⟩ := becomes_sendBody runs ends
    exact ⟨first, done w, waits w⟩
  have record (words : Nat) (dl : BitVec 32) : sendRecord s dst a b chan dl words = rec0 words dl := sendRecord_eq ..
  refine ⟨sent rfl ?_, fun aligned short inside => sent exec_sendp ?_, fun misaligned => ?_, fun aligned long => ?_⟩
  · rw [← record]
  · rw [← record]
    exact (if_neg (not_not.mpr aligned)).trans (if_neg (not_or.mpr ⟨not_lt.mpr short, not_lt.mpr inside⟩))
  · exact becomes_of_trap exec_sendp (if_pos misaligned) (show 6 ≠ 7 by decide)
  · exact becomes_of_trap exec_sendp ((if_neg (not_not.mpr aligned)).trans (if_pos long)) (show 5 ≠ 7 by decide)

end Sys2Proof.Machine
end

section
/-! SUPPORT. The end of a task (07 R168): what DONE waits for, and what each part of its end leaves, with the proof of the
statement about it. -/

namespace Sys2Proof.Machine

/-! The context that runs, through every part of the end of its task -/

theorem cur_endRun (s : State) (c : Nat) : (endRun s c).cur = s.cur := by
  unfold endRun
  split
  · split <;> rfl
  · rfl

theorem cur_writePlaces (s : State) (ws : List (Place × Byte)) : (writePlaces s ws).cur = s.cur := by
  have bytes : (writeBytes s ws).cur = s.cur := foldl_keeps State.cur _ (fun t ⟨p, v⟩ => by cases p <;> rfl) ws s
  have shown : (showWrites (writeBytes s ws) ws).cur = (writeBytes s ws).cur := by
    unfold showWrites
    split <;> rfl
  have units (t : State) (us : List Nat) : (rewriteUnits t us).cur = t.cur := foldl_keeps State.cur _ (fun _ _ => by rfl) us t
  have cleared (t : State) : (unpoison t ws).cur = t.cur := by
    unfold unpoison
    split <;> dsimp only <;> split
    · exact units t _
    · rfl
    · exact units { t with poison := _ } _
    · rfl
  exact (cleared _).trans (shown.trans bytes)

theorem cur_sendPeerStores (s : State) (c n part : Nat) (gen : BitVec 16) (kind : Nat) (copy : Option Nat)
    (ws : List (Nat × Byte)) : (sendPeerStores s c n part gen kind copy ws).cur = s.cur := by
  refine foldl_keeps State.cur _ (fun t d => ?_) _ s
  unfold sendPacket armRoute
  split <;> rfl

theorem cur_performOldest (s : State) (c n : Nat) : (performOldest s c n).cur = s.cur := by
  unfold performOldest
  split
  · rfl
  · exact (cur_sendPeerStores ..).trans (cur_writePlaces ..)

theorem cur_flushOverflow (s : State) (c n : Nat) : (flushOverflow s c n).cur = s.cur :=
  foldl_keeps State.cur _ (fun t _ => cur_performOldest t c n) _ s

theorem cur_keepEnded (s : State) (c n : Nat) : (keepEnded s c n).cur = s.cur := by
  unfold keepEnded
  dsimp only
  split <;> rfl

/-! The gang of a member that ends: no core changes -/

/-- The context that runs and the cores. -/
def curCores (s : State) : (Nat × Nat) × Map Core := (s.cur, s.cores)

theorem curCores_signalPhase (s : State) (p id tag : Nat) : curCores (signalPhase s p id tag) = curCores s := by
  unfold signalPhase
  split
  · rfl
  · dsimp only
    split
    · rfl
    · split
      · rfl
      · split <;> rfl

theorem curCores_signalAll (s : State) (p id : Nat) : curCores (signalAll s p id) = curCores s := by
  unfold signalAll
  split
  · rfl
  · exact foldl_keeps curCores _ (fun t tag => curCores_signalPhase t p id tag) _ s

theorem curCores_memberDone (s : State) (c : Nat) (x : Ctx) : curCores (memberDone s c x) = curCores s := by
  unfold memberDone
  generalize (if x.member then gangOf s c x else none) = gang
  cases gang with
  | none => rfl
  | some g =>
    dsimp only
    split <;> exact curCores_signalAll ..

theorem cur_memberDone (s : State) (c : Nat) (x : Ctx) : (memberDone s c x).cur = s.cur :=
  congrArg Prod.fst (curCores_memberDone s c x)

theorem getCore_memberDone (s : State) (c : Nat) (x : Ctx) (d : Nat) : getCore (memberDone s c x) d = getCore s d :=
  congrArg (fun u : (Nat × Nat) × Map Core => mget u.2 d Core.reset) (curCores_memberDone s c x)

/-! The parts of the end of a task -/

/-- The end of the client's status, of a context that is it. -/
def withoutLease (s : State) (c n : Nat) : State := if (getCore s c).client = some n then releaseLease s c else s

/-- The payload of a handler's event freed. -/
def withoutLanding (s : State) (c : Nat) (x : Ctx) : State :=
  match x.chan, x.landing with
  | some ch, some id => freeLanding s c ch id
  | _, _ => s

/-- The state in which a task's context is freed. -/
def beforeFree (s : State) (c n : Nat) : State :=
  let t := keepEnded (flushOverflow (withoutLease s c n) c n) c n
  withoutLanding t c (getCtx t c n)

theorem finishTask_eq (s : State) (c n : Nat) :
    ∃ x, finishTask s c n = memberDone (freeCtxSlot (beforeFree s c n) c n) c x := by
  unfold finishTask beforeFree withoutLease
  generalize (if (getCore s c).client = some n then releaseLease s c else s) = t
  dsimp only
  generalize keepEnded (flushOverflow t c n) c n = u
  exact ⟨_, rfl⟩

section
variable (s : State) (c n : Nat)

theorem cores_endRun : (endRun s c).cores = s.cores := by
  unfold endRun
  split
  · split <;> rfl
  · rfl

theorem cur_withoutLease : (withoutLease s c n).cur = s.cur := by
  unfold withoutLease
  split
  · exact cur_endRun _ c
  · rfl

theorem getCtx_withoutLease : getCtx (withoutLease s c n) c n = getCtx s c n := by
  unfold withoutLease
  split
  · rw [releaseLease, getCtx, getCore, cores_endRun, ← getCore, getCore_modCore_same]; rfl
  · rfl

variable (x : Ctx)

theorem cur_withoutLanding : (withoutLanding s c x).cur = s.cur := by
  unfold withoutLanding
  split <;> rfl

theorem ended_withoutLanding : (getCore (withoutLanding s c x) c).ended = (getCore s c).ended := by
  unfold withoutLanding
  split
  · rw [freeLanding, modRing, getCore_modCore_same]
  · rfl

theorem cur_freeCtxSlot : (freeCtxSlot s c n).cur = s.cur := rfl

theorem ended_freeCtxSlot : (getCore (freeCtxSlot s c n) c).ended = (getCore s c).ended :=
  (congrArg (fun k : Core => k.ended) (getCore_modCtx { s with brought := _ } c n c _) :)

theorem flushOverflow_nothing (h : (getCtx s c n).fwd = []) : flushOverflow s c n = s := by
  rw [flushOverflow, h]; rfl

/-- What a task leaves is kept under its number. -/
theorem pend_keepEnded (left : leftOver (getCtx s c n) ≠ []) :
    (mget (getCore (keepEnded s c n) c).ended (8 * (getCtx s c n).uid + n) Ctx.reset).regs.pend = leftOver (getCtx s c n) := by
  have kept : ¬((leftOver (getCtx s c n)).isEmpty && !commandsHeld s c n (getCtx s c n).uid) = true := by simp [left]
  rw [keepEnded]
  dsimp only
  rw [if_neg kept, getCore_modCore_same, mget_mset_same]

end

/-! The end of a task -/

section
variable {s : State} {c n : Nat}

theorem cur_finishTask : (finishTask s c n).cur = s.cur := by
  obtain ⟨x, e⟩ := finishTask_eq s c n
  rw [e, cur_memberDone, cur_freeCtxSlot, beforeFree, cur_withoutLanding, cur_keepEnded, cur_flushOverflow, cur_withoutLease]

theorem getCore_finishTask (d : Nat) : getCore (finishTask s c n) d = getCore (freeCtxSlot (beforeFree s c n) c n) d := by
  obtain ⟨x, e⟩ := finishTask_eq s c n
  rw [e, getCore_memberDone]

theorem getCtx_finishTask : getCtx (finishTask s c n) c n = getCtx (freeCtxSlot (beforeFree s c n) c n) c n := by
  rw [getCtx, getCore_finishTask]; rfl

theorem pend_ended_finishTask (left : leftOver (getCtx s c n) ≠ []) (sent : (getCtx s c n).fwd = []) :
    (mget (getCore (finishTask s c n) c).ended (8 * (getCtx s c n).uid + n) Ctx.reset).regs.pend =
      leftOver (getCtx s c n) := by
  have same := getCtx_withoutLease s c n
  rw [getCore_finishTask, ended_freeCtxSlot, beforeFree, ended_withoutLanding, flushOverflow_nothing _ _ _ (by rw [same, sent]), ← same]
  exact pend_keepEnded _ c n (by rw [same]; exact left)

end

theorem get_replicate {α : Type} {m : Nat} (a : α) (i : Fin m) : (Vector.replicate m a).get i = a :=
  Vector.getElem_replicate i.isLt

/-- A freed context. -/
theorem getCtx_freeCtxSlot (s : State) (c n : Nat) : let x := getCtx (freeCtxSlot s c n) c n
    x.resident = false ∧ x.regs.pend = [] ∧ (∀ f : FReg, rdF x.regs f = []) ∧ ∀ y : XReg, rdX x.regs y = Stream.idle := by
  rw [freeCtxSlot]
  dsimp only
  rw [getCtx_modCtx_same]
  exact ⟨rfl, rfl, fun f => get_replicate _ _, fun y => get_replicate _ _⟩

theorem me_of_cur {s t : State} (h : t.cur = s.cur) : me t = getCtx t (myId s) (myN s) := by
  rw [me, myId, myN, h]; rfl

/-- The context of a task that has ended. -/
theorem me_finishTask (s : State) : let x := me (finishTask s (myId s) (myN s))
    x.resident = false ∧ x.regs.pend = [] ∧ (∀ f : FReg, rdF x.regs f = []) ∧ ∀ y : XReg, rdX x.regs y = Stream.idle := by
  rw [me_of_cur cur_finishTask, getCtx_finishTask]
  exact getCtx_freeCtxSlot _ _ _

/-- What the task that runs leaves at its end. -/
theorem pend_ended_mine {s : State} (left : leftOver (me s) ≠ []) (sent : (me s).fwd = []) :
    (mget (getCore (finishTask s (myId s) (myN s)) (myId s)).ended (8 * (me s).uid + myN s) Ctx.reset).regs.pend =
      leftOver (me s) := by
  rw [me] at left sent ⊢
  exact pend_ended_finishTask left sent

/-- Settles O32: DONE passes its waits in the order of its body, and `finishTask` keeps what is left before it frees the
context. -/
theorem taskEnd : Obligations.TaskEnd := by
  intro c s
  dsimp only
  refine ⟨fun held => becomes_of_hold rfl (if_pos held), fun free owns => ?_, fun free freed waits => ?_,
    fun free freed idle closed h => ?_⟩
  · exact becomes_of_stay rfl ((if_neg free).trans (if_pos owns)) rfl
  · have freed : ¬ownsGuards (myCore s) (myN s) = true := Bool.eq_false_iff.mp freed
    refine becomes_of_hold rfl ((if_neg free).trans ((if_neg freed).trans ?_))
    rcases waits with working | ⟨member, release⟩
    · exact if_pos working
    · split
      · rfl
      · exact if_pos (by simpa [member] using release)
  · have freed : ¬ownsGuards (myCore s) (myN s) = true := Bool.eq_false_iff.mp freed
    have released : ¬((me s).member && (unreleased s || owesRelease (myRegs s))) = true := by simpa using closed
    have ends : exec (.done c) s = .next (finishTask s (myId s) (myN s)) := becomes_of_stay (i := .done c) rfl
      ((if_neg free).trans ((if_neg freed).trans ((if_neg idle).trans (if_neg released)))) rfl h
    obtain ⟨resident, pend, fifos, streams⟩ := me_finishTask s
    exact ⟨_, ends, resident, pend, fifos, streams, pend_ended_mine⟩

end Sys2Proof.Machine
end

section
/-! SUPPORT. The vector instructions that compute lane by lane (08 R190 to R194, R196, R198 to R202), and the proofs of
the statements about them. -/

namespace Sys2Proof.Machine

/-- An instruction that does nothing but write the lanes that a function of the state gives. -/
theorem vectorGives_of_lanes {i : Instr} {s : State} {p : Pred} {d : VReg} {f : State → Nat → Lane × FFlags}
    {g : Nat → Lane × FFlags} (runs : exec i s = .next (issue i s fun s => putV s p d (f s)))
    (value : ∀ k, f s k = g k) : VectorGives i s p d g := by
  rw [← funext value]
  exact vectorGives_putV i s p d (f s) (exec_of_issues runs)

/-- Settles O16: every element result is the model's own function of one element. -/
theorem vectorFloat : Obligations.VectorFloat := by
  unfold Obligations.VectorFloat
  intro p t d a b e q s
  refine ⟨?_, ?_, ?_, ?_, ?_, ?_, ?_, ?_, ?_, ?_, ?_, ?_, ?_, ?_, ?_, ?_, ?_, ?_⟩ <;>
    exact vectorGives_of_lanes rfl fun _ => rfl

/-! Integer elements (08 R194) -/

theorem etLo_le_etHi (t : ElemT) : etLo t ≤ etHi t := by
  cases t <;> decide

theorem clampI_eq_max_min {lo hi : Int} (x : Int) (h : lo ≤ hi) : clampI x lo hi = max lo (min x hi) := by
  unfold clampI
  split <;> omega

theorem ite_lt_eq_ite_le {α : Type} (x y : Int) (u v : α) : (if y < x then v else u) = if x ≤ y then u else v := by
  simp only [← not_le, ite_not]

/-- Settles O17: the model's minimum, maximum and clamp are those of the statement, every other function is the same. -/
theorem vectorInteger : Obligations.VectorInteger := by
  unfold Obligations.VectorInteger
  intro p t d a b s e w gives
  have minimum : gives (.vimin p t d a b) (fun x y => if etInt e x ≤ etInt e y then x else y) :=
    vectorGives_of_lanes rfl fun k => by simp only [ite_lt_eq_ite_le]; rfl
  have maximum : gives (.vimax p t d a b) (fun x y => if etInt e y ≤ etInt e x then x else y) :=
    vectorGives_of_lanes rfl fun k => by simp only [ite_lt_eq_ite_le]; rfl
  have clamped : gives (.vqadd p t d a b) (fun x y => modW w (max (etLo e) (min (etInt e x + etInt e y) (etHi e)))) :=
    vectorGives_of_lanes rfl fun k => by simp only [← clampI_eq_max_min _ (etLo_le_etHi _)]; rfl
  refine ⟨?_, ?_, ?_, ?_, ?_, ?_, ?_, ?_, ?_, ?_, minimum, maximum, clamped⟩ <;>
    exact vectorGives_of_lanes rfl fun _ => rfl

/-! Moves, conversions and permutations (08 R196, R198 to R200, R202) -/

theorem setWidth_add_word (x : Word) (k : Nat) : (x + word k).setWidth 32 = BitVec.ofNat 32 (x.toNat + k) := by
  apply BitVec.eq_of_toNat_eq
  simp only [word, BitVec.toNat_setWidth, BitVec.toNat_add, BitVec.toNat_ofNat]
  omega

theorem badSel_eq_false {i4 : Bool} {n : Nat} (h : i4 = true ∨ n ≤ 3) : badSel i4 n = false := by
  rcases h with rfl | h
  · rfl
  · simp only [badSel, Bool.and_eq_false_iff, decide_eq_false_iff_not]
    omega

/-- The same where a first check of the operands, which lets them pass, may refuse the instruction. -/
theorem vectorGives_of_checked {i : Instr} {s : State} {p : Pred} {d : VReg} {c : Bool} {f : State → Nat → Lane × FFlags}
    {g : Nat → Lane × FFlags} (pass : c = false)
    (runs : exec i s = .next (issue i s fun s => if c then .trap s tILLEGAL else putV s p d (f s)))
    (value : ∀ k, f s k = g k) : VectorGives i s p d g := by
  subst pass
  exact vectorGives_of_lanes runs value

/-- Settles O18: with the sub-element inside its lane no check of the model refuses, and the lanes are its own. -/
theorem vectorMoves : Obligations.VectorMoves := by
  unfold Obligations.VectorMoves
  intro p d a b o q n cp td ts rm ns i4 sel sl sz dt s
  refine ⟨?_, ?_, ?_, ?_, ?_, ?_, ?_, ?_, ?_, ?_⟩
  · exact vectorGives_of_lanes rfl fun _ => rfl
  · exact fun inside => vectorGives_of_checked inside rfl fun _ => rfl
  · exact fun inside => ⟨vectorGives_of_checked (badSel_eq_false inside) rfl fun _ => rfl,
      vectorGives_of_checked (badSel_eq_false inside) rfl fun _ => rfl⟩
  · exact vectorGives_of_lanes rfl fun _ => rfl
  · exact vectorGives_of_lanes rfl fun _ => rfl
  · exact vectorGives_of_lanes rfl fun _ => rfl
  · exact vectorGives_of_lanes rfl fun _ => rfl
  · exact vectorGives_of_lanes rfl fun k => by rw [setWidth_add_word]
  · exact vectorGives_of_lanes rfl fun _ => rfl
  · exact vectorGives_of_lanes rfl fun _ => rfl

end Sys2Proof.Machine
end

section
/-! SUPPORT. Predicates bit by bit, and the vector instructions that write a predicate, a scalar or lanes that depend on one
another (08 R195, R197, R200, R201), with the proof of the statement about them. -/

namespace Sys2Proof.Machine

/-! Two writes of one context are one write -/

@[simp] theorem mset_mset {α : Type} (m : Map α) (k : Nat) (v w : α) : mset (mset m k v) k w = mset m k w := by
  induction m with
  | nil => simp [mset]
  | cons x r ih =>
    obtain ⟨j, u⟩ := x
    simp only [mset]
    split
    · simp [mset]
    · split
      · simp [mset]
      · simp only [mset, *, if_false]

theorem modRegs_modRegs (s : State) (f g : Regs → Regs) : modRegs (modRegs s f) g = modRegs s fun r => g (f r) := by
  simp only [modRegs, modMe, modCtx, modCore, setCore, myId, myN, getCore, ctxOf, mget_mset_same, mset_mset]

theorem raise_modRegs_zero (s : State) (f : Regs → Regs) : raise (modRegs s f) 0 = modRegs s f := by
  simp [raise, modRegs_modRegs]

/-! A predicate from its bits -/

theorem sum_two_pow_testBit (f : Nat → Bool) (n : Nat) :
    let x := (List.range n).foldl (fun acc i => acc + if f i then 2 ^ i else 0) 0
    x < 2 ^ n ∧ ∀ k, k < n → x.testBit k = f k := by
  induction n with
  | zero => exact ⟨Nat.one_pos, fun k h => absurd h (Nat.not_lt_zero k)⟩
  | succ n ih =>
    obtain ⟨below, bits⟩ := ih
    simp only [List.range_succ, List.foldl_append, List.foldl_cons, List.foldl_nil]
    generalize (List.range n).foldl (fun acc i => acc + if f i then 2 ^ i else 0) 0 = x at below bits
    have top : (x + if f n then 2 ^ n else 0).testBit n = f n := by
      cases f n
      · simpa using Nat.testBit_lt_two_pow below
      · rw [if_pos rfl, Nat.add_comm, Nat.testBit_two_pow_add_eq, Nat.testBit_lt_two_pow below]; rfl
    have lower : ∀ k, k < n → (x + if f n then 2 ^ n else 0).testBit k = x.testBit k := fun k h => by
      cases f n
      · simp
      · rw [if_pos rfl, Nat.add_comm, Nat.testBit_two_pow_add_gt h]
    refine ⟨by split <;> omega, fun k h => ?_⟩
    rcases Nat.lt_succ_iff_lt_or_eq.mp h with h | rfl
    · exact (lower k h).trans (bits k h)
    · exact top

theorem getLsbD_mkP (f : Nat → Bool) {k : Nat} (h : k < 64) : (mkP f).getLsbD k = f k := by
  obtain ⟨-, bits⟩ := sum_two_pow_testBit f 64
  rw [mkP, BitVec.getLsbD_ofNat, decide_eq_true h, Bool.true_and, bits k h]

theorem getLsbD_mergeP (m old : BitVec 64) (f : Nat → Bool) {k : Nat} (h : k < 64) :
    (mergeP m old f).getLsbD k = if m.getLsbD k then f k else old.getLsbD k :=
  getLsbD_mkP _ h

/-! Compares and predicate operations -/

/-- An instruction that writes the active bits of a predicate and raises no flag. -/
theorem sets_of_mergeP {i : Instr} {s : State} {p : Pred} {d : PReg} {f : State → Nat → Bool} {g : Nat → Bool}
    (runs : exec i s = .next (issue i s fun s => .go (setP s d (mergeP (lanes s p) (rdP (myRegs s) d) (f s)))))
    (value : ∀ k, f s k = g k) (h : issues i s = true) : ∃ v : BitVec 64,
      exec i s = .next (advance (raise (setP s d v) 0) i) ∧
        ∀ k, k < 64 → v.getLsbD k = if (lanes s p).getLsbD k then g k else (rdP (myRegs s) d).getLsbD k := by
  refine ⟨_, ?_, fun k hk => (getLsbD_mergeP _ _ (f s) hk).trans (by rw [value])⟩
  rw [setP, raise_modRegs_zero]
  exact exec_of_completes runs h

/-- The flags of a compare are those of the active lanes, and its bits are those of the lanes. -/
theorem sets_vcmp {p : Pred} {t : CmpT} {cc : VCond} {d : PReg} {a : VSrc} {b : VOpB} {s : State}
    (legal : badCond t cc = false) (h : issues (.vcmp p t cc d a b) s = true) : ∃ v : BitVec 64,
      exec (.vcmp p t cc d a b) s = .next (advance (raise (setP s d v) ((List.range 64).foldl (fun g k =>
        g ||| if (lanes s p).getLsbD k then (cmpLane t cc (elV s a 32 k 0) (opV s b 32 k 0)).2 else 0) 0))
          (.vcmp p t cc d a b)) ∧
        ∀ k, k < 64 → v.getLsbD k = if (lanes s p).getLsbD k then (cmpLane t cc (elV s a 32 k 0) (opV s b 32 k 0)).1
          else (rdP (myRegs s) d).getLsbD k := by
  have bit (k : Nat) (hk : k < 64) : (((List.range 64).map fun i => if (lanes s p).getLsbD i
      then cmpLane t cc (elV s a 32 i 0) (opV s b 32 i 0) else (false, 0)).getD k (false, 0)) =
        if (lanes s p).getLsbD k then cmpLane t cc (elV s a 32 k 0) (opV s b 32 k 0) else (false, 0) := by
    rw [List.getD_eq_getElem?_getD, List.getElem?_map, List.getElem?_range hk, Option.map_some, Option.getD_some]
  have runs := exec_of_issues (i := .vcmp p t cc d a b) rfl h
  simp only [legal, Bool.false_eq_true, if_false, endOf_go, List.foldl_map, apply_ite Prod.snd] at runs
  refine ⟨_, runs, fun k hk => (getLsbD_mergeP _ _ _ hk).trans ?_⟩
  rw [bit k hk]
  split <;> rfl

/-! Counts, extractions, reductions and scans -/

theorem lowBit_clear {w : Nat} (n : Nat) : ∀ i, (∀ k, i ≤ k → k < i + n → bitOf w k = false) → lowBit w n i = i + n := by
  induction n with
  | zero => exact fun _ _ => rfl
  | succ n ih =>
    intro i clear
    rw [lowBit, clear i (Nat.le_refl i) (by omega), if_neg (by decide), ih _ fun k h h' => clear k (by omega) (by omega)]
    omega

theorem bitOf_toNat (x : Word) (k : Nat) : bitOf x.toNat k = x.getLsbD k := by
  rw [BitVec.getLsbD, Nat.testBit_eq_decide_div_mod_eq]; rfl

/-- Settles O19: a predicate by its bits (`getLsbD_mergeP`), the first set bit by the search for it, a sum sign-extended
from 32 bits. -/
theorem vectorScalarResults : Obligations.VectorScalarResults := by
  unfold Obligations.VectorScalarResults
  intro p t cc d e w a b pa pb l n o s
  refine ⟨sets_vcmp, sets_of_mergeP rfl fun _ => rfl, sets_of_mergeP rfl fun _ => rfl, sets_of_mergeP rfl fun _ => rfl,
    ?_, fun none => ?_, fun j within set clear => ?_, ?_, ?_, ?_⟩
  · exact gives_setS rfl (by rw [popcount_eq_countP])
  · exact gives_setS rfl (by rw [none]; decide)
  · refine gives_setS rfl (congrArg word (lowBit_of_lowest (fun i h => ?_) ?_ 64 0 (Nat.zero_le j) (by omega)))
    · rw [bitOf_toNat, clear i h]
    · rw [bitOf_toNat, set]
  · exact gives_setS rfl rfl
  · exact gives_of_completes rfl (by rw [sextW_eq])
  · exact gives_of_completes rfl rfl

end Sys2Proof.Machine
end

section
/-! SUPPORT. The frame of the vector computing instructions (08 R190 to R202, 03 R74), and the proof of the statement about
it. -/

namespace Sys2Proof.Machine

/-! A v, p or x register that is written, and the others of its file -/

theorem get_wrV_other (r : Regs) (v : VWord) {d n : VReg} (h : n ≠ d) : (wrV r d v).v.get n.toFin = r.v.get n.toFin := by
  have index : ¬d.toNat = n.toFin.val := fun e => h (BitVec.eq_of_toNat_eq e.symm)
  rw [wrV, vector_get_set, if_neg index]

theorem get_wrP_other (r : Regs) (v : BitVec 64) {d n : PReg} (h : n ≠ d) :
    (wrP r d v).p.get n.toFin = r.p.get n.toFin := by
  unfold wrP
  split
  · rfl
  · have index : ¬d.toNat = n.toFin.val := fun e => h (BitVec.eq_of_toNat_eq e.symm)
    rw [vector_get_set, if_neg index]

theorem get_wrX_other (r : Regs) (v : Stream) {d n : XReg} (h : n ≠ d) :
    (wrX r d v).x.get n.toFin = r.x.get n.toFin := by
  have index : ¬d.toNat = n.toFin.val := fun e => h (BitVec.eq_of_toNat_eq e.symm)
  rw [wrX, vector_get_set, if_neg index]

theorem keepsRegisters_setV (s : State) (d : VReg) (v : VWord) : KeepsRegisters [.v d] (me s) (me (setV s d v)) := by
  rw [setV, me_modRegs]
  exact ⟨fun _ _ => rfl, fun n other => get_wrV_other _ v (by simpa using other), fun _ _ => rfl, fun _ _ => rfl,
    fun _ _ => rfl, rfl⟩

theorem keepsRegisters_setP (s : State) (d : PReg) (v : BitVec 64) :
    KeepsRegisters [.p d] (me s) (me (setP s d v)) := by
  rw [setP, me_modRegs]
  refine ⟨fun _ _ => ?_, fun _ _ => ?_, fun n other => get_wrP_other _ v (by simpa using other), fun _ _ => ?_,
    fun _ _ => ?_, ?_⟩ <;> simp only [wrP] <;> split <;> rfl

theorem keepsRegisters_wrX (s : State) (d : XReg) (v : Stream) :
    KeepsRegisters [.x d] (me s) (me (modRegs s fun r => wrX r d v)) := by
  rw [me_modRegs]
  exact ⟨fun _ _ => rfl, fun _ _ => rfl, fun _ _ => rfl, fun _ _ => rfl,
    fun n other => get_wrX_other _ v (by simpa using other), rfl⟩

theorem fstat_setP (s : State) (d : PReg) (v : BitVec 64) : (myRegs (setP s d v)).fstat = (myRegs s).fstat := by
  rw [myRegs, setP, me_modRegs]
  simp only [wrP]
  split <;> rfl

theorem fstat_setV (s : State) (d : VReg) (v : VWord) : (myRegs (setV s d v)).fstat = (myRegs s).fstat := by
  rw [myRegs, setV, me_modRegs]; rfl

theorem fstat_wrX (s : State) (d : XReg) (v : Stream) :
    (myRegs (modRegs s fun r => wrX r d v)).fstat = (myRegs s).fstat := by
  rw [myRegs, me_modRegs]; rfl

/-! Flags that are raised -/

theorem fstat_raise (s : State) (g : FFlags) : (myRegs (raise s g)).fstat = (myRegs s).fstat ||| g := by
  rw [myRegs, raise, me_modRegs]; rfl

theorem KeepsRegisters.raise {ds : List Dst} {x : Ctx} {t : State} (h : KeepsRegisters ds x (me t)) (g : FFlags) :
    KeepsRegisters ds x (me (raise t g)) := by
  obtain ⟨hs, hv, hp, hq, hx, rest⟩ := h
  rw [Machine.raise, me_modRegs]
  refine ⟨hs, hv, hp, hq, hx, ?_⟩
  rw [rest]

theorem and_or_self {w : Nat} (x y : BitVec w) : x &&& (x ||| y) = x :=
  BitVec.eq_of_getLsbD_eq fun i _ => by
    simp only [BitVec.getLsbD_and, BitVec.getLsbD_or]
    exact inf_sup_self

/-! The shapes of a vector computing instruction -/

/-- A vector computing instruction writes the one register that it lists, and may raise flags. -/
theorem exec_vectorPlain {i : Instr} {s : State} (plain : vectorPlain i = true) (h : issues i s = true) :
    (∃ d v g, (useOf i).dsts = [.v d] ∧ exec i s = .next (advance (raise (setV s d v) g) i)) ∨
    (∃ d v, (useOf i).dsts = [.p d] ∧ exec i s = .next (advance (setP s d v) i)) ∨
    (∃ d v, (useOf i).dsts = [.s d] ∧ exec i s = .next (advance (setS s d v) i)) ∨
    (∃ d v g, (useOf i).dsts = [.s d] ∧ exec i s = .next (advance (raise (setS s d v) g) i)) ∨
    ∃ d v, (useOf i).dsts = [.x d] ∧ exec i s = .next (advance (modRegs s fun r => wrX r d v) i) := by
  cases i with
  | plog => exact .inr (.inl ⟨_, _, rfl, exec_of_completes rfl h⟩)
  | pcnt | pfirst | vextr => exact .inr (.inr (.inl ⟨_, _, rfl, exec_of_completes rfl h⟩))
  | vred => exact .inr (.inr (.inr (.inl ⟨_, _, _, rfl, exec_of_completes rfl h⟩)))
  | strm => exact .inr (.inr (.inr (.inr ⟨_, _, rfl, exec_of_completes rfl h⟩)))
  | vadd | vsub | vmul | vfma | vfms | vfnma | vmin | vmax | vabs | vneg | vrcp | vrsq | vrsqe | vsqrt | vdiv | vexp2
  | vlog2 | vclass | viadd | visub | vimul | vimulh | vand | vor | vxor | vshl | vshr | vsar | vimin | vimax | vqadd
  | vsel | vbcast | vins | vshuf | vrot | viota | vmov | vscan | vdot =>
    exact .inl ⟨_, _, _, rfl, exec_of_completes rfl h⟩
  | _ => contradiction

/-- What such an instruction leaves as it was before it moves past itself. -/
theorem vectorPlain_frame {i : Instr} {s : State} (plain : vectorPlain i = true) (h : issues i s = true) :
    ∃ u, exec i s = .next (advance u i) ∧ KeepsRegisters (useOf i).dsts (me s) (me u) ∧
      (∃ g, (myRegs u).fstat = (myRegs s).fstat ||| g) ∧ OnlyMine s u := by
  have none {u : State} (h : (myRegs u).fstat = (myRegs s).fstat) : ∃ g, (myRegs u).fstat = (myRegs s).fstat ||| g :=
    ⟨0, h.trans (by simp)⟩
  have mine (f : Regs → Regs) : OnlyMine s (modRegs s f) := (OnlyMine.refl s).modRegs f
  rcases exec_vectorPlain plain h with ⟨d, v, g, dst, e⟩ | ⟨d, v, dst, e⟩ | ⟨d, v, dst, e⟩ | ⟨d, v, g, dst, e⟩ |
    ⟨d, v, dst, e⟩
  · exact ⟨_, e, dst ▸ (keepsRegisters_setV s d v).raise g, ⟨g, by rw [fstat_raise, fstat_setV]⟩, (mine _).modRegs _⟩
  · exact ⟨_, e, dst ▸ keepsRegisters_setP s d v, none (fstat_setP s d v), mine _⟩
  · exact ⟨_, e, dst ▸ keepsRegisters_setS s d v, none (fstat_setS s d v), mine _⟩
  · exact ⟨_, e, dst ▸ (keepsRegisters_setS s d v).raise g, ⟨g, by rw [fstat_raise, fstat_setS]⟩, (mine _).modRegs _⟩
  · exact ⟨_, e, dst ▸ keepsRegisters_wrX s d v, none (fstat_wrX s d v), mine _⟩

theorem fstat_advance (s : State) (i : Instr) : (myRegs (advance s i)).fstat = (myRegs s).fstat := by
  rw [myRegs, advance, me_modRegs]; rfl

/-- Settles O50: beside the write of its destination and the flags that it raises the instruction only moves past itself. -/
theorem vectorFrame : Obligations.VectorFrame := by
  intro i s t plain h runs
  obtain ⟨u, e, keeps, ⟨g, flags⟩, mine⟩ := vectorPlain_frame plain h
  obtain rfl : advance u i = t := by simpa [e] using runs
  obtain ⟨memory, elsewhere, units⟩ := mine.modRegs fun r => { r with pc := nextPc r.pc i.len }
  refine ⟨keeps.advance i, ?_, memory, elsewhere, units⟩
  rw [fstat_advance, flags, and_or_self]

end Sys2Proof.Machine
end

section
/-! SUPPORT. The ends of an instruction that addresses memory, what the body of a scalar load does with each answer of its
address (08 R204 to R206), and the proof of the statement about LD and LDA. -/

namespace Sys2Proof.Machine

/-! The ends of an issue that declares the ranges it addresses -/

section
variable {i : Instr} {s : State} {ls st : List (Nat × Nat)} {body : State → Act}
  (runs : exec i s = .next (issueWith i s ls st body))
include runs

theorem exec_of_access (h : issues i s = true) : exec i s = .next (endOf i s st (body s)) := by
  rw [runs, issueWith_issues i s ls st body h]

/-- What the body of an instruction that runs does, where it does not run ahead. -/
theorem gives_of_access {t : State} (ends : (me s).ra = none → body s = .go t) : Gives i s t := fun h => by
  rw [exec_of_access runs h, ends (issues_ra h), endOf_go]

theorem becomes_of_access_hold (ends : (me s).ra = none → body s = .hold) : Becomes i s (wait s) := fun h => by
  rw [exec_of_access runs h, ends (issues_ra h), endOf_hold]

end

/-! The body of a scalar load, by the answer of its address -/

section
variable {s u : State} {k : Acs} {sz : Size} {sx x : Bool} {addr : Nat} {els : List El}

theorem loadBody_hold (res : resolve s (issuer s) k (sizeN sz) sx x [(0, addr)] = (u, .ok [(0, .els els)]))
    (waits : ownInFlight u els = true ∨ elsStopped u (issuer s).core els = true) (d : SReg) :
    loadBody k sz sx x d addr s = .hold := by
  have waits : (ownInFlight u els || elsStopped u (issuer s).core els) = true := by simpa using waits
  simp only [loadBody, res, waits, if_true]

variable (ra : (me s).ra = none)
include ra

/-- Behind a producer, or behind operations of the trace unit, a load of elements reads later. -/
theorem loadBody_later (res : resolve s (issuer s) k (sizeN sz) sx x [(0, addr)] = (u, .ok [(0, .els els)]))
    (own : ownInFlight u els = false) (runs : elsStopped u (issuer s).core els = false)
    (later : mustFollow (myRegs u) = true ∨ regionsShut u els none = true) (d : SReg) :
    loadBody k sz sx x d addr s = .go (produceRead u (.s d)
      (.read { els := els.map fun e => (0, e), vec := false, bytes := sizeN sz, sx }) els
      (laneWalks u (issuer s) (sizeN sz) [(0, addr)])) := by
  have later : (mustFollow (myRegs u) || regionsShut u els none) = true := by simpa using later
  simp [loadBody, res, own, runs, later, issuer_ahead ra]

theorem loadBody_sync {off : Nat}
    (res : resolve s (issuer s) k (sizeN sz) sx x [(0, addr)] = (u, .ok [(0, .sync off)])) (d : SReg) :
    loadBody k sz sx x d addr s = .go (seProduce u d off (.load (sizeN sz) sx) false) := by
  simp [loadBody, res, issuer_ahead ra]

omit ra in
theorem loadBody_device {off : Nat} {v : Word}
    (res : resolve s (issuer s) k (sizeN sz) sx x [(0, addr)] = (u, .ok [(0, .device off)]))
    (value : devLoad u off (sizeN sz) = .ok v) (d : SReg) :
    loadBody k sz sx x d addr s = .go (if mustFollow (myRegs u) then produce u (.s d) (.device off none)
      else produceVal u (.s d) (.s v) 0) := by
  simp only [loadBody, res, value]
  split <;> rfl

end

/-! LDA is a load whose context holds later accesses -/

section
variable {c : Cond} {sz : Size} {scope : Scope} {d : SReg} {a : SSrc} {disp : Imm} {s : State}

theorem gives_lda {t : State} (ends : (me s).ra = none → loadBody .lda sz false false d (addrOf s a disp) s = .go t) :
    Gives (.lda c sz scope d a disp) s (acquireHold t s.serial) :=
  gives_of_access rfl fun ra => by rw [ends ra]

theorem becomes_wait_lda (ends : loadBody .lda sz false false d (addrOf s a disp) s = .hold) :
    Becomes (.lda c sz scope d a disp) s (wait s) :=
  becomes_of_access_hold rfl fun _ => by rw [ends]

end

/-- Settles O20: the five answers of an address (wait, now, later, sync space, device space), for LD and under the hold of
LDA. -/
theorem scalarLoads : Obligations.ScalarLoads := by
  unfold Obligations.ScalarLoads
  intro c sz scope sx x d a disp s u els off v n q at' w r later reads waits
  have free (h : ¬waits) : ownInFlight u els = false ∧ elsStopped u q.core els = false := by
    simpa only [waits, not_or, Bool.not_eq_true] using h
  have now (h : ¬later) : mustFollow (myRegs u) = false ∧ regionsShut u els none = false := by
    simpa only [later, not_or, Bool.not_eq_true] using h
  refine ⟨fun res h => ?_, fun res h => ?_, fun res => ?_, fun res value => ?_, fun res h => ?_, fun res h => ?_,
    fun res => ?_⟩
  · obtain ⟨own, clock⟩ := free h
    refine ⟨fun h => ?_, fun h => gives_of_access rfl fun ra => loadBody_later ra res own clock h d⟩
    obtain ⟨turn, clear⟩ := now h
    exact gives_of_access rfl fun ra => loadBody_els ra turn res own clock clear d
  · exact becomes_of_access_hold rfl fun _ => loadBody_hold res h d
  · exact gives_of_access rfl fun ra => loadBody_sync ra res d
  · refine ⟨fun turn => gives_of_access rfl fun _ => ?_, fun turn => gives_of_access rfl fun _ => ?_⟩ <;>
      rw [loadBody_device res value, turn] <;> rfl
  · exact becomes_wait_lda (loadBody_hold res h d)
  · obtain ⟨own, clock⟩ := free h
    refine ⟨fun h => ?_, fun h => gives_lda fun ra => loadBody_later ra res own clock h d⟩
    obtain ⟨turn, clear⟩ := now h
    exact gives_lda fun ra => loadBody_els ra turn res own clock clear d
  · exact gives_lda fun ra => loadBody_sync ra res d

end Sys2Proof.Machine
end

section
/-! SUPPORT. Streams and FIFOs (08 R211 to R213): what a pop reads, and the proof of the statement about them. -/

namespace Sys2Proof.Machine

/-! A pop of a stream -/

section
variable {p : Pred} {x : XReg} {d : VReg} {s u w : State} {l l' : List (Nat × Acc)}

/-- The state in which a pop reads its index words. -/
def indexRead (s u : State) (l : List (Nat × Acc)) : State :=
  touchEls u (partOf u (issuer s).core) ((laneEls l).map (·.2))

/-- The addresses of the elements that the index words give. -/
def popAddrs (s : State) (p : Pred) (str : Stream) (l : List (Nat × Acc)) : List (Nat × Nat) :=
  (popLanes s p str).map fun i =>
    (i, wrapAddr str.base.toNat ((lane (readLanes s (laneEls l)).1.2 i).toNat * 2 ^ str.k.toNat : Nat))

/-- The stream with its cursor moved past the pop, at most to N. -/
def popMoved (x : XReg) (str : Stream) (s : State) : State :=
  modRegs s fun g => wrX g x { str with cur := min (str.cur + 64) str.n.toNat }

variable (ra : (me s).ra = none)
  (index : resolve s (issuer s) .vld 4 false false ((popLanes s p (rdX (myRegs s) x)).map fun i =>
    (i, rawAddr (wrapAddr (rdX (myRegs s) x).idx.toNat (4 * ((rdX (myRegs s) x).cur + i) : Nat)))) = (u, .ok l))
  (indexOwn : ownInFlight u ((laneEls l).map (·.2)) = false)
  (indexClock : elsStopped u (issuer s).core ((laneEls l).map (·.2)) = false) (turn : mustFollow (myRegs u) = false)
  (elements : resolve (indexRead s u l) (issuer s) .vld 4 false false
    (popAddrs (indexRead s u l) p (rdX (myRegs s) x) l) = (w, .ok l'))
  (own : ownInFlight w ((laneEls l').map (·.2)) = false)
  (clock : elsStopped w (issuer s).core ((laneEls l').map (·.2)) = false)
include ra index indexOwn indexClock turn elements own clock

/-- Once index words and elements are resolved and nothing holds them, the pop reads now, or in its turn behind operations
of the trace unit. -/
theorem spopBody_resolved : spopBody p d x s =
    if regionsShut w ((laneEls l').map (·.2)) none then
      .go (produceRead (popMoved x (rdX (myRegs s) x) w) (.v d)
        (.read { els := laneEls l', vec := true, bytes := 4, sx := false }) ((laneEls l').map (·.2))
        (laneWalks w (issuer s) 4 (popAddrs (indexRead s u l) p (rdX (myRegs s) x) l)))
    else
      let y := settleEls (touchEls w (partOf w (issuer s).core) ((laneEls l').map (·.2))) ((laneEls l').map (·.2))
      let val := readLanes y (laneEls l')
      .go (produceVal (popMoved x (rdX (myRegs s) x) y) (.v d) (.v val.1.1 val.1.2) val.2) := by
  have index' : (ownInFlight u ((laneEls l).map (·.2)) || elsStopped u (issuer s).core ((laneEls l).map (·.2)) ||
      (!(issuer s).ahead && mustFollow (myRegs u))) = false := by
    simp only [indexOwn, indexClock, turn, Bool.and_false, Bool.or_false]
  have own' : (ownInFlight w ((laneEls l').map (·.2)) || elsStopped w (issuer s).core ((laneEls l').map (·.2))) = false := by
    simp only [own, clock, Bool.or_false]
  simp only [indexRead, popAddrs] at elements
  simp only [spopBody, index, index', Bool.false_eq_true, if_false]
  simp only [elements, own', Bool.false_eq_true, if_false, issuer_ahead ra, Bool.false_and, Bool.not_false, Bool.true_and,
    popMoved, popAddrs, indexRead, ← min_def_lt]

end

/-! FIFOs -/

theorem lane_zero (k : Nat) : lane VWord.zero k = 0 := by
  simp only [lane, VWord.zero, Vector.toList_replicate, List.getD_eq_getElem?_getD, List.getElem?_replicate]
  split <;> rfl

/-- Settles O25: the two reads of a pop one after the other, and the entry of a FIFO at its end or its head. -/
theorem streamsAndFifos : Obligations.StreamsAndFifos := by
  unfold Obligations.StreamsAndFifos
  intro p x f d a b e v s u w l l' h r str ls q v' idx as es y val moved
  refine ⟨gives_of_completes rfl rfl, ?_, fun head => ?_, fun empty => ?_, fun room => ?_⟩
  · intro index indexOwn indexClock turn elements own clock
    refine ⟨fun clear => gives_of_access rfl fun ra => ?_, fun shut => gives_of_access rfl fun ra => ?_⟩ <;>
      rw [spopBody_resolved ra index indexOwn indexClock turn elements own clock]
    · rw [if_neg (by rw [clear]; decide)]; rfl
    · rw [if_pos shut]; rfl
  · exact gives_of_access rfl fun _ => by simp only [head]
  · exact becomes_of_access_hold rfl fun _ => by simp only [empty]
  · refine gives_of_access rfl fun _ => ?_
    simp only [room, Bool.false_eq_true, if_false, merge, lane_zero]

end Sys2Proof.Machine
end

section
/-! SUPPORT. Atomics (08 R219, R220): where they may point, and the proof of the statement about them. -/

namespace Sys2Proof.Machine

/-! The sync space (04 Table 4.1) -/

theorem apOf_eq_sync_iff {a o : Nat} : apOf a = .sync o ↔ o < 2 ^ 32 ∧ a = 0xFFFFFF3000000000 + o := by
  constructor
  · intro h
    unfold apOf at h
    iterate 5
      split at h
      · exact absurd h (by simp)
    split at h
    · simp only [bitsOf, Ap.sync.injEq] at h
      omega
    repeat' split at h
    all_goals exact absurd h (by simp)
  · rintro ⟨small, rfl⟩
    unfold apOf
    rw [if_neg (by omega), if_neg (by omega), if_neg (by omega), if_neg (by omega), if_neg (by omega), if_pos (by omega)]
    simp only [bitsOf, Ap.sync.injEq]
    omega

/-- The last byte of an aligned word of the sync space is in the sync space. -/
theorem apOf_last_of_aligned {a o n : Nat} (place : apOf a = .sync o) (size : n = 4 ∨ n = 8) (aligned : a % n = 0) :
    apOf (a + n - 1) = .sync (o + n - 1) := by
  obtain ⟨small, rfl⟩ := apOf_eq_sync_iff.mp place
  refine apOf_eq_sync_iff.mpr ?_
  rcases size with rfl | rfl <;> omega

theorem amoBytes_cases (dw : Bool) : amoBytes dw = 4 ∨ amoBytes dw = 8 := by cases dw <;> simp [amoBytes]

section
variable {dw : Bool} {a off : Nat}

theorem amoOff_aligned (place : apOf a = .sync off) (aligned : a % amoBytes dw = 0) : amoOff dw a = .ok off := by
  simp [amoOff, place, apOf_last_of_aligned place (amoBytes_cases dw) aligned, aligned, Ap.number]

theorem amoOff_misaligned {last : Nat} (place : apOf a = .sync off) (ends : apOf (a + amoBytes dw - 1) = .sync last)
    (odd : a % amoBytes dw ≠ 0) : amoOff dw a = .error (tMISALIGNED a) := by
  simp [amoOff, place, ends, odd, Ap.number]

theorem amoOff_elsewhere (place : (apOf a).number ≠ 5) : amoOff dw a = .error (tAPERTURE a) := by
  unfold amoOff
  split
  case h_1 o h => exact absurd (by rw [h]; rfl) place
  case h_2 => rfl

end

/-! The body of an atomic -/

section
variable {dw aq rl : Bool} {a : SSrc} {send : Nat → State → State} {s : State} {off : Nat}

theorem amoBody_sent (place : amoOff dw (sv s a).toNat = .ok off)
    (performed : rl = true → mustFollow (myRegs s) = true ∨ unreleased s = false) :
    amoBody dw aq rl a send s = .go (if aq then acquireHold (send off s) s.serial else send off s) := by
  have free : (!runsAhead s && rl && !mustFollow (myRegs s) && unreleased s) = false := by
    cases rl
    · simp
    · rcases performed rfl with h | h <;> simp [h]
  simp only [amoBody, place, free, Bool.false_eq_true, if_false]

theorem amoBody_hold (ra : (me s).ra = none) (place : amoOff dw (sv s a).toNat = .ok off) (release : rl = true)
    (turn : mustFollow (myRegs s) = false) (unperformed : unreleased s = true) : amoBody dw aq rl a send s = .hold := by
  have ahead : runsAhead s = false := by rw [runsAhead, ra]; rfl
  simp [amoBody, place, ahead, release, turn, unperformed]

theorem amoBody_trap {t : Trap} (place : amoOff dw (sv s a).toNat = .error t) :
    amoBody dw aq rl a send s = .trap s t := by
  simp only [amoBody, place]

end

/-- Settles O27: the three forms share one body, which sends, waits or traps by the place that the address names. -/
theorem atomics : Obligations.Atomics := by
  unfold Obligations.Atomics
  intro c dw aq rl scope op d a b e s off n addr low ends traps
  have trapped (t : Trap) (plain : t.cause ≠ 7) (h : amoOff dw addr = .error t) : traps t :=
    ⟨becomes_of_trap rfl (amoBody_trap h) plain, becomes_of_trap rfl (amoBody_trap h) plain,
      becomes_of_trap rfl (amoBody_trap h) plain⟩
  refine ⟨fun place aligned performed => ?_, fun place aligned release turn unperformed => ?_, fun elsewhere => ?_,
    fun place last odd => ?_⟩
  · have at' := amoOff_aligned (dw := dw) place aligned
    exact ⟨gives_of_access rfl fun _ => amoBody_sent at' performed,
      gives_of_access rfl fun _ => amoBody_sent at' performed,
      gives_of_access rfl fun _ => amoBody_sent at' performed⟩
  · have at' := amoOff_aligned (dw := dw) place aligned
    exact ⟨becomes_of_access_hold rfl fun ra => amoBody_hold ra at' release turn unperformed,
      becomes_of_access_hold rfl fun ra => amoBody_hold ra at' release turn unperformed,
      becomes_of_access_hold rfl fun ra => amoBody_hold ra at' release turn unperformed⟩
  · exact trapped _ (show (5 : Nat) ≠ 7 by decide) (amoOff_elsewhere elsewhere)
  · exact trapped _ (show (6 : Nat) ≠ 7 by decide) (amoOff_misaligned place last odd)

end Sys2Proof.Machine
end

section
/-! SUPPORT. What the home engine makes of a word for a request (08 R220, 05 R133), and the proof of the statement
about it. -/

namespace Sys2Proof.Machine

/-! The bytes of a sync space -/

theorem fromLe_lt (bs : List Byte) : fromLe bs < 256 ^ bs.length := by
  induction bs with
  | nil => exact Nat.one_pos
  | cons b bs ih =>
    have byte : b.toNat < 256 := b.isLt
    rw [fromLe, List.length_cons, Nat.pow_succ]
    omega

theorem syncPlaces_lt (s : State) (p off n : Nat) : syncPlaces s p off n < 256 ^ n := by
  simpa [syncPlaces] using fromLe_lt ((List.range n).map fun i => cget (getPart s p).sync (off + i))

/-- The n bytes of a value written from an offset on: they and no other. -/
theorem cget_foldl_cset (f : Nat → Byte) (m : List Host.Cell) (off n a : Nat) :
    cget ((List.range n).foldl (fun m i => cset m (off + i) (f i)) m) a =
      if off ≤ a ∧ a < off + n then f (a - off) else cget m a := by
  induction n with
  | zero => rw [if_neg (by omega)]; rfl
  | succ n ih =>
    rw [List.range_succ, List.foldl_append, List.foldl_cons, List.foldl_nil, cget_cset, ih]
    by_cases last : a = off + n
    · rw [if_pos last, if_pos (by omega), last, Nat.add_sub_cancel_left]
    · have same : (off ≤ a ∧ a < off + (n + 1)) ↔ (off ≤ a ∧ a < off + n) := by omega
      simp only [if_neg last, same]

theorem cget_syncWrite (s : State) (p off n v a : Nat) : cget (getPart (syncWrite s p off n v) p).sync a =
    if off ≤ a ∧ a < off + n then BitVec.ofNat 8 (v / 2 ^ (8 * (a - off))) else cget (getPart s p).sync a := by
  rw [syncWrite, getPart_modPart_same]
  have zip : (List.range n).zip (toLe n v) = (List.range n).map fun i => (i, BitVec.ofNat 8 (v / 2 ^ (8 * i))) := by
    rw [toLe_eq_map_range]
    simpa using List.zip_map' (f := id) (g := fun i => BitVec.ofNat 8 (v / 2 ^ (8 * i))) (l := List.range n)
  simp only [zip, List.foldl_map]
  exact cget_foldl_cset (fun i => BitVec.ofNat 8 (v / 2 ^ (8 * i))) _ off n a

/-- Only the bytes of the request change, and they become those of the value. -/
theorem syncWrite_frame (s : State) (p off n v : Nat) :
    (∀ q o, (q ≠ p ∨ o < off ∨ off + n ≤ o) → cget (getPart (syncWrite s p off n v) q).sync o = cget (getPart s q).sync o) ∧
      (syncWrite s p off n v).hbm = s.hbm ∧ (syncWrite s p off n v).cores = s.cores := by
  refine ⟨fun q o away => ?_, rfl, rfl⟩
  by_cases same : q = p
  · subst same
    rw [cget_syncWrite, if_neg (by omega)]
  · rw [syncWrite, getPart_modPart_other _ _ _ _ same]

theorem syncPlaces_syncWrite (s : State) (p off n v : Nat) :
    syncPlaces (syncWrite s p off n v) p off n = v % 256 ^ n := by
  rw [← fromLe_toLe, toLe_eq_map_range, syncPlaces]
  refine congrArg fromLe (List.map_congr_left fun i h => ?_)
  rw [cget_syncWrite, if_pos (by have := List.mem_range.mp h; omega), Nat.add_sub_cancel_left]

/-! The new value of a word -/

theorem sgn_smin (n old b : Nat) : sgn (8 * n) (amoNew .smin n old b).1 = min (sgn (8 * n) old) (sgn (8 * n) b) := by
  rw [min_comm, min_def_lt]
  exact apply_ite (sgn (8 * n)) _ _ _

theorem sgn_smax (n old b : Nat) : sgn (8 * n) (amoNew .smax n old b).1 = max (sgn (8 * n) old) (sgn (8 * n) b) := by
  rw [max_def_lt]
  exact apply_ite (sgn (8 * n)) _ _ _

/-- The value after a compare: what the request gives, or the old one, whose bytes are already there. -/
theorem mod_of_kept {x y old n : Nat} (small : old < 256 ^ n) :
    (if old = x then y else old) % 256 ^ n = if old = x then y % 256 ^ n else old := by
  split
  · rfl
  · exact Nat.mod_eq_of_lt small

/-- Settles O28: the new value by operation, and the write of a request by its bytes (`cget_syncWrite`). -/
theorem atomicResults : Obligations.AtomicResults := by
  unfold Obligations.AtomicResults
  refine ⟨fun n old b size hold hb => ?_, fun old b => ⟨rfl, rfl⟩, fun s r n op b e size => ?_⟩
  · exact ⟨rfl, rfl, rfl, rfl, rfl, (min_comm b old ▸ min_def_lt b old).symm, (max_def_lt old b).symm,
      sgn_smin n old b, sgn_smax n old b⟩
  · refine ⟨fun req => ?_, fun req => ?_⟩
    · simp only [seDo, req]
      refine ⟨syncWrite_frame _ _ _ _ _, syncPlaces_syncWrite _ _ _ _ _, fun add max => ?_, fun float _ => ?_⟩
      · rw [if_neg (not_or.mpr ⟨add, max⟩), Nat.add_zero]
      · rw [if_pos float]
    · simp only [seDo, req]
      refine ⟨syncWrite_frame _ _ _ _ _, trivial, ?_⟩
      rw [syncPlaces_syncWrite, mod_of_kept (syncPlaces_lt _ _ _ _)]

end Sys2Proof.Machine
end

section
/-! SUPPORT. Copies and fences (08 R214 to R217, R221, R222): what the shared body of the copies does with a request, what a
hold covers, and the proof of the statement about them. -/

namespace Sys2Proof.Machine

/-! The body of a copy -/

theorem getLsbD_one_of_two_le : ∀ x : BitVec 2, 2 ≤ x.toNat → x.getLsbD 1 = true := by decide

theorem copyCheck_badSwz {s : State} {q : Issuer} {r : CopyReq} (h : 2 ≤ r.dx.toNat ∨ 2 ≤ r.sx.toNat) :
    copyCheck s q r = some tILLEGAL := by
  have bad : r.badSwz = true := by
    rw [CopyReq.badSwz, Bool.or_eq_true]
    exact h.imp (getLsbD_one_of_two_le _) (getLsbD_one_of_two_le _)
  simp only [copyCheck, bad, if_true, Option.orElse_some]

section
variable {tag : BitVec 8} {req : State → CopyReq} {s : State}

theorem copyBody_hold (full : 16 ≤ (myCore s).copies.length) : copyBody tag req s = .hold := by
  simp only [copyBody, full, if_true]

theorem copyBody_trap {t : Trap} (room : (myCore s).copies.length < 16) (check : copyCheck s (issuer s) (req s) = some t) :
    copyBody tag req s = .trap s t := by
  simp only [copyBody, not_le.mpr room, if_false, check]

/-- The entry of the copy engine for a request of the running context: what it captures at issue. -/
def copyEntry (s : State) (tag : BitVec 8) (r : CopyReq) : Copy :=
  { id := s.serial, ctx := myN s, uid := (me s).uid, tag, gen := (me s).gen, priv := (me s).priv, stc := s.stc,
    dst := word r.dst, src := word r.src, dx := r.dx == 1, sx := r.sx == 1, rows := r.rows, len := r.len,
    ds := r.ds, ss := r.ss, wd5 := (myRegs s).wd5, wd6 := (myRegs s).wd6, wd7 := (myRegs s).wd7, flag := r.flag,
    next := 0, buf := [], flags := 0, status := none, flagId := none }

theorem copyBody_enters (ra : (me s).ra = none) (room : (myCore s).copies.length < 16)
    (check : copyCheck s (issuer s) (req s) = none) : copyBody tag req s =
      .go (modMyCore { s with serial := s.serial + 1 } fun k =>
        { k with copies := k.copies ++ [copyEntry s tag (req s)] }) := by
  simp only [copyBody, not_le.mpr room, if_false, check, issuer_ahead ra, Bool.false_eq_true]
  rfl

end

/-- An instruction that issues a copy: a swizzle code of 2 or 3 traps, a full engine waits. -/
theorem copy_refused {i : Instr} {s : State} {tag : BitVec 8} {req : State → CopyReq}
    (runs : exec i s = .next (issueWith i s [] (copySpans s (req s)) (copyBody tag req))) :
    ((2 ≤ (req s).dx.toNat ∨ 2 ≤ (req s).sx.toNat) → (myCore s).copies.length < 16 →
      Becomes i s (raiseTrap s i tILLEGAL (copySpans s (req s)))) ∧
    (16 ≤ (myCore s).copies.length → Becomes i s (wait s)) := by
  refine ⟨fun bad room h => ?_, fun full => becomes_of_access_hold runs fun _ => copyBody_hold full⟩
  rw [exec_of_access runs h, copyBody_trap room (copyCheck_badSwz bad), endOf_trap_plain _ _ _ _ _ (by decide)]

theorem copy_enters {i : Instr} {s : State} {tag : BitVec 8} {req : State → CopyReq} {r : CopyReq}
    (runs : exec i s = .next (issueWith i s [] (copySpans s (req s)) (copyBody tag req))) (value : req s = r)
    (room : (myCore s).copies.length < 16) (check : copyCheck s (issuer s) r = none) :
    Gives i s (modMyCore { s with serial := s.serial + 1 } fun k =>
      { k with copies := k.copies ++ [copyEntry s tag r] }) := by
  subst value
  exact gives_of_access runs fun ra => copyBody_enters ra room check

/-! Fences -/

theorem swellScope_eq_true {scope : Scope} : swellScope scope = true ↔ scope = .stack ∨ scope = .system := by
  cases scope <;> simp [swellScope]

/-- The state after a fence: its hold, and where its set orders writes before writes beyond a stratum the mark that later
beats of the context wait for. -/
theorem gives_fence (c : Cond) (scope : Scope) {set : BitVec 4} (s : State) (nonempty : set ≠ 0) :
    Gives (.fence c scope set) s (if swellScope scope && set.getLsbD 3
      then modMe (addHold s set 0 false) fun x => { x with beatsAfter := (addHold s set 0 false).serial }
      else addHold s set 0 false) :=
  gives_of_access rfl fun _ => by simp only [nonempty, if_false]

section
variable (s : State) (c n uid : Nat) (h : Hold)

theorem heldRead_iff : heldRead s c n uid h = true ↔ (h.set.getLsbD 0 = true ∧ readsIn s c n uid h.lo h.upto = true) ∨
    (h.set.getLsbD 2 = true ∧ (writesIn s c n uid h.lo h.upto = true ∨ beatsBefore s c n uid h.upto = true ∨
      beatsFlying s c n uid h.upto = true)) := by
  simp only [heldRead, beatsUnapplied, Bool.or_eq_true, Bool.and_eq_true]

theorem heldWrite_iff (beat : Bool) : heldWrite s c n uid beat h = true ↔
    (h.set.getLsbD 1 = true ∧ readsIn s c n uid h.lo h.upto = true) ∨
    (h.set.getLsbD 3 = true ∧ (writesIn s c n uid h.lo h.upto = true ∨ beatsBefore s c n uid h.upto = true ∨
      (beat = false ∧ beatsFlying s c n uid h.upto = true))) := by
  simp only [heldWrite, Bool.or_eq_true, Bool.and_eq_true, Bool.not_eq_true', or_assoc]

theorem getLast_addHold (set : BitVec 4) (lo : Nat) (acquire : Bool) :
    (me (addHold s set lo acquire)).fences.getLast? = some { set, lo, upto := s.serial, acquire } := by
  rw [addHold, me_modMe]
  exact List.getLast?_concat

end

/-- Settles O26: the three copies share one body and one check, and a fence is its hold. -/
theorem copiesEnter : Obligations.CopiesEnter := by
  unfold Obligations.CopiesEnter
  refine ⟨fun c tag dx sx all a b e ss ds len rows scope f d v s => ?_, fun c scope set s => ?_, fun s set h c n uid beat =>
    ⟨getLast_addHold s set 0 false, heldRead_iff s c n uid h, heldWrite_iff s c n uid h beat⟩⟩
  · refine ⟨copy_enters (req := cpyReq dx sx a b e none) rfl rfl,
      copy_enters (req := cpy2dReq dx sx a b ss ds len rows) rfl rfl,
      copy_enters (req := cpystReq scope dx sx a b e f v) rfl rfl, fun x mem => ?_, gives_of_completes rfl rfl⟩
    simp only [List.mem_cons, List.not_mem_nil, or_false] at mem
    rcases mem with rfl | rfl | rfl
    · exact copy_refused (req := cpyReq dx sx a b e none) rfl
    · exact copy_refused (req := cpy2dReq dx sx a b ss ds len rows) rfl
    · exact copy_refused (req := cpystReq scope dx sx a b e f v) rfl
  · refine ⟨fun empty => becomes_of_trap rfl (by simp only [empty, if_true]) (by decide), fun nonempty near => ?_,
      fun far order => ?_, gives_of_completes rfl rfl⟩
    · have plain : (swellScope scope && set.getLsbD 3) = false := by
        by_cases far : swellScope scope = true
        · rw [near (swellScope_eq_true.mp far), Bool.and_false]
        · rw [Bool.eq_false_iff.mpr far, Bool.false_and]
      have given := gives_fence c scope s nonempty
      rwa [plain, if_neg (by decide)] at given
    · have nonempty : set ≠ 0 := by rintro rfl; exact absurd order (by decide)
      have given := gives_fence c scope s nonempty
      rwa [swellScope_eq_true.mpr far, order, if_pos (by decide)] at given

end Sys2Proof.Machine
end

section
/-! SUPPORT. The resolution of an access (04 R95, 18 R380 to R385) changes no core: its walks write tables in physical memory
and keep notes of what they read. -/

namespace Sys2Proof.Machine

theorem getCore_of_curCores {s t : State} (h : curCores t = curCores s) (c : Nat) : getCore t c = getCore s c :=
  congrArg (fun u : (Nat × Nat) × Map Core => mget u.2 c Core.reset) h

theorem me_of_curCores {s t : State} (h : curCores t = curCores s) : me t = me s :=
  congrArg (fun u : (Nat × Nat) × Map Core => ctxOf (mget u.2 u.1.1 Core.reset) u.1.2) h

/-! Notes of what is read -/

theorem curCores_noteFar (s : State) (part : Nat) (pas : List Nat) : curCores (noteFar s part pas) = curCores s := by
  obtain ⟨fixes, far, h⟩ := noteFar_notes s part pas
  rw [h]; rfl

theorem curCores_noteBad (s : State) (pas : List Nat) : curCores (noteBad s pas) = curCores s := by
  unfold noteBad
  dsimp only
  split <;> rfl

theorem curCores_touch (s : State) (part : Nat) (ps : List Place) : curCores (touch s part ps) = curCores s :=
  curCores_noteFar ..

theorem curCores_touchWalk (s : State) (part va : Nat) : curCores (touchWalk s part va) = curCores s := by
  unfold touchWalk
  dsimp only
  split
  · exact curCores_noteFar ..
  · exact (congrArg (fun u => (u.1, u.2)) (curCores_noteFar ..) :)

/-! Claims -/

theorem curCores_writePlaces {s : State} {ws : List (Place × Byte)} (hbm : ∀ w ∈ ws, ∃ pa, w.1 = .hbm pa) :
    curCores (writePlaces s ws) = curCores s := by
  refine Prod.ext (cur_writePlaces s ws) ?_
  refine ((cores_unpoison _ ws).trans (cores_showWrites _ ws)).trans ?_
  show (writeBytes s ws).cores = s.cores
  induction ws generalizing s with
  | nil => rfl
  | cons w ws ih =>
    obtain ⟨⟨pa, first⟩, rest⟩ := List.forall_mem_cons.mp hbm
    refine (ih rest).trans ?_
    simp only [first, writePlace, writeHbm]

theorem mem_zip_hbm {pas : List Nat} {bs : List Byte} {w : Place × Byte} (h : w ∈ (pas.map Place.hbm).zip bs) :
    ∃ pa, w.1 = .hbm pa := by
  obtain ⟨pa, -, same⟩ := List.mem_map.mp (List.of_mem_zip h).1
  exact ⟨pa, same.symm⟩

theorem curCores_writeHbmBytes (s : State) (pa : Nat) (bs : List Byte) :
    curCores (writeHbmBytes s pa bs) = curCores s := by
  refine curCores_writePlaces fun w h => mem_zip_hbm (pas := (List.range bs.length).map (pa + ·)) (bs := bs) ?_
  simpa only [hbmPlaces, List.map_map, Function.comp_def] using h

theorem curCores_sendPeerStores (s : State) (c n part : Nat) (gen : BitVec 16) (kind : Nat) (copy : Option Nat)
    (ws : List (Nat × Byte)) : curCores (sendPeerStores s c n part gen kind copy ws) = curCores s := by
  refine foldl_keeps curCores _ (fun t d => ?_) _ s
  unfold sendPacket armRoute
  split <;> rfl

theorem curCores_partWrite (s : State) (part : Nat) (pas : List Nat) (bs : List Byte) :
    curCores (partWrite s part pas bs) = curCores s :=
  (curCores_sendPeerStores ..).trans
    (curCores_writePlaces fun _ h => mem_zip_hbm (List.mem_of_mem_filter h))

theorem curCores_modPart (s : State) (p : Nat) (f : Partition → Partition) : curCores (modPart s p f) = curCores s := rfl

theorem curCores_swapEntry (s : State) (part ea : Nat) (e : Word) (frame : Nat) (rival : Option Word) :
    curCores (swapEntry s part ea e frame rival) = curCores s := by
  cases rival with
  | none => rw [swapEntry, curCores_modPart, curCores_partWrite, curCores_writeHbmBytes]
  | some w => rw [swapEntry, curCores_modPart, curCores_writeHbmBytes]

theorem curCores_takeFrame {s t : State} {part frame : Nat} (h : takeFrame s part = some (frame, t)) :
    curCores t = curCores s := by
  unfold takeFrame at h
  dsimp only at h
  split at h
  · cases h
  split at h
  · cases h; rfl
  split at h
  · cases h
  split at h
  · cases h
    exact (curCores_noteFar ..).trans (curCores_touchWalk ..)
  · cases h

/-! Walks, and the pieces of an access -/

theorem curCores_walkClaims (part priv : Nat) (ahead : Bool) (k : AK) (va n : Nat) (rival : Option Word) (s : State) :
    curCores (walkClaims part priv ahead k va n rival s).1 = curCores s := by
  induction n generalizing rival s with
  | zero => rfl
  | succ n ih =>
    have walked := curCores_touchWalk s part va
    simp only [walkClaims]
    generalize walkOnce (touchWalk s part va) part priv k va = found
    obtain ⟨r, ea, level, e⟩ := found
    have noted : curCores (if peC64 e then { touchWalk s part va with choice := (touchWalk s part va).choice + 1 }
        else touchWalk s part va) = curCores s := by
      split
      · exact walked
      · exact walked
    dsimp only
    generalize (if peC64 e then { touchWalk s part va with choice := (touchWalk s part va).choice + 1 }
        else touchWalk s part va) = t at noted ⊢
    split
    · split
      · exact noted
      · split
        · exact noted
        case h_2 frame u taken =>
          exact (ih ..).trans ((curCores_swapEntry ..).trans ((curCores_takeFrame taken).trans noted))
    · exact (curCores_noteBad ..).trans noted
    · exact noted

theorem curCores_translate (s : State) (c priv : Nat) (ahead : Bool) (k : AK) (va : Nat) :
    curCores (translate s c priv ahead k va).1 = curCores s := by
  unfold translate
  split
  · rfl
  · exact curCores_walkClaims ..

theorem curCores_transPieces (c priv : Nat) (ahead : Bool) (k : AK) (l : List (Nat × Nat)) (s : State) :
    curCores (transPieces c priv ahead k l s).1 = curCores s := by
  induction l generalizing s with
  | nil => rfl
  | cons p r ih => exact (ih _).trans (curCores_translate ..)

theorem curCores_lanePieces (q : Issuer) (k : AK) (l : List (Nat × List (Nat × Nat))) (s : State) :
    curCores (lanePieces q k l s).1 = curCores s := by
  induction l generalizing s with
  | nil => rfl
  | cons p r ih => exact (ih _).trans (curCores_transPieces ..)

theorem curCores_resolve {s u : State} {q : Issuer} {k : Acs} {size : Nat} {sx x : Bool} {lanes : List (Nat × Nat)}
    {r : Except Fail (List (Nat × Acc))} (h : resolve s q k size sx x lanes = (u, r)) : curCores u = curCores s := by
  obtain rfl : (resolve s q k size sx x lanes).1 = u := congrArg Prod.fst h
  have pieces := curCores_lanePieces q (if k.store then .write else .read)
    (lanes.map fun l => (l.1, globalPart s q size l.2)) s
  unfold resolve
  dsimp only
  generalize lanePieces q (if k.store then .write else .read) (lanes.map fun l => (l.1, globalPart s q size l.2)) s = walked
    at pieces ⊢
  split
  · rfl
  split
  · exact pieces
  split
  · exact pieces
  split
  · exact (curCores_noteBad ..).trans pieces
  · exact pieces

theorem me_of_resolve {s u : State} {q : Issuer} {k : Acs} {size : Nat} {sx x : Bool} {lanes : List (Nat × Nat)}
    {r : Except Fail (List (Nat × Acc))} (h : resolve s q k size sx x lanes = (u, r)) : me u = me s :=
  me_of_curCores (curCores_resolve h)

end Sys2Proof.Machine
end

section
/-! SUPPORT. LDSY, VLDSY, FECLR and PREF (08 R206 to R208): the words that FECLR empties, the caches that PREF warms, and the
proof of the statement about them. -/

namespace Sys2Proof.Machine

/-! Words that are emptied (04 R110, R111) -/

theorem mem_insNat {l : List Nat} {a x : Nat} : x ∈ insNat l a ↔ x = a ∨ x ∈ l := by
  induction l with
  | nil => simp [insNat]
  | cons b r ih =>
    rw [insNat]
    split
    · next same => simp [same]
    split
    · simp
    · rw [List.mem_cons, ih, List.mem_cons, or_left_comm]

theorem wordFull_emptyWord (s : State) (c v w : Nat) :
    wordFull (emptyWord s c v) c w = (wordFull s c w && !decide (w = v)) := by
  rw [wordFull, emptyWord, getCore_modCore, if_pos rfl, wordFull, Bool.eq_iff_iff]
  simp [mem_insNat, and_comm]

theorem wordFull_emptyWords (s : State) (ws : List Nat) (w : Nat) :
    wordFull (emptyWords s ws) (myId s) w = (wordFull s (myId s) w && !decide (w ∈ ws)) := by
  induction ws generalizing s with
  | nil => simp [emptyWords]
  | cons v ws ih =>
    calc wordFull (emptyWords s (v :: ws)) (myId s) w
        = (wordFull (emptyWord s (myId s) v) (myId s) w && !decide (w ∈ ws)) := ih (emptyWord s (myId s) v)
      _ = (wordFull s (myId s) w && !decide (w ∈ v :: ws)) := by
        rw [wordFull_emptyWord, Bool.and_assoc, ← Bool.not_or, ← Bool.decide_or]
        simp only [List.mem_cons]

theorem mem_rangeWords {o n w : Nat} (nonempty : n ≠ 0) : w ∈ rangeWords o n ↔ o / 8 ≤ w ∧ w ≤ (o + n - 1) / 8 := by
  simp only [rangeWords, List.mem_map, List.mem_range]
  constructor
  · rintro ⟨i, h, rfl⟩
    omega
  · rintro ⟨low, high⟩
    exact ⟨w - o / 8, by omega, by omega⟩

/-- The words of a range of bytes, and no other, are EMPTY after it is cleared. -/
theorem wordFull_emptyRange (s : State) {n : Nat} (o w : Nat) (nonempty : n ≠ 0) :
    wordFull (emptyWords s (rangeWords o n)) (myId s) w =
      (wordFull s (myId s) w && !decide (n ≠ 0 ∧ o / 8 ≤ w ∧ w ≤ (o + n - 1) / 8)) := by
  rw [wordFull_emptyWords]
  simp only [mem_rangeWords nonempty, nonempty, ne_eq, not_false_iff, true_and]

/-! The caches of a core (18 R382, 01 R38) -/

/-- A change of a core that leaves its contexts leaves the context that runs. -/
theorem me_modCore {s : State} {c : Nat} {f : Core → Core} (keeps : ∀ k, (f k).ctxs = k.ctxs) :
    me (modCore s c f) = me s := by
  have core : (getCore (modCore s c f) (myId s)).ctxs = (getCore s (myId s)).ctxs := by
    rw [getCore_modCore]
    split
    · next same => rw [keeps, same]
    · rfl
  exact congrArg (mget · (myN s) Ctx.reset) core

theorem me_warmTlb (s : State) (c priv : Nat) (k : AK) (va : Nat) : me (warmTlb s c priv k va) = me s := by
  have walked : me (touchWalk s (partOf s c) va) = me s := me_of_curCores (curCores_touchWalk ..)
  unfold warmTlb
  split
  · rfl
  dsimp only
  split
  · refine Eq.trans (me_modCore ?_) walked
    exact fun _ => rfl
  · exact walked

theorem me_askFill (s : State) (c : Nat) (kid : BitVec 32) (blk pa : Nat) : me (askFill s c kid blk pa) = me s := rfl

theorem me_prefetch (s : State) (instr : Bool) (addr : Nat) : me (prefetch s instr addr) = me s := by
  have warmed := me_warmTlb s (myId s) (me s).priv.toNat (if instr then .fetch else .read) addr
  unfold prefetch
  dsimp only
  split
  · exact warmed
  split
  · exact (me_askFill ..).trans warmed
  · exact warmed

/-! The bodies -/

/-- What PREF does where it executes normally: no source of it is EMPTY. -/
theorem exec_pref_issues {c : Cond} {i : Bool} {a : SSrc} {disp : Imm} {s : State}
    (h : issues (.pref c i a disp) s = true) : exec (.pref c i a disp) s =
      .next (advance (if apOf (addrOf s a disp) = .glob then prefetch s i (addrOf s a disp) else s) (.pref c i a disp)) := by
  have full : ((useOf (.pref c i a disp)).srcs.any fun y => srcEmpty (myRegs s) y && srcW y) = false := by
    simp only [issues, Bool.and_eq_true, Bool.not_eq_true'] at h
    obtain ⟨⟨⟨-, full⟩, -⟩, -⟩ := h
    rw [List.any_eq_false] at full ⊢
    exact fun y hy traps => full y hy (Bool.and_eq_true_iff.mp traps).1
  have runs : exec (.pref c i a disp) s = .next (issue (.pref c i a disp) s fun s =>
      .go (if apOf (addrOf s a disp) = .glob then prefetch s i (addrOf s a disp) else s)) :=
    if_neg (by rw [full]; simp)
  exact exec_of_issues runs h

theorem gives_ldsy {c : Cond} {sz : Size} {sx x : Bool} {d : SReg} {a : SSrc} {disp : Imm} {s u : State} {els : List El}
    (res : resolve s (issuer s) .ldsy (sizeN sz) sx x [(0, addrOf s a disp)] = (u, .ok [(0, .els els)])) :
    Gives (.ldsy c sz sx x d a disp) s (produceRead u (.s d) (.sync (elsWords els)
      { els := els.map fun e => (0, e), vec := false, bytes := sizeN sz, sx }) els []) :=
  gives_of_access rfl fun _ => by simp only [res]

section
variable {c : Cond} {a b : SSrc} {disp : Imm} {s : State} {o : Nat} (place : apOf (addrOf s a disp) = .loc 0 o)
include place

theorem gives_feclr_none (empty : (sv s b).toNat = 0) : Gives (.feclr c a disp b) s s :=
  gives_of_access rfl fun _ => by simp only [place, empty, if_true]

variable (nonempty : (sv s b).toNat ≠ 0) (fits : (sv s b).toNat ≤ 2 ^ 20)
  (within : o + (sv s b).toNat ≤ coreSp s (myId s))
include nonempty fits within

/-- FECLR of a range in the scratchpad empties its words at once, or in its turn. -/
theorem gives_feclr : Gives (.feclr c a disp b) s
    (if mustFollow (myRegs s) then takeTurn s (.clear (rangeWords o (sv s b).toNat))
    else emptyWords s (rangeWords o (sv s b).toNat)) :=
  gives_of_access rfl fun _ => by
    have inside : ¬(2 ^ 20 < (sv s b).toNat ∨ coreSp s (myId s) < o + (sv s b).toNat) := by omega
    simp only [place, nonempty, inside, if_false]
    split <;> rfl

end

/-- Settles O23: FECLR by the words of its range, PREF by the caches, which no register is in. -/
theorem synchronisingLoads : Obligations.SynchronisingLoads := by
  unfold Obligations.SynchronisingLoads
  intro c p sz sx x i d v a b disp s u els l o n addr len
  refine ⟨gives_ldsy,
    fun res => gives_of_access rfl fun _ => by simp only [res], fun r z es none => ?_,
    fun place fits turn h => ?_, fun place nonempty fits within turn => ?_, fun h => ?_⟩
  · simp only [produceRead, none, produce]
  · by_cases empty : len = 0
    · refine ⟨s, gives_feclr_none place empty h, fun w => ?_⟩
      simp [empty]
    · obtain ⟨fits, within⟩ := fits.resolve_left empty
      have given := gives_feclr (c := c) place empty fits within h
      rw [turn, if_neg (by decide)] at given
      exact ⟨_, given, fun w => wordFull_emptyRange s o w empty⟩
  · have given := gives_feclr (c := c) place nonempty fits within
    rwa [turn, if_pos rfl] at given
  · refine ⟨_, exec_pref_issues h, ?_⟩
    split
    · exact me_prefetch s i _
    · rfl

end Sys2Proof.Machine
end

section
/-! SUPPORT. What a store writes and what it leaves unchanged (08 R204, R205, 04 R97, R102, 05 R131): the places of its
bytes, the memory beside them, and the context that runs. -/

namespace Sys2Proof.Machine

/-! The places of the bytes of a store -/

theorem mem_writeEl {s : State} {e : El} {v : Nat} {w : Place × Byte} (h : w ∈ (writeEl s e v).1) :
    w.1 ∈ storedPlaces e := by
  cases e with
  | raw ps => exact (List.of_mem_zip h).1
  | fp n ps => exact (List.of_mem_zip h).1
  | quant i4 code hi rec => exact List.mem_singleton.mpr (congrArg Prod.fst (List.mem_singleton.mp h))
  | plast c reg row ps => exact absurd h List.not_mem_nil

theorem mem_elsStore {s : State} {els : List El} {v : Nat} {w : Place × Byte} (h : w ∈ (elsStore s els v).1) :
    w.1 ∈ els.flatMap storedPlaces := by
  unfold elsStore at h
  split at h
  case h_1 e => exact List.mem_flatMap.mpr ⟨e, by simp, mem_writeEl h⟩
  case h_2 e f =>
    rcases List.mem_append.mp h with h | h
    · exact List.mem_flatMap.mpr ⟨e, by simp, mem_writeEl h⟩
    · exact List.mem_flatMap.mpr ⟨f, by simp, mem_writeEl h⟩
  case h_3 => exact absurd h List.not_mem_nil

theorem lastWrites_concat (ws : List (Place × Byte)) (w : Place × Byte) :
    lastWrites (ws ++ [w]) = ((lastWrites ws).filter fun a => a.1 != w.1) ++ [w] := by
  simp only [lastWrites, List.foldl_append, List.foldl_cons, List.foldl_nil]

theorem mem_of_mem_lastWrites {ws : List (Place × Byte)} {w : Place × Byte} (h : w ∈ lastWrites ws) : w ∈ ws := by
  induction ws using List.reverseRecOn with
  | nil => exact h
  | append_singleton ws v ih =>
    rw [lastWrites_concat, List.mem_append] at h
    exact List.mem_append.mpr (h.imp_left fun h => ih (List.mem_of_mem_filter h))

/-! The memory beside them -/

theorem sameMemory_of_parts {s t : State} (hbm : t.hbm = s.hbm) (cores : t.cores = s.cores) (layers : t.layers = s.layers)
    (parts : t.parts = s.parts) : SameMemory s t := by
  refine ⟨fun a => ?_, fun c o => ?_, fun l o => ?_, fun p o => ?_⟩
  · rw [hbm]
  · rw [getCore, cores, getCore]
  · rw [getLayer, layers, getLayer]
  · rw [getPart, parts, getPart]

theorem sameMemory_sendPeerStores (s : State) (c n part : Nat) (gen : BitVec 16) (kind : Nat) (copy : Option Nat)
    (ws : List (Nat × Byte)) : SameMemory s (sendPeerStores s c n part gen kind copy ws) := by
  have keeps {β : Type} (g : State → β) (h : ∀ t i p, g (sendPacket t c n part gen i p) = g t) :
      g (sendPeerStores s c n part gen kind copy ws) = g s := foldl_keeps g _ (fun t _ => h t copy _) _ s
  refine sameMemory_of_parts (keeps _ fun t i p => ?_) (keeps _ fun t i p => ?_) (keeps _ fun t i p => ?_)
    (keeps _ fun t i p => ?_) <;> unfold sendPacket armRoute <;> split <;> rfl

theorem sameMemory_postStore (s : State) (target addr : Nat) (bs : List (Nat × Byte)) :
    SameMemory s (postStore s target addr bs) :=
  .refl s

/-- The bytes of a context's overflow enter the forwarding table as one entry (04 R97). -/
def enterFwd (s : State) (far : List (Nat × Byte)) : State :=
  if far.isEmpty then s
  else modMe { s with serial := s.serial + 1 } fun x => { x with fwd := x.fwd ++ [{ id := s.serial, bytes := far }] }

/-- A store that lands: its near bytes are written, its overflow bytes enter the table, and its far bytes travel. -/
theorem landStore_eq (s : State) (kind : Nat) (ws : List (Place × Byte)) : ∃ far peer,
    landStore s kind ws =
      let t := enterFwd (writePlaces s ((nearWrites ws).filter fun w => !isFwd w.1)) far
      sendPeerStores t (myId t) (myN t) (partOf t (myId t)) (me t).gen kind none peer :=
  ⟨_, _, rfl⟩

theorem sameMemory_enterFwd (s : State) (far : List (Nat × Byte)) : SameMemory s (enterFwd s far) := by
  unfold enterFwd
  split
  · exact .refl s
  · exact sameMemory_modCtx { s with serial := s.serial + 1 } _ _ _

/-- A store that lands changes no byte but at the places that it writes. -/
theorem sameMemoryBut_landStore (s : State) (kind : Nat) (ws : List (Place × Byte)) :
    SameMemoryBut (ws.map (·.1)) s (landStore s kind ws) := by
  have direct : ∀ w ∈ (nearWrites ws).filter fun w => !isFwd w.1, isFwd w.1 = false := fun w h => by
    simpa using (List.mem_filter.mp h).2
  have sub : ((nearWrites ws).filter fun w => !isFwd w.1).map (·.1) ⊆ ws.map (·.1) :=
    List.map_subset _ fun w h => List.mem_of_mem_filter (List.mem_of_mem_filter h)
  have written := ((sameMemoryBut_writeBytes _ direct s).mono sub).trans ((sameMemory_writePlaces s _).but _)
  obtain ⟨far, peer, lands⟩ := landStore_eq s kind ws
  rw [lands]
  exact written.trans (((sameMemory_enterFwd _ far).trans (sameMemory_sendPeerStores ..)).but _)

theorem sameMemoryBut_putStore (s : State) (kind addr : Nat) (ws : List (Place × Byte)) :
    SameMemoryBut (ws.map (·.1)) s (putStore s kind addr ws) := by
  unfold putStore
  split
  · exact (sameMemory_postStore ..).but _
  · exact sameMemoryBut_landStore s kind ws

theorem map_fst_subset {ws : List (Place × Byte)} {l : List Place} (h : ∀ w ∈ ws, w.1 ∈ l) :
    ws.map (·.1) ⊆ l := fun p hp => by
  obtain ⟨w, hw, rfl⟩ := List.mem_map.mp hp
  exact h w hw

/-! The context that runs -/

theorem ctxs_writePlace (s : State) (p : Place) (v : Byte) (c : Nat) :
    (getCore (writePlace s p v) c).ctxs = (getCore s c).ctxs := by
  cases p with
  | pool d o =>
    rw [writePlace, writePool, getCore_modCore]
    split
    · next same => rw [same]
    · rfl
  | _ => rfl

theorem me_writePlaces (s : State) (ws : List (Place × Byte)) : me (writePlaces s ws) = me s := by
  have cores : (writePlaces s ws).cores = (writeBytes s ws).cores := (cores_unpoison _ ws).trans (cores_showWrites _ ws)
  have bytes : (getCore (writeBytes s ws) (myId s)).ctxs = (getCore s (myId s)).ctxs := by
    refine foldl_keeps (fun t => (getCore t (myId s)).ctxs) _ (fun t w => ?_) ws s
    exact ctxs_writePlace t w.1 w.2 _
  rw [me_of_cur (cur_writePlaces s ws), getCtx, getCore, cores, ← getCore, ctxOf, bytes]
  rfl

/-- A context in which a store may have changed nothing but the program counter, FSTAT, the list of producers and the
forwarding table. -/
def StoreFrame (x y : Ctx) : Prop := ∃ fwd pc fstat pend,
  y = { x with fwd := fwd, regs := { x.regs with pc := pc, fstat := fstat, pend := pend } }

theorem StoreFrame.refl (x : Ctx) : StoreFrame x x := ⟨_, _, _, _, rfl⟩

theorem StoreFrame.advance {x : Ctx} {t : State} (h : StoreFrame x (me t)) (i : Instr) :
    StoreFrame x (me (advance t i)) := by
  obtain ⟨_, _, _, _, h⟩ := h
  rw [Machine.advance, me_modRegs, h]
  exact ⟨_, _, _, _, rfl⟩

theorem StoreFrame.raise {x : Ctx} {t : State} (h : StoreFrame x (me t)) (f : FFlags) : StoreFrame x (me (raise t f)) := by
  obtain ⟨_, _, _, _, h⟩ := h
  rw [Machine.raise, me_modRegs, h]
  exact ⟨_, _, _, _, rfl⟩

/-- A store that takes its turn is in the list of producers. -/
theorem storeFrame_produceAt (s : State) (p : Prod) (walks : List (Nat × List (Nat × Nat))) :
    StoreFrame (me s) (me (produceAt s (.s 0) p walks)) := by
  have started : me (produceAt s (.s 0) p walks) = me (modRegs s fun r => { markDest r (.s 0) true with
    pend := r.pend ++ [{ id := s.serial, dest := .s 0, prod := p, priv := (me s).priv.toNat, walks }] }) := rfl
  rw [started, me_modRegs]
  exact ⟨_, _, _, _, rfl⟩

theorem storeFrame_enterFwd (s : State) (far : List (Nat × Byte)) : StoreFrame (me s) (me (enterFwd s far)) := by
  unfold enterFwd
  split
  · exact .refl _
  · rw [me_modMe]
    exact ⟨_, _, _, _, rfl⟩

theorem storeFrame_landStore (s : State) (kind : Nat) (ws : List (Place × Byte)) :
    StoreFrame (me s) (me (landStore s kind ws)) := by
  obtain ⟨far, peer, lands⟩ := landStore_eq s kind ws
  rw [lands, me_of_curCores (curCores_sendPeerStores ..)]
  exact me_writePlaces s _ ▸ storeFrame_enterFwd _ far

theorem storeFrame_putStore (s : State) (kind addr : Nat) (ws : List (Place × Byte)) :
    StoreFrame (me s) (me (putStore s kind addr ws)) := by
  unfold putStore
  split
  · exact .refl _
  · exact storeFrame_landStore s kind ws

end Sys2Proof.Machine
end

section
/-! SUPPORT. What the body of a scalar store does with each answer of its address (08 R204 to R206), and the proof of the
statement about ST and STL. -/

namespace Sys2Proof.Machine

/-! The body of a scalar store, by the answer of its address -/

section
variable {s u w : State} {k : Acs} {sz : Size} {x release : Bool} {kind addr off : Nat} {b : SSrc} {els : List El}

/-- The value that a scalar store stores. -/
def storeValue (s : State) (sz : Size) (b : SSrc) : Nat := (sv s b).toNat % 2 ^ (8 * sizeN sz)

theorem storeBody_device (res : resolve s (issuer s) k (sizeN sz) false x [(0, addr)] = (u, .ok [(0, .device off)]))
    (stored : devStore u (whoMe u) off (sizeN sz) (word (storeValue s sz b)) = .ok w) :
    storeBody k sz x kind release addr b s =
      .go (if mustFollow (myRegs u) then takeTurn u (.device off (some (word (storeValue s sz b)))) else w) := by
  simp only [storeValue] at stored
  simp only [storeBody, res, stored, storeValue]

variable (ra : (me s).ra = none)
include ra

section
variable (res : resolve s (issuer s) k (sizeN sz) false x [(0, addr)] = (u, .ok [(0, .els els)]))
include res

theorem storeBody_turn (turn : mustFollow (myRegs u) = true) : storeBody k sz x kind release addr b s =
    .go (produceAt u (.s 0) (.put kind addr els (storeValue s sz b) release)
      (laneWalks u (issuer s) (sizeN sz) [(0, addr)])) := by
  simp [storeBody, res, turn, issuer_ahead ra, storeValue]

variable (turn : mustFollow (myRegs u) = false)
include turn

theorem storeBody_unreleased (lifted : release = true)
    (pending : unreleasedBut u (if kind = 4 then farModule els else none) = true) :
    storeBody k sz x kind release addr b s = .hold := by
  simp [storeBody, res, turn, issuer_ahead ra, lifted, pending]

/-- A store that no producer precedes and no release holds waits for earlier stores to its bytes, or is performed. -/
theorem storeBody_released
    (done : release = true → unreleasedBut u (if kind = 4 then farModule els else none) = false) :
    storeBody k sz x kind release addr b s =
      if storeWaits u addr (els.flatMap elPlaces) then .hold
      else .go (raise (putStore u kind addr (lastWrites (elsStore u els (storeValue s sz b)).1))
        (elsStore u els (storeValue s sz b)).2) := by
  have released : (release && unreleasedBut u (if kind = 4 then farModule els else none)) = false := by
    cases release
    · rfl
    · exact done rfl
  have ahead := issuer_ahead ra
  simp only [storeBody, res, turn, ahead, Bool.not_false, Bool.true_and, released, Bool.false_eq_true, if_false, storeValue]

end

section
variable (res : resolve s (issuer s) k (sizeN sz) false x [(0, addr)] = (u, .ok [(0, .sync off)]))
include res

theorem storeBody_sync (done : release = true → mustFollow (myRegs u) = true ∨ unreleased u = false) :
    storeBody k sz x kind release addr b s =
      .go (seSend u off (.store (sizeN sz) (word (storeValue s sz b))) release) := by
  have released : (release && !mustFollow (myRegs u) && unreleased u) = false := by
    cases release
    · rfl
    · rcases done rfl with h | h <;> simp [h]
  simp only [storeBody, res, issuer_ahead ra, Bool.not_false, Bool.true_and, released, Bool.false_eq_true, if_false,
    storeValue]

theorem storeBody_sync_unreleased (lifted : release = true) (turn : mustFollow (myRegs u) = false)
    (pending : unreleased u = true) : storeBody k sz x kind release addr b s = .hold := by
  simp [storeBody, res, issuer_ahead ra, lifted, turn, pending]

end

/-- The three things that a store to elements does at its issue: it waits, takes its turn, or is performed. -/
theorem storeBody_els_cases (res : resolve s (issuer s) k (sizeN sz) false x [(0, addr)] = (u, .ok [(0, .els els)])) :
    storeBody k sz x kind release addr b s = .hold ∨
    (∃ p walks, storeBody k sz x kind release addr b s = .go (produceAt u (.s 0) p walks)) ∨
    ∃ v, storeBody k sz x kind release addr b s =
      .go (raise (putStore u kind addr (lastWrites (elsStore u els v).1)) (elsStore u els v).2) := by
  by_cases turn : mustFollow (myRegs u) = true
  · exact .inr (.inl ⟨_, _, storeBody_turn ra res turn⟩)
  have turn := Bool.eq_false_iff.mpr turn
  by_cases held : release = true ∧ unreleasedBut u (if kind = 4 then farModule els else none) = true
  · exact .inl (storeBody_unreleased ra res turn held.1 held.2)
  have performed := storeBody_released (kind := kind) (b := b) ra res turn fun lifted =>
    Bool.eq_false_iff.mpr fun h => held ⟨lifted, h⟩
  rw [performed]
  split
  · exact .inl rfl
  · exact .inr (.inr ⟨_, rfl⟩)

end

/-! The frame of a store -/

theorem SameMemory.numbered {s t : State} (h : SameMemory s t) (n : Nat) : SameMemory s { t with serial := n } := h

theorem sameMemory_produceAt (s : State) (d : Dest) (p : Prod) (walks : List (Nat × List (Nat × Nat))) :
    SameMemory s (produceAt s d p walks) :=
  (sameMemory_modRegs s _).numbered _

theorem sameMemory_raise_advance (s : State) (f : FFlags) (i : Instr) : SameMemory s (advance (raise s f) i) :=
  (sameMemory_modRegs s _).trans (sameMemory_modRegs (raise s f) _)

/-- The frame of an instruction with this body: beside the stored elements every byte is as before, or it waits. -/
theorem store_frame {i : Instr} {s u t : State} {k : Acs} {sz : Size} {x release : Bool} {kind addr : Nat} {b : SSrc}
    {els : List El} {ls st : List (Nat × Nat)}
    (runs : exec i s = .next (issueWith i s ls st (storeBody k sz x kind release addr b)))
    (res : resolve s (issuer s) k (sizeN sz) false x [(0, addr)] = (u, .ok [(0, .els els)]))
    (h : issues i s = true) (next : exec i s = .next t) :
    (SameMemoryBut (els.flatMap storedPlaces) u t ∨ t = wait s) ∧ StoreFrame (me s) (me t) := by
  have same : me u = me s := me_of_resolve res
  have ends : endOf i s st (storeBody k sz x kind release addr b s) = t := by
    simpa [exec_of_access runs h] using next
  rcases storeBody_els_cases (issues_ra h) res with body | ⟨p, walks, body⟩ | ⟨v, body⟩ <;> rw [body] at ends <;> subst ends
  · exact ⟨.inr rfl, .refl _⟩
  · refine ⟨.inl (SameMemory.but ?_ _), same ▸ (storeFrame_produceAt u p walks).advance i⟩
    exact (sameMemory_produceAt u _ p walks).trans (sameMemory_modRegs (produceAt u (.s 0) p walks) _)
  · refine ⟨.inl ?_, same ▸ ((storeFrame_putStore u kind addr _).raise _).advance i⟩
    have stored := (sameMemoryBut_putStore u kind addr (lastWrites (elsStore u els v).1)).mono
      (map_fst_subset fun w hw => mem_elsStore (mem_of_mem_lastWrites hw))
    exact stored.trans ((sameMemory_raise_advance _ _ i).but _)

/-- A frame of the context, as the statement writes it. -/
theorem StoreFrame.eq {x y : Ctx} (h : StoreFrame x y) : y = { x with
    fwd := y.fwd, regs := { x.regs with pc := y.regs.pc, fstat := y.regs.fstat, pend := y.regs.pend } } := by
  obtain ⟨_, _, _, _, h⟩ := h
  rw [h]

/-- Settles O21: the answers of an address one by one, and the frame from the places of the bytes that are written. -/
theorem scalarStores : Obligations.ScalarStores := by
  unfold Obligations.ScalarStores
  refine ⟨?_, ?_⟩
  · intro c sz scope x a b disp s u w els off n q addr v r kind
    refine ⟨fun res turn free => ?_, fun res turn => ?_, fun res turn waits => ?_, fun res => ?_, fun res stored => ?_,
      fun res turn => ⟨fun done free => ?_, fun held => ?_⟩, fun res turn => ?_,
      fun res => ⟨fun done => ?_, fun turn held => ?_⟩⟩
    · exact gives_of_access rfl fun ra => (storeBody_released ra res turn (fun h => by cases h)).trans
        (if_neg (by rw [free]; decide))
    · exact gives_of_access rfl fun ra => storeBody_turn ra res turn
    · exact becomes_of_access_hold rfl fun ra => (storeBody_released ra res turn (fun h => by cases h)).trans (if_pos waits)
    · exact gives_of_access rfl fun ra => storeBody_sync ra res (fun h => by cases h)
    · refine ⟨fun turn => gives_of_access rfl fun _ => ?_, fun turn => gives_of_access rfl fun _ => ?_⟩ <;>
        rw [storeBody_device res stored, turn] <;> rfl
    · exact gives_of_access rfl fun ra => (storeBody_released ra res turn (fun _ => done)).trans
        (if_neg (by rw [free]; decide))
    · exact becomes_of_access_hold rfl fun ra => storeBody_unreleased ra res turn rfl held
    · exact gives_of_access rfl fun ra => storeBody_turn ra res turn
    · exact gives_of_access rfl fun ra => storeBody_sync ra res (fun _ => done)
    · exact becomes_of_access_hold rfl fun ra => storeBody_sync_unreleased ra res rfl turn held
  · intro c sz scope x a b disp s u t els addr frame
    have framed {i : Instr} {k : Acs} {x release : Bool} {kind : Nat} {ls st : List (Nat × Nat)}
        (runs : exec i s = .next (issueWith i s ls st (storeBody k sz x kind release addr b)))
        (res : resolve s (issuer s) k (sizeN sz) false x [(0, addr)] = (u, .ok [(0, .els els)]))
        (h : issues i s = true) (next : exec i s = .next t) : frame := by
      obtain ⟨memory, context⟩ := store_frame runs res h next
      exact ⟨memory, context.eq⟩
    exact ⟨framed rfl, framed rfl⟩

end Sys2Proof.Machine
end

section
/-! SUPPORT. What the bodies of the vector loads and stores do with their resolved lanes (08 R209, R210, 08 R206), and the
places that a vector store writes. -/

namespace Sys2Proof.Machine

/-! The body of a vector load -/

section
variable {s u : State} {x : Bool} {as : List (Nat × Nat)} {l : List (Nat × Acc)}
  (res : resolve s (issuer s) .vld 4 false x as = (u, .ok l))
include res

theorem vloadBody_hold (waits : ownInFlight u ((laneEls l).map (·.2)) = true ∨
    elsStopped u (issuer s).core ((laneEls l).map (·.2)) = true) (d : VReg) : vloadBody x d as s = .hold := by
  have waits : (ownInFlight u ((laneEls l).map (·.2)) || elsStopped u (issuer s).core ((laneEls l).map (·.2))) = true := by
    simpa using waits
  simp only [vloadBody, res, waits, if_true]

variable (ra : (me s).ra = none) (own : ownInFlight u ((laneEls l).map (·.2)) = false)
  (clock : elsStopped u (issuer s).core ((laneEls l).map (·.2)) = false)
include ra own clock

/-- Lanes that nothing holds are read at once, or in their turn behind a producer or operations of the trace unit. -/
theorem vloadBody_resolved (d : VReg) : vloadBody x d as s =
    if mustFollow (myRegs u) || regionsShut u ((laneEls l).map (·.2)) none then
      .go (produceRead u (.v d) (.read { els := laneEls l, vec := true, bytes := 4, sx := false }) ((laneEls l).map (·.2))
        (laneWalks u (issuer s) 4 as))
    else
      let w := settleEls (touchEls u (partOf u (issuer s).core) ((laneEls l).map (·.2))) ((laneEls l).map (·.2))
      let v := readLanes w (laneEls l)
      .go (produceVal w (.v d) (.v v.1.1 v.1.2) v.2) := by
  simp only [vloadBody, res, own, clock, issuer_ahead ra, Bool.or_self, Bool.false_eq_true, if_false, Bool.false_and,
    Bool.not_false, Bool.true_and]

end

/-! The writes of the lanes -/

/-- The writes of the lanes are of their elements' places. -/
theorem mem_writeLanes {v : VWord} {els : List (Nat × El)} {s : State} {out : List (Nat × List (Place × Byte))} {f : FFlags}
    {l : Nat × List (Place × Byte)} (h : l ∈ (writeLanes s els v out f).1) :
    l ∈ out ∨ ∀ w ∈ l.2, w.1 ∈ els.flatMap fun z => storedPlaces z.2 := by
  induction els generalizing s out f with
  | nil => exact .inl h
  | cons e els ih =>
    rw [List.flatMap_cons]
    rcases ih h with old | rest
    · rcases List.mem_append.mp old with old | new
      · exact .inl old
      · cases List.mem_singleton.mp new
        exact .inr fun w hw => List.mem_append_left _ (mem_writeEl hw)
    · exact .inr fun w hw => List.mem_append_right _ (rest w hw)

theorem SameMemoryBut.foldl {α : Type} {places : List Place} {f : State → α → State} {l : List α}
    (step : ∀ s, ∀ a ∈ l, SameMemoryBut places s (f s a)) (s : State) : SameMemoryBut places s (l.foldl f s) := by
  induction l generalizing s with
  | nil => exact (SameMemory.refl s).but _
  | cons a l ih =>
    obtain ⟨first, rest⟩ := List.forall_mem_cons.mp (fun a h s => step s a h)
    exact (first s).trans (ih (fun s b hb => rest b hb s) (f s a))

/-- The address of a lane that goes through the remote aperture. -/
def remoteAddr (as : List (Nat × Nat)) (i : Nat) : Option Nat :=
  (as.find? fun a => a.1 == i).bind fun a => match apOf a.2 with
    | .remote .. => some a.2
    | _ => none

theorem putLanes_eq (s : State) (as : List (Nat × Nat)) (els : List (Nat × El)) (v : VWord) : putLanes s as els v =
    let ws := writeLanes s els v [] 0
    let posted := ws.1.foldl (fun s l => match remoteAddr as l.1 with
      | some addr => putStore s 1 addr l.2
      | none => s) s
    (landStore posted 1 (lastWrites ((ws.1.filter fun l => (remoteAddr as l.1).isNone).flatMap (·.2))), ws.2) := by
  unfold putLanes remoteAddr
  rfl

/-- Posted lane by lane or landed together, a vector store writes its elements' places alone. -/
theorem sameMemoryBut_putLanes (s : State) (as : List (Nat × Nat)) (els : List (Nat × El)) (v : VWord) :
    SameMemoryBut (els.flatMap fun z => storedPlaces z.2) s (putLanes s as els v).1 := by
  have inside : ∀ l ∈ (writeLanes s els v [] 0).1, ∀ w ∈ l.2, w.1 ∈ els.flatMap fun z => storedPlaces z.2 := fun l h =>
    (mem_writeLanes h).resolve_left List.not_mem_nil
  rw [putLanes_eq]
  refine SameMemoryBut.trans (SameMemoryBut.foldl (fun t l h => ?_) s)
    ((sameMemoryBut_landStore _ 1 _).mono (map_fst_subset fun w h => ?_))
  · cases remoteAddr as l.1 with
    | none => exact (SameMemory.refl t).but _
    | some addr => exact (sameMemoryBut_putStore t 1 addr l.2).mono (map_fst_subset (inside l h))
  · obtain ⟨l, hl, hw⟩ := List.mem_flatMap.mp (mem_of_mem_lastWrites h)
    exact inside l (List.mem_of_mem_filter hl) w hw

theorem remoteAddr_near {as : List (Nat × Nat)} (near : ∀ y ∈ as, (apOf y.2).number ≠ 1) (i : Nat) :
    remoteAddr as i = none := by
  refine Option.bind_eq_none_iff.mpr fun a found => ?_
  have away := near a (List.mem_of_find?_eq_some found)
  split
  · next place => exact absurd (by rw [place]; rfl) away
  · rfl

/-- With no lane in the remote aperture the writes land together. -/
theorem putLanes_near {as : List (Nat × Nat)} (near : ∀ y ∈ as, (apOf y.2).number ≠ 1) (s : State) (els : List (Nat × El))
    (v : VWord) : putLanes s as els v = (landStore s 1 (lastWrites ((writeLanes s els v [] 0).1.flatMap (·.2))),
      (writeLanes s els v [] 0).2) := by
  simp only [putLanes_eq, remoteAddr_near near, List.foldl_fixed, Option.isNone_none, List.filter_true]

/-! The body of a vector store -/

section
variable {s u : State} {x : Bool} {as : List (Nat × Nat)} {b : VSrc} {l : List (Nat × Acc)} (ra : (me s).ra = none)
  (res : resolve s (issuer s) .vst 4 false x as = (u, .ok l))
include res

include ra in
theorem vstoreBody_turn (turn : mustFollow (myRegs u) = true) : vstoreBody x as b s =
    .go (produceAt u (.s 0) (.scatter as (laneEls l) (vv u b)) (laneWalks u (issuer u) 4 as)) := by
  have ahead : (me u).ra.isNone = true := by rw [me_of_resolve res, ra]; rfl
  simp only [vstoreBody, res, ahead, turn, Bool.and_self, if_true]

variable (turn : mustFollow (myRegs u) = false)
  (free : ∀ y ∈ as, storeWaits u y.2 (((laneEls l).filter fun z => z.1 == y.1).flatMap fun z => elPlaces z.2) = false)
include turn free

theorem vstoreBody_free : vstoreBody x as b s =
    .go (raise (putLanes u as (laneEls l) (vv u b)).1 (putLanes u as (laneEls l) (vv u b)).2) := by
  have waits : scatterWaits u as (laneEls l) = false :=
    List.any_eq_false.mpr fun y hy => Bool.eq_false_iff.mp (free y hy)
  simp only [vstoreBody, res, turn, waits, Bool.and_false, Bool.false_eq_true, if_false]

end

end Sys2Proof.Machine
end

section
/-! SUPPORT. Lanes in window 0 of the local scratchpad (04 R93, R102, 08 R209, R210): they resolve to their own bytes, a load
reads each lane's, and a stored byte is that of the highest lane that covers it; with the proof of the statement about vector
memory. -/

namespace Sys2Proof.Machine

/-! Lanes that resolve to bytes of the scratchpad -/

/-- The offset of an address of window 0 of the local scratchpad. -/
def padOff (a : Nat) : Nat := a - 0xFFFFFF0000000000

/-- Four aligned bytes of window 0 of the local scratchpad of a core. -/
def InPad (s : State) (c a : Nat) : Prop := apOf a = .loc 0 (padOff a) ∧ padOff a % 4 = 0 ∧ padOff a + 4 ≤ coreSp s c

theorem padOff_of_loc {a o : Nat} (place : apOf a = .loc 0 o) : padOff a = o := by
  obtain ⟨-, at'⟩ := apOf_eq_loc_zero_iff.mp place
  unfold padOff
  omega

theorem inPad_of_loc {s : State} {c a o : Nat} (place : apOf a = .loc 0 o) (aligned : o % 4 = 0)
    (fits : o + 4 ≤ coreSp s c) : InPad s c a := by
  rw [InPad, padOff_of_loc place]
  exact ⟨place, aligned, fits⟩

section
variable {s : State} {q : Issuer} {k : Acs} {a : Nat} (pad : InPad s q.core a)
include pad

theorem chkClass_pad (kind : k = .vld ∨ k = .vst) : chkClass s q k 4 false false a = none := by
  obtain ⟨place, -, -⟩ := pad
  obtain rfl | rfl := kind <;> simp [chkClass, place, Ap.win]

theorem chkAlign_pad (kind : k = .vld ∨ k = .vst) : chkAlign k 4 a = none := by
  obtain ⟨place, aligned, -⟩ := pad
  obtain ⟨-, at'⟩ := apOf_eq_loc_zero_iff.mp place
  have multiple : a % 4 = 0 := by omega
  obtain rfl | rfl := kind <;> simp [chkAlign, place, Ap.win, winUnit, multiple]

end

theorem lanePieces_none (q : Issuer) (k : AK) (as : List (Nat × Nat)) (s : State) :
    lanePieces q k (as.map fun l => (l.1, [])) s = (s, as.map fun l => (l.1, [])) := by
  induction as with
  | nil => rfl
  | cons a as ih => simp only [List.map_cons, lanePieces, transPieces, ih]

theorem zip_map_self {α β : Type} (f : α → β) (l : List α) : l.zip (l.map f) = l.map fun a => (a, f a) := by
  induction l with
  | nil => rfl
  | cons a l ih => rw [List.map_cons, List.zip_cons_cons, ih, List.map_cons]

/-- The elements of lanes in the scratchpad of a core. -/
def padEls (c : Nat) (as : List (Nat × Nat)) : List (Nat × El) := as.map fun y => (y.1, .raw (poolPlaces c (padOff y.2) 4))

/-- Lanes in the local scratchpad pass every check of R95, translate nothing, and are the bytes from their offsets. -/
theorem resolve_pad {s : State} {q : Issuer} {k : Acs} {as : List (Nat × Nat)} (kind : k = .vld ∨ k = .vst)
    (pad : ∀ y ∈ as, InPad s q.core y.2) : resolve s q k 4 false false as =
      (s, .ok (as.map fun y => (y.1, .els [.raw (poolPlaces q.core (padOff y.2) 4)]))) := by
  have first {f : Nat → Option Trap} (h : ∀ y ∈ as, f y.2 = none) : (as.findSome? fun l => f l.2) = none :=
    List.findSome?_eq_none_iff.mpr h
  have member := first fun y hy => chkMember_local (pad y hy).1 (by decide) (pad y hy).2.2
  have priv := first fun y hy => chkPriv_local (q := q) (pad y hy).1
  have cls := first fun y hy => chkClass_pad (pad y hy) kind
  have desc := first fun y hy => chkDesc_local (s := s) (q := q) (pad y hy).1
  have range := first fun y hy => chkRange_local (k := k) (pad y hy).1 (pad y hy).2.2
  have align := first fun y hy => chkAlign_pad (pad y hy) kind
  have walks : (as.map fun l => (l.1, globalPart s q 4 l.2)) = as.map fun l => (l.1, []) :=
    List.map_congr_left fun y hy => by rw [globalPart_local (pad y hy).1]
  have accs : (as.map fun y => (y.1, accOf s q 4 false y.2 (pasOf []))) =
      as.map fun y => (y.1, .els [.raw (poolPlaces q.core (padOff y.2) 4)]) :=
    List.map_congr_left fun y hy => by rw [accOf_local (pad y hy).1]
  have bad : (as.findSome? fun y => if (pasOf []).any (badPa s (partOf s q.core)) then some y.2 else none) = none :=
    List.findSome?_eq_none_iff.mpr fun y _ => rfl
  have untranslated : ((as.map fun l => (l.1, ([] : List (Nat × Nat × TRes)))).flatMap (·.2)) = [] := by simp
  simp only [resolve, member, priv, cls, desc, range, align, Option.orElse_none, walks, lanePieces_none, untranslated,
    zip_map_self, List.map_map, List.findSome?_map, Function.comp_def, accs, bad, ite_self]
  rfl

/-! Lanes by number -/

/-- In a list of lanes with different numbers, a number finds its lane alone. -/
theorem filter_fst_of_nodup {β : Type} {l : List (Nat × β)} (distinct : (l.map (·.1)).Nodup) {y : Nat × β} (h : y ∈ l) :
    l.filter (fun z => z.1 == y.1) = [y] := by
  induction l with
  | nil => exact absurd h List.not_mem_nil
  | cons a l ih =>
    rw [List.map_cons, List.nodup_cons] at distinct
    obtain ⟨fresh, distinct⟩ := distinct
    rcases List.mem_cons.mp h with rfl | h
    · have others : l.filter (fun z => z.1 == y.1) = [] := List.filter_eq_nil_iff.mpr fun z hz same =>
        fresh (List.mem_map.mpr ⟨z, hz, beq_iff_eq.mp same⟩)
      rw [List.filter_cons, if_pos (beq_self_eq_true y.1), others]
    · have other : (a.1 == y.1) = false := beq_eq_false_iff_ne.mpr fun same =>
        fresh (List.mem_map.mpr ⟨y, h, same.symm⟩)
      rw [List.filter_cons, other, if_neg (by decide), ih distinct h]

theorem find?_fst_of_nodup {β : Type} {l : List (Nat × β)} (distinct : (l.map (·.1)).Nodup) {y : Nat × β} (h : y ∈ l) :
    l.find? (fun z => z.1 == y.1) = some y := by
  rw [← List.head?_filter, filter_fst_of_nodup distinct h]
  rfl

theorem getLsbD_foldl_setBit (l : List Nat) (x : BitVec 64) {k : Nat} (h : k < 64) :
    (l.foldl (fun m i => setBit m i true) x).getLsbD k = (x.getLsbD k || decide (k ∈ l)) := by
  induction l generalizing x with
  | nil => simp
  | cons a l ih =>
    rw [List.foldl_cons, ih, getLsbD_setBit]
    by_cases same : k = a
    · rw [if_pos ⟨same, h⟩]
      simp [same]
    · rw [if_neg fun both => same both.1]
      simp [same]

theorem foldl_setBit_lanes (m : BitVec 64) :
    ((List.range 64).filter fun i => m.getLsbD i).foldl (fun m i => setBit m i true) (0 : BitVec 64) = m := by
  refine BitVec.eq_of_getLsbD_eq fun k h => ?_
  rw [getLsbD_foldl_setBit _ _ h]
  simp [h]

/-- The lanes of a vector access are the active ones, in ascending order. -/
theorem map_fst_laneAddrs (s : State) (p : Pred) (base : Nat) (f : Nat → Int) :
    (laneAddrs s p base f).map (·.1) = (List.range 64).filter fun i => (lanes s p).getLsbD i := by
  simp [laneAddrs, Function.comp_def]

/-! A vector load of the scratchpad -/

theorem laneEls_pad (c : Nat) (as : List (Nat × Nat)) :
    laneEls (as.map fun y => (y.1, .els [.raw (poolPlaces c (padOff y.2) 4)])) = padEls c as := by
  induction as with
  | nil => rfl
  | cons a as ih => exact congrArg ((a.1, El.raw (poolPlaces c (padOff a.2) 4)) :: ·) ih

/-- The lanes that a load of the scratchpad gives. -/
def padWord (s : State) (c : Nat) (as : List (Nat × Nat)) : VWord := mkV fun i =>
  ((as.find? fun y => y.1 == i).elim 0 fun y => BitVec.ofNat 32 (readPlaces s (poolPlaces c (padOff y.2) 4)))

theorem lane_padWord {as : List (Nat × Nat)} (distinct : (as.map (·.1)).Nodup) (s : State) (c : Nat) {y : Nat × Nat}
    (h : y ∈ as) (below : y.1 < 64) :
    lane (padWord s c as) y.1 = BitVec.ofNat 32 (readPlaces s (poolPlaces c (padOff y.2) 4)) := by
  rw [padWord, lane_mkV _ _ below, find?_fst_of_nodup distinct h]
  rfl

theorem readLanes_pad {s : State} {m : BitVec 64} {as : List (Nat × Nat)}
    (active : as.map (·.1) = (List.range 64).filter fun i => m.getLsbD i) (c : Nat) :
    readLanes s (padEls c as) = ((m, padWord s c as), 0) := by
  have reads : (padEls c as).map (fun l => (l.1, readEl s l.2)) =
      as.map fun y => (y.1, (readPlaces s (poolPlaces c (padOff y.2) 4), 0)) := by
    rw [padEls, List.map_map]; rfl
  have mask : as.foldl (fun m y => setBit m y.1 true) (0 : BitVec 64) = m := by
    rw [← foldl_setBit_lanes m, ← active, List.foldl_map]
  have flags : as.foldl (fun f _ => f ||| 0) (0 : FFlags) = 0 := by simp
  unfold readLanes
  rw [reads]
  simp only [List.foldl_map, mask, flags, padWord, List.find?_map, Function.comp_def]
  refine congrArg (fun v => ((m, mkV v), (0 : FFlags))) (funext fun i => ?_)
  cases as.find? fun y => y.1 == i <;> rfl

section
variable {s : State} {c : Nat} {as : List (Nat × Nat)}

theorem ownInFlight_pad (own : ∀ y ∈ as, ownInFlight s [.raw (poolPlaces c (padOff y.2) 4)] = false) :
    ownInFlight s ((padEls c as).map (·.2)) = false := by
  have single (es : List El) : ownInFlight s es = es.any fun e => ownInFlight s [e] := by
    simp only [ownInFlight, overlapsOwn, List.any_cons, List.any_nil, Bool.or_false]
    cases (ownPlaces s (myId s) (myN s) (me s).uid s.serial).isEmpty <;> simp
  rw [single, padEls, List.map_map, List.any_map]
  exact List.any_eq_false.mpr fun y hy => Bool.eq_false_iff.mp (own y hy)

theorem elsStopped_pad : elsStopped s c ((padEls c as).map (·.2)) = false := by
  have single (e : El) : elsStopped s c [e] = placesStopped s c (elPlaces e) := by simp [elsStopped]
  rw [elsStopped, padEls, List.map_map, List.any_map]
  refine List.any_eq_false.mpr fun y _ => Bool.eq_false_iff.mp ?_
  exact (single _).symm.trans (elsStopped_own s c (padOff y.2) 4)

theorem regionsShut_pad : regionsShut s ((padEls c as).map (·.2)) none = false := by
  have regions : plastRegions ((padEls c as).map (·.2)) = [] := by
    simp [plastRegions, padEls, List.filterMap_map, Function.comp_def]
  rw [regionsShut, regions]
  rfl

theorem touchEls_pad (part : Nat) : touchEls s part ((padEls c as).map (·.2)) = s := by
  have places : ((padEls c as).map (·.2)).flatMap elPlaces = as.flatMap fun y => poolPlaces c (padOff y.2) 4 := by
    simp only [padEls, List.map_map, List.flatMap_map, Function.comp_def, elPlaces]
  have served : servedPas s (as.flatMap fun y => poolPlaces c (padOff y.2) 4) = [] := by
    rw [servedPas, List.filterMap_flatMap]
    exact List.flatMap_eq_nil_iff.mpr fun y _ => servedPas_poolPlaces s c (padOff y.2) 4
  rw [touchEls, touch, places, served, noteFar_nil]

theorem settleEls_pad : settleEls s ((padEls c as).map (·.2)) = s := by
  simp only [settleEls, padEls, List.map_map, Function.comp_def, List.foldl_map, List.foldl_fixed]

end

/-- A vector load whose lanes lie in the local scratchpad gives each active lane its four bytes. -/
theorem vloadBody_pad {s : State} {m : BitVec 64} {as : List (Nat × Nat)} (ra : (me s).ra = none)
    (turn : mustFollow (myRegs s) = false) (pad : ∀ y ∈ as, InPad s (myId s) y.2)
    (own : ∀ y ∈ as, ownInFlight s [.raw (poolPlaces (myId s) (padOff y.2) 4)] = false)
    (active : as.map (·.1) = (List.range 64).filter fun i => m.getLsbD i) (d : VReg) :
    vloadBody false d as s = .go (produce s (.v d) (.val (.v m (padWord s (myId s) as)) 0)) := by
  have res := resolve_pad (q := issuer s) (.inl rfl) pad
  have mine := laneEls_pad (issuer s).core as
  have body := vloadBody_resolved res ra (by rw [mine]; exact ownInFlight_pad own) (by rw [mine]; exact elsStopped_pad) d
  rw [body, mine, turn, regionsShut_pad, touchEls_pad, settleEls_pad, Bool.or_self, if_neg (by decide)]
  dsimp only
  rw [readLanes_pad active]
  exact congrArg Act.go (produceVal_issues ra _ _ _)

/-! A vector store to the scratchpad -/

/-- The writes of lanes to the scratchpad, in ascending order. -/
def padWrites (c : Nat) (as : List (Nat × Nat)) (v : VWord) : List (Place × Byte) :=
  as.flatMap fun y => poolWrites c (padOff y.2) 4 (lane v y.1).toNat

theorem writeLanes_pad (c : Nat) (as : List (Nat × Nat)) (v : VWord) (s : State) (out : List (Nat × List (Place × Byte)))
    (f : FFlags) : writeLanes s (padEls c as) v out f =
      (out ++ as.map fun y => (y.1, poolWrites c (padOff y.2) 4 (lane v y.1).toNat), f) := by
  induction as generalizing out f with
  | nil => simp [padEls, writeLanes]
  | cons a as ih =>
    have rest := ih (out ++ [(a.1, poolWrites c (padOff a.2) 4 (lane v a.1).toNat)]) (f ||| 0)
    simp only [padEls, List.map_cons, writeLanes, writeEl_poolPlaces] at rest ⊢
    rw [rest, List.append_assoc, show f ||| 0 = f by simp]
    rfl

theorem landStore_pool {ws : List (Place × Byte)} (pool : ∀ w ∈ ws, ∃ c o, w.1 = .pool c o) (s : State) (kind : Nat) :
    landStore s kind ws = writePlaces s ws := by
  have near : (nearWrites ws).filter (fun w => !isFwd w.1) = ws := by
    rw [nearWrites, List.filter_filter, List.filter_eq_self]
    intro w hw
    obtain ⟨c, o, place⟩ := pool w hw
    simp [place, isFwd, isFar]
  have none {β : Type} {f : Place × Byte → Option β} (h : ∀ c o b, f (.pool c o, b) = none) : ws.filterMap f = [] :=
    List.filterMap_eq_nil_iff.mpr fun ⟨p, b⟩ hw => by
      obtain ⟨c, o, rfl⟩ : ∃ c o, p = .pool c o := pool _ hw
      exact h c o b
  unfold landStore
  rw [none fun _ _ _ => rfl, none fun _ _ _ => rfl, near]
  rfl

/-! The last of the writes to a place -/

theorem nodup_lastWrites (ws : List (Place × Byte)) : ((lastWrites ws).map (·.1)).Nodup := by
  induction ws using List.reverseRecOn with
  | nil => exact List.nodup_nil
  | append_singleton ws w ih =>
    rw [lastWrites_concat, List.map_append, List.map_singleton, ← List.concat_eq_append, List.nodup_concat]
    refine ⟨fun again => ?_, ih.sublist (List.filter_sublist.map _)⟩
    obtain ⟨a, ha, same⟩ := List.mem_map.mp again
    exact absurd same (by simpa using (List.mem_filter.mp ha).2)

/-- A write that no later one covers is the last to its place. -/
theorem mem_lastWrites_append {l m : List (Place × Byte)} {w : Place × Byte} (h : w ∈ lastWrites l)
    (fresh : ∀ v ∈ m, v.1 ≠ w.1) : w ∈ lastWrites (l ++ m) := by
  induction m using List.reverseRecOn with
  | nil => rwa [List.append_nil]
  | append_singleton m v ih =>
    obtain ⟨before, last⟩ := List.forall_mem_append.mp fresh
    rw [← List.append_assoc, lastWrites_concat]
    exact List.mem_append_left _ (List.mem_filter.mpr ⟨ih before, bne_iff_ne.mpr (last v (List.mem_singleton_self v)).symm⟩)

/-- Where a list of writes ends in writes to different places, these are the last to their places. -/
theorem mem_lastWrites_of_nodup {l m : List (Place × Byte)} {w : Place × Byte} (distinct : (m.map (·.1)).Nodup)
    (h : w ∈ m) : w ∈ lastWrites (l ++ m) := by
  induction m using List.reverseRecOn with
  | nil => exact absurd h List.not_mem_nil
  | append_singleton m v ih =>
    rw [List.map_append, List.map_singleton, ← List.concat_eq_append, List.nodup_concat] at distinct
    obtain ⟨fresh, distinct⟩ := distinct
    rw [← List.append_assoc, lastWrites_concat]
    rcases List.mem_append.mp h with h | h
    · refine List.mem_append_left _ (List.mem_filter.mpr ⟨ih distinct h, bne_iff_ne.mpr fun same => fresh ?_⟩)
      exact List.mem_map.mpr ⟨w, h, same⟩
    · exact List.mem_append_right _ h

section
variable {c : Nat} {as : List (Nat × Nat)} {v : VWord}

theorem mem_padWrites {w : Place × Byte} (h : w ∈ padWrites c as v) :
    ∃ y ∈ as, ∃ i, i < 4 ∧ w.1 = .pool c (padOff y.2 + i) := by
  obtain ⟨y, hy, hw⟩ := List.mem_flatMap.mp h
  obtain ⟨i, hi, same⟩ := List.mem_map.mp hw
  exact ⟨y, hy, i, List.mem_range.mp hi, by rw [← same]⟩

/-- The byte of a lane that no higher lane covers is the last write to its place. -/
theorem mem_lastWrites_padWrites (ascending : as.Pairwise fun y z => y.1 < z.1) {y : Nat × Nat} (h : y ∈ as) {j : Nat}
    (inside : j < 4) (top : ∀ z ∈ as, z.1 ≤ y.1 ∨ padOff y.2 + j < padOff z.2 ∨ padOff z.2 + 4 ≤ padOff y.2 + j) :
    (.pool c (padOff y.2 + j), BitVec.ofNat 8 ((lane v y.1).toNat / 2 ^ (8 * j))) ∈ lastWrites (padWrites c as v) := by
  obtain ⟨before, after, rfl⟩ := List.append_of_mem h
  have higher : ∀ z ∈ after, y.1 < z.1 := by
    rw [List.pairwise_append, List.pairwise_cons] at ascending
    exact ascending.2.1.1
  rw [padWrites, List.flatMap_append, List.flatMap_cons, ← List.append_assoc]
  refine mem_lastWrites_append (mem_lastWrites_of_nodup ?_ ?_) fun w hw same => ?_
  · exact map_fst_poolWrites c _ 4 _ ▸ nodup_poolPlaces c _ 4
  · exact List.mem_map.mpr ⟨j, List.mem_range.mpr inside, rfl⟩
  · obtain ⟨z, hz, i, small, place⟩ := mem_padWrites hw
    have offset : padOff z.2 + i = padOff y.2 + j := by simpa using place.symm.trans same
    have beyond := higher z hz
    have covers := top z (by simp [hz])
    omega

/-- What a vector store to the scratchpad leaves: the bytes of the highest lanes, and every other byte. -/
theorem landStore_padWrites_effect (s : State) (ascending : as.Pairwise fun y z => y.1 < z.1) :
    SameMemoryBut (as.flatMap fun y => poolPlaces c (padOff y.2) 4) s (landStore s 1 (lastWrites (padWrites c as v))) ∧
      ∀ y ∈ as, ∀ j, j < 4 →
        (∀ z ∈ as, z.1 ≤ y.1 ∨ padOff y.2 + j < padOff z.2 ∨ padOff z.2 + 4 ≤ padOff y.2 + j) →
        cget (getCore (landStore s 1 (lastWrites (padWrites c as v))) c).pool (padOff y.2 + j) =
          BitVec.ofNat 8 ((lane v y.1).toNat / 2 ^ (8 * j)) := by
  have place : ∀ w ∈ lastWrites (padWrites c as v), ∃ y ∈ as, ∃ i, i < 4 ∧ w.1 = .pool c (padOff y.2 + i) := fun w hw =>
    mem_padWrites (mem_of_mem_lastWrites hw)
  have pool : ∀ w ∈ lastWrites (padWrites c as v), ∃ c o, w.1 = .pool c o := fun w hw => by
    obtain ⟨y, -, i, -, same⟩ := place w hw
    exact ⟨_, _, same⟩
  have direct : ∀ w ∈ lastWrites (padWrites c as v), isFwd w.1 = false := fun w hw => by
    obtain ⟨_, _, same⟩ := pool w hw
    rw [same]; rfl
  refine ⟨(sameMemoryBut_landStore s 1 _).mono (map_fst_subset fun w hw => ?_), fun y hy j inside top => ?_⟩
  · obtain ⟨y, hy, i, small, same⟩ := place w hw
    exact List.mem_flatMap.mpr ⟨y, hy, same ▸ List.mem_map.mpr ⟨i, List.mem_range.mpr small, rfl⟩⟩
  · rw [landStore_pool pool]
    obtain ⟨-, kept, -, -⟩ := sameMemory_writePlaces s (lastWrites (padWrites c as v))
    exact (kept c _).trans (readPlace_writeBytes _ direct (nodup_lastWrites _) s _
      (mem_lastWrites_padWrites ascending hy inside top))

end

/-! Active lanes in ascending order -/

section
variable {m : BitVec 64} {as : List (Nat × Nat)} (active : as.map (·.1) = (List.range 64).filter fun i => m.getLsbD i)
include active

theorem nodup_of_active : (as.map (·.1)).Nodup := active ▸ List.nodup_range.filter _

theorem ascending_of_active : as.Pairwise fun y z => y.1 < z.1 :=
  List.pairwise_map.mp (active ▸ List.pairwise_lt_range.filter _)

theorem lt_of_active {y : Nat × Nat} (h : y ∈ as) : y.1 < 64 := by
  have mem : y.1 ∈ (List.range 64).filter fun i => m.getLsbD i := active ▸ List.mem_map.mpr ⟨y, h, rfl⟩
  exact List.mem_range.mp (List.mem_of_mem_filter mem)

end

/-- A vector store whose lanes lie in the local scratchpad lands at once. -/
theorem vstoreBody_pad {s : State} {as : List (Nat × Nat)} {b : VSrc} (turn : mustFollow (myRegs s) = false)
    (pad : ∀ y ∈ as, InPad s (myId s) y.2) (distinct : (as.map (·.1)).Nodup)
    (free : ∀ y ∈ as, storeWaits s y.2 (poolPlaces (myId s) (padOff y.2) 4) = false) :
    vstoreBody false as b s = .go (raise (landStore s 1 (lastWrites (padWrites (myId s) as (vv s b)))) 0) := by
  have res := resolve_pad (q := issuer s) (.inr rfl) pad
  have mine : laneEls (as.map fun y => (y.1, .els [.raw (poolPlaces (issuer s).core (padOff y.2) 4)])) =
      padEls (myId s) as := laneEls_pad (myId s) as
  have numbers : (padEls (myId s) as).map (·.1) = as.map (·.1) := by rw [padEls, List.map_map]; rfl
  have alone : ∀ y ∈ as, ((padEls (myId s) as).filter fun z => z.1 == y.1).flatMap (fun z => elPlaces z.2) =
      poolPlaces (myId s) (padOff y.2) 4 := fun y hy => by
    have mem : (y.1, El.raw (poolPlaces (myId s) (padOff y.2) 4)) ∈ padEls (myId s) as := List.mem_map.mpr ⟨y, hy, rfl⟩
    rw [filter_fst_of_nodup (numbers ▸ distinct) mem, List.flatMap_singleton]
    rfl
  have near : ∀ y ∈ as, (apOf y.2).number ≠ 1 := fun y hy => by
    obtain ⟨place, -, -⟩ := pad y hy
    rw [place]
    exact (by decide : (2 : Nat) ≠ 1)
  rw [vstoreBody_free res turn fun y hy => by rw [mine, alone y hy, free y hy], mine, putLanes_near near, writeLanes_pad,
    List.nil_append, List.flatMap_map]
  rfl

/-! An instruction with such a body -/

section
variable {i : Instr} {s : State} {ls st : List (Nat × Nat)} {body : State → Act} {as : List (Nat × Nat)}
  (runs : exec i s = .next (issueWith i s ls st body))

section
variable {x : Bool} {d : VReg} (value : body s = vloadBody x d as s)
include runs value

theorem gives_vload {u : State} {l : List (Nat × Acc)} (res : resolve s (issuer s) .vld 4 false x as = (u, .ok l))
    (free : ¬(ownInFlight u ((laneEls l).map (·.2)) = true ∨ elsStopped u (issuer s).core ((laneEls l).map (·.2)) = true)) :
    let later := mustFollow (myRegs u) = true ∨ regionsShut u ((laneEls l).map (·.2)) none = true
    let w := settleEls (touchEls u (partOf u (issuer s).core) ((laneEls l).map (·.2))) ((laneEls l).map (·.2))
    let v := readLanes w (laneEls l)
    (¬later → Gives i s (produceVal w (.v d) (.v v.1.1 v.1.2) v.2)) ∧
      (later → Gives i s (produceRead u (.v d) (.read { els := laneEls l, vec := true, bytes := 4, sx := false })
        ((laneEls l).map (·.2)) (laneWalks u (issuer s) 4 as))) := by
  obtain ⟨own, clock⟩ : ownInFlight u ((laneEls l).map (·.2)) = false ∧
      elsStopped u (issuer s).core ((laneEls l).map (·.2)) = false := by simpa only [not_or, Bool.not_eq_true] using free
  refine ⟨fun now => gives_of_access runs fun ra => ?_, fun later => gives_of_access runs fun ra => ?_⟩ <;>
    rw [value, vloadBody_resolved res ra own clock]
  · exact if_neg (by simpa only [Bool.or_eq_true] using now)
  · exact if_pos (by simpa only [Bool.or_eq_true] using later)

end

section
variable {d : VReg} {m : BitVec 64} (value : body s = vloadBody false d as s) (turn : mustFollow (myRegs s) = false)
  (pad : ∀ y ∈ as, InPad s (myId s) y.2) (active : as.map (·.1) = (List.range 64).filter fun i => m.getLsbD i)
include runs value turn pad active

theorem gives_vload_pad (own : ∀ y ∈ as, ownInFlight s [.raw (poolPlaces (myId s) (padOff y.2) 4)] = false) :
    Gives i s (produce s (.v d) (.val (.v m (padWord s (myId s) as)) 0)) :=
  gives_of_access runs fun ra => value.trans (vloadBody_pad ra turn pad own active d)

end

section
variable {x : Bool} {b : VSrc} (value : body s = vstoreBody x as b s)
include runs value

theorem vstore_free {u : State} {l : List (Nat × Acc)} (res : resolve s (issuer s) .vst 4 false x as = (u, .ok l))
    (turn : ¬mustFollow (myRegs u) = true) (free : ∀ y ∈ as,
      storeWaits u y.2 (((laneEls l).filter fun z => z.1 == y.1).flatMap fun z => elPlaces z.2) = false) :
    Gives i s (raise (putLanes u as (laneEls l) (vv u b)).1 (putLanes u as (laneEls l) (vv u b)).2) :=
  gives_of_access runs fun _ => value.trans (vstoreBody_free res (Bool.eq_false_iff.mpr turn) free)

end

include runs in
/-- A vector store to the scratchpad: the bytes of the highest active lanes, and every other byte. -/
theorem vstore_pad_effect {b : VSrc} {m : BitVec 64} (value : body s = vstoreBody false as b s)
    (turn : mustFollow (myRegs s) = false) (pad : ∀ y ∈ as, InPad s (myId s) y.2)
    (active : as.map (·.1) = (List.range 64).filter fun i => m.getLsbD i)
    (free : ∀ y ∈ as, storeWaits s y.2 (poolPlaces (myId s) (padOff y.2) 4) = false) (h : issues i s = true) :
    ∃ t, exec i s = .next t ∧
      SameMemoryBut (as.flatMap fun y => poolPlaces (myId s) (padOff y.2) 4) s t ∧
      ∀ y ∈ as, ∀ j, j < 4 →
        (∀ z ∈ as, z.1 ≤ y.1 ∨ padOff y.2 + j < padOff z.2 ∨ padOff z.2 + 4 ≤ padOff y.2 + j) →
        cget (getCore t (myId s)).pool (padOff y.2 + j) = BitVec.ofNat 8 ((lane (vv s b) y.1).toNat / 2 ^ (8 * j)) := by
  have given := gives_of_access runs fun _ => value.trans (vstoreBody_pad turn pad (nodup_of_active active) free)
  obtain ⟨frame, bytes⟩ := landStore_padWrites_effect (c := myId s) (v := vv s b) s (ascending_of_active active)
  have kept := sameMemory_raise_advance (landStore s 1 (lastWrites (padWrites (myId s) as (vv s b)))) 0 i
  refine ⟨_, given h, frame.trans (kept.but _), fun y hy j inside top => ?_⟩
  obtain ⟨-, pool, -, -⟩ := kept
  exact (pool _ _).trans (bytes y hy j inside top)

end

/-- Settles O24: the three addressings share their bodies, and in the scratchpad the writes of the lanes in ascending order
leave each byte as the highest lane gives it. -/
theorem vectorMemory : Obligations.VectorMemory := by
  unfold Obligations.VectorMemory
  intro p x k d a e b g disp dsp s u l q els es w v follows later waits k0 local0 loads stores
  have inPad {as : List (Nat × Nat)} (h : local0 as) : ∀ y ∈ as, InPad s (myId s) y.2 := fun y hy => by
    obtain ⟨-, -, place⟩ := h
    obtain ⟨o, place, aligned, fits⟩ := place y hy
    exact inPad_of_loc place aligned fits
  have load {i : Instr} {as ls st : List (Nat × Nat)} {body : State → Act}
      (runs : exec i s = .next (issueWith i s ls st body)) (value : body s = vloadBody x d as s)
      (active : as.map (·.1) = (List.range 64).filter fun i => (lanes s p).getLsbD i) : loads i as := by
    refine ⟨fun res free => gives_vload runs value res free, fun res held => ?_, fun pad own => ?_⟩
    · exact becomes_of_access_hold runs fun _ => value.trans (vloadBody_hold res held d)
    · obtain ⟨plain, turn, -⟩ := id pad
      refine ⟨_, gives_vload_pad runs (plain ▸ value) turn (inPad pad) active fun y hy => own y hy _ (inPad pad y hy).1,
        fun y hy o place => ?_⟩
      rw [lane_padWord (nodup_of_active active) _ _ hy (lt_of_active active hy), padOff_of_loc place]
  have store {i : Instr} {as ls st : List (Nat × Nat)} {body : State → Act}
      (runs : exec i s = .next (issueWith i s ls st body)) (value : body s = vstoreBody x as b s)
      (active : as.map (·.1) = (List.range 64).filter fun i => (lanes s p).getLsbD i) : stores i as := by
    refine ⟨fun res => ⟨fun turn => ?_, fun turn free => ?_⟩, fun pad free h => ?_⟩
    · exact gives_of_access runs fun ra => value.trans (vstoreBody_turn ra res turn)
    · have given := vstore_free runs value res turn free
      refine ⟨given, fun near => ?_, fun h => ⟨_, given h, ?_⟩⟩
      · rwa [putLanes_near near] at given
      · exact (sameMemoryBut_putLanes u as els _).trans ((sameMemory_raise_advance _ _ i).but _)
    · obtain ⟨plain, turn, -⟩ := id pad
      obtain ⟨t, next, frame, bytes⟩ := vstore_pad_effect runs (plain ▸ value) turn (inPad pad) active
        (fun y hy => free y hy _ (inPad pad y hy).1) h
      refine ⟨t, next, fun y hy o j place inside top => ?_, frame.mono fun q hq => ?_⟩
      · rw [← padOff_of_loc place]
        refine bytes y hy j inside fun z hz => ?_
        rw [padOff_of_loc place]
        exact top z hz _ (inPad pad z hz).1
      · obtain ⟨y, hy, mem⟩ := List.mem_flatMap.mp hq
        refine List.mem_flatMap.mpr ⟨y, hy, ?_⟩
        rw [(inPad pad y hy).1]
        exact mem
  exact ⟨load rfl rfl (map_fst_laneAddrs ..), load rfl rfl (map_fst_laneAddrs ..), load rfl rfl (map_fst_laneAddrs ..),
    store rfl rfl (map_fst_laneAddrs ..), store rfl rfl (map_fst_laneAddrs ..), store rfl rfl (map_fst_laneAddrs ..)⟩

end Sys2Proof.Machine
end

section
/-! SUPPORT. Array commands at issue (09 R223 to R235): who may issue one, its place in the queue, and the proof of the
statement about them. -/

namespace Sys2Proof.Machine

/-! What the registers of a context leave of its core -/

theorem myCore_modRegs (s : State) (f : Regs → Regs) :
    { myCore (modRegs s f) with ctxs := [] } = { myCore s with ctxs := [] } := getCore_modCtx s (myId s) (myN s) (myId s) _

theorem client_modRegs (s : State) (f : Regs → Regs) : (myCore (modRegs s f)).client = (myCore s).client :=
  (congrArg Core.client (myCore_modRegs s f) :)

theorem mq_modRegs (s : State) (f : Regs → Regs) : (myCore (modRegs s f)).mq = (myCore s).mq :=
  (congrArg Core.mq (myCore_modRegs s f) :)

theorem arrayCommands_modRegs {s : State} {f : Regs → Regs} (keeps : (f (myRegs s)).pend = (myRegs s).pend) :
    arrayCommands (modRegs s f) = arrayCommands s := by
  have pend : (myRegs (modRegs s f)).pend = (myRegs s).pend := (congrArg Regs.pend (myRegs_modRegs s f)).trans keeps
  rw [arrayCommands, client_modRegs, mq_modRegs, pend]
  rfl

theorem pend_fifoPop (r : Regs) (f : FReg) : (fifoPop r f).pend = r.pend := by
  unfold fifoPop
  split <;> rfl

/-- The pops of an MMAG leave the producers in flight alone. -/
theorem pend_fifoPops (f : FReg) (n : Nat) (r : Regs) :
    ((List.range n).foldl (fun r _ => fifoPop r f) r).pend = r.pend := by
  induction n with
  | zero => rfl
  | succ n ih => rw [List.range_succ, List.foldl_append, List.foldl_cons, List.foldl_nil, pend_fifoPop, ih]

/-! The queue of the array -/

/-- The command that a context issues now: what it captures. -/
def arrayCmd (s : State) (i : Instr) (base : Word) (idx : List (BitVec 32)) : MCmd :=
  { id := s.serial, ctx := myN s, uid := (me s).uid, instr := i, base, idx, wd5 := (myRegs s).wd5, wd6 := (myRegs s).wd6,
    wd7 := (myRegs s).wd7, go := false, started := false, row := 0, flags := 0 }

/-- The state in which that command has entered: its queue, or the list of producers behind what a FENCEE holds (08 R222). -/
def enterArray (s : State) (i : Instr) (base : Word) (idx : List (BitVec 32)) : State :=
  if arrayTurn (myRegs s) then takeTurn s (.array (arrayCmd s i base idx))
  else queueArray { s with serial := s.serial + 1 } (myId s) (arrayCmd s i base idx)

section
variable {s : State} {i : Instr} {b : Word} {idx : List (BitVec 32)}

theorem enqueue_room (room : arrayCommands s < 8) : enqueue s i b idx = .go (enterArray s i b idx) :=
  if_neg (not_le.mpr room)

theorem enqueue_full (full : 8 ≤ arrayCommands s) : enqueue s i b idx = .hold := if_pos full

theorem mayCommand_of_not_client (other : isClient s = false) : mayCommand s i = false := by
  rw [mayCommand, other, Bool.false_and]

end

/-! An instruction whose body is that of an array command -/

section
variable {i : Instr} {s : State} {ok : State → Bool} {base : State → Word} {check : State → Option Trap}

theorem arrayBody_passes (may : mayCommand s i = true) (there : ok s = true) (sound : check s = none) :
    arrayBody i ok base check s = enqueue s i (base s) [] := by
  simp only [arrayBody, may, there, sound, Bool.not_true, Bool.or_self, Bool.false_eq_true, if_false]

theorem arrayBody_refused (refused : mayCommand s i = false ∨ ok s = false) :
    arrayBody i ok base check s = .trap s tILLEGAL :=
  if_pos (by simpa using refused)

variable (runs : exec i s = .next (issue i s (arrayBody i ok base check)))
include runs

theorem array_enters {b : Word} (may : mayCommand s i = true ∧ arrayCommands s < 8) (there : ok s = true)
    (sound : check s = none) (value : base s = b) : Gives i s (enterArray s i b []) := by
  subst value
  obtain ⟨may, room⟩ := may
  exact gives_of_go runs ((arrayBody_passes may there sound).trans (enqueue_room room)) rfl

theorem array_waits (may : mayCommand s i = true) (there : ok s = true) (sound : check s = none)
    (full : 8 ≤ arrayCommands s) : Becomes i s (wait s) :=
  becomes_of_hold runs ((arrayBody_passes may there sound).trans (enqueue_full full))

theorem array_illegal (refused : mayCommand s i = false ∨ ok s = false) : Becomes i s (raiseTrap s i tILLEGAL []) :=
  becomes_illegal runs (arrayBody_refused refused)

theorem array_not_client (other : isClient s = false) : Becomes i s (raiseTrap s i tILLEGAL []) :=
  array_illegal runs (.inl (mayCommand_of_not_client other))

end

/-! The tiles that a command names -/

section
variable {s : State} {d n : Nat}

theorem tilesExist_iff : tilesExist s d n = true ↔ d + n ≤ pwAcc (myCore s).pword := decide_eq_true_iff

theorem rowTiles_exist {m1 : BitVec 9} (few : m1.toNat ≤ 255) (there : d + n ≤ pwAcc (myCore s).pword) :
    (rowsOk m1 && tilesExist s d n) = true := by
  rw [tilesExist_iff.mpr there, rowsOk, decide_eq_true few]; rfl

end

/-! Each command and its body -/

section
variable {c : Cond} {za i4 west int clr x : Bool} {rm : RMode} {g : Option GReg} {d : AReg} {a : SSrc} {f : FReg}
  {nrow : BitVec 24} {m1 : BitVec 9} {n1 : BitVec 4} {w : BitVec 32} {form : MzForm} {load : Option (SSrc × BitVec 32)}
  {s : State}

theorem exec_mls : exec (.mls c west i4 g a w) s = .next (issue (.mls c west i4 g a w) s
    (arrayBody (.mls c west i4 g a w) (fun _ => true) (fun s => sv s a)
      fun s => mlsCheck west i4 w.toNat (sv s a).toNat s)) := rfl

theorem exec_mma : exec (.mma c za i4 g d a m1 w) s = .next (issue (.mma c za i4 g d a m1 w) s
    (arrayBody (.mma c za i4 g d a m1 w) (fun s => rowsOk m1 && tilesExist s d.toNat (tilesOf (m1.toNat + 1)))
      (fun s => sv s a) fun s => rowsCheck i4 (m1.toNat + 1) w.toNat (sv s a).toNat s)) := rfl

theorem exec_mrot : exec (.mrot c za i4 g d load) s = .next (issue (.mrot c za i4 g d load) s
    (arrayBody (.mrot c za i4 g d load) (fun s => mayRotate s && tilesExist s d.toNat 1)
      (fun s => load.elim 0 fun l => sv s l.1)
      fun s => load.elim none fun l => rowsCheck i4 64 l.2.toNat (sv s l.1).toNat s)) := by
  cases load <;> rfl

theorem exec_mst : exec (.mst c int clr x rm g a d m1 w) s = .next (issue (.mst c int clr x rm g a d m1 w) s
    (arrayBody (.mst c int clr x rm g a d m1 w) (fun s => rowsOk m1 && tilesExist s d.toNat (tilesOf (m1.toNat + 1)))
      (fun s => sv s a) fun s => mstCheck x (m1.toNat + 1) w.toNat (sv s a).toNat s)) := rfl

theorem exec_mzero : exec (.mzero c d n1 form) s = .next (issue (.mzero c d n1 form) s
    (arrayBody (.mzero c d n1 form) (fun s => tilesExist s d.toNat (n1.toNat + 1)) (fun _ => 0) fun _ => none)) := rfl

/-! MMAG, which pops its index entries (R231) -/

/-- The state in which the entries of n tiles are popped, and the indices of its rows. -/
def gathered (s : State) (f : FReg) (n : Nat) : State :=
  modRegs s fun r => (List.range n).foldl (fun r _ => fifoPop r f) r
def gatherRows (s : State) (f : FReg) (n rows : Nat) : List (BitVec 32) :=
  (((rdF (myRegs s) f).take n).flatMap fun e => (List.range 64).map (lane e)).take rows

theorem mmag_enters (may : mayCommand s (.mmag c za i4 g d a f nrow m1 w) = true ∧ arrayCommands s < 8)
    (few : m1.toNat ≤ 255) (there : d.toNat + tilesOf (m1.toNat + 1) ≤ pwAcc (myCore s).pword)
    (sound : rowsCheck i4 0 w.toNat (sv s a).toNat s = none) (entries : tilesOf (m1.toNat + 1) ≤ (rdF (myRegs s) f).length) :
    Gives (.mmag c za i4 g d a f nrow m1 w) s (enterArray (gathered s f (tilesOf (m1.toNat + 1)))
      (.mmag c za i4 g d a f nrow m1 w) (sv s a) (gatherRows s f (tilesOf (m1.toNat + 1)) (m1.toNat + 1))) := by
  obtain ⟨may, room⟩ := may
  obtain ⟨rows, tiles⟩ := Bool.and_eq_true_iff.mp (rowTiles_exist few there)
  have ready : ¬(((rdF (myRegs s) f).take (tilesOf (m1.toNat + 1))).length < tilesOf (m1.toNat + 1) ∨
      8 ≤ arrayCommands s) := by
    rw [List.length_take]; omega
  refine gives_of_go rfl (Eq.trans ?_ (enqueue_room ?room)) rfl
  case room => rwa [gathered, arrayCommands_modRegs (pend_fifoPops _ _ _)]
  simp only [may, rows, tiles, sound, ready, Bool.not_true, Bool.or_self, Bool.false_eq_true, if_false, gathered, gatherRows]

theorem mmag_not_client (other : isClient s = false) :
    Becomes (.mmag c za i4 g d a f nrow m1 w) s (raiseTrap s (.mmag c za i4 g d a f nrow m1 w) tILLEGAL []) :=
  becomes_illegal rfl (if_pos (by rw [mayCommand_of_not_client other]; rfl))

end

/-- Settles O33: five of the commands share `arrayBody`, MMAG pops its index entries before it enters. -/
theorem matrixCommands : Obligations.MatrixCommands := by
  unfold Obligations.MatrixCommands
  intro c za i4 west int clr x rm g d a f nrow m1 n1 w form load s rows tiles base there queue ok not mls mma mmag mrot mst mz
  refine ⟨fun may sound => array_enters exec_mls may rfl sound rfl,
    fun may few tiles sound => array_enters exec_mma may (rowTiles_exist few tiles) sound rfl,
    fun may few tiles sound entries => mmag_enters may few tiles sound entries,
    fun may rotates tile sound => array_enters exec_mrot may ?there ?check rfl,
    fun may few tiles sound => array_enters exec_mst may (rowTiles_exist few tiles) sound rfl,
    fun may tiles => array_enters exec_mzero may (tilesExist_iff.mpr tiles) rfl rfl,
    fun may tiles full => array_waits exec_mzero may (tilesExist_iff.mpr tiles) rfl full,
    fun may missing => array_illegal exec_mzero (.inr (Bool.eq_false_iff.mpr (mt tilesExist_iff.mp missing))),
    array_not_client exec_mls, array_not_client exec_mma, mmag_not_client, array_not_client exec_mrot,
    array_not_client exec_mst, array_not_client exec_mzero⟩
  case there => rw [rotates, tilesExist_iff.mpr tile]; rfl
  case check =>
    cases load with
    | none => rfl
    | some l => exact sound l rfl

end Sys2Proof.Machine
end

section
/-! SUPPORT. The lease and the guards of the array, MLDT, MSTAT and MWAIT (09 R223, R224, R236 to R241), and the proof of the
statement about them. -/

namespace Sys2Proof.Machine

/-! What a context holds of the array once its commands in their turn have acted (08 R222) -/

theorem foldl_of_fixed {α β : Type} {f : α → β → α} {l : List β} (h : ∀ a, ∀ b ∈ l, f a b = a) (a : α) : l.foldl f a = a :=
  (List.foldl_ext f (fun a _ => a) a h).trans (List.foldl_fixed l)

/-- A command of the list of producers, and whether its context is the client after it. -/
def leaseAfter (b : Bool) : Prod → Bool
  | .mlease => true
  | .mrel => false
  | _ => b

/-- The same for the owner of a guard. -/
def ownsAfter (g : GReg) (b : Bool) : Prod → Bool
  | .gclr h => b || h == g
  | .gfree h => b && h != g
  | _ => b

theorem leaseAfter_other {b : Bool} {p : Prod} (lease : p ≠ .mlease) (release : p ≠ .mrel) : leaseAfter b p = b := by
  cases p with
  | mlease => exact absurd rfl lease
  | mrel => exact absurd rfl release
  | _ => rfl

theorem ownsAfter_other {g : GReg} {b : Bool} {p : Prod} (take : p ≠ .gclr g) (free : p ≠ .gfree g) : ownsAfter g b p = b := by
  cases p with
  | gclr h => simp [ownsAfter, show h ≠ g from fun e => take (e ▸ rfl)]
  | gfree h => simp [ownsAfter, show h ≠ g from fun e => free (e ▸ rfl)]
  | _ => rfl

section
variable (s : State) (g : GReg)

theorem isClient_eq : isClient s =
    (myRegs s).pend.foldl (fun b p => leaseAfter b p.prod) ((myCore s).client == some (myN s)) := rfl

theorem ownsGuard_eq : ownsGuard s g =
    (myRegs s).pend.foldl (fun b p => ownsAfter g b p.prod) ((guardAt (myCore s) g).owner == some (myN s)) := rfl

/-- A turn is an entry of the list of producers, and a number. -/
theorem takeTurn_eq (p : Prod) : ∃ f : Regs → Regs, takeTurn s p = { modRegs s f with serial := s.serial + 1 } := ⟨_, rfl⟩

theorem client_takeTurn (p : Prod) : (myCore (takeTurn s p)).client = (myCore s).client := by
  obtain ⟨f, e⟩ := takeTurn_eq s p
  rw [e]
  exact client_modRegs s f

theorem guards_takeTurn (p : Prod) : (myCore (takeTurn s p)).guards = (myCore s).guards := by
  obtain ⟨f, e⟩ := takeTurn_eq s p
  rw [e]
  exact (congrArg Core.guards (myCore_modRegs s f) :)

theorem pend_takeTurn (p : Prod) : (myRegs (takeTurn s p)).pend =
    (myRegs s).pend ++ [{ id := s.serial, dest := .s 0, prod := p, priv := (me s).priv.toNat, walks := [] }] := by
  rw [takeTurn, myRegs_produce]

theorem isClient_takeTurn (p : Prod) : isClient (takeTurn s p) = leaseAfter (isClient s) p := by
  rw [isClient_eq, pend_takeTurn, client_takeTurn, List.foldl_append]; rfl

theorem ownsGuard_takeTurn (p : Prod) : ownsGuard (takeTurn s p) g = ownsAfter g (ownsGuard s g) p := by
  rw [ownsGuard_eq, pend_takeTurn, guardAt, guards_takeTurn, List.foldl_append]; rfl

end

section
variable {s : State} {g : GReg}

theorem isClient_iff (settled : ∀ x ∈ (myRegs s).pend, x.prod ≠ .mrel ∧ x.prod ≠ .mlease) :
    isClient s = true ↔ (myCore s).client = some (myN s) := by
  have fixed : ∀ b, ∀ x ∈ (myRegs s).pend, leaseAfter b x.prod = b := fun b x mem => by
    obtain ⟨release, lease⟩ := settled x mem
    exact leaseAfter_other lease release
  rw [isClient_eq, foldl_of_fixed fixed, beq_iff_eq]

theorem ownsGuard_iff (settled : ∀ x ∈ (myRegs s).pend, x.prod ≠ .gclr g ∧ x.prod ≠ .gfree g) :
    ownsGuard s g = true ↔ (guardAt (myCore s) g).owner = some (myN s) := by
  have fixed : ∀ b, ∀ x ∈ (myRegs s).pend, ownsAfter g b x.prod = b := fun b x mem => by
    obtain ⟨take, free⟩ := settled x mem
    exact ownsAfter_other take free
  rw [ownsGuard_eq, foldl_of_fixed fixed, beq_iff_eq]

theorem arrayCommands_settled (settled : ∀ x ∈ (myRegs s).pend, isArray x.prod = false) :
    arrayCommands s = if (myCore s).client = some (myN s) then (myCore s).mq.length else 0 := by
  have empty : ((myRegs s).pend.filter fun p => isArray p.prod) = [] :=
    List.filter_eq_nil_iff.mpr fun x mem => by simp [settled x mem]
  rw [arrayCommands, empty]; rfl

theorem commandTurn_iff : commandTurn s = true ↔
    fenceeHeld s (myId s) (myN s) (me s).uid s.serial = true ∨ guardTurns (myRegs s) = true := by
  rw [commandTurn, Bool.or_eq_true]

end

/-! The lease (R223, R224) -/

section
variable {c : Cond} {s : State}

theorem mrel_of_other (other : isClient s = false) : Gives (.mrel c) s s :=
  gives_of_go rfl (if_pos (by rw [other]; rfl)) rfl

theorem mrel_turn (client : isClient s = true) (held : commandTurn s = true) : Gives (.mrel c) s (takeTurn s .mrel) :=
  gives_of_go rfl ((if_neg (by rw [client]; decide)).trans (if_pos held)) rfl

section
variable (act : ¬commandTurn s = true)
include act

theorem mlease_free (free : (myCore s).client = none) :
    Gives (.mlease c) s (modMyCore s fun k => { k with client := some (myN s) }) :=
  gives_of_go rfl ((if_neg act).trans (by simp only [free])) rfl

theorem mlease_again (mine : (myCore s).client = some (myN s)) : Gives (.mlease c) s s :=
  gives_of_go rfl ((if_neg act).trans (by simp only [mine, if_true])) rfl

theorem mlease_waits {o : Nat} (taken : (myCore s).client = some o) (other : o ≠ myN s) : Becomes (.mlease c) s (wait s) :=
  becomes_of_hold rfl ((if_neg act).trans (by simp only [taken, other, if_false]))

variable (client : isClient s = true)
include client

theorem mrel_releases (idle : leaseBusy s (myId s) = false) : Gives (.mrel c) s (releaseLease s (myId s)) := by
  refine gives_of_go rfl ((if_neg ?_).trans ((if_neg act).trans (if_neg ?_))) rfl
  · rw [client]; decide
  · rw [idle, Bool.and_false]; decide

theorem mrel_waits (busy : leaseBusy s (myId s) = true) : Becomes (.mrel c) s (wait s) := fun h => by
  refine becomes_of_hold rfl ((if_neg ?_).trans ((if_neg act).trans (if_pos ?_))) h
  · rw [client]; decide
  · rw [busy, runsAhead_of_issues h]; rfl

end

end

/-! Guards (R238) -/

section
variable {c : Cond} {g : GReg} {v : GsetVal} {s : State}

section
variable (act : ¬commandTurn s = true)
include act

theorem gclr_takes (free : (guardAt (myCore s) g).owner = none ∨ (guardAt (myCore s) g).owner = some (myN s)) :
    Gives (.gclr c g) s (takeGuard s (myId s) (myN s) g) := by
  refine gives_of_go rfl ((if_neg act).trans ?_) rfl
  rcases free with free | own
  · simp only [free]
  · simp only [own, if_true]

theorem gclr_waits {o : Nat} (taken : (guardAt (myCore s) g).owner = some o) (other : o ≠ myN s) :
    Becomes (.gclr c g) s (wait s) :=
  becomes_of_hold rfl ((if_neg act).trans (by simp only [taken, other, if_false]))

end

section
variable (own : ownsGuard s g = true)
include own

theorem gset_resolves (act : ¬commandTurn s = true) : Gives (.gset c g v) s (resolveGuard s (myId s) g (gsetValue s v)) :=
  gives_of_go rfl ((if_neg (by rw [own]; decide)).trans (if_neg act)) rfl

theorem gset_turn (held : commandTurn s = true) : Gives (.gset c g v) s (takeTurn s (.gset g (gsetValue s v))) :=
  gives_of_go rfl ((if_neg (by rw [own]; decide)).trans (if_pos held)) rfl

theorem gclrR_frees (act : ¬commandTurn s = true) : Gives (.gclrR c g) s (freeGuard s (myId s) g) :=
  gives_of_go rfl ((if_neg (by rw [own]; decide)).trans (if_neg act)) rfl

theorem gclrR_turn (held : commandTurn s = true) : Gives (.gclrR c g) s (takeTurn s (.gfree g)) :=
  gives_of_go rfl ((if_neg (by rw [own]; decide)).trans (if_pos held)) rfl

end

theorem guard_of_other (other : ownsGuard s g = false) :
    Becomes (.gset c g v) s (raiseTrap s (.gset c g v) tILLEGAL []) ∧
      Becomes (.gclrR c g) s (raiseTrap s (.gclrR c g) tILLEGAL []) :=
  ⟨becomes_illegal rfl (if_pos (by rw [other]; rfl)), becomes_illegal rfl (if_pos (by rw [other]; rfl))⟩

end

/-! MSTAT and MWAIT (R240, R241) -/

section
variable {c : Cond} {clr : Bool} {d : SReg} {n : BitVec 4} {s : State}

theorem mstat_reads (act : ¬commandTurn s = true) : Gives (.mstat c clr d) s
    (produceVal (readMstat s (myId s) (myN s) clr).1 (.s d) (.s (mstatWord s (myId s) (myN s))) 0) :=
  gives_of_go rfl (if_neg (by rw [Bool.eq_false_iff.mpr act, Bool.and_false]; decide)) rfl

theorem mstat_turn (held : commandTurn s = true) : Gives (.mstat c clr d) s (produce s (.s d) (.mstat clr)) := fun h =>
  gives_of_go rfl (if_pos (by rw [held, runsAhead_of_issues h]; rfl)) rfl h

theorem mwait_ends (listed : n.toNat ≤ 8) (few : arrayCommands s ≤ n.toNat) : Gives (.mwait c n) s s :=
  gives_of_go rfl ((if_neg (not_lt.mpr listed)).trans (if_neg (not_lt.mpr few))) rfl

theorem mwait_waits (listed : n.toNat ≤ 8) (many : n.toNat < arrayCommands s) : Becomes (.mwait c n) s (wait s) :=
  becomes_of_hold rfl ((if_neg (not_lt.mpr listed)).trans (if_pos many))

end

/-! MLDT (R236, R237) -/

section
variable {c : Cond} {b8 ns : Bool} {a b : SSrc} {w : BitVec 32} {s u : State}

section
variable (sound : mldtCheck s (issuer s) ns (sv s a).toNat (sv s b).toNat w.toNat (myRegs s).mldtCur = none)
include sound

theorem mldt_runs (clock : mldtStopped s (issuer s) (sv s b).toNat w.toNat (myRegs s).mldtCur = false)
    (units : mldtUnits (issuer s) b8 ns (localOff (sv s a).toNat) (sv s b).toNat w.toNat 16 (myRegs s).mldtCur s = (u, none)) :
    Gives (.mldt c b8 ns a b w) s u :=
  gives_of_access rfl fun ra => by simp only [mldtBody, sound, issuer_ahead ra, clock, units, Bool.false_eq_true, if_false]

theorem mldt_waits (clock : mldtStopped s (issuer s) (sv s b).toNat w.toNat (myRegs s).mldtCur = true) :
    Becomes (.mldt c b8 ns a b w) s (wait s) :=
  becomes_of_access_hold rfl fun ra => by
    simp only [mldtBody, sound, issuer_ahead ra, clock, Bool.false_eq_true, if_false, if_true]

end

/-- The swizzle in a window of 5 to 7 (04 R109). -/
theorem mldtCheck_swizzled {q : Issuer} {d source stride cur : Nat} (far : 5 ≤ (apOf d).win) :
    mldtCheck s q false d source stride cur = some tILLEGAL := by
  unfold mldtCheck
  split
  case h_1 o place => simp [place, Ap.win] at far
  case h_2 ap other => simp [far]

theorem mldt_swizzled (far : 5 ≤ (apOf (sv s a).toNat).win) :
    Becomes (.mldt c b8 false a b w) s (raiseTrap s (.mldt c b8 false a b w) tILLEGAL []) := fun h => by
  rw [exec_of_access rfl h, mldtBody, mldtCheck_swizzled far]
  exact congrArg _ (endOf_trap_plain _ _ _ _ _ (by decide))

end

/-- Settles O34: each command by whether it takes its turn behind a FENCEE and by who holds the lease or the guard, MLDT by its
check and by the clocks of its rows. -/
theorem matrixControl : Obligations.MatrixControl := by
  unfold Obligations.MatrixControl
  intro c b8 ns za d a b g v n w s u k mine own held
  refine ⟨commandTurn_iff, fun turn => ⟨gives_of_go rfl (if_pos turn) rfl, gives_of_go rfl (if_pos turn) rfl⟩, mlease_free,
    mlease_again, fun act o => mlease_waits act, fun client act => mrel_releases act client,
    fun client act => mrel_waits act client, mrel_turn, mrel_of_other, isClient_iff, ownsGuard_iff,
    isClient_takeTurn s .mlease, isClient_takeTurn s .mrel, ?takes, ?frees, gclr_takes, fun act o => gclr_waits act,
    fun own act => ⟨gset_resolves own act, gclrR_frees own act⟩, fun own turn => ⟨gset_turn own turn, gclrR_turn own turn⟩,
    guard_of_other, fun act => ⟨mstat_reads act, mstat_reads act⟩, mstat_turn, mwait_ends, mwait_waits,
    arrayCommands_settled, fun unlisted => becomes_illegal rfl (if_pos unlisted),
    fun sound => ⟨mldt_runs sound, mldt_waits sound⟩, ?swizzled⟩
  case takes => rw [ownsGuard_takeTurn]; simp [ownsAfter]
  case frees => rw [ownsGuard_takeTurn]; simp [ownsAfter]
  case swizzled => rintro rfl far; exact mldt_swizzled far

end Sys2Proof.Machine
end

section
/-! SUPPORT. Retrieval commands at issue (09 R244 to R258): their place in the queue of the unit, RTSET and the pieces of
RTSET.INIT, RFENCE, and the proof of the statement about them. -/

namespace Sys2Proof.Machine

/-! Commands that name a descriptor -/

section
variable {i : Instr} {s u : State} {t : Trap} {body : State → Act} (runs : exec i s = .next (issue i s body))
include runs

/-- A trap from a state that the body has changed. -/
theorem becomes_of_trap_in (ends : body s = .trap u t) (plain : t.cause ≠ 7) : Becomes i s (raiseTrap u i t []) := fun h => by
  rw [exec_of_issues runs h, ends, endOf_trap_plain i s u [] t plain]

end

section
variable {s : State} {body : State → Act}

theorem poolTrap_intact (intact : (me s).poolFail = false) : poolTrap s body = body s := if_neg (by rw [intact]; decide)

theorem poolTrap_noted (noted : (me s).poolFail = true) :
    poolTrap s body = .trap (modMe s fun x => { x with poolFail := false }) (mkTrap 0x0E 0) := if_pos noted

theorem queueFull_iff : queueFull s = true ↔ 8 ≤ (myCore s).rq.length := decide_eq_true_iff

end

section
variable {s : State} {h : BitVec 4} {y : RDesc} {check : State → RDesc → Option Trap} {enter : State → Act}
  (intact : (me s).poolFail = false)
include intact

theorem ruBody_unnamed (absent : myDesc s h = none) : ruBody h check enter s = .trap s tILLEGAL := by
  simp only [ruBody, poolTrap_intact intact, absent]

section
variable (desc : myDesc s h = some y)
include desc

theorem ruBody_refused {t : Trap} (bad : check s y = some t) : ruBody h check enter s = .trap s t := by
  simp only [ruBody, poolTrap_intact intact, desc, bad]

theorem ruBody_sound (sound : check s y = none) : ruBody h check enter s = if queueFull s then .hold else enter s := by
  simp only [ruBody, poolTrap_intact intact, desc, sound]

end

end

section
variable {i : Instr} {s : State} {h : BitVec 4} {y : RDesc} {check : State → RDesc → Option Trap} {enter : State → Act}
  (runs : exec i s = .next (issue i s (ruBody h check enter)))
include runs

theorem retrieval_enters {t : State} (ready : myDesc s h = some y ∧ (me s).poolFail = false ∧ (myCore s).rq.length < 8)
    (sound : check s y = none) (enters : enter s = .go t) : Gives i s t := by
  obtain ⟨desc, intact, room⟩ := ready
  refine gives_of_go runs ((ruBody_sound intact desc sound).trans ((if_neg ?_).trans enters)) rfl
  rwa [queueFull_iff, not_le]

theorem retrieval_illegal (intact : (me s).poolFail = false) (desc : myDesc s h = some y) (bad : check s y = some tILLEGAL) :
    Becomes i s (raiseTrap s i tILLEGAL []) := becomes_illegal runs (ruBody_refused intact desc bad)

/-- What every command that names a descriptor may meet first: no descriptor, a noted failure of the pool, a full queue. -/
theorem retrieval_refused {accepted : Prop} (sound : accepted → check s y = none) :
    ((me s).poolFail = false → myDesc s h = none → Becomes i s (raiseTrap s i tILLEGAL [])) ∧
    ((me s).poolFail = true → Becomes i s (raiseTrap (modMe s fun x => { x with poolFail := false }) i (mkTrap 0x0E 0) [])) ∧
    ((me s).poolFail = false → myDesc s h = some y → accepted → 8 ≤ (myCore s).rq.length → Becomes i s (wait s)) := by
  refine ⟨fun intact absent => becomes_illegal runs (ruBody_unnamed intact absent),
    fun noted => becomes_of_trap_in runs (poolTrap_noted noted) (by decide), fun intact desc accepts full => ?_⟩
  exact becomes_of_hold runs ((ruBody_sound intact desc (sound accepts)).trans (if_pos (queueFull_iff.mpr full)))

end

section
variable {c : Cond} {f : FReg} {h h1 : BitVec 4} {d : SReg} {a : SSrc} {m1 : BitVec 12} {sp : Option (BitVec 19)} {clr : Bool}
  {sel : BitVec 3} {s : State} {y : RDesc} {e : VWord} {r : List VWord}

theorem probeCheck_illegal (bad : rdL y < h1.toNat + 1 ∨ (sp = none ∧ 512 < m1.toNat + 1)) :
    probeCheck h1 m1 sp s y = some tILLEGAL := by
  unfold probeCheck
  by_cases tables : rdL y < h1.toNat + 1
  · exact if_pos tables
  · obtain ⟨rfl, many⟩ := bad.resolve_left tables
    exact (if_neg tables).trans (if_pos many)

/-- RHASH of the ids of a FIFO's first entry (R255). -/
theorem rhashFifo_enters (ready : myDesc s h = some y ∧ (me s).poolFail = false ∧ (myCore s).rq.length < 8)
    (head : rdF (myRegs s) f = e :: r) :
    Gives (.rhashFifo c h f) s (pushCmd (modRegs s fun g => fifoPop g f) h.toNat
      (.hashList ((((List.range 64).map (lane e)).filter fun v => v.toNat != noId).foldr insertRow []))) :=
  retrieval_enters rfl ready rfl (by simp only [head])

theorem rhashFifo_waits (intact : (me s).poolFail = false) (desc : myDesc s h = some y) (empty : rdF (myRegs s) f = []) :
    Becomes (.rhashFifo c h f) s (wait s) := by
  refine becomes_of_hold rfl ((ruBody_sound intact desc rfl).trans ?_)
  simp only [empty, ite_self]

end

/-! The rows of a FIFO entry (R255) -/

theorem insertRow_eq (r : BitVec 32) (l : List (BitVec 32)) :
    insertRow r l = l.orderedInsert (fun x y => x.toNat ≤ y.toNat) r := by
  induction l with
  | nil => rfl
  | cons x l ih => rw [insertRow, List.orderedInsert_cons, ih]

theorem pairwise_insertRow (r : BitVec 32) {l : List (BitVec 32)} (sorted : l.Pairwise fun x y => x.toNat ≤ y.toNat) :
    (insertRow r l).Pairwise fun x y => x.toNat ≤ y.toNat := by
  have total : Std.Total fun x y : BitVec 32 => x.toNat ≤ y.toNat := ⟨fun x y => Nat.le_total x.toNat y.toNat⟩
  have trans : IsTrans (BitVec 32) fun x y => x.toNat ≤ y.toNat := ⟨fun _ _ _ => Nat.le_trans⟩
  rw [insertRow_eq]
  exact sorted.orderedInsert r l

theorem count_insertRow (r : BitVec 32) (l : List (BitVec 32)) (x : BitVec 32) :
    (insertRow r l).count x = (r :: l).count x := by
  rw [insertRow_eq, (l.perm_orderedInsert _ r).count_eq]

/-! Pieces of RTSET.INIT (R247) -/

/-- A state with the mark that an item has met a clock that stands still put back. -/
def markedAs (s w : State) : State := { w with waited := s.waited }

/-- The number from which an RTSET.INIT counts its packets. -/
def initFrom (s : State) : Nat := ((me s).await.map (·.id)).getD s.serial

/-- Whether packets of it are on their way after a piece. -/
def initAway (s w : State) : Bool :=
  packetsIn (markedAs s w) (myId s) (myN w) (me w).uid (initFrom s) w.serial none

section
variable {s w : State} {h i : Nat} {d : RDesc}
  (found : mget (getCluster s (clusterOf (myId s))).descs h none = some d)
  (written : initWrites (clusterOf (myId s)) d (((initItems d).drop i).take 4096) { s with waited := false } = (w, none))
include found written

theorem initGo_stopped (stopped : w.waited = true) : initGo h i s = .hold := by
  simp only [initGo, found, initPiece, written, stopped, if_true]

theorem initGo_written (cleared : w.waited = false) : initGo h i s =
    if ((initItems d).drop i).length ≤ 4096 && !initAway s w then
      .go (modMe (markedAs s w) fun x => { x with init := none, await := none })
    else if ((initItems d).drop i).isEmpty then .hold
    else .stay (modMe (markedAs s w) fun x =>
      { x with init := some (h, i + 4096), await := some { id := initFrom s, done := false } }) := by
  simp only [initGo, found, initPiece, written, cleared, Bool.false_eq_true, if_false]
  rfl

end

/-- The steps of an RTSET.INIT whose next piece is written: it waits for a clock, ends, goes on, or waits for acknowledgements. -/
theorem init_steps {i : Instr} {s t w : State} {body : State → Act} {h n : Nat} {d : RDesc}
    (runs : exec i s = .next (issue i s body)) (goes : body s = initGo h n t)
    (found : mget (getCluster t (clusterOf (myId t))).descs h none = some d)
    (written : initWrites (clusterOf (myId t)) d (((initItems d).drop n).take 4096) { t with waited := false } = (w, none)) :
    (w.waited = true → Becomes i s (wait s)) ∧
    (w.waited = false →
      (((initItems d).drop n).length ≤ 4096 → ¬initAway t w = true →
        Gives i s (modMe (markedAs t w) fun x => { x with init := none, await := none })) ∧
      ((initItems d).drop n ≠ [] → (4096 < ((initItems d).drop n).length ∨ initAway t w = true) →
        Becomes i s (modMe (markedAs t w) fun x =>
          { x with init := some (h, n + 4096), await := some { id := initFrom t, done := false } })) ∧
      ((initItems d).drop n = [] → initAway t w = true → Becomes i s (wait s))) := by
  refine ⟨fun stopped => becomes_of_hold runs (goes.trans (initGo_stopped found written stopped)), fun cleared => ?_⟩
  have step := goes.trans (initGo_written found written cleared)
  refine ⟨fun last landed => gives_of_go runs (step.trans (if_pos ?_)) rfl,
    fun more waits => becomes_of_stay runs (step.trans ((if_neg ?_).trans (if_neg ?_))) rfl,
    fun empty away => becomes_of_hold runs (step.trans ((if_neg ?_).trans (if_pos ?_)))⟩
  · rw [decide_eq_true last, Bool.eq_false_iff.mpr landed]; rfl
  · rcases waits with many | away
    · rw [decide_eq_false (not_le.mpr many), Bool.false_and]; decide
    · rw [away, Bool.not_true, Bool.and_false]; decide
  · rwa [List.isEmpty_iff]
  · rw [away, Bool.not_true, Bool.and_false]; decide
  · rwa [List.isEmpty_iff]

/-! RTSET (R247) -/

/-- The descriptor that a block of value v gives to the context that loads it. -/
def blockDesc (u : State) (v : Nat) : RDesc :=
  { block := BitVec.ofNat 1024 v, core := myId u, priv := (me u).priv, wd5 := (myRegs u).wd5, wd6 := (myRegs u).wd6,
    wd7 := (myRegs u).wd7, drops := 0, evicts := 0, chains := 0, pfail := 0, rejects := 0 }

section
variable {s u : State} {h : BitVec 4} {a : SSrc} {init : Bool}

theorem rtsetBody_goes_on {m i : Nat} (begun : (me s).init = some (m, i)) : rtsetBody h a init s = initGo m i s := by
  simp only [rtsetBody, begun]

theorem rtsetBody_noted (idle : (me s).init = none) (noted : (me s).poolFail = true) :
    rtsetBody h a init s = .trap (modMe s fun x => { x with poolFail := false }) (mkTrap 0x0E 0) := by
  simp only [rtsetBody, idle, poolTrap_noted noted]

section
variable (intact : (me s).poolFail = false) (idle : (me s).init = none)
include intact idle

theorem rtsetBody_busy (ahead : runsAhead s = false) (busy : descBusy s (clusterOf (myId s)) h.toNat = true) :
    rtsetBody h a init s = .hold := by
  simp only [rtsetBody, idle, poolTrap_intact intact, ahead, busy, Bool.not_false, Bool.and_self, if_true]

variable (free : descBusy s (clusterOf (myId s)) h.toNat = false)
include free

theorem rtsetBody_misaligned (odd : (sv s a).toNat % 8 ≠ 0) :
    rtsetBody h a init s = .trap s (tMISALIGNED (sv s a).toNat) := by
  simp only [rtsetBody, idle, poolTrap_intact intact, free, Bool.and_false, Bool.false_eq_true, if_false]
  exact if_pos odd

variable (aligned : (sv s a).toNat % 8 = 0) (window : (apOf (sv s a).toNat).win = 0)
include aligned window

/-- A block that lies where a block may lie: what the read of it answers decides. -/
theorem rtsetBody_reads {r : Except EFail (List Place)}
    (read : engineRead s (myId s) (me s).priv.toNat (sv s a).toNat 128 = (u, r)) :
    rtsetBody h a init s = match r with
      | .error e => .go (ctxRecord u (myId u) (myN u) 3 e.1 0 0 e.2 0)
      | .ok ps => if placesStopped u (myId u) ps then .hold
        else loadDesc u h.toNat init (sv s a).toNat (readPlaces u ps) := by
  simp only [rtsetBody, idle, poolTrap_intact intact, free, Bool.and_false, Bool.false_eq_true, if_false, aligned, window, ne_eq,
    not_true_eq_false, read]
  cases r <;> rfl

end

end

section
variable {u : State} {h addr v : Nat} {init : Bool}

theorem loadDesc_illegal (bad : blockOk (blockDesc u v) = false) :
    loadDesc u h init addr v = .trap u (mkTrap 0x0D addr) := if_pos (show (!blockOk (blockDesc u v)) = true by rw [bad]; rfl)

theorem loadDesc_legal (legal : blockOk (blockDesc u v) = true) : loadDesc u h init addr v =
    let t := setDesc u (clusterOf (myId u)) h (some (blockDesc u v))
    if init then initGo h 0 t else .go t :=
  if_neg (show ¬(!blockOk (blockDesc u v)) = true by rw [legal]; decide)

theorem descs_setDesc (u : State) (k h : Nat) (d : Option RDesc) :
    mget (getCluster (setDesc u k h d) k).descs h none = d := by
  rw [setDesc, getCluster_modCluster_same, mget_mset_same]

end

/-! An instruction whose body is that of RTSET -/

section
variable {i : Instr} {s u : State} {h : BitVec 4} {a : SSrc} {init : Bool}
  (runs : exec i s = .next (issue i s (rtsetBody h a init)))
include runs

theorem rtset_noted (idle : (me s).init = none) (noted : (me s).poolFail = true) :
    Becomes i s (raiseTrap (modMe s fun x => { x with poolFail := false }) i (mkTrap 0x0E 0) []) :=
  becomes_of_trap_in runs (rtsetBody_noted idle noted) (by decide)

section
variable (ready : (me s).poolFail = false ∧ (me s).init = none ∧ descBusy s (clusterOf (myId s)) h.toNat = false ∧
  (sv s a).toNat % 8 = 0 ∧ (apOf (sv s a).toNat).win = 0)
include ready

theorem rtset_unreadable {e : EFail}
    (read : engineRead s (myId s) (me s).priv.toNat (sv s a).toNat 128 = (u, .error e)) :
    Gives i s (ctxRecord u (myId u) (myN u) 3 e.1 0 0 e.2 0) := by
  obtain ⟨intact, idle, free, aligned, window⟩ := ready
  exact gives_of_go runs (rtsetBody_reads intact idle free aligned window read) rfl

variable {ps : List Place} (read : engineRead s (myId s) (me s).priv.toNat (sv s a).toNat 128 = (u, .ok ps))
include read

theorem rtset_clock (stopped : placesStopped u (myId u) ps = true) : Becomes i s (wait s) := by
  obtain ⟨intact, idle, free, aligned, window⟩ := ready
  exact becomes_of_hold runs ((rtsetBody_reads intact idle free aligned window read).trans (if_pos stopped))

variable (clock : placesStopped u (myId u) ps = false)
include clock

omit runs in
theorem rtsetBody_loads :
    rtsetBody h a init s = loadDesc u h.toNat init (sv s a).toNat (readPlaces u ps) := by
  obtain ⟨intact, idle, free, aligned, window⟩ := ready
  exact (rtsetBody_reads intact idle free aligned window read).trans (if_neg (Bool.eq_false_iff.mp clock))

theorem rtset_bad_block (bad : blockOk (blockDesc u (readPlaces u ps)) = false) :
    Becomes i s (raiseTrap u i (mkTrap 0x0D (sv s a).toNat) []) :=
  becomes_of_trap_in runs ((rtsetBody_loads ready read clock).trans (loadDesc_illegal bad)) (show 0x0D ≠ 7 by decide)

end

end

/-! RFENCE (R257) -/

section
variable {c : Cond} {scope : Scope} {s : State} {t : Await}

theorem exec_rfence : exec (.rfence c scope) s = .next (issue (.rfence c scope) s fun s =>
    if (me s).await.isSome then request s (fun s _ => s) .go
    else poolTrap s fun s =>
      if queueFull s then .hold else request s (fun s id => pushCmd s 0 (.fence scope id [] 0)) .go) := rfl

theorem rfence_noted (first : (me s).await = none) (noted : (me s).poolFail = true) : Becomes (.rfence c scope) s
    (raiseTrap (modMe s fun x => { x with poolFail := false }) (.rfence c scope) (mkTrap 0x0E 0) []) :=
  becomes_of_trap_in exec_rfence ((if_neg (by rw [first]; decide)).trans (poolTrap_noted noted)) (by decide)

theorem rfence_enters (first : (me s).await = none) (intact : (me s).poolFail = false) (room : (myCore s).rq.length < 8) :
    Becomes (.rfence c scope) s (pushCmd
      (modMe { s with serial := s.serial + 1 } fun x => { x with await := some { id := s.serial, done := false } }) 0
      (.fence scope s.serial [] 0)) := by
  refine becomes_of_stay exec_rfence ((if_neg ?_).trans ((poolTrap_intact intact).trans ((if_neg ?_).trans ?_))) rfl
  · rw [first]; decide
  · rwa [queueFull_iff, not_le]
  · simp only [request, first]

theorem rfence_ends (asked : (me s).await = some t) (done : t.done = true) :
    Gives (.rfence c scope) s (modMe s fun x => { x with await := none }) :=
  gives_of_go exec_rfence ((if_pos (by rw [asked]; rfl)).trans (by simp only [request, asked, done, if_true])) rfl

theorem rfence_waits (asked : (me s).await = some t) (pending : t.done = false) : Becomes (.rfence c scope) s (wait s) :=
  becomes_of_hold exec_rfence ((if_pos (by rw [asked]; rfl)).trans
    (by simp only [request, asked, pending, Bool.false_eq_true, if_false]))

end

/-- Settles O35: commands that name a descriptor share `ruBody`, RTSET and RTSET.INIT share `rtsetBody`, and every piece of an
RTSET.INIT, the first one too, is one of `init_steps`. -/
theorem retrievalCommands : Obligations.RetrievalCommands := by
  unfold Obligations.RetrievalCommands
  refine ⟨fun c f h h1 a b d m1 sp clr sel scope s y e r => ⟨fun ready => ?enter, fun i listed => ?refused,
    fun noted i listed idle first => ?noted, fun intact desc => ?bad⟩, fun r l sorted => ⟨pairwise_insertRow r sorted, count_insertRow r l⟩,
    fun c h a scope s u w ps e t => ?rtset⟩
  case enter =>
    exact ⟨retrieval_enters rfl ready rfl rfl, retrieval_enters rfl ready rfl rfl, retrieval_enters rfl ready rfl rfl,
      retrieval_enters rfl ready rfl rfl, retrieval_enters rfl ready rfl rfl, rhashFifo_enters ready,
      fun known => retrieval_enters rfl ready (if_neg (not_lt.mpr known)) rfl, fun sound => retrieval_enters rfl ready sound rfl⟩
  case refused =>
    have plain {i : Instr} {enter : State → Act} (runs : exec i s = .next (issue i s (ruBody h (fun _ _ => none) enter))) :=
      retrieval_refused (y := y) (accepted := sel.toNat ≤ 5 ∧ probeCheck h1 m1 sp s y = none) runs fun _ => rfl
    simp only [List.mem_cons, List.not_mem_nil, or_false] at listed
    rcases listed with rfl | rfl | rfl | rfl | rfl | rfl | rfl | rfl
    iterate 6 exact plain rfl
    · exact retrieval_refused rfl fun ⟨known, _⟩ => if_neg (not_lt.mpr known)
    · exact retrieval_refused rfl fun ⟨_, sound⟩ => sound
  case noted =>
    simp only [List.mem_cons, List.not_mem_nil, or_false] at listed
    rcases listed with rfl | rfl | rfl
    · exact rtset_noted rfl idle noted
    · exact rtset_noted rfl idle noted
    · exact rfence_noted first noted
  case bad =>
    exact ⟨fun unknown => retrieval_illegal rfl intact desc (if_pos unknown),
      fun bad => retrieval_illegal rfl intact desc (probeCheck_illegal bad), rhashFifo_waits intact desc⟩
  case rtset =>
    intro x y v k items lo ended away ready clear kept
    refine ⟨fun ready read clock => ⟨fun legal => ?legal, fun bad => ?badBlock⟩,
      fun ready read stopped => ⟨rtset_clock rfl ready read stopped, rtset_clock rfl ready read stopped⟩,
      fun intact idle free odd => ?misaligned, fun intact idle busy => ?busy,
      fun m i d begun found => ?more,
      fun ready read => ⟨rtset_unreadable rfl ready read, rtset_unreadable rfl ready read⟩,
      rfence_enters, rfence_ends, rfence_waits⟩
    case legal =>
      have loads (init : Bool) := (rtsetBody_loads (init := init) ready read clock).trans (loadDesc_legal legal)
      have steps (written : initWrites k y (items.take 4096) (clear v) = (w, none)) :=
        init_steps (i := .rtsetInit c h a) rfl (loads true) (descs_setDesc u k h.toNat (some y)) written
      refine ⟨gives_of_go rfl (loads false) rfl, fun written stopped => ?_, fun written cleared _ => ?_⟩
      · obtain ⟨stops, -⟩ := steps written
        exact stops stopped
      · obtain ⟨-, piece⟩ := steps written
        obtain ⟨ends, goesOn, -⟩ := piece cleared
        exact ⟨ends, goesOn⟩
    case badBlock => exact ⟨rtset_bad_block rfl ready read clock bad, rtset_bad_block rfl ready read clock bad⟩
    case misaligned =>
      exact becomes_of_trap rfl (rtsetBody_misaligned intact idle free odd) (show 6 ≠ 7 by decide)
    case busy => exact fun h => becomes_of_hold rfl (rtsetBody_busy intact idle (runsAhead_of_issues h) busy) h
    case more =>
      intro lo rest written
      exact init_steps rfl (rtsetBody_goes_on begun) found written

end Sys2Proof.Machine
end

section
/-! SUPPORT. Rate slots, regions and the commands of a region at issue (10 R262 to R270), and the proof of the statement about
them. -/

namespace Sys2Proof.Machine

/-! The traps of the trace unit are no page faults (18 Table 18.4) -/

theorem cause_tPLASTIC (addr : Nat) : (tPLASTIC addr).cause ≠ 7 := show 0x0F ≠ 7 by decide

theorem cause_tRANGE : tRANGE.cause ≠ 7 := by decide

/-! Rate slots (R262) -/

/-- Whether a defined region of the running core names a rate slot. -/
def slotNamed (s : State) (k : BitVec 4) : Bool := (myCore s).regions.any fun x => x.2.any fun y => y.slot == k.toNat

section
variable {c : Cond} {k : BitVec 4} {a : SSrc} {s : State} {lam : Nat}

/-- TRATE reads the low half of its operand. -/
theorem rateOf_low_half (x : Word) : rateOf (bitsOf x.toNat 31 0) = rateOf (x.toNat % 2 ^ 32) :=
  congrArg rateOf (bitsOf_low x.toNat 31)

theorem trate_writes (rate : rateOf ((sv s a).toNat % 2 ^ 32) = some lam) (free : slotNamed s k = false) :
    Gives (.trate c k a) s (tflag (modMyCore s fun x =>
      { x with slots := mset x.slots k.toNat { lam := BitVec.ofNat 32 lam, tab := (powerTable 24 lam).1 } })
      (myId s) (powerTable 24 lam).2) := by
  refine gives_of_go rfl ?_ rfl
  rw [rateOf_low_half, rate]
  exact if_neg (Bool.eq_false_iff.mp free)

theorem trate_refused (bad : rateOf ((sv s a).toNat % 2 ^ 32) = none ∨ slotNamed s k = true) :
    Becomes (.trate c k a) s (raiseTrap s (.trate c k a) (tPLASTIC 0) []) := by
  refine becomes_of_trap rfl ?_ (cause_tPLASTIC _)
  rw [rateOf_low_half]
  rcases rate : rateOf ((sv s a).toNat % 2 ^ 32) with _ | lam
  · rfl
  · exact if_pos (bad.resolve_left (by rw [rate]; exact Option.some_ne_none lam))

end

/-! Regions (R263, R264) -/

section
variable {n : BitVec 4} {a : SSrc} {init : Bool} {s : State} {o : Nat} (free : regionBusy s n.toNat = false)
include free

theorem tregBody_outside (outside : (∀ o, apOf (sv s a).toNat ≠ .loc 0 o) ∨
    apOf (sv s a).toNat = .loc 0 o ∧ coreSp s (myId s) < o + 16) :
    tregBody n a init s = .trap s (tAPERTURE (sv s a).toNat) := by
  simp only [tregBody, free, Bool.and_false, Bool.false_eq_true, if_false]
  rcases outside with away | ⟨place, beyond⟩
  · split
    · next o place => exact absurd place (away o)
    · rfl
  · simp only [place, beyond, if_true]

variable (place : apOf (sv s a).toNat = .loc 0 o) (fits : o + 16 ≤ coreSp s (myId s))
include place fits

theorem tregBody_misaligned (odd : (sv s a).toNat % 8 ≠ 0) :
    tregBody n a init s = .trap s (tMISALIGNED (sv s a).toNat) := by
  simp only [tregBody, free, place, not_lt.mpr fits, odd, Bool.and_false, Bool.false_eq_true, if_false, ne_eq,
    not_false_iff, if_true]

variable (aligned : (sv s a).toNat % 8 = 0)
include aligned

theorem tregBody_refused (bad : regionOk s n.toNat (readPool s (myId s) o 16) = false) :
    tregBody n a init s = .trap s (tPLASTIC (sv s a).toNat) := by
  simp only [tregBody, free, place, not_lt.mpr fits, aligned, bad, Bool.and_false, Bool.false_eq_true, if_false, ne_eq,
    not_true_eq_false, Bool.not_false, if_true]

theorem tregBody_defines (sound : regionOk s n.toNat (readPool s (myId s) o 16) = true) :
    tregBody n a init s =
      let r := blockRegion (readPool s (myId s) o 16)
      if init then .go (defineRegion (clearRegion s (myId s) r) n.toNat (some r))
      else .go (defineRegion s n.toNat (some { r with n := BitVec.ofNat 24 (lastStamp s (myId s) r) })) := by
  simp only [tregBody, free, place, not_lt.mpr fits, aligned, sound, Bool.and_false, Bool.false_eq_true, if_false, ne_eq,
    not_true_eq_false, Bool.not_true]

end

/-- TREG and TREG.INIT wait for what is pending on their region. -/
theorem treg_waits {i : Instr} {n : BitVec 4} {a : SSrc} {init : Bool} {s : State}
    (runs : exec i s = .next (issue i s (tregBody n a init))) (busy : regionBusy s n.toNat = true) :
    Becomes i s (wait s) := fun h =>
  becomes_of_hold runs (if_pos (by rw [runsAhead_of_issues h, busy]; rfl)) h

section
variable {c : Cond} {n : BitVec 4} {s : State} {r : Region}

theorem tregX_waits (busy : regionBusy s n.toNat = true) : Becomes (.tregX c n) s (wait s) := fun h =>
  becomes_of_hold rfl (if_pos (by rw [runsAhead_of_issues h, busy]; rfl)) h

section
variable (free : regionBusy s n.toNat = false)
include free

theorem not_waits_for_region : ¬(!runsAhead s && regionBusy s n.toNat) = true := by
  rw [free, Bool.and_false]; decide

theorem tregX_undefines (defined : regionOf s (myId s) n.toNat = some r) :
    Gives (.tregX c n) s (defineRegion s n.toNat none) :=
  gives_of_go rfl ((if_neg (not_waits_for_region free)).trans (if_neg (by rw [defined]; exact Option.some_ne_none r))) rfl

theorem tregX_undefined (undefined : regionOf s (myId s) n.toNat = none) :
    Becomes (.tregX c n) s (raiseTrap s (.tregX c n) (tPLASTIC 0) []) :=
  becomes_of_trap rfl ((if_neg (not_waits_for_region free)).trans (if_pos undefined)) (cause_tPLASTIC _)

end

end

/-! The list of the trace unit (R268) -/

/-- The state in which a command of the running context has entered the list. -/
def enterTrace (s : State) (op : TOp) : State := modMyCore { s with serial := s.serial + 1 } fun x =>
  { x with tl := x.tl ++ [.cmd s.serial (myN s) (me s).uid op] }

section
variable {s : State} {op : TOp} {k : State → Act}

theorem pushTrace_room (room : cmdsPending (myCore s) < 16) : pushTrace s op k = k (enterTrace s op) :=
  if_neg (not_le.mpr room)

theorem pushTrace_full (full : ¬cmdsPending (myCore s) < 16) : pushTrace s op k = .hold := if_pos (not_lt.mp full)

end

/-! Rows and columns of a region (R266, R267) -/

/-- nr rows and nc columns from the origin of an operand lie in a region; a command on whole rows names no columns. -/
def Spans (r : Region) (x : Word) (nr nc : Nat) : Prop :=
  x.toNat % 2 ^ 16 + nr ≤ r.rows ∧ (nc ≠ 0 → x.toNat / 2 ^ 32 % 2 ^ 9 + nc ≤ r.cols)

theorem origin_eq (x : Word) : origin x = (x.toNat % 2 ^ 16, x.toNat / 2 ^ 32 % 2 ^ 9) :=
  Prod.ext (bitsOf_low x.toNat 15) rfl

section
variable {r : Region} {x : Word} {nr nc : Nat}

theorem spans_of_columns (rows : x.toNat % 2 ^ 16 + nr ≤ r.rows) (cols : x.toNat / 2 ^ 32 % 2 ^ 9 + nc ≤ r.cols) :
    Spans r x nr nc := ⟨rows, fun _ => cols⟩

theorem spans_of_rows (rows : x.toNat % 2 ^ 16 + nr ≤ r.rows) : Spans r x nr 0 := ⟨rows, fun h => absurd rfl h⟩

theorem not_spans_of_rows (rows : r.rows < x.toNat % 2 ^ 16 + nr) : ¬Spans r x nr nc := fun ⟨within, _⟩ =>
  absurd within (not_le.mpr rows)

theorem not_spans_of_columns (beyond : r.rows < x.toNat % 2 ^ 16 + nr ∨
    r.cols < x.toNat / 2 ^ 32 % 2 ^ 9 + (nc + 1)) : ¬Spans r x nr (nc + 1) := fun ⟨rows, cols⟩ =>
  beyond.elim (absurd rows ∘ not_le.mpr) (absurd (cols (Nat.succ_ne_zero nc)) ∘ not_le.mpr)

theorem not_spans_iff : (r.rows < (origin x).1 + nr ∨ (nc ≠ 0 ∧ r.cols < (origin x).2 + nc)) ↔ ¬Spans r x nr nc := by
  rw [origin_eq, Spans, not_and_or, not_le, Classical.not_imp, not_le]

end

section
variable {s : State} {n : BitVec 4} {a : SSrc} {nr nc : Nat} {k : Nat → Nat → Act} {r : Region}

theorem regionCommand_undefined (undefined : regionOf s (myId s) n.toNat = none) :
    regionCommand s n a nr nc k = .trap s (tPLASTIC 0) := by
  simp only [regionCommand, undefined]

variable (defined : regionOf s (myId s) n.toNat = some r)
include defined

theorem regionCommand_outside (outside : ¬Spans r (sv s a) nr nc) : regionCommand s n a nr nc k = .trap s tRANGE := by
  simp only [regionCommand, defined, not_spans_iff, outside, not_false_iff, if_true]

theorem regionCommand_inside (inside : Spans r (sv s a) nr nc) : regionCommand s n a nr nc k =
    k ((sv s a).toNat % 2 ^ 16) ((sv s a).toNat / 2 ^ 32 % 2 ^ 9) := by
  simp only [regionCommand, defined, not_spans_iff, inside, not_true_eq_false, if_false]
  rw [origin_eq]

end

/-! An instruction that puts a command on rows and columns of a region into the list -/

section
variable {i : Instr} {s : State} {n : BitVec 4} {a : SSrc} {nr nc : Nat} {op : State → Nat → Nat → TOp} {r : Region}
  (runs : exec i s = .next (issue i s fun s => regionCommand s n a nr nc fun row col => pushTrace s (op s row col) .go))
include runs

theorem region_undefined (undefined : regionOf s (myId s) n.toNat = none) :
    Becomes i s (raiseTrap s i (tPLASTIC 0) []) :=
  becomes_of_trap runs (regionCommand_undefined undefined) (cause_tPLASTIC _)

variable (defined : regionOf s (myId s) n.toNat = some r)
include defined

theorem region_outside (outside : ¬Spans r (sv s a) nr nc) : Becomes i s (raiseTrap s i tRANGE []) :=
  becomes_of_trap runs (regionCommand_outside defined outside) cause_tRANGE

theorem region_waits (full : ¬cmdsPending (myCore s) < 16) (inside : Spans r (sv s a) nr nc) : Becomes i s (wait s) :=
  becomes_of_hold runs ((regionCommand_inside defined inside).trans (pushTrace_full full))

theorem region_enters (room : cmdsPending (myCore s) < 16) (inside : Spans r (sv s a) nr nc) {p : TOp}
    (value : op s ((sv s a).toNat % 2 ^ 16) ((sv s a).toNat / 2 ^ 32 % 2 ^ 9) = p) : Gives i s (enterTrace s p) :=
  gives_of_go runs ((regionCommand_inside defined inside).trans (pushTrace_room room)) (congrArg (enterTrace s) value)

end

/-! TSTEP (R265), which names no rows -/

section
variable {c : Cond} {n : BitVec 4} {s : State} {r : Region}

theorem tstep_undefined (undefined : regionOf s (myId s) n.toNat = none) :
    Becomes (.tstep c n) s (raiseTrap s (.tstep c n) (tPLASTIC 0) []) :=
  becomes_of_trap rfl (by simp only [undefined]) (cause_tPLASTIC _)

variable (defined : regionOf s (myId s) n.toNat = some r)
include defined

theorem tstep_waits (full : ¬cmdsPending (myCore s) < 16) : Becomes (.tstep c n) s (wait s) :=
  becomes_of_hold rfl (by simp only [defined, pushTrace_full full])

theorem tstep_enters (room : cmdsPending (myCore s) < 16) : Gives (.tstep c n) s (enterTrace s (.step n.toNat)) :=
  gives_of_go rfl (by simp only [defined, pushTrace_room room]) rfl

end

/-! TRD (R269): a command whose context waits for its answer -/

/-- The state in which a read has entered the list, under the number of the request that waits for it. -/
def enterRead (s : State) (n : BitVec 4) (row col nc : Nat) (d : VReg) : State :=
  enterTrace (modMe { s with serial := s.serial + 1 } fun x => { x with await := some { id := s.serial, done := false } })
    (.read n.toNat row col nc d s.serial)

theorem me_enterTrace (s : State) (op : TOp) : me (enterTrace s op) = me s :=
  me_modCore (s := { s with serial := s.serial + 1 }) fun _ => rfl

theorem tl_enterTrace (s : State) (op : TOp) :
    (myCore (enterTrace s op)).tl = (myCore s).tl ++ [.cmd s.serial (myN s) (me s).uid op] :=
  congrArg Core.tl (getCore_modCore_same { s with serial := s.serial + 1 } (myId s) _)

section
variable (s : State) (n : BitVec 4) (row col nc : Nat) (d : VReg)

theorem await_enterRead : (me (enterRead s n row col nc d)).await = some { id := s.serial, done := false } := by
  rw [enterRead, me_enterTrace, me_modMe]

theorem tl_enterRead : (myCore (enterRead s n row col nc d)).tl =
    (myCore s).tl ++ [.cmd (s.serial + 1) (myN s) (me s).uid (.read n.toNat row col nc d s.serial)] := by
  rw [enterRead, tl_enterTrace, me_modMe]
  exact congrArg (· ++ _) (congrArg Core.tl (getCore_modCtx { s with serial := s.serial + 1 } (myId s) (myN s) (myId s) _) :)

end

section
variable {c : Cond} {d : VReg} {n : BitVec 4} {a : SSrc} {nc1 : BitVec 6} {s : State} {r : Region}

theorem trd_ends {t : Await} (asked : (me s).await = some t) (done : t.done = true) :
    Gives (.trd c d n a nc1) s (modMe s fun x => { x with await := none }) :=
  gives_of_go rfl ((if_pos (by rw [asked]; rfl)).trans (by simp only [request, asked, done, if_true])) rfl

variable (first : (me s).await = none)
include first

theorem trd_not_asked : ¬(me s).await.isSome = true := by rw [first]; decide

theorem trd_undefined (undefined : regionOf s (myId s) n.toNat = none) :
    Becomes (.trd c d n a nc1) s (raiseTrap s (.trd c d n a nc1) (tPLASTIC 0) []) :=
  becomes_of_trap rfl ((if_neg (trd_not_asked first)).trans (regionCommand_undefined undefined)) (cause_tPLASTIC _)

variable (defined : regionOf s (myId s) n.toNat = some r)
include defined

theorem trd_outside (outside : ¬Spans r (sv s a) 1 (nc1.toNat + 1)) :
    Becomes (.trd c d n a nc1) s (raiseTrap s (.trd c d n a nc1) tRANGE []) :=
  becomes_of_trap rfl ((if_neg (trd_not_asked first)).trans (regionCommand_outside defined outside))
    cause_tRANGE

variable (inside : Spans r (sv s a) 1 (nc1.toNat + 1))
include inside

theorem trd_waits (full : ¬cmdsPending (myCore s) < 16) : Becomes (.trd c d n a nc1) s (wait s) :=
  becomes_of_hold rfl ((if_neg (trd_not_asked first)).trans
    ((regionCommand_inside defined inside).trans (if_pos (not_lt.mp full))))

theorem trd_enters (room : cmdsPending (myCore s) < 16) : Becomes (.trd c d n a nc1) s
    (enterRead s n ((sv s a).toNat % 2 ^ 16) ((sv s a).toNat / 2 ^ 32 % 2 ^ 9) (nc1.toNat + 1) d) := by
  refine becomes_of_stay rfl ((if_neg (trd_not_asked first)).trans ((regionCommand_inside defined inside).trans
    ((if_neg (not_le.mpr room)).trans ?_))) rfl
  simp only [request, first]
  rfl

end

/-- Settles O36: TREG and TREG.INIT share `tregBody`, the commands on rows and columns share `regionCommand`, and a command
enters by `pushTrace`. -/
theorem traceCommands : Obligations.TraceCommands := by
  unfold Obligations.TraceCommands
  intro c k n a q b e d nr1 nc1 nr s r lam o t v row col push room block ok tab
  refine ⟨trate_writes, trate_refused, ?regions, ?defines, tregX_undefines, tregX_undefined, tregX_waits,
    fun defined room => ?enters, trd_ends, fun defined => ?defined, fun undefined first => ?undefined⟩
  case regions =>
    have answers {i : Instr} {init : Bool} (runs : exec i s = .next (issue i s (tregBody n a init))) :=
      And.intro (treg_waits runs) fun free => And.intro
        (fun outside => becomes_of_trap runs (tregBody_outside (o := o) free outside) (show 5 ≠ 7 by decide))
        fun (place : apOf v = .loc 0 o) fits => And.intro
          (fun odd => becomes_of_trap runs (tregBody_misaligned free place fits odd) (show 6 ≠ 7 by decide))
          fun aligned bad => becomes_of_trap runs (tregBody_refused free place fits aligned bad) (cause_tPLASTIC _)
    exact List.forall_mem_cons.mpr ⟨answers rfl, List.forall_mem_singleton.mpr (answers rfl)⟩
  case defines =>
    rintro ⟨free, place, fits, aligned, sound⟩
    exact ⟨gives_of_go rfl (tregBody_defines free place fits aligned sound) rfl,
      gives_of_go rfl (tregBody_defines free place fits aligned sound) rfl⟩
  case enters =>
    refine ⟨tstep_enters defined room, fun rows cols => ?_, fun rows cols => ?_, fun rows => ⟨?_, ?_⟩,
      fun first rows cols h => ?_⟩
    · exact region_enters rfl defined room (spans_of_columns rows cols) rfl
    · exact region_enters rfl defined room (spans_of_columns rows cols) rfl
    · exact region_enters rfl defined room (spans_of_rows rows) rfl
    · exact region_enters rfl defined room (spans_of_rows rows) rfl
    · exact ⟨_, trd_enters first defined (spans_of_columns rows cols) room h, await_enterRead .., tl_enterRead ..⟩
  case defined =>
    refine ⟨fun beyond => ?_, fun beyond => ⟨?_, fun first => ?_⟩, fun beyond => ⟨?_, ?_⟩, fun full =>
      ⟨tstep_waits defined full, fun rows cols => ?_, fun rows cols => ⟨?_, fun first => ?_⟩, fun rows => ⟨?_, ?_⟩⟩⟩
    · exact region_outside rfl defined (not_spans_of_columns beyond)
    · exact region_outside rfl defined (not_spans_of_columns beyond)
    · exact trd_outside first defined (not_spans_of_columns beyond)
    · exact region_outside rfl defined (not_spans_of_rows beyond)
    · exact region_outside rfl defined (not_spans_of_rows beyond)
    · exact region_waits rfl defined full (spans_of_columns rows cols)
    · exact region_waits rfl defined full (spans_of_columns rows cols)
    · exact trd_waits first defined (spans_of_columns rows cols) full
    · exact region_waits rfl defined full (spans_of_rows rows)
    · exact region_waits rfl defined full (spans_of_rows rows)
  case undefined =>
    simp only [List.forall_mem_cons, List.not_mem_nil, false_implies, implies_true, and_true]
    exact ⟨tstep_undefined undefined, region_undefined rfl undefined, region_undefined rfl undefined,
      trd_undefined first undefined, region_undefined rfl undefined, region_undefined rfl undefined⟩

end Sys2Proof.Machine
end

section
/-! SUPPORT. Rewards at issue and the reads of TRHZ (10 R278 to R280), and the proof of the statement about them. -/

namespace Sys2Proof.Machine

/-! Reward beats (R278) -/

/-- An instruction whose body is that of RWD queues its beat where the REWARD queue has room. -/
theorem rwd_queues {i : Instr} {a b : SSrc} {clear : Bool} {s : State} (runs : exec i s = .next (issue i s (rwdBody a b clear)))
    (room : queued s (layerIn s (myId s)) (partOf s (myId s)) (fun i => b2n (isReward i)) < 64) :
    Gives i s (pushBeat s (.reward ((sv s a).setWidth 16) clear ((sv s b).setWidth 32))) :=
  gives_of_go runs (if_neg (not_le.mpr room)) rfl

/-! What a selector of TRHZ reads (R280) -/

/-- Whether something before a TRHZ that issues now keeps it from reading. -/
def trhzHeld (s : State) (sel k : Nat) : Bool :=
  heldNow s || trhzShut s (myId s) (myN s) (me s).uid sel k s.serial

theorem trhzHeld_iff {s : State} {sel k : Nat} : trhzHeld s sel k = true ↔
    heldNow s = true ∨ trhzShut s (myId s) (myN s) (me s).uid sel k s.serial = true := by
  rw [trhzHeld, Bool.or_eq_true]

/-- The counters of selector 3 depend on no operation of the trace unit. -/
theorem trhzShut_counters (s : State) (c n uid k upto : Nat) : trhzShut s c n uid 3 k upto = false := by
  rw [trhzShut, List.any_eq_false]
  rintro (⟨id, m, v, op⟩ | _) -
  · cases op <;> simp
  · simp

theorem trhzHeld_counters (s : State) (k : Nat) : trhzHeld s 3 k = heldNow s := by
  rw [trhzHeld, trhzShut_counters, Bool.or_false]

theorem trhzRead_keeps {s : State} {c sel k : Nat} {v : Word}
    (value : trhzValue (settleUnit s c sel) c sel k = some v) : trhzRead s c sel k false = (settleUnit s c sel, v) := by
  simp only [trhzRead, value, Option.getD_some, Bool.not_false, if_true]

/-! TRHZ -/

section
variable {c : Cond} {clr : Bool} {d : SReg} {sel : BitVec 3} {k : BitVec 4} {s : State}

/-- Selector 2 answers with the number of a reward beat, once it is sent. -/
theorem trhz_open_reward {item : Nat} (waits : openReward s = some item) :
    Gives (.trhz c false d 2 k) s (produce s (.s d) (.rwdSeq item)) :=
  gives_of_go rfl ((if_neg (by simp)).trans ((if_pos rfl).trans (by simp only [waits]))) rfl

theorem trhz_last_reward (sent : openReward s = none) :
    Gives (.trhz c false d 2 k) s (produceVal s (.s d) (.s ((me s).lastRwd.setWidth 64)) 0) :=
  gives_of_go rfl ((if_neg (by simp)).trans ((if_pos rfl).trans (by simp only [sent]))) rfl

theorem trhz_unlisted (beyond : 6 ≤ sel.toNat) :
    Becomes (.trhz c clr d sel k) s (raiseTrap s (.trhz c clr d sel k) tILLEGAL []) :=
  becomes_illegal rfl (if_pos (.inl beyond))

variable (listed : ¬(6 ≤ sel.toNat ∨ (clr = true ∧ sel ≠ 3 ∧ sel ≠ 4))) (other : sel ≠ 2)
include listed other

theorem trhz_undefined (undefined : trhzValue s (myId s) sel.toNat k.toNat = none) :
    Becomes (.trhz c clr d sel k) s (raiseTrap s (.trhz c clr d sel k) (tPLASTIC 0) []) :=
  becomes_of_trap rfl ((if_neg listed).trans ((if_neg other).trans (if_pos undefined))) (cause_tPLASTIC _)

variable (defined : trhzValue s (myId s) sel.toNat k.toNat ≠ none)
include defined

theorem trhz_turn (held : trhzHeld s sel.toNat k.toNat = true) :
    Gives (.trhz c clr d sel k) s (produce s (.s d) (.trhz sel.toNat k.toNat clr)) :=
  gives_of_go rfl ((if_neg listed).trans ((if_neg other).trans ((if_neg defined).trans (if_pos held)))) rfl

theorem trhz_reads (free : ¬trhzHeld s sel.toNat k.toNat = true) {u : State} {v : Word}
    (reads : trhzRead s (myId s) sel.toNat k.toNat clr = (u, v)) :
    Gives (.trhz c clr d sel k) s (produceVal u (.s d) (.s v) 0) := by
  refine gives_of_go rfl ((if_neg listed).trans ((if_neg other).trans ((if_neg defined).trans (if_neg free)))) ?_
  simp only [reads]

end

/-- Settles O37: RWD and RWD.C share `rwdBody`, and TRHZ reads by `trhzRead` once nothing before it holds it. -/
theorem rewards : Obligations.Rewards := by
  unfold Obligations.Rewards
  intro c a b d sel k s v w item seq ahead u passed
  have plain (few : sel.toNat ≤ 5) : ¬(6 ≤ sel.toNat ∨ (false = true ∧ sel ≠ 3 ∧ sel ≠ 4)) := by
    rintro (beyond | ⟨clears, -⟩)
    · omega
    · cases clears
  have counted : ¬(6 ≤ (3 : BitVec 3).toNat ∨ (true = true ∧ (3 : BitVec 3) ≠ 3 ∧ (3 : BitVec 3) ≠ 4)) := by decide
  refine ⟨fun room => ⟨rwd_queues rfl room, rwd_queues rfl room⟩, fun passed => gives_of_go rfl (if_pos passed) rfl,
    fun ahead => becomes_of_hold rfl (if_neg ahead), fun few other now free value => ?_, fun few other now held => ?_,
    fun other undefined => ?_, trhz_open_reward, trhz_last_reward, fun free => ?_, fun held => ?_⟩
  · exact trhz_reads (plain few) other (by rw [now]; exact Option.some_ne_none w) (mt trhzHeld_iff.mp free)
      (trhzRead_keeps value)
  · exact trhz_turn (plain few) other (by rw [now]; exact Option.some_ne_none w) (trhzHeld_iff.mpr held)
  · split
    · next beyond => exact trhz_unlisted beyond
    · next few => exact trhz_undefined (plain (by omega)) other undefined
  · exact trhz_reads counted (by decide) (Option.some_ne_none _)
      (Bool.eq_false_iff.mp ((trhzHeld_counters s k.toNat).trans free)) rfl
  · exact trhz_turn counted (by decide) (Option.some_ne_none _) ((trhzHeld_counters s k.toNat).trans held)

end Sys2Proof.Machine
end

section
/-! SUPPORT. Stack stores and window descriptors at issue (10 R286 to R290, 04 R106), and the proof of the statement about
them. -/

namespace Sys2Proof.Machine

/-! The STORE queue -/

theorem storeFull_iff {s : State} {n : Nat} : storeFull s n = true ↔
    1024 < queued s (layerIn s (myId s)) (partOf s (myId s)) recordsOf + n := decide_eq_true_iff

theorem storeFull_of_room {s : State} {n : Nat}
    (room : queued s (layerIn s (myId s)) (partOf s (myId s)) recordsOf + n ≤ 1024) : storeFull s n = false :=
  Bool.eq_false_iff.mpr (mt storeFull_iff.mp (not_lt.mpr room))

section
variable {c : Cond} {a b : SSrc} {s : State} {m : Nat}

theorem sts_queues {sz : Size} {disp : Imm} (starts : apOf (addrOf s a disp) = .mirror m)
    (ends : apOf (addrOf s a disp + sizeN sz - 1) = .mirror (m + sizeN sz - 1)) (aligned : addrOf s a disp % sizeN sz = 0)
    (room : queued s (layerIn s (myId s)) (partOf s (myId s)) recordsOf + 1 ≤ 1024) :
    Gives (.sts c sz a disp b) s (pushBeat s (.store [storeRec m (sizeN sz) (sv s b).toNat])) :=
  gives_of_access rfl fun _ => by
    simp only [starts, ends, aligned, storeFull_of_room room, ne_eq, not_true_eq_false, Bool.false_eq_true, if_false]

theorem stsb_queues {len1 : BitVec 7} {o : Nat} (starts : apOf (sv s a).toNat = .mirror m)
    (ends : apOf ((sv s a).toNat + (len1.toNat + 1) - 1) = .mirror (m + (len1.toNat + 1) - 1))
    (source : apOf (sv s b).toNat = .loc 0 o) (fits : o + (len1.toNat + 1) ≤ coreSp s (myId s))
    (short : (sv s a).toNat % 8 + (len1.toNat + 1) ≤ 128)
    (room : queued s (layerIn s (myId s)) (partOf s (myId s)) recordsOf +
      recordsOf (.block (myId s) o m (len1.toNat + 1)) ≤ 1024) :
    Gives (.stsb c a b len1) s (pushBeat s (.block (myId s) o m (len1.toNat + 1))) :=
  gives_of_access rfl fun _ => by
    simp only [starts, ends, source, not_lt.mpr fits, not_lt.mpr short, storeFull_of_room room, Bool.false_eq_true, if_false]

end

/-- Settles O38: a store enters where its bytes lie in the mirror and its records find room, and the waits and the check of
WDSET are those of the bodies. -/
theorem stackStores : Obligations.StackStores := by
  unfold Obligations.StackStores
  intro c sz a b disp len1 w s m o addr n len dst src q v own
  refine ⟨sts_queues, stsb_queues, fun past => gives_of_go rfl (if_pos past) rfl,
    fun early => becomes_of_hold rfl (if_neg (not_le.mpr early)),
    fun applied => gives_of_go rfl (if_neg (Bool.eq_false_iff.mp applied)) rfl,
    fun opened => becomes_of_hold rfl (if_pos opened), fun legal => gives_of_go rfl (if_pos legal) rfl,
    fun illegal => becomes_of_trap rfl (if_neg (Bool.eq_false_iff.mp illegal)) (show 0x0A ≠ 7 by decide)⟩

end Sys2Proof.Machine
end

section
/-! SUPPORT. The collectives of a gateway core at issue (10 R295 to R300), and the proof of the statement about them. -/

namespace Sys2Proof.Machine

/-! Block queues (R297, R300) -/

theorem bqConfigured_iff {q : BlockQueue} : bqConfigured q = true ↔ q.nb ≠ 0 := bne_iff_ne

theorem bqConfigured_eq_false_iff {q : BlockQueue} : bqConfigured q = false ↔ q.nb = 0 := bne_eq_false_iff_eq

section
variable {c : Cond} {d : SReg} {n : BitVec 4} {s : State}

theorem bqpop_unconfigured (unset : (getBq s n.toNat).nb = 0) :
    Becomes (.bqpop c d n) s (raiseTrap s (.bqpop c d n) tILLEGAL []) :=
  becomes_illegal rfl (if_pos (by rw [bqConfigured_eq_false_iff.mpr unset]; rfl))

theorem bqdone_unconfigured (unset : (getBq s n.toNat).nb = 0) :
    Becomes (.bqdone c n) s (raiseTrap s (.bqdone c n) tILLEGAL []) :=
  becomes_illegal rfl (if_pos (by rw [bqConfigured_eq_false_iff.mpr unset]; rfl))

variable (configured : (getBq s n.toNat).nb ≠ 0)
include configured

theorem not_unconfigured : ¬(!bqConfigured (getBq s n.toNat)) = true := by
  rw [bqConfigured_iff.mpr configured]; decide

theorem bqpop_takes {i : BitVec 32} {r : List (BitVec 32)} (ready : (getBq s n.toNat).ready = i :: r) :
    Gives (.bqpop c d n) s (setS (modBq s n.toNat fun q => { q with ready := r }) d (i.setWidth 64)) :=
  gives_of_go rfl ((if_neg (not_unconfigured configured)).trans (by simp only [ready])) rfl

theorem bqpop_closed (empty : (getBq s n.toNat).ready = []) (closed : (getBq s n.toNat).isOpen = false) :
    Gives (.bqpop c d n) s (setS s d (BitVec.allOnes 64)) :=
  gives_of_go rfl ((if_neg (not_unconfigured configured)).trans
    (by simp only [empty, closed, Bool.false_eq_true, if_false])) rfl

theorem bqpop_waits (empty : (getBq s n.toNat).ready = []) (opened : (getBq s n.toNat).isOpen = true) :
    Becomes (.bqpop c d n) s (wait s) :=
  becomes_of_hold rfl ((if_neg (not_unconfigured configured)).trans (by simp only [empty, opened, if_true]))

theorem bqdone_closes (free : heldNow s = false) : Gives (.bqdone c n) s (closeQueue s n.toNat) :=
  gives_of_go rfl (if_neg (not_unconfigured configured)) (if_neg (Bool.eq_false_iff.mp free))

theorem bqdone_turn (held : heldNow s = true) : Gives (.bqdone c n) s (produce s (.s 0) (.bqdone n.toNat)) :=
  gives_of_go rfl (if_neg (not_unconfigured configured)) (if_pos held)

end

/-! BRED (R298) -/

/-- Whether writes of the running context to peers, numbered from lo, are on their way. -/
def writesTravel (s : State) (lo : Nat) : Bool := packetsIn s (myId s) (myN s) (me s).uid lo s.serial none

/-- The state in which a BRED has written the combination of its two slots. -/
def bredResult (s w : State) (d : SReg) (r : List Byte × FFlags) : State :=
  raise (writeSlot w (issuer s).core (issuer s).priv (rdS (myRegs s) d).toNat r.1) r.2

section
variable {s : State} {lo : Nat}

theorem bredWritten_landed (landed : writesTravel s lo = false) : bredWritten lo s = .go s :=
  if_neg (Bool.eq_false_iff.mp landed)

theorem bredWritten_away (away : writesTravel s lo = true) :
    bredWritten lo s = .stay (modMe s fun x => { x with await := some { id := lo, done := false } }) := if_pos away

theorem bredWaits_landed (landed : writesTravel s lo = false) :
    bredWaits lo s = .go (modMe s fun x => { x with await := none }) := if_neg (Bool.eq_false_iff.mp landed)

theorem bredWaits_away (away : writesTravel s lo = true) : bredWaits lo s = .hold := if_pos away

end

section
variable {c : Cond} {op : BredOp} {t : ElemT} {d : SReg} {a b : SSrc} {s : State}

section
variable {y : Await} (asked : (me s).await = some y)
include asked

theorem bred_ends (landed : writesTravel s y.id = false) :
    Gives (.bred c op t d a b) s (modMe s fun x => { x with await := none }) :=
  gives_of_access rfl fun _ => by
    simp only [asked, bredWaits_landed landed]

theorem bred_waits (away : writesTravel s y.id = true) : Becomes (.bred c op t d a b) s (wait s) :=
  becomes_of_access_hold rfl fun _ => by
    simp only [asked, bredWaits_away away]

end

section
variable (first : (me s).await = none)
include first

theorem bred_illegal (integer : etFmt t = none) : Becomes (.bred c op t d a b) s
    (raiseTrap s (.bred c op t d a b) tILLEGAL (slotSpan s (rdS (myRegs s) d).toNat)) := fun h => by
  rw [exec_of_access rfl h]
  simp only [first, integer]
  rw [endOf_trap_plain _ _ _ _ _ (by decide)]

variable {f : Fmt} {u v w : State} {xs ys : List Byte} (float : etFmt t = some f)
  (checked : slotCheck s (issuer s) [(sv s a).toNat, (sv s b).toNat] [(rdS (myRegs s) d).toNat] = (u, none))
  (left : readSlot u (issuer s).core (issuer s).priv (sv s a).toNat = (v, some xs))
  (right : readSlot v (issuer s).core (issuer s).priv (sv s b).toNat = (w, some ys))
include float checked left right

theorem exec_bred_combines (h : issues (.bred c op t d a b) s = true) : exec (.bred c op t d a b) s =
    .next (endOf (.bred c op t d a b) s (slotSpan s (rdS (myRegs s) d).toNat)
      (bredWritten w.serial (bredResult s w d (combineSlots op f xs ys)))) := by
  rw [exec_of_access rfl h]
  simp only [first, float, checked, left, right, bredResult]

theorem bred_completes (landed : writesTravel (bredResult s w d (combineSlots op f xs ys)) w.serial = false) :
    Gives (.bred c op t d a b) s (bredResult s w d (combineSlots op f xs ys)) := fun h => by
  rw [exec_bred_combines first float checked left right h, bredWritten_landed landed, endOf_go]

theorem bred_stays (away : writesTravel (bredResult s w d (combineSlots op f xs ys)) w.serial = true) :
    Becomes (.bred c op t d a b) s (modMe (bredResult s w d (combineSlots op f xs ys)) fun x =>
      { x with await := some { id := w.serial, done := false } }) := fun h => by
  rw [exec_bred_combines first float checked left right h, bredWritten_away away, endOf_stay]

end

end

/-! BSEND (R299) -/

/-- The flag of a block that is sent: that of its slot, and whether an element of it is no finite number. -/
def sentFlag (f : Fmt) (xs : List Byte) : Nat :=
  slotFlag xs ||| (if (slotElems f xs).any fun z => (f.decode z).nonfinite then 1 else 0)

theorem sendSlot_read {s v : State} {f : Fmt} {priv a : Nat} {xs : List Byte}
    (read : readSlot s (myId s) priv a = (v, some xs)) (dest index : Nat) : sendSlot s f priv a dest index =
      sendBlock v (dest % 2 ^ 16) (dest / 2 ^ 16 % 16) index (sentFlag f xs) (xs.take 256) := by
  simp only [sendSlot, read, bitsOf_low]
  rfl

section
variable {c : Cond} {t : ElemT} {a b e : SSrc} {s : State}

theorem bsend_illegal (integer : etFmt t = none) :
    Becomes (.bsend c t a b e) s (raiseTrap s (.bsend c t a b e) tILLEGAL []) :=
  becomes_illegal rfl (by simp only [integer])

variable {f : Fmt} (float : etFmt t = some f)
include float

theorem bsend_unconfigured (mine : (sv s b).toNat % 2 ^ 16 = s.modid.toNat)
    (unset : (getBq s ((sv s b).toNat / 2 ^ 16 % 16)).nb = 0) :
    Becomes (.bsend c t a b e) s (raiseTrap s (.bsend c t a b e) tILLEGAL []) := by
  refine becomes_illegal rfl ?_
  simp only [float, bitsOf_low]
  exact if_pos ⟨mine, bqConfigured_eq_false_iff.mpr unset⟩

variable (there : (sv s b).toNat % 2 ^ 16 = s.modid.toNat → (getBq s ((sv s b).toNat / 2 ^ 16 % 16)).nb ≠ 0) {u : State}
  (checked : slotCheck s (issuer s) [(sv s a).toNat] [] = (u, none))
include there checked

/-- What a BSEND does once its slot is checked: it takes its turn, waits for its peer, or sends. -/
theorem exec_bsend_checked (h : issues (.bsend c t a b e) s = true) : exec (.bsend c t a b e) s =
    .next (endOf (.bsend c t a b e) s [] (
      if heldNow u then .go (produce u (.s 0)
        (.bsend t (sv s a) (sv s b) ((sv s e).toNat % 2 ^ 32) (BitVec.ofNat 2 (issuer s).priv)))
      else if pairFull (getPeer u ((sv s b).toNat % 128)) then .hold
      else .go (sendSlot u f (issuer s).priv (sv s a).toNat (sv s b).toNat ((sv s e).toNat % 2 ^ 32)))) := by
  have known : ¬((sv s b).toNat % 2 ^ 16 = s.modid.toNat ∧ bqConfigured (getBq s ((sv s b).toNat / 2 ^ 16 % 16)) = false) :=
    fun ⟨mine, unset⟩ => there mine (bqConfigured_eq_false_iff.mp unset)
  rw [exec_of_issues rfl h]
  simp only [float, bitsOf_low, checked, word_toNat]
  exact congrArg (fun x => Host.Outcome.next (endOf _ s [] x)) (if_neg known)

theorem bsend_turn (held : heldNow u = true) : Gives (.bsend c t a b e) s (produce u (.s 0)
    (.bsend t (sv s a) (sv s b) ((sv s e).toNat % 2 ^ 32) (BitVec.ofNat 2 (issuer s).priv))) := fun h => by
  rw [exec_bsend_checked float there checked h, if_pos held, endOf_go]

variable (free : heldNow u = false)
include free

theorem bsend_waits (full : pairFull (getPeer u ((sv s b).toNat % 128)) = true) :
    Becomes (.bsend c t a b e) s (wait s) := fun h => by
  rw [exec_bsend_checked float there checked h, if_neg (Bool.eq_false_iff.mp free), if_pos full, endOf_hold]

theorem bsend_sends {v : State} {xs : List Byte} (room : pairFull (getPeer u ((sv s b).toNat % 128)) = false)
    (read : readSlot u (myId u) (issuer s).priv (sv s a).toNat = (v, some xs)) :
    Gives (.bsend c t a b e) s (sendBlock v ((sv s b).toNat % 2 ^ 16) ((sv s b).toNat / 2 ^ 16 % 16)
      ((sv s e).toNat % 2 ^ 32) (sentFlag f xs) (xs.take 256)) := fun h => by
  rw [exec_bsend_checked float there checked h, if_neg (Bool.eq_false_iff.mp free), if_neg (Bool.eq_false_iff.mp room),
    endOf_go, sendSlot_read read]

end

/-- Settles O39: BQPOP and BQDONE by their queue, BRED once both slots are read, BSEND once its slot is checked. -/
theorem collectives : Obligations.Collectives := by
  unfold Obligations.Collectives
  intro c d n op t f a b e s u v w i r xs ys y travels q da xa ya x mine far out flag
  exact ⟨fun configured => bqpop_takes configured, bqpop_closed, bqpop_waits, bqdone_closes, bqdone_turn,
    fun unset => ⟨bqpop_unconfigured unset, bqdone_unconfigured unset⟩,
    fun integer => ⟨fun first => bred_illegal first integer, bsend_illegal integer⟩, bsend_unconfigured,
    fun first float checked left right =>
      ⟨bred_completes first float checked left right, bred_stays first float checked left right⟩,
    fun asked => ⟨bred_ends asked, bred_waits asked⟩,
    fun float there checked => ⟨fun free => bsend_sends float there checked free,
      bsend_waits float there checked, bsend_turn float there checked⟩⟩

end Sys2Proof.Machine
end

section
/-! SUPPORT. How a trap is taken (16 R341, R342), at once or after run-ahead (18 R386 to R391), and the proofs of the two
statements about it. -/

namespace Sys2Proof.Machine

/-! Updates of contexts and cores -/

theorem modCtx_modCtx (s : State) (c n : Nat) (f g : Ctx → Ctx) :
    modCtx (modCtx s c n f) c n g = modCtx s c n fun x => g (f x) := by
  simp only [modCtx, modCore, setCore, getCore, ctxOf, mget_mset_same, mset_mset]

theorem sameElsewhere_modMe (s : State) (f : Ctx → Ctx) : SameElsewhere s (modMe s f) :=
  ⟨fun c n away => getCtx_modCtx_other s s.cur.1 s.cur.2 c n f away, fun c => getCore_modCtx s _ _ c f⟩

theorem sameMemory_modMe (s : State) (f : Ctx → Ctx) : SameMemory s (modMe s f) := sameMemory_modCtx s _ _ f

/-- The context that runs, and the contexts of every core. -/
def tasksOf (s : State) : (Nat × Nat) × (Nat → Map Ctx) := (s.cur, fun c => (getCore s c).ctxs)

theorem me_of_tasksOf {s t : State} (h : tasksOf t = tasksOf s) : me t = me s :=
  congrArg (fun u : (Nat × Nat) × (Nat → Map Ctx) => mget (u.2 u.1.1) u.1.2 Ctx.reset) h

theorem getCtx_of_tasksOf {s t : State} (h : tasksOf t = tasksOf s) (c n : Nat) : getCtx t c n = getCtx s c n :=
  congrArg (fun u : (Nat × Nat) × (Nat → Map Ctx) => mget (u.2 c) n Ctx.reset) h

theorem tasksOf_of_curCores {s t : State} (h : curCores t = curCores s) : tasksOf t = tasksOf s :=
  congrArg (fun u : (Nat × Nat) × Map Core => (u.1, fun c => (mget u.2 c Core.reset).ctxs)) h

theorem tasksOf_modCore {s : State} {c : Nat} {f : Core → Core} (keeps : ∀ k, (f k).ctxs = k.ctxs) :
    tasksOf (modCore s c f) = tasksOf s := by
  refine Prod.ext rfl (funext fun d => ?_)
  show (getCore (modCore s c f) d).ctxs = (getCore s d).ctxs
  rw [getCore_modCore]
  split
  · next same => rw [keeps, same]
  · rfl

/-! A record in the log of a core leaves every context (16 R345) -/

theorem tasksOf_countLost (s : State) (c : Nat) : tasksOf (countLost s c) = tasksOf s := tasksOf_modCore fun _ => rfl

theorem tasksOf_endWfi (s : State) (c : Nat) : tasksOf (endWfi s c) = tasksOf s := tasksOf_modCore fun _ => rfl

theorem tasksOf_notifyHost (s : State) (c : Nat) : tasksOf (notifyHost s c) = tasksOf s := by
  refine foldl_keeps tasksOf _ (fun t p => ?_) _ s
  dsimp only
  split <;> rfl

theorem tasksOf_launchEvent (s : State) (e : Event) (part : Nat) (payload : List Word) (sender : Option (Nat × Nat)) :
    tasksOf (launchEvent s e part payload sender) = tasksOf s := rfl

theorem curCores_transRange (s : State) (c priv : Nat) (k : AK) (va n : Nat) :
    curCores (transRange s c priv k va n).1 = curCores s := by
  refine Eq.trans ?_ (curCores_transPieces c priv false k (pieces va n) s)
  unfold transRange
  dsimp only
  split <;> rfl

theorem curCores_homeWrite (s : State) (c n : Nat) (gen : BitVec 16) (pas : List Nat) (bs : List Byte) :
    curCores (homeWrite s c n gen ((pas.map Place.hbm).zip bs)) = curCores s :=
  (curCores_sendPeerStores ..).trans (curCores_writePlaces fun _ h => mem_zip_hbm (List.mem_of_mem_filter h))

theorem tasksOf_writeRecord (s : State) (c : Nat) (stc : Word) (r : LogRec) :
    tasksOf (writeRecord s c stc r) = tasksOf s := by
  unfold writeRecord
  dsimp only
  split
  · exact tasksOf_countLost s c
  · have walked := tasksOf_of_curCores (curCores_transRange s c 1 .write
      ((getCore s c).elBase.toNat + 32 * ((getCore s c).elHead.toNat % (getCore s c).elSize.toNat)) 32)
    split
    · next found =>
      rw [found] at walked
      exact (tasksOf_countLost ..).trans walked
    · next found =>
      rw [found] at walked
      split
      · exact (tasksOf_countLost ..).trans walked
      · rw [tasksOf_notifyHost, tasksOf_endWfi, tasksOf_launchEvent]
        refine (tasksOf_modCore ?_).trans ((tasksOf_of_curCores (curCores_homeWrite ..)).trans walked)
        exact fun _ => rfl

theorem curCores_withBrought (s : State) (r : FarReader) : curCores (withBrought s r) = curCores s := by
  unfold withBrought
  split <;> rfl

theorem curCores_askFar (s : State) (c n part : Nat) (r : FarReader) (lo hi : Nat) :
    curCores (askFar s c n part r lo hi) = curCores s := by
  unfold askFar sendPacket armRoute
  dsimp only
  split <;> rfl

theorem curCores_askNext (s : State) (r : FarReader) (c n : Nat) (l : List (Nat × Nat)) :
    curCores (askNext s r c n l) = curCores s := by
  cases l with
  | nil => rfl
  | cons e l =>
    rw [askNext]
    split
    · rfl
    · exact curCores_askFar ..

theorem tasksOf_kept (s t : State) (touched : List (Nat × Nat)) (brought : List (FarReader × (Nat × Option Byte))) :
    tasksOf { keepFar s t with touched := touched, brought := brought } = tasksOf t := rfl

theorem tasksOf_tryLog (s : State) (c : Nat) (stc : Word) (r : LogRec) :
    tasksOf (tryLog s (.core c stc r)).1 = tasksOf s := by
  have written : tasksOf (writeLog (withBrought { s with touched := [] } (.log c)) (.core c stc r)) = tasksOf s :=
    (tasksOf_writeRecord ..).trans (tasksOf_of_curCores (curCores_withBrought ..))
  unfold tryLog
  dsimp only
  split
  · split
    · rfl
    · exact (tasksOf_kept ..).trans written
  · exact tasksOf_of_curCores (curCores_askNext ..)

theorem tasksOf_logRecord (s : State) (c : Nat) (r : LogRec) : tasksOf (logRecord s c r) = tasksOf s := by
  have tried := tasksOf_tryLog s c s.stc r
  unfold logRecord logEntry
  split
  · rfl
  · split
    · next written => rwa [written] at tried
    · next kept =>
      rw [kept] at tried
      exact tried

theorem me_logRecord (s : State) (c : Nat) (r : LogRec) : me (logRecord s c r) = me s :=
  me_of_tasksOf (tasksOf_logRecord s c r)

/-! A context that freezes (16 R350) -/

theorem tasksOf_endRun (s : State) (c : Nat) : tasksOf (endRun s c) = tasksOf s :=
  tasksOf_of_curCores (Prod.ext (cur_endRun s c) (cores_endRun s c))

/-- A context that has frozen in place. -/
def frozenCtx (s : State) (c n : Nat) (x : Ctx) : Ctx :=
  { x with frozen := true, freezing := false, stopping := false, stamps := traceStamps s c n (getCtx s c n).uid }

theorem tasksOf_freeze (s : State) (c n : Nat) : tasksOf (freeze s c n) = tasksOf (modCtx s c n (frozenCtx s c n)) := by
  unfold freeze
  dsimp only
  split
  · exact tasksOf_endRun ..
  · rfl

theorem getCtx_freeze (s : State) (c n : Nat) : getCtx (freeze s c n) c n = frozenCtx s c n (getCtx s c n) :=
  (getCtx_of_tasksOf (tasksOf_freeze s c n) c n).trans (getCtx_modCtx_same ..)

theorem me_freeze (s : State) : me (freeze s (myId s) (myN s)) = frozenCtx s (myId s) (myN s) (me s) :=
  (me_of_tasksOf (tasksOf_freeze s _ _)).trans (me_modMe s _)

/-! The entry into a handler (16 R341) -/

/-- A context that has entered its handler. -/
def entered (x : Ctx) (epc : Word) (t : Trap) (reason : Nat) : Ctx :=
  { x with batch := if t.cause = 7 then t.pages.take 17 else x.batch,
           cause := causeWord { t with pages := t.pages.take 17 } reason, epc, faddr := t.faddr, ppriv := x.priv, priv := 1,
           intrap := true, stopping := false, await := none, regs := { x.regs with pc := x.tvec } }

theorem takeTrap_enters {s : State} {c n : Nat} (outside : (getCtx s c n).intrap = false) (below : (getCtx s c n).priv ≠ 2)
    (epc : Word) (t : Trap) (reason : Nat) :
    takeTrap s c n epc t reason = modCtx s c n fun x => entered x epc t reason := by
  have enters : ¬((getCtx s c n).intrap || (getCtx s c n).priv == 2) = true := by
    rw [outside, Bool.false_or, beq_iff_eq]
    exact below
  unfold takeTrap
  dsimp only
  rw [if_neg enters]
  by_cases fault : t.cause = 7
  · rw [if_pos fault, modCtx_modCtx]
    simp only [entered, fault, if_true]
  · rw [if_neg fault]
    simp only [entered, fault, if_false]

/-- The batch of a page fault without run-ahead is its first page. -/
theorem take_one_take (ps : List Word) : (ps.take 1).take 17 = ps.take 1 := List.take_take

theorem takeTrap_mine {s : State} (outside : (me s).intrap = false) (below : (me s).priv ≠ 2) (epc : Word) (t : Trap)
    (reason : Nat) : takeTrap s (myId s) (myN s) epc t reason = modMe s fun x => entered x epc t reason :=
  takeTrap_enters outside below epc t reason

theorem causeWord_plain {t : Trap} (plain : t.cause ≠ 7) (reason : Nat) :
    causeWord t reason = word (t.cause + 256 * t.code) := by
  rw [causeWord, if_neg plain, Nat.mul_comm]

theorem causeWord_fault {t : Trap} (fault : t.cause = 7) (reason : Nat) :
    causeWord t reason = word (7 + 256 * t.pages.length + 8192 * reason) := by
  rw [causeWord, if_pos fault, Nat.mul_comm, Nat.mul_comm reason]

theorem enters_of_entered {s u : State} {epc : Word} {t : Trap} {reason : Nat} {cause : Word}
    (entry : u = modMe s fun x => entered x epc t reason)
    (code : causeWord { t with pages := t.pages.take 17 } reason = cause) :
    (me u).cause = cause ∧ (me u).epc = epc ∧ (me u).faddr = t.faddr ∧ (me u).ppriv = (me s).priv ∧ (me u).priv = 1 ∧
      (me u).intrap = true ∧ (me u).regs = { (me s).regs with pc := (me s).tvec } ∧ (me u).tvec = (me s).tvec ∧
      SameMemory s u ∧ SameElsewhere s u := by
  subst entry
  rw [me_modMe]
  exact ⟨code, rfl, rfl, rfl, rfl, rfl, rfl, rfl, sameMemory_modMe .., sameElsewhere_modMe ..⟩

theorem batch_of_entered {s u : State} {epc : Word} {t : Trap} {reason : Nat}
    (entry : u = modMe s fun x => entered x epc t reason) :
    (me u).batch = if t.cause = 7 then t.pages.take 17 else (me s).batch := by
  rw [entry, me_modMe]; rfl

/-- A page fault without run-ahead: above task privilege, in a handler, or while a PREEMPT waits (18 R388, R391). -/
theorem raiseTrap_fault {s : State} {i : Instr} {t : Trap} {l : List (Nat × Nat)} (fault : t.cause = 7)
    (now : ¬((me s).priv = 0 ∧ (me s).intrap = false ∧ (me s).freezing = false)) : raiseTrap s i t l =
      takeTrap s (myId s) (myN s) (if t.next then nextPc (me s).regs.pc i.len else (me s).regs.pc)
        { t with pages := t.pages.take 1 } 6 := by
  unfold raiseTrap
  dsimp only
  rw [if_neg fun h => now h.2, if_pos fault]

/-! A trap in a trap (16 R342) -/

/-- The state in which a trap freezes its context: the first page of a page fault is in the batch registers. -/
def batched (s : State) (t : Trap) : State :=
  if t.cause = 7 then modMe s fun x => { x with batch := t.pages.take 1 } else s

theorem me_batched (s : State) (t : Trap) :
    me (batched s t) = { me s with batch := if t.cause = 7 then t.pages.take 1 else (me s).batch } := by
  unfold batched
  split
  · exact me_modMe ..
  · rfl

theorem cur_batched (s : State) (t : Trap) : (batched s t).cur = s.cur := by
  unfold batched
  split <;> rfl

/-- The record of a trap that freezes its context. -/
def doubleRecord (s : State) (t : Trap) : LogRec :=
  { extra := 0, addr := t.faddr.toNat, done := 0, gen := (me s).gen.toNat, tag := 0, status := 18, kind := 9, ctx := myN s,
    src := myId s }

theorem takeTrap_freezes {s : State} {c n : Nat} (double : (getCtx s c n).intrap = true ∨ (getCtx s c n).priv = 2)
    (epc : Word) (t : Trap) (reason : Nat) :
    takeTrap s c n epc t reason =
      ctxRecord (freeze (if t.cause = 7 then modCtx s c n fun x => { x with batch := t.pages.take 17 } else s) c n)
        c n 9 18 0 0 t.faddr.toNat 0 := by
  unfold takeTrap
  dsimp only
  rw [if_pos (by simpa only [Bool.or_eq_true, beq_iff_eq] using double)]

theorem raiseTrap_freezes {s : State} (double : (me s).intrap = true ∨ (me s).priv = 2) (i : Instr) (t : Trap)
    (l : List (Nat × Nat)) :
    raiseTrap s i t l = logRecord (freeze (batched s t) (myId s) (myN s)) (myId s) (doubleRecord s t) := by
  have gen : (getCtx (freeze (batched s t) (myId s) (myN s)) (myId s) (myN s)).gen = (me s).gen := by
    rw [getCtx_freeze, ← me_of_cur (cur_batched s t), me_batched]
    rfl
  have recorded : raiseTrap s i t l = ctxRecord (freeze (batched s t) (myId s) (myN s)) (myId s) (myN s) 9 18 0 0
      t.faddr.toNat 0 := by
    by_cases fault : t.cause = 7
    · have now : ¬((me s).priv = 0 ∧ (me s).intrap = false ∧ (me s).freezing = false) := by
        rintro ⟨task, outside, -⟩
        rcases double with inside | firmware
        · exact absurd (inside.symm.trans outside) (by decide)
        · exact absurd (firmware.symm.trans task) (by decide)
      rw [raiseTrap_fault fault now, takeTrap_freezes double, batched]
      simp only [fault, if_true, take_one_take]
      rfl
    · rw [raiseTrap_plain s i t l fault, takeTrap_freezes double, batched, if_neg fault, if_neg fault]
  rw [recorded, ctxRecord, gen, doubleRecord]

/-- Settles O54: the context freezes with its batch, the record is the core's, and logging leaves every context. -/
theorem doubleTrap : Obligations.DoubleTrap := by
  intro i s t l double
  have frozen : me (raiseTrap s i t l) = frozenCtx (batched s t) (myId s) (myN s) (me (batched s t)) := by
    rw [raiseTrap_freezes double, me_logRecord]
    have here := me_freeze (batched s t)
    rwa [myId, myN, cur_batched] at here
  rw [frozen, me_batched]
  exact ⟨raiseTrap_freezes double i t l, rfl, rfl, rfl⟩

/-! Run-ahead begins (18 R388) -/

/-- Whether run-ahead has poisoned a register. -/
def poisonedDst (a : RunAhead) : Dst → Bool
  | .s n => a.poisonS.getLsbD n.toNat
  | .v n => a.poisonV.getLsbD n.toNat
  | .q n => a.poisonQ.getLsbD n.toNat
  | .p n => a.poisonP.getLsbD n.toNat
  | .x n => a.poisonX.getLsbD n.toNat

theorem getLsbD_setBit_toNat {w k : Nat} (x : BitVec w) (m n : BitVec k) (b : Bool) (small : 2 ^ k ≤ w) :
    (setBit x m.toNat b).getLsbD n.toNat = if n = m then b else x.getLsbD n.toNat := by
  have bound : n.toNat < w := Nat.lt_of_lt_of_le n.isLt small
  simp only [getLsbD_setBit, bound, and_true, BitVec.toNat_inj]

/-- Only the bit of the register itself changes: another one of its file has another bit, and the other files stay. -/
theorem poisonedDst_setPoison (a : RunAhead) (b : Bool) (d e : Dst) :
    poisonedDst (setPoison b a d) e = if e = d then b else poisonedDst a e := by
  cases d <;> cases e <;> simp [poisonedDst, setPoison, getLsbD_setBit_toNat]

theorem poisonedDst_poisonAll (ds : List Dst) (a : RunAhead) (e : Dst) :
    poisonedDst (poisonAll true ds a) e = true ↔ poisonedDst a e = true ∨ e ∈ ds := by
  induction ds generalizing a with
  | nil => simp [poisonAll]
  | cons d ds ih =>
    rw [poisonAll, List.foldl_cons, ← poisonAll, ih, poisonedDst_setPoison, List.mem_cons]
    by_cases same : e = d
    · simp [same]
    · simp [same]

/-- The checkpoint of a faulting instruction, with nothing poisoned. -/
def unpoisoned (x : Ctx) (t : Trap) (stores : List (Nat × Nat)) : RunAhead :=
  { saved := x.regs, faddr := t.faddr, poisonS := 0, poisonV := 0, poisonP := 0, poisonQ := 0, poisonX := 0,
    own := t.pages, pages := [], stores, count := 0, ending := none }

/-- The checkpoint with which run-ahead begins. -/
def checkpoint (x : Ctx) (i : Instr) (t : Trap) (stores : List (Nat × Nat)) : RunAhead :=
  poisonAll true (useOf i).dsts (unpoisoned x t stores)

theorem poisonedDst_checkpoint (x : Ctx) (i : Instr) (t : Trap) (stores : List (Nat × Nat)) (d : Dst) :
    poisonedDst (checkpoint x i t stores) d = true ↔ d ∈ (useOf i).dsts := by
  have clean : ¬poisonedDst (unpoisoned x t stores) d = true := by cases d <;> simp [poisonedDst, unpoisoned]
  rw [checkpoint, poisonedDst_poisonAll, or_iff_right clean]

/-- Poisoning changes nothing but the poison. -/
theorem poisonAll_frame (ds : List Dst) (b : Bool) (a : RunAhead) : poisonAll b ds a = { a with
    poisonS := (poisonAll b ds a).poisonS, poisonV := (poisonAll b ds a).poisonV, poisonP := (poisonAll b ds a).poisonP,
    poisonQ := (poisonAll b ds a).poisonQ, poisonX := (poisonAll b ds a).poisonX } := by
  induction ds generalizing a with
  | nil => rfl
  | cons d ds ih =>
    rw [poisonAll, List.foldl_cons, ← poisonAll, ih]
    cases d <;> rfl

theorem checkpoint_frame (x : Ctx) (i : Instr) (t : Trap) (stores : List (Nat × Nat)) : let a := checkpoint x i t stores
    a.saved = x.regs ∧ a.faddr = t.faddr ∧ a.own = t.pages ∧ a.pages = [] ∧ a.stores = stores ∧ a.count = 0 ∧
      a.ending = none := by
  rw [checkpoint, poisonAll_frame]
  exact ⟨rfl, rfl, rfl, rfl, rfl, rfl, rfl⟩

theorem raiseTrap_startsAhead {s : State} {i : Instr} {t : Trap} {l : List (Nat × Nat)} (fault : t.cause = 7)
    (task : (me s).priv = 0) (outside : (me s).intrap = false) (free : (me s).freezing = false) :
    raiseTrap s i t l = modMe s fun x => { x with ra := some (checkpoint x i t l),
                                                  regs := passCursor i { x.regs with pc := nextPc x.regs.pc i.len } } :=
  if_pos ⟨fault, task, outside, free⟩

/-! Run-ahead ends (18 R389) -/

section
variable {s : State} {a : RunAhead} (core : validCore s.arg.i = true) (ra : (getCtx s s.arg.i s.arg.j).ra = some a)
include core ra

theorem exec_runAheadEnd_running (runs : a.ending = none) : exec .runAheadEnd s = .next s := by
  have isOver : ¬aheadEnded s s.arg.i s.arg.j = true := by simp [aheadEnded, ra, runs]
  exact (if_pos core).trans (congrArg Host.Outcome.next (if_neg isOver))

/-- The trap with which a run-ahead ends. -/
def aheadTrap (a : RunAhead) : Trap := { mkTrap 7 0 with faddr := a.faddr, pages := a.own ++ a.pages }

theorem exec_runAheadEnd_ended {r : Nat} (ends : a.ending = some r) (walked : aheadWalks s s.arg.i s.arg.j = false)
    (clock : clockStopped s s.arg.i = false) (outside : (getCtx s s.arg.i s.arg.j).intrap = false)
    (below : (getCtx s s.arg.i s.arg.j).priv ≠ 2) :
    exec .runAheadEnd s = .next (modCtx s s.arg.i s.arg.j fun x =>
      entered { x with ra := none, regs := a.saved } a.saved.pc (aheadTrap a) r) := by
  have isOver : aheadEnded s s.arg.i s.arg.j = true := by simp [aheadEnded, ra, ends, walked, clock]
  have finished : finishAhead s s.arg.i s.arg.j = modCtx s s.arg.i s.arg.j fun x =>
      entered { x with ra := none, regs := a.saved } a.saved.pc (aheadTrap a) r := by
    unfold finishAhead
    simp only [ra, ends, Option.getD_some]
    rw [takeTrap_enters (by rw [getCtx_modCtx_same]; exact outside) (by rw [getCtx_modCtx_same]; exact below), modCtx_modCtx]
    rfl
  exact (if_pos core).trans (congrArg Host.Outcome.next ((if_pos isOver).trans finished))

end

/-- Settles O53: a trap outside INTRAP and firmware privilege enters the handler by `takeTrap_enters`, at once or at the end of
the run-ahead that `raiseTrap_startsAhead` begins. -/
theorem trapEntry : Obligations.TrapEntry := by
  refine ⟨fun i s t l outside below => ?_, fun s a r core ra => ⟨exec_runAheadEnd_running core ra,
    fun ends walked clock outside below => ⟨_, exec_runAheadEnd_ended core ra ends walked clock outside below,
      sameMemory_modCtx .., ?_⟩⟩⟩
  · refine ⟨fun plain => ?_, fun fault above => ?_, fun fault task free => ?_⟩
    · have entry := (raiseTrap_plain s i t l plain).trans (takeTrap_mine outside below _ t 6)
      have code := causeWord_plain (t := { t with pages := t.pages.take 17 }) plain 6
      exact ⟨enters_of_entered entry code, (batch_of_entered entry).trans (if_neg plain)⟩
    · have now : ¬((me s).priv = 0 ∧ (me s).intrap = false ∧ (me s).freezing = false) := by
        rintro ⟨task, -, free⟩
        rcases above with above | held
        · exact above task
        · exact absurd (held.symm.trans free) (by decide)
      have entry := (raiseTrap_fault fault now (i := i) (l := l)).trans (takeTrap_mine outside below _ _ 6)
      have code := causeWord_fault (t := { t with pages := (t.pages.take 1).take 17 }) fault 6
      have enters := enters_of_entered entry code
      rw [take_one_take] at enters
      exact ⟨enters, (batch_of_entered entry).trans ((if_pos fault).trans (take_one_take _))⟩
    · have ahead := raiseTrap_startsAhead fault task outside free (i := i) (l := l)
      obtain ⟨saved, faddr, own, pages, stores, count, ending⟩ := checkpoint_frame (me s) i t l
      have poisoned := poisonedDst_checkpoint (me s) i t l
      rw [ahead]
      exact ⟨sameMemory_modMe .., sameElsewhere_modMe .., checkpoint (me s) i t l, me_modMe s _, saved, faddr, own, pages,
        stores, count, ending, fun n => poisoned (.s n), fun n => poisoned (.v n), fun n => poisoned (.p n),
        fun n => poisoned (.q n), fun n => poisoned (.x n)⟩
  · rw [getCtx_modCtx_same]
    have code := causeWord_fault (t := { aheadTrap a with pages := (a.own ++ a.pages).take 17 }) rfl r
    exact ⟨rfl, rfl, rfl, rfl, rfl, code, rfl, rfl, rfl⟩

end Sys2Proof.Machine
end

section
/-! SUPPORT. The control registers (16 R343, R344, Table 16.2), and the proof of the statement about them. -/

namespace Sys2Proof.Machine

/-! Bits of a word -/

theorem getLsbD_word (n i : Nat) : (word n).getLsbD i = (decide (i < 64) && n.testBit i) := BitVec.getLsbD_ofNat ..

/-- A field of a word in its place is the word under the mask of the field. -/
theorem word_field_eq_and (v : Word) (j k : Nat) :
    word (v.toNat / 2 ^ j % 2 ^ k * 2 ^ j) = v &&& word ((2 ^ k - 1) * 2 ^ j) := by
  refine BitVec.eq_of_getLsbD_eq fun i hi => ?_
  rw [BitVec.getLsbD_and, getLsbD_word, getLsbD_word]
  by_cases low : j ≤ i
  · simp [hi, low, Nat.testBit_mul_two_pow, Nat.testBit_div_two_pow, BitVec.testBit_toNat, Bool.and_comm]
  · simp [low, Nat.testBit_mul_two_pow]

theorem word_low_eq_and (v : Word) (k : Nat) : word (v.toNat % 2 ^ k) = v &&& word (2 ^ k - 1) := by
  simpa using word_field_eq_and v 0 k

theorem setWidth_setWidth_eq_and (v : Word) (k : Nat) : (v.setWidth k).setWidth 64 = v &&& word (2 ^ k - 1) := by
  rw [← word_low_eq_and]
  refine BitVec.eq_of_toNat_eq ?_
  simp [word]

theorem align_eq_and (v : Word) (n : Nat) : align v n = v &&& ~~~(word (2 ^ n - 1)) := by
  refine BitVec.eq_of_getLsbD_eq fun i hi => ?_
  rw [align, BitVec.getLsbD_and, BitVec.getLsbD_not, getLsbD_word, getLsbD_word]
  by_cases low : n ≤ i
  · simp [hi, low, Nat.testBit_mul_two_pow, Nat.testBit_div_two_pow, BitVec.testBit_toNat, Nat.not_lt.mpr low]
  · simp [hi, low, Nat.testBit_mul_two_pow, Nat.not_le.mp low]

theorem becomes_privilege {i : Instr} {s : State} {body : State → Act} (runs : exec i s = .next (issue i s body))
    (ends : body s = .trap s tPRIVILEGE) : Becomes i s (raiseTrap s i tPRIVILEGE []) :=
  becomes_of_trap runs ends (by decide)

/-! Who may access a register, and what the body does (R343, R344) -/

theorem csrDenied_task_write {r : Csr} (other : r ≠ .fstat) : csrDenied 0 r true = true := by
  simp [csrDenied, other]

theorem csrDenied_task_read {r : Csr} (fstat : r ≠ .fstat) (pword : r ≠ .pword) (ctxid : r ≠ .ctxid) :
    csrDenied 0 r false = true := by
  have hidden : taskReads r = false := by
    unfold taskReads
    split
    · exact absurd rfl fstat
    · exact absurd rfl pword
    · exact absurd rfl ctxid
    · rfl
  simp [csrDenied, hidden]

theorem csrDenied_system_write {r : Csr} (firmware : r = .satb ∨ r = .syscore) : csrDenied 1 r true = true := by
  rcases firmware with rfl | rfl <;> rfl

theorem csrDenied_fstat (priv : Nat) (w : Bool) : csrDenied priv .fstat w = false := by
  unfold csrDenied
  split
  · cases w <;> rfl
  · simp [firmwareOnly]

/-- An access that the privilege allows, and that waits for no flags. -/
def csrPasses (s : State) (r : Csr) (w : Bool) : Prop :=
  csrDenied (me s).priv.toNat r w = false ∧ (r = .fstat → flagsOpen (myRegs s) = false)

theorem csrPasses_free {s : State} {r : Csr} {w : Bool} (passes : csrPasses s r w) : ¬(r == .fstat && flagsOpen (myRegs s)) = true := by
  rw [Bool.and_eq_true, beq_iff_eq]
  rintro ⟨fstat, flags⟩
  exact absurd (flags.symm.trans (passes.2 fstat)) (by decide)

section
variable {d : SReg} {n : BitVec 12} {new : Option (Word → Word)} {s : State}

theorem csrBody_unlisted (unlisted : csrOf n.toNat = none) : csrBody d n new s = .trap s tILLEGAL := by
  simp only [csrBody, unlisted]

variable {r : Csr} (number : csrOf n.toNat = some r)
include number

theorem csrBody_denied {w : Bool} (denied : csrDenied (me s).priv.toNat r w = true) (writes : new.isSome = w := by rfl) :
    csrBody d n new s = .trap s tPRIVILEGE := by
  simp only [csrBody, number, writes, denied, if_true]

theorem csrBody_waits (fstat : r = .fstat) (flags : flagsOpen (myRegs s) = true) : csrBody d n new s = .hold := by
  subst fstat
  simp [csrBody, number, csrDenied_fstat, flags]

theorem csrBody_reads (passes : csrPasses s r false) : csrBody d n none s = .go (setS s d (csrValue s r)) := by
  simp only [csrBody, number, Option.isSome_none, passes.1, Bool.false_eq_true, if_false, if_neg (csrPasses_free passes)]

theorem csrBody_writes (passes : csrPasses s r true) (f : Word → Word) :
    csrBody d n (some f) s = .go (setS (csrWrite s r (f (csrValue s r))) d (csrValue s r)) := by
  simp only [csrBody, number, Option.isSome_some, passes.1, Bool.false_eq_true, if_false, if_neg (csrPasses_free passes)]

end

/-! What a register reads as after a write (Table 16.2) -/

theorem myCore_modMyCore (s : State) (f : Core → Core) : myCore (modMyCore s f) = f (myCore s) :=
  getCore_modCore_same s (myId s) f

/-- The owner of a core does not change with a partition's registers other than PCFG. -/
theorem partOf_modPart {f : Partition → Partition} (keeps : ∀ x, (f x).pcfg = x.pcfg) (s : State) (p c : Nat) :
    partOf (modPart s p f) c = partOf s c := by
  have pcfg (q : Nat) : (getPart (modPart s p f) q).pcfg = (getPart s q).pcfg := by
    by_cases same : q = p
    · rw [same, getPart_modPart_same, keeps]
    · rw [getPart_modPart_other _ _ _ _ same]
  simp only [partOf, ownsPort, ownsLayer, pcfg]

/-- The registers of the running core's partition. -/
def myPart (s : State) : Partition := getPart s (partOf s (myId s))

theorem myPart_modPart {f : Partition → Partition} (keeps : ∀ x, (f x).pcfg = x.pcfg) (s : State) :
    myPart (modPart s (partOf s (myId s)) f) = f (myPart s) := by
  have same : partOf (modPart s (partOf s (myId s)) f) (myId s) = partOf s (myId s) := partOf_modPart keeps ..
  exact (congrArg (getPart _) same).trans (getPart_modPart_same ..)

section
variable (s : State) (v : Word)

/-! Registers of the context -/

theorem epc_after_write : csrValue (csrWrite s .epc v) .epc = v := by
  simp only [csrValue, csrWrite, me_modMe]

theorem faddr_after_write : csrValue (csrWrite s .faddr v) .faddr = v := by
  simp only [csrValue, csrWrite, me_modMe]

theorem scratch_after_write : csrValue (csrWrite s .scratch v) .scratch = v := by
  simp only [csrValue, csrWrite, me_modMe]

theorem cause_after_write : csrValue (csrWrite s .cause v) .cause = v &&& 0xFFFFFF := by
  simp only [csrValue, csrWrite, me_modMe, causeBits, bitsOf_low]
  exact word_low_eq_and v 24

theorem tvec_after_write : csrValue (csrWrite s .tvec v) .tvec = v &&& ~~~(31 : Word) := by
  simp only [csrValue, csrWrite, me_modMe]
  exact align_eq_and v 5

theorem ovp_after_write : csrValue (csrWrite s .ovp v) .ovp = v &&& ~~~(63 : Word) := by
  simp only [csrValue, csrWrite, me_modMe]
  exact align_eq_and v 6

theorem fstat_after_write : csrValue (csrWrite s .fstat v) .fstat = v &&& 0x3F := by
  simp only [csrValue, csrWrite, myRegs_modRegs]
  exact setWidth_setWidth_eq_and v 6

theorem prio_after_write : csrValue (csrWrite s .prio v) .prio = v &&& 0xFF := by
  simp only [csrValue, csrWrite, me_modMe]
  exact setWidth_setWidth_eq_and v 8

/-! Registers of the core -/

theorem eltail_after_write : csrValue (csrWrite s .eltail v) .eltail = v := by
  simp only [csrValue, csrWrite, myCore_modMyCore]

theorem elnote_after_write : csrValue (csrWrite s .elnote v) .elnote = v &&& 0xFFFF := by
  simp only [csrValue, csrWrite, myCore_modMyCore, bitsOf_low]
  exact word_low_eq_and v 16

theorem elbase_after_write : csrValue (csrWrite s .elbase v) .elbase = v &&& ~~~(4095 : Word) := by
  simp only [csrValue, csrWrite, myCore_modMyCore]
  exact align_eq_and v 12

theorem ellost_after_write : csrValue (csrWrite s .ellost v) .ellost = csrValue s .ellost &&& ~~~v :=
  congrArg Core.elLost (myCore_modMyCore s fun k => { k with elLost := k.elLost &&& ~~~v })

theorem myCore_owntagWrite : myCore (owntagWrite s (myId s) v) =
    { myCore s with ownTag := v.setWidth 16, otStc := s.stc, ownWritten := true } := myCore_modMyCore s _

theorem owntag_after_write : csrValue (csrWrite s .owntag v) .owntag = v &&& 0xFFFF := by
  simp only [csrValue, csrWrite, myCore_owntagWrite]
  exact setWidth_setWidth_eq_and v 16

theorem otstc_after_owntag : csrValue (csrWrite s .owntag v) .otstc = s.stc := by
  simp only [csrValue, csrWrite, myCore_owntagWrite]

/-! Registers of the partition -/

theorem ptbase_after_write : csrValue (csrWrite s .ptbase v) .ptbase = v &&& 0x000FFFFFFFF00000 :=
  (congrArg Partition.ptbase (myPart_modPart (f := fun x => { x with ptbase := word (bitsOf v.toNat 51 20 * 2 ^ 20) })
    (fun _ => rfl) s)).trans (word_field_eq_and v 20 32)

theorem satb_after_write : csrValue (csrWrite s .satb v) .satb = v &&& 0x1FFFF :=
  (congrArg (fun x : Partition => x.satb.setWidth 64) (myPart_modPart (f := fun x => { x with satb := v.setWidth 17 })
    (fun _ => rfl) s)).trans (setWidth_setWidth_eq_and v 17)

theorem syscore_after_write : csrValue (csrWrite s .syscore v) .syscore = v &&& 0xFFFF :=
  (congrArg (fun x : Partition => x.sysCore.setWidth 64) (myPart_modPart (f := fun x => { x with sysCore := v.setWidth 16 })
    (fun _ => rfl) s)).trans (setWidth_setWidth_eq_and v 16)

end

theorem statusBits (b : Bool) (q p : BitVec 2) :
    word (b2n b * 16 + (if q = 3 then 1 else q).toNat * 4 + p.toNat) =
      word (b2n b * 16) ||| (if word (q.toNat * 4) = 0xC then 4 else word (q.toNat * 4)) ||| p.setWidth 64 := by
  revert b q p
  decide

theorem status_after_write (s : State) (v : Word) : csrValue (csrWrite s .status v) .status =
    (v &&& 0x10) ||| (if v &&& 0xC = 0xC then 4 else v &&& 0xC) ||| (me s).priv.setWidth 64 := by
  have intrap : v &&& 0x10 = word (b2n (v.getLsbD 4) * 16) := by
    refine (word_field_eq_and v 4 1).symm.trans ?_
    rw [← BitVec.testBit_toNat, Nat.testBit_eq_decide_div_mod_eq, Nat.pow_one]
    rcases Nat.mod_two_eq_zero_or_one (v.toNat / 2 ^ 4) with even | odd
    · rw [even]; rfl
    · rw [odd]; rfl
  have ppriv : v &&& 0xC = word ((v.extractLsb' 2 2).toNat * 4) := by
    rw [BitVec.extractLsb'_toNat, Nat.shiftRight_eq_div_pow]
    exact (word_field_eq_and v 2 2).symm
  rw [intrap, ppriv, ← statusBits]
  simp only [csrValue, csrWrite, me_modMe, statusOf]

theorem ringSizeOk_iff {n : Nat} : ringSizeOk n = true ↔ ∃ i, 4 ≤ i ∧ i ≤ 16 ∧ n = 2 ^ i := by
  simp only [ringSizeOk, List.any_eq_true, List.mem_range, beq_iff_eq]
  constructor
  · rintro ⟨i, small, rfl⟩
    exact ⟨i + 4, by omega, by omega, rfl⟩
  · rintro ⟨i, low, high, rfl⟩
    exact ⟨i - 4, by omega, by rw [Nat.sub_add_cancel low]⟩

theorem elsizeOk_iff {v : Word} :
    (v = 0 ∨ ringSizeOk v.toNat = true) ↔ (v = 0 ∨ ∃ i, 4 ≤ i ∧ i ≤ 16 ∧ v = word (2 ^ i)) := by
  refine or_congr Iff.rfl (ringSizeOk_iff.trans (exists_congr fun i => and_congr_right fun _ => and_congr_right fun high => ?_))
  have small : 2 ^ i < 2 ^ 64 := Nat.pow_lt_pow_right (by decide) (by omega)
  rw [← BitVec.toNat_inj, word, BitVec.toNat_ofNat, Nat.mod_eq_of_lt small]

theorem elsize_after_write (s : State) (v : Word) : csrValue (csrWrite s .elsize v) .elsize =
    if v = 0 ∨ ringSizeOk v.toNat = true then v else csrValue s .elsize := by
  simp only [csrWrite]
  split
  · exact congrArg Core.elSize (myCore_modMyCore s _)
  · rfl

theorem lrun_after_write (s : State) (v : Word) : csrValue (csrWrite s .lrun v) .lrun =
    if 1 ≤ v.toNat % 128 ∧ v.toNat % 128 ≤ 64 then BitVec.ofNat 64 (v.toNat % 128) else csrValue s .lrun := by
  simp only [csrWrite, bitsOf_low, Nat.reduceAdd, Nat.reducePow]
  split
  · have written := congrArg Cluster.lrun (getCluster_modCluster_same s (clusterOf (myId s)) fun k =>
      { k with lrun := BitVec.ofNat 7 (v.toNat % 128) })
    refine (congrArg (BitVec.setWidth 64) written).trans (BitVec.eq_of_toNat_eq ?_)
    simp
  · rfl

/-! The four instructions -/

section
variable {c : Cond} {d : SReg} {n : BitVec 12} {a : SSrc} {s : State}

theorem exec_csrr : exec (.csrr c d n) s = .next (issue (.csrr c d n) s (csrBody d n none)) := rfl

theorem exec_csrw : exec (.csrw c d n a) s =
    .next (issue (.csrw c d n a) s fun s => csrBody d n (some fun _ => sv s a) s) := rfl

theorem exec_csrs : exec (.csrs c d n a) s =
    .next (issue (.csrs c d n a) s fun s => csrBody d n (some fun old => old ||| sv s a) s) := rfl

theorem exec_csrc : exec (.csrc c d n a) s =
    .next (issue (.csrc c d n a) s fun s => csrBody d n (some fun old => old &&& ~~~(sv s a)) s) := rfl

theorem csr_unlisted (unlisted : csrOf n.toNat = none) :
    ∀ i ∈ [Instr.csrr c d n, .csrw c d n a, .csrs c d n a, .csrc c d n a], Becomes i s (raiseTrap s i tILLEGAL []) := by
  simp only [List.forall_mem_cons]
  exact ⟨becomes_illegal exec_csrr (csrBody_unlisted unlisted), becomes_illegal exec_csrw (csrBody_unlisted unlisted),
    becomes_illegal exec_csrs (csrBody_unlisted unlisted), becomes_illegal exec_csrc (csrBody_unlisted unlisted), by simp⟩

variable {r : Csr} (number : csrOf n.toNat = some r)
include number

theorem csrr_denied (denied : csrDenied (me s).priv.toNat r false = true) :
    Becomes (.csrr c d n) s (raiseTrap s (.csrr c d n) tPRIVILEGE []) :=
  becomes_privilege exec_csrr (csrBody_denied number denied)

theorem csr_write_denied (denied : csrDenied (me s).priv.toNat r true = true) :
    ∀ i ∈ [Instr.csrw c d n a, .csrs c d n a, .csrc c d n a], Becomes i s (raiseTrap s i tPRIVILEGE []) := by
  simp only [List.forall_mem_cons]
  exact ⟨becomes_privilege exec_csrw (csrBody_denied number denied), becomes_privilege exec_csrs (csrBody_denied number denied),
    becomes_privilege exec_csrc (csrBody_denied number denied), by simp⟩

theorem csr_waits (fstat : r = .fstat) (flags : flagsOpen (myRegs s) = true) :
    ∀ i ∈ [Instr.csrr c d n, .csrw c d n a, .csrs c d n a, .csrc c d n a], Becomes i s (wait s) := by
  have waits {new : Option (Word → Word)} := csrBody_waits (d := d) (new := new) number fstat flags
  simp only [List.forall_mem_cons]
  exact ⟨becomes_of_hold exec_csrr waits, becomes_of_hold exec_csrw waits, becomes_of_hold exec_csrs waits,
    becomes_of_hold exec_csrc waits, by simp⟩

theorem csrr_gives (passes : csrPasses s r false) : Gives (.csrr c d n) s (setS s d (csrValue s r)) :=
  gives_of_go exec_csrr (csrBody_reads number passes) rfl

variable (passes : csrPasses s r true)
include passes

theorem csrw_gives : Gives (.csrw c d n a) s (setS (csrWrite s r (sv s a)) d (csrValue s r)) :=
  gives_of_go exec_csrw (csrBody_writes number passes _) rfl

theorem csrs_gives : Gives (.csrs c d n a) s (setS (csrWrite s r (csrValue s r ||| sv s a)) d (csrValue s r)) :=
  gives_of_go exec_csrs (csrBody_writes number passes _) rfl

theorem csrc_gives : Gives (.csrc c d n a) s (setS (csrWrite s r (csrValue s r &&& ~~~(sv s a))) d (csrValue s r)) :=
  gives_of_go exec_csrc (csrBody_writes number passes _) rfl

end

/-- Settles O40: the body decides by the number, the privilege and the flags on their way; a write goes to its field alone, and
the field reads under its mask. -/
theorem controlRegisters : Obligations.ControlRegisters := by
  refine ⟨fun c d n a s r => ⟨fun ⟨number, passes⟩ => csrr_gives number passes, fun ⟨number, passes⟩ =>
      ⟨csrw_gives number passes, csrs_gives number passes, csrc_gives number passes⟩, csr_unlisted,
      fun number denied => csr_write_denied number ?_, fun number task fstat pword ctxid =>
      csrr_denied number ?_, fun number flags => csr_waits number rfl flags⟩, fun s v => ?_⟩
  · rcases denied with ⟨task, other⟩ | ⟨system, firmware⟩
    · rw [task]; exact csrDenied_task_write other
    · rw [system]; exact csrDenied_system_write firmware
  · rw [task]; exact csrDenied_task_read fstat pword ctxid
  · refine ⟨epc_after_write s v, faddr_after_write s v, scratch_after_write s v, eltail_after_write s v, cause_after_write s v,
      tvec_after_write s v, ovp_after_write s v, fstat_after_write s v, prio_after_write s v, elnote_after_write s v,
      owntag_after_write s v, status_after_write s v, rfl, rfl, rfl, rfl, rfl, elbase_after_write s v, ellost_after_write s v,
      fun legal => (elsize_after_write s v).trans (if_pos (elsizeOk_iff.mpr legal)),
      fun illegal => (elsize_after_write s v).trans (if_neg (mt elsizeOk_iff.mp illegal)), ptbase_after_write s v,
      satb_after_write s v, syscore_after_write s v, otstc_after_owntag s v, lrun_after_write s v⟩

end Sys2Proof.Machine
end

section
/-! SUPPORT. The return from a trap (16 R341), and the proof of the statement about it. -/

namespace Sys2Proof.Machine

theorem modMe_congr {s : State} {f g : Ctx → Ctx} (h : f (me s) = g (me s)) : modMe s f = modMe s g :=
  congrArg (fun x => modCore s (myId s) fun k => { k with ctxs := mset k.ctxs (myN s) x }) h

/-- A context that no PREEMPT waits for goes on at EPC. -/
theorem returnFromTrap_free {s : State} (free : (me s).freezing = false) : returnFromTrap s (myId s) (myN s) =
    modMe s fun x => { x with priv := x.ppriv, intrap := false, stopping := false, regs := { x.regs with pc := x.epc } } :=
  modMe_congr (by rw [free])

/-- Settles O41: ERET checks PPRIV, then its target, and returns by the model's `returnFromTrap`. -/
theorem Settled.returnFromTrap : Obligations.ReturnFromTrap := by
  intro c s
  refine ⟨fun allowed legal free => ?_, fun above => becomes_privilege rfl (if_pos above), fun allowed illegal => ?_⟩
  · have aligned : ¬badTarget (me s).epc = true := by rw [badTarget_eq_false legal]; decide
    exact becomes_of_stay rfl ((if_neg (not_lt.mpr allowed)).trans (if_neg aligned)) (returnFromTrap_free free)
  · exact becomes_of_trap rfl ((if_neg (not_lt.mpr allowed)).trans (if_pos (badTarget_of_not_legal illegal)))
      (show 6 ≠ 7 by decide)

end Sys2Proof.Machine
end

section
/-! SUPPORT. The requests of system software to the hardware: TLBI, WFI, SATW and CHSET (16 R348, R349, R358 to R360), and the
proof of the statement about them. -/

namespace Sys2Proof.Machine

/-! TLBI (R358) -/

section
variable {c : Cond} {a : SSrc} {s : State}

theorem tlbiBody_free {bad : TlbEntry → Bool} (free : unitsHold s (partOf s (myId s)) = false) :
    tlbiBody bad s = .go (dropTlb s bad) := if_neg (Bool.eq_false_iff.mp free)

theorem tlbiBody_held {bad : TlbEntry → Bool} (held : unitsHold s (partOf s (myId s)) = true) :
    tlbiBody bad s = .hold := if_pos held

/-- The entries that TLBI.PAGE names. -/
def pageEntries (s : State) (a : SSrc) (e : TlbEntry) : Bool :=
  e.part == partOf s (myId s) && e.vpn == (sv s a).toNat % 2 ^ 56 / 2 ^ e.size

/-- The entries that TLBI.ALL names. -/
def partEntries (s : State) (e : TlbEntry) : Bool := e.part == partOf s (myId s)

theorem exec_tlbiPage : exec (.tlbiPage c a) s =
    .next (issue (.tlbiPage c a) s fun s => tlbiBody (pageEntries s a) s) := by
  have named (s : State) : (fun e : TlbEntry => e.part == partOf s (myId s) &&
      e.vpn == bitsOf (sv s a).toNat 55 0 / 2 ^ e.size) = pageEntries s a := by rw [bitsOf_low]; rfl
  simp only [← named]
  rfl

theorem exec_tlbiAll : exec (.tlbiAll c) s = .next (issue (.tlbiAll c) s fun s => tlbiBody (partEntries s) s) := rfl

end

/-! WFI (R359) -/

section
variable {c : Cond} {s : State}

theorem wfi_asks (first : (me s).await = none) : Becomes (.wfi c) s
    (modMe { modMyCore s fun k => { k with wfi := setBit k.wfi (myN s) false } with serial := s.serial + 1 } fun x =>
      { x with await := some { id := s.serial, done := false } }) :=
  becomes_of_stay rfl (by simp only [first]; rfl) rfl

variable {w : Await} (asked : (me s).await = some w)
include asked

theorem wfi_ends (woken : (myCore s).wfi.getLsbD (myN s) = true) :
    Gives (.wfi c) s (modMe s fun x => { x with await := none }) :=
  gives_of_go rfl (by simp only [asked, woken, if_true]) rfl

theorem wfi_waits (asleep : (myCore s).wfi.getLsbD (myN s) = false) : Becomes (.wfi c) s (wait s) :=
  becomes_of_hold rfl (by simp only [asked, asleep, Bool.false_eq_true, if_false])

end

/-! SATW (R360) -/

/-- Whether a SATW of the running context may write the slot that its source names. -/
def slotShared (s : State) (a : SSrc) : Prop :=
  (me s).priv = 2 ∨ inShare (getPart s (partOf s (myId s))).satb ((sv s a).toNat % 256) = true

/-- Whether the entry of a SATW is none that it may write: its OWNER, or its PART below firmware privilege. -/
def slotIllegal (s : State) (b : SSrc) : Prop :=
  (17 ≤ (sv s b).toNat % 32 ∧ (sv s b).toNat % 32 ≤ 30) ∨
    (¬(me s).priv = 2 ∧ (sv s b).toNat / 8192 % 8 ≠ partOf s (myId s))

/-- The request of a SATW: its write enters the list, and is due at a frame. -/
def askSlot (a b : SSrc) (s t : State) (id : Nat) : State :=
  later { t with slotWrites := t.slotWrites ++
    [{ slot := (sv s a).toNat % 256
       entry := BitVec.ofNat 16 ((sv s b).toNat / 256 % 256 * 256 + (sv s b).toNat % 32)
       due := word (frameAt (t.stc.toNat + 512)), core := myId t, ctx := myN t, await := id }] }
    (frameAt (t.stc.toNat + 512) - t.stc.toNat) .satwApply StepArg.none

theorem slot_low (x : Word) : bitsOf x.toNat 7 0 = x.toNat % 256 := bitsOf_low ..

section
variable {c : Cond} {a b : SSrc} {s : State}

theorem satw_foreign (below : ¬(me s).priv = 2)
    (foreign : inShare (getPart s (partOf s (myId s))).satb ((sv s a).toNat % 256) = false) :
    Becomes (.satw c a b) s (raiseTrap s (.satw c a b) tPRIVILEGE []) :=
  becomes_privilege rfl (if_pos (by rw [slot_low, beq_eq_false_iff_ne.mpr below, foreign]; rfl))

theorem slotIllegal_iff : slotIllegal s b ↔
    (17 ≤ bitsOf (sv s b).toNat 4 0 ∧ bitsOf (sv s b).toNat 4 0 ≤ 30) ∨
      (((me s).priv == 2) = false ∧ bitsOf (sv s b).toNat 15 13 ≠ partOf s (myId s)) := by
  rw [slotIllegal, bitsOf_low, beq_eq_false_iff_ne]
  rfl

variable (shared : slotShared s a)
include shared

theorem satw_passes_share :
    ¬(!((me s).priv == 2) && !inShare (getPart s (partOf s (myId s))).satb (bitsOf (sv s a).toNat 7 0)) = true := by
  rw [slot_low]
  rcases shared with firmware | mine
  · simp [firmware]
  · simp [mine]

theorem satw_illegal (illegal : slotIllegal s b) :
    Becomes (.satw c a b) s (raiseTrap s (.satw c a b) tILLEGAL []) :=
  becomes_illegal rfl ((if_neg (satw_passes_share shared)).trans (if_pos (slotIllegal_iff.mp illegal)))

section
variable (legal : ¬slotIllegal s b)
include legal

theorem exec_satw_legal (h : issues (.satw c a b) s = true) :
    exec (.satw c a b) s = .next (endOf (.satw c a b) s [] (request s (askSlot a b s) .go)) := by
  rw [exec_of_issues rfl h]
  refine congrArg (fun x => Host.Outcome.next (endOf _ s [] x)) ?_
  refine ((if_neg (satw_passes_share shared)).trans (if_neg (mt slotIllegal_iff.mpr legal))).trans ?_
  simp only [bitsOf_low]
  rfl

theorem satw_asks (first : (me s).await = none) : Becomes (.satw c a b) s
    (askSlot a b s (modMe { s with serial := s.serial + 1 } fun x =>
      { x with await := some { id := s.serial, done := false } }) s.serial) := fun h => by
  rw [exec_satw_legal shared legal h]
  simp only [request, first, endOf_stay]

variable {w : Await} (asked : (me s).await = some w)
include asked

theorem satw_ends (done : w.done = true) : Gives (.satw c a b) s (modMe s fun x => { x with await := none }) := fun h => by
  rw [exec_satw_legal shared legal h]
  simp only [request, asked, done, if_true, endOf_go]

theorem satw_waits (pending : w.done = false) : Becomes (.satw c a b) s (wait s) := fun h => by
  rw [exec_satw_legal shared legal h]
  simp only [request, asked, pending, Bool.false_eq_true, if_false, endOf_hold]

end

end

/-! CHSET (R348, R349) -/

/-- Whether an entry that CHSET writes moves the ring of its channel. -/
def ringMoves (s : State) (t n : Nat) (h : Chan) : Bool :=
  (getChan (getCore s t) n).lbase != h.lbase || (getChan (getCore s t) n).lsize != h.lsize

/-- Whether a ring holds payloads. -/
def ringHolds (s : State) (t n : Nat) : Prop := (getRing (getCore s t) n).live ≠ []

/-- The state in which a CHSET has returned the events that it has to return. -/
def eventsReturned (s : State) (t n : Nat) (h : Chan) : State :=
  if h.valid = false ∨ (getChan (getCore s t) n).gang ≠ h.gang ∨ ringMoves s t n h = true then returnHeld s t n else s

section
variable {s : State} {t n : Nat} {h : Chan}

theorem ringHolds_iff : ringHolds s t n ↔ ¬(getRing (getCore s t) n).live.isEmpty = true := by
  rw [ringHolds, List.isEmpty_iff]

section
variable (asked : mget (getCore s t).chset n none ≠ none)
include asked

theorem chsetBody_again : chsetBody t n h s =
    if (getRing (getCore s t) n).live.isEmpty then .go (writeChan s t n h (ringMoves s t n h)) else .hold :=
  if_pos (Option.isSome_iff_ne_none.mpr asked)

theorem chsetBody_freed (freed : ¬ringHolds s t n) : chsetBody t n h s = .go (writeChan s t n h (ringMoves s t n h)) :=
  (chsetBody_again asked).trans (if_pos (not_not.mp (mt ringHolds_iff.mpr freed)))

theorem chsetBody_waits (held : ringHolds s t n) : chsetBody t n h s = .hold :=
  (chsetBody_again asked).trans (if_neg (ringHolds_iff.mp held))

end

section
variable (first : mget (getCore s t).chset n none = none)
include first

theorem chsetBody_first : chsetBody t n h s =
    if ringMoves s t n h && !(getRing (getCore (eventsReturned s t n h) t) n).live.isEmpty then
      .stay (modCore (eventsReturned s t n h) t fun k => { k with chset := mset k.chset n (some h) })
    else .go (writeChan (eventsReturned s t n h) t n h (ringMoves s t n h)) := by
  have returned : (if !h.valid || (getChan (getCore s t) n).gang != h.gang || ringMoves s t n h then returnHeld s t n
      else s) = eventsReturned s t n h := by
    simp only [eventsReturned, Bool.or_eq_true, Bool.not_eq_true', bne_iff_ne, or_assoc]
  rw [← returned]
  exact if_neg (by rw [first]; decide)

theorem chsetBody_writes (free : ringMoves s t n h = false ∨ ¬ringHolds (eventsReturned s t n h) t n) :
    chsetBody t n h s = .go (writeChan (eventsReturned s t n h) t n h (ringMoves s t n h)) := by
  rw [chsetBody_first first, if_neg]
  rw [Bool.and_eq_true, Bool.not_eq_true', ← Bool.not_eq_true, ← ringHolds_iff]
  rintro ⟨moves, held⟩
  rcases free with stays | freed
  · exact absurd (moves.symm.trans stays) (by decide)
  · exact freed held

theorem chsetBody_asks (moves : ringMoves s t n h = true) (held : ringHolds (eventsReturned s t n h) t n) :
    chsetBody t n h s =
      .stay (modCore (eventsReturned s t n h) t fun k => { k with chset := mset k.chset n (some h) }) := by
  rw [chsetBody_first first, if_pos]
  rw [Bool.and_eq_true, Bool.not_eq_true', ← Bool.not_eq_true, ← ringHolds_iff]
  exact ⟨moves, held⟩

end

end

theorem target_low (x : Word) : bitsOf x.toNat 15 0 = x.toNat % 65536 := bitsOf_low ..

section
variable {c : Cond} {a b e : SSrc} {chan : BitVec 6} {s : State} {t : Nat} (target : (sv s a).toNat % 65536 = t)
include target

theorem chset_aperture (absent : validCore t = false) :
    Becomes (.chset c a chan b e) s (raiseTrap s (.chset c a chan b e) (tAPERTURE t) []) :=
  becomes_of_trap rfl (by simp only [target_low, target, absent, Bool.not_false, if_true]) (show 5 ≠ 7 by decide)

variable (there : validCore t = true)
include there

theorem chset_foreign (foreign : inPart s (partOf s (myId s)) t = false) :
    Becomes (.chset c a chan b e) s (raiseTrap s (.chset c a chan b e) tPRIVILEGE []) :=
  becomes_privilege rfl
    (by simp only [target_low, target, there, foreign, Bool.not_true, Bool.not_false, Bool.false_eq_true, if_false, if_true])

variable (mine : inPart s (partOf s (myId s)) t = true)
include mine

/-- What a CHSET of a core of the own partition does: the checks of its entry, then its body. -/
theorem exec_chset_mine (h : issues (.chset c a chan b e) s = true) : exec (.chset c a chan b e) s =
    .next (endOf (.chset c a chan b e) s [] (
      if (sv s b).toNat / 2 ^ 56 % 128 ≠ 0 then .trap s tRESERVED
      else if chan = 63 ∧ (chanOfWords (sv s b) (sv s e)).lsize ≠ 0 then .trap s tILLEGAL
      else chsetBody t chan.toNat (chanOfWords (sv s b) (sv s e)) s)) := by
  rw [exec_of_issues rfl h]
  simp only [target_low, target, there, mine, Bool.not_true, Bool.false_eq_true, if_false]
  rfl

theorem chset_reserved (reserved : (sv s b).toNat / 2 ^ 56 % 128 ≠ 0) :
    Becomes (.chset c a chan b e) s (raiseTrap s (.chset c a chan b e) tRESERVED []) := fun h => by
  rw [exec_chset_mine target there mine h, if_pos reserved, endOf_trap_plain _ _ _ _ _ (by decide)]

variable (clear : (sv s b).toNat / 2 ^ 56 % 128 = 0)
include clear

theorem chset_illegal (yield : chan = 63) (sized : (chanOfWords (sv s b) (sv s e)).lsize ≠ 0) :
    Becomes (.chset c a chan b e) s (raiseTrap s (.chset c a chan b e) tILLEGAL []) := fun h => by
  rw [exec_chset_mine target there mine h, if_neg (not_not.mpr clear), if_pos ⟨yield, sized⟩,
    endOf_trap_plain _ _ _ _ _ (by decide)]

theorem exec_chset_legal (legal : chan = 63 → (chanOfWords (sv s b) (sv s e)).lsize = 0)
    (h : issues (.chset c a chan b e) s = true) : exec (.chset c a chan b e) s =
      .next (endOf (.chset c a chan b e) s [] (chsetBody t chan.toNat (chanOfWords (sv s b) (sv s e)) s)) := by
  have passes : ¬(chan = 63 ∧ (chanOfWords (sv s b) (sv s e)).lsize ≠ 0) := fun ⟨yield, sized⟩ => sized (legal yield)
  rw [exec_chset_mine target there mine h, if_neg (not_not.mpr clear), if_neg passes]

end

/-- Settles O42: each request by its own body, once the checks that the statement names have passed. -/
theorem systemRequests : Obligations.SystemRequests := by
  intro c a b e chan s w p va kid slot v owner fw t due waits ask
  refine ⟨fun free => ⟨gives_of_go exec_tlbiPage (tlbiBody_free free) rfl, gives_of_go exec_tlbiAll (tlbiBody_free free) rfl⟩,
    fun held => ⟨becomes_of_hold exec_tlbiPage (tlbiBody_held held), becomes_of_hold exec_tlbiAll (tlbiBody_held held)⟩,
    fun hi => by rw [exec_of_issues rfl hi]; rfl, wfi_asks, wfi_ends, wfi_waits, fun shared known mine => ?_, satw_foreign,
    fun shared illegal => satw_illegal shared illegal, ?_⟩
  · have legal : ¬slotIllegal s b := by
      rintro (⟨low, high⟩ | ⟨below, other⟩)
      · rcases known with known | known <;> omega
      · exact mine.elim below other
    exact ⟨satw_asks shared legal, satw_ends shared legal, satw_waits shared legal⟩
  · intro h old moved u held traps
    refine ⟨fun there mine clear legal => ⟨fun first => ⟨fun free hi => ?_, fun moves held hi => ?_⟩,
      fun asked => ⟨fun freed hi => ?_, fun held hi => ?_⟩⟩, chset_aperture rfl, chset_foreign rfl, chset_reserved rfl,
      chset_illegal rfl⟩
    · rw [exec_chset_legal rfl there mine clear legal hi, chsetBody_writes first free]; rfl
    · rw [exec_chset_legal rfl there mine clear legal hi, chsetBody_asks first moves held]; rfl
    · rw [exec_chset_legal rfl there mine clear legal hi, chsetBody_freed asked freed]; rfl
    · rw [exec_chset_legal rfl there mine clear legal hi, chsetBody_waits asked held]; rfl

end Sys2Proof.Machine
end

section
/-! SUPPORT. The requests about gangs and strata: PREEMPT, GANGCTL, SLEEPS and WAKES (16 R350, R355, R361), and the proof of the
statement about them. -/

namespace Sys2Proof.Machine

/-! Gangs (R350, R355) -/

/-- The state in which an instruction gives a status. -/
def statusGiven (s : State) (d : SReg) (n : Nat) : State := produceVal s (.s d) (.s (word n)) 0

theorem status_eq (s : State) (d : SReg) (n : Nat) : status s d n = .go (statusGiven s d n) := rfl

section
variable {c : Cond} {d : SReg} {a : SSrc} {s : State}

/-- A gang id that names no gang. -/
theorem gang_unknown (unknown : gangArg s a = none) :
    Gives (.preempt c d a) s (statusGiven s d 1) ∧ Gives (.gangctlStatus c d a) s (statusGiven s d 1) ∧
      Gives (.gangctlResume c d a) s (statusGiven s d 1) ∧ Gives (.gangctlKill c d a) s (statusGiven s d 1) := by
  refine ⟨gives_of_go rfl ?_ rfl, gives_of_go rfl ?_ rfl, gives_of_go rfl ?_ rfl, gives_of_go rfl ?_ rfl⟩
  all_goals simp only [unknown, status_eq]

variable {g : Gang} (named : gangArg s a = some g)
include named

theorem gangctlKill_kills : Gives (.gangctlKill c d a) s (statusGiven (killGang s (partOf s (myId s)) g) d 0) :=
  gives_of_go rfl (by simp only [named, status_eq]) rfl

/-- A gang that has lost a member. -/
theorem gang_lost (lost : gangLost g = true) :
    Gives (.preempt c d a) s (statusGiven s d 7) ∧ Gives (.gangctlStatus c d a) s (statusGiven s d 7) ∧
      Gives (.gangctlResume c d a) s (statusGiven s d 7) := by
  refine ⟨gives_of_go rfl ?_ rfl, gives_of_go rfl ?_ rfl, gives_of_go rfl ?_ rfl⟩
  all_goals simp only [named, lost, if_true, status_eq]

variable (whole : gangLost g = false)
include whole

theorem gang_frozen (frozen : gangFrozen s g = true) :
    Gives (.preempt c d a) s (statusGiven s d 8) ∧ Gives (.gangctlStatus c d a) s (statusGiven s d 2) := by
  refine ⟨gives_of_go rfl ?_ rfl, gives_of_go rfl ?_ rfl⟩
  all_goals simp only [named, whole, frozen, Bool.false_eq_true, if_false, if_true, status_eq]

theorem gangctlStatus_runs (runs : gangFrozen s g = false) : Gives (.gangctlStatus c d a) s (statusGiven s d 0) :=
  gives_of_go rfl (by simp only [named, whole, runs, Bool.false_eq_true, if_false, status_eq]) rfl

theorem preempt_stops (runs : gangFrozen s g = false) : Gives (.preempt c d a) s
    ((liveMembers g).foldl (fun s m => if m.saved then s else stopMember s m.core m.ctx)
      (produce s (.s d) (.preempt g.id))) :=
  gives_of_go rfl (by simp only [named, whole, runs, Bool.false_eq_true, if_false]) rfl

/-- Whether RESUME may not resume a member: its state is saved, or it is not frozen. -/
def unresumable (s : State) (m : Member) : Bool := m.saved || !(getCtx s m.core m.ctx).frozen

theorem gangctlResume_resumes (ready : ¬(liveMembers g).any (unresumable s) = true) : Gives (.gangctlResume c d a) s
    (statusGiven ((liveMembers g).foldl (fun s m => resumeMember s m.core m.ctx) s) d 0) :=
  gives_of_go rfl (by simp only [named, whole, Bool.false_eq_true, if_false]; exact if_neg ready) rfl

theorem gangctlResume_runs (runs : (liveMembers g).any (unresumable s) = true) :
    Gives (.gangctlResume c d a) s (statusGiven s d 2) :=
  gives_of_go rfl (by simp only [named, whole, Bool.false_eq_true, if_false]; exact if_pos runs) rfl

end

theorem not_any_unresumable {s : State} {ms : List Member}
    (ready : (ms.all fun m => !m.saved && (getCtx s m.core m.ctx).frozen) = true) : ¬ms.any (unresumable s) = true := by
  rw [List.any_eq_true]
  rintro ⟨m, live, blocked⟩
  have free := List.all_eq_true.mp ready m live
  simp only [unresumable, Bool.or_eq_true, Bool.not_eq_true', Bool.and_eq_true] at blocked free
  rcases blocked with saved | running
  · exact absurd (saved.symm.trans free.1) (by decide)
  · exact absurd (running.symm.trans free.2) (by decide)

/-! Strata (R361) -/

/-- The traps of a stratum number are no page faults. -/
theorem cause_of_stratumArg {s : State} {a : SSrc} {own : Bool} {t : Trap} (refused : stratumArg s a own = .error t) :
    t.cause ≠ 7 := by
  unfold stratumArg at refused
  dsimp only at refused
  split at refused
  · cases refused; decide
  · split at refused
    · cases refused; decide
    · cases refused

section
variable {c : Cond} {d : SReg} {a : SSrc} {s : State}

theorem sleeps_refused {t : Trap} (refused : stratumArg s a true = .error t) :
    Becomes (.sleeps c d a) s (raiseTrap s (.sleeps c d a) t []) :=
  becomes_of_trap rfl (by simp only [refused]) (cause_of_stratumArg refused)

theorem wakes_refused {t : Trap} (refused : stratumArg s a false = .error t) :
    Becomes (.wakes c d a) s (raiseTrap s (.wakes c d a) t []) :=
  becomes_of_trap rfl (by simp only [refused]) (cause_of_stratumArg refused)

variable {z : Nat}

theorem sleeps_asleep (named : stratumArg s a true = .ok z) (asleep : (getStratum s z).awake = false)
    (still : (getLayer s z).wake = none) : Gives (.sleeps c d a) s (statusGiven s d 8) :=
  gives_of_go rfl (by simp only [named, asleep, still, and_self, if_true, status_eq]) rfl

theorem sleeps_asks {w : Wake} (named : stratumArg s a true = .ok z)
    (awake : (getStratum s z).awake = true ∨ (getLayer s z).wake = some w) : Gives (.sleeps c d a) s
      (produce (modStratum s z fun x => { x with sleepReq := true }) (.s d) (.sleeping z)) := by
  have up : ¬((getStratum s z).awake = false ∧ (getLayer s z).wake = none) := by
    rintro ⟨asleep, still⟩
    rcases awake with awake | wakes
    · exact absurd (asleep.symm.trans awake) (by decide)
    · exact absurd (still.symm.trans wakes) nofun
  exact gives_of_go rfl (by simp only [named]; exact if_neg up) rfl

section
variable (named : stratumArg s a false = .ok z)
include named

theorem wakes_waits (sleeps : (getStratum s z).sleepReq = true) : Becomes (.wakes c d a) s (wait s) :=
  becomes_of_hold rfl (by simp only [named, sleeps, if_true])

variable (free : (getStratum s z).sleepReq = false)
include free

theorem wakes_awake (awake : (getStratum s z).awake = true) : Gives (.wakes c d a) s (statusGiven s d 0) :=
  gives_of_go rfl (by simp only [named, free, awake, Bool.false_eq_true, if_false, if_true, status_eq]) rfl

variable (asleep : (getStratum s z).awake = false)
include asleep

theorem wakes_joins {w : Wake} (wakes : (getLayer s z).wake = some w) :
    Gives (.wakes c d a) s (produce s (.s d) (.waking z w.bw)) :=
  gives_of_go rfl (by simp only [named, free, asleep, wakes, Bool.false_eq_true, if_false]) rfl

/-- The beat B_w of the next wake (10 R292). -/
def wakeBeat (s : State) : Word := s.stc + 1 + word (Config.wakeChoice s.choice).val

/-- The state in which a stratum's wake has begun. -/
def wakeBegun (s : State) (z : Nat) : State :=
  later (modLayer { s with choice := s.choice + 1 } z fun y =>
    { y with wake := some { bw := wakeBeat s, marks := [] }, stopped := false }) ((wakeBeat s - s.stc).toNat + 64)
    .mirrorCopyComplete { StepArg.none with i := z }

theorem wakes_begins (still : (getLayer s z).wake = none) :
    Gives (.wakes c d a) s (produce (wakeBegun s z) (.s d) (.waking z (wakeBeat s))) :=
  gives_of_go rfl (by simp only [named, free, asleep, still, Bool.false_eq_true, if_false]; rfl) rfl

end

end

/-- Settles O43: each request by its gang or stratum, as its body finds it. -/
theorem gangsAndStrata : Obligations.GangsAndStrata := by
  intro c d a s g z w st has live
  exact ⟨gang_unknown, gang_lost, gang_frozen,
    fun named whole runs => ⟨gangctlStatus_runs named whole runs, preempt_stops named whole runs⟩,
    fun named whole ready => gangctlResume_resumes named whole (not_any_unresumable ready),
    gangctlKill_kills, gangctlResume_runs, sleeps_asleep, sleeps_asks, wakes_waits, wakes_begins,
    fun t => sleeps_refused, fun t => wakes_refused, fun named awake free => wakes_awake named free awake,
    fun named free asleep wakes => wakes_joins named free asleep wakes⟩

end Sys2Proof.Machine
end

section
/-! SUPPORT. Saving and loading of contexts (16 R351 to R354), and the proof of the statement about them. -/

namespace Sys2Proof.Machine

/-! CTXSV -/

section
variable {s : State} {d : SReg} {m : Bool} {n a : Nat} (few : n < pwCtx (myCore s).pword) (other : n ≠ myN s)
include few other

theorem savable_named : ¬(pwCtx (myCore s).pword ≤ n ∨ n = myN s) := by
  rintro (beyond | mine)
  · omega
  · exact other mine

variable (checked : areaCheck s m a = none)
include checked

theorem ctxsvBody_unfrozen (runs : (getCtx s (myId s) n).resident = false ∨ (getCtx s (myId s) n).frozen = false) :
    ctxsvBody m d n a s = .go (statusGiven s d 2) := by
  have unfrozen : (!(getCtx s (myId s) n).resident || !(getCtx s (myId s) n).frozen) = true := by
    rcases runs with absent | runs
    · rw [absent]; rfl
    · rw [runs]; exact Bool.or_true _
  simp only [ctxsvBody, if_neg (savable_named few other), checked, unfrozen, if_true, status_eq]

theorem ctxsvBody_saves (resident : (getCtx s (myId s) n).resident = true) (frozen : (getCtx s (myId s) n).frozen = true)
    (still : settled s (myId s) n = true) (whole : (getCtx s (myId s) n).lost = false) {u : State}
    (saved : saveCtx s m n a = (u, none)) : ctxsvBody m d n a s = .go (statusGiven u d 0) := by
  simp only [ctxsvBody, if_neg (savable_named few other), checked, resident, frozen, still, whole, saved, Bool.not_true,
    Bool.or_self, Bool.false_eq_true, if_false, status_eq]

end

/-! CTXLD -/

section
variable {s : State} {d : SReg} {m : Bool} {n a : Nat} (few : n < pwCtx (myCore s).pword)
  (vacant : (getCtx s (myId s) n).resident = false)
include few vacant

theorem loadable_named : ¬(pwCtx (myCore s).pword ≤ n ∨ (getCtx s (myId s) n).resident = true) := by
  rintro (beyond | resident)
  · omega
  · exact absurd (vacant.symm.trans resident) (by decide)

variable (checked : areaCheck s m a = none) {u : State} {h : List Byte} (header : loadArea s a 64 = (u, some h))
include checked header

theorem ctxldBody_invalid (invalid : field h 0 4 ≠ saveMagic ∨ field h 4 4 % 2 = 0) :
    ctxldBody m d n a s = .go (statusGiven u d 5) := by
  simp only [ctxldBody, if_neg (loadable_named few vacant), checked, header, if_pos invalid, status_eq]

theorem ctxldBody_loads (magic : field h 0 4 = saveMagic) (valid : field h 4 4 % 2 = 1) (core : field h 8 2 = myId s)
    (slot : field h 10 2 % 8 = n) {v w : State} {bs : List Byte} (area : loadArea u a (areaSize u m) = (v, some bs))
    (extension : m = true → field (bs.drop 0x9000) 0 4 = extMagic) (free : guardsTaken bs n (getCore v (myId s)) = false)
    (cleared : clearValid v n a = (w, true)) :
    ctxldBody m d n a s = .go (statusGiven (placeLoaded w n bs (if m then some (bs.drop 0x9000) else none)) d 0) := by
  have headed : ¬(field h 0 4 ≠ saveMagic ∨ field h 4 4 % 2 = 0) := by
    rintro (other | invalid)
    · exact other magic
    · omega
  have placed : ¬(field h 8 2 ≠ myId s ∨ field h 10 2 % 8 ≠ n) := by
    rintro (other | other)
    · exact other core
    · exact other slot
  have extended : ¬(m = true ∧ field (bs.drop 0x9000) 0 4 ≠ extMagic) := fun ⟨wide, other⟩ => other (extension wide)
  simp only [ctxldBody, if_neg (loadable_named few vacant), checked, header, if_neg headed, if_neg placed, area,
    if_neg extended, free, cleared, Bool.false_eq_true, if_false, status_eq]

end

/-! The four instructions -/

section
variable {c : Cond} {d : SReg} {n : BitVec 3} {a : SSrc} {s : State}

theorem exec_ctxsv : exec (.ctxsv c d n a) s =
    .next (issue (.ctxsv c d n a) s fun s => ctxsvBody false d n.toNat (sv s a).toNat s) := rfl

theorem exec_ctxsvM : exec (.ctxsvM c d n a) s =
    .next (issue (.ctxsvM c d n a) s fun s => ctxsvBody true d n.toNat (sv s a).toNat s) := rfl

theorem exec_ctxld : exec (.ctxld c d n a) s =
    .next (issue (.ctxld c d n a) s fun s => ctxldBody false d n.toNat (sv s a).toNat s) := rfl

theorem exec_ctxldM : exec (.ctxldM c d n a) s =
    .next (issue (.ctxldM c d n a) s fun s => ctxldBody true d n.toNat (sv s a).toNat s) := rfl

end

/-- Settles O44: CTXSV and CTXLD by the body that each shares with its form .M. -/
theorem saveAndLoad : Obligations.SaveAndLoad := by
  intro c d n a s u v w h bs m k x at' st saves loads
  have saving {i : Instr} {ext : Bool}
      (runs : exec i s = .next (issue i s fun s => ctxsvBody ext d n.toNat (sv s a).toNat s)) : saves i ext :=
    fun few other checked => ⟨fun unfrozen => gives_of_go runs (ctxsvBody_unfrozen few other checked unfrozen) rfl,
      fun resident frozen still whole saved =>
        gives_of_go runs (ctxsvBody_saves few other checked resident frozen still whole saved) rfl⟩
  have loading {i : Instr} {ext : Bool}
      (runs : exec i s = .next (issue i s fun s => ctxldBody ext d n.toNat (sv s a).toNat s)) : loads i ext :=
    fun few vacant checked header =>
      ⟨fun invalid => gives_of_go runs (ctxldBody_invalid few vacant checked header invalid) rfl,
      fun magic valid core slot area extension free cleared => gives_of_go runs
        (ctxldBody_loads few vacant checked header magic valid core slot area extension free cleared) rfl⟩
  exact ⟨saving exec_ctxsv, saving exec_ctxsvM, loading exec_ctxld, loading exec_ctxldM⟩

end Sys2Proof.Machine
end

section
/-! SUPPORT. What writes of the registers of the device space and the steps of links leave (16 R362, 20 R400, R408 to R424),
and the proof of the statement about them and about the steps of memory controllers, power and reset. -/

namespace Sys2Proof.Machine

/-! Routes (20 R408, R412) -/

@[simp] theorem armRoute_routes (s : State) (p m : Nat) : (armRoute s p m).routes = s.routes := by
  unfold armRoute
  split <;> rfl

@[simp] theorem armRoute_ports (s : State) (p m : Nat) : (armRoute s p m).ports = s.ports := by
  unfold armRoute
  split <;> rfl

/-- A route is written when each of its two fields names no port, by 15, or a port of the partition. -/
theorem routeWrite_eq (s : State) (p m : Nat) (v : Word) :
    routeWrite s p m v =
      let r := v.toNat % 256
      if (r % 16 = 15 ∨ ownsPort s p (r % 16) = true) ∧ (r / 16 = 15 ∨ ownsPort s p (r / 16) = true) then
        armRoute (disarmRoutes { s with routes := mset s.routes (routeKey p m) (v.setWidth 8) }) p m
      else s := by
  have low : bitsOf v.toNat 3 0 = v.toNat % 256 % 16 := by rw [bitsOf_low]; omega
  have high : bitsOf v.toNat 7 4 = v.toNat % 256 / 16 := by simp only [bitsOf]; omega
  simp only [routeWrite, low, high, Bool.and_eq_true, Bool.or_eq_true, beq_iff_eq]

theorem routeOf_routeWrite {s : State} {p m : Nat} {v : Word}
    (low : v.toNat % 256 % 16 = 15 ∨ ownsPort s p (v.toNat % 256 % 16) = true)
    (high : v.toNat % 256 / 16 = 15 ∨ ownsPort s p (v.toNat % 256 / 16) = true) :
    routeOf (routeWrite s p m v) p m = BitVec.ofNat 8 (v.toNat % 256) := by
  have value : v.setWidth 8 = BitVec.ofNat 8 (v.toNat % 256) := by bv_omega
  have written : routeWrite s p m v = _ := (routeWrite_eq s p m v).trans (if_pos ⟨low, high⟩)
  rw [written, routeOf, armRoute_routes]
  exact (mget_mset_same ..).trans value

/-! Ports (20 R411, R412) -/

@[simp] theorem getPort_modPort_same (s : State) (n : Nat) (f : Port → Port) : getPort (modPort s n f) n = f (getPort s n) := by
  simp [getPort, modPort]

theorem getPort_armRoutes (s : State) (n m : Nat) : getPort (armRoutes s n) m = getPort s m :=
  congrArg (mget · m Port.reset) (foldl_keeps State.ports _ (fun _ _ => armRoute_ports ..) _ s)

theorem getPort_retrainPort (s : State) (n : Nat) : getPort (retrainPort s n) n = { getPort s n with training := true } :=
  mget_mset_same ..

theorem getPort_portUp (s : State) (n lanes : Nat) : getPort (portUp s n lanes) n =
    { getPort s n with up := true, training := false, lanes := BitVec.ofNat 8 lanes, failRun := 0 } :=
  mget_mset_same ..

/-- A port that goes down is neither up nor being trained. -/
theorem getPort_portDown (s : State) (n : Nat) :
    (getPort (portDown s n) n).up = false ∧ (getPort (portDown s n) n).training = false := by
  unfold portDown
  split
  · rw [getPort_armRoutes, getPort_modPort_same]
    exact ⟨rfl, rfl⟩
  · rw [getPort_modPort_same]
    exact ⟨Bool.eq_false_iff.mpr ‹_›, rfl⟩

/-! Block queues (20 R413) -/

@[simp] theorem getBq_modBq_same (s : State) (n : Nat) (f : BlockQueue → BlockQueue) : getBq (modBq s n f) n = f (getBq s n) := by
  simp [getBq, modBq]

theorem getBq_bqOpen {s : State} {n : Nat} (closed : (getBq s n).isOpen = false) (v : Word) : getBq (bqOpen s n v) n =
    { getBq s n with isOpen := true, ready := [], part := v.extractLsb' 16 3, nb := v.setWidth 16 } :=
  (getBq_modBq_same s n _).trans (if_neg (Bool.eq_false_iff.mp closed))

theorem getBq_bqClose {s : State} {n : Nat} (opened : (getBq s n).isOpen = true) (v : Word) :
    getBq (bqClose s n v) n = { getBq s n with isOpen := false } :=
  (getBq_modBq_same s n _).trans (if_pos opened)

/-! REQ stays as it is written, whatever the request comes to (20 R416) -/

@[simp] theorem powerOf_modPower_same (s : State) (z : Nat) (f : Power → Power) :
    powerOf (modPower s z f) z = f (powerOf s z) := by
  simp [powerOf, modPower]

@[simp] theorem powerOf_later (s : State) (beats : Nat) (op : Instr) (arg : StepArg) (z : Nat) :
    powerOf (later s beats op arg) z = powerOf s z := rfl

@[simp] theorem powerOf_stopWaits (s : State) (z y : Nat) : powerOf (stopWaits s z) y = powerOf s y := rfl

theorem req_startRamp (s : State) (z : Nat) (t : BitVec 3) (phase : PowerPhase) :
    (powerOf (startRamp s z t phase) z).req = (powerOf s z).req := by
  rw [startRamp, powerOf_later, powerOf_modPower_same]

theorem req_startSwitch (s : State) (z : Nat) (phase : PowerPhase) :
    (powerOf (startSwitch s z phase) z).req = (powerOf s z).req := by
  rw [startSwitch, powerOf_later, powerOf_modPower_same, powerOf_stopWaits]

theorem req_restPower (s : State) (z : Nat) (status : BitVec 4) :
    (powerOf (restPower s z status) z).req = (powerOf s z).req := by
  unfold restPower
  dsimp only
  split
  · rw [powerOf_modPower_same]
  · exact req_startRamp ..

theorem req_startPower (s : State) (z target status : Nat) :
    (powerOf (startPower s z target status) z).req = (powerOf s z).req := by
  unfold startPower
  dsimp only
  split
  · exact req_restPower ..
  · split
    · split
      · exact req_startSwitch ..
      · exact req_startRamp ..
    · exact req_startSwitch ..

theorem req_takeReq (s : State) (z : Nat) : (powerOf (takeReq s z) z).req = (powerOf s z).req := by
  unfold takeReq
  split
  · rw [denyReq, powerOf_modPower_same]
  · exact req_startPower ..

theorem req_reqWrite (s : State) (z : Nat) (v : Word) : (powerOf (reqWrite s z v) z).req = v.setWidth 3 := by
  have written : (powerOf (modPower s z fun p => { p with req := v.setWidth 3 }) z).req = v.setWidth 3 :=
    by rw [powerOf_modPower_same]
  unfold reqWrite
  dsimp only
  split
  · rw [powerOf_modPower_same]
    exact written
  · exact (req_takeReq _ z).trans written

/-! Boot record and attestation (20 R421, R424) -/

theorem bootEntry_bootClear {s : State} {v : Word} (h : v.toNat < 32) :
    bootEntry (bootClear s v) v.toNat = bootEntry s v.toNat &&& 0x0F := by
  rw [bootClear, if_pos h]
  exact mget_mset_same ..

theorem attest_startReport {s : State} {v : Word} (key : v = 1) (idle : s.attest.busy = false) :
    (startReport s v).attest = { s.attest with busy := true, stat := 0 } := by
  rw [startReport, if_pos ⟨key, idle⟩]
  rfl

/-! REGISTER_WRITE (16 R362, 20 R400) -/

/-- Who makes the write that the operands of REGISTER_WRITE name. -/
def registerWriter (s : State) : Who :=
  { priv := s.arg.j, part := if s.arg.j = 2 then none else some s.arg.k, host := false, pf0 := false }

theorem exec_registerWrite_accepted {s t : State}
    (h : devStore s (registerWriter s) s.arg.x.toNat 8 s.arg.y = .ok t) : exec .registerWrite s = .next t := by
  rw [registerWriter] at h
  simp only [exec, execRegisterWrite, h]

theorem exec_registerWrite_refused {s : State} {e : DFail}
    (h : devStore s (registerWriter s) s.arg.x.toNat 8 s.arg.y = .error e) : exec .registerWrite s = .next s := by
  rw [registerWriter] at h
  simp only [exec, execRegisterWrite, h]

/-- No register takes a write at task privilege. -/
theorem devStore_task {w : Who} (task : w.priv = 0) (s : State) (o n : Nat) (v : Word) :
    ∃ e, devStore s w o n v = .error e := by
  unfold devStore
  split
  · exact ⟨_, rfl⟩
  · exact ⟨_, if_pos task⟩
  · exact ⟨_, rfl⟩

theorem exec_registerWrite_task {s : State} (task : s.arg.j = 0) : exec .registerWrite s = .next s := by
  obtain ⟨e, refused⟩ := devStore_task (w := registerWriter s) task s s.arg.x.toNat 8 s.arg.y
  exact exec_registerWrite_refused refused

/-! Steps of links, memory controllers and power that go by the state of their unit -/

section
variable {s : State}

theorem exec_portUp_training (h : s.arg.i < 12) (training : (getPort s s.arg.i).training = true) :
    exec .portUp s = .next (portUp s s.arg.i s.arg.j) :=
  (if_pos h).trans (congrArg _ (if_pos training))

theorem exec_portUp_settled (h : s.arg.i < 12) (settled : (getPort s s.arg.i).training = false) :
    exec .portUp s = .next s :=
  (if_pos h).trans (congrArg _ (if_neg (Bool.eq_false_iff.mp settled)))

theorem exec_sloimPacketReceive_down (h : s.arg.i < 12) (down : (getPort s s.arg.i).up = false) :
    exec .sloimPacketReceive s = .next s :=
  (if_pos h).trans (congrArg _ (if_pos (by rw [down]; rfl)))

theorem exec_sloimPacketReceive_failed (h : s.arg.i < 12) (up : (getPort s s.arg.i).up = true) (failed : s.arg.b = true) :
    exec .sloimPacketReceive s = .next (linkReplay s s.arg.i) := by
  refine (if_pos h).trans (congrArg _ ?_)
  simp only [up, failed, Bool.not_true, Bool.false_eq_true, if_false, if_true]

/-- A packet that passes the link check ends the port's run of failures, and is taken; its pair is resynchronised first where
the sender says so. -/
theorem exec_sloimPacketReceive_passed (h : s.arg.i < 12) (up : (getPort s s.arg.i).up = true) (passed : s.arg.b = false) :
    exec .sloimPacketReceive s =
      (let t := modPort s s.arg.i fun x => { x with failRun := 0 }
       .next (takePacket (if s.arg.k = 1 then modPeer t s.arg.packet.src.toNat fun y => { y with resync := true } else t)
         s.arg.packet s.arg.bytes s.arg.j s.arg.x.toNat (s.arg.y.setWidth 48))) := by
  refine (if_pos h).trans (congrArg _ ?_)
  simp only [up, passed, Bool.not_true, Bool.false_eq_true, if_false]
  by_cases resync : s.arg.k = 1
  · simp only [modPort, resync, if_true]
    rfl
  · simp only [modPort, resync, if_false]

theorem exec_thermalClear_hot (h : s.arg.i < 16) (hot : (powerOf s s.arg.i).hot = true) :
    let cool := modPower s s.arg.i fun p => { p with hot := false, halt := false }
    exec .thermalClear s = .next (retarget
      (if (powerOf s s.arg.i).halt && !clockSwitches s (1024 * s.arg.i) then resumeWaits cool s.arg.i else cool) s.arg.i) :=
  (if_pos h).trans (congrArg _ (if_pos hot))

theorem exec_thermalClear_cool (h : s.arg.i < 16) (cool : (powerOf s s.arg.i).hot = false) :
    let runs := modPower s s.arg.i fun p => { p with halt := false }
    exec .thermalClear s = .next
      (if (powerOf s s.arg.i).halt && !clockSwitches s (1024 * s.arg.i) then resumeWaits runs s.arg.i else runs) :=
  (if_pos h).trans (congrArg _ (if_neg (Bool.eq_false_iff.mp cool)))

end

theorem exec_routeWrite {s : State} (h : s.arg.i < 8) (named : s.arg.j < 128) :
    exec .routeWrite s = .next (routeWrite s s.arg.i s.arg.j s.arg.x) :=
  (if_pos h).trans (congrArg _ (if_pos named))

/-- HBM_ACCESS makes the repairs of the stack persistent where its operand j is 1 (20 R423). -/
theorem exec_hbmAccess {s : State} (h : s.arg.i < 12) :
    exec .hbmAccess s = .next
      (let t := hbmAccess s s.arg.i (s.arg.x.toNat % 2 ^ 36 / 32 * 32) s.arg.b s.arg.hbm
       if s.arg.j = 1 then recordStack t s.arg.i else t) := if_pos h

/-- Settles O60: that its unit exists is what `unitStep` asks of a step, and the rules above say what a step does with its
other operands, when a register accepts a write and what the writes and the ports leave. -/
theorem registerSteps : Obligations.RegisterSteps := by
  refine ⟨?_, ?_⟩
  · intro s t n v who
    refine ⟨?partition, ?port, ?unit, rfl, rfl, exec_registerWrite_accepted, fun _ => exec_registerWrite_refused,
      exec_registerWrite_task, ?route, getPort_retrainPort s n, fun closed => getBq_bqOpen closed v,
      fun opened => getBq_bqClose opened v, req_reqWrite s n v, bootEntry_bootClear, attest_startReport,
      fun h => if_pos h⟩
    case partition => exact fun h => ⟨if_pos h, exec_routeWrite h, if_pos h⟩
    case port => exact fun h => ⟨if_pos h, if_pos h⟩
    case unit => exact fun h => ⟨if_pos h, if_pos h, if_pos h⟩
    case route =>
      intro r ok _ _
      exact ⟨routeOf_routeWrite, fun refused => (routeWrite_eq s n s.arg.j v).trans (if_neg refused)⟩
  · intro s n
    refine ⟨?port, ?partition, ?stratum, rfl, rfl⟩
    case port =>
      intro h
      obtain ⟨down, untrained⟩ := getPort_portDown s n
      have up := getPort_portUp s n s.arg.j
      exact ⟨if_pos h, down, untrained, congrArg Port.up up, congrArg Port.lanes up, exec_portUp_training h,
        exec_portUp_settled h, exec_sloimPacketReceive_down h, exec_sloimPacketReceive_failed h,
        exec_sloimPacketReceive_passed h, fun kept => (exec_hbmAccess h).trans (congrArg _ (if_neg kept)),
        fun made => (exec_hbmAccess h).trans (congrArg _ (if_pos made))⟩
    case partition => exact fun h => ⟨if_pos h, if_pos h⟩
    case stratum =>
      exact fun h => ⟨if_pos h, if_pos h, if_pos h, if_pos h,
        ⟨exec_thermalClear_hot h, exec_thermalClear_cool h⟩, if_pos h⟩

end Sys2Proof.Machine
end

section
/-! SUPPORT. The schedule of the device steps (log 3): what it asks for, and that a step notes what it has read of peers for
itself alone (log 12). The proof of the statement about the agenda. -/

namespace Sys2Proof.Machine

/-! What a step has read of peers is noted during that step alone -/

theorem askFar_touched (s : State) (c n part : Nat) (r : FarReader) (lo hi : Nat) :
    (askFar s c n part r lo hi).touched = s.touched := by
  unfold askFar sendPacket armRoute
  dsimp only
  split <;> rfl

theorem askNext_touched (s : State) (r : FarReader) (c n : Nat) (m : List (Nat × Nat)) :
    (askNext s r c n m).touched = s.touched := by
  cases m with
  | nil => rfl
  | cons e m =>
    rw [askNext]
    split
    · rfl
    · exact askFar_touched ..

theorem farWait_touched (s : State) (r : FarReader) (m : List (Nat × Nat)) : (farWait s r m).touched = s.touched := by
  cases r <;> exact askNext_touched ..

/-- Behind the gate stands a state without notes, or one with those of the state before the step. -/
theorem farGate_touched {before t : State} {r : FarReader} {o : Out} (clean : before.touched = [])
    (next : farGate before r o = .next t) : t.touched = [] := by
  cases o with
  | next u =>
    dsimp only [farGate] at next
    split at next
    case isTrue =>
      cases next
      exact (farWait_touched ..).trans clean
    split at next
    case isTrue quiet =>
      cases next
      simp only [Bool.and_eq_true, List.isEmpty_iff] at quiet
      exact quiet.1.1
    split at next
    case isTrue =>
      cases next
      exact clean
    split at next
    case h_1 =>
      split at next <;> cases next <;> rfl
    case h_2 =>
      cases next
      exact (farWait_touched ..).trans clean
  | _ => cases next

theorem runInstr_touched {s t : State} {c n : Nat} (clean : s.touched = []) (next : runInstr s c n = .next t) :
    t.touched = [] := farGate_touched clean next

theorem sendFor_touched {s : State} (clean : s.touched = []) (c n : Nat) : (sendFor s c n).touched = [] := by
  unfold sendFor
  split
  · exact clean
  split
  · split
    next u passed => exact (farGate_touched clean passed : u.touched = [])
    next => exact clean
  · split
    · exact clean
    split
    next t ran =>
      split
      · exact (runInstr_touched clean ran : t.touched = [])
      · exact clean
    next => exact clean

theorem countRun_touched (s : State) (k : Nat) : (countRun s k).touched = s.touched := by
  unfold countRun
  split
  · rfl
  · exact modCluster_touched ..

theorem countRuns_touched (s : State) : (countRuns s).touched = s.touched :=
  foldl_keeps (·.touched) countRun countRun_touched _ s

/-! What the schedule asks for -/

/-- Steps of the device, none of them an instruction that has a word. -/
def DeviceSteps (l : List Step) : Prop := ∀ x ∈ l, x.op.isStep = true

namespace DeviceSteps

theorem nil : DeviceSteps [] := List.forall_mem_nil _

theorem single {x : Step} (h : x.op.isStep = true) : DeviceSteps [x] := List.forall_mem_singleton.mpr h

theorem append {l m : List Step} (hl : DeviceSteps l) (hm : DeviceSteps m) : DeviceSteps (l ++ m) :=
  List.forall_mem_append.mpr ⟨hl, hm⟩

theorem stepIf {b : Bool} {op : Instr} {i j k : Nat} (h : op.isStep = true) : DeviceSteps (stepIf b op i j k) := by
  cases b
  · exact nil
  · exact single h

variable {α : Type} {as : List α}

theorem map {f : α → Step} (h : ∀ a, (f a).op.isStep = true) : DeviceSteps (as.map f) :=
  List.forall_mem_map.mpr fun a _ => h a

theorem flatMap {f : α → List Step} (h : ∀ a, DeviceSteps (f a)) : DeviceSteps (as.flatMap f) := by
  intro x hx
  obtain ⟨a, _, mem⟩ := List.mem_flatMap.mp hx
  exact h a x mem

theorem filterMap {f : α → Option Step} (h : ∀ a x, f a = some x → x.op.isStep = true) :
    DeviceSteps (as.filterMap f) := by
  intro x hx
  obtain ⟨a, _, found⟩ := List.mem_filterMap.mp hx
  exact h a x found

end DeviceSteps

theorem deviceSteps_copySteps (s : State) (c : Nat) (k : Core) : DeviceSteps (copySteps s c k) := by
  refine .filterMap fun p x found => ?_
  split at found
  · cases found; rfl
  split at found
  · cases found; rfl
  · cases found

theorem deviceSteps_pendSteps (s : State) (c n : Nat) (ps : List Pending) : DeviceSteps (pendSteps s c n ps) := by
  refine .filterMap fun p x found => ?_
  split at found
  · cases found; rfl
  · cases found

theorem deviceSteps_ctxSteps (s : State) (c n : Nat) (x : Ctx) : DeviceSteps (ctxSteps s c n x) :=
  .append (.append (deviceSteps_pendSteps s c n _) (.stepIf rfl)) (.stepIf rfl)

theorem deviceSteps_endedSteps (s : State) (c : Nat) (k : Core) : DeviceSteps (endedSteps s c k) :=
  .flatMap fun _ => deviceSteps_pendSteps _ c _ _

theorem deviceSteps_matrixSteps (c : Nat) (k : Core) : DeviceSteps (matrixSteps c k) := by
  unfold matrixSteps
  split
  · exact .nil
  next m _ _ => exact .single (by cases h : m.started <;> rfl)

theorem deviceSteps_traceSteps (s : State) (c : Nat) (k : Core) : DeviceSteps (traceSteps s c k) := by
  unfold traceSteps
  split
  · exact .nil
  split
  · exact .nil
  · exact .single rfl
  · exact .stepIf rfl

theorem deviceSteps_fenceSteps (s : State) (c : Nat) (k : Core) : DeviceSteps (fenceSteps s c k) := by
  unfold fenceSteps
  split
  · split
    · split
      · exact .nil
      split
      · exact .stepIf rfl
      · exact .map fun _ => rfl
    · exact .nil
  · exact .nil

theorem deviceSteps_coreSteps (s : State) (e : Nat × Core) : DeviceSteps (coreSteps s e) :=
  have binds := DeviceSteps.append (.stepIf rfl) (deviceSteps_copySteps s e.1 e.2)
  have contexts := binds.append (.flatMap fun x : Nat × Ctx => deviceSteps_ctxSteps s e.1 x.1 x.2)
  have tasks := contexts.append (deviceSteps_endedSteps s e.1 e.2)
  have arrays := tasks.append (deviceSteps_matrixSteps e.1 e.2)
  (arrays.append (deviceSteps_traceSteps s e.1 e.2)).append (deviceSteps_fenceSteps s e.1 e.2)

theorem deviceSteps_clusterSteps (s : State) (k : Nat) : DeviceSteps (clusterSteps s k) := by
  refine .append (.append (.append ?run (.stepIf rfl)) (.stepIf rfl)) ?tile
  case run => split <;> exact .stepIf rfl
  case tile =>
    split
    · exact .single rfl
    · exact .nil

theorem deviceSteps_stratumSteps (s : State) (z : Nat) : DeviceSteps (stratumSteps s z) :=
  .append (.append (.stepIf rfl) (.stepIf rfl)) (.map fun _ => rfl)

theorem deviceSteps_netSteps (s : State) : DeviceSteps (netSteps s) := by
  refine .map fun t => ?_
  cases h : t.waiting
  · cases h : t.home <;> rfl
  · rfl

theorem deviceSteps_engineSteps (s : State) : DeviceSteps (engineSteps s) := .flatMap fun _ => .map fun _ => rfl

theorem deviceSteps_partSteps (s : State) (p : Nat) : DeviceSteps (partSteps s p) := by
  refine .append (.append (.append (.stepIf rfl) (.stepIf rfl)) ?placing) (.stepIf rfl)
  split
  · exact .append (.single rfl) (.single rfl)
  · exact .nil

theorem deviceSteps_unitSteps (s : State) : DeviceSteps (unitSteps s) :=
  have traffic : DeviceSteps (netSteps s ++ engineSteps s ++ s.posted.map fun p => stepOf .remoteStoreArrival 0 p.id 0) :=
    .append (.append (deviceSteps_netSteps s) (deviceSteps_engineSteps s)) (.map fun _ => rfl)
  have cores := traffic.append (.flatMap (deviceSteps_coreSteps s))
  have clusters := cores.append (.flatMap (deviceSteps_clusterSteps s))
  (clusters.append (.flatMap (deviceSteps_stratumSteps s))).append (.flatMap (deviceSteps_partSteps s))

theorem countRun_stalled (s : State) (k : Nat) : (countRun s k).stalled = s.stalled := by
  unfold countRun
  split
  · rfl
  · exact modCluster_stalled ..

theorem countRuns_stalled (s : State) : (countRuns s).stalled = s.stalled :=
  foldl_keeps (·.stalled) countRun countRun_stalled _ s

/-- What resumes has waited for bytes of peers. -/
theorem mem_stalled_of_resumed {s : State} {units : List Step} {x : Step} (h : x ∈ resumed s units) : x ∈ s.stalled :=
  List.mem_of_mem_filter h

/-! The schedule when nothing is asked for -/

/-- What a core's contexts send for as the core begins its cycle. -/
def coreSends (s : State) (c : Nat) : State := (List.range 8).foldl (fun u n => sendFor u c n) s

theorem coreSends_touched {s : State} (clean : s.touched = []) (c : Nat) : (coreSends s c).touched = [] :=
  List.foldlRecOn (motive := fun u : State => u.touched = []) (List.range 8) _ clean
    fun u (kept : u.touched = []) n _ => sendFor_touched kept c n

theorem nextCycle_core {s : State} {c : Nat} (h : nextCore s = some c) :
    nextCycle s = { coreSends s c with
      visit := c + 1
      agenda := [⟨.issueSelection, { StepArg.none with i := c, x := word (readyMask (coreSends s c) c) }⟩] } := by
  simp only [nextCycle, h]
  rfl

theorem nextCycle_units {s : State} (h : nextCore s = none) :
    nextCycle s =
      let t := countRuns (countCycles s)
      { t with
        visit := 0
        agenda := unitSteps t ++ resumed t (unitSteps t) ++
          [stepOf .swellSlotTransmit 0 0 0, stepOf .swellSlotTransmit 0 0 0] } := by
  simp only [nextCycle, h]

theorem nextCycle_touched {s : State} (clean : s.touched = []) : (nextCycle s).touched = [] := by
  cases h : nextCore s with
  | some c => simp only [nextCycle_core h, coreSends_touched clean c]
  | none => simp only [nextCycle_units h, countRuns_touched, countCycles, clean]

/-! The step -/

theorem step_empty {s : State} (idle : s.issuing = false) (h : s.agenda = []) : step s = .next (nextCycle s) := by
  simp only [step, machineStep, idle, h, Bool.false_eq_true, if_false]

theorem step_passed {s : State} {x : Step} {r : List Step} (idle : s.issuing = false) (h : s.agenda = x :: r)
    (waits : farOpen s (.step x) = true) : step s = .next { s with agenda := r } := by
  simp only [step, machineStep, idle, h, Bool.false_eq_true, if_false]
  exact if_pos waits

theorem step_agenda {s : State} {x : Step} {r : List Step} (idle : s.issuing = false) (h : s.agenda = x :: r)
    (ready : farOpen s (.step x) = false) :
    step s = farGate { s with agenda := r } (.step x)
      (exec x.op (withBrought { s with agenda := r, arg := x.arg } (.step x))) := by
  simp only [step, machineStep, idle, h, Bool.false_eq_true, if_false]
  exact if_neg (Bool.eq_false_iff.mp ready)

theorem step_touched {s t : State} (clean : s.touched = []) (next : step s = .next t) : t.touched = [] := by
  cases idle : s.issuing with
  | true => exact runInstr_touched clean ((step_issuing idle).symm.trans next)
  | false =>
    cases h : s.agenda with
    | nil =>
      cases (step_empty idle h).symm.trans next
      exact nextCycle_touched clean
    | cons x r =>
      cases waits : farOpen s (.step x) with
      | true =>
        cases (step_passed idle h waits).symm.trans next
        exact clean
      | false =>
        exact farGate_touched (before := { s with agenda := r }) clean ((step_agenda idle h waits).symm.trans next)

/-- Settles O5: the gate lets a quiet step of the agenda through, an empty agenda is filled by the next core or by the units
(`deviceSteps_unitSteps`), and every state that a step reaches has passed the gate or read nothing (`step_touched`). -/
theorem stepRunsAgenda : Obligations.StepRunsAgenda := by
  refine ⟨fun s u x r idle asked => ?first, fun s idle asked => ?schedule, fun s t clean next => step_touched clean next⟩
  case first =>
    refine ⟨step_passed idle asked, fun ready => ?_⟩
    have run := step_agenda idle asked ready
    refine ⟨run, fun nothing => congrArg (exec x.op) (withBrought_nothing (s := { s with agenda := r, arg := x.arg }) nothing _),
      fun done read brought stalled room => ?_⟩
    exact run.trans ((congrArg _ done).trans (farGate_quiet (s := { s with agenda := r }) read brought stalled room _))
  case schedule =>
    have filled := step_empty idle asked
    cases h : nextCore s with
    | some c =>
      rw [nextCycle_core h] at filled
      exact ⟨_, _, _, filled, .inr ⟨c, rfl⟩, fun x mem => .inl (DeviceSteps.single rfl x mem)⟩
    | none =>
      rw [nextCycle_units h] at filled
      refine ⟨_, _, _, filled, .inl rfl, fun x mem => ?_⟩
      rw [List.mem_append, List.mem_append] at mem
      obtain (unit | goesOn) | beat := mem
      · exact .inl (deviceSteps_unitSteps _ x unit)
      · exact .inr (countRuns_stalled (countCycles s) ▸ mem_stalled_of_resumed goesOn)
      · exact .inl ((DeviceSteps.single rfl).append (.single rfl) x beat)

end Sys2Proof.Machine
end

section
/-! SUPPORT. The units of the module right after power-on, each as its own reset leaves it (20 R421, log 5), and the proof of
the statement about them. -/

namespace Sys2Proof.Machine

theorem getCluster_reset (k : Nat) : getCluster State.reset k = Cluster.reset := rfl
theorem getStratum_reset (z : Nat) : getStratum State.reset z = Stratum.reset := rfl
theorem getPort_reset (n : Nat) : getPort State.reset n = Port.reset := rfl
theorem getSlot_reset (n : Nat) : getSlot State.reset n = slotReset := rfl
theorem routeOf_reset (p m : Nat) : routeOf State.reset p m = 0xFF := rfl

theorem wordFull_reset (c w : Nat) : wordFull State.reset c w = true := by
  rw [wordFull, getCore_reset]
  rfl

/-- Settles O10: each unit reads as its reset value, which holds what the chapters state. -/
theorem resetStateValues : Obligations.ResetState := by
  refine ⟨rfl, rfl, rfl, fun c => ?core, fun k => ?cluster, fun z r => ?ranges, fun z => ?asleep, getSlot_reset,
    fun n => ?port, routeOf_reset, rfl⟩
  case core =>
    rw [getCore_reset]
    exact ⟨rfl, wordFull_reset c, rfl, rfl, rfl⟩
  case cluster =>
    rw [getCluster_reset]
    exact ⟨rfl, rfl⟩
  case ranges =>
    rw [getStratum_reset]
    rfl
  case asleep => rw [getStratum_reset]; rfl
  case port => rw [getPort_reset]; rfl

end Sys2Proof.Machine
end

section
/-! SUPPORT. Proofs of the statements about words of the encoding tables, the memories after reset and the operands of
steps. -/

namespace Sys2Proof.Machine

/-- Settles O2: the decoder runs on each word. -/
theorem encodingWords : Obligations.EncodingWords := by
  refine ⟨?nop, ?csrr, ?preempt, ?ctxsv, ?tstep, ?rwd, ?sts, ?mma⟩ <;> decide +kernel

/-- Settles O8: no memory holds a byte after reset, and the empty memory is canonical. -/
theorem resetMemory : Obligations.ResetMemory := by
  refine ⟨wf_nil, fun c => ?pool, fun l => ?mirror, fun p => ?sync⟩
  case pool => rw [getCore_reset]; exact wf_nil
  case mirror => rw [getLayer_reset]; exact wf_nil
  case sync => rw [getPart_reset]; exact wf_nil

/-- Settles O56: each of the steps tests its operand before anything else, so one out of bounds takes the other branch. -/
theorem stepOperands : Obligations.StepOperands := by
  refine fun s => ⟨fun invalid i mem => ?core, fun high i mem => ?stratumCore, fun high i mem => ?cluster,
    fun high => ⟨if_neg high.not_gt, if_neg high.not_gt⟩, fun high i mem => ?stratum, fun high i mem => ?port,
    fun high => if_neg high.not_gt, fun high i mem => ?partition, fun high => ?queue⟩
  case core => fin_cases mem <;> exact if_neg (Bool.eq_false_iff.mp invalid)
  case stratumCore => fin_cases mem <;> exact if_neg high.not_gt
  case cluster => fin_cases mem <;> exact if_neg high.not_gt
  case stratum => fin_cases mem <;> exact if_neg high.not_gt
  case port => fin_cases mem <;> exact if_neg high.not_gt
  case partition => fin_cases mem <;> exact if_neg high.not_gt
  case queue =>
    by_cases below : s.arg.j < 64
    · obtain high | high := high
      · exact absurd below high.not_gt
      · exact ⟨_, (if_pos below).trans (if_neg high.not_gt)⟩
    · exact ⟨_, if_neg below⟩

end Sys2Proof.Machine
end

section
/-! SUPPORT. What keeps the canonical form of every memory (log 1). `MemoryOk.f` says that the operation f of the
model keeps it, and such lemmas chain: `h.f.g` for f, then g. `ActOk` and `OutOk` carry the form through what an
instruction or a step answers. Most of the state is no memory, so most updates leave the form as it is
(`MemoryOk.congr`). -/

namespace Sys2Proof.Machine

-- The tactics that fill in side conditions wait for every declaration before them: without this, threads pile up.
set_option Elab.async false

variable {s : State}

/-! Updates -/

theorem MemoryOk.congr {t : State} (h : MemoryOk s) (hbm : t.hbm = s.hbm := by with_reducible rfl)
    (cores : t.cores = s.cores := by with_reducible rfl) (layers : t.layers = s.layers := by with_reducible rfl)
    (parts : t.parts = s.parts := by with_reducible rfl) : MemoryOk t := by
  obtain ⟨inHbm, inPools, inMirrors, inSync⟩ := h
  exact ⟨hbm ▸ inHbm, by simpa [getCore, cores] using inPools, by simpa [getLayer, layers] using inMirrors,
    by simpa [getPart, parts] using inSync⟩

theorem MemoryOk.pool (h : MemoryOk s) (c : Nat) : Memory.wf (getCore s c).pool = true := h.2.1 c
theorem MemoryOk.mirror (h : MemoryOk s) (l : Nat) : Memory.wf (getLayer s l).mirror = true := h.2.2.1 l
theorem MemoryOk.sync (h : MemoryOk s) (p : Nat) : Memory.wf (getPart s p).sync = true := h.2.2.2 p

protected theorem MemoryOk.withCur {c : Nat × Nat} (h : MemoryOk s) : MemoryOk { s with cur := c } := h
protected theorem MemoryOk.withWaited {b : Bool} (h : MemoryOk s) : MemoryOk { s with waited := b } := h

protected theorem MemoryOk.setCore {c : Nat} {k : Core} (h : MemoryOk s) (hk : Memory.wf k.pool = true) :
    MemoryOk (setCore s c k) := memoryOk_setCore s c k h hk
protected theorem MemoryOk.modCore {c : Nat} {f : Core → Core} (h : MemoryOk s)
    (hf : ∀ k, (f k).pool = k.pool := by intro; rfl) : MemoryOk (modCore s c f) := memoryOk_modCore s c f h hf
protected theorem MemoryOk.modMyCore {f : Core → Core} (h : MemoryOk s)
    (hf : ∀ k, (f k).pool = k.pool := by intro; rfl) : MemoryOk (modMyCore s f) := memoryOk_modCore _ _ _ h hf
protected theorem MemoryOk.repartition {c : Nat} {w : Word} (h : MemoryOk s) : MemoryOk (modCore s c (repartition w)) :=
  memoryOk_repartition s c w h
protected theorem MemoryOk.modCtx {c n : Nat} {f : Ctx → Ctx} (h : MemoryOk s) : MemoryOk (modCtx s c n f) :=
  memoryOk_modCtx s c n f h
protected theorem MemoryOk.modMe {f : Ctx → Ctx} (h : MemoryOk s) : MemoryOk (modMe s f) := memoryOk_modMe s f h
protected theorem MemoryOk.modRegs {f : Regs → Regs} (h : MemoryOk s) : MemoryOk (modRegs s f) := memoryOk_modRegs s f h
protected theorem MemoryOk.modLayer {l : Nat} {f : Layer → Layer} (h : MemoryOk s)
    (hf : ∀ y, (f y).mirror = y.mirror := by intro; rfl) : MemoryOk (modLayer s l f) :=
  memoryOk_modLayer s l f h (by rw [hf]; exact h.mirror l)
protected theorem MemoryOk.modPart {p : Nat} {f : Partition → Partition} (h : MemoryOk s)
    (hf : ∀ y, (f y).sync = y.sync := by intro; rfl) : MemoryOk (modPart s p f) :=
  memoryOk_modPart s p f h (by rw [hf]; exact h.sync p)
protected theorem MemoryOk.modStratum {l : Nat} {f : Stratum → Stratum} (h : MemoryOk s) :
    MemoryOk (modStratum s l f) := h
protected theorem MemoryOk.modCluster {k : Nat} {f : Cluster → Cluster} (h : MemoryOk s) :
    MemoryOk (modCluster s k f) := h
protected theorem MemoryOk.modPort {n : Nat} {f : Port → Port} (h : MemoryOk s) : MemoryOk (modPort s n f) := h
protected theorem MemoryOk.modPeer {m : Nat} {f : Peer → Peer} (h : MemoryOk s) : MemoryOk (modPeer s m f) := h
protected theorem MemoryOk.modBq {n : Nat} {f : BlockQueue → BlockQueue} (h : MemoryOk s) : MemoryOk (modBq s n f) := h
protected theorem MemoryOk.modHbm {k : Nat} {f : HbmStack → HbmStack} (h : MemoryOk s) : MemoryOk (modHbm s k f) := h

/-- A map of the listed cores that keeps their numbers and pools. -/
protected theorem MemoryOk.mapCores {t : State} {g : Nat × Core → Nat × Core} (h : MemoryOk s)
    (cores : t.cores = s.cores.map g) (number : ∀ e, (g e).1 = e.1) (pool : ∀ e, (g e).2.pool = e.2.pool)
    (hbm : t.hbm = s.hbm := by rfl) (layers : t.layers = s.layers := by rfl) (parts : t.parts = s.parts := by rfl) :
    MemoryOk t := by
  have pools (c : Nat) : (getCore t c).pool = (getCore s c).pool := by
    unfold getCore
    rw [cores]
    induction s.cores with
    | nil => rfl
    | cons e r ih =>
      rw [List.map_cons, mget, mget, number]
      split
      · exact pool e
      · exact ih
  obtain ⟨inHbm, inPools, inMirrors, inSync⟩ := h
  exact ⟨hbm ▸ inHbm, fun c => pools c ▸ inPools c, by simpa [getLayer, layers] using inMirrors,
    by simpa [getPart, parts] using inSync⟩

/-! Writes -/

protected theorem MemoryOk.writePlaces {ws : List (Place × Byte)} (h : MemoryOk s) : MemoryOk (writePlaces s ws) :=
  memoryOk_writePlaces s ws h
protected theorem MemoryOk.writeHbmBytes {a : Nat} {bs : List Byte} (h : MemoryOk s) :
    MemoryOk (writeHbmBytes s a bs) :=
  memoryOk_writeHbmBytes s a bs h
protected theorem MemoryOk.writeFull {ws : List (Place × Byte)} (h : MemoryOk s) : MemoryOk (writeFull s ws) :=
  memoryOk_writeFull s ws h
protected theorem MemoryOk.emptyWord {c w : Nat} (h : MemoryOk s) : MemoryOk (emptyWord s c w) :=
  memoryOk_emptyWord s c w h
protected theorem MemoryOk.keepFar {t : State} (h : MemoryOk t) : MemoryOk (keepFar s t) := memoryOk_keepFar s t h

/-! Branches and folds -/

protected theorem MemoryOk.of_eq {α : Type} {p : State × α} {t : State} {a : α} (h : MemoryOk p.1) (e : p = (t, a)) :
    MemoryOk t := by
  rw [e] at h
  exact h

protected theorem MemoryOk.ite {c : Prop} [Decidable c] {t : State} (h : MemoryOk s) (k : MemoryOk t) :
    MemoryOk (if c then s else t) := by
  split
  · exact h
  · exact k

/-- The same of what answers a state and something else. -/
protected theorem MemoryOk.ite_fst {α : Type} {c : Prop} [Decidable c] {p q : State × α} (h : MemoryOk p.1)
    (k : MemoryOk q.1) : MemoryOk (if c then p else q).1 := by
  split
  · exact h
  · exact k

/-- An update that is made only where there is something to make it of. -/
protected theorem MemoryOk.elim {α : Type} {o : Option α} {f : α → State} (h : MemoryOk s) (hf : ∀ a, MemoryOk (f a)) :
    MemoryOk (o.elim s f) := by
  cases o with
  | none => exact h
  | some a => exact hf a

protected theorem MemoryOk.foldl {α : Type} {l : List α} {f : State → α → State} (h : MemoryOk s)
    (hf : ∀ s a, MemoryOk s → MemoryOk (f s a)) : MemoryOk (l.foldl f s) := memoryOk_foldl f hf l s h

/-- A fold that carries something else along with the state. -/
protected theorem MemoryOk.foldl_fst {α β : Type} {l : List α} {f : State × β → α → State × β} {b : β} (h : MemoryOk s)
    (hf : ∀ s b a, MemoryOk s → MemoryOk (f (s, b) a).1) : MemoryOk (l.foldl f (s, b)).1 := by
  induction l generalizing s b with
  | nil => exact h
  | cons a r ih => exact ih (hf _ _ _ h)

/-- A fold of updates of one memory keeps the canonical form if each update does. -/
theorem wf_foldl {α : Type} (f : List Host.Cell → α → List Host.Cell)
    (hf : ∀ m a, Memory.wf m = true → Memory.wf (f m a) = true) (l : List α) (m : List Host.Cell)
    (hm : Memory.wf m = true) : Memory.wf (l.foldl f m) = true := by
  induction l generalizing m with
  | nil => exact hm
  | cons a r ih => exact ih _ (hf m a hm)

/-! What an instruction and a step answer -/

/-- Every state that the action carries has its memories in canonical form. -/
def ActOk : Act → Prop
  | .go s | .jump s _ | .stay s | .trap s _ | .unplaced s => MemoryOk s
  | .hold => True

/-- The next state, where there is one, has its memories in canonical form. -/
def OutOk : Out → Prop
  | .next s => MemoryOk s
  | _ => True

theorem ActOk.of_go {a : Act} {t : State} (h : ActOk a) (e : a = .go t) : MemoryOk t := by
  subst e
  exact h

theorem ActOk.of_jump {a : Act} {t : State} {w : Word} (h : ActOk a) (e : a = .jump t w) : MemoryOk t := by
  subst e
  exact h

theorem OutOk.of_next {o : Out} {t : State} (h : OutOk o) (e : o = .next t) : MemoryOk t := by
  subst e
  exact h

protected theorem ActOk.ite {c : Prop} [Decidable c] {a b : Act} (h : ActOk a) (k : ActOk b) :
    ActOk (if c then a else b) := by
  split
  · exact h
  · exact k

protected theorem OutOk.ite {c : Prop} [Decidable c] {a b : Out} (h : OutOk a) (k : OutOk b) :
    OutOk (if c then a else b) := by
  split
  · exact h
  · exact k

end Sys2Proof.Machine
end

section
/-! SUPPORT. The notes that a step makes of what it reads, packets to peers, translation, and the error logs (04, 16,
18, 20). -/

namespace Sys2Proof.Machine

set_option Elab.async false

variable {s : State}

protected theorem MemoryOk.noteBad {pas : List Nat} (h : MemoryOk s) : MemoryOk (noteBad s pas) := .ite h h

protected theorem MemoryOk.noteFixes {pas : List Nat} (h : MemoryOk s) : MemoryOk (noteFixes s pas) := .ite h h

protected theorem MemoryOk.noteFar {part : Nat} {pas : List Nat} (h : MemoryOk s) : MemoryOk (noteFar s part pas) := by
  unfold noteFar
  dsimp only
  split
  · exact h.noteFixes
  · exact h.noteFixes.congr

protected theorem MemoryOk.touch {part : Nat} {ps : List Place} (h : MemoryOk s) : MemoryOk (touch s part ps) :=
  h.noteFar

protected theorem MemoryOk.later {beats : Nat} {op : Instr} {arg : StepArg} (h : MemoryOk s) :
    MemoryOk (later s beats op arg) := h

protected theorem MemoryOk.disarmRoutes (h : MemoryOk s) : MemoryOk (disarmRoutes s) := h

protected theorem MemoryOk.armRoute {part m : Nat} (h : MemoryOk s) : MemoryOk (armRoute s part m) := .ite h h.later

protected theorem MemoryOk.rearmRoutes {p : Nat} (h : MemoryOk s) : MemoryOk (rearmRoutes s p) :=
  h.disarmRoutes.foldl fun _ _ h => h.armRoute

protected theorem MemoryOk.sendPacket {c n part : Nat} {gen : BitVec 16} {copy : Option Nat} {p : Packet}
    (h : MemoryOk s) : MemoryOk (sendPacket s c n part gen copy p) := by
  unfold sendPacket
  dsimp only
  exact h.congr.armRoute.modPeer

protected theorem MemoryOk.sendPeerStores {c n part kind : Nat} {gen : BitVec 16} {copy : Option Nat}
    {ws : List (Nat × Byte)} (h : MemoryOk s) : MemoryOk (sendPeerStores s c n part gen kind copy ws) :=
  h.foldl fun _ _ h => h.sendPacket

protected theorem MemoryOk.sendFar {c n : Nat} {gen : BitVec 16} {copy : Option Nat} {ws : List (Place × Byte)}
    (h : MemoryOk s) : MemoryOk (sendFar s c n gen copy ws) := h.sendPeerStores

protected theorem MemoryOk.homeWrite {c n : Nat} {gen : BitVec 16} {ws : List (Place × Byte)} (h : MemoryOk s) :
    MemoryOk (homeWrite s c n gen ws) := h.writePlaces.sendFar

protected theorem MemoryOk.partWrite {part : Nat} {pas : List Nat} {bs : List Byte} (h : MemoryOk s) :
    MemoryOk (partWrite s part pas bs) := h.writePlaces.sendPeerStores

protected theorem MemoryOk.askFar {c n part lo hi : Nat} {reader : FarReader} (h : MemoryOk s) :
    MemoryOk (askFar s c n part reader lo hi) := h.sendPacket.modPeer

protected theorem MemoryOk.bringFar {r : FarReader} {bs : List (Nat × Option Byte)} (h : MemoryOk s) :
    MemoryOk (bringFar s r bs) := .ite h h

protected theorem MemoryOk.withBrought {r : FarReader} (h : MemoryOk s) : MemoryOk (withBrought s r) := by
  unfold withBrought
  split
  · exact h
  · refine ⟨wf_foldl _ (fun m b hm => ?_) _ _ h.1, h.2⟩
    cases b.2.2 with
    | none => exact hm
    | some v => exact wf_cset _ _ _ hm

protected theorem MemoryOk.askNext {r : FarReader} {c n : Nat} {l : List (Nat × Nat)} (h : MemoryOk s) :
    MemoryOk (askNext s r c n l) := by
  unfold askNext
  split
  · exact h
  · exact .ite h h.askFar

protected theorem MemoryOk.farWait {r : FarReader} {m : List (Nat × Nat)} (h : MemoryOk s) :
    MemoryOk (farWait s r m) := by
  unfold farWait
  split
  · exact h.congr.askNext
  · exact h.congr.askNext
  · exact h.askNext

protected theorem MemoryOk.farGate {r : FarReader} {o : Out} (h : MemoryOk s) (ho : OutOk o) :
    OutOk (farGate s r o) := by
  unfold farGate
  split
  · split
    · exact h.farWait
    · split
      · exact ho
      · split
        · exact h
        · split
          · split
            · exact MemoryOk.keepFar ho
            · exact MemoryOk.keepFar ho
          · exact h.farWait
  · exact ho

protected theorem MemoryOk.touchWalk {part va : Nat} (h : MemoryOk s) : MemoryOk (touchWalk s part va) := by
  unfold touchWalk
  dsimp only
  exact .ite h.noteFar h.noteFar.congr

protected theorem MemoryOk.takeFrame {t : State} {part frame : Nat} (h : MemoryOk s)
    (e : takeFrame s part = some (frame, t)) : MemoryOk t := by
  unfold takeFrame at e
  dsimp only at e
  split at e
  · cases e
  · split at e
    · cases e
      exact h.modPart
    · split at e
      · cases e
      · split at e
        · cases e
          exact h.touchWalk.noteFar.modPart
        · cases e

protected theorem MemoryOk.swapEntry {part ea frame : Nat} {e : Word} {o : Option Word} (h : MemoryOk s) :
    MemoryOk (swapEntry s part ea e frame o) := by
  unfold swapEntry
  dsimp only
  split
  · exact h.writeHbmBytes.partWrite.modPart
  · exact h.writeHbmBytes.modPart

protected theorem MemoryOk.walkClaims {part priv : Nat} {ahead : Bool} {k : AK} {va n : Nat} {rival : Option Word}
    (h : MemoryOk s) : MemoryOk (walkClaims part priv ahead k va n rival s).1 := by
  induction n generalizing s rival with
  | zero => exact h
  | succ n ih =>
    have noted (b : Bool) (t : State) (ht : MemoryOk t) :
        MemoryOk (if b then { t with choice := t.choice + 1 } else t) := .ite ht ht
    unfold walkClaims
    dsimp only
    split
    · split
      · exact noted _ _ h.touchWalk
      · split
        · exact noted _ _ h.touchWalk
        · exact ih ((noted _ _ h.touchWalk).takeFrame ‹_›).swapEntry
    · exact (noted _ _ h.touchWalk).noteBad
    · exact noted _ _ h.touchWalk

protected theorem MemoryOk.walk {part priv va : Nat} {ahead : Bool} {k : AK} {rival : Option Word} (h : MemoryOk s) :
    MemoryOk (walk s part priv ahead k va rival).1 := h.walkClaims

protected theorem MemoryOk.translate {c priv va : Nat} {ahead : Bool} {k : AK} (h : MemoryOk s) :
    MemoryOk (translate s c priv ahead k va).1 := by
  unfold translate
  split
  · exact h
  · exact h.walk

protected theorem MemoryOk.transPieces {c priv : Nat} {ahead : Bool} {k : AK} {l : List (Nat × Nat)} (h : MemoryOk s) :
    MemoryOk (transPieces c priv ahead k l s).1 := by
  induction l generalizing s with
  | nil => exact h
  | cons a r ih => exact ih h.translate

protected theorem MemoryOk.transRange {c priv va n : Nat} {k : AK} (h : MemoryOk s) :
    MemoryOk (transRange s c priv k va n).1 := by
  unfold transRange
  split
  have h₁ := h.transPieces.of_eq ‹_›
  split <;> exact h₁

protected theorem MemoryOk.partPieces {part priv : Nat} {k : AK} {l : List (Nat × Nat)} (h : MemoryOk s) :
    MemoryOk (partPieces part priv k l s).1 := by
  induction l generalizing s with
  | nil => exact h
  | cons a r ih => exact ih h.walk

protected theorem MemoryOk.partRange {part priv va n : Nat} {k : AK} (h : MemoryOk s) :
    MemoryOk (partRange s part priv k va n).1 := by
  unfold partRange
  split
  have h₁ := h.partPieces.of_eq ‹_›
  split <;> exact h₁

protected theorem MemoryOk.countLost {c : Nat} (h : MemoryOk s) : MemoryOk (countLost s c) := h.modCore

protected theorem MemoryOk.launchEvent {ev : Event} {part : Nat} {payload : List Word} {sender : Option (Nat × Nat)}
    (h : MemoryOk s) : MemoryOk (launchEvent s ev part payload sender) := h

protected theorem MemoryOk.endWfi {c : Nat} (h : MemoryOk s) : MemoryOk (endWfi s c) := h.modCore

protected theorem MemoryOk.notifyHost {c : Nat} (h : MemoryOk s) : MemoryOk (notifyHost s c) :=
  h.foldl fun _ _ h => .ite h h

protected theorem MemoryOk.writeRecord {c : Nat} {stc : Word} {r : LogRec} (h : MemoryOk s) :
    MemoryOk (writeRecord s c stc r) := by
  unfold writeRecord
  dsimp only
  refine .ite h.countLost ?_
  split
  · exact (h.transRange.of_eq ‹_›).countLost
  · have h₁ := h.transRange.of_eq ‹_›
    exact .ite h₁.countLost h₁.homeWrite.modCore.launchEvent.endWfi.notifyHost

protected theorem MemoryOk.logPlace {k : Nat} {q : LQueue} (h : MemoryOk s) : MemoryOk (logPlace s k q).1 := by
  unfold logPlace
  split
  · refine .ite_fst h ?_
    split <;> exact h.partRange.of_eq ‹_›
  · exact h

protected theorem MemoryOk.writeHbmEntry {k kind retry lane off : Nat} {stc : Word} (h : MemoryOk s) :
    MemoryOk (writeHbmEntry s k kind retry lane off stc) := by
  unfold writeHbmEntry
  dsimp only
  split
  · exact h.logPlace.congr.modHbm
  · exact h.logPlace.congr.partWrite.modHbm

protected theorem MemoryOk.writeLog {x : LogEntry} (h : MemoryOk s) : MemoryOk (writeLog s x) := by
  unfold writeLog
  split
  · exact h.writeRecord
  · exact h.writeHbmEntry

protected theorem MemoryOk.tryLog {e : LogEntry} (h : MemoryOk s) : MemoryOk (tryLog s e).1 := by
  unfold tryLog
  extract_lets r t
  have written : MemoryOk t := (MemoryOk.congr h).withBrought.writeLog
  split
  · split
    · exact h
    · exact written.keepFar.congr
  · exact h.farWait

protected theorem MemoryOk.logEntry {e : LogEntry} (h : MemoryOk s) : MemoryOk (logEntry s e) := by
  unfold logEntry
  refine .ite h ?_
  split
  · exact h.tryLog.of_eq ‹_›
  · exact MemoryOk.congr (h.tryLog.of_eq ‹_›)

protected theorem MemoryOk.flushLogs (h : MemoryOk s) : MemoryOk (flushLogs s) := by
  unfold flushLogs
  exact h.congr.foldl fun _ _ h => h.logEntry

protected theorem MemoryOk.logRecord {c : Nat} {r : LogRec} (h : MemoryOk s) : MemoryOk (logRecord s c r) := h.logEntry

protected theorem MemoryOk.ctxRecord {c n kind status tag done addr extra : Nat} (h : MemoryOk s) :
    MemoryOk (ctxRecord s c n kind status tag done addr extra) := h.logRecord

protected theorem MemoryOk.sysRecord {part kind status done addr extra : Nat} (h : MemoryOk s) :
    MemoryOk (sysRecord s part kind status done addr extra) := h.logRecord

protected theorem MemoryOk.logHbm {k kind retry lane off : Nat} (h : MemoryOk s) :
    MemoryOk (logHbm s k kind retry lane off) := h.logEntry

protected theorem MemoryOk.poisonUnit {k off : Nat} (h : MemoryOk s) : MemoryOk (poisonUnit s k off) := h

protected theorem MemoryOk.uncorrectable {k off : Nat} (h : MemoryOk s) : MemoryOk (uncorrectable s k off) :=
  h.poisonUnit.logHbm

protected theorem MemoryOk.correctUnit {k off : Nat} (h : MemoryOk s) : MemoryOk (correctUnit s k off) :=
  .ite h.logHbm.modHbm.logHbm h.logHbm.modHbm

protected theorem MemoryOk.logBadReads (h : MemoryOk s) : MemoryOk (logBadReads s) := by
  unfold logBadReads
  dsimp only
  exact (h.congr.foldl (fun _ _ h => h.uncorrectable)).foldl (fun _ _ h => h.correctUnit)

end Sys2Proof.Machine
end

section
/-! SUPPORT. Resolving an access, the memory of a core behind its windows, and the trace unit (04, 10). -/

namespace Sys2Proof.Machine

set_option Elab.async false

variable {s : State}

protected theorem MemoryOk.lanePieces {q : Issuer} {k : AK} {l : List (Nat × List (Nat × Nat))} (h : MemoryOk s) :
    MemoryOk (lanePieces q k l s).1 := by
  induction l generalizing s with
  | nil => exact h
  | cons a r ih => exact ih h.transPieces

protected theorem MemoryOk.resolve {q : Issuer} {k : Acs} {size : Nat} {sx x : Bool} {lanes : List (Nat × Nat)}
    (h : MemoryOk s) : MemoryOk (resolve s q k size sx x lanes).1 := by
  unfold resolve
  dsimp only
  split
  · exact h
  · split
    · exact h.lanePieces
    · refine .ite_fst h.lanePieces ?_
      split
      · exact h.lanePieces.noteBad
      · exact h.lanePieces

protected theorem MemoryOk.touchEls {part : Nat} {els : List El} (h : MemoryOk s) : MemoryOk (touchEls s part els) :=
  h.touch

protected theorem MemoryOk.enginePlaces {c priv a n : Nat} {k : AK} (h : MemoryOk s) :
    MemoryOk (enginePlaces s c priv k a n).1 := by
  unfold enginePlaces
  split
  · refine .ite_fst h ?_
    split
    · exact h.transRange.of_eq ‹_›
    · exact .ite_fst (h.transRange.of_eq ‹_›).noteBad (h.transRange.of_eq ‹_›)
  · exact .ite_fst h h
  · exact .ite_fst h h
  · exact .ite_fst h h
  · exact h

protected theorem MemoryOk.tablePlaces {c priv a n : Nat} {k : AK} (h : MemoryOk s) :
    MemoryOk (tablePlaces s c priv k a n).1 := by
  unfold tablePlaces
  split
  · exact h
  · exact h.enginePlaces

protected theorem MemoryOk.engineRead {c priv a n : Nat} (h : MemoryOk s) : MemoryOk (engineRead s c priv a n).1 := by
  unfold engineRead
  split
  · exact (h.enginePlaces.of_eq ‹_›).touch
  · exact h.enginePlaces

protected theorem MemoryOk.tableRead {c priv a n : Nat} (h : MemoryOk s) : MemoryOk (tableRead s c priv a n).1 := by
  unfold tableRead
  split
  · exact (h.tablePlaces.of_eq ‹_›).touch
  · exact h.tablePlaces

protected theorem MemoryOk.writePoolN {c off n v : Nat} (h : MemoryOk s) : MemoryOk (writePoolN s c off n v) :=
  h.writePlaces

protected theorem MemoryOk.writeHead {c row : Nat} {r : Region} {g : RowHead} (h : MemoryOk s) :
    MemoryOk (writeHead s c r row g) := h.writePoolN

protected theorem MemoryOk.tflag {c : Nat} {f : FFlags} (h : MemoryOk s) : MemoryOk (tflag s c f) := h.modCore

protected theorem MemoryOk.foldRow {c row acc : Nat} {r : Region}
    {f : Nat → Nat → Nat → Nat → (Nat × Nat × Nat) × FFlags} (h : MemoryOk s) : MemoryOk (foldRow s c r row acc f).1 :=
  (h.foldl_fst (fun _ _ _ h => h.writePoolN)).tflag

protected theorem MemoryOk.normaliseRow {c row n : Nat} {r : Region} (h : MemoryOk s) :
    MemoryOk (normaliseRow s c r row n) := by
  unfold normaliseRow
  extract_lets head
  split
  split
  exact (h.foldRow.of_eq ‹_›).tflag.writeHead

protected theorem MemoryOk.advanceRow {c row n col0 post : Nat} {r : Region} {pre : List (BitVec 32)} (h : MemoryOk s) :
    MemoryOk (advanceRow s c r row n col0 post pre) := by
  unfold advanceRow
  extract_lets head
  split
  split
  exact (h.foldRow.of_eq ‹_›).tflag.writeHead

protected theorem MemoryOk.atomicBits {c n bits : Nat} {gen : BitVec 16} {ps : List Place} {op : BitOp}
    (h : MemoryOk s) : MemoryOk (atomicBits s c n gen ps op bits).1 := .ite_fst h.sendPacket h.touch.writePlaces

protected theorem MemoryOk.dirtyOr {c row : Nat} {d : RDesc} (h : MemoryOk s) : MemoryOk (dirtyOr s c d row).1 := by
  unfold dirtyOr
  dsimp only
  split
  · exact h.tablePlaces.of_eq ‹_›
  · have h₁ := h.tablePlaces.of_eq ‹_›
    split
    · exact h₁.tablePlaces.of_eq ‹_›
    · exact .ite_fst (MemoryOk.congr (h₁.tablePlaces.of_eq ‹_›)) (h₁.tablePlaces.of_eq ‹_›).atomicBits

protected theorem MemoryOk.voidReports {c : Nat} {gone : Nat → Nat → Bool} (h : MemoryOk s) :
    MemoryOk (voidReports s c gone) := h.modCore

protected theorem MemoryOk.reportRecord {c addr status : Nat} {seq : BitVec 32} (h : MemoryOk s) :
    MemoryOk (reportRecord s c seq addr status) := h.logRecord

protected theorem MemoryOk.sweepRow {c reg row n : Nat} {seq rho : BitVec 32} {clear : Bool} (h : MemoryOk s) :
    MemoryOk (sweepRow s c reg row seq clear rho n) := by
  unfold sweepRow
  dsimp only
  split
  · exact h
  · split
    · exact h.foldRow.tflag.writeHead
    · split
      · exact (h.foldRow.tflag.writeHead.dirtyOr.of_eq ‹_›).writeHead
      · exact (h.foldRow.tflag.writeHead.dirtyOr.of_eq ‹_›).modCore
      · exact (h.foldRow.tflag.writeHead.dirtyOr.of_eq ‹_›).reportRecord

protected theorem MemoryOk.capture {c : Nat} (h : MemoryOk s) : MemoryOk (capture s c) := h.modCore

protected theorem MemoryOk.sweepItem {c reg row : Nat} {t : TItem} (h : MemoryOk s) :
    MemoryOk (sweepItem s c reg row t).1 := by
  unfold sweepItem
  dsimp only
  split
  · exact h
  · exact .ite_fst h.sweepRow h

protected theorem MemoryOk.closeReport {c : Nat} {e : RowReport} (h : MemoryOk s) : MemoryOk (closeReport s c e) :=
  h.modCore

protected theorem MemoryOk.reportPerformed {c : Nat} {e : RowReport} (h : MemoryOk s) :
    MemoryOk (reportPerformed s c e) := by
  unfold reportPerformed
  dsimp only
  split
  · exact h.closeReport
  · exact h.closeReport.writeHead

protected theorem MemoryOk.landReport {c t o : Nat} {e : RowReport} (h : MemoryOk s) :
    MemoryOk (landReport s c e t o) := .ite h.atomicBits.reportPerformed h.reportRecord.closeReport

protected theorem MemoryOk.landReports {z : Nat} (h : MemoryOk s) : MemoryOk (landReports s z) := by
  unfold landReports
  refine h.foldl fun _ _ h => h.foldl (fun _ _ h => ?_)
  split
  · exact .ite h.landReport h
  · exact h

protected theorem MemoryOk.sweepLead {c reg row : Nat} {l : List TItem} (h : MemoryOk s) :
    MemoryOk (sweepLead s c reg row l).1 := by
  induction l generalizing s with
  | nil => exact h
  | cons t r ih =>
    unfold sweepLead
    split
    · exact h
    · exact ih h.sweepItem

protected theorem MemoryOk.prioritySweep {c reg row : Nat} (h : MemoryOk s) : MemoryOk (prioritySweep s c reg row) :=
  h.capture.sweepLead.modCore

protected theorem MemoryOk.sweepRows {c reg row0 n : Nat} (h : MemoryOk s) : MemoryOk (sweepRows s c reg row0 n) :=
  h.foldl fun _ _ h => h.prioritySweep

protected theorem MemoryOk.setStep {c reg : Nat} {n : BitVec 24} (h : MemoryOk s) : MemoryOk (setStep s c reg n) :=
  h.modCore

protected theorem MemoryOk.answer {c n id : Nat} (h : MemoryOk s) : MemoryOk (answer s c n id) := h.modCtx

protected theorem MemoryOk.applyTOp {c ctx uid : Nat} {op : TOp} (h : MemoryOk s) :
    MemoryOk (applyTOp s c ctx uid op) := by
  unfold applyTOp
  dsimp only
  split
  · split
    · exact h
    · refine .ite ?_ h.setStep
      exact (h.sweepRows.foldl (fun _ _ h => h.normaliseRow.writeHead)).setStep
  · split
    · exact h
    · exact h.sweepRows.foldl fun _ _ h => h.advanceRow
  · split
    · exact h.answer
    · exact .ite h.prioritySweep.tflag.modCtx.answer h.prioritySweep.tflag
  · split
    · exact h
    · exact h.sweepRows.foldl fun _ _ h => h.foldRow.writeHead
  · split
    · exact h
    · exact h.sweepRows.voidReports.foldl fun _ _ h => h.writeHead
  · exact h

protected theorem MemoryOk.applyItem {c : Nat} {x : TItem} (h : MemoryOk s) : MemoryOk (applyItem s c x) := by
  unfold applyItem
  dsimp only
  split
  · exact h.capture.applyTOp.modCore
  · exact h

protected theorem MemoryOk.applyCmds {c n : Nat} {free : TItem → Bool} (h : MemoryOk s) :
    MemoryOk (applyCmds s c free n) := by
  induction n generalizing s with
  | zero => exact h
  | succ n ih =>
    unfold applyCmds
    split
    · exact h
    · exact ih h.applyItem

protected theorem MemoryOk.settleCmds {c : Nat} {free : TItem → Bool} (h : MemoryOk s) :
    MemoryOk (settleCmds s c free) := h.applyCmds

protected theorem MemoryOk.settleRow {c reg row : Nat} {free : TItem → Bool} (h : MemoryOk s) :
    MemoryOk (settleRow s c reg row free) := h.settleCmds.prioritySweep

protected theorem MemoryOk.sweepNext {c : Nat} {free : TItem → Bool} (h : MemoryOk s) :
    MemoryOk (sweepNext s c free) := by
  unfold sweepNext
  dsimp only
  split
  · exact h.capture.sweepItem.modCore
  · exact h.capture.modCore

protected theorem MemoryOk.rewardToCore {c : Nat} {seq rho : BitVec 32} {mask keep : BitVec 16} {clear overrun : Bool}
    {hBefore : List (BitVec 32)} (h : MemoryOk s) :
    MemoryOk (rewardToCore s c seq mask clear rho hBefore overrun keep) :=
  .ite h.modCore.logRecord (.ite h h.modCore.capture)

end Sys2Proof.Machine
end

section
/-! SUPPORT. The operations that every instruction shares: registers, traps, run-ahead, issue and producers (02, 16,
18); the registers of the device space (17, 20) and the branches (07). -/

namespace Sys2Proof.Machine

set_option Elab.async false

variable {s : State}

protected theorem MemoryOk.setS {d : SReg} {v : Word} (h : MemoryOk s) : MemoryOk (setS s d v) := h.modRegs

protected theorem MemoryOk.setV {d : VReg} {v : VWord} (h : MemoryOk s) : MemoryOk (setV s d v) := h.modRegs

protected theorem MemoryOk.setP {d : PReg} {v : BitVec 64} (h : MemoryOk s) : MemoryOk (setP s d v) := h.modRegs

protected theorem MemoryOk.setQ {d : QReg} {v : Bool} (h : MemoryOk s) : MemoryOk (setQ s d v) := h.modRegs

protected theorem MemoryOk.raise {f : FFlags} (h : MemoryOk s) : MemoryOk (raise s f) := h.modRegs

protected theorem MemoryOk.modBoth {c n : Nat} {f : Regs → Regs} (h : MemoryOk s) : MemoryOk (modBoth s c n f) :=
  h.modCtx

protected theorem MemoryOk.endRun {c : Nat} (h : MemoryOk s) : MemoryOk (endRun s c) := by
  unfold endRun
  dsimp only
  split
  · exact .ite h.modCluster.congr h
  · exact h

protected theorem MemoryOk.freeze {c n : Nat} (h : MemoryOk s) : MemoryOk (freeze s c n) :=
  .ite h.modCtx.endRun h.modCtx

protected theorem MemoryOk.takeTrap {c n reason : Nat} {epc : Word} {t : Trap} (h : MemoryOk s) :
    MemoryOk (takeTrap s c n epc t reason) :=
  .ite (MemoryOk.ctxRecord (MemoryOk.freeze (.ite h.modCtx h))) (MemoryOk.modCtx (.ite h.modCtx h))

protected theorem MemoryOk.returnFromTrap {c n : Nat} (h : MemoryOk s) : MemoryOk (returnFromTrap s c n) := h.modCtx

protected theorem MemoryOk.endAhead {c n reason : Nat} (h : MemoryOk s) : MemoryOk (endAhead s c n reason) := by
  unfold endAhead
  dsimp only
  exact h.modCtx.congr

protected theorem MemoryOk.startAhead {i : Instr} {t : Trap} {stores : List (Nat × Nat)} (h : MemoryOk s) :
    MemoryOk (startAhead s i t stores) := h.modMe

protected theorem MemoryOk.finishAhead {c n : Nat} (h : MemoryOk s) : MemoryOk (finishAhead s c n) := by
  unfold finishAhead
  dsimp only
  split
  · exact h
  · exact h.modCtx.takeTrap

protected theorem MemoryOk.raiseTrap {i : Instr} {t : Trap} {stores : List (Nat × Nat)} (h : MemoryOk s) :
    MemoryOk (raiseTrap s i t stores) := .ite h.startAhead h.takeTrap

protected theorem MemoryOk.addHold {set : BitVec 4} {lo : Nat} {acquire : Bool} (h : MemoryOk s) :
    MemoryOk (addHold s set lo acquire) := h.modMe

protected theorem MemoryOk.wait (h : MemoryOk s) : MemoryOk (wait s) := h

protected theorem MemoryOk.advance {i : Instr} (h : MemoryOk s) : MemoryOk (advance s i) := h.modRegs

protected theorem MemoryOk.countAhead (h : MemoryOk s) : MemoryOk (countAhead s) := by
  unfold countAhead
  dsimp only
  split
  · exact .ite h.modMe (.ite h.modMe.endAhead (.ite h.modMe.endAhead h.modMe))
  · exact h.modMe

protected theorem MemoryOk.modAhead {f : RunAhead → RunAhead} (h : MemoryOk s) : MemoryOk (modAhead s f) := h.modMe

protected theorem MemoryOk.issueAhead {i : Instr} {a : RunAhead} {loads stores : List (Nat × Nat)} {body : State → Act}
    (h : MemoryOk s) (hb : ∀ s, MemoryOk s → ActOk (body s)) : MemoryOk (issueAhead i s a loads stores body) := by
  unfold issueAhead
  extract_lets r u stop walked walkedStop pass suppress places cond poisoned condPoison waits met
  have acts := hb s h
  have stops {n : Nat} : MemoryOk (stop n) := h.endAhead
  have walks {t : State} : MemoryOk (walked t) := h
  have walkStops {t : State} {n : Nat} : MemoryOk (walkedStop t n) := MemoryOk.endAhead walks
  have passes {t : State} {b : Bool} (h : MemoryOk t) : MemoryOk (pass t b) := h.modAhead.modRegs.advance.countAhead
  have suppresses {t : State} (h : MemoryOk t) : MemoryOk (suppress t) := h.modAhead
  have waiting : MemoryOk waits := h.ite h.wait
  clear_value stop walked walkedStop pass suppress waits
  refine .ite h.wait (.ite stops (.ite waiting (.ite h.advance.countAhead ?_)))
  split
  · exact stops
  · refine .ite stops (.ite stops (.ite waiting ?_))
    split
    · exact (acts.of_go ‹_›).modAhead.advance.countAhead
    · exact (acts.of_jump ‹_›).modAhead.modRegs.countAhead
    · exact stops
  · refine .ite (passes h) (.ite (passes (suppresses h)) (.ite stops (.ite waiting ?_)))
    split
    · exact passes h
    · split
      · exact .ite (passes walks) (passes (acts.of_go ‹_›))
      · exact .ite (passes walks.modAhead) walkStops
      · exact passes walks
      · exact .ite (passes h) waiting
    · split
      · exact .ite (passes (suppresses walks.modAhead)) walkStops
      · exact stops
      · exact passes (suppresses walks)
      · exact passes (suppresses walks)
      · exact passes (suppresses h)
    · split
      · exact .ite (passes walks) walkStops
      · exact stops
      · exact passes (suppresses walks)
      · exact passes (suppresses h)
    · split
      · exact passes (acts.of_go ‹_›)
      · exact stops
      · exact stops
      · exact passes h

protected theorem MemoryOk.endOf {i : Instr} {stores : List (Nat × Nat)} {act : Act} (h : MemoryOk s) (ha : ActOk act) :
    MemoryOk (endOf i s stores act) := by
  cases act with
  | go t => exact MemoryOk.advance ha
  | jump t w => exact MemoryOk.modRegs ha
  | stay t => exact ha
  | hold => exact h.wait
  | trap t x =>
    rw [endOf_trap]
    split
    · exact h.wait
    · exact MemoryOk.raiseTrap ha
  | unplaced t => exact ha

protected theorem MemoryOk.issueWith {i : Instr} {loads stores : List (Nat × Nat)} {body : State → Act} (h : MemoryOk s)
    (hf : ∀ t, MemoryOk t → ActOk (body t)) : MemoryOk (issueWith i s loads stores body) := by
  unfold issueWith
  dsimp only
  split
  · exact h.issueAhead fun _ h => hf _ h
  · refine .ite h.raiseTrap (.ite h.raiseTrap ?_)
    exact .ite h.wait (.ite h.advance (.ite h.raiseTrap (.ite h.wait (h.endOf (hf _ h)))))

protected theorem MemoryOk.issue {i : Instr} {body : State → Act} (h : MemoryOk s)
    (hf : ∀ t, MemoryOk t → ActOk (body t)) : MemoryOk (issue i s body) := h.issueWith fun _ h => hf _ h

protected theorem MemoryOk.produceAt {d : Dest} {p : Prod} {walks : List (Nat × List (Nat × Nat))} (h : MemoryOk s) :
    MemoryOk (produceAt s d p walks) := by
  unfold produceAt
  dsimp only
  exact h.modRegs.congr

protected theorem MemoryOk.produce {d : Dest} {p : Prod} (h : MemoryOk s) : MemoryOk (produce s d p) := h.produceAt

protected theorem MemoryOk.takeTurn {p : Prod} (h : MemoryOk s) : MemoryOk (takeTurn s p) := h.produce

protected theorem MemoryOk.produceVal {d : Dest} {x : Res} {f : FFlags} (h : MemoryOk s) :
    MemoryOk (produceVal s d x f) := .ite h.modRegs.raise h.produce

protected theorem MemoryOk.fulfil {c n id : Nat} {x : Res} {f : FFlags} (h : MemoryOk s) :
    MemoryOk (fulfil s c n id x f) := h.modBoth

protected theorem MemoryOk.modTask {c n uid : Nat} {f : Ctx → Ctx} (h : MemoryOk s) : MemoryOk (modTask s c n uid f) :=
  .ite h.modCtx h.modCore

protected theorem MemoryOk.engineFlags {c n uid : Nat} {f : FFlags} (h : MemoryOk s) :
    MemoryOk (engineFlags s c n uid f) := h.modTask

protected theorem MemoryOk.request {start : State → Nat → State} {finish : State → Act} (h : MemoryOk s)
    (hStart : ∀ t i, MemoryOk t → MemoryOk (start t i)) (hFinish : ∀ t, MemoryOk t → ActOk (finish t)) :
    ActOk (request s start finish) := by
  unfold request
  split
  · exact hStart _ _ h.congr.modMe
  · exact .ite (hFinish _ h.modMe) trivial

protected theorem MemoryOk.startCtx {c n : Nat} {x : Ctx} (h : MemoryOk s) : MemoryOk (startCtx s c n x) := by
  unfold startCtx
  dsimp only
  exact h.congr.modCore

protected theorem MemoryOk.countHerr (h : MemoryOk s) : MemoryOk (countHerr s) := h

protected theorem MemoryOk.modQueue {p q : Nat} {f : LQueue → LQueue} (h : MemoryOk s) : MemoryOk (modQueue s p q f) :=
  h.modPart

protected theorem MemoryOk.lqtailWrite {p q : Nat} {v : Word} (h : MemoryOk s) : MemoryOk (lqtailWrite s p q v) :=
  h.modQueue

protected theorem MemoryOk.evtailWrite {p : Nat} {v : Word} (h : MemoryOk s) : MemoryOk (evtailWrite s p v) := h.modPart

protected theorem MemoryOk.fttailWrite {p : Nat} {v : Word} (h : MemoryOk s) : MemoryOk (fttailWrite s p v) := by
  unfold fttailWrite
  dsimp only
  refine h.modPart fun _ => ?_
  split <;> exact rfl

protected theorem MemoryOk.ftlostWrite {p : Nat} {v : Word} (h : MemoryOk s) : MemoryOk (ftlostWrite s p v) :=
  .ite h.modPart h

protected theorem MemoryOk.pcfgWrite {p : Nat} {v : Word} (h : MemoryOk s) : MemoryOk (pcfgWrite s p v) := by
  unfold pcfgWrite
  dsimp only
  split
  · exact h.countHerr
  · refine MemoryOk.rearmRoutes (memoryOk_modPart _ _ _ h ?_)
    dsimp only
    split
    · exact h.sync p
    · exact wf_nil

protected theorem MemoryOk.routeWrite {p m : Nat} {v : Word} (h : MemoryOk s) : MemoryOk (routeWrite s p m v) := by
  unfold routeWrite
  dsimp only
  exact .ite h.congr.disarmRoutes.armRoute h

protected theorem MemoryOk.retrainPort {n : Nat} (h : MemoryOk s) : MemoryOk (retrainPort s n) := by
  unfold retrainPort
  dsimp only
  exact h.modPort.later.congr

protected theorem MemoryOk.bqlbWrite {n : Nat} {v : Word} (h : MemoryOk s) : MemoryOk (bqlbWrite s n v) := h.modBq

protected theorem MemoryOk.bqOpen {n : Nat} {v : Word} (h : MemoryOk s) : MemoryOk (bqOpen s n v) := h.modBq

protected theorem MemoryOk.bqClose {n : Nat} {v : Word} (h : MemoryOk s) : MemoryOk (bqClose s n v) := h.modBq

protected theorem MemoryOk.modPower {z : Nat} {f : Power → Power} (h : MemoryOk s) : MemoryOk (modPower s z f) :=
  h.modStratum

protected theorem MemoryOk.stopWaits {z : Nat} (h : MemoryOk s) : MemoryOk (stopWaits s z) := h

protected theorem MemoryOk.resumeWaits {z : Nat} (h : MemoryOk s) : MemoryOk (resumeWaits s z) := by
  unfold resumeWaits
  dsimp only
  exact .ite h h.congr.landReports

protected theorem MemoryOk.laterCycles {c n : Nat} {op : Instr} {arg : StepArg} (h : MemoryOk s) :
    MemoryOk (laterCycles s c n op arg) := h

protected theorem MemoryOk.startRamp {z : Nat} {t : BitVec 3} {phase : PowerPhase} (h : MemoryOk s) :
    MemoryOk (startRamp s z t phase) := h.modPower.later

protected theorem MemoryOk.startSwitch {z : Nat} {phase : PowerPhase} (h : MemoryOk s) :
    MemoryOk (startSwitch s z phase) := h.stopWaits.modPower.later

protected theorem MemoryOk.restPower {z : Nat} {status : BitVec 4} (h : MemoryOk s) : MemoryOk (restPower s z status) :=
  .ite h.modPower h.startRamp

protected theorem MemoryOk.startPower {z target status : Nat} (h : MemoryOk s) :
    MemoryOk (startPower s z target status) := .ite h.restPower (.ite (.ite h.startSwitch h.startRamp) h.startSwitch)

protected theorem MemoryOk.denyReq {z n : Nat} (h : MemoryOk s) : MemoryOk (denyReq s z n) := h.modPower

protected theorem MemoryOk.takeReq {z : Nat} (h : MemoryOk s) : MemoryOk (takeReq s z) := by
  unfold takeReq
  split
  · exact h.denyReq
  · exact h.startPower

protected theorem MemoryOk.reqWrite {z : Nat} {v : Word} (h : MemoryOk s) : MemoryOk (reqWrite s z v) := by
  unfold reqWrite
  dsimp only
  split
  · exact h.modPower.modPower
  · exact h.modPower.takeReq

protected theorem MemoryOk.modBoot {n : Nat} {f : BitVec 8 → BitVec 8} (h : MemoryOk s) : MemoryOk (modBoot s n f) := h

protected theorem MemoryOk.bootClear {v : Word} (h : MemoryOk s) : MemoryOk (bootClear s v) := .ite h.modBoot h

protected theorem MemoryOk.startReport {v : Word} (h : MemoryOk s) : MemoryOk (startReport s v) := by
  unfold startReport
  dsimp only
  exact .ite h.congr.later h

protected theorem MemoryOk.askReset (h : MemoryOk s) : MemoryOk (askReset s) := h

protected theorem MemoryOk.dregWrite {w : Who} {v : Word} {x : DReg} (h : MemoryOk s) :
    MemoryOk (dregWrite s w v x) := by
  unfold dregWrite
  dsimp only
  split
  · exact h.modQueue
  · exact h.modQueue
  · exact h.lqtailWrite
  · exact h.modPart
  · exact h.modPart
  · exact h.evtailWrite
  · exact h.modPart
  · exact h.modPart
  · exact h.modPart
  · exact h.modPart
  · exact h.modPart
  · exact h.fttailWrite
  · exact h.ftlostWrite
  · exact .ite h.pcfgWrite h.countHerr
  · exact .ite h h.countHerr
  · exact h.bqlbWrite
  · exact .ite h.bqOpen h.bqClose
  · exact .ite h.retrainPort h
  · exact h.routeWrite
  · exact h.reqWrite
  · exact h.modHbm
  · exact h.modHbm
  · exact h.modHbm
  · exact h.modHbm
  · exact h.modHbm
  · exact h.modHbm
  · exact h.modHbm
  · exact .ite h.bootClear h.countHerr
  · exact .ite (.ite h.askReset h.countHerr) h
  · exact h
  · exact h
  · exact h.startReport
  · exact h

protected theorem MemoryOk.devStore {t : State} {w : Who} {o n : Nat} {v : Word} (h : MemoryOk s)
    (e : devStore s w o n v = .ok t) : MemoryOk t := by
  unfold devStore at e
  split at e
  · cases e
  · split at e
    · cases e
    · split at e
      · cases e
      · cases e
        exact h.dregWrite
  · cases e

protected theorem MemoryOk.transfer {t : Word} {link : State → State} (h : MemoryOk s)
    (hf : ∀ t, MemoryOk t → MemoryOk (link t)) : ActOk (transfer s t link) := .ite h (hf _ h)

protected theorem MemoryOk.execCbr {c : Cond} {cc : CmpCond} {a b : SSrc} {off : Imm} (h : MemoryOk s) :
    OutOk (execCbr c cc a b off s) := h.issue fun _ h => .ite (h.transfer (fun _ h => h)) h

protected theorem MemoryOk.execSyscall {c : Cond} {code : BitVec 16} (h : MemoryOk s) : OutOk (execSyscall c code s) :=
  h.issue fun _ h => .ite trivial h

end Sys2Proof.Machine
end

section
/-! SUPPORT. Loads and stores, full and empty words, and the vector unit's arithmetic and memory accesses (08). -/

namespace Sys2Proof.Machine

set_option Elab.async false

variable {s : State}

protected theorem MemoryOk.seQueue {id off : Nat} {pid : Option Nat} {op : SeOp} (h : MemoryOk s) :
    MemoryOk (seQueue s id off pid op) := h

protected theorem MemoryOk.seSend {off : Nat} {op : SeOp} {release : Bool} (h : MemoryOk s) :
    MemoryOk (seSend s off op release) := by
  unfold seSend
  exact .ite h.takeTurn h.congr.seQueue

protected theorem MemoryOk.seProduce {d : SReg} {off : Nat} {op : SeOp} {release : Bool} (h : MemoryOk s) :
    MemoryOk (seProduce s d off op release) := .ite h.produce h.produce.seQueue

protected theorem MemoryOk.settleEls {els : List El} (h : MemoryOk s) : MemoryOk (settleEls s els) := by
  unfold settleEls
  refine h.foldl fun _ _ h => ?_
  split
  · exact h.settleRow
  · exact h

protected theorem MemoryOk.produceRead {d : Dest} {p : Prod} {els : List El} {walks : List (Nat × List (Nat × Nat))}
    (h : MemoryOk s) : MemoryOk (produceRead s d p els walks) := by
  unfold produceRead
  dsimp only
  split
  · exact h.produceAt
  · exact h.produceAt.modMyCore

protected theorem MemoryOk.acquireHold {lo : Nat} (h : MemoryOk s) : MemoryOk (acquireHold s lo) := h.addHold

protected theorem MemoryOk.loadBody {k : Acs} {sz : Size} {sx x : Bool} {d : SReg} {addr : Nat} (h : MemoryOk s) :
    ActOk (loadBody k sz sx x d addr s) := by
  unfold loadBody
  dsimp only
  split
  · exact h.resolve.of_eq ‹_›
  · exact h.resolve.of_eq ‹_›
  · have h₁ := h.resolve.of_eq ‹_›
    exact .ite trivial (.ite h₁ (.ite h₁.produceRead h₁.touchEls.settleEls.produceVal))
  · exact .ite (h.resolve.of_eq ‹_›).setS (h.resolve.of_eq ‹_›).seProduce
  · have h₁ := h.resolve.of_eq ‹_›
    split
    · exact .ite h₁.produce h₁.produceVal
    · exact h₁
  · exact h.resolve.of_eq ‹_›

protected theorem MemoryOk.execLda {c : Cond} {sz : Size} {scope : Scope} {d : SReg} {a : SSrc} {disp : Imm}
    (h : MemoryOk s) : OutOk (execLda c sz scope d a disp s) := by
  refine h.issueWith fun s h => ?_
  split
  · exact (h.loadBody.of_go ‹_›).acquireHold
  · exact h.loadBody

protected theorem MemoryOk.postStore {target addr : Nat} {bs : List (Nat × Byte)} (h : MemoryOk s) :
    MemoryOk (postStore s target addr bs) := h

protected theorem MemoryOk.landStore {kind : Nat} {ws : List (Place × Byte)} (h : MemoryOk s) :
    MemoryOk (landStore s kind ws) := by
  unfold landStore
  dsimp only
  exact MemoryOk.sendPeerStores (.ite h.writePlaces h.writePlaces.congr.modMe)

protected theorem MemoryOk.putStore {kind addr : Nat} {ws : List (Place × Byte)} (h : MemoryOk s) :
    MemoryOk (putStore s kind addr ws) := by
  unfold putStore
  split
  · exact h.postStore
  · exact h.landStore

protected theorem MemoryOk.storeBody {k : Acs} {sz : Size} {x release : Bool} {kind addr : Nat} {b : SSrc}
    (h : MemoryOk s) : ActOk (storeBody k sz x kind release addr b s) := by
  unfold storeBody
  dsimp only
  split
  · exact h.resolve.of_eq ‹_›
  · exact h.resolve.of_eq ‹_›
  · have h₁ := h.resolve.of_eq ‹_›
    exact .ite h₁.produceAt (.ite trivial (.ite trivial h₁.putStore.raise))
  · exact .ite trivial (h.resolve.of_eq ‹_›).seSend
  · have h₁ := h.resolve.of_eq ‹_›
    split
    · exact MemoryOk.ite h₁.takeTurn (h₁.devStore ‹_›)
    · exact h₁
  · exact h.resolve.of_eq ‹_›

protected theorem MemoryOk.execLdsy {c : Cond} {sz : Size} {sx xs1 : Bool} {d : SReg} {a : SSrc} {disp : Imm}
    (h : MemoryOk s) : OutOk (execLdsy c sz sx xs1 d a disp s) := by
  unfold execLdsy
  refine h.issue fun _ h => ?_
  split
  · exact (h.resolve.of_eq ‹_›).produceRead
  · exact h.resolve.of_eq ‹_›
  · exact h.resolve.of_eq ‹_›

protected theorem MemoryOk.emptyWords {ws : List Nat} (h : MemoryOk s) : MemoryOk (emptyWords s ws) :=
  h.foldl fun _ _ h => h.emptyWord

protected theorem MemoryOk.execFeclr {c : Cond} {a b : SSrc} {disp : Imm} (h : MemoryOk s) :
    OutOk (execFeclr c a disp b s) := by
  unfold execFeclr
  dsimp only
  refine h.issue fun _ h => ?_
  split
  · exact .ite h (.ite h (.ite h.takeTurn h.emptyWords))
  · exact h

protected theorem MemoryOk.warmTlb {c priv va : Nat} {k : AK} (h : MemoryOk s) : MemoryOk (warmTlb s c priv k va) := by
  unfold warmTlb
  dsimp only
  split
  · exact h
  · split
    · exact h.touchWalk.modCore
    · exact h.touchWalk

protected theorem MemoryOk.askFill {c blk pa : Nat} {kid : BitVec 32} (h : MemoryOk s) :
    MemoryOk (askFill s c kid blk pa) := h.modStratum

protected theorem MemoryOk.prefetch {instr : Bool} {addr : Nat} (h : MemoryOk s) :
    MemoryOk (prefetch s instr addr) := by
  unfold prefetch
  dsimp only
  refine .ite h.warmTlb ?_
  split
  · exact h.warmTlb.askFill
  · exact h.warmTlb

protected theorem MemoryOk.execPref {c : Cond} {instr : Bool} {a : SSrc} {disp : Imm} (h : MemoryOk s) :
    OutOk (execPref c instr a disp s) :=
  .ite (MemoryOk.ite h.advance.countAhead h.advance) (h.issue (fun _ h => MemoryOk.ite h.prefetch h))

protected theorem MemoryOk.putV {p : Pred} {d : VReg} {f : Nat → Lane × FFlags} (h : MemoryOk s) :
    ActOk (putV s p d f) := h.setV.raise

protected theorem MemoryOk.fp2 {p : Pred} {t : FpT} {d : VReg} {a : VSrc} {b : VOpB} {f : Fmt → Nat → Nat → Bits}
    (h : MemoryOk s) : ActOk (fp2 s p t d a b f) := h.putV

protected theorem MemoryOk.fp3 {p : Pred} {t : FpT} {d : VReg} {a c : VSrc} {b : VOpB}
    {f : Fmt → Nat → Nat → Nat → Bits} (h : MemoryOk s) : ActOk (fp3 s p t d a b c f) := h.putV

protected theorem MemoryOk.fp1 {p : Pred} {t : FpT} {d : VReg} {a : VSrc} {f : Fmt → Nat → Bits} (h : MemoryOk s) :
    ActOk (fp1 s p t d a f) := h.putV

protected theorem MemoryOk.vloadBody {x : Bool} {d : VReg} {as : List (Nat × Nat)} (h : MemoryOk s) :
    ActOk (vloadBody x d as s) := by
  unfold vloadBody
  dsimp only
  split
  · exact h.resolve.of_eq ‹_›
  · exact h.resolve.of_eq ‹_›
  · have h₁ := h.resolve.of_eq ‹_›
    exact .ite trivial (.ite h₁ (.ite h₁.produceRead h₁.touchEls.settleEls.produceVal))

protected theorem MemoryOk.putLanes {as : List (Nat × Nat)} {els : List (Nat × El)} {v : VWord} (h : MemoryOk s) :
    MemoryOk (putLanes s as els v).1 := by
  unfold putLanes
  dsimp only
  refine (h.foldl (fun _ _ h => ?_)).landStore
  split
  · exact h.putStore
  · exact h

protected theorem MemoryOk.vstoreBody {x : Bool} {as : List (Nat × Nat)} {b : VSrc} (h : MemoryOk s) :
    ActOk (vstoreBody x as b s) := by
  unfold vstoreBody
  dsimp only
  split
  · exact h.resolve.of_eq ‹_›
  · exact h.resolve.of_eq ‹_›
  · exact .ite (h.resolve.of_eq ‹_›).produceAt (.ite trivial (h.resolve.of_eq ‹_›).putLanes.raise)

protected theorem MemoryOk.execVldsy {p : Pred} {xs1 : Bool} {d : VReg} {a : SSrc} {disp : Imm} (h : MemoryOk s) :
    OutOk (execVldsy p xs1 d a disp s) := by
  unfold execVldsy
  dsimp only
  refine h.issue fun _ h => ?_
  split
  · exact h.resolve.of_eq ‹_›
  · exact h.resolve.of_eq ‹_›
  · exact (h.resolve.of_eq ‹_›).produceRead

protected theorem MemoryOk.spopBody {p : Pred} {d : VReg} {xr : XReg} (h : MemoryOk s) : ActOk (spopBody p d xr s) := by
  unfold spopBody
  dsimp only
  split
  · exact h.resolve.of_eq ‹_›
  · exact h.resolve.of_eq ‹_›
  · have h₁ := h.resolve.of_eq ‹_›
    refine .ite trivial ?_
    split
    · exact h₁.touchEls.resolve.of_eq ‹_›
    · exact h₁.touchEls.resolve.of_eq ‹_›
    · have h₂ := h₁.touchEls.resolve.of_eq ‹_›
      exact .ite trivial (.ite h₂ (.ite h₂.modRegs.produceRead h₂.touchEls.settleEls.modRegs.produceVal))

protected theorem MemoryOk.execSpopFifo {p : Pred} {d : VReg} {f : FReg} (h : MemoryOk s) :
    OutOk (execSpopFifo p d f s) := by
  unfold execSpopFifo
  refine h.issue fun _ h => ?_
  split
  · exact trivial
  · exact h.modRegs.produceVal

protected theorem MemoryOk.execSpush {p : Pred} {d : FReg} {a : VSrc} (h : MemoryOk s) : OutOk (execSpush p d a s) :=
  h.issue fun _ h => .ite trivial h.modRegs

end Sys2Proof.Machine
end

section
/-! SUPPORT. The copy engine (08), the synchronisation engines, posted stores and the forwarding table (05, 08). -/

namespace Sys2Proof.Machine

set_option Elab.async false

variable {s : State}

protected theorem MemoryOk.aheadPages {q : Issuer} {reads writes : List (Nat × Nat)} (h : MemoryOk s) :
    ActOk (aheadPages s q reads writes) := by
  unfold aheadPages
  dsimp only
  split <;> exact h.transPieces.transPieces

protected theorem MemoryOk.copyBody {tag : BitVec 8} {req : State → CopyReq} (h : MemoryOk s) :
    ActOk (copyBody tag req s) := by
  unfold copyBody
  dsimp only
  refine .ite trivial ?_
  split
  · exact h
  · exact .ite h.aheadPages h.congr.modMyCore

protected theorem MemoryOk.rawPlaces {q : Issuer} {k : AK} {x : Bool} {a n : Nat} (h : MemoryOk s) :
    MemoryOk (rawPlaces s q k x a n).1 := by
  unfold rawPlaces
  dsimp only
  split
  · exact .ite_fst h h
  · exact .ite_fst (.ite_fst h h) h
  · exact h.enginePlaces

protected theorem MemoryOk.unitEl {q : Issuer} {k : AK} {x : Bool} {a n : Nat} (h : MemoryOk s) :
    MemoryOk (unitEl s q k x a n).1 := by
  unfold unitEl
  dsimp only
  split
  · exact .ite_fst h h
  · exact .ite_fst h h
  · split <;> exact h.rawPlaces.of_eq ‹_›

protected theorem MemoryOk.engineWrite {c n : Nat} {gen : BitVec 16} {copy : Option Nat} {ws : List (Place × Byte)}
    (h : MemoryOk s) : MemoryOk (engineWrite s c n gen copy ws) := h.writeFull.sendFar

protected theorem MemoryOk.sideEl {q : Issuer} {k : AK} {x : Bool} {base a n : Nat} (h : MemoryOk s) :
    MemoryOk (sideEl s q k x base a n).1 := .ite_fst h h.unitEl

protected theorem MemoryOk.convertUnit {c i : Nat} {p : Copy} (h : MemoryOk s) : MemoryOk (convertUnit s c p i).1 := by
  unfold convertUnit
  dsimp only
  refine .ite_fst h ?_
  split
  · exact h.sideEl.of_eq ‹_›
  · have h₁ := h.sideEl.of_eq ‹_›
    split
    · exact h₁.sideEl.of_eq ‹_›
    · exact .ite_fst (h₁.sideEl.of_eq ‹_›) (h₁.sideEl.of_eq ‹_›).touchEls.settleEls

protected theorem MemoryOk.modCopy {c id : Nat} {f : Copy → Copy} (h : MemoryOk s) : MemoryOk (modCopy s c id f) :=
  h.modCore

protected theorem MemoryOk.landWords {c : Nat} {p : Copy} (h : MemoryOk s) : MemoryOk (landWords s c p).1 :=
  .ite h h.engineWrite

protected theorem MemoryOk.landRest {c : Nat} {p : Copy} (h : MemoryOk s) : MemoryOk (landRest s c p).1 :=
  h.writePlaces.sendFar

protected theorem MemoryOk.moveRun {n c : Nat} {p : Copy} (h : MemoryOk s) : MemoryOk (moveRun n s c p).1 := by
  induction n generalizing s p with
  | zero => exact h
  | succ n ih =>
    unfold moveRun
    split
    · have moved := h.convertUnit.of_eq ‹_›
      dsimp only
      split
      · exact moved
      · exact moved.landRest
    · exact h.convertUnit.of_eq ‹_›
    · have moved := h.convertUnit.of_eq ‹_›
      dsimp only
      split
      · exact moved.landWords
      · exact ih moved.landWords

protected theorem MemoryOk.copyUnit {c id : Nat} (h : MemoryOk s) : MemoryOk (copyUnit s c id) := by
  unfold copyUnit
  split
  · exact h
  · refine .ite ?_ h
    split
    exact (h.moveRun.of_eq ‹_›).modCopy

protected theorem MemoryOk.storeFlag {c : Nat} {p : Copy} {a v : Word} {sys : Bool} (h : MemoryOk s) :
    MemoryOk (storeFlag s c p a v sys).1 := by
  unfold storeFlag
  dsimp only
  split
  · exact h
  · split
    · exact h.rawPlaces.of_eq ‹_›
    · exact (h.rawPlaces.of_eq ‹_›).writePlaces.sendPeerStores

protected theorem MemoryOk.dropCopy {c id : Nat} (h : MemoryOk s) : MemoryOk (dropCopy s c id) := h.modCore

protected theorem MemoryOk.finishCopy {c : Nat} {p : Copy} (h : MemoryOk s) : MemoryOk (finishCopy s c p) := by
  unfold finishCopy
  dsimp only
  split
  · exact h.dropCopy.engineFlags
  · exact h.dropCopy.engineFlags.modTask.logRecord

protected theorem MemoryOk.copyComplete {c id : Nat} (h : MemoryOk s) : MemoryOk (copyComplete s c id) := by
  unfold copyComplete
  split
  · exact h
  · refine .ite h (.ite h.finishCopy ?_)
    split
    · exact h.finishCopy
    · split
      · exact (h.storeFlag.of_eq ‹_›).finishCopy
      · exact (h.storeFlag.of_eq ‹_›).modCopy
      · exact (h.storeFlag.of_eq ‹_›).finishCopy

protected theorem MemoryOk.execCopyUnit (h : MemoryOk s) : OutOk (execCopyUnit s) := .ite h.copyUnit trivial

protected theorem MemoryOk.execCopyCompletion (h : MemoryOk s) : OutOk (execCopyCompletion s) :=
  .ite h.copyComplete trivial

protected theorem MemoryOk.amoBody {dw aq rl : Bool} {a : SSrc} {send : Nat → State → State} (h : MemoryOk s)
    (hf : ∀ i t, MemoryOk t → MemoryOk (send i t)) : ActOk (amoBody dw aq rl a send s) := by
  unfold amoBody
  dsimp only
  split
  · exact h
  · exact .ite trivial (MemoryOk.ite (hf _ _ h).acquireHold (hf _ _ h))

protected theorem MemoryOk.execFence {c : Cond} {scope : Scope} {set : BitVec 4} (h : MemoryOk s) :
    OutOk (execFence c scope set s) := h.issue fun _ h => .ite h (MemoryOk.ite h.addHold.modMe h.addHold)

protected theorem MemoryOk.syncWrite {p off n v : Nat} (h : MemoryOk s) : MemoryOk (syncWrite s p off n v) :=
  memoryOk_modPart _ _ _ h (wf_foldl _ (fun _ _ hm => wf_cset _ _ _ hm) _ _ (h.sync p))

protected theorem MemoryOk.seDo {r : SeReq} (h : MemoryOk s) : MemoryOk (seDo s r).1 := by
  unfold seDo
  dsimp only
  split
  · exact h
  · exact h.syncWrite
  · exact h.syncWrite
  · exact h.syncWrite
  · exact h.syncWrite

protected theorem MemoryOk.seAccess {e id : Nat} (h : MemoryOk s) : MemoryOk (seAccess s e id) := by
  unfold seAccess
  dsimp only
  split
  · exact h
  · refine .ite ?_ h
    split
    · exact h.congr.seDo
    · exact h.congr.seDo.fulfil

protected theorem MemoryOk.execSeAccess (h : MemoryOk s) : OutOk (execSeAccess s) := .ite h.seAccess trivial

protected theorem MemoryOk.postedArrive {id : Nat} (h : MemoryOk s) : MemoryOk (postedArrive s id) := by
  unfold postedArrive
  dsimp only
  split
  · exact h
  · exact .ite (.ite h.congr.writePlaces h.congr.logRecord) h

protected theorem MemoryOk.performOldest {c n : Nat} (h : MemoryOk s) : MemoryOk (performOldest s c n) := by
  unfold performOldest
  dsimp only
  split
  · exact h
  · exact h.writePlaces.sendPeerStores.modCtx

protected theorem MemoryOk.overflowPerform {c n : Nat} (h : MemoryOk s) : MemoryOk (overflowPerform s c n) :=
  .ite h h.performOldest

protected theorem MemoryOk.execPrivateOverflowPerform (h : MemoryOk s) : OutOk (execPrivateOverflowPerform s) :=
  .ite h.overflowPerform trivial

end Sys2Proof.Machine
end

section
/-! SUPPORT. The retrieval unit (09). A bucket operation runs in a monad over the lines it has written and the state;
its lemmas speak of `RuKeeps`. -/

namespace Sys2Proof.Machine

set_option Elab.async false

variable {s : State}

protected theorem MemoryOk.crossing {c : Nat} {ps : List Place} (h : MemoryOk s) : MemoryOk (crossing s c ps) :=
  .ite h.wait h

protected theorem MemoryOk.writePages {c priv : Nat} {l : List Nat} (h : MemoryOk s) :
    MemoryOk (writePages c priv l s).1 := by
  induction l generalizing s with
  | nil => exact h
  | cons p r ih => exact ih h.translate

protected theorem MemoryOk.writeHome {k c : Nat} {m : RCmd} {out : List (Place × Byte)} (h : MemoryOk s) :
    MemoryOk (writeHome s k c m out) := by
  unfold writeHome
  dsimp only
  exact h.homeWrite.crossing.congr

protected theorem MemoryOk.writeBack {k c : Nat} {m : RCmd} {l : Lines} (h : MemoryOk s) :
    MemoryOk (writeBack s k c m l).1 := h.writePages.writeHome.foldl fun _ _ h => h.logRecord

protected theorem MemoryOk.trimCache {w : RuWho} (h : MemoryOk s) : MemoryOk (trimCache s w) := by
  unfold trimCache
  exact .ite h h.writeBack.modCluster

/-- A bucket operation keeps the form of every memory, whatever it answers (09 R244, R259). -/
def RuKeeps {α : Type} (m : RuM α) : Prop := ∀ (st : Lines) (s : State), MemoryOk s → MemoryOk (m st s).2

protected theorem RuKeeps.of_eq {α : Type} {m : RuM α} {st : Lines} {t : State} {answer : Except EFail (α × Lines)}
    (hm : RuKeeps m) (h : MemoryOk s) (e : m st s = (answer, t)) : MemoryOk t := by
  have kept := hm st s h
  rw [e] at kept
  exact kept

protected theorem RuKeeps.pure {α : Type} (a : α) : RuKeeps (pure a) := fun _ _ h => h

protected theorem RuKeeps.bind {α β : Type} {m : RuM α} {f : α → RuM β} (hm : RuKeeps m) (hf : ∀ a, RuKeeps (f a)) :
    RuKeeps (m >>= f) := by
  intro st s h
  simp only [Bind.bind, StateT.bind, ExceptT.bind, ExceptT.mk, ExceptT.bindCont]
  rcases e : m st s with ⟨answer, t⟩
  cases answer with
  | ok r => exact hf r.1 r.2 t (hm.of_eq h e)
  | error x => exact hm.of_eq h e

protected theorem RuKeeps.ite {α : Type} {c : Prop} [Decidable c] {m m' : RuM α} (h : RuKeeps m) (h' : RuKeeps m') :
    RuKeeps (if c then m else m') := by
  split
  · exact h
  · exact h'

protected theorem MemoryOk.ruRun {α : Type} {w : RuWho} {m : RuM α} (h : MemoryOk s) (hm : RuKeeps m) :
    MemoryOk (ruRun s w m).1 := by
  unfold ruRun
  split
  · rename_i e
    dsimp only
    exact (hm.of_eq h e).modCluster.trimCache
  · rename_i e
    exact hm.of_eq h e

protected theorem RuKeeps.ruRead {w : RuWho} {a n : Nat} : RuKeeps (ruRead w a n) := by
  intro st s h
  unfold ruRead
  split
  · exact (h.tablePlaces.of_eq ‹_›).crossing.touch
  · exact h.tablePlaces.of_eq ‹_›

protected theorem RuKeeps.ruWrite {w : RuWho} {a n v : Nat} : RuKeeps (ruWrite w a n v) := by
  intro st s h
  unfold ruWrite
  split <;> exact h.tablePlaces.of_eq ‹_›

protected theorem RuKeeps.ruChain {w : RuWho} {n link : Nat} : RuKeeps (ruChain w n link) := by
  induction n generalizing link with
  | zero => exact .pure _
  | succ n ih => exact .ite (.pure _) (.bind .ruRead fun _ => .bind ih fun _ => .pure _)

protected theorem RuKeeps.ruBucket {w : RuWho} {t b : Nat} : RuKeeps (ruBucket w t b) :=
  .bind .ruRead fun _ => .bind .ruChain fun _ => .pure _

protected theorem RuKeeps.takeBlock {w : RuWho} : RuKeeps (takeBlock w) :=
  .bind .ruRead fun _ => .ite (.bind .ruRead fun _ => .bind .ruWrite fun _ => .pure _)
    (.ite (.bind .ruWrite fun _ => .pure _) (.pure _))

protected theorem RuKeeps.giveBlock {w : RuWho} {i : Nat} : RuKeeps (giveBlock w i) :=
  .bind .ruRead fun _ => .bind .ruWrite fun _ => .ruWrite

protected theorem RuKeeps.writeBlocks {w : RuWho} {l ents : List Nat} : RuKeeps (writeBlocks w l ents) := by
  induction l generalizing ents with
  | nil => exact .pure _
  | cons i r ih => exact .bind .ruWrite fun _ => ih

protected theorem RuKeeps.giveBlocks {w : RuWho} {l : List Nat} : RuKeeps (giveBlocks w l) := by
  induction l with
  | nil => exact .pure _
  | cons i r ih => exact .bind .giveBlock fun _ => ih

protected theorem RuKeeps.writeBucket {w : RuWho} {t b n : Nat} {k : Bucket} : RuKeeps (writeBucket w t b k n) :=
  .bind .giveBlocks fun _ => .bind .writeBlocks fun _ => .ruWrite

protected theorem RuKeeps.setHome {w : RuWho} {r t v : Nat} : RuKeeps (setHome w r t v) := .ruWrite

protected theorem RuKeeps.ruInsert {w : RuWho} {t b r : Nat} : RuKeeps (ruInsert w t b r) := by
  refine .bind .ruBucket fun k => .ite (.pure _) (.ite (.bind .writeBucket fun _ => .bind .setHome fun _ => .pure _) ?_)
  split
  · exact .bind .setHome fun _ => .bind .writeBucket fun _ => .bind .setHome fun _ => .pure _
  · refine .ite (.bind .writeBucket fun _ => .bind .setHome fun _ => .pure _) (.bind .takeBlock fun block => ?_)
    cases block with
    | some i => exact .bind .writeBucket fun _ => .bind .setHome fun _ => .pure _
    | none => exact .bind .setHome fun _ => .pure _
  · exact .bind .setHome fun _ => .pure _

protected theorem RuKeeps.ruRemove {w : RuWho} {t b r : Nat} : RuKeeps (ruRemove w t b r) :=
  .bind .ruBucket fun _ => .ite .writeBucket (.pure _)

protected theorem RuKeeps.ruRemoveHome {w : RuWho} {t r : Nat} : RuKeeps (ruRemoveHome w t r) :=
  .bind .ruRead fun _ => .ite (.pure _) .ruRemove

protected theorem RuKeeps.unhashFrom {w : RuWho} {r : Nat} {l : List Nat} : RuKeeps (unhashFrom w r l) := by
  induction l with
  | nil => exact .pure _
  | cons t ts ih => exact .bind .setHome fun _ => ih

protected theorem RuKeeps.ruWork {w : RuWho} {x : RWork} : RuKeeps (ruWork w x) := by
  cases x with
  | insert t b r => exact .ruInsert
  | remove t b r => exact .bind .ruRemove fun _ => .pure _
  | removeHome t r => exact .bind .ruRemoveHome fun _ => .pure _
  | unhash r => exact .bind .unhashFrom fun _ => .pure _

protected theorem RuKeeps.ruHomes {w : RuWho} {r : Nat} {l : List Nat} : RuKeeps (ruHomes w r l) := by
  induction l with
  | nil => exact .pure _
  | cons t ts ih => exact .bind .ruRead fun _ => .bind ih fun _ => .pure _

protected theorem RuKeeps.ruHits {w : RuWho} {l : List (Nat × Nat)} : RuKeeps (ruHits w l) := by
  induction l with
  | nil => exact .pure _
  | cons e r ih => exact .bind .ruBucket fun _ => .bind ih fun _ => .pure _

protected theorem RuKeeps.ruFree {w : RuWho} {n link : Nat} : RuKeeps (ruFree w n link) := by
  induction n generalizing link with
  | zero => exact .pure _
  | succ n ih => exact .ite (.pure _) (.bind .ruRead fun _ => .bind ih fun _ => .pure _)

protected theorem RuKeeps.ruInUse {w : RuWho} : RuKeeps (ruInUse w) :=
  .ite (.pure _) (.bind .ruRead fun _ => .bind .ruFree fun _ => .pure _)

protected theorem MemoryOk.readVec {q : Issuer} {a n i : Nat} (h : MemoryOk s) : MemoryOk (readVec q a n i s).1 := by
  induction n generalizing s i with
  | zero => exact h
  | succ n ih =>
    unfold readVec
    dsimp only
    split
    · exact h
    · split
      · exact h.unitEl.of_eq ‹_›
      · have h₁ := h.unitEl.of_eq ‹_›
        split
        · exact (ih h₁.touchEls.settleEls.crossing).of_eq ‹_›
        · exact (ih h₁.touchEls.settleEls.crossing).of_eq ‹_›

protected theorem MemoryOk.modDesc {k hf : Nat} {f : RDesc → RDesc} (h : MemoryOk s) : MemoryOk (modDesc s k hf f) :=
  h.modCluster

protected theorem MemoryOk.countRejects {k hf n : Nat} (h : MemoryOk s) : MemoryOk (countRejects s k hf n) := h.modDesc

protected theorem MemoryOk.addCount {k hf : Nat} {c : RCount} (h : MemoryOk s) : MemoryOk (addCount s k hf c) :=
  h.modDesc

protected theorem MemoryOk.ruRecord {c status addr extra : Nat} {m : RCmd} (h : MemoryOk s) :
    MemoryOk (ruRecord s c m status addr extra) := h.logRecord

protected theorem MemoryOk.dirtyWords {w : RuWho} {n i seen : Nat} (h : MemoryOk s) :
    MemoryOk (dirtyWords w n i seen s).1 := by
  induction n generalizing s i seen with
  | zero => exact h
  | succ n ih =>
    unfold dirtyWords
    dsimp only
    split
    · exact h
    · split
      · exact h.tableRead.of_eq ‹_›
      · have read := h.tableRead.of_eq ‹_›
        split
        · exact read.tablePlaces.of_eq ‹_›
        · have placed := read.tablePlaces.of_eq ‹_›
          split
          · exact (ih placed.crossing).of_eq ‹_›
          · exact (ih placed.crossing).of_eq ‹_›

protected theorem MemoryOk.takeDirty {w : RuWho} (h : MemoryOk s) : MemoryOk (takeDirty w s).1 := by
  unfold takeDirty
  dsimp only
  refine .ite_fst h ?_
  split
  · exact h.dirtyWords.of_eq ‹_›
  · exact (h.dirtyWords.of_eq ‹_›).foldl fun _ _ h => .ite h h.atomicBits

protected theorem MemoryOk.beginRow {k c r : Nat} {d : RDesc} {m : RCmd} (h : MemoryOk s) :
    MemoryOk (beginRow s k c d m r).1 := by
  unfold beginRow
  dsimp only
  refine .ite_fst h.countRejects ?_
  split
  · exact (h.ruRun .ruHomes).of_eq ‹_›
  · have h₁ := (h.ruRun .ruHomes).of_eq ‹_›
    split <;> exact h₁.readVec.of_eq ‹_›

protected theorem MemoryOk.failCmd {c : Nat} {m : RCmd} {e : EFail} (h : MemoryOk s) :
    MemoryOk (failCmd s c m e).1 := by
  unfold failCmd
  dsimp only
  split
  · exact h.ruRecord.fulfil
  · exact h.ruRecord
  · exact h.ruRecord
  · exact h.ruRecord
  · exact h.ruRecord
  · exact h.ruRecord.fulfil
  · exact h.ruRecord

protected theorem MemoryOk.statValue {k c sel : Nat} {d : RDesc} {m : RCmd} (h : MemoryOk s) :
    MemoryOk (statValue s k c d m sel).1 := by
  unfold statValue
  split
  · exact h
  · exact h
  · exact h
  · exact h
  · exact h.ruRun .ruInUse
  · exact h

protected theorem MemoryOk.spillIds {c o : Nat} {ids : List Nat} (h : MemoryOk s) : MemoryOk (spillIds s c o ids) :=
  h.writeFull

protected theorem MemoryOk.beginOp {k c : Nat} {d : RDesc} {m : RCmd} (h : MemoryOk s) :
    MemoryOk (beginOp s k c d m).1 := by
  unfold beginOp
  dsimp only
  split
  · split
    · exact (h.readVec.of_eq ‹_›).failCmd
    · exact h.readVec.of_eq ‹_›
  · split
    · exact (h.readVec.of_eq ‹_›).failCmd
    · have h₁ := h.readVec.of_eq ‹_›
      split
      · exact ((h₁.ruRun .ruHits).of_eq ‹_›).failCmd
      · have h₂ := (h₁.ruRun .ruHits).of_eq ‹_›
        refine .ite_fst h₂.failCmd ?_
        split
        · exact h₂.fulfil
        · exact h₂.fulfil.spillIds
  · exact .ite_fst h.countRejects h
  · split
    · exact h
    · refine .ite_fst h.countRejects ?_
      split
      · exact (h.beginRow.of_eq ‹_›).failCmd
      · exact h.beginRow.of_eq ‹_›
  · split
    · exact h
    · split
      · exact (h.beginRow.of_eq ‹_›).failCmd
      · exact h.beginRow.of_eq ‹_›
  · split
    · exact (h.takeDirty.of_eq ‹_›).failCmd
    · exact h.takeDirty.of_eq ‹_›
  · exact h
  · split
    · exact (h.statValue.of_eq ‹_›).failCmd
    · exact MemoryOk.fulfil (.ite (h.statValue.of_eq ‹_›).modDesc (h.statValue.of_eq ‹_›))

protected theorem MemoryOk.beginFence {k c : Nat} {m : RCmd} {scope : Scope} {await : Nat} (h : MemoryOk s) :
    MemoryOk (beginFence s k c m scope await).1 := h.writeBack.modCluster

protected theorem MemoryOk.noteFailure {c r : Nat} {d : RDesc} {m : RCmd} (h : MemoryOk s) :
    MemoryOk (noteFailure s c d m r).1 := .ite_fst (.ite h.ruRecord.modCtx h.ruRecord) h.ruRecord

protected theorem MemoryOk.doWork {k c : Nat} {d : RDesc} {m : RCmd} {x : RWork} {rest : List RWork} (h : MemoryOk s) :
    MemoryOk (doWork s k c d m x rest).1 := by
  unfold doWork
  dsimp only
  split
  · exact ((h.ruRun .ruWork).of_eq ‹_›).failCmd
  · have h₁ := (h.ruRun .ruWork).of_eq ‹_›
    split
    · exact .ite_fst h₁.addCount h₁.addCount.noteFailure
    · exact h₁.addCount

protected theorem MemoryOk.pushEntry {c n f : Nat} {e : VWord} (h : MemoryOk s) : MemoryOk (pushEntry s c n f e) :=
  h.modBoth

protected theorem MemoryOk.cmdStep {k c : Nat} {m : RCmd} (h : MemoryOk s) : MemoryOk (cmdStep s k c m).1 := by
  unfold cmdStep
  split
  · exact .ite h.pushEntry h.ruRecord
  · split
    · exact .ite_fst h h.beginFence
    · split
      · exact h.failCmd
      · split
        · exact h.doWork
        · exact h.beginOp

protected theorem MemoryOk.setHead {c : Nat} {m : RCmd} (h : MemoryOk s) : MemoryOk (setHead s c m) := h.modCore

protected theorem MemoryOk.bucketOperation {k : Nat} (h : MemoryOk s) : MemoryOk (bucketOperation s k) := by
  unfold bucketOperation
  dsimp only
  refine .ite h ?_
  split
  · exact h
  · exact .ite h h.withWaited.cmdStep.withWaited.modCluster.setHead

protected theorem MemoryOk.fenceOver {c : Nat} {m : RCmd} {rest : List RCmd} (h : MemoryOk s) :
    MemoryOk (fenceOver s c m rest) := by
  unfold fenceOver
  split
  · split
    · extract_lets s₁ k s₂
      have h₂ : MemoryOk s₂ := MemoryOk.congr (s := s₁) h.modCore
      split
      · exact h₂.answer
      · exact h₂
    · exact h
  · exact h

protected theorem MemoryOk.fenceAck {c j : Nat} (h : MemoryOk s) : MemoryOk (fenceAck s c j) := by
  unfold fenceAck
  dsimp only
  split
  · split
    · exact .ite (MemoryOk.fenceOver (MemoryOk.modCore (.ite h h))) h
    · exact h
  · exact h

protected theorem MemoryOk.execRetrievalBucketOperation (h : MemoryOk s) : OutOk (execRetrievalBucketOperation s) :=
  .ite h.bucketOperation trivial

protected theorem MemoryOk.execRfenceAck (h : MemoryOk s) : OutOk (execRfenceAck s) := .ite h.fenceAck trivial

protected theorem MemoryOk.poolTrap {body : State → Act} (h : MemoryOk s) (hf : ∀ t, MemoryOk t → ActOk (body t)) :
    ActOk (poolTrap s body) := .ite h.modMe (hf _ h)

protected theorem MemoryOk.pushCmd {n : Nat} {op : ROp} (h : MemoryOk s) : MemoryOk (pushCmd s n op) := by
  unfold pushCmd
  exact h.congr.modMyCore

protected theorem MemoryOk.ruBody {g : BitVec 4} {check : State → RDesc → Option Trap} {enter : State → Act}
    (h : MemoryOk s) (hf : ∀ t, MemoryOk t → ActOk (enter t)) : ActOk (ruBody g check enter s) := by
  unfold ruBody
  refine h.poolTrap fun _ h => ?_
  split
  · exact h
  · split
    · exact h
    · exact .ite trivial (hf _ h)

protected theorem MemoryOk.execRhashFifo {c : Cond} {g : BitVec 4} {f : FReg} (h : MemoryOk s) :
    OutOk (execRhashFifo c g f s) := by
  unfold execRhashFifo
  dsimp only
  refine h.issue fun _ h => h.ruBody (fun _ h => ?_)
  split
  · exact trivial
  · exact h.modRegs.pushCmd

protected theorem MemoryOk.execRfence {c : Cond} {scope : Scope} (h : MemoryOk s) : OutOk (execRfence c scope s) := by
  unfold execRfence
  refine h.issue fun _ h => .ite (h.request (fun _ _ h => h) (fun _ h => h)) ?_
  exact h.poolTrap fun _ h => .ite trivial (h.request (fun _ _ h => h.pushCmd) (fun _ h => h))

protected theorem MemoryOk.initBytes {k : Nat} {d : RDesc} {ps : List Place} {bs : List Byte} (h : MemoryOk s) :
    MemoryOk (initBytes s k d ps bs).1 := h.crossing.homeWrite.modCluster

protected theorem MemoryOk.initItem {k a n v : Nat} {d : RDesc} (h : MemoryOk s) :
    MemoryOk (initItem k d a n v s).1 := by
  unfold initItem
  split
  · have h₁ := h.tablePlaces.of_eq ‹_›
    split
    exact h₁.initBytes.of_eq ‹_›
  · have h₁ := h.tablePlaces.of_eq ‹_›
    refine .ite_fst ?_ h₁
    split
    · have h₂ := h₁.tablePlaces.of_eq ‹_›
      split
      exact h₂.initBytes.of_eq ‹_›
    · exact h₁.tablePlaces.of_eq ‹_›

protected theorem MemoryOk.initWrites {k : Nat} {d : RDesc} {l : List (Nat × Nat × Nat)} (h : MemoryOk s) :
    MemoryOk (initWrites k d l s).1 := by
  induction l generalizing s with
  | nil => exact h
  | cons e r ih =>
    unfold initWrites
    split
    · exact ih (h.initItem.of_eq ‹_›)
    · exact h.initItem.of_eq ‹_›

protected theorem MemoryOk.setDesc {k n : Nat} {d : Option RDesc} (h : MemoryOk s) : MemoryOk (setDesc s k n d) :=
  h.modCluster

protected theorem MemoryOk.initGo {n i : Nat} (h : MemoryOk s) : ActOk (initGo n i s) := by
  unfold initGo
  dsimp only
  split
  · exact h.modMe
  · refine .ite trivial ?_
    split
    · exact (MemoryOk.of_eq (p := (_, _)) h.withWaited.initWrites.withWaited ‹_›).modMe.setDesc.ctxRecord
    · have h₁ := MemoryOk.of_eq (p := (_, _)) h.withWaited.initWrites.withWaited ‹_›
      exact .ite h₁.modMe (.ite trivial h₁.modMe)

protected theorem MemoryOk.loadDesc {n addr v : Nat} {init : Bool} (h : MemoryOk s) :
    ActOk (loadDesc s n init addr v) := .ite h (.ite h.setDesc.initGo h.setDesc)

protected theorem MemoryOk.rtsetBody {g : BitVec 4} {a : SSrc} {init : Bool} (h : MemoryOk s) :
    ActOk (rtsetBody g a init s) := by
  unfold rtsetBody
  dsimp only
  split
  · exact h.initGo
  · refine h.poolTrap fun _ h => .ite trivial (.ite h (.ite h.ctxRecord ?_))
    split
    · exact (h.engineRead.of_eq ‹_›).ctxRecord
    · exact .ite trivial (h.engineRead.of_eq ‹_›).loadDesc

end Sys2Proof.Machine
end

section
/-! SUPPORT. Regions and rewards (10), stack stores, and the block queues (10). -/

namespace Sys2Proof.Machine

set_option Elab.async false

variable {s : State}

protected theorem MemoryOk.execTrate {c : Cond} {k : BitVec 4} {a : SSrc} (h : MemoryOk s) :
    OutOk (execTrate c k a s) := by
  unfold execTrate
  refine h.issue fun _ h => ?_
  split
  · exact h
  · refine .ite h ?_
    split
    exact h.modMyCore.tflag

protected theorem MemoryOk.defineRegion {reg : Nat} {r : Option Region} (h : MemoryOk s) :
    MemoryOk (defineRegion s reg r) := h.modMyCore

protected theorem MemoryOk.clearRegion {c : Nat} {r : Region} (h : MemoryOk s) : MemoryOk (clearRegion s c r) :=
  h.foldl fun _ _ h => h.writePoolN.foldRow

protected theorem MemoryOk.tregBody {reg : BitVec 4} {a : SSrc} {init : Bool} (h : MemoryOk s) :
    ActOk (tregBody reg a init s) := by
  unfold tregBody
  dsimp only
  refine .ite trivial ?_
  split
  · exact .ite h (.ite h (.ite h (.ite h.clearRegion.defineRegion h.defineRegion)))
  · exact h

protected theorem MemoryOk.execTregX {c : Cond} {n : BitVec 4} (h : MemoryOk s) : OutOk (execTregX c n s) :=
  h.issue fun _ h => .ite trivial (.ite h h.defineRegion)

protected theorem MemoryOk.pushTrace {op : TOp} {k : State → Act} (h : MemoryOk s)
    (hf : ∀ t, MemoryOk t → ActOk (k t)) : ActOk (pushTrace s op k) := by
  unfold pushTrace
  exact .ite trivial (hf _ h.congr.modMyCore)

protected theorem MemoryOk.regionCommand {n : BitVec 4} {a : SSrc} {nr nc : Nat} {k : Nat → Nat → Act} (h : MemoryOk s)
    (hf : ∀ i j, ActOk (k i j)) : ActOk (regionCommand s n a nr nc k) := by
  unfold regionCommand
  dsimp only
  split
  · exact h
  · exact .ite h (hf _ _)

protected theorem MemoryOk.execTstep {c : Cond} {n : BitVec 4} (h : MemoryOk s) : OutOk (execTstep c n s) := by
  unfold execTstep
  refine h.issue fun _ h => ?_
  split
  · exact h
  · exact h.pushTrace fun _ h => h

protected theorem MemoryOk.execTrd {c : Cond} {d : VReg} {n : BitVec 4} {a : SSrc} {nc1 : BitVec 6} (h : MemoryOk s) :
    OutOk (execTrd c d n a nc1 s) := by
  unfold execTrd
  refine h.issue fun _ h => .ite (h.request (fun _ _ h => h) (fun _ h => h)) ?_
  exact h.regionCommand fun _ _ => .ite trivial (h.request (fun _ _ h => h.congr.modMyCore) (fun _ h => h))

protected theorem MemoryOk.pushBeat {item : BeatItem} (h : MemoryOk s) : MemoryOk (pushBeat s item) := by
  unfold pushBeat
  dsimp only
  exact h.congr.modLayer

protected theorem MemoryOk.rwdBody {a b : SSrc} {clear : Bool} (h : MemoryOk s) : ActOk (rwdBody a b clear s) :=
  .ite trivial h.pushBeat

protected theorem MemoryOk.execRwdw {c : Cond} {a : SSrc} (h : MemoryOk s) : OutOk (execRwdw c a s) :=
  h.issue fun _ h => .ite h trivial

protected theorem MemoryOk.sweepMany {c n : Nat} (h : MemoryOk s) : MemoryOk (sweepMany s c n) := by
  induction n generalizing s with
  | zero => exact h
  | succ n ih => exact ih h.sweepNext

protected theorem MemoryOk.settleUnit {c sel : Nat} (h : MemoryOk s) : MemoryOk (settleUnit s c sel) :=
  .ite h.settleCmds (.ite h.settleCmds.sweepMany h)

protected theorem MemoryOk.trhzRead {c sel k : Nat} {clr : Bool} (h : MemoryOk s) :
    MemoryOk (trhzRead s c sel k clr).1 := .ite h.settleUnit (.ite h.settleUnit.modCore h.settleUnit.modCore)

protected theorem MemoryOk.execTrhz {c : Cond} {clr : Bool} {d : SReg} {sel : BitVec 3} {k : BitVec 4}
    (h : MemoryOk s) : OutOk (execTrhz c clr d sel k s) := by
  unfold execTrhz
  dsimp only
  refine h.issue fun _ h => .ite h (.ite ?_ (.ite h (.ite h.produce h.trhzRead.produceVal)))
  split
  · exact h.produce
  · exact h.produceVal

protected theorem MemoryOk.traceStep {f : State → Nat → State} (h : MemoryOk s)
    (hf : ∀ t i, MemoryOk t → MemoryOk (f t i)) : OutOk (traceStep s f) := .ite (MemoryOk.ite h (hf _ _ h)) trivial

protected theorem MemoryOk.execTraceCommandApply (h : MemoryOk s) : OutOk (execTraceCommandApply s) := by
  unfold execTraceCommandApply
  refine h.traceStep fun _ _ h => ?_
  split
  · exact h.applyItem
  · exact h

protected theorem MemoryOk.execSts {c : Cond} {sz : Size} {a b : SSrc} {disp : Imm} (h : MemoryOk s) :
    OutOk (execSts c sz a disp b s) := by
  unfold execSts
  dsimp only
  refine h.issueWith fun _ h => ?_
  split
  · exact .ite h (.ite trivial h.pushBeat)
  · exact h

protected theorem MemoryOk.execStsb {c : Cond} {a b : SSrc} {len1 : BitVec 7} (h : MemoryOk s) :
    OutOk (execStsb c a b len1 s) := by
  unfold execStsb
  dsimp only
  refine h.issueWith fun _ h => ?_
  split
  · exact .ite h (.ite h (.ite trivial h.pushBeat))
  · exact h
  · exact h

protected theorem MemoryOk.execSwait {c : Cond} {a : SSrc} (h : MemoryOk s) : OutOk (execSwait c a s) :=
  h.issue fun _ h => .ite h trivial

protected theorem MemoryOk.execSwaitOwn {c : Cond} (h : MemoryOk s) : OutOk (execSwaitOwn c s) :=
  h.issue fun _ h => .ite trivial h

protected theorem MemoryOk.execWdset {c : Cond} {w : BitVec 3} {a : SSrc} (h : MemoryOk s) :
    OutOk (execWdset c w a s) := h.issue fun _ h => .ite h.modRegs h

protected theorem MemoryOk.slotCheck {q : Issuer} {reads writes : List Nat} (h : MemoryOk s) :
    MemoryOk (slotCheck s q reads writes).1 := by
  unfold slotCheck
  dsimp only
  split
  · exact h
  · split <;> exact h.transPieces.transPieces

protected theorem MemoryOk.readSlot {c priv a : Nat} (h : MemoryOk s) : MemoryOk (readSlot s c priv a).1 := by
  unfold readSlot
  split <;> exact h.engineRead.of_eq ‹_›

protected theorem MemoryOk.writeSlot {c priv a : Nat} {bs : List Byte} (h : MemoryOk s) :
    MemoryOk (writeSlot s c priv a bs) := by
  unfold writeSlot
  split
  · exact (h.enginePlaces.of_eq ‹_›).homeWrite
  · exact h.enginePlaces.of_eq ‹_›

protected theorem MemoryOk.execBqpop {c : Cond} {d : SReg} {n : BitVec 4} (h : MemoryOk s) :
    OutOk (execBqpop c d n s) := by
  unfold execBqpop
  dsimp only
  refine h.issue fun _ h => .ite h ?_
  split
  · exact h.modBq.setS
  · exact .ite trivial h.setS

protected theorem MemoryOk.closeQueue {n : Nat} (h : MemoryOk s) : MemoryOk (closeQueue s n) := h.modBq

protected theorem MemoryOk.execBqdone {c : Cond} {n : BitVec 4} (h : MemoryOk s) : OutOk (execBqdone c n s) :=
  h.issue fun _ h => .ite h (MemoryOk.ite h.produce h.closeQueue)

protected theorem MemoryOk.slotLost {a extra : Nat} (h : MemoryOk s) : MemoryOk (slotLost s a extra) := h.ctxRecord

protected theorem MemoryOk.bredWritten {lo : Nat} (h : MemoryOk s) : ActOk (bredWritten lo s) := .ite h.modMe h

protected theorem MemoryOk.bredWaits {lo : Nat} (h : MemoryOk s) : ActOk (bredWaits lo s) := .ite trivial h.modMe

protected theorem MemoryOk.execBred {c : Cond} {op : BredOp} {t : ElemT} {d : SReg} {a b : SSrc} (h : MemoryOk s) :
    OutOk (execBred c op t d a b s) := by
  unfold execBred
  dsimp only
  refine h.issueWith fun _ h => ?_
  split
  · exact h.bredWaits
  · split
    · exact h
    · split
      · exact h.slotCheck.of_eq ‹_›
      · exact h.slotCheck.of_eq ‹_›
      · have h₂ := h.slotCheck.of_eq ‹_›
        split
        · exact (h₂.readSlot.of_eq ‹_›).slotLost
        · have h₃ := h₂.readSlot.of_eq ‹_›
          split
          · exact (h₃.readSlot.of_eq ‹_›).slotLost
          · exact (h₃.readSlot.of_eq ‹_›).writeSlot.raise.bredWritten

protected theorem MemoryOk.landBlock {n index flag : Nat} {data : List Byte} (h : MemoryOk s) :
    MemoryOk (landBlock s n index data flag).1 := by
  unfold landBlock
  dsimp only
  refine .ite_fst h (.ite_fst h ?_)
  split
  · exact h.partRange.of_eq ‹_›
  · exact (h.partRange.of_eq ‹_›).partWrite.modBq

protected theorem MemoryOk.blockRecord {n status index : Nat} (h : MemoryOk s) :
    MemoryOk (blockRecord s n status index) := h.sysRecord

protected theorem MemoryOk.sendBlock {dst n index flag : Nat} {data : List Byte} (h : MemoryOk s) :
    MemoryOk (sendBlock s dst n index flag data) := by
  unfold sendBlock
  dsimp only
  refine .ite ?_ (.ite h.ctxRecord h.sendPacket)
  split
  · exact h.landBlock.of_eq ‹_›
  · exact (h.landBlock.of_eq ‹_›).blockRecord.ctxRecord

protected theorem MemoryOk.sendSlot {f : Fmt} {priv xa v index : Nat} (h : MemoryOk s) :
    MemoryOk (sendSlot s f priv xa v index) := by
  unfold sendSlot
  dsimp only
  split
  · exact (h.readSlot.of_eq ‹_›).slotLost
  · exact (h.readSlot.of_eq ‹_›).sendBlock

protected theorem MemoryOk.execBsend {c : Cond} {t : ElemT} {a b cc : SSrc} (h : MemoryOk s) :
    OutOk (execBsend c t a b cc s) := by
  unfold execBsend
  dsimp only
  refine h.issue fun _ h => ?_
  split
  · exact h
  · refine .ite h ?_
    split
    · exact h.slotCheck.of_eq ‹_›
    · exact h.slotCheck.of_eq ‹_›
    · exact .ite (h.slotCheck.of_eq ‹_›).produce (.ite trivial (h.slotCheck.of_eq ‹_›).sendSlot)

end Sys2Proof.Machine
end

section
/-! SUPPORT. Scalar arithmetic and RDSPEC (07), gangs and barriers, events (02), and the launch of jobs (17). -/

namespace Sys2Proof.Machine

set_option Elab.async false

variable {s : State}

protected theorem MemoryOk.alu {i32 : Bool} {d : SReg} {a : SSrc} {b : OpB} {f g : Word → Word → Word}
    (h : MemoryOk s) : ActOk (alu s i32 d a b f g) := h.setS

protected theorem MemoryOk.execRdspec {c : Cond} {d : SReg} {sel : BitVec 8} (h : MemoryOk s) :
    OutOk (execRdspec c d sel s) := by
  unfold execRdspec
  refine h.issue fun _ h => ?_
  split
  · exact h.setS
  · exact h

protected theorem MemoryOk.modGang {p id : Nat} {f : Gang → Gang} (h : MemoryOk s) : MemoryOk (modGang s p id f) :=
  h.modPart

protected theorem MemoryOk.signalPhase {p id tag : Nat} (h : MemoryOk s) : MemoryOk (signalPhase s p id tag) := by
  unfold signalPhase
  dsimp only
  split
  · exact h
  · exact .ite h (.ite h.modGang (.ite h.modGang.laterCycles h.modGang.congr))

protected theorem MemoryOk.signalAll {p id : Nat} (h : MemoryOk s) : MemoryOk (signalAll s p id) := by
  unfold signalAll
  split
  · exact h
  · exact h.foldl fun _ _ h => h.signalPhase

protected theorem MemoryOk.sendBody {ev : Event} {payload : List Word} (h : MemoryOk s) :
    ActOk (sendBody s ev payload) := .ite trivial (h.request (fun _ _ h => h.launchEvent) (fun _ h => h))

protected theorem MemoryOk.execSendp {c : Cond} {desc : SReg} {dest arg0 arg1 : SSrc} {chan : BitVec 6}
    (h : MemoryOk s) : OutOk (execSendp c desc dest arg0 arg1 chan s) := h.issue fun _ h => .ite h (.ite h h.sendBody)

protected theorem MemoryOk.modChan {c n : Nat} {f : Chan → Chan} (h : MemoryOk s) : MemoryOk (modChan s c n f) :=
  h.modCore

protected theorem MemoryOk.arriveAt {c n tag : Nat} (h : MemoryOk s) : MemoryOk (arriveAt s c n tag) := by
  unfold arriveAt
  dsimp only
  split
  · exact h
  · exact h.modGang.signalPhase

protected theorem MemoryOk.execBara {c : Cond} {tag : BitVec 3} (h : MemoryOk s) : OutOk (execBara c tag s) := by
  unfold execBara
  refine h.issue fun _ h => ?_
  split
  · exact h
  · exact .ite trivial (.ite h.takeTurn (.ite trivial h.arriveAt))

protected theorem MemoryOk.execBarw {c : Cond} {tag : BitVec 3} (h : MemoryOk s) : OutOk (execBarw c tag s) := by
  unfold execBarw
  refine h.issue fun _ h => ?_
  split
  · exact h
  · exact .ite trivial h

protected theorem MemoryOk.pushRange {r : RangeReq} (h : MemoryOk s) : MemoryOk (pushRange s r) := h.modStratum

protected theorem MemoryOk.execGrab {c : Cond} {d : SReg} {range : Sel6} (h : MemoryOk s) :
    OutOk (execGrab c d range s) := h.issue fun _ h => .ite h h.produce.pushRange

protected theorem MemoryOk.signalFlow {c job flow ctr : Nat} (h : MemoryOk s) :
    MemoryOk (signalFlow s c job flow ctr) := h.modPart

protected theorem MemoryOk.execFlowsig {c : Cond} {ctr : BitVec 6} (h : MemoryOk s) : OutOk (execFlowsig c ctr s) := by
  unfold execFlowsig
  dsimp only
  refine h.issue fun _ h => ?_
  split
  · exact h
  · exact .ite h (.ite h.takeTurn (.ite trivial h.signalFlow))

protected theorem MemoryOk.modRing {c n : Nat} {f : Ring → Ring} (h : MemoryOk s) : MemoryOk (modRing s c n f) :=
  h.modCore

protected theorem MemoryOk.freeLanding {c chan id : Nat} (h : MemoryOk s) : MemoryOk (freeLanding s c chan id) :=
  h.modRing

protected theorem MemoryOk.landPayload {c off : Nat} {ws : List Word} (h : MemoryOk s) :
    MemoryOk (landPayload s c off ws) := h.writeFull

protected theorem MemoryOk.answerSend {t : Transit} (h : MemoryOk s) : MemoryOk (answerSend s t) := by
  unfold answerSend
  split
  · exact h
  · exact h.modCtx

protected theorem MemoryOk.endForward {t : Transit} (h : MemoryOk s) : MemoryOk (endForward s t) := .ite h.modPart h

protected theorem MemoryOk.dropTransit {id : Nat} (h : MemoryOk s) : MemoryOk (dropTransit s id) := h

protected theorem MemoryOk.acceptEvent {c off : Nat} {t : Transit} (h : MemoryOk s) :
    MemoryOk (acceptEvent s c t off) := by
  unfold acceptEvent
  dsimp only
  refine .ite ?_ h.dropTransit.answerSend.endForward.modCore.endWfi
  exact h.dropTransit.answerSend.endForward.modRing.landPayload.modCore.endWfi

protected theorem MemoryOk.undeliverable {t : Transit} (h : MemoryOk s) : MemoryOk (undeliverable s t) := by
  unfold undeliverable
  dsimp only
  exact .ite h.answerSend.endForward.dropTransit.sysRecord h.answerSend.endForward.congr

protected theorem MemoryOk.lostReturn {c : Nat} {t : Transit} (h : MemoryOk s) : MemoryOk (lostReturn s c t) :=
  h.dropTransit.logRecord

protected theorem MemoryOk.setWaiting {id : Nat} (h : MemoryOk s) : MemoryOk (setWaiting s id) := h

protected theorem MemoryOk.tryAccept {t : Transit} (h : MemoryOk s) : MemoryOk (tryAccept s t) := by
  unfold tryAccept
  dsimp only
  refine .ite h (.ite (.ite h.lostReturn h.undeliverable) ?_)
  split
  · exact h.acceptEvent
  · exact h.setWaiting

protected theorem MemoryOk.execEventArrival (h : MemoryOk s) : OutOk (execEventArrival s) := by
  unfold execEventArrival
  split
  · exact MemoryOk.ite h h.tryAccept
  · exact h

protected theorem MemoryOk.execSendAcceptance (h : MemoryOk s) : OutOk (execSendAcceptance s) := by
  unfold execSendAcceptance
  split
  · exact MemoryOk.ite h.tryAccept h
  · exact h

protected theorem MemoryOk.execUndeliverableReturn (h : MemoryOk s) : OutOk (execUndeliverableReturn s) := by
  unfold execUndeliverableReturn
  split
  · exact MemoryOk.ite h.tryAccept h
  · exact h

protected theorem MemoryOk.bindEvent {c : Nat} (h : MemoryOk s) : MemoryOk (bindEvent s c) := by
  unfold bindEvent
  dsimp only
  refine .ite h ?_
  split
  · split
    · exact h.modCore.startCtx
    · exact h
  · exact h

protected theorem MemoryOk.execEventBind (h : MemoryOk s) : OutOk (execEventBind s) := .ite h.bindEvent trivial

protected theorem MemoryOk.returnHeld {c n : Nat} (h : MemoryOk s) : MemoryOk (returnHeld s c n) := by
  unfold returnHeld
  dsimp only
  refine h.modCore.foldl fun _ _ h => .ite (MemoryOk.congr ?_) (MemoryOk.undeliverable (MemoryOk.congr ?_))
  · split
    · exact h.freeLanding
    · exact h
  · split
    · exact h.freeLanding
    · exact h

protected theorem MemoryOk.launchRead {p a n : Nat} (h : MemoryOk s) : MemoryOk (launchRead s p a n).1 := by
  unfold launchRead
  split
  · exact h.partRange.of_eq ‹_›
  · exact .ite_fst (h.partRange.of_eq ‹_›).noteBad (h.partRange.of_eq ‹_›).noteFar

protected theorem MemoryOk.forwardEvent {p : Nat} (h : MemoryOk s) : MemoryOk (forwardEvent s p) := by
  unfold forwardEvent
  extract_lets q s₁
  split
  · split
    · exact h
    · extract_lets at'
      have h₁ : MemoryOk s₁ := h.modPart
      split
      · exact (h₁.launchRead.of_eq ‹_›).sysRecord
      · have h₂ := h₁.launchRead.of_eq ‹_›
        extract_lets e
        split
        · exact h₂.sysRecord
        · exact h₂.launchEvent.modPart
  · exact h

protected theorem MemoryOk.partStep {f : State → Nat → State} (h : MemoryOk s)
    (hf : ∀ t i, MemoryOk t → MemoryOk (f t i)) : OutOk (partStep s f) := .ite (hf _ _ h) trivial

protected theorem MemoryOk.execEvtailWrite (h : MemoryOk s) : OutOk (execEvtailWrite s) :=
  h.partStep fun _ _ h => h.evtailWrite

protected theorem MemoryOk.modJob {p id : Nat} {f : Job → Job} (h : MemoryOk s) : MemoryOk (modJob s p id f) :=
  h.modPart

protected theorem MemoryOk.modFlow {p id n : Nat} {f : JobFlow → JobFlow} (h : MemoryOk s) :
    MemoryOk (modFlow s p id n f) := h.modJob

protected theorem MemoryOk.readCtrs {p a n : Nat} (h : MemoryOk s) : MemoryOk (readCtrs p a n s).1 := by
  unfold readCtrs
  split
  · exact h
  · split <;> exact h.launchRead.of_eq ‹_›

protected theorem MemoryOk.readGangs {p nctr : Nat} {l : List Nat} (h : MemoryOk s) :
    MemoryOk (readGangs p nctr l s).1 := by
  induction l generalizing s with
  | nil => exact h
  | cons a r ih =>
    unfold readGangs
    dsimp only
    refine ih ?_
    split
    · exact h.launchRead.of_eq ‹_›
    · exact h.launchRead.of_eq ‹_›

protected theorem MemoryOk.reportGang {p addr : Nat} {r : Reason} (h : MemoryOk s) : MemoryOk (reportGang s p addr r) :=
  h.sysRecord

protected theorem MemoryOk.admitFlow {p a : Nat} {entry : Option Reason} (h : MemoryOk s) :
    MemoryOk (admitFlow s p a entry).1 := by
  unfold admitFlow
  dsimp only
  split
  · exact (h.launchRead.of_eq ‹_›).reportGang
  · have h₁ := h.launchRead.of_eq ‹_›
    split
    · exact h₁.readCtrs.foldl fun _ _ h => h.reportGang
    · exact .ite_fst (h₁.readCtrs.readGangs.foldl (fun _ _ h => h.reportGang)) h₁.readCtrs.readGangs

protected theorem MemoryOk.admitFlows {p base : Nat} {entry : Option Reason} {l : List Nat} (h : MemoryOk s) :
    MemoryOk (admitFlows p base entry l s).1 := by
  induction l generalizing s with
  | nil => exact h
  | cons i r ih => exact ih h.admitFlow

protected theorem MemoryOk.checkJob {p id : Nat} (h : MemoryOk s) : MemoryOk (checkJob s p id) := by
  unfold checkJob
  dsimp only
  split
  · exact h
  · exact .ite h.modPart.sysRecord h

protected theorem MemoryOk.admitJob {p q entry v : Nat} {bad : Option Reason} (h : MemoryOk s) :
    MemoryOk (admitJob s p q entry v bad) := by
  unfold admitJob
  split
  exact (MemoryOk.congr (h.admitFlows.of_eq ‹_›)).modPart.checkJob

protected theorem MemoryOk.admitNext {p : Nat} (h : MemoryOk s) : MemoryOk (admitNext s p) := by
  unfold admitNext
  dsimp only
  split
  · exact h
  · refine .ite h ?_
    split
    · exact (h.launchRead.of_eq ‹_›).modQueue.modPart.admitJob
    · exact .ite (h.launchRead.of_eq ‹_›).modPart (h.launchRead.of_eq ‹_›).modQueue.modPart.admitJob

protected theorem MemoryOk.applyDec {p : Nat} (h : MemoryOk s) : MemoryOk (applyDec s p) := by
  unfold applyDec
  dsimp only
  split
  · exact h
  · exact h.modPart.modFlow.checkJob

protected theorem MemoryOk.setStatus {p job flow index : Nat} {st : GangStatus} (h : MemoryOk s) :
    MemoryOk (setStatus s p job flow index st) := h.modFlow

protected theorem MemoryOk.endGang {p : Nat} {g : Gang} {killed : Bool} (h : MemoryOk s) :
    MemoryOk (endGang s p g killed) := by
  unfold endGang
  dsimp only
  refine MemoryOk.setStatus (.ite (h.foldl (fun _ _ h => h.modStratum)).modPart ?_)
  exact (h.foldl (fun _ _ h => h.modStratum)).modPart.modPart

protected theorem MemoryOk.completeGang {p id : Nat} (h : MemoryOk s) : MemoryOk (completeGang s p id) := by
  unfold completeGang
  split
  · exact .ite h.endGang.checkJob h
  · exact h

protected theorem MemoryOk.ageGangs {p : Nat} (h : MemoryOk s) : MemoryOk (ageGangs s p) := h.modPart

protected theorem MemoryOk.placeMember {c : Cand} {id core : Nat} {gen : BitVec 16} {o : Origin}
    {acc : State × List Member} (h : MemoryOk acc.1) : MemoryOk (placeMember c id gen o acc core).1 :=
  (h.repartition.ite h).startCtx

protected theorem MemoryOk.placeGang {p : Nat} {c : Cand} {o : Origin} (h : MemoryOk s) :
    MemoryOk (placeGang s p c o) := by
  unfold placeGang
  split
  · exact h
  · exact ((h.foldl fun _ _ h => h.modStratum).foldl_fst fun _ _ _ h => MemoryOk.placeMember h).modPart.setStatus

protected theorem MemoryOk.dropReserved {p : Nat} (h : MemoryOk s) : MemoryOk (dropReserved s p) := by
  unfold dropReserved
  split
  · exact .ite h h.modPart
  · exact h.modPart

protected theorem MemoryOk.reserveHead {p : Nat} {c : Cand} (h : MemoryOk s) : MemoryOk (reserveHead s p c) := by
  unfold reserveHead
  refine .ite ?_ h
  split
  · exact h.modPart
  · exact h

protected theorem MemoryOk.placeFirst {p : Nat} {l : List Cand} (h : MemoryOk s) : MemoryOk (placeFirst s p l) := by
  induction l with
  | nil => exact h
  | cons c r ih =>
    unfold placeFirst
    split
    · exact h.placeGang
    · exact ih

protected theorem MemoryOk.placementRound {p : Nat} (h : MemoryOk s) : MemoryOk (placementRound s p) := by
  unfold placementRound
  dsimp only
  split
  · exact h.ageGangs.dropReserved
  · split
    · exact h.ageGangs.dropReserved.placeGang
    · exact h.ageGangs.dropReserved.reserveHead.placeFirst

protected theorem MemoryOk.completePhase {p id tag comp : Nat} {on : Nat → Bool} (h : MemoryOk s) :
    MemoryOk (completePhase s p id tag comp on) := by
  unfold completePhase
  dsimp only
  split
  · exact h
  · exact .ite h.modGang.signalPhase h

protected theorem MemoryOk.combineBarrier {p id tag comp : Nat} (h : MemoryOk s) :
    MemoryOk (combineBarrier s p id tag comp) := by
  unfold combineBarrier
  dsimp only
  exact h.congr.modLayer

protected theorem MemoryOk.execBarrierPhaseComplete (h : MemoryOk s) : OutOk (execBarrierPhaseComplete s) :=
  h.partStep fun _ _ h => .ite h.completePhase h

protected theorem MemoryOk.execLqtailWrite (h : MemoryOk s) : OutOk (execLqtailWrite s) :=
  .ite (h.partStep (fun _ _ h => h.lqtailWrite)) trivial

protected theorem MemoryOk.execFttailWrite (h : MemoryOk s) : OutOk (execFttailWrite s) :=
  h.partStep fun _ _ h => h.fttailWrite

protected theorem MemoryOk.execFtlostClear (h : MemoryOk s) : OutOk (execFtlostClear s) :=
  h.partStep fun _ _ h => h.ftlostWrite

end Sys2Proof.Machine
end

section
/-! SUPPORT. Vector integer and other vector instructions (08), and the array (09). -/

namespace Sys2Proof.Machine

set_option Elab.async false

variable {s : State}

protected theorem MemoryOk.int2 {p : Pred} {t : IntT} {d : VReg} {a : VSrc} {b : VIOpB} {f : ElemT → Nat → Nat → Nat}
    (h : MemoryOk s) : ActOk (int2 s p t d a b f) := h.putV

protected theorem MemoryOk.execVcmp {p : Pred} {t : CmpT} {cond : VCond} {d : PReg} {a : VSrc} {b : VOpB}
    (h : MemoryOk s) : OutOk (execVcmp p t cond d a b s) := h.issue fun _ h => .ite h h.setP.raise

protected theorem MemoryOk.execVcvt {p : Pred} {td ts : ElemT} {rm : RMode} {ns : Bool} {sel : BitVec 2} {d : VReg}
    {a : VSrc} (h : MemoryOk s) : OutOk (execVcvt p td ts rm ns sel d a s) := h.issue fun _ h => .ite h h.putV

protected theorem MemoryOk.execVqnt {p : Pred} {int4 : Bool} {rm : RMode} {sel : BitVec 3} {d : VReg} {a : VSrc}
    {b : SSrc} (h : MemoryOk s) : OutOk (execVqnt p int4 rm sel d a b s) := h.issue fun _ h => .ite h h.putV

protected theorem MemoryOk.execVdqnt {p : Pred} {int4 : Bool} {sel : BitVec 3} {d : VReg} {a : VSrc} {b : SSrc}
    (h : MemoryOk s) : OutOk (execVdqnt p int4 sel d a b s) := h.issue fun _ h => .ite h h.putV

protected theorem MemoryOk.readLine {q : Issuer} {w o n : Nat} {i4 : Bool} (h : MemoryOk s) :
    MemoryOk (readLine s q w i4 o n).1 := h.settleEls

protected theorem MemoryOk.readLines {q : Issuer} {w n : Nat} {i4 : Bool} {l : List (Nat × Nat)} (h : MemoryOk s) :
    MemoryOk (readLines q w i4 n l s).1 := by
  induction l generalizing s with
  | nil => exact h
  | cons e r ih => exact ih h.readLine

protected theorem MemoryOk.refusePair {c : Nat} {m : MCmd} (h : MemoryOk s) : MemoryOk (refusePair s c m) :=
  h.modCore.ctxRecord

protected theorem MemoryOk.runMls {c stride : Nat} {m : MCmd} {west i4 : Bool} (h : MemoryOk s) :
    MemoryOk (runMls s c m west i4 stride) := by
  unfold runMls
  extract_lets q w f o offs
  refine .ite ?_ ?_
  · split
    exact (h.readLines.of_eq ‹_›).modCore
  · split
    exact (h.readLines.of_eq ‹_›).modCore

theorem pool_foldl_fst {α β : Type} (f : Core × β → α → Core × β) (hf : ∀ x a, (f x a).1.pool = x.1.pool) (l : List α)
    (x : Core × β) : (l.foldl f x).1.pool = x.1.pool := by
  induction l generalizing x with
  | nil => rfl
  | cons a r ih => rw [List.foldl_cons, ih, hf]

theorem pool_mulRow (k : Core) (fa fb : MFmt) (depth t r : Nat) (a : MLine) (cols : List MLine) :
    (mulRow k fa fb depth t r a cols).1.pool = k.pool := by
  apply pool_foldl_fst
  intro x a
  rfl

/-- Multiplication writes accumulators, which are no part of the pool (09 R231). -/
theorem pool_mulRows (k : Core) (fa : MFmt) (depth d : Nat) (rows : List (Nat × MLine)) :
    (mulRows k fa depth d rows).1.pool = k.pool := by
  apply pool_foldl_fst
  intro x a
  exact pool_mulRow ..

protected theorem MemoryOk.runMul {c d tiles depth : Nat} {za : Bool} {fa : MFmt} {rows : List (Nat × MLine)}
    (h : MemoryOk s) : MemoryOk (runMul s c za d tiles depth fa rows).1 := by
  refine h.setCore ?_
  rw [pool_mulRows]
  split
  · exact h.pool c
  · exact h.pool c

protected theorem MemoryOk.beginRows {c rows d : Nat} {m : MCmd} {za i4 : Bool} (h : MemoryOk s) :
    MemoryOk (beginRows s c m rows d za i4).1 := by
  unfold beginRows
  dsimp only
  split
  · exact h.refusePair
  · exact .ite h.modCore h

protected theorem MemoryOk.nextRow {c d stride : Nat} {m : MCmd} {i4 : Bool} {nrow : Option Nat} (h : MemoryOk s) :
    MemoryOk (nextRow s c m d i4 stride nrow).1 := by
  unfold nextRow
  dsimp only
  split
  · refine h.readLine.setCore ?_
    rw [pool_mulRows]
    exact h.readLine.pool c
  · exact h.modCore

protected theorem MemoryOk.loadLatch {c stride : Nat} {m : MCmd} {i4 : Bool} (h : MemoryOk s) :
    MemoryOk (loadLatch s c m i4 stride) := by
  unfold loadLatch
  extract_lets q w f
  split
  exact (h.readLines.of_eq ‹_›).modCluster

protected theorem MemoryOk.runMrot {c d : Nat} {m : MCmd} {za i4 : Bool} {load : Option Nat} (h : MemoryOk s) :
    MemoryOk (runMrot s c m za i4 d load).1 := by
  unfold runMrot
  extract_lets s₁ latch r
  have loaded : MemoryOk s₁ := by
    dsimp only [s₁]
    split
    · exact h.loadLatch
    · exact h
  have ran : MemoryOk r.1 := by
    dsimp only [r]
    split
    · exact loaded.refusePair
    · exact loaded.runMul
  split
  · exact ran
  · exact ran.modCluster.modCluster.modCluster

protected theorem MemoryOk.runMst {c b rows stride : Nat} {m : MCmd} {int clr x : Bool} {rm : RMode} (h : MemoryOk s) :
    MemoryOk (runMst s c m int clr x rm b rows stride).1 :=
  .ite (h.foldl_fst (fun _ _ _ h => h.writeFull)).modCore (h.foldl_fst (fun _ _ _ h => h.writeFull))

protected theorem MemoryOk.runCmd {c : Nat} {m : MCmd} (h : MemoryOk s) : MemoryOk (runCmd s c m).1 := by
  unfold runCmd
  dsimp only
  split
  · exact h.runMls
  · exact h.runMrot
  · exact h.runMst
  · exact h.modCore
  · split
    · exact h.beginRows
    · exact h

protected theorem MemoryOk.discardHeads {c n : Nat} (h : MemoryOk s) : MemoryOk (discardHeads s c n) := by
  induction n generalizing s with
  | zero => exact h
  | succ n ih =>
    unfold discardHeads
    dsimp only
    split
    · split
      · exact h.setCore (h.pool c)
      · exact ih (h.setCore (h.pool c))
      · exact h
    · exact h

protected theorem MemoryOk.grantRun {k : Nat} (h : MemoryOk s) : MemoryOk (grantRun s k) := by
  unfold grantRun
  dsimp only
  split
  · exact h
  · split
    · exact h
    · exact h.modCluster

protected theorem MemoryOk.countRun {k : Nat} (h : MemoryOk s) : MemoryOk (countRun s k) := by
  unfold countRun
  split
  · exact h
  · exact h.modCluster

protected theorem MemoryOk.idleRun {k : Nat} (h : MemoryOk s) : MemoryOk (idleRun s k) := by
  unfold idleRun
  split
  · exact h
  · exact .ite h.modCluster (.ite h.endRun h)

protected theorem MemoryOk.startHead {c : Nat} (h : MemoryOk s) : MemoryOk (startHead s c) := by
  unfold startHead
  dsimp only
  split
  · exact h
  · exact .ite h (.ite h.discardHeads (.ite h.runCmd.modCore h))

protected theorem MemoryOk.endHead {c : Nat} {m : MCmd} {r : List MCmd} (h : MemoryOk s) :
    MemoryOk (endHead s c m r) := by
  unfold endHead
  dsimp only
  split
  · refine .ite ?_ h.modCore.engineFlags.discardHeads
    exact .ite h.modCore.engineFlags.discardHeads.endRun h.modCore.engineFlags.discardHeads.modCluster
  · exact h.modCore.engineFlags.discardHeads

protected theorem MemoryOk.completeHead {c : Nat} (h : MemoryOk s) : MemoryOk (completeHead s c) := by
  unfold completeHead
  split
  · exact h
  · refine .ite h ?_
    split
    · refine .ite (.ite h ?_) h.endHead
      split
      exact (h.nextRow.of_eq ‹_›).modCore
    · exact h.endHead

protected theorem MemoryOk.rotationArrive {k : Nat} {tile : Bool} (h : MemoryOk s) :
    MemoryOk (rotationArrive s k tile) := by
  unfold rotationArrive
  dsimp only
  refine .ite h (.ite ?_ ?_)
  · split
    · exact .ite h.modCluster.modCore h
    · exact h
  · split
    · exact .ite h.modCluster h
    · exact h

protected theorem MemoryOk.clusterStep {f : State → Nat → State} (h : MemoryOk s)
    (hf : ∀ t i, MemoryOk t → MemoryOk (f t i)) : OutOk (clusterStep s f) := .ite (hf _ _ h) trivial

protected theorem MemoryOk.stratumCoreStep {f : State → Nat → State} (h : MemoryOk s)
    (hf : ∀ t i, MemoryOk t → MemoryOk (f t i)) : OutOk (stratumCoreStep s f) := .ite (hf _ _ h) trivial

protected theorem MemoryOk.execMlease {c : Cond} (h : MemoryOk s) : OutOk (execMlease c s) := by
  unfold execMlease
  refine h.issue fun _ h => .ite h.takeTurn ?_
  split
  · exact h.modMyCore
  · exact .ite h trivial

protected theorem MemoryOk.releaseLease {c : Nat} (h : MemoryOk s) : MemoryOk (releaseLease s c) := h.modCore.endRun

protected theorem MemoryOk.execMrel {c : Cond} (h : MemoryOk s) : OutOk (execMrel c s) :=
  h.issue fun _ h => .ite h (.ite h.takeTurn (.ite trivial h.releaseLease))

protected theorem MemoryOk.queueArray {c : Nat} {m : MCmd} (h : MemoryOk s) : MemoryOk (queueArray s c m) :=
  h.modCore.discardHeads

protected theorem MemoryOk.enqueue {i : Instr} {base : Word} {idx : List (BitVec 32)} (h : MemoryOk s) :
    ActOk (enqueue s i base idx) := by
  unfold enqueue
  dsimp only
  exact .ite trivial (MemoryOk.ite h.takeTurn h.congr.queueArray)

protected theorem MemoryOk.arrayBody {i : Instr} {ok : State → Bool} {base : State → Word} {check : State → Option Trap}
    (h : MemoryOk s) : ActOk (arrayBody i ok base check s) := by
  unfold arrayBody
  refine .ite h ?_
  split
  · exact h
  · exact h.enqueue

protected theorem MemoryOk.execMmag {c : Cond} {za i4 : Bool} {g : Option GReg} {d : AReg} {a : SSrc} {f : FReg}
    {nrow : BitVec 24} {m1 : BitVec 9} {stride : BitVec 32} (h : MemoryOk s) :
    OutOk (execMmag c za i4 g d a f nrow m1 stride s) := by
  unfold execMmag
  dsimp only
  refine h.issue fun _ h => .ite h ?_
  split
  · exact h
  · exact .ite trivial h.modRegs.enqueue

protected theorem MemoryOk.mldtReads {q : Issuer} {a stride : Nat} {l : List Nat} (h : MemoryOk s) :
    MemoryOk (mldtReads q a stride l s).1 := by
  induction l generalizing s with
  | nil => exact h
  | cons r rs ih =>
    unfold mldtReads
    split
    · exact h
    · split
      · have read := h.resolve.of_eq ‹_›
        split
        · exact (ih read).of_eq ‹_›
        · exact (ih read).of_eq ‹_›
      · exact h.resolve.of_eq ‹_›
      · exact h.resolve.of_eq ‹_›

protected theorem MemoryOk.mldtUnits {q : Issuer} {b8 ns : Bool} {o a stride n r : Nat} (h : MemoryOk s) :
    MemoryOk (mldtUnits q b8 ns o a stride n r s).1 := by
  induction n generalizing s r with
  | zero => exact h.modRegs
  | succ n ih =>
    unfold mldtUnits
    dsimp only
    split
    · exact h.modRegs
    · split
      · exact (h.mldtReads.of_eq ‹_›).modRegs
      · exact ih (h.mldtReads.of_eq ‹_›).touch.writeFull

protected theorem MemoryOk.mldtPages {q : Issuer} {a stride cur : Nat} (h : MemoryOk s) :
    MemoryOk (mldtPages s q a stride cur).1 := h.transPieces

protected theorem MemoryOk.mldtBody {b8 ns : Bool} {d a stride : Nat} (h : MemoryOk s) :
    ActOk (mldtBody b8 ns d a stride s) := by
  unfold mldtBody
  dsimp only
  split
  · exact h
  · refine .ite (.ite h.mldtPages h.mldtPages) (.ite trivial ?_)
    split
    · exact h.mldtUnits.of_eq ‹_›
    · exact h.mldtUnits.of_eq ‹_›
    · exact .ite (h.mldtUnits.of_eq ‹_›).mldtPages (h.mldtUnits.of_eq ‹_›)

protected theorem MemoryOk.readMstat {c n : Nat} {clr : Bool} (h : MemoryOk s) : MemoryOk (readMstat s c n clr).1 :=
  .ite h.modCore h

protected theorem MemoryOk.execMstat {c : Cond} {clr : Bool} {d : SReg} (h : MemoryOk s) :
    OutOk (execMstat c clr d s) := h.issue fun _ h => .ite h.produce h.readMstat.produceVal

protected theorem MemoryOk.resolveGuard {c : Nat} {g : GReg} {v : Bool} (h : MemoryOk s) :
    MemoryOk (resolveGuard s c g v) := h.modCore.discardHeads

protected theorem MemoryOk.execGset {c : Cond} {g : GReg} {v : GsetVal} (h : MemoryOk s) : OutOk (execGset c g v s) :=
  h.issue fun _ h => .ite h (.ite h.takeTurn h.resolveGuard)

protected theorem MemoryOk.takeGuard {c n : Nat} {g : GReg} (h : MemoryOk s) : MemoryOk (takeGuard s c n g) := h.modCore

protected theorem MemoryOk.execGclr {c : Cond} {g : GReg} (h : MemoryOk s) : OutOk (execGclr c g s) := by
  unfold execGclr
  refine h.issue fun _ h => .ite h.takeTurn ?_
  split
  · exact h.takeGuard
  · exact .ite h.takeGuard trivial

protected theorem MemoryOk.freeGuard {c : Nat} {g : GReg} (h : MemoryOk s) : MemoryOk (freeGuard s c g) :=
  h.modCore.discardHeads

protected theorem MemoryOk.execGclrR {c : Cond} {g : GReg} (h : MemoryOk s) : OutOk (execGclrR c g s) :=
  h.issue fun _ h => .ite h (.ite h.takeTurn h.freeGuard)

protected theorem MemoryOk.execMwait {c : Cond} {n : BitVec 4} (h : MemoryOk s) : OutOk (execMwait c n s) :=
  h.issue fun _ h => .ite h (.ite trivial h)

end Sys2Proof.Machine
end

section
/-! SUPPORT. What an ended task leaves to be performed (02, 05), the control registers, and the preemption of gangs
(16). -/

namespace Sys2Proof.Machine

set_option Elab.async false

variable {s : State}

protected theorem MemoryOk.flushOverflow {c n : Nat} (h : MemoryOk s) : MemoryOk (flushOverflow s c n) :=
  h.foldl fun _ _ h => h.performOldest

protected theorem MemoryOk.actFor {c n : Nat} {f : State → State} (h : MemoryOk s)
    (hf : ∀ s, MemoryOk s → MemoryOk (f s)) : MemoryOk (actFor s c n f) := (hf _ h.withCur).withCur

protected theorem MemoryOk.standIn {c n : Nat} {x : Ctx} {f : State → State} (h : MemoryOk s)
    (hf : ∀ t, MemoryOk t → MemoryOk (f t)) : MemoryOk (standIn s c n x f).1 := (hf _ h.modCtx).modCore

protected theorem MemoryOk.rewalk {part priv : Nat} {k : AK} {l : List (Nat × List (Nat × Nat))} (h : MemoryOk s) :
    MemoryOk (rewalk part priv k l s).1 := by
  induction l generalizing s with
  | nil => exact h
  | cons e r ih =>
    unfold rewalk
    dsimp only
    split
    · exact h.partPieces
    · exact ih h.partPieces

protected theorem MemoryOk.renewedBy {k : AK} {c : Nat} {p : Pending} (h : MemoryOk s) :
    MemoryOk (renewedBy k s c p).1 := h.rewalk

protected theorem MemoryOk.renewed {c : Nat} {p : Pending} (h : MemoryOk s) : MemoryOk (renewed s c p).1 := by
  unfold renewed
  split
  · exact h.renewedBy
  · exact h.renewedBy
  · exact h.renewedBy
  · exact h

protected theorem MemoryOk.turnRecord {c n addr status : Nat} (h : MemoryOk s) :
    MemoryOk (turnRecord s c n addr status) := h.ctxRecord

protected theorem MemoryOk.performTurn {c n : Nat} {p : Pending} (h : MemoryOk s) : MemoryOk (performTurn s c n p) := by
  unfold performTurn
  dsimp only
  split
  · exact .ite (h.actFor (fun _ h => h.putStore)).modBoth h.turnRecord.modBoth
  · exact (h.withCur.putLanes.withCur.foldl (fun _ _ h => h.turnRecord)).modBoth
  · exact (h.actFor (fun _ h => h.emptyWords)).modBoth
  · refine (h.actFor (fun _ h => ?_)).modBoth
    split
    · exact h.devStore ‹_›
    · exact h
  · exact .ite (h.modBoth.actFor (fun _ h => h.seQueue)) (h.modBoth.actFor (fun _ h => h.seQueue))
  · exact h.trhzRead.modBoth
  · refine (h.actFor (fun _ h => ?_)).modBoth
    split
    · exact h.sendSlot
    · exact h
  · exact (h.actFor (fun _ h => h.closeQueue)).modBoth
  · exact MemoryOk.modBoth (.ite h.resolveGuard h)
  · exact MemoryOk.modBoth (.ite h.freeGuard h)
  · exact MemoryOk.modBoth (.ite h.releaseLease h)
  · exact h.modCore.modBoth
  · exact h.takeGuard.modBoth
  · exact h.queueArray.modBoth
  · exact h.readMstat.modBoth
  · exact h.arriveAt.modBoth
  · exact h.signalFlow.modBoth
  · exact h

protected theorem MemoryOk.performLast {c n : Nat} {p : Pending} (h : MemoryOk s) : MemoryOk (performLast s c n p) := by
  unfold performLast
  split
  · exact (h.renewed.of_eq ‹_›).performTurn
  · exact (h.renewed.of_eq ‹_›).turnRecord.modBoth

protected theorem MemoryOk.flushTurns {c n : Nat} {ps : List Pending} (h : MemoryOk s) :
    MemoryOk (flushTurns s c n ps) := h.foldl fun _ _ h => h.performLast

theorem pool_foldl {α : Type} (f : Core → α → Core) (hf : ∀ k a, (f k a).pool = k.pool) (l : List α) (k : Core) :
    (l.foldl f k).pool = k.pool := by
  induction l generalizing k with
  | nil => rfl
  | cons a r ih => rw [List.foldl_cons, ih, hf]

protected theorem MemoryOk.releaseGuards {c n : Nat} (h : MemoryOk s) : MemoryOk (releaseGuards s c n) := by
  refine MemoryOk.discardHeads (h.modCore fun k => ?_)
  apply pool_foldl
  intro k g
  rfl

protected theorem MemoryOk.memberDone {c : Nat} {x : Ctx} (h : MemoryOk s) : MemoryOk (memberDone s c x) := by
  unfold memberDone
  dsimp only
  split
  · exact h
  · exact .ite h.modGang.signalAll.congr h.modGang.signalAll

protected theorem MemoryOk.freeCtxSlot {c n : Nat} (h : MemoryOk s) : MemoryOk (freeCtxSlot s c n) := by
  unfold freeCtxSlot
  dsimp only
  exact h.congr.modCtx

protected theorem MemoryOk.keepEnded {c n : Nat} (h : MemoryOk s) : MemoryOk (keepEnded s c n) := .ite h h.modCore

protected theorem MemoryOk.finishTask {c n : Nat} (h : MemoryOk s) : MemoryOk (finishTask s c n) := by
  unfold finishTask
  dsimp only
  refine MemoryOk.memberDone (MemoryOk.freeCtxSlot ?_)
  split
  · exact MemoryOk.freeLanding (MemoryOk.keepEnded (MemoryOk.flushOverflow (.ite h.releaseLease h)))
  · exact MemoryOk.keepEnded (MemoryOk.flushOverflow (.ite h.releaseLease h))

protected theorem MemoryOk.execDone {c : Cond} (h : MemoryOk s) : OutOk (execDone c s) :=
  h.issue fun _ h => .ite trivial (.ite h.releaseGuards (.ite trivial (.ite trivial h.finishTask)))

protected theorem MemoryOk.owntagWrite {c : Nat} {v : Word} (h : MemoryOk s) : MemoryOk (owntagWrite s c v) := h.modCore

protected theorem MemoryOk.ellostClear {c : Nat} {v : Word} (h : MemoryOk s) : MemoryOk (ellostClear s c v) := h.modCore

protected theorem MemoryOk.csrWrite {r : Csr} {v : Word} (h : MemoryOk s) : MemoryOk (csrWrite s r v) := by
  unfold csrWrite
  dsimp only
  split
  · exact h.modRegs
  · exact h.modMe
  · exact h.modMe
  · exact h.modMe
  · exact h.modMe
  · exact h.modMe
  · exact h.modMe
  · exact h.modMe
  · exact h.modMe
  · exact .ite h.modCluster h
  · exact h.owntagWrite
  · exact h.modMyCore
  · exact .ite h.modMyCore h
  · exact h.modMyCore
  · exact h.ellostClear
  · exact h.modMyCore
  · exact h.modPart
  · exact h.modPart
  · exact h.modPart
  · exact h
  · exact h
  · exact h
  · exact h
  · exact h

protected theorem MemoryOk.csrBody {d : SReg} {n : BitVec 12} {new : Option (Word → Word)} (h : MemoryOk s) :
    ActOk (csrBody d n new s) := by
  unfold csrBody
  dsimp only
  split
  · exact h
  · refine .ite h (.ite trivial (MemoryOk.setS ?_))
    split
    · exact h.csrWrite
    · exact h

protected theorem MemoryOk.execOwntagWrite (h : MemoryOk s) : OutOk (execOwntagWrite s) := .ite h.owntagWrite trivial

protected theorem MemoryOk.execEllostClear (h : MemoryOk s) : OutOk (execEllostClear s) := .ite h.ellostClear trivial

protected theorem MemoryOk.execEret {c : Cond} (h : MemoryOk s) : OutOk (execEret c s) :=
  h.issue fun _ h => .ite h (.ite h h.returnFromTrap)

protected theorem MemoryOk.dropTlb {bad : TlbEntry → Bool} (h : MemoryOk s) : MemoryOk (dropTlb s bad) := by
  refine h.mapCores rfl ?_ ?_ <;> intro <;> rfl

protected theorem MemoryOk.tlbiBody {bad : TlbEntry → Bool} (h : MemoryOk s) : ActOk (tlbiBody bad s) :=
  .ite trivial h.dropTlb

protected theorem MemoryOk.execTlbiKid {c : Cond} {a : SSrc} (h : MemoryOk s) : OutOk (execTlbiKid c a s) := by
  refine h.issue fun s h => h.mapCores rfl (fun _ => rfl) fun e => ?_
  dsimp only
  split <;> rfl

protected theorem MemoryOk.execWfi {c : Cond} (h : MemoryOk s) : OutOk (execWfi c s) := by
  refine h.issue fun s h => ?_
  split
  · extract_lets s₁
    exact MemoryOk.modMe (MemoryOk.congr (s := s₁) h.modMyCore)
  · split
    · exact h.modMe
    · trivial

protected theorem MemoryOk.execSatw {c : Cond} {a b : SSrc} (h : MemoryOk s) : OutOk (execSatw c a b s) := by
  unfold execSatw
  dsimp only
  exact h.issue fun _ h => .ite h (.ite h (h.request (fun _ _ h => h.congr.later) (fun _ h => h)))

protected theorem MemoryOk.satwApply (h : MemoryOk s) : MemoryOk (satwApply s) := by
  unfold satwApply
  dsimp only
  exact h.congr.foldl fun _ _ h => h.congr.answer

protected theorem MemoryOk.writeChan {c n : Nat} {g : Chan} {moved : Bool} (h : MemoryOk s) :
    MemoryOk (writeChan s c n g moved) := h.modCore

protected theorem MemoryOk.chsetBody {c n : Nat} {g : Chan} (h : MemoryOk s) : ActOk (chsetBody c n g s) := by
  unfold chsetBody
  dsimp only
  refine .ite (.ite h.writeChan trivial) ?_
  exact .ite (MemoryOk.modCore (.ite h.returnHeld h)) (MemoryOk.writeChan (.ite h.returnHeld h))

protected theorem MemoryOk.execChset {c : Cond} {a b cc : SSrc} {chan : BitVec 6} (h : MemoryOk s) :
    OutOk (execChset c a chan b cc s) := h.issue fun _ h => .ite h (.ite h (.ite h (.ite h h.chsetBody)))

protected theorem MemoryOk.settleFreeze {c n : Nat} (h : MemoryOk s) : MemoryOk (settleFreeze s c n) := .ite h.freeze h

protected theorem MemoryOk.withdrawSend {c n : Nat} (h : MemoryOk s) : MemoryOk (withdrawSend s c n) := by
  unfold withdrawSend
  exact .ite h.congr.modCtx h

protected theorem MemoryOk.standStill {c n : Nat} (h : MemoryOk s) : MemoryOk (standStill s c n) :=
  .ite h.modCtx.endRun h.modCtx

protected theorem MemoryOk.stopMember {c n : Nat} (h : MemoryOk s) : MemoryOk (stopMember s c n) :=
  .ite h (.ite h.modCtx.endAhead (.ite h.modCtx.withdrawSend.standStill.settleFreeze h.modCtx))

protected theorem MemoryOk.status {d : SReg} {n : Nat} (h : MemoryOk s) : ActOk (status s d n) := h.produceVal

protected theorem MemoryOk.execPreempt {c : Cond} {d : SReg} {a : SSrc} (h : MemoryOk s) :
    OutOk (execPreempt c d a s) := by
  unfold execPreempt
  dsimp only
  refine h.issue fun _ h => ?_
  split
  · exact h.status
  · exact .ite h.status (.ite h.status (h.produce.foldl (fun _ _ h => .ite h h.stopMember)))

protected theorem MemoryOk.execGangctlStatus {c : Cond} {d : SReg} {a : SSrc} (h : MemoryOk s) :
    OutOk (execGangctlStatus c d a s) := by
  unfold execGangctlStatus
  refine h.issue fun _ h => ?_
  split <;> exact h.status

protected theorem MemoryOk.settleClient {c n : Nat} (h : MemoryOk s) : MemoryOk (settleClient s c n) := by
  unfold settleClient
  dsimp only
  split
  · exact h.modCtx.modCore.foldl fun _ _ h => h.congr.modCore
  · exact h

protected theorem MemoryOk.resumeMember {c n : Nat} (h : MemoryOk s) : MemoryOk (resumeMember s c n) :=
  h.modCtx.settleClient

protected theorem MemoryOk.execGangctlResume {c : Cond} {d : SReg} {a : SSrc} (h : MemoryOk s) :
    OutOk (execGangctlResume c d a s) := by
  unfold execGangctlResume
  refine h.issue fun _ h => ?_
  split
  · exact h.status
  · exact .ite h.status (.ite h.status (h.foldl (fun _ _ h => h.resumeMember)).status)

protected theorem MemoryOk.reportHeld {c n st : Nat} {x : Ctx} {cmds : List MCmd} (h : MemoryOk s) :
    MemoryOk (reportHeld s c n x st cmds) :=
  ((h.foldl (fun _ _ h => h.logRecord)).foldl (fun _ _ h => h.logRecord)).foldl (fun _ _ h => h.logRecord)

protected theorem MemoryOk.takeQueued {c n : Nat} (h : MemoryOk s) : MemoryOk (takeQueued s c n).1 :=
  h.setCore (h.pool c)

protected theorem MemoryOk.killSend {c n : Nat} (h : MemoryOk s) : MemoryOk (killSend s c n) := by
  unfold killSend
  split
  · exact h
  · exact h.ctxRecord.withdrawSend

protected theorem MemoryOk.killMember {g : Gang} {m : Member} (h : MemoryOk s) : MemoryOk (killMember s g m) := by
  unfold killMember
  dsimp only
  refine .ite ?_ (.ite h ?_)
  · split
    · exact h
    · exact (h.reportHeld.standIn (fun _ h => h.flushTurns.flushOverflow)).modCore
  · refine MemoryOk.freeCtxSlot (MemoryOk.flushOverflow (.ite ?_ ?_))
    · exact h.killSend.takeQueued.reportHeld.flushTurns.releaseGuards.releaseLease
    · exact h.killSend.takeQueued.reportHeld.flushTurns.releaseGuards

protected theorem MemoryOk.abandonFlow {p job flow : Nat} (h : MemoryOk s) : MemoryOk (abandonFlow s p job flow) :=
  (h.foldl (fun _ _ h => h.reportGang)).modJob.modFlow

protected theorem MemoryOk.killGang {p : Nat} {g : Gang} (h : MemoryOk s) : MemoryOk (killGang s p g) :=
  (h.foldl (fun _ _ h => h.killMember)).endGang.abandonFlow.checkJob

protected theorem MemoryOk.execGangctlKill {c : Cond} {d : SReg} {a : SSrc} (h : MemoryOk s) :
    OutOk (execGangctlKill c d a s) := by
  unfold execGangctlKill
  refine h.issue fun _ h => ?_
  split
  · exact h.status
  · exact h.killGang.status

protected theorem MemoryOk.execSleeps {c : Cond} {d : SReg} {a : SSrc} (h : MemoryOk s) :
    OutOk (execSleeps c d a s) := by
  unfold execSleeps
  refine h.issue fun _ h => ?_
  split
  · exact h
  · exact .ite h.status h.modStratum.produce

protected theorem MemoryOk.mapPend {f : Prod → Prod} (h : MemoryOk s) : MemoryOk (mapPend s f) := by
  refine h.mapCores rfl ?_ ?_ <;> intro <;> rfl

protected theorem MemoryOk.sleepNow {z : Nat} (h : MemoryOk s) : MemoryOk (sleepNow s z) :=
  .ite h.modStratum.modLayer.mapPend h

protected theorem MemoryOk.execSleepComplete (h : MemoryOk s) : OutOk (execSleepComplete s) := .ite h.sleepNow trivial

end Sys2Proof.Machine
end

section
/-! SUPPORT. The beats and the sleep of strata (10), and the saving and loading of contexts (16). -/

namespace Sys2Proof.Machine

set_option Elab.async false

variable {s : State}

protected theorem MemoryOk.sendBeat {l p : Nat} {items : List QItem} {pay : Payload} (h : MemoryOk s) :
    MemoryOk (sendBeat s l p items pay) := by
  unfold sendBeat
  extract_lets ids s₁
  exact MemoryOk.congr (s := s₁) h.modLayer

protected theorem MemoryOk.sendReward {l p : Nat} {i : QItem} {mask : BitVec 16} {c : Bool} {rho : BitVec 32}
    (h : MemoryOk s) : MemoryOk (sendReward s l p i mask c rho) := h.modPart.modTask.mapPend.sendBeat

protected theorem MemoryOk.transmitSlot (h : MemoryOk s) : MemoryOk (transmitSlot s) := by
  unfold transmitSlot
  dsimp only
  split
  · exact h
  · split
    · exact h
    · split
      · exact h.sendReward
      · exact h.sendBeat
      · exact h.sendBeat

protected theorem MemoryOk.arriveReward {z : Nat} {seq rho : BitVec 32} {mask : BitVec 16} {c : Bool} (h : MemoryOk s) :
    MemoryOk (arriveReward s z seq mask c rho) := h.modLayer.foldl fun _ _ h => h.rewardToCore

protected theorem MemoryOk.logReward {p : Nat} {seq rho : BitVec 32} {mask : BitVec 16} {c : Bool} (h : MemoryOk s) :
    MemoryOk (logReward s p seq mask c rho) := h.modLayer.modPart

theorem wf_applyRec (m : List Host.Cell) (r : SRec) (hm : Memory.wf m = true) : Memory.wf (applyRec m r) = true := by
  refine wf_foldl _ (fun m i hm => ?_) _ _ hm
  split
  · exact wf_cset _ _ _ hm
  · exact hm

protected theorem MemoryOk.applyStores {l : Nat} {recs : List SRec} (h : MemoryOk s) :
    MemoryOk (applyStores s l recs) := memoryOk_modLayer _ _ _ h (wf_foldl _ wf_applyRec _ _ (h.mirror l))

protected theorem MemoryOk.stopLayer {p l : Nat} (h : MemoryOk s) : MemoryOk (stopLayer s p l) :=
  MemoryOk.sysRecord (.ite (h.modLayer.foldl (fun _ _ h => h.modCore)) h.modLayer)

protected theorem MemoryOk.applyBeat {bad : List Nat} {a : Air} (h : MemoryOk s) : MemoryOk (applyBeat bad s a) := by
  unfold applyBeat
  extract_lets p strata base s₁ s₂ live
  have below : MemoryOk s₁ := h.foldl fun _ _ h => h.stopLayer.ite h
  have stopped : MemoryOk s₂ := below.stopLayer.ite below
  split
  · exact stopped.foldl fun _ _ h => h.applyStores
  · exact (stopped.foldl fun _ _ h => h.arriveReward).logReward
  · exact stopped.foldl fun _ _ h => h.completePhase

protected theorem MemoryOk.applyDue {bad : List Nat} (h : MemoryOk s) : MemoryOk (applyDue s bad) := by
  unfold applyDue
  dsimp only
  exact h.congr.foldl fun _ _ h => h.applyBeat

protected theorem MemoryOk.execWakes {c : Cond} {d : SReg} {a : SSrc} (h : MemoryOk s) : OutOk (execWakes c d a s) := by
  unfold execWakes
  dsimp only
  refine h.issue fun _ h => ?_
  split
  · exact h
  · refine .ite trivial (.ite h.status ?_)
    split
    · exact h.produce
    · exact h.congr.modLayer.later.produce

protected theorem MemoryOk.replayOne {c : Nat} {keep : BitVec 16} {l : List (BitVec 32)} {r : RewardLog}
    (h : MemoryOk s) : MemoryOk (replayOne s c keep l r) := h.rewardToCore.sweepMany

protected theorem MemoryOk.replayRewards {p z : Nat} (h : MemoryOk s) : MemoryOk (replayRewards s p z) := by
  unfold replayRewards
  dsimp only
  refine .ite ?_ ?_
  · exact (h.foldl_fst (fun _ _ _ h => h.foldl (fun _ _ h => h.replayOne))).modLayer
  · refine MemoryOk.sysRecord (MemoryOk.foldl (MemoryOk.modLayer ?_) fun _ _ h => h.modCore)
    exact h.foldl_fst fun _ _ _ h => h.foldl fun _ _ h => h.replayOne

protected theorem MemoryOk.startWakes (h : MemoryOk s) : MemoryOk (startWakes s) := by
  unfold startWakes
  refine h.foldl fun _ _ h => ?_
  split
  · exact h.replayRewards
  · exact h

theorem wf_copiedMirror (own src : List Host.Cell) (marks : List Nat) (h : Memory.wf own = true) :
    Memory.wf (copiedMirror own src marks) = true :=
  wf_foldl _ (fun _ _ hm => wf_cset _ _ _ hm) _ _ (cellsFrom_filter _ _ _ h)

protected theorem MemoryOk.mirrorCopied {z : Nat} (h : MemoryOk s) : MemoryOk (mirrorCopied s z) := by
  unfold mirrorCopied
  split
  · exact h
  · split
    · exact h
    · extract_lets src s₁ s₂
      have copied : MemoryOk s₁ := memoryOk_modLayer _ _ _ h (wf_copiedMirror _ _ _ (h.mirror z))
      have h₂ : MemoryOk s₂ := copied.modStratum.ite copied
      exact h₂.mapPend

protected theorem MemoryOk.execMirrorCopyComplete (h : MemoryOk s) : OutOk (execMirrorCopyComplete s) :=
  .ite h.mirrorCopied trivial

protected theorem MemoryOk.dueTimers (h : MemoryOk s) : MemoryOk (dueTimers s) := h

protected theorem MemoryOk.dueBeats (h : MemoryOk s) : MemoryOk (dueBeats s) := .ite h h

protected theorem MemoryOk.dueWindows (h : MemoryOk s) : MemoryOk (dueWindows s) := .ite h h

protected theorem MemoryOk.settleEnded (h : MemoryOk s) : MemoryOk (settleEnded s) := h.foldl fun _ _ h => h.modCore

protected theorem MemoryOk.beat (h : MemoryOk s) : MemoryOk (beat s) := by
  unfold beat
  dsimp only
  exact h.transmitSlot.logBadReads.flushLogs.settleEnded.congr.startWakes.dueWindows.dueTimers.dueBeats

protected theorem MemoryOk.yieldOver {c n uid : Nat} (h : MemoryOk s) : MemoryOk (yieldOver s c n uid) := h.modTask

protected theorem MemoryOk.execYieldExpiry (h : MemoryOk s) : OutOk (execYieldExpiry s) := .ite h.yieldOver trivial

protected theorem MemoryOk.saveWrite {c n priv a : Nat} {l : List (Nat × List Byte)} (h : MemoryOk s) :
    MemoryOk (saveWrite c n priv a l s).1 := by
  induction l generalizing s with
  | nil => exact h
  | cons e r ih =>
    unfold saveWrite
    split
    · exact h.transRange.of_eq ‹_›
    · split
      · exact h.transRange.of_eq ‹_›
      · exact ih (h.transRange.of_eq ‹_›).homeWrite

protected theorem MemoryOk.setSaved {c : Nat} {x : Ctx} {saved : Bool} (h : MemoryOk s) :
    MemoryOk (setSaved s c x saved) := by
  unfold setSaved
  split
  · exact h.modGang
  · exact h

protected theorem MemoryOk.dropHeld {c n : Nat} (h : MemoryOk s) : MemoryOk (dropHeld s c n) :=
  .ite h.modCore.releaseLease h.modCore

protected theorem MemoryOk.parkCtx {c n : Nat} {cmds : List MCmd} (h : MemoryOk s) : MemoryOk (parkCtx s c n cmds) :=
  h.dropHeld.freeCtxSlot.modCore.setSaved

protected theorem MemoryOk.loseCtx {c n : Nat} (h : MemoryOk s) : MemoryOk (loseCtx s c n) := by
  unfold loseCtx
  extract_lets x
  split
  extract_lets s₁ s₂ s₃ s₄ s₅
  have reported : MemoryOk s₁ := (MemoryOk.of_eq h.takeQueued ‹_›).reportHeld
  have released : MemoryOk s₃ := reported.flushTurns.flushOverflow.releaseGuards.releaseLease.ite
    reported.flushTurns.flushOverflow.releaseGuards
  have landed : MemoryOk s₄ := by
    dsimp only [s₄]
    split
    · exact released.freeLanding
    · exact released
  split
  · exact landed.freeCtxSlot.modGang
  · exact landed.freeCtxSlot

protected theorem MemoryOk.saveCtx {m : Bool} {n a : Nat} (h : MemoryOk s) : MemoryOk (saveCtx s m n a).1 := by
  unfold saveCtx
  dsimp only
  split
  · exact h.flushOverflow.saveWrite.of_eq ‹_›
  · exact (h.flushOverflow.saveWrite.of_eq ‹_›).takeQueued.parkCtx

protected theorem MemoryOk.ctxsvBody {m : Bool} {d : SReg} {n a : Nat} (h : MemoryOk s) :
    ActOk (ctxsvBody m d n a s) := by
  unfold ctxsvBody
  dsimp only
  refine .ite h ?_
  split
  · exact h
  · refine .ite h.status (.ite trivial (.ite h.loseCtx.status ?_))
    split
    · exact (h.saveCtx.of_eq ‹_›).status
    · exact (h.saveCtx.of_eq ‹_›).ctxRecord.modMe.status

protected theorem MemoryOk.loadArea {a n : Nat} (h : MemoryOk s) : MemoryOk (loadArea s a n).1 := by
  unfold loadArea
  split
  · exact h.transRange.of_eq ‹_›
  · exact .ite_fst (h.transRange.of_eq ‹_›).noteBad (h.transRange.of_eq ‹_›).noteFar

protected theorem MemoryOk.loadExt {c n : Nat} {x : Ctx} {ext : List Byte} (h : MemoryOk s) :
    MemoryOk (loadExt s c n x ext) := by
  unfold loadExt
  extract_lets flags acc tile s₁ s₂
  have cleared : MemoryOk s₁ := h.modCore
  have loaded : MemoryOk s₂ := by
    refine cleared.foldl fun s t h => h.modCore fun k => ?_
    apply pool_foldl
    intro k i
    rfl
  split
  · exact loaded.modCluster
  · exact loaded

protected theorem MemoryOk.clearValid {n a : Nat} (h : MemoryOk s) : MemoryOk (clearValid s n a).1 := by
  unfold clearValid
  split <;> exact h.saveWrite.of_eq ‹_›

protected theorem MemoryOk.placeLoaded {n : Nat} {bs : List Byte} {ext : Option (List Byte)} (h : MemoryOk s) :
    MemoryOk (placeLoaded s n bs ext) := by
  unfold placeLoaded
  dsimp only
  refine MemoryOk.setSaved (MemoryOk.modCore (MemoryOk.congr ?_))
  split
  · exact h.loadExt
  · exact h

protected theorem MemoryOk.ctxldBody {m : Bool} {d : SReg} {n a : Nat} (h : MemoryOk s) :
    ActOk (ctxldBody m d n a s) := by
  unfold ctxldBody
  dsimp only
  refine .ite h ?_
  split
  · exact h
  · split
    · exact (h.loadArea.of_eq ‹_›).status
    · have h₁ := h.loadArea.of_eq ‹_›
      refine .ite h₁.status (.ite h₁ ?_)
      split
      · exact (h₁.loadArea.of_eq ‹_›).status
      · have h₂ := h₁.loadArea.of_eq ‹_›
        refine .ite h₂.status (.ite h₂.status ?_)
        split
        · exact (h₂.clearValid.of_eq ‹_›).status
        · exact (h₂.clearValid.of_eq ‹_›).placeLoaded.status

end Sys2Proof.Machine
end

section
/-! SUPPORT. Fetch, page walks, producers, ranges, the selection of a context, and the writes of registers and power
(01, 02, 06, 18, 20). -/

namespace Sys2Proof.Machine

set_option Elab.async false

variable {s : State}

protected theorem MemoryOk.spendHeld {c n : Nat} (h : MemoryOk s) : MemoryOk (spendHeld s c n) := .ite h.modCtx h

protected theorem MemoryOk.fetchBlock {c n pc : Nat} (h : MemoryOk s) : MemoryOk (fetchBlock s c n pc).1 := by
  unfold fetchBlock
  dsimp only
  refine .ite_fst h (.ite_fst h ?_)
  split
  · exact h.translate.of_eq ‹_›
  · exact h.translate.of_eq ‹_›
  · have h₁ := h.translate.of_eq ‹_›
    split
    · exact h₁.spendHeld
    · exact .ite_fst h₁.noteBad (.ite_fst h₁.noteFar h₁.askFill)

protected theorem MemoryOk.fetchInstr {c n : Nat} (h : MemoryOk s) : MemoryOk (fetchInstr s c n).1 := by
  unfold fetchInstr
  dsimp only
  split <;> exact h.fetchBlock.of_eq ‹_›

protected theorem MemoryOk.cacheBlock {b : ICacheBlock} {c : Nat} (h : MemoryOk s) : MemoryOk (cacheBlock s b c) :=
  h.modCore

protected theorem MemoryOk.lendBlock {b : ICacheBlock} {c : Nat} (h : MemoryOk s) : MemoryOk (lendBlock s b c) :=
  h.foldl fun _ _ h => .ite h.modCtx h

protected theorem MemoryOk.fillBlock {z addr : Nat} {kid : BitVec 32} (h : MemoryOk s) :
    MemoryOk (fillBlock s z kid addr) := by
  unfold fillBlock
  dsimp only
  split
  · exact h
  · refine .ite h.modStratum.noteFar.noteBad ?_
    exact h.modStratum.noteFar.foldl fun _ _ h => .ite h.lendBlock h.cacheBlock

protected theorem MemoryOk.execFetchFill (h : MemoryOk s) : OutOk (execFetchFill s) := .ite h.fillBlock trivial

protected theorem MemoryOk.fillTlbs {c : Nat} {e : TlbEntry} (h : MemoryOk s) : MemoryOk (fillTlbs s c e) :=
  h.modCore.modCluster.modStratum

protected theorem MemoryOk.pageWalk {c priv va : Nat} {k : AK} {rival : Option Word} (h : MemoryOk s) :
    MemoryOk (pageWalk s c priv k va rival) := by
  unfold pageWalk
  split
  · have h₁ := h.walk.of_eq ‹_›
    split
    · exact h₁.fillTlbs
    · exact h₁
  · exact h.walk.of_eq ‹_›

protected theorem MemoryOk.execPageWalk (h : MemoryOk s) : OutOk (execPageWalk s) := .ite h.pageWalk trivial

protected theorem MemoryOk.settleProd {c : Nat} {p : Pending} (h : MemoryOk s) : MemoryOk (settleProd s c p) := by
  unfold settleProd
  dsimp only
  split
  · exact h.touchEls.settleEls
  · exact h

protected theorem MemoryOk.dropStamp {c : Nat} {p : Pending} (h : MemoryOk s) : MemoryOk (dropStamp s c p) := by
  unfold dropStamp
  split
  · exact .ite h.modCore h
  · exact h

protected theorem MemoryOk.deliverNow {c n : Nat} {p : Pending} (h : MemoryOk s) : MemoryOk (deliverNow s c n p) := by
  unfold deliverNow
  dsimp only
  refine .ite h.performTurn ?_
  split
  · exact h.settleProd
  · exact h.settleProd.modBoth.dropStamp

protected theorem MemoryOk.deliver {c n : Nat} {p : Pending} (h : MemoryOk s) : MemoryOk (deliver s c n p) := by
  unfold deliver
  dsimp only
  refine .ite h ?_
  split
  · exact .ite h.renewed.deliverNow h
  · exact h

protected theorem MemoryOk.forEnded {c n : Nat} {e : Nat × Ctx} {f : State → State} (h : MemoryOk s)
    (hf : ∀ t, MemoryOk t → MemoryOk (f t)) : MemoryOk (forEnded s c n e f) := (h.standIn (fun _ h => hf _ h)).modCore

protected theorem MemoryOk.producerDone {c n id : Nat} (h : MemoryOk s) : MemoryOk (producerDone s c n id) := by
  unfold producerDone
  split
  · exact h.deliver
  · split
    · exact h
    · exact h.forEnded fun _ h => (h.elim fun _ => h.deliver).flushOverflow

protected theorem MemoryOk.execProducerResult (h : MemoryOk s) : OutOk (execProducerResult s) :=
  .ite h.producerDone trivial

protected theorem MemoryOk.rangeOperation {z : Nat} (h : MemoryOk s) : MemoryOk (rangeOperation s z) := by
  unfold rangeOperation
  dsimp only
  split
  · exact h
  · exact h.modStratum
  · exact h.modStratum.fulfil

protected theorem MemoryOk.execRangeUnitOperation (h : MemoryOk s) : OutOk (execRangeUnitOperation s) :=
  .ite h.rangeOperation trivial

protected theorem MemoryOk.aheadOver {c n : Nat} (h : MemoryOk s) : MemoryOk (aheadOver s c n) := .ite h.finishAhead h

protected theorem MemoryOk.execRunAheadEnd (h : MemoryOk s) : OutOk (execRunAheadEnd s) := .ite h.aheadOver trivial

protected theorem MemoryOk.passOver {c n : Nat} (h : MemoryOk s) : MemoryOk (passOver s c n) := by
  unfold passOver
  dsimp only
  exact .ite h.modCtx.congr h.modCtx

protected theorem MemoryOk.settleCtxs {c : Nat} (h : MemoryOk s) : MemoryOk (settleCtxs s c) :=
  h.foldl fun _ _ h => .ite h.settleFreeze.settleClient h.settleFreeze

protected theorem MemoryOk.countIdle {c : Nat} (h : MemoryOk s) : MemoryOk (countIdle s c) := .ite h h.modPower

protected theorem MemoryOk.selectIssue {c : Nat} {mask : Word} (h : MemoryOk s) : MemoryOk (selectIssue s c mask) := by
  unfold selectIssue
  dsimp only
  split
  · exact h.settleCtxs.countIdle
  · exact MemoryOk.congr (h.settleCtxs.foldl (fun _ _ h => h.passOver)).modCtx

protected theorem MemoryOk.execIssueSelection (h : MemoryOk s) : OutOk (execIssueSelection s) :=
  .ite h.selectIssue trivial

protected theorem MemoryOk.agePriority {c n : Nat} (h : MemoryOk s) : MemoryOk (agePriority s c n) := h.modCtx

protected theorem MemoryOk.execPriorityAging (h : MemoryOk s) : OutOk (execPriorityAging s) :=
  .ite h.agePriority trivial

protected theorem MemoryOk.unitStep {bound : Nat} {f : State → Nat → State} (h : MemoryOk s)
    (hf : ∀ t i, MemoryOk t → MemoryOk (f t i)) : OutOk (unitStep s bound f) := .ite (hf _ _ h) trivial

protected theorem MemoryOk.execPcfgWrite (h : MemoryOk s) : OutOk (execPcfgWrite s) :=
  h.unitStep fun _ _ h => h.pcfgWrite

protected theorem MemoryOk.execRouteWrite (h : MemoryOk s) : OutOk (execRouteWrite s) :=
  h.unitStep fun _ _ h => .ite h.routeWrite h

protected theorem MemoryOk.execReqWrite (h : MemoryOk s) : OutOk (execReqWrite s) :=
  h.unitStep fun _ _ h => h.reqWrite

protected theorem MemoryOk.execRegisterWrite (h : MemoryOk s) : OutOk (execRegisterWrite s) := by
  unfold execRegisterWrite
  dsimp only
  split
  · exact h.devStore ‹_›
  · exact h

protected theorem MemoryOk.mmioRead {o n : Nat} (h : MemoryOk s) : MemoryOk (mmioRead s o n) := by
  unfold mmioRead
  dsimp only
  split
  · exact h
  · exact h.countHerr.congr

protected theorem MemoryOk.mmioWrite {f o n : Nat} {v : Word} (h : MemoryOk s) : MemoryOk (mmioWrite s f o n v) := by
  unfold mmioWrite
  split
  · rename_i stored
    split at stored
    · exact MemoryOk.congr (h.devStore stored)
    · cases stored
  · exact h.countHerr

protected theorem MemoryOk.execHostMmio (h : MemoryOk s) : OutOk (execHostMmio s) :=
  h.unitStep fun _ _ h => .ite h.mmioWrite h.mmioRead

protected theorem MemoryOk.nextPower {z : Nat} (h : MemoryOk s) : MemoryOk (nextPower s z) := by
  unfold nextPower
  split
  · exact h.denyReq
  · exact h.startPower

protected theorem MemoryOk.endPhase {z : Nat} {same goOn : State → State} (h : MemoryOk s)
    (hSame : ∀ t, MemoryOk t → MemoryOk (same t)) (hGoOn : ∀ t, MemoryOk t → MemoryOk (goOn t)) :
    MemoryOk (endPhase s z same goOn) := by
  unfold endPhase
  dsimp only
  refine .ite ?_ (hGoOn _ h)
  split
  · split
    · exact (hGoOn _ h.modPower).denyReq
    · exact hGoOn _ h.modPower
  · split
    · exact MemoryOk.denyReq (.ite (hSame _ h.modPower) h.modPower.modPower.startPower)
    · exact .ite (hSame _ h.modPower) h.modPower.modPower.startPower

protected theorem MemoryOk.stepDone {z : Nat} (h : MemoryOk s) : MemoryOk (stepDone s z) := h.modPower

protected theorem MemoryOk.switched {z : Nat} {t : BitVec 3} (h : MemoryOk s) : MemoryOk (switched s z t) :=
  h.modPower.resumeWaits

protected theorem MemoryOk.stopEnd {z : Nat} (h : MemoryOk s) : MemoryOk (stopEnd s z) := by
  unfold stopEnd
  dsimp only
  split
  · exact h.switched.endPhase (fun _ h => h.stepDone) (fun _ h => h.stepDone)
  · exact h.switched.endPhase (fun _ h => .ite h.stepDone h.startRamp) (fun _ h => .ite h.stepDone h.startRamp)
  · exact h

protected theorem MemoryOk.rampEnd {z : Nat} (h : MemoryOk s) : MemoryOk (rampEnd s z) := by
  unfold rampEnd
  dsimp only
  split
  · exact h.modPower.endPhase (fun _ h => h.restPower) (fun _ h => h.startSwitch)
  · exact h.modPower.endPhase (fun _ h => h.stepDone) (fun _ h => h.stepDone)
  · exact h

protected theorem MemoryOk.retarget {z : Nat} (h : MemoryOk s) : MemoryOk (retarget s z) := by
  unfold retarget
  split
  · exact h.modPower
  · exact h.nextPower

protected theorem MemoryOk.thermalHalt {z : Nat} (h : MemoryOk s) : MemoryOk (thermalHalt s z) :=
  .ite h.stopWaits.modPower h

protected theorem MemoryOk.execThermalClear (h : MemoryOk s) : OutOk (execThermalClear s) := by
  unfold execThermalClear
  dsimp only
  refine h.unitStep fun _ _ h => .ite (MemoryOk.retarget (.ite h.modPower.resumeWaits h.modPower)) ?_
  exact .ite h.modPower.resumeWaits h.modPower

protected theorem MemoryOk.endReport {stat : Word} (h : MemoryOk s) : MemoryOk (endReport s stat) := h

protected theorem MemoryOk.settleReport {lost : List Nat} (h : MemoryOk s) : MemoryOk (settleReport s lost) := by
  unfold settleReport
  split
  · exact h
  · exact .ite h.endReport (.ite h h.endReport)

protected theorem MemoryOk.reportDone {p : Nat} (h : MemoryOk s) : MemoryOk (reportDone s p) := by
  unfold reportDone
  dsimp only
  refine .ite ?_ h
  split
  · have h₁ := h.partRange.of_eq ‹_›
    exact .ite h₁.endReport h₁.partWrite.congr.settleReport
  · exact (h.partRange.of_eq ‹_›).endReport

end Sys2Proof.Machine
end

section
/-! SUPPORT. Ports, links, CXL, HBM, and the boot (20). -/

namespace Sys2Proof.Machine

set_option Elab.async false

variable {s : State}

protected theorem MemoryOk.armRoutes {n : Nat} (h : MemoryOk s) : MemoryOk (armRoutes s n) :=
  h.foldl fun _ _ h => h.armRoute

protected theorem MemoryOk.portDown {n : Nat} (h : MemoryOk s) : MemoryOk (portDown s n) :=
  .ite h.modPort.armRoutes h.modPort

protected theorem MemoryOk.portUp {n lanes : Nat} (h : MemoryOk s) : MemoryOk (portUp s n lanes) :=
  h.modPort.disarmRoutes

protected theorem MemoryOk.execPortUp (h : MemoryOk s) : OutOk (execPortUp s) :=
  h.unitStep fun _ _ h => .ite h.portUp h

protected theorem MemoryOk.linkFailed {o : OutPacket} {status : Nat} (h : MemoryOk s) :
    MemoryOk (linkFailed s o status) := h.logRecord

protected theorem MemoryOk.dropReport {o : OutPacket} (h : MemoryOk s) : MemoryOk (dropReport s o) :=
  h.elim fun _ => h.closeReport

protected theorem MemoryOk.reportSet {o : OutPacket} (h : MemoryOk s) : MemoryOk (reportSet s o) :=
  h.elim fun _ => h.reportPerformed

protected theorem MemoryOk.peerRefused {o : OutPacket} {status : Nat} (h : MemoryOk s) :
    MemoryOk (peerRefused s o status) := by
  unfold peerRefused
  refine .ite h.linkFailed ?_
  split
  · exact h
  · exact h.reportRecord.dropReport

protected theorem MemoryOk.routeFails {p m : Nat} (h : MemoryOk s) : MemoryOk (routeFails s p m) := by
  unfold routeFails
  dsimp only
  refine .ite h ?_
  exact ((h.modPeer.foldl (fun _ _ h => h.bringFar)).foldl (fun _ _ h => h.dropReport.linkFailed)).settleReport

protected theorem MemoryOk.sendReply {m : Nat} {p : Packet} {bs : List Byte} (h : MemoryOk s) :
    MemoryOk (sendReply s m p bs) := h.modPeer

protected theorem MemoryOk.answerRead {p : Packet} (h : MemoryOk s) : MemoryOk (answerRead s p) :=
  h.noteBad.noteFixes.sendReply

protected theorem MemoryOk.applyPacket {p : Packet} (h : MemoryOk s) : MemoryOk (applyPacket s p) := by
  unfold applyPacket
  refine .ite h.answerRead (.ite ?_ (.ite h.noteBad h.writePlaces))
  split
  · exact h.landBlock.of_eq ‹_›
  · exact (h.landBlock.of_eq ‹_›).blockRecord

protected theorem MemoryOk.applyHeld {m n : Nat} (h : MemoryOk s) : MemoryOk (applyHeld m n s) := by
  induction n generalizing s with
  | zero => exact h
  | succ n ih =>
    unfold applyHeld
    dsimp only
    split
    · exact h
    · exact ih h.modPeer.applyPacket

protected theorem MemoryOk.takeNumbered {p : Packet} {next : BitVec 48} (h : MemoryOk s) :
    MemoryOk (takeNumbered s p next) := by
  unfold takeNumbered
  dsimp only
  refine .ite ?_ ?_
  · exact MemoryOk.sendReply (MemoryOk.applyHeld (MemoryOk.applyPacket (MemoryOk.modPeer (.ite h.modPeer h))))
  · refine .ite ?_ (MemoryOk.sendReply (.ite (MemoryOk.answerRead (.ite h.modPeer h)) (.ite h.modPeer h)))
    exact .ite (.ite h.modPeer h) (MemoryOk.modPeer (.ite h.modPeer h))

protected theorem MemoryOk.takeAck {p : Packet} {status seq : Nat} (h : MemoryOk s) :
    MemoryOk (takeAck s p status seq) := by
  unfold takeAck
  dsimp only
  refine MemoryOk.settleReport (MemoryOk.modPeer (MemoryOk.foldl ?_ (fun _ _ h => h.reportSet)))
  split
  · exact h.peerRefused
  · exact h

protected theorem MemoryOk.takeResponse {p : Packet} {bs : List Byte} (h : MemoryOk s) :
    MemoryOk (takeResponse s p bs) := by
  unfold takeResponse
  dsimp only
  split
  · exact h
  · exact h.modPeer.bringFar

protected theorem MemoryOk.takePacket {p : Packet} {bs : List Byte} {status seq : Nat} {next : BitVec 48}
    (h : MemoryOk s) : MemoryOk (takePacket s p bs status seq next) :=
  .ite h.countHerr (.ite h.takeAck (.ite h.takeResponse h.takeNumbered))

protected theorem MemoryOk.linkReplay {n : Nat} (h : MemoryOk s) : MemoryOk (linkReplay s n) :=
  .ite h.portDown h.modPort

protected theorem MemoryOk.execSloimPacketReceive (h : MemoryOk s) : OutOk (execSloimPacketReceive s) :=
  h.unitStep fun _ _ h => .ite h (.ite h.linkReplay (MemoryOk.takePacket (.ite h.modPort.modPeer h.modPort)))

protected theorem MemoryOk.cxlRequest {p m n : Nat} {write : Bool} {bs : List Byte} (h : MemoryOk s) :
    MemoryOk (cxlRequest s p m n write bs) := by
  unfold cxlRequest
  dsimp only
  split
  · exact .ite h.countHerr.congr h
  · exact .ite (.ite h.writePlaces.congr h.countHerr.congr) (.ite h.noteBad.noteFixes.congr h)

protected theorem MemoryOk.takeSpare {k off lane : Nat} (h : MemoryOk s) : MemoryOk (takeSpare s k off lane) := h.modHbm

protected theorem MemoryOk.loseLane {k off lane : Nat} (h : MemoryOk s) : MemoryOk (loseLane s k off lane) :=
  .ite h.logHbm.uncorrectable.modHbm.logHbm h.takeSpare.logHbm.uncorrectable

protected theorem MemoryOk.hbmAccess {k off : Nat} {write : Bool} {x : HbmKind} (h : MemoryOk s) :
    MemoryOk (hbmAccess s k off write x) := by
  unfold hbmAccess
  split
  · exact h
  · exact .ite h h.correctUnit
  · exact .ite h h.uncorrectable
  · exact .ite h.logHbm h
  · exact .ite h.loseLane h.takeSpare.logHbm
  · exact h.loseLane
  · exact h.loseLane

protected theorem MemoryOk.recordStack {k : Nat} (h : MemoryOk s) : MemoryOk (recordStack s k) := by
  unfold recordStack
  dsimp only
  exact h.congr.modHbm

protected theorem MemoryOk.execHbmAccess (h : MemoryOk s) : OutOk (execHbmAccess s) :=
  h.unitStep fun _ _ h => .ite h.hbmAccess.recordStack h.hbmAccess

protected theorem MemoryOk.applyLaneMap (h : MemoryOk s) : MemoryOk (applyLaneMap s) := h.foldl fun _ _ h => h.modHbm

protected theorem MemoryOk.trainPorts {lanes : Nat} (h : MemoryOk s) : MemoryOk (trainPorts s lanes) :=
  h.foldl fun _ _ h => h.portUp

protected theorem MemoryOk.setPartitions {alt : Bool} {bad : Nat} (h : MemoryOk s) :
    MemoryOk (setPartitions s alt bad) := h.foldl fun _ _ h => h.pcfgWrite

protected theorem MemoryOk.wakeOwned (h : MemoryOk s) : MemoryOk (wakeOwned s) :=
  h.foldl fun _ _ h => .ite h.modStratum h

protected theorem MemoryOk.applyRowRepairs (h : MemoryOk s) : MemoryOk (applyRowRepairs s) :=
  h.foldl fun _ _ h => h.modHbm

protected theorem MemoryOk.bootWork {i : BootIn} {n : Nat} {alt : Bool} (h : MemoryOk s) :
    MemoryOk (bootWork i n alt s) := by
  unfold bootWork
  dsimp only
  refine .ite h (.ite h.applyLaneMap ?_)
  exact .ite h.applyRowRepairs (.ite h.trainPorts (.ite h.setPartitions.wakeOwned h))

protected theorem MemoryOk.bootStep {i : BootIn} {warm : Bool} {again : Step} {n : Nat} (h : MemoryOk s) :
    MemoryOk (bootStep i warm again s n) := by
  unfold bootStep
  dsimp only
  refine .ite h (.ite h (.ite h.modBoot.congr ?_))
  split
  · exact h.modBoot.bootWork.congr
  · exact .ite h.modBoot.congr h.modBoot.congr

/-- What a warm reset keeps of memory is physical memory (20 R423). -/
protected theorem MemoryOk.resetState {warm : Bool} (h : MemoryOk s) : MemoryOk (resetState s warm) := by
  refine ⟨?_, fun _ => rfl, fun _ => rfl, fun _ => rfl⟩
  unfold resetState
  dsimp only
  split
  · exact h.1
  · exact wf_nil

protected theorem MemoryOk.bootSwap {e : Nat} (h : MemoryOk s) : MemoryOk (bootSwap s e) := .ite h h.takeSpare

protected theorem MemoryOk.recordRepairs {swaps : List Nat} (h : MemoryOk s) : MemoryOk (recordRepairs s swaps) :=
  .ite h ((h.foldl (fun _ _ h => h.bootSwap)).foldl (fun _ _ h => h.recordStack))

protected theorem MemoryOk.runBoot {i : BootIn} {warm : Bool} {again : Step} (h : MemoryOk s) :
    MemoryOk (runBoot i warm again s) := (h.resetState.foldl (fun _ _ h => h.bootStep)).recordRepairs

end Sys2Proof.Machine
end

section
/-! SUPPORT. Every instruction, the step, and the proof of the statement about it. -/

namespace Sys2Proof.Machine

set_option Elab.async false

variable {s : State}

protected theorem MemoryOk.exec {i : Instr} (h : MemoryOk s) : OutOk (exec i s) := by
  cases i with
  | nop | trap => exact h.issue fun _ h => h
  | li | mov | sel | rdtime | wdget | mulh | mulhu | and | or | xor | andn | min | max | minu | maxu | clz | ctz |
    popc | sext | zext | lea | bfx | bfi | empty | pcnt | pfirst | vextr =>
    exact h.issue fun _ h => h.setS
  | cmpq | qop => exact h.issue fun _ h => h.setQ
  | br | jr => exact h.issue fun _ h => h.transfer (fun _ h => h)
  | cbr => exact h.execCbr
  | jl | jlr => exact h.issue fun _ h => h.transfer (fun _ h => h.setS)
  | syscall => exact h.execSyscall
  | yield => exact h.issue fun _ h => h.modMe.laterCycles
  | ld => exact h.issueWith fun _ h => h.loadBody
  | lda => exact h.execLda
  | st | stl => exact h.issueWith fun _ h => h.storeBody
  | ldsy => exact h.execLdsy
  | feclr => exact h.execFeclr
  | pref => exact h.execPref
  | vadd | vsub | vmul | vmin | vmax | vdiv => exact h.issue fun _ h => h.fp2
  | vfma | vfms | vfnma => exact h.issue fun _ h => h.fp3
  | vabs | vneg | vrcp | vrsq | vrsqe | vsqrt | vexp2 | vlog2 | vclass => exact h.issue fun _ h => h.fp1
  | vld | vlds | vgth => exact h.issueWith fun _ h => h.vloadBody
  | vst | vsts | vsct => exact h.issueWith fun _ h => h.vstoreBody
  | vldsy => exact h.execVldsy
  | strm => exact h.issue fun _ h => h.modRegs
  | spopStream => exact h.issueWith fun _ h => h.spopBody
  | spopFifo => exact h.execSpopFifo
  | spush => exact h.execSpush
  | cpy | cpy2d | cpyst => exact h.issueWith fun _ h => h.copyBody
  | cpyw => exact h.issue fun _ h => h.produce
  | copyUnit => exact h.execCopyUnit
  | copyCompletion => exact h.execCopyCompletion
  | amo | amocas => exact h.issue fun _ h => h.amoBody (fun _ _ h => h.seProduce)
  | amor => exact h.issue fun _ h => h.amoBody (fun _ _ h => h.seSend)
  | fence => exact h.execFence
  | fencee => exact h.issue fun _ h => h.modMe
  | seAccess => exact h.execSeAccess
  | remoteStoreArrival => exact h.postedArrive
  | privateOverflowPerform => exact h.execPrivateOverflowPerform
  | retrievalBucketOperation => exact h.execRetrievalBucketOperation
  | rfenceAck => exact h.execRfenceAck
  | rhv | rins | rdel | rhash | rdirty => exact h.issue fun _ h => h.ruBody (fun _ h => h.pushCmd)
  | rprobe | rstat => exact h.issue fun _ h => h.ruBody (fun _ h => h.produce.pushCmd)
  | rhashFifo => exact h.execRhashFifo
  | rfence => exact h.execRfence
  | rtset | rtsetInit => exact h.issue fun _ h => h.rtsetBody
  | trate => exact h.execTrate
  | treg | tregInit => exact h.issue fun _ h => h.tregBody
  | tregX => exact h.execTregX
  | tstep => exact h.execTstep
  | tadv | tadvr | tclrE | tclrD => exact h.issue fun _ h => h.regionCommand (fun _ _ => h.pushTrace (fun _ h => h))
  | trd => exact h.execTrd
  | rwd | rwdC => exact h.issue fun _ h => h.rwdBody
  | rwdw => exact h.execRwdw
  | trhz => exact h.execTrhz
  | traceCommandApply => exact h.execTraceCommandApply
  | rewardSweep => exact h.traceStep fun _ _ h => h.sweepNext
  | sts => exact h.execSts
  | stsb => exact h.execStsb
  | swait => exact h.execSwait
  | swaitOwn => exact h.execSwaitOwn
  | wdset => exact h.execWdset
  | bqpop => exact h.execBqpop
  | bqdone => exact h.execBqdone
  | bred => exact h.execBred
  | bsend => exact h.execBsend
  | add | sub | mul | div | divu | rem | remu | shl | shr | sar | ror => exact h.issue fun _ h => h.alu
  | rdspec => exact h.execRdspec
  | send => exact h.issue fun _ h => h.sendBody
  | sendp => exact h.execSendp
  | chmask => exact h.issue fun _ h => h.modChan.setS
  | bara => exact h.execBara
  | barw => exact h.execBarw
  | grab => exact h.execGrab
  | rngset => exact h.issue fun _ h => h.pushRange
  | flowsig => exact h.execFlowsig
  | eventArrival => exact h.execEventArrival
  | sendAcceptance => exact h.execSendAcceptance
  | undeliverableReturn => exact h.execUndeliverableReturn
  | eventBind => exact h.execEventBind
  | hostEventForward => exact h.partStep fun _ _ h => h.forwardEvent
  | evtailWrite => exact h.execEvtailWrite
  | barrierPhaseComplete => exact h.execBarrierPhaseComplete
  | barrierCombine => exact h.partStep fun _ _ h => h.combineBarrier
  | lqtailWrite => exact h.execLqtailWrite
  | jobAdmission => exact h.partStep fun _ _ h => h.admitNext
  | counterDecrement => exact h.partStep fun _ _ h => h.applyDec
  | launchPriorityAging => exact h.partStep fun _ _ h => h.ageGangs
  | placementRound => exact h.partStep fun _ _ h => h.placementRound
  | gangCompletion => exact h.partStep fun _ _ h => h.completeGang
  | fttailWrite => exact h.execFttailWrite
  | ftlostClear => exact h.execFtlostClear
  | viadd | visub | vimul | vimulh | vand | vor | vxor | vshl | vshr | vsar | vimin | vimax | vqadd =>
    exact h.issue fun _ h => h.int2
  | vcmp => exact h.execVcmp
  | vsel | vbcast | vins | vshuf | vrot | viota | vmov | vdot => exact h.issue fun _ h => h.putV
  | plog => exact h.issue fun _ h => h.setP
  | vcvt => exact h.execVcvt
  | vqnt => exact h.execVqnt
  | vdqnt => exact h.execVdqnt
  | vred => exact h.issue fun _ h => h.setS.raise
  | vscan => exact h.issue fun _ h => h.setV.raise
  | matrixRunGrant => exact h.clusterStep fun _ _ h => h.grantRun
  | matrixRunIdleTimeout => exact h.clusterStep fun _ _ h => h.idleRun
  | matrixCommandStart => exact h.stratumCoreStep fun _ _ h => h.startHead
  | matrixCommandComplete => exact h.stratumCoreStep fun _ _ h => h.completeHead
  | rotationArrival => exact h.clusterStep fun _ _ h => h.rotationArrive
  | mlease => exact h.execMlease
  | mrel => exact h.execMrel
  | mls | mma | mrot | mst | mzero => exact h.issue fun _ h => h.arrayBody
  | mmag => exact h.execMmag
  | mldt => exact h.issueWith fun _ h => h.mldtBody
  | mstat => exact h.execMstat
  | gset => exact h.execGset
  | gclr => exact h.execGclr
  | gclrR => exact h.execGclrR
  | mwait => exact h.execMwait
  | done => exact h.execDone
  | csrr | csrw | csrs | csrc => exact h.issue fun _ h => h.csrBody
  | owntagWrite => exact h.execOwntagWrite
  | ellostClear => exact h.execEllostClear
  | eret => exact h.execEret
  | tlbiPage | tlbiAll => exact h.issue fun _ h => h.tlbiBody
  | tlbiKid => exact h.execTlbiKid
  | wfi => exact h.execWfi
  | satw => exact h.execSatw
  | satwApply => exact h.satwApply
  | chset => exact h.execChset
  | preempt => exact h.execPreempt
  | gangctlStatus => exact h.execGangctlStatus
  | gangctlResume => exact h.execGangctlResume
  | gangctlKill => exact h.execGangctlKill
  | sleeps => exact h.execSleeps
  | sleepComplete => exact h.execSleepComplete
  | swellBeatApply => exact h.applyDue
  | wakes => exact h.execWakes
  | mirrorCopyComplete => exact h.execMirrorCopyComplete
  | swellSlotTransmit => exact h.beat
  | yieldExpiry => exact h.execYieldExpiry
  | ctxsv | ctxsvM => exact h.issue fun _ h => h.ctxsvBody
  | ctxld | ctxldM => exact h.issue fun _ h => h.ctxldBody
  | fetchFill => exact h.execFetchFill
  | pageWalk => exact h.execPageWalk
  | producerResult => exact h.execProducerResult
  | rangeUnitOperation => exact h.execRangeUnitOperation
  | runAheadEnd => exact h.execRunAheadEnd
  | issueSelection => exact h.execIssueSelection
  | priorityAging => exact h.execPriorityAging
  | pcfgWrite => exact h.execPcfgWrite
  | routeWrite => exact h.execRouteWrite
  | retrain => exact h.unitStep fun _ _ h => h.retrainPort
  | bqctlOpen => exact h.unitStep fun _ _ h => h.bqOpen
  | bqctlClose => exact h.unitStep fun _ _ h => h.bqClose
  | reqWrite => exact h.execReqWrite
  | raslostClear => exact h.unitStep fun _ _ h => h.modHbm
  | bootclr => exact h.bootClear
  | atgo => exact h.startReport
  | registerWrite => exact h.execRegisterWrite
  | hostMmio => exact h.execHostMmio
  | frequencyStopEnd => exact h.unitStep fun _ _ h => h.stopEnd
  | voltageRampDone => exact h.unitStep fun _ _ h => h.rampEnd
  | thermalCap => exact h.unitStep fun _ _ h => h.modPower.retarget
  | thermalHalt => exact h.unitStep fun _ _ h => h.thermalHalt
  | thermalClear => exact h.execThermalClear
  | stallWindow => exact h.unitStep fun _ _ h => h.modPower
  | attestationReportDone => exact h.unitStep fun _ _ h => h.reportDone
  | portDown => exact h.unitStep fun _ _ h => h.portDown
  | portUp => exact h.execPortUp
  | routeFailTimeout => exact h.unitStep fun _ _ h => h.routeFails
  | sloimPacketReceive => exact h.execSloimPacketReceive
  | cxlMemRequest => exact h.unitStep fun _ _ h => h.cxlRequest
  | hbmAccess => exact h.execHbmAccess
  | coldReset | wreset => exact h.runBoot

protected theorem MemoryOk.fetchFailed {c n : Nat} {t : Trap} (h : MemoryOk s) : MemoryOk (fetchFailed s c n t) :=
  .ite h.endAhead (.ite h.wait h.takeTrap)

protected theorem MemoryOk.runInstr {c n : Nat} (h : MemoryOk s) : OutOk (runInstr s c n) := by
  unfold runInstr
  extract_lets r
  have started : MemoryOk (withBrought { s with cur := (c, n), issuing := false, waited := false } r) :=
    MemoryOk.withBrought (MemoryOk.congr h)
  refine h.farGate ?_
  split
  · rename_i e
    exact (started.fetchInstr.of_eq e).exec
  · rename_i e
    exact (started.fetchInstr.of_eq e).fetchFailed
  · rename_i e
    exact (started.fetchInstr.of_eq e).wait

protected theorem MemoryOk.sendFor {c n : Nat} (h : MemoryOk s) : MemoryOk (sendFor s c n) := by
  have started :
      MemoryOk (withBrought { s with cur := (c, n), issuing := false, waited := false } (instrReader s c n)) :=
    MemoryOk.withBrought (MemoryOk.congr h)
  unfold sendFor
  split
  · exact h
  · split
    · rename_i e
      have waits : MemoryOk (wait _) := (started.fetchInstr.of_eq e).wait
      split
      · rename_i asked
        exact MemoryOk.congr ((h.farGate (o := .next _) waits).of_next asked)
      · exact h
    · split
      · exact h
      · split
        · rename_i ran
          split
          · exact MemoryOk.congr (h.runInstr.of_next ran)
          · exact h
        · exact h

protected theorem MemoryOk.countCycles (h : MemoryOk s) : MemoryOk (countCycles s) := h

protected theorem MemoryOk.countRuns (h : MemoryOk s) : MemoryOk (countRuns s) := h.foldl fun _ _ h => h.countRun

protected theorem MemoryOk.nextCycle (h : MemoryOk s) : MemoryOk (nextCycle s) := by
  unfold nextCycle
  dsimp only
  split
  · exact MemoryOk.congr (h.foldl (fun _ _ h => h.sendFor))
  · exact h.countCycles.countRuns.congr

protected theorem MemoryOk.machineStep (h : MemoryOk s) : OutOk (machineStep s) := by
  unfold machineStep
  dsimp only
  refine .ite h.runInstr ?_
  split
  · exact .ite h (h.congr.farGate h.congr.withBrought.exec)
  · exact h.nextCycle

/-- Settles O7: every write of memory replaces, adds or erases one byte in order, and every operation of the model is
made of such writes and of updates of other fields, so the next state of a step keeps the form (log 1). -/
theorem stepKeepsMemory : Obligations.StepKeepsMemory := fun _ _ h next => h.machineStep.of_next next

end Sys2Proof.Machine
end
